-- ==== Sys2Proof/Word.lean ====
section
/-!
DEFINITION. The machine's word types and their plainest arithmetic (R5, R44).
-/

namespace Sys2Proof

/-- A byte of memory (R5). -/
abbrev Byte := BitVec 8

/-- A 32-bit scalar value (R19). -/
abbrev Word := BitVec 32

/-- A 64-bit pair value (R21). -/
abbrev DWord := BitVec 64

/-- The 128 bits of a queue entry or a peg: word 0 in bits [31:0] (R30, R41). -/
abbrev Entry := BitVec 128

/-- Sign extension to 32 bits, `SX(x, 32)` of R44. -/
abbrev sx32 {n : Nat} (x : BitVec n) : Word := x.signExtend 32

/-- Sign extension to 64 bits, `SX(x, 64)` of R44. -/
abbrev sx64 {n : Nat} (x : BitVec n) : DWord := x.signExtend 64

/-- Zero extension to 32 bits, `ZX(x, 32)` of R44. -/
abbrev zx32 {n : Nat} (x : BitVec n) : Word := x.zeroExtend 32

/-- Zero extension to 64 bits, `ZX(x, 64)` of R44. -/
abbrev zx64 {n : Nat} (x : BitVec n) : DWord := x.zeroExtend 64

end Sys2Proof
end

