-- ==== Sys2Proof/Syntax.lean ====
section
/-!
DEFINITION. The instructions of the DN-9440: one constructor for each row of spec/opcode_table.json.

The first 220 constructors are the encoded instructions of R58 and R59; their arguments are the encoding's own
fields (R46 to R48), so that an encoder can give every field back.
The other constructors are the steps of agents other than threads (spec/95_what_each_step_holds.md): they have no
encoding, and their arguments name where the step happens and what arrives from outside.
-/

namespace Sys2Proof

/-- A capability register or a capability in memory with its hidden tag (R25, R246). -/
structure Cap where
  tag  : Bool
  bits : BitVec 128
  deriving DecidableEq, Repr

/-- The reach of a detected error, from narrowest to widest (R353). -/
inductive Reach where
  | none | thread | core | stop | die | stack | package | tray
  deriving DecidableEq, Repr

/-- A physical unit that an error report or a diagnosis names (R359, R369): a core by its die, row, column and place in its
stop. -/
inductive UnitName where
  | core (pkg pdie row col index : Nat)
  | stop (pkg pdie row col : Nat)
  | way (pkg base slice way : Nat)
  | page (pkg page : Nat)
  | module (pkg base index : Nat)
  | coreDie (pkg pdie : Nat)
  | stack (pkg stack : Nat)
  | package (pkg : Nat)
  | servicePair (pkg : Nat)
  deriving DecidableEq, Repr

/-- The action a diagnosis asks for (R359, R369). -/
inductive RecoveryAction where
  | none | rollback | stopSparing | wayDisable | pageRetire | dieSparing | stackRemap | packageSparing
  deriving DecidableEq, Repr

/-- A diagnosis: the unit, the reach and the action (R369). -/
structure Diagnosis where
  unit   : UnitName
  reach  : Reach
  action : RecoveryAction
  deriving DecidableEq, Repr

/-- What a matrix job's checks find (R309, R310): nothing, an error in the array, the latch or `tbl`, or a parity error
of an accumulator; `latent` is a bit of the accumulator that flips once the job has left it, which its next read finds. -/
inductive JobError where
  | none | array | accumulator | latent
  deriving DecidableEq, Repr

/-- What a drain marker ends: the path of messages stamped with an incarnation of a base or core die (R337), or an old
route to a package (R341). -/
inductive DrainMark where
  | die (base : Bool) (phys : Nat) (inc : BitVec 8)
  | route (dest : Nat)
  deriving DecidableEq, Repr

/-- The last flit of a pod frame: the sequence number of the frame, an acknowledgement, and the stops of the five channels
(R340). -/
structure PodFrame where
  seq  : Nat
  ack  : Nat
  stop : BitVec 5
  deriving DecidableEq, Repr

/-- The timestamps of an exchange between a package and its tree parent: the package sent, the parent received and
answered, and the answer came back (R342). -/
structure SyncTimes where
  sent     : Nat
  got      : Nat
  answered : Nat
  back     : Nat
  deriving DecidableEq, Repr

/-- An error of a line of L2 or HBM: an address of it, whether its code corrects it, the package that holds the entry it
strikes with the view of a version (0 for the base line or a read copy), and the way of its slice (R255, R357, R359). -/
structure LineError where
  addr      : Nat
  corrected : Bool
  pkg       : Nat
  view      : Nat
  way       : Fin 16
  deriving DecidableEq, Repr

/-- A write of the notify register of a service queue (R368). -/
structure NotifyWrite where
  queue : Nat
  value : BitVec 64
  deriving DecidableEq, Repr

/-- What the built-in tests of a package's raising find: the core dies that pass, and the stop maps by physical die and row
(R360, R373). -/
structure DieTests where
  passing : List Nat
  maps    : List (Nat × BitVec 34)
  deriving DecidableEq, Repr

/-- A truss entry that the control dies rewrite: its router, child ports and parent, and the packages at the other ends of
its pod ports (R331, R333). -/
structure TrussChange where
  router : Nat
  cmask  : BitVec 40
  par    : BitVec 6
  peers  : List (Nat × Nat)
  deriving DecidableEq, Repr

/-- One row of the rights table that the service OS writes: tenant, host or GLOBAL region, and the rights
`wc at wr rd` from bit 3 down to bit 0 (R267). -/
structure RightsRow where
  dom    : Nat
  host   : Bool
  region : Nat
  rights : BitVec 4
  deriving DecidableEq, Repr

/-- What the control die and the service OS bring to a binding beside the binding request of R347: the tenant
image's parts (R69), the root capabilities of the capability blocks (R247, R275) and the sizes firmware carves. -/
structure BindSupply where
  /-- The code region, one halfword an entry (R45). -/
  code       : List (BitVec 16)
  /-- The stage descriptors of R273. -/
  stages     : List (BitVec 128)
  /-- The sizes that `.gang` gives stages of the image: stage index and size (R69). -/
  gangs      : List (Nat × Nat)
  /-- The `local` section's bytes (R69, R400). -/
  localImage : List (BitVec 8)
  /-- The `const` and `global` sections: a GLOBAL address and bytes each. -/
  sections   : List (Nat × List (BitVec 8))
  /-- Capabilities to write: core name, partition offset, capability (R275). -/
  caps       : List (Nat × Nat × Cap)
  /-- Page-table writes of the service OS: table key and entry (R269). A key below 2^20 is a level-1 index; above, it is
  2^20 + 32 i + j for entry j of the level-2 table of level-1 index i. -/
  maps       : List (Nat × BitVec 64)
  /-- Rights-table rows of the service OS (R267). -/
  rights     : List RightsRow
  /-- Launch-rights entries of the control die, each with its pod set (R343). -/
  launch     : List (BitVec 128 × List Nat)
  /-- The tenant's spill share in messages (R328). -/
  spillShare : Nat
  /-- Buckets of the tenant's overflow area (R260). -/
  overflow   : Nat
  /-- Bytes of the tenant's preserve area (R253). -/
  preserve   : Nat
  /-- Whether the service OS publishes the injection block to the tenant (R391). -/
  injection  : Bool
  deriving DecidableEq, Repr


/-- One instruction or one step of another agent: one constructor for each row of spec/opcode_table.json. -/
inductive Instr where
  /-- R107. Adds two scalars or pairs modulo 2^w. -/
  | add (d : BitVec 5) (a : BitVec 5) (b : BitVec 5) (w : BitVec 1)
  /-- R107. Subtracts the second operand from the first modulo 2^w. -/
  | sub (d : BitVec 5) (a : BitVec 5) (b : BitVec 5) (w : BitVec 1)
  /-- R107. Writes the low w bits of the product. -/
  | mul (d : BitVec 5) (a : BitVec 5) (b : BitVec 5) (w : BitVec 1)
  /-- R107. Writes the high half of the signed product. -/
  | mulh (d : BitVec 5) (a : BitVec 5) (b : BitVec 5) (w : BitVec 1)
  /-- R107. Writes the high half of the unsigned product. -/
  | mulhn (d : BitVec 5) (a : BitVec 5) (b : BitVec 5) (w : BitVec 1)
  /-- R107. Signed division truncated toward zero; division by zero gives all ones and sets dz. -/
  | div (d : BitVec 5) (a : BitVec 5) (b : BitVec 5) (w : BitVec 1)
  /-- R107. Unsigned division; division by zero gives all ones and sets dz. -/
  | divn (d : BitVec 5) (a : BitVec 5) (b : BitVec 5) (w : BitVec 1)
  /-- R107. Signed remainder with the sign of the dividend. -/
  | rem (d : BitVec 5) (a : BitVec 5) (b : BitVec 5) (w : BitVec 1)
  /-- R107. Unsigned remainder. -/
  | remn (d : BitVec 5) (a : BitVec 5) (b : BitVec 5) (w : BitVec 1)
  /-- R107. Bitwise AND. -/
  | and (d : BitVec 5) (a : BitVec 5) (b : BitVec 5) (w : BitVec 1)
  /-- R107. Bitwise OR. -/
  | or (d : BitVec 5) (a : BitVec 5) (b : BitVec 5) (w : BitVec 1)
  /-- R107. Bitwise exclusive OR. -/
  | xor (d : BitVec 5) (a : BitVec 5) (b : BitVec 5) (w : BitVec 1)
  /-- R107. AND of the first operand with the complement of the second. -/
  | andn (d : BitVec 5) (a : BitVec 5) (b : BitVec 5) (w : BitVec 1)
  /-- R107. Shifts left by a register or immediate amount. -/
  | shl (d : BitVec 5) (a : BitVec 5) (b : BitVec 5) (w : BitVec 1) (ibit : BitVec 1) (hbit : BitVec 1)
  /-- R107. Logical shift right by a register or immediate amount. -/
  | shr (d : BitVec 5) (a : BitVec 5) (b : BitVec 5) (w : BitVec 1) (ibit : BitVec 1) (hbit : BitVec 1)
  /-- R107. Arithmetic shift right by a register or immediate amount. -/
  | sar (d : BitVec 5) (a : BitVec 5) (b : BitVec 5) (w : BitVec 1) (ibit : BitVec 1) (hbit : BitVec 1)
  /-- R107. Rotates left by a register or immediate amount. -/
  | rol (d : BitVec 5) (a : BitVec 5) (b : BitVec 5) (w : BitVec 1) (ibit : BitVec 1) (hbit : BitVec 1)
  /-- R107. Signed minimum. -/
  | min (d : BitVec 5) (a : BitVec 5) (b : BitVec 5) (w : BitVec 1)
  /-- R107. Signed maximum. -/
  | max (d : BitVec 5) (a : BitVec 5) (b : BitVec 5) (w : BitVec 1)
  /-- R107. Unsigned minimum. -/
  | minn (d : BitVec 5) (a : BitVec 5) (b : BitVec 5) (w : BitVec 1)
  /-- R107. Unsigned maximum. -/
  | maxn (d : BitVec 5) (a : BitVec 5) (b : BitVec 5) (w : BitVec 1)
  /-- R107. Writes 1 when the first operand is less, signed. -/
  | slt (d : BitVec 5) (a : BitVec 5) (b : BitVec 5) (w : BitVec 1)
  /-- R107. Writes 1 when the first operand is less, unsigned. -/
  | sltn (d : BitVec 5) (a : BitVec 5) (b : BitVec 5) (w : BitVec 1)
  /-- R107. Counts leading zero bits. -/
  | clz (d : BitVec 5) (a : BitVec 5) (w : BitVec 1)
  /-- R107. Counts trailing zero bits. -/
  | ctz (d : BitVec 5) (a : BitVec 5) (w : BitVec 1)
  /-- R107. Counts one bits. -/
  | popc (d : BitVec 5) (a : BitVec 5) (w : BitVec 1)
  /-- R58. 16-bit form of ADD sa, sa, sb. -/
  | addShort (a : BitVec 5) (b : BitVec 5)
  /-- R58. 16-bit form of SUB sa, sa, sb. -/
  | subShort (a : BitVec 5) (b : BitVec 5)
  /-- R58. 16-bit form of AND sa, sa, sb. -/
  | andShort (a : BitVec 5) (b : BitVec 5)
  /-- R58. 16-bit form of OR sa, sa, sb. -/
  | orShort (a : BitVec 5) (b : BitVec 5)
  /-- R58. 16-bit form of XOR sa, sa, sb. -/
  | xorShort (a : BitVec 5) (b : BitVec 5)
  /-- R58. 16-bit shift left by an immediate. -/
  | shlShort (a : BitVec 5) (imm : BitVec 5)
  /-- R58. 16-bit logical shift right by an immediate. -/
  | shrShort (a : BitVec 5) (imm : BitVec 5)
  /-- R58. 16-bit arithmetic shift right by an immediate. -/
  | sarShort (a : BitVec 5) (imm : BitVec 5)
  /-- R58. 16-bit add of a signed 5-bit immediate. -/
  | addiShort (a : BitVec 5) (imm : BitVec 5)
  /-- R58. 16-bit load of a signed 5-bit immediate. -/
  | liShort (a : BitVec 5) (imm : BitVec 5)
  /-- R58. 16-bit form of MIN sa, sa, sb. -/
  | minShort (a : BitVec 5) (b : BitVec 5)
  /-- R58. 16-bit form of MAX sa, sa, sb. -/
  | maxShort (a : BitVec 5) (b : BitVec 5)
  /-- R114. 16-bit branch when the register is zero. -/
  | bzShort (a : BitVec 5) (off : BitVec 5)
  /-- R114. 16-bit branch when the register is nonzero. -/
  | bnzShort (a : BitVec 5) (off : BitVec 5)
  /-- R58. 16-bit LD.n32 at a small immediate offset. -/
  | ldShort (a : BitVec 5) (c : BitVec 3) (j : BitVec 2)
  /-- R58. 16-bit ST.n32 at a small immediate offset. -/
  | stShort (a : BitVec 5) (c : BitVec 3) (j : BitVec 2)
  /-- R116. Takes one turn and advances pc by 2. -/
  | nop
  /-- R187. 16-bit form of QUIT. -/
  | quitShort
  /-- R112. 16-bit jump to a register target. -/
  | jrShort (a : BitVec 5)
  /-- R112. 16-bit jump to a register target writing the link. -/
  | jlrShort (a : BitVec 5)
  /-- R58. 16-bit FADD.f32 sa, sa, sb. -/
  | faddShort (a : BitVec 5) (b : BitVec 5)
  /-- R58. 16-bit FMUL.f32 sa, sa, sb. -/
  | fmulShort (a : BitVec 5) (b : BitVec 5)
  /-- R110. 16-bit copy of a scalar into an extension register. -/
  | emovShort (a : BitVec 5) (b : BitVec 5)
  /-- R54. 16-bit hint that executes as a no-op. -/
  | hintShort (h : BitVec 2) (a : BitVec 5) (b : BitVec 5)
  /-- R54. 32-bit hint (majors 0x78 to 0x7E) that executes as a no-op. -/
  | hint (h : BitVec 3) (x : BitVec 24)
  /-- R108. Selects one of two scalars by a third. -/
  | sel (d : BitVec 5) (a : BitVec 5) (b : BitVec 5) (c : BitVec 5)
  /-- R109. Adds a signed 14-bit immediate. -/
  | addi (d : BitVec 5) (a : BitVec 5) (imm : BitVec 14)
  /-- R109. Loads a sign-extended 19-bit immediate. -/
  | li (d : BitVec 5) (imm : BitVec 19)
  /-- R109. Writes bits [31:14] of a scalar from an 18-bit immediate. -/
  | lih (d : BitVec 5) (imm : BitVec 18)
  /-- R110. Loads an extension register with a sign-extended immediate. -/
  | eli (d : BitVec 5) (imm : BitVec 19)
  /-- R110. Copies a scalar into an extension register. -/
  | emovToE (d : BitVec 5) (a : BitVec 5)
  /-- R110. Copies an extension register into a scalar. -/
  | emovFromE (d : BitVec 5) (a : BitVec 5)
  /-- R112. Relative unconditional branch. -/
  | b (off : BitVec 24)
  /-- R112. Absolute jump. -/
  | j (off : BitVec 24)
  /-- R112. Absolute jump writing the return address to s31. -/
  | jl (off : BitVec 24)
  /-- R112. Jumps to a register target. -/
  | jr (a : BitVec 5)
  /-- R112. Jumps to a register target writing the link. -/
  | jlr (a : BitVec 5)
  /-- R113. Branches when two scalars are equal. -/
  | beq (d : BitVec 5) (a : BitVec 5) (imm : BitVec 14)
  /-- R113. Branches when two scalars differ. -/
  | bne (d : BitVec 5) (a : BitVec 5) (imm : BitVec 14)
  /-- R113. Branches when less, signed. -/
  | blt (d : BitVec 5) (a : BitVec 5) (imm : BitVec 14)
  /-- R113. Branches when greater or equal, signed. -/
  | bge (d : BitVec 5) (a : BitVec 5) (imm : BitVec 14)
  /-- R113. Branches when less, unsigned. -/
  | bltn (d : BitVec 5) (a : BitVec 5) (imm : BitVec 14)
  /-- R113. Branches when greater or equal, unsigned. -/
  | bgen (d : BitVec 5) (a : BitVec 5) (imm : BitVec 14)
  /-- R114. Branches when the register is zero. -/
  | bz (d : BitVec 5) (imm : BitVec 14)
  /-- R114. Branches when the register is nonzero. -/
  | bnz (d : BitVec 5) (imm : BitVec 14)
  /-- R115. Decrements a count and branches while it is nonzero. -/
  | loop (d : BitVec 5) (imm : BitVec 14)
  /-- R117. Narrows a capability's length. -/
  | csetb (d : BitVec 5) (a : BitVec 5) (b : BitVec 5)
  /-- R117. Advances a capability's base and shortens its length. -/
  | cinc (d : BitVec 5) (a : BitVec 5) (b : BitVec 5)
  /-- R117. Masks a capability's permissions. -/
  | cand (d : BitVec 5) (a : BitVec 5) (b : BitVec 5)
  /-- R117. Reads the low 32 bits of a capability's base. -/
  | cbase (d : BitVec 5) (a : BitVec 5)
  /-- R117. Reads a capability's length, saturated to 32 bits. -/
  | clen (d : BitVec 5) (a : BitVec 5)
  /-- R118. Reads a capability's domain, tag, space and permissions. -/
  | cperm (d : BitVec 5) (a : BitVec 5)
  /-- R120. Reads a control register. -/
  | getc (d : BitVec 5) (num : BitVec 9)
  /-- R121. Writes a control register. -/
  | setc (a : BitVec 5) (num : BitVec 9)
  /-- R122. Reads the package time counter into a pair. -/
  | time (d : BitVec 5)
  /-- R123. Checks the tolerance and sleeps until a PTC value. -/
  | twait (a : BitVec 5)
  /-- R124. Raises a trap fault carrying an immediate. -/
  | trap (imm : BitVec 14)
  /-- R126. Handler resumes a parked slot past its faulting instruction. -/
  | fresume (a : BitVec 5)
  /-- R126. Handler kills a parked slot. -/
  | fkill (a : BitVec 5)
  /-- R126. Handler retries a parked slot's faulting instruction. -/
  | fretry (a : BitVec 5)
  /-- R133. Scalar floating add rounded to odd. -/
  | fadd (d : BitVec 5) (a : BitVec 5) (b : BitVec 5) (ty : BitVec 5)
  /-- R133. Scalar floating subtract. -/
  | fsub (d : BitVec 5) (a : BitVec 5) (b : BitVec 5) (ty : BitVec 5)
  /-- R133. Scalar floating multiply. -/
  | fmul (d : BitVec 5) (a : BitVec 5) (b : BitVec 5) (ty : BitVec 5)
  /-- R134. Scalar floating minimum of extended values. -/
  | fmin (d : BitVec 5) (a : BitVec 5) (b : BitVec 5) (ty : BitVec 5)
  /-- R134. Scalar floating maximum of extended values. -/
  | fmax (d : BitVec 5) (a : BitVec 5) (b : BitVec 5) (ty : BitVec 5)
  /-- R133. Scalar floating divide. -/
  | fdiv (d : BitVec 5) (a : BitVec 5) (b : BitVec 5) (ty : BitVec 5)
  /-- R133. Scalar absolute value keeping the tail. -/
  | fabs (d : BitVec 5) (a : BitVec 5) (ty : BitVec 5)
  /-- R133. Scalar negation keeping the tail. -/
  | fneg (d : BitVec 5) (a : BitVec 5) (ty : BitVec 5)
  /-- R133. Scalar square root. -/
  | fsqrt (d : BitVec 5) (a : BitVec 5) (ty : BitVec 5)
  /-- R137. Writes the class word of a scalar element. -/
  | fclass (d : BitVec 5) (a : BitVec 5) (ty : BitVec 5)
  /-- R135. Compares two extended values and writes a relation code. -/
  | fcmp (d : BitVec 5) (a : BitVec 5) (b : BitVec 5) (ty : BitVec 5)
  /-- R133. Scalar fused multiply-add with one rounding. -/
  | ffma (d : BitVec 5) (a : BitVec 5) (b : BitVec 5) (ty : BitVec 5)
  /-- R138. Scalar reciprocal within one ulp. -/
  | frcp (d : BitVec 5) (a : BitVec 5) (ty : BitVec 5)
  /-- R138. Scalar reciprocal square root. -/
  | frsq (d : BitVec 5) (a : BitVec 5) (ty : BitVec 5)
  /-- R138. Scalar base-2 exponential. -/
  | fexp2 (d : BitVec 5) (a : BitVec 5) (ty : BitVec 5)
  /-- R138. Scalar base-2 logarithm. -/
  | flog2 (d : BitVec 5) (a : BitVec 5) (ty : BitVec 5)
  /-- R138. Scalar sine in half-turns. -/
  | fsin (d : BitVec 5) (a : BitVec 5) (ty : BitVec 5)
  /-- R138. Scalar cosine in half-turns. -/
  | fcos (d : BitVec 5) (a : BitVec 5) (ty : BitVec 5)
  /-- R139. Non-final conversion rounded to odd. -/
  | cvt (d : BitVec 5) (a : BitVec 5) (stype : BitVec 5) (ty : BitVec 5)
  /-- R139. Final conversion under fcr. -/
  | cvtf (d : BitVec 5) (a : BitVec 5) (stype : BitVec 5) (ty : BitVec 5)
  /-- R139. Rounds to an integral value in the same format. -/
  | frnd (d : BitVec 5) (a : BitVec 5) (stype : BitVec 5) (ty : BitVec 5)
  /-- R141. Reads a scalar element's tail. -/
  | tailget (d : BitVec 5) (a : BitVec 5)
  /-- R141. Copies a scalar and sets its tail. -/
  | tailset (d : BitVec 5) (a : BitVec 5) (b : BitVec 5)
  /-- R141. Reads each enabled lane's tail. -/
  | tailgetV (d : BitVec 5) (a : BitVec 5) (k : BitVec 3)
  /-- R141. Copies lanes and sets their tails. -/
  | tailsetV (d : BitVec 5) (a : BitVec 5) (b : BitVec 5) (k : BitVec 3)
  /-- R133. Vector floating add. -/
  | faddV (d : BitVec 5) (a : BitVec 5) (b : BitVec 5) (ty : BitVec 5) (k : BitVec 3)
  /-- R133. Vector floating subtract. -/
  | fsubV (d : BitVec 5) (a : BitVec 5) (b : BitVec 5) (ty : BitVec 5) (k : BitVec 3)
  /-- R133. Vector floating multiply. -/
  | fmulV (d : BitVec 5) (a : BitVec 5) (b : BitVec 5) (ty : BitVec 5) (k : BitVec 3)
  /-- R134. Vector floating minimum. -/
  | fminV (d : BitVec 5) (a : BitVec 5) (b : BitVec 5) (ty : BitVec 5) (k : BitVec 3)
  /-- R134. Vector floating maximum. -/
  | fmaxV (d : BitVec 5) (a : BitVec 5) (b : BitVec 5) (ty : BitVec 5) (k : BitVec 3)
  /-- R133. Vector floating divide. -/
  | fdivV (d : BitVec 5) (a : BitVec 5) (b : BitVec 5) (ty : BitVec 5) (k : BitVec 3)
  /-- R133. Vector fused multiply-add. -/
  | ffmaV (d : BitVec 5) (a : BitVec 5) (b : BitVec 5) (ty : BitVec 5) (k : BitVec 3)
  /-- R136. Vector compare writing a mask under a predicate. -/
  | fcmpV (pred : BitVec 2) (kd : BitVec 3) (a : BitVec 5) (b : BitVec 5) (ty : BitVec 5) (k : BitVec 3)
  /-- R133. Vector absolute value. -/
  | fabsV (d : BitVec 5) (a : BitVec 5) (ty : BitVec 5) (k : BitVec 3)
  /-- R133. Vector negation. -/
  | fnegV (d : BitVec 5) (a : BitVec 5) (ty : BitVec 5) (k : BitVec 3)
  /-- R133. Vector square root. -/
  | fsqrtV (d : BitVec 5) (a : BitVec 5) (ty : BitVec 5) (k : BitVec 3)
  /-- R137. Vector class words. -/
  | fclassV (d : BitVec 5) (a : BitVec 5) (ty : BitVec 5) (k : BitVec 3)
  /-- R138. Vector reciprocal. -/
  | frcpV (d : BitVec 5) (a : BitVec 5) (ty : BitVec 5) (k : BitVec 3)
  /-- R138. Vector reciprocal square root. -/
  | frsqV (d : BitVec 5) (a : BitVec 5) (ty : BitVec 5) (k : BitVec 3)
  /-- R138. Vector base-2 exponential. -/
  | fexp2V (d : BitVec 5) (a : BitVec 5) (ty : BitVec 5) (k : BitVec 3)
  /-- R138. Vector base-2 logarithm. -/
  | flog2V (d : BitVec 5) (a : BitVec 5) (ty : BitVec 5) (k : BitVec 3)
  /-- R138. Vector sine in half-turns. -/
  | fsinV (d : BitVec 5) (a : BitVec 5) (ty : BitVec 5) (k : BitVec 3)
  /-- R138. Vector cosine in half-turns. -/
  | fcosV (d : BitVec 5) (a : BitVec 5) (ty : BitVec 5) (k : BitVec 3)
  /-- R140. Vector non-final conversion. -/
  | cvtV (d : BitVec 5) (a : BitVec 5) (stype : BitVec 5) (ty : BitVec 5) (k : BitVec 3)
  /-- R140. Vector final conversion. -/
  | cvtfV (d : BitVec 5) (a : BitVec 5) (stype : BitVec 5) (ty : BitVec 5) (k : BitVec 3)
  /-- R140. Vector round to integral. -/
  | frndV (d : BitVec 5) (a : BitVec 5) (stype : BitVec 5) (ty : BitVec 5) (k : BitVec 3)
  /-- R142. Permutes lanes with their tails by an index vector. -/
  | vshuf (d : BitVec 5) (a : BitVec 5) (b : BitVec 5) (k : BitVec 3)
  /-- R142. Rotates lanes round the ring of the gang. -/
  | vrot (d : BitVec 5) (a : BitVec 5) (b : BitVec 5) (k : BitVec 3)
  /-- R142. Broadcasts a scalar with its tail to lanes. -/
  | vbcast (d : BitVec 5) (a : BitVec 5) (k : BitVec 3)
  /-- R142. Selects lanes of two vectors by a mask. -/
  | vsel (d : BitVec 5) (a : BitVec 5) (b : BitVec 5) (k : BitVec 3)
  /-- R142. Writes lane indices offset by a scalar and member. -/
  | vidx (d : BitVec 5) (a : BitVec 5) (k : BitVec 3)
  /-- R143. Sums enabled elements by the fixed tree. -/
  | vredAdd (d : BitVec 5) (a : BitVec 5) (ty : BitVec 5) (k : BitVec 3)
  /-- R143. Minimum of enabled elements. -/
  | vredMin (d : BitVec 5) (a : BitVec 5) (ty : BitVec 5) (k : BitVec 3)
  /-- R143. Maximum of enabled elements. -/
  | vredMax (d : BitVec 5) (a : BitVec 5) (ty : BitVec 5) (k : BitVec 3)
  /-- R143. Bitwise AND of enabled elements. -/
  | vredAnd (d : BitVec 5) (a : BitVec 5) (ty : BitVec 5) (k : BitVec 3)
  /-- R143. Bitwise OR of enabled elements. -/
  | vredOr (d : BitVec 5) (a : BitVec 5) (ty : BitVec 5) (k : BitVec 3)
  /-- R143. Bitwise XOR of enabled elements. -/
  | vredXor (d : BitVec 5) (a : BitVec 5) (ty : BitVec 5) (k : BitVec 3)
  /-- R144. Converts sixteen lanes and packs them narrow. -/
  | pack (d : BitVec 5) (a : BitVec 5) (b : BitVec 5) (ty : BitVec 5) (k : BitVec 3)
  /-- R145. Looks up codebook entries for 4-bit codes. -/
  | vlut (d : BitVec 5) (a : BitVec 5) (ty : BitVec 5) (k : BitVec 3)
  /-- R146. Writes the keyed generator value for scalar operands. -/
  | rndk (d : BitVec 5) (a : BitVec 5) (b : BitVec 5)
  /-- R146. Writes keyed generator values per lane. -/
  | rndkV (d : BitVec 5) (a : BitVec 5) (b : BitVec 5) (k : BitVec 3)
  /-- R149. Captures a body of sequencer instructions for replay. -/
  | vloop (n : BitVec 5) (a : BitVec 5)
  /-- R153. Joins the same slot of neighbouring cores into a gang. -/
  | gang (size : BitVec 3)
  /-- R155. Dissolves the gang. -/
  | split
  /-- R162. Loads a scalar through a register offset. -/
  | ld (d : BitVec 5) (a : BitVec 5) (c : BitVec 3) (ord : BitVec 2) (ty : BitVec 5) (scope : BitVec 3)
  /-- R162. Loads a scalar at a scaled immediate offset. -/
  | ldImm (d : BitVec 5) (c : BitVec 3) (ty : BitVec 5) (imm : BitVec 11)
  /-- R162. Stores raw bits, setting td for a dropped sticky bit. -/
  | st (d : BitVec 5) (a : BitVec 5) (c : BitVec 3) (ord : BitVec 2) (ty : BitVec 5) (scope : BitVec 3)
  /-- R162. Raw store at a scaled immediate offset. -/
  | stImm (d : BitVec 5) (c : BitVec 3) (ty : BitVec 5) (imm : BitVec 11)
  /-- R162. Stores after final rounding. -/
  | fst (d : BitVec 5) (a : BitVec 5) (c : BitVec 3) (ord : BitVec 2) (ty : BitVec 5) (scope : BitVec 3)
  /-- R162. Final-rounding store at an immediate offset. -/
  | fstImm (d : BitVec 5) (c : BitVec 3) (ty : BitVec 5) (imm : BitVec 11)
  /-- R164. Loads a vector under a mask. -/
  | vld (d : BitVec 5) (a : BitVec 5) (c : BitVec 3) (k : BitVec 3) (ty : BitVec 5)
  /-- R164. Loads a whole vector at an immediate offset. -/
  | vldImm (d : BitVec 5) (c : BitVec 3) (ty : BitVec 5) (imm : BitVec 11)
  /-- R164. Stores a vector under a mask. -/
  | vst (d : BitVec 5) (a : BitVec 5) (c : BitVec 3) (k : BitVec 3) (ty : BitVec 5)
  /-- R164. Stores a whole vector at an immediate offset. -/
  | vstImm (d : BitVec 5) (c : BitVec 3) (ty : BitVec 5) (imm : BitVec 11)
  /-- R164. Strided vector load. -/
  | vlds (d : BitVec 5) (a : BitVec 5) (c : BitVec 3) (k : BitVec 3) (ty : BitVec 5) (e : BitVec 3)
  /-- R164. Indexed vector load. -/
  | vgath (d : BitVec 5) (a : BitVec 5) (c : BitVec 3) (k : BitVec 3) (ty : BitVec 5)
  /-- R164. Indexed vector store in ascending element order. -/
  | vscat (d : BitVec 5) (a : BitVec 5) (c : BitVec 3) (k : BitVec 3) (ty : BitVec 5)
  /-- R165. Loads a capability with its tag. -/
  | ldc (d : BitVec 5) (a : BitVec 5) (c : BitVec 3) (ord : BitVec 2) (scope : BitVec 3)
  /-- R165. Stores a capability with its tag. -/
  | stc (d : BitVec 5) (a : BitVec 5) (c : BitVec 3) (ord : BitVec 2) (scope : BitVec 3)
  /-- R166. Writes a register image with tails or tag. -/
  | spill (d : BitVec 5) (a : BitVec 5) (c : BitVec 3) (cls : BitVec 3)
  /-- R166. Restores a register image with tails or tag. -/
  | fill (d : BitVec 5) (a : BitVec 5) (c : BitVec 3) (cls : BitVec 3)
  /-- R167. Atomic add at the home. -/
  | aadd (d : BitVec 5) (a : BitVec 5) (b : BitVec 5) (c : BitVec 3) (ord : BitVec 2) (scope : BitVec 3) (w : BitVec 1)
  /-- R167. Atomic AND. -/
  | aand (d : BitVec 5) (a : BitVec 5) (b : BitVec 5) (c : BitVec 3) (ord : BitVec 2) (scope : BitVec 3) (w : BitVec 1)
  /-- R167. Atomic OR. -/
  | aor (d : BitVec 5) (a : BitVec 5) (b : BitVec 5) (c : BitVec 3) (ord : BitVec 2) (scope : BitVec 3) (w : BitVec 1)
  /-- R167. Atomic XOR. -/
  | axor (d : BitVec 5) (a : BitVec 5) (b : BitVec 5) (c : BitVec 3) (ord : BitVec 2) (scope : BitVec 3) (w : BitVec 1)
  /-- R167. Atomic swap. -/
  | aswap (d : BitVec 5) (a : BitVec 5) (b : BitVec 5) (c : BitVec 3) (ord : BitVec 2) (scope : BitVec 3) (w : BitVec 1)
  /-- R167. Atomic compare and swap. -/
  | acas (d : BitVec 5) (a : BitVec 5) (b : BitVec 5) (c : BitVec 3) (ord : BitVec 2) (scope : BitVec 3) (w : BitVec 1)
  /-- R167. Atomic signed minimum. -/
  | aminSigned (d : BitVec 5) (a : BitVec 5) (b : BitVec 5) (c : BitVec 3) (ord : BitVec 2) (scope : BitVec 3) (w : BitVec 1)
  /-- R167. Atomic unsigned minimum. -/
  | aminUnsigned (d : BitVec 5) (a : BitVec 5) (b : BitVec 5) (c : BitVec 3) (ord : BitVec 2) (scope : BitVec 3) (w : BitVec 1)
  /-- R167. Atomic signed maximum. -/
  | amaxSigned (d : BitVec 5) (a : BitVec 5) (b : BitVec 5) (c : BitVec 3) (ord : BitVec 2) (scope : BitVec 3) (w : BitVec 1)
  /-- R167. Atomic unsigned maximum. -/
  | amaxUnsigned (d : BitVec 5) (a : BitVec 5) (b : BitVec 5) (c : BitVec 3) (ord : BitVec 2) (scope : BitVec 3) (w : BitVec 1)
  /-- R168. Atomic floating add with one final rounding at the home. -/
  | afadd (d : BitVec 5) (a : BitVec 5) (b : BitVec 5) (c : BitVec 3) (ord : BitVec 2) (scope : BitVec 3) (w : BitVec 1)
  /-- R172. Accumulates a source block into an MX block and its scale at the home. -/
  | mxacc (d : BitVec 5) (a : BitVec 5) (b : BitVec 5) (c : BitVec 3) (ty : BitVec 5) (src : BitVec 1)
  /-- R171. Loads one MX block whole. -/
  | mxld (d : BitVec 5) (a : BitVec 5) (b : BitVec 5) (c : BitVec 3) (ty : BitVec 5)
  /-- R171. Stores one MX block whole, raw. -/
  | mxst (d : BitVec 5) (a : BitVec 5) (b : BitVec 5) (c : BitVec 3) (ty : BitVec 5)
  /-- R173. Resolves an MX block to a narrower element format. -/
  | mxres (d : BitVec 5) (a : BitVec 5) (b : BitVec 5) (c : BitVec 3) (ty : BitVec 5)
  /-- R174. Lowers a block's scale without rounding. -/
  | mxnorm (a : BitVec 5) (c : BitVec 3) (ty : BitVec 5)
  /-- R176. Full fence at a scope. -/
  | fence (scope : BitVec 3)
  /-- R176. Acquire fence at a scope. -/
  | fenceAcq (scope : BitVec 3)
  /-- R176. Release fence at a scope. -/
  | fenceRel (scope : BitVec 3)
  /-- R177. Sleeps while a location equals a value. -/
  | waitne (d : BitVec 5) (a : BitVec 5) (b : BitVec 5) (c : BitVec 3) (ord : BitVec 2) (scope : BitVec 3) (w : BitVec 1)
  /-- R179. Arrives at a barrier and sleeps until its phase completes. -/
  | bar (scope : BitVec 3)
  /-- R179. Sleeps until the barrier phase differs from a held value. -/
  | barw (d : BitVec 5) (scope : BitVec 3)
  /-- R179. Reads the phase and arrives without waiting. -/
  | barq (d : BitVec 5) (scope : BitVec 3)
  /-- R182. Counts a queue's entries, or takes an own return from queue 6. -/
  | qpoll (d : BitVec 5) (q : BitVec 3)
  /-- R183. Sends four scalars as a queue entry to a core. -/
  | qsend (a : BitVec 5) (b : BitVec 5) (q : BitVec 3)
  /-- R183. Sends a vector as two adjacent entries. -/
  | qsendd (a : BitVec 5) (b : BitVec 5) (q : BitVec 3)
  /-- R185. Requests a thread start on a core and receives a status. -/
  | spawn (d : BitVec 5) (a : BitVec 5) (b : BitVec 5) (e : BitVec 3) (q : BitVec 3)
  /-- R186. Sends a peg to a stage's input queue or pool. -/
  | callat (d : BitVec 5) (a : BitVec 5) (b : BitVec 5) (stage : BitVec 4)
  /-- R187. Ends the thread and frees its slot. -/
  | quit
  /-- R188. Stages a new slot table. -/
  | slott (a : BitVec 5)
  /-- R191. Binds the A panel of the matrix unit. -/
  | mlda (a : BitVec 5) (b : BitVec 5) (c : BitVec 3) (ty : BitVec 5)
  /-- R191. Loads a B panel into an empty latch buffer. -/
  | mldb (a : BitVec 5) (b : BitVec 5) (c : BitVec 3) (ty : BitVec 5)
  /-- R191. Loads the codebook table. -/
  | mtbl (a : BitVec 5) (c : BitVec 3) (ty : BitVec 5)
  /-- R193. Queues a matrix job and returns its identifier. -/
  | mma (d : BitVec 5) (a : BitVec 5) (acc : BitVec 2) (c : BitVec 3) (ty : BitVec 5)
  /-- R196. Passes the front B panel to the next core of the ring. -/
  | mpass
  /-- R197. Sleeps until a matrix job is complete. -/
  | mwait (a : BitVec 5)
  /-- R197. Reports whether a matrix job is complete. -/
  | mpoll (d : BitVec 5) (a : BitVec 5)
  /-- R198. Zeroes an accumulator. -/
  | mzero (acc : BitVec 2)
  /-- R198. Stores an accumulator with final rounding. -/
  | mstacc (a : BitVec 5) (acc : BitVec 2) (c : BitVec 3) (ty : BitVec 5)
  /-- R199. Sends a matrix command to another core's unit. -/
  | mcmd (d : BitVec 5) (a : BitVec 5) (b : BitVec 5) (c : BitVec 3)
  /-- R202. Checks a copy descriptor and issues a copy. -/
  | cpy (d : BitVec 5) (scope : BitVec 3)
  /-- R202. Issues a copy chained to a predecessor. -/
  | cpyc (d : BitVec 5) (a : BitVec 5) (scope : BitVec 3)
  /-- R206. Sleeps until a copy is complete. -/
  | cpyw (a : BitVec 5)
  /-- R206. Reports the bytes a copy still has to write. -/
  | cpyq (d : BitVec 5) (a : BitVec 5)
  /-- R209. Contributes to a collective group's round. -/
  | gcon (a : BitVec 5) (grp : BitVec 6)
  /-- R209. Sleeps for and reads a collective result. -/
  | gres (d : BitVec 5) (grp : BitVec 6)
  /-- R209. Contributes to a max group and waits for the round's result. -/
  | barmax (d : BitVec 5) (a : BitVec 5) (grp : BitVec 6)
  /-- R217. Opens a world of rival threads. -/
  | fork (d : BitVec 5) (a : BitVec 5) (b : BitVec 5)
  /-- R218. Decides the world for this rival or kills it. -/
  | choose
  /-- R219. Discards the rival's views and frees its slot. -/
  | abandon
  /-- R214. Opens a containment domain. -/
  | dopen (d : BitVec 5) (a : BitVec 5) (scope : BitVec 3)
  /-- R216. Commits the innermost domain. -/
  | dclose
  /-- R220. Reads the view state. -/
  | vstat (d : BitVec 5)
  /-- R323. A barrier arrival or completion signal between dies or packages is received. -/
  | barrierSignal (ten : Nat) (level : Nat) (inst : Nat)
  /-- R218. A losing rival is killed at its next issue. -/
  | losingRivalKill (core : Nat) (slot : Fin 8)
  /-- R281. Scheduler fires an eligible stage into the lowest FREE slot. -/
  | stageFiring (core : Nat) (stage : Fin 16)
  /-- R185. Target core serves a SPAWN request and returns a status. -/
  | spawnRequest (core : Nat)
  /-- R287. A launch message is checked and starts or holds a thread. -/
  | launchMessage (src : Nat) (ten : Nat) (core : Nat) (entry : BitVec 32) (queue : Nat) (peg : BitVec 128)
  /-- R287. A held launch starts when a slot becomes available. -/
  | heldLaunchStart (core : Nat)
  /-- R284. A CALLAT peg is deposited into the queue or pool with a status. -/
  | callatDeposit (core : Nat)
  /-- R285. Control die moves the oldest pooled peg into a freed reserved entry. -/
  | poolReturn (core : Nat) (stage : Fin 16)
  /-- R277. A message-channel entry arrives at its destination queue. -/
  | queueArrival (core : Nat) (q : Fin 8)
  /-- R184. A return reaches queue 6 or is discarded as an orphan. -/
  | returnArrival (core : Nat)
  /-- R329. Parked and spilled entries are delivered as queue entries free. -/
  | parkedDelivery (core : Nat) (q : Fin 8)
  /-- R364. Held deliveries proceed once the log count falls below the limit. -/
  | scribeHoldRelease (pkg : Nat) (die : Nat)
  /-- R278. A reservation request reaches the output queue's core. -/
  | reservationRequest (core : Nat) (stage : Fin 16)
  /-- R278. A reservation grant reaches the requesting core. -/
  | reservationGrant (core : Nat) (stage : Fin 16)
  /-- R31. A held qdn push enters the downstream queue once it has room. -/
  | chainPushAccept (core : Nat) (slot : Fin 8)
  /-- R31. A thread blocked on a port receives an entry and becomes READY. -/
  | portWake (core : Nat) (slot : Fin 8)
  /-- R159. The reply to a thread's outstanding operation arrives. -/
  | memoryReply (core : Nat) (slot : Fin 8)
  /-- R290. A pipe takes one ready sequencer entry through the slot table. -/
  | sequencerEntry (core : Nat) (special : Bool)
  /-- R291. Records are written and the slot parks after earlier entries complete. -/
  | faultRecord (core : Nat) (slot : Fin 8)
  /-- R294. A waiting fault peg enters queue 7 when an entry frees. -/
  | faultPegEnqueue (core : Nat)
  /-- R293. Service OS delivers a resolved fault peg onward. -/
  | serviceOsPegOnward (core : Nat) (slot : Fin 8) (resolved : Bool) (maps : List (Nat × BitVec 64))
  /-- R293. Management command resuming a parked slot. -/
  | serviceOsResume (core : Nat) (slot : Fin 8)
  /-- R293. Management command retrying a parked slot. -/
  | serviceOsRetry (core : Nat) (slot : Fin 8)
  /-- R293. Management command killing a parked slot. -/
  | serviceOsKill (core : Nat) (slot : Fin 8)
  /-- R177. After 64 cycles a refused WAITNE repeats its compare. -/
  | waitneRetry (core : Nat) (slot : Fin 8)
  /-- R177. Home compares and arms a monitor as one action. -/
  | waitneCompare (core : Nat) (slot : Fin 8)
  /-- R123. A sleeping TWAIT thread becomes READY once PTC reaches T. -/
  | twaitWake (core : Nat) (slot : Fin 8)
  /-- R193. A job at the queue head binds the front FULL latch buffer. -/
  | mmaJobStart (core : Nat)
  /-- R195. A job checks, commits and posts its completion word. -/
  | mmaJobComplete (core : Nat) (error : JobError)
  /-- R196. A passed panel arrives FULL at the next core. -/
  | mpassPanelArrival (core : Nat)
  /-- R308. Target matrix command port checks and accepts or refuses a remote command. -/
  | mcmdCommand (core : Nat)
  /-- R311. A copy enters its engine's rotation. -/
  | copyStart (core : Nat) (id : BitVec 16)
  /-- R312. Engine reads a unit's source bytes and sets soft holds. -/
  | copyUnitRead (core : Nat) (id : BitVec 16)
  /-- R312. Destination home stages a unit and computes its CRC. -/
  | copyUnitStage (core : Nat) (id : BitVec 16) (unit : Nat)
  /-- R314. Engine receives a unit acknowledgement with its CRC. -/
  | copyUnitAck (core : Nat) (id : BitVec 16) (unit : Nat)
  /-- R312. A unit's holds are checked and its staged writes performed. -/
  | copyUnitRelease (core : Nat) (id : BitVec 16)
  /-- R205. The engine writes the completion record. -/
  | copyEnd (core : Nat) (id : BitVec 16)
  /-- R225. A read is performed at its home. -/
  | homeRead (core : Nat) (slot : Fin 8)
  /-- R225. A write is performed at its home. -/
  | homeWrite (core : Nat) (slot : Fin 8)
  /-- R235. An atomic read-modify-write is performed at its home. -/
  | homeRmw (core : Nat) (slot : Fin 8)
  /-- R263. The home slice performs an MX block action on a joined line. -/
  | blockAction (core : Nat) (slot : Fin 8)
  /-- R258. A plain remote read is answered by the proxy copy or forwarded home. -/
  | proxyRead (core : Nat) (slot : Fin 8)
  /-- R267. Control die fills a missing PLB entry. -/
  | plbFill (core : Nat) (dom : Nat) (region : Nat) (host : Bool)
  /-- R269. A walker completes a translation for a slice miss. -/
  | translationWalk (addr : Nat)
  /-- R259. A line fill from HBM or a remote home completes. -/
  | l2Fill (addr : Nat)
  /-- R319. A coding agent applies a delta to a check line. -/
  | codedDelta (pkg : Nat) (line : Nat) (q : Bool)
  /-- R319. Both acknowledgements arrive and the slice writes HBM. -/
  | codedDeltaAck (pkg : Nat) (line : Nat)
  /-- R262. A package raises its copy floor on a management message. -/
  | floorRaise (pkg : Nat) (src : Nat)
  /-- R262. A floor acknowledgement reaches the control die. -/
  | floorAck (pkg : Nat) (src : Nat)
  /-- R262. The commit point is recorded after all floor acknowledgements. -/
  | commitRecord (pkg : Nat)
  /-- R320. Outbox entries are released after coded write-backs are acknowledged. -/
  | outboxRelease (core : Nat) (slot : Fin 8)
  /-- R261. A slice sweeps one set per idle cycle to drop stale versions. -/
  | l2CleanSweep (pkg : Nat)
  /-- R271. Service OS retires a virtual page across slices, proxies and caches. -/
  | pageRetire (page : Nat) (entry : BitVec 64) (keep : Bool)
  /-- R268. Service OS narrows rights and PLBs drop matching entries. -/
  | rightsNarrow (pkg : Nat) (dom : Nat) (region : Nat) (host : Bool) (rights : BitVec 4)
  /-- R317. Service OS sets cd on a page after shipping its image. -/
  | codedSet (page : Nat) (stripe : List Nat)
  /-- R317. Service OS clears cd on a page after shipping its image. -/
  | codedClear (page : Nat)
  /-- R321. Coding agents recompute one lost line. -/
  | rebuildLine (pkg : Nat) (line : Nat)
  /-- R332. A router receives a contribution or partial and folds a complete round. -/
  | collectiveItem (router : Nat) (port : Nat) (g : Nat)
  /-- R332. A round's result arrives at a router or core. -/
  | collectiveResult (router : Nat) (g : Nat)
  /-- R333. Control die rewrites truss entries after a membership loss. -/
  | trussRewrite (ten : Nat) (g : Nat) (first : TrussChange) (others : List TrussChange)
  /-- R367. Spare package members are re-added at a round boundary. -/
  | memberReadd (ten : Nat) (g : Nat) (changes : List TrussChange)
  /-- R337. Hub fences the old die and the new map entry is written. -/
  | remap (pkg : Nat) (base : Bool) (index : Nat) (entry : BitVec 32)
  /-- R337. A drain marker arrives, ending the old incarnation's path. -/
  | drainMarker (pkg : Nat) (base : Option Bool) (index : Nat) (inc : BitVec 8)
  /-- R339. A module pauses, remaps lanes and starts retraining. -/
  | ucieModuleService (pkg : Nat) (base : Nat) (unit : Nat)
  /-- R339. Retraining ends; the replay buffer is sent and stop released. -/
  | ucieRetrainDone (pkg : Nat) (base : Nat) (unit : Nat) (lanes : Nat)
  /-- R340. A 32-flit pod frame is received and checked. -/
  | podFrame (pkg : Nat) (port : Nat) (crcOk : Bool) (frame : PodFrame)
  /-- R340. A port that lost a lane retrains or goes down. -/
  | podPortRetrain (pkg : Nat) (port : Nat) (lanes : Nat)
  /-- R341. Service processors write a pod route table entry. -/
  | podRouteWrite (pkg : Nat) (dest : Nat) (port : Nat) (valid : Bool)
  /-- R342. Every 10 µs a package exchanges timestamps and slews its counter. -/
  | ptcSyncExchange (pkg : Nat) (times : SyncTimes)
  /-- R342. No synchronisation for 1 ms is reported. -/
  | ptcSyncLoss (pkg : Nat)
  /-- R345. Host writes the submission tail, after the bytes `writes` of its own memory; entries are fetched. -/
  | sqDoorbell (pkg : Nat) (q : Nat) (tail : Nat) (writes : List (Nat × BitVec 8))
  /-- R348. Host writes the completion head, releasing entries. -/
  | cqDoorbell (pkg : Nat) (q : Nat) (head : Nat)
  /-- R348. Host writes enable; rings are checked and ready set. -/
  | qctlEnable (pkg : Nat) (q : Nat) (enable : Bool)
  /-- R347. Binds a tenant image from a binding request. -/
  | cmdBindImage (pkg : Nat) (supply : BindSupply)
  /-- R346. Removes every stage of a tenant and kills its threads. -/
  | cmdUnbind (pkg : Nat)
  /-- R284. Host launch of a peg to a stage. -/
  | cmdLaunchStage (pkg : Nat)
  /-- R287. Host launch of a thread at an entry offset. -/
  | cmdLaunchEntry (pkg : Nat)
  /-- R346. Writes the tenant state record to host memory. -/
  | cmdReadTenantState (pkg : Nat)
  /-- R348. A completion entry is written when the ring has room. -/
  | completionPost (pkg : Nat) (q : Nat)
  /-- R348. A device event is posted on queue pair 0. -/
  | deviceEvent (pkg : Nat) (ten : Nat) (code : Nat)
  /-- R352. Hot reset, FLR or link down resets the device or the host function. -/
  | hostFunctionReset (pkg : Nat)
  /-- R352. The host function returns after enumeration. -/
  | hostReenumerate (pkg : Nat)
  /-- R352. Service OS marks the host present again. -/
  | hostMarkPresent (pkg : Nat)
  /-- R350. A HOST read times out after 50 ms. -/
  | hostCompletionTimeout (core : Nat) (slot : Fin 8)
  /-- R344. A host CXL.mem access is performed at the home slice. -/
  | cxlMemAccess (pkg : Nat) (offset : Nat) (write : Bool) (data : List (BitVec 8))
  /-- R345. Write to a register with no behaviour of its own. -/
  | registerWrite (pkg : Nat) (offset : Nat) (value : BitVec 64)
  /-- R297. Service processor writes a stop time to a partition. -/
  | stopTimeWrite (pkgs : List Nat) (dies : List Nat) (time : Nat)
  /-- R297. A core stops at the first cycle with PTC at or past T. -/
  | coreStop (core : Nat)
  /-- R300. Every 64 cycles the tree sums colour counts; the cut may close. -/
  | cutCountSum (pkg : Nat)
  /-- R302. Core and router images are written after the cut closes. -/
  | contextSave (core : Nat)
  /-- R303. Images are written back and parked messages re-injected. -/
  | contextRestore (core : Nat) (time : Nat)
  /-- R303. At T′ cores take the new colour and continue. -/
  | coreResume (core : Nat)
  /-- R357. A register, port buffer or sequencer parity error is detected at read. -/
  | registerParityError (core : Nat) (slot : Fin 8)
  /-- R357. A vector or special-function pipe residue mismatch. -/
  | pipeResidueError (core : Nat) (slot : Fin 8)
  /-- R357. An uncorrectable local memory word is poisoned. -/
  | localMemoryDoubleBitError (core : Nat) (word : Nat) (slot : Option (Fin 8))
  /-- R357. An uncorrectable queue entry is refetched from the scribe log. -/
  | queueEntryError (core : Nat) (q : Fin 8) (index : Nat)
  /-- R357. A corrupted flit is resent from the hop buffer. -/
  | flitParityError (stop : Nat)
  /-- R357. A failed stop router loses its messages and triggers stop sparing. -/
  | stopRouterFailure (pkg : Nat) (die : Nat) (quad : Nat)
  /-- R357. A double-bit L2 error drops or poisons the line. -/
  | l2LineError (e : LineError)
  /-- R266. An uncorrectable HBM error poisons the line. -/
  | hbmLineError (e : LineError)
  /-- R357. Three missed heartbeats declare a core die suspect. -/
  | heartbeatLoss (pkg : Nat) (pdie : Nat)
  /-- R257. A lost base die or HBM stack is remapped and rebuilt. -/
  | stackLoss (pkg : Nat) (stack : Nat) (onto : Nat)
  /-- R370. A silent package is declared failed by council. -/
  | packageLoss (pkg : Nat) (votes : Nat)
  /-- R357. One service processor fails its mutual heartbeat. -/
  | serviceProcessorLoss (pkg : Nat) (sp : Nat)
  /-- R369. Processors exchange diagnosis digests and act on agreement. -/
  | diagnosisExchange (pkg : Nat) (d0 : Diagnosis) (d1 : Diagnosis)
  /-- R370. A council package evaluates a diagnosis and votes. -/
  | councilRequest (pkg : Nat) (member : Nat) (own0 : Diagnosis) (own1 : Diagnosis)
  /-- R370. A vote arrives and the diagnosis may be decided. -/
  | councilVote (pkg : Nat) (member : Nat)
  /-- R361. A failed stop is bypassed and the die resumes. -/
  | stopSparing (pkg : Nat) (pdie : Nat) (row : Nat) (col : Nat)
  /-- R366. The brace die takes a failed logical die's identity. -/
  | dieSparing (pkg : Nat) (die : Nat)
  /-- R367. A spare package takes a failed package's index. -/
  | packageSparing (pkg : Nat) (spare : Nat)
  /-- R368. Writing ntf wakes the bound service thread. -/
  | serviceQueueNotify (pkg : Nat) (write : NotifyWrite)
  /-- R372. A trial image confirms health and becomes active. -/
  | firmwareHealthConfirm (pkg : Nat)
  /-- R372. No confirmation within 120 s resets to the previous slot. -/
  | firmwareWatchdog (pkg : Nat)
  /-- R373. The package raises through boot, tests and training. -/
  | powerGood (pkg : Nat) (tests : DieTests) (usable : Nat) (spare : Bool)
  /-- R374. The power monitor delays matrix job starts. -/
  | powerThrottle (pkg : Nat) (excess : Bool)
  /-- R392. A write setting carm arms a copy injection. -/
  | copyInjectArm (pkg : Nat) (ten : Nat) (joff : BitVec 32) (ctl : BitVec 32)
  /-- R393. A write setting rarm arms a register injection. -/
  | registerInjectArm (pkg : Nat) (ten : Nat) (jpc : BitVec 32) (ctl : BitVec 32)
  /-- R372. An update writes a new image into a firmware slot, which then stands in trial. -/
  | firmwareUpdate (pkg : Nat) (image : List (BitVec 8))
  /-- R315. The service OS resolves a page fault met by a copy engine, and the stalled unit proceeds or the copy ends with status 0x03 or 0x04. -/
  | copyPageFaultResolve (core : Nat) (id : BitVec 16) (resolved : Bool) (maps : List (Nat × BitVec 64))
  deriving DecidableEq, Repr

end Sys2Proof
end

