-- ==== Sys2Proof/WellFormed.lean ====
section
/-!
DEFINITION. Which instructions are instructions (R52): the checks that R20 to R23, R51, R59, R60 and the entries of
the instruction chapters put on the fields of an encoding, each with the detail that R52 gives it.
-/

namespace Sys2Proof

/-- The conditions of R52's table, by the detail an illegal-instruction fault carries. -/
inductive Illegal where
  /-- 0x06: the first halfword is 0x0000 or 0xFFFF. -/
  | halfword
  /-- 0x01: unassigned h-opcode, major, or selector value. -/
  | unassigned
  /-- 0x02: a RES field is nonzero, or a field holds a value its instruction does not allow. -/
  | operand
  /-- 0x03: a `type` or `stype` outside the instruction's type group. -/
  | type
  /-- 0x04: a scope code of 6 or 7. -/
  | scope
  /-- 0x05: a register field that breaks R20, R21 or R22, or names a register that does not exist. -/
  | register
  /-- 0x07: a `GETC` or `SETC` number not in R34, detected when the instruction executes. -/
  | controlNumber
  deriving DecidableEq, Repr

/-- The `detail` byte of R52. -/
def Illegal.detail : Illegal → BitVec 8
  | .halfword => 0x06
  | .unassigned => 0x01
  | .operand => 0x02
  | .type => 0x03
  | .scope => 0x04
  | .register => 0x05
  | .controlNumber => 0x07

/-! ### Type groups (R50, R51) -/

/-- TG1: codes 8 to 11. -/
def tg1 (t : BitVec 5) : Bool := 8 ≤ t.toNat && t.toNat ≤ 11
/-- TG2: codes 9 to 11. -/
def tg2 (t : BitVec 5) : Bool := 9 ≤ t.toNat && t.toNat ≤ 11
/-- TG3: codes 0 to 17. -/
def tg3 (t : BitVec 5) : Bool := t.toNat ≤ 17
/-- TG4: codes 0 to 13 and 17. -/
def tg4 (t : BitVec 5) : Bool := t.toNat ≤ 13 || t.toNat == 17
/-- TG5: codes 8 to 13 and 17. -/
def tg5 (t : BitVec 5) : Bool := (8 ≤ t.toNat && t.toNat ≤ 13) || t.toNat == 17
/-- TG6: codes 19 and 23. -/
def tg6 (t : BitVec 5) : Bool := t.toNat == 19 || t.toNat == 23
/-- TG7: codes 19 to 23. -/
def tg7 (t : BitVec 5) : Bool := 19 ≤ t.toNat && t.toNat ≤ 23
/-- TG8: codes 0, 8 to 13 and 18 to 23. -/
def tg8 (t : BitVec 5) : Bool :=
  t.toNat == 0 || (8 ≤ t.toNat && t.toNat ≤ 13) || (18 ≤ t.toNat && t.toNat ≤ 23)
/-- TG9: codes 2, 3, 6, 7, 8 and 9. -/
def tg9 (t : BitVec 5) : Bool :=
  t.toNat == 2 || t.toNat == 3 || (6 ≤ t.toNat && t.toNat ≤ 9)
/-- TG10: codes 0, 1, 4, 5 and 10 to 16. -/
def tg10 (t : BitVec 5) : Bool :=
  t.toNat == 0 || t.toNat == 1 || t.toNat == 4 || t.toNat == 5 || (10 ≤ t.toNat && t.toNat ≤ 16)
/-- TG11: code 18. -/
def tg11 (t : BitVec 5) : Bool := t.toNat == 18
/-- TG12: code 10. -/
def tg12 (t : BitVec 5) : Bool := t.toNat == 10

/-- The 64-bit types of R50: `.i64`, `.n64` and `.f64`. -/
def is64 (t : BitVec 5) : Bool := t.toNat == 3 || t.toNat == 7 || t.toNat == 8

/-- The scaled operand types of R190: the MX blocks and `.cb4`. -/
def isScaled (t : BitVec 5) : Bool := 18 ≤ t.toNat && t.toNat ≤ 23

/-! ### Register fields (R20 to R23, R25) -/

/-- A scalar source: not 30 (R20). -/
def sSrc (r : BitVec 5) : Bool := r != 30
/-- A scalar destination: not 28 or 29 (R20). -/
def sDst (r : BitVec 5) : Bool := r != 28 && r != 29
/-- A scalar that is read and written: not 28, 29 or 30 (R20). -/
def sBoth (r : BitVec 5) : Bool := sSrc r && sDst r
/-- A pair: even and below 28 (R21). -/
def pair (r : BitVec 5) : Bool := r.getLsbD 0 == false && r.toNat < 28
/-- A vector register: below 16 (R22). -/
def vReg (r : BitVec 5) : Bool := r.toNat < 16
/-- A mask, extension or capability register in a 5-bit field: below 8. -/
def reg8 (r : BitVec 5) : Bool := r.toNat < 8
/-- A value of a type: a pair for a 64-bit type, a scalar source otherwise (R51). -/
def tSrc (t r : BitVec 5) : Bool := if is64 t then pair r else sSrc r
/-- A result of a type: a pair for a 64-bit type, a scalar destination otherwise (R51). -/
def tDst (t r : BitVec 5) : Bool := if is64 t then pair r else sDst r
/-- A value of an access of width `w` (0: 32 bits, 1: 64 bits) (R49, R106). -/
def wSrc (w : BitVec 1) (r : BitVec 5) : Bool := if w = 1 then pair r else sSrc r
/-- A result of width `w`. -/
def wDst (w : BitVec 1) (r : BitVec 5) : Bool := if w = 1 then pair r else sDst r
/-- The first of four message registers: 1 to 24 (R59). -/
def pegReg (r : BitVec 5) : Bool := 1 ≤ r.toNat && r.toNat ≤ 24

/-- The first condition of R52 that fails, checked in the order 0x02, 0x03, 0x04, 0x05. -/
def firstIllegal (operand type scope register : Bool) : Option Illegal :=
  if !operand then some .operand
  else if !type then some .type
  else if !scope then some .scope
  else if !register then some .register
  else none

/-- Only register fields can fail. -/
abbrev regsOnly (register : Bool) : Option Illegal := firstIllegal true true true register

/-- The integer operations without an immediate form (R106). -/
def aluIllegal (d a b : BitVec 5) (w : BitVec 1) : Option Illegal :=
  regsOnly (wDst w d && wSrc w a && wSrc w b)

/-- The shifts and rotates of R106, fn 13 to 16: `h` is RES when `I` = 0 or `W` = 0. -/
def shiftIllegal (d a b : BitVec 5) (w ibit hbit : BitVec 1) : Option Illegal :=
  firstIllegal (hbit = 0 || (ibit = 1 && w = 1)) true true
    (wDst w d && wSrc w a && (ibit = 1 || wSrc w b))

/-- `CLZ`, `CTZ`, `POPC` (R106). -/
def unaryIllegal (d a : BitVec 5) (w : BitVec 1) : Option Illegal := regsOnly (wDst w d && wSrc w a)

/-- Scalar floating-point forms d, a, b of TG1 (R133). -/
def fpIllegal (d a b t : BitVec 5) : Option Illegal :=
  firstIllegal true (tg1 t) true (tDst t d && tSrc t a && tSrc t b)

/-- Scalar floating-point forms d, a (R133, R138). -/
def fpUnaryIllegal (group : Bool) (d a t : BitVec 5) : Option Illegal :=
  firstIllegal true group true (tDst t d && tSrc t a)

/-- Vector forms vd, va, vb of TG1 (R133). -/
def vIllegal (d a b t : BitVec 5) : Option Illegal := firstIllegal true (tg1 t) true (vReg d && vReg a && vReg b)

/-- Vector forms vd, va (R133, R138). -/
def vUnaryIllegal (group : Bool) (d a : BitVec 5) : Option Illegal := firstIllegal true group true (vReg d && vReg a)

/-- `FRND` needs one type twice, with a code from 8 to 16 (R139). -/
def frndTypes (s t : BitVec 5) : Bool := s = t && 8 ≤ t.toNat && t.toNat ≤ 16

/-- The ordering and scope of an MR or MA form: `ord` is one the instruction takes, and a scope needs an ordering
(R52, R59, R60). -/
def ordOk (allowed : Bool) (ord : BitVec 2) (scope : BitVec 3) : Bool := allowed && (ord != 0 || scope = 0)

/-- A scope code is below 6 (R11). -/
def scopeOk (scope : BitVec 3) : Bool := scope.toNat < 6

/-- Loads allow `ord` 0 and 1 (R59). -/
def ordLd (ord : BitVec 2) : Bool := ord = 0 || ord = 1
/-- Stores allow `ord` 0 and 2 (R59). -/
def ordSt (ord : BitVec 2) : Bool := ord = 0 || ord = 2

/-- The register field of `SPILL` and `FILL` by class (R166). -/
def spillReg (cls : BitVec 3) (d : BitVec 5) : Bool :=
  match cls.toNat with
  | 0 => d.toNat ≤ 27 || d = 31
  | 1 => d.getLsbD 0 == false && d.toNat ≤ 26
  | 2 => vReg d
  | _ => reg8 d

/-- `SPILL` and `FILL` (R166). -/
def spillIllegal (d a : BitVec 5) (cls : BitVec 3) : Option Illegal :=
  firstIllegal (cls.toNat < 6) true true (spillReg cls d && sSrc a)

/-- The atomics of R167; `both` is true of `ACAS`, which reads and writes `d`. -/
def atomicIllegal (both : Bool) (d a b : BitVec 5) (ord : BitVec 2) (scope : BitVec 3) (w : BitVec 1) :
    Option Illegal :=
  firstIllegal (ordOk true ord scope) true (scopeOk scope)
    (wDst w d && (!both || wSrc w d) && sSrc a && wSrc w b)

/-- A scope field that must name 1 to 5 (R179, R212). -/
def scope15 (scope : BitVec 3) (register : Bool) : Option Illegal :=
  firstIllegal (scope != 0) true (scopeOk scope) register

/-- The first check of R52 that an instruction's fields fail, or none. A step of another agent has no encoding and
no field that R52 checks. -/
def illegalOf : Instr → Option Illegal
  | .add d a b w | .sub d a b w | .mul d a b w | .mulh d a b w | .mulhn d a b w | .div d a b w | .divn d a b w
  | .rem d a b w | .remn d a b w | .and d a b w | .or d a b w | .xor d a b w | .andn d a b w | .min d a b w
  | .max d a b w | .minn d a b w | .maxn d a b w | .slt d a b w | .sltn d a b w => aluIllegal d a b w
  | .shl d a b w i h | .shr d a b w i h | .sar d a b w i h | .rol d a b w i h => shiftIllegal d a b w i h
  | .clz d a w | .ctz d a w | .popc d a w => unaryIllegal d a w
  | .addShort a b | .subShort a b | .andShort a b | .orShort a b | .xorShort a b | .minShort a b | .maxShort a b
  | .faddShort a b | .fmulShort a b => regsOnly (sBoth a && sSrc b)
  | .shlShort a _ | .shrShort a _ | .sarShort a _ | .addiShort a _ => regsOnly (sBoth a)
  | .liShort a _ => regsOnly (sDst a)
  | .bzShort a _ | .bnzShort a _ => regsOnly (sSrc a)
  | .ldShort a _ _ => regsOnly (sDst a)
  | .stShort a _ _ => regsOnly (sSrc a)
  | .nop | .quitShort => none
  | .jrShort a | .jlrShort a => regsOnly (sSrc a)
  | .emovShort a b => regsOnly (reg8 a && sSrc b)
  | .hintShort _ _ _ => none
  | .hint h _ => if h = 7 then some .unassigned else none
  | .sel d a b c => regsOnly (sDst d && sSrc a && sSrc b && sSrc c)
  | .addi d a _ => regsOnly (sDst d && sSrc a)
  | .li d _ => regsOnly (sDst d)
  | .lih d _ => regsOnly (sBoth d)
  | .eli d _ => regsOnly (reg8 d)
  | .emovToE d a => regsOnly (reg8 d && sSrc a)
  | .emovFromE d a => regsOnly (sDst d && reg8 a)
  | .b _ | .j _ | .jl _ => none
  | .jr a | .jlr a => regsOnly (sSrc a)
  | .beq d a _ | .bne d a _ | .blt d a _ | .bge d a _ | .bltn d a _ | .bgen d a _ => regsOnly (sSrc d && sSrc a)
  | .bz d _ | .bnz d _ => regsOnly (sSrc d)
  | .loop d _ => regsOnly (sBoth d)
  | .csetb d a b | .cinc d a b | .cand d a b => regsOnly (reg8 d && reg8 a && sSrc b)
  | .cbase d a | .clen d a | .cperm d a => regsOnly (sDst d && reg8 a)
  | .getc d _ => regsOnly (sDst d)
  | .setc a _ => regsOnly (sSrc a)
  | .time d => regsOnly (pair d)
  | .twait a => regsOnly (pair a)
  | .trap _ => none
  | .fresume a | .fkill a | .fretry a => regsOnly (sSrc a)
  | .fadd d a b t | .fsub d a b t | .fmul d a b t | .fmin d a b t | .fmax d a b t | .fdiv d a b t
  | .fcmp d a b t => fpIllegal d a b t
  | .ffma d a b t => firstIllegal true (tg1 t) true (tDst t d && tSrc t d && tSrc t a && tSrc t b)
  | .fabs d a t | .fneg d a t | .fsqrt d a t | .fclass d a t => fpUnaryIllegal (tg1 t) d a t
  | .frcp d a t | .frsq d a t | .fexp2 d a t | .flog2 d a t | .fsin d a t | .fcos d a t =>
    fpUnaryIllegal (tg2 t) d a t
  | .cvt d a s t | .cvtf d a s t => firstIllegal true (tg3 s && tg3 t) true (tDst t d && tSrc s a)
  | .frnd d a s t => firstIllegal true (frndTypes s t) true (tDst t d && tSrc s a)
  | .tailget d a => regsOnly (sDst d && sSrc a)
  | .tailset d a b => regsOnly (sBoth d && sSrc a && sSrc b)
  | .tailgetV d a _ => regsOnly (vReg d && vReg a)
  | .tailsetV d a b _ => regsOnly (vReg d && vReg a && vReg b)
  | .faddV d a b t _ | .fsubV d a b t _ | .fmulV d a b t _ | .fminV d a b t _ | .fmaxV d a b t _ | .fdivV d a b t _
  | .ffmaV d a b t _ => vIllegal d a b t
  | .fcmpV _ _ a b t _ => firstIllegal true (tg1 t) true (vReg a && vReg b)
  | .fabsV d a t _ | .fnegV d a t _ | .fsqrtV d a t _ | .fclassV d a t _ => vUnaryIllegal (tg1 t) d a
  | .frcpV d a t _ | .frsqV d a t _ | .fexp2V d a t _ | .flog2V d a t _ | .fsinV d a t _ | .fcosV d a t _ =>
    vUnaryIllegal (tg2 t) d a
  | .cvtV d a s t _ | .cvtfV d a s t _ => vUnaryIllegal (tg3 s && tg3 t) d a
  | .frndV d a s t _ => vUnaryIllegal (frndTypes s t) d a
  | .vshuf d a b _ | .vsel d a b _ => regsOnly (vReg d && vReg a && vReg b)
  | .vrot d a b _ => regsOnly (vReg d && vReg a && sSrc b)
  | .vbcast d a _ | .vidx d a _ => regsOnly (vReg d && sSrc a)
  | .vredAdd d a t _ | .vredMin d a t _ | .vredMax d a t _ =>
    firstIllegal true (tg9 t) true (tDst t d && vReg a)
  | .vredAnd d a t _ | .vredOr d a t _ | .vredXor d a t _ =>
    firstIllegal true (tg9 t && !tg1 t) true (tDst t d && vReg a)
  | .pack d a b t _ => firstIllegal true (tg10 t) true (vReg d && vReg a && vReg b)
  | .vlut d a t _ => vUnaryIllegal (tg11 t) d a
  | .rndk d a b => regsOnly (sDst d && sSrc a && sSrc b)
  | .rndkV d a b _ => regsOnly (vReg d && vReg a && sSrc b)
  | .vloop n a => firstIllegal (n.toNat < 16) true true (sSrc a)
  | .gang size => firstIllegal (1 ≤ size.toNat && size.toNat ≤ 3) true true true
  | .split => none
  | .ld d a _ ord t sc => firstIllegal (ordOk (ordLd ord) ord sc) (tg4 t) (scopeOk sc) (tDst t d && sSrc a)
  | .ldImm d _ t _ => firstIllegal true (tg4 t) true (tDst t d)
  | .st d a _ ord t sc => firstIllegal (ordOk (ordSt ord) ord sc) (tg4 t) (scopeOk sc) (tSrc t d && sSrc a)
  | .stImm d _ t _ => firstIllegal true (tg4 t) true (tSrc t d)
  | .fst d a _ ord t sc => firstIllegal (ordOk (ordSt ord) ord sc) (tg5 t) (scopeOk sc) (tSrc t d && sSrc a)
  | .fstImm d _ t _ => firstIllegal true (tg5 t) true (tSrc t d)
  | .vld d a _ _ t | .vst d a _ _ t => firstIllegal true (tg4 t) true (vReg d && sSrc a)
  | .vlds d a _ _ t _ => firstIllegal true (tg4 t) true (vReg d && sSrc a)
  | .vldImm d _ t _ | .vstImm d _ t _ => firstIllegal true (tg4 t) true (vReg d)
  | .vgath d a _ _ t | .vscat d a _ _ t => firstIllegal true (tg4 t) true (vReg d && vReg a)
  | .ldc d a _ ord sc => firstIllegal (ordOk (ordLd ord) ord sc) true (scopeOk sc) (reg8 d && sSrc a)
  | .stc d a _ ord sc => firstIllegal (ordOk (ordSt ord) ord sc) true (scopeOk sc) (reg8 d && sSrc a)
  | .spill d a _ cls | .fill d a _ cls => spillIllegal d a cls
  | .aadd d a b _ ord sc w | .aand d a b _ ord sc w | .aor d a b _ ord sc w | .axor d a b _ ord sc w
  | .aswap d a b _ ord sc w | .aminSigned d a b _ ord sc w | .aminUnsigned d a b _ ord sc w
  | .amaxSigned d a b _ ord sc w | .amaxUnsigned d a b _ ord sc w | .afadd d a b _ ord sc w =>
    atomicIllegal false d a b ord sc w
  | .acas d a b _ ord sc w => atomicIllegal true d a b ord sc w
  | .mxacc d a b _ t _ | .mxld d a b _ t | .mxst d a b _ t =>
    firstIllegal true (tg6 t) true (vReg d && sSrc a && pair b)
  | .mxres d a b _ t => firstIllegal true (tg7 t) true (vReg d && sSrc a && pair b)
  | .mxnorm a _ t => firstIllegal true (tg6 t) true (sSrc a)
  | .fence sc | .fenceAcq sc | .fenceRel sc => firstIllegal true true (scopeOk sc) true
  | .waitne d a b _ ord sc w =>
    firstIllegal (ordOk (ordLd ord) ord sc) true (scopeOk sc) (wDst w d && sSrc a && wSrc w b)
  | .bar sc => scope15 sc true
  | .barw d sc => scope15 sc (sBoth d)
  | .barq d sc => scope15 sc (sDst d)
  | .qpoll d _ => regsOnly (sDst d)
  | .qsend a b q => firstIllegal (q.toNat ≤ 4 || q = 6) true true (sSrc a && pegReg b)
  | .qsendd a b q => firstIllegal (q.toNat ≤ 4) true true (sSrc a && vReg b)
  | .spawn d a b _ q => firstIllegal (q != 7) true true (sDst d && sSrc a && pegReg b)
  | .callat d a b _ => regsOnly (sDst d && sSrc a && pegReg b)
  | .quit => none
  | .slott a => regsOnly (vReg a)
  | .mlda a b _ t | .mldb a b _ t =>
    firstIllegal (isScaled t || b = 0) (tg8 t) true (sSrc a && (!isScaled t || sSrc b))
  | .mtbl a _ t => firstIllegal true (tg12 t) true (sSrc a)
  | .mma d a acc _ t => firstIllegal true (tg8 t) true (sDst d && sSrc a && (t != 8 || acc.getLsbD 0 == false))
  | .mpass => none
  | .mwait a => regsOnly (sSrc a)
  | .mpoll d a => regsOnly (sDst d && sSrc a)
  | .mzero _ => none
  | .mstacc a acc _ t => firstIllegal true (tg1 t) true (sSrc a && (t != 8 || acc.getLsbD 0 == false))
  | .mcmd d a b _ => regsOnly (sDst d && sSrc a && vReg b)
  | .cpy d sc => firstIllegal true true (scopeOk sc) (sDst d)
  | .cpyc d a sc => firstIllegal true true (scopeOk sc) (sDst d && sSrc a)
  | .cpyw a => regsOnly (sSrc a)
  | .cpyq d a => regsOnly (sDst d && sSrc a)
  | .gcon _ _ | .gres _ _ | .barmax _ _ _ => none
  | .fork d a b => regsOnly (sDst d && sSrc a && sSrc b)
  | .choose | .abandon | .dclose => none
  | .dopen d a sc => scope15 sc (sDst d && sSrc a)
  | .vstat d => regsOnly (sDst d)
  | .barrierSignal _ _ _ | .losingRivalKill _ _ | .stageFiring _ _ | .spawnRequest _ | .launchMessage _ _ _ _ _ _
  | .heldLaunchStart _ | .callatDeposit _ | .poolReturn _ _ | .queueArrival _ _ | .returnArrival _
  | .parkedDelivery _ _ | .scribeHoldRelease _ _ | .reservationRequest _ _ | .reservationGrant _ _
  | .chainPushAccept _ _ | .portWake _ _ | .memoryReply _ _ | .sequencerEntry _ _ | .faultRecord _ _
  | .faultPegEnqueue _ | .serviceOsPegOnward _ _ _ _ | .serviceOsResume _ _ | .serviceOsRetry _ _
  | .serviceOsKill _ _ | .waitneRetry _ _ | .waitneCompare _ _ | .twaitWake _ _ | .mmaJobStart _
  | .mmaJobComplete _ _ | .mpassPanelArrival _ | .mcmdCommand _ | .copyStart _ _ | .copyUnitRead _ _
  | .copyUnitStage _ _ _ | .copyUnitAck _ _ _ | .copyUnitRelease _ _ | .copyEnd _ _ | .homeRead _ _
  | .homeWrite _ _ | .homeRmw _ _ | .blockAction _ _ | .proxyRead _ _ | .plbFill _ _ _ _ | .translationWalk _
  | .l2Fill _ | .codedDelta _ _ _ | .codedDeltaAck _ _ | .floorRaise _ _ | .floorAck _ _ | .commitRecord _
  | .outboxRelease _ _ | .l2CleanSweep _ | .pageRetire _ _ _ | .rightsNarrow _ _ _ _ _ | .codedSet _ _
  | .codedClear _ | .rebuildLine _ _ | .collectiveItem _ _ _ | .collectiveResult _ _ | .trussRewrite _ _ _ _
  | .memberReadd _ _ _ | .remap _ _ _ _ | .drainMarker _ _ _ _ | .ucieModuleService _ _ _
  | .ucieRetrainDone _ _ _ _ | .podFrame _ _ _ _ | .podPortRetrain _ _ _ | .podRouteWrite _ _ _ _
  | .ptcSyncExchange _ _ | .ptcSyncLoss _ | .sqDoorbell _ _ _ _ | .cqDoorbell _ _ _ | .qctlEnable _ _ _
  | .cmdBindImage _ _ | .cmdUnbind _ | .cmdLaunchStage _ | .cmdLaunchEntry _ | .cmdReadTenantState _
  | .completionPost _ _ | .deviceEvent _ _ _ | .hostFunctionReset _ | .hostReenumerate _ | .hostMarkPresent _
  | .hostCompletionTimeout _ _ | .cxlMemAccess _ _ _ _ | .registerWrite _ _ _ | .stopTimeWrite _ _ _ | .coreStop _
  | .cutCountSum _ | .contextSave _ | .contextRestore _ _ | .coreResume _ | .registerParityError _ _
  | .pipeResidueError _ _ | .localMemoryDoubleBitError _ _ _ | .queueEntryError _ _ _ | .flitParityError _
  | .stopRouterFailure _ _ _ | .l2LineError _ | .hbmLineError _ | .heartbeatLoss _ _ | .stackLoss _ _ _
  | .packageLoss _ _ | .serviceProcessorLoss _ _ | .diagnosisExchange _ _ _ | .councilRequest _ _ _ _
  | .councilVote _ _ | .stopSparing _ _ _ _ | .dieSparing _ _ | .packageSparing _ _ | .serviceQueueNotify _ _
  | .firmwareHealthConfirm _ | .firmwareWatchdog _ | .powerGood _ _ _ _ | .powerThrottle _ _
  | .copyInjectArm _ _ _ _ | .registerInjectArm _ _ _ _ | .firmwareUpdate _ _ | .copyPageFaultResolve _ _ _ _ => none

/-- An instruction that R52 lets through. -/
def Instr.wellFormed (i : Instr) : Bool := (illegalOf i).isNone

end Sys2Proof
end

