-- ==== Sys2Proof/Decode.lean ====
section
/-!
DEFINITION. From bits to an instruction or an illegal-instruction detail, and back (R45 to R48, R52 to R60).
-/

namespace Sys2Proof

/-- The 16-bit map of R58: the instruction in one halfword, before the checks of `illegalOf`.
A RES field that is not zero gives detail 0x02 (R52). -/
def decode16 (w : BitVec 16) : Except Illegal Instr :=
  match (w.extractLsb' 10 6).toNat with
  | 0x01 => .ok (.addShort (w.extractLsb' 5 5) (w.extractLsb' 0 5))
  | 0x02 => .ok (.subShort (w.extractLsb' 5 5) (w.extractLsb' 0 5))
  | 0x03 => .ok (.andShort (w.extractLsb' 5 5) (w.extractLsb' 0 5))
  | 0x04 => .ok (.orShort (w.extractLsb' 5 5) (w.extractLsb' 0 5))
  | 0x05 => .ok (.xorShort (w.extractLsb' 5 5) (w.extractLsb' 0 5))
  | 0x06 => .ok (.shlShort (w.extractLsb' 5 5) (w.extractLsb' 0 5))
  | 0x07 => .ok (.shrShort (w.extractLsb' 5 5) (w.extractLsb' 0 5))
  | 0x08 => .ok (.sarShort (w.extractLsb' 5 5) (w.extractLsb' 0 5))
  | 0x09 => .ok (.addiShort (w.extractLsb' 5 5) (w.extractLsb' 0 5))
  | 0x0A => .ok (.liShort (w.extractLsb' 5 5) (w.extractLsb' 0 5))
  | 0x0B => .ok (.minShort (w.extractLsb' 5 5) (w.extractLsb' 0 5))
  | 0x0C => .ok (.maxShort (w.extractLsb' 5 5) (w.extractLsb' 0 5))
  | 0x0D => .ok (.bzShort (w.extractLsb' 5 5) (w.extractLsb' 0 5))
  | 0x0E => .ok (.bnzShort (w.extractLsb' 5 5) (w.extractLsb' 0 5))
  | 0x0F => .ok (.ldShort (w.extractLsb' 5 5) (w.extractLsb' 2 3) (w.extractLsb' 0 2))
  | 0x10 => .ok (.stShort (w.extractLsb' 5 5) (w.extractLsb' 2 3) (w.extractLsb' 0 2))
  | 0x11 => if w.extractLsb' 0 10 = 0 then .ok .nop else .error .operand
  | 0x12 => if w.extractLsb' 0 10 = 0 then .ok .quitShort else .error .operand
  | 0x13 =>
    if w.extractLsb' 0 5 = 0 then .ok (.jrShort (w.extractLsb' 5 5))
    else if w.extractLsb' 0 5 = 1 then .ok (.jlrShort (w.extractLsb' 5 5))
    else .error .operand
  | 0x14 => .ok (.faddShort (w.extractLsb' 5 5) (w.extractLsb' 0 5))
  | 0x15 => .ok (.fmulShort (w.extractLsb' 5 5) (w.extractLsb' 0 5))
  | 0x16 => .ok (.emovShort (w.extractLsb' 5 5) (w.extractLsb' 0 5))
  | 0x1C => .ok (.hintShort (w.extractLsb' 10 2) (w.extractLsb' 5 5) (w.extractLsb' 0 5))
  | 0x1D => .ok (.hintShort (w.extractLsb' 10 2) (w.extractLsb' 5 5) (w.extractLsb' 0 5))
  | 0x1E => .ok (.hintShort (w.extractLsb' 10 2) (w.extractLsb' 5 5) (w.extractLsb' 0 5))
  | 0x1F => .ok (.hintShort (w.extractLsb' 10 2) (w.extractLsb' 5 5) (w.extractLsb' 0 5))
  | _ => .error .unassigned

/-- Major 0x01 of R59. -/
def decodeMajor01 (w : BitVec 32) : Except Illegal Instr :=
  match (w.extractLsb' 0 5).toNat with
  | 0 => if w.extractLsb' 5 3 = 0 then .ok (.add (w.extractLsb' 19 5) (w.extractLsb' 14 5) (w.extractLsb' 9 5) (w.extractLsb' 8 1)) else .error .operand
  | 1 => if w.extractLsb' 5 3 = 0 then .ok (.sub (w.extractLsb' 19 5) (w.extractLsb' 14 5) (w.extractLsb' 9 5) (w.extractLsb' 8 1)) else .error .operand
  | 2 => if w.extractLsb' 5 3 = 0 then .ok (.mul (w.extractLsb' 19 5) (w.extractLsb' 14 5) (w.extractLsb' 9 5) (w.extractLsb' 8 1)) else .error .operand
  | 3 => if w.extractLsb' 5 3 = 0 then .ok (.mulh (w.extractLsb' 19 5) (w.extractLsb' 14 5) (w.extractLsb' 9 5) (w.extractLsb' 8 1)) else .error .operand
  | 4 => if w.extractLsb' 5 3 = 0 then .ok (.mulhn (w.extractLsb' 19 5) (w.extractLsb' 14 5) (w.extractLsb' 9 5) (w.extractLsb' 8 1)) else .error .operand
  | 5 => if w.extractLsb' 5 3 = 0 then .ok (.div (w.extractLsb' 19 5) (w.extractLsb' 14 5) (w.extractLsb' 9 5) (w.extractLsb' 8 1)) else .error .operand
  | 6 => if w.extractLsb' 5 3 = 0 then .ok (.divn (w.extractLsb' 19 5) (w.extractLsb' 14 5) (w.extractLsb' 9 5) (w.extractLsb' 8 1)) else .error .operand
  | 7 => if w.extractLsb' 5 3 = 0 then .ok (.rem (w.extractLsb' 19 5) (w.extractLsb' 14 5) (w.extractLsb' 9 5) (w.extractLsb' 8 1)) else .error .operand
  | 8 => if w.extractLsb' 5 3 = 0 then .ok (.remn (w.extractLsb' 19 5) (w.extractLsb' 14 5) (w.extractLsb' 9 5) (w.extractLsb' 8 1)) else .error .operand
  | 9 => if w.extractLsb' 5 3 = 0 then .ok (.and (w.extractLsb' 19 5) (w.extractLsb' 14 5) (w.extractLsb' 9 5) (w.extractLsb' 8 1)) else .error .operand
  | 10 => if w.extractLsb' 5 3 = 0 then .ok (.or (w.extractLsb' 19 5) (w.extractLsb' 14 5) (w.extractLsb' 9 5) (w.extractLsb' 8 1)) else .error .operand
  | 11 => if w.extractLsb' 5 3 = 0 then .ok (.xor (w.extractLsb' 19 5) (w.extractLsb' 14 5) (w.extractLsb' 9 5) (w.extractLsb' 8 1)) else .error .operand
  | 12 => if w.extractLsb' 5 3 = 0 then .ok (.andn (w.extractLsb' 19 5) (w.extractLsb' 14 5) (w.extractLsb' 9 5) (w.extractLsb' 8 1)) else .error .operand
  | 13 => if w.extractLsb' 5 1 = 0 then .ok (.shl (w.extractLsb' 19 5) (w.extractLsb' 14 5) (w.extractLsb' 9 5) (w.extractLsb' 8 1) (w.extractLsb' 7 1) (w.extractLsb' 6 1)) else .error .operand
  | 14 => if w.extractLsb' 5 1 = 0 then .ok (.shr (w.extractLsb' 19 5) (w.extractLsb' 14 5) (w.extractLsb' 9 5) (w.extractLsb' 8 1) (w.extractLsb' 7 1) (w.extractLsb' 6 1)) else .error .operand
  | 15 => if w.extractLsb' 5 1 = 0 then .ok (.sar (w.extractLsb' 19 5) (w.extractLsb' 14 5) (w.extractLsb' 9 5) (w.extractLsb' 8 1) (w.extractLsb' 7 1) (w.extractLsb' 6 1)) else .error .operand
  | 16 => if w.extractLsb' 5 1 = 0 then .ok (.rol (w.extractLsb' 19 5) (w.extractLsb' 14 5) (w.extractLsb' 9 5) (w.extractLsb' 8 1) (w.extractLsb' 7 1) (w.extractLsb' 6 1)) else .error .operand
  | 17 => if w.extractLsb' 5 3 = 0 then .ok (.min (w.extractLsb' 19 5) (w.extractLsb' 14 5) (w.extractLsb' 9 5) (w.extractLsb' 8 1)) else .error .operand
  | 18 => if w.extractLsb' 5 3 = 0 then .ok (.max (w.extractLsb' 19 5) (w.extractLsb' 14 5) (w.extractLsb' 9 5) (w.extractLsb' 8 1)) else .error .operand
  | 19 => if w.extractLsb' 5 3 = 0 then .ok (.minn (w.extractLsb' 19 5) (w.extractLsb' 14 5) (w.extractLsb' 9 5) (w.extractLsb' 8 1)) else .error .operand
  | 20 => if w.extractLsb' 5 3 = 0 then .ok (.maxn (w.extractLsb' 19 5) (w.extractLsb' 14 5) (w.extractLsb' 9 5) (w.extractLsb' 8 1)) else .error .operand
  | 21 => if w.extractLsb' 5 3 = 0 then .ok (.slt (w.extractLsb' 19 5) (w.extractLsb' 14 5) (w.extractLsb' 9 5) (w.extractLsb' 8 1)) else .error .operand
  | 22 => if w.extractLsb' 5 3 = 0 then .ok (.sltn (w.extractLsb' 19 5) (w.extractLsb' 14 5) (w.extractLsb' 9 5) (w.extractLsb' 8 1)) else .error .operand
  | 23 => if w.extractLsb' 9 5 = 0 ∧ w.extractLsb' 5 3 = 0 then .ok (.clz (w.extractLsb' 19 5) (w.extractLsb' 14 5) (w.extractLsb' 8 1)) else .error .operand
  | 24 => if w.extractLsb' 9 5 = 0 ∧ w.extractLsb' 5 3 = 0 then .ok (.ctz (w.extractLsb' 19 5) (w.extractLsb' 14 5) (w.extractLsb' 8 1)) else .error .operand
  | 25 => if w.extractLsb' 9 5 = 0 ∧ w.extractLsb' 5 3 = 0 then .ok (.popc (w.extractLsb' 19 5) (w.extractLsb' 14 5) (w.extractLsb' 8 1)) else .error .operand
  | _ => .error .unassigned

/-- Major 0x07 of R59. -/
def decodeMajor07 (w : BitVec 32) : Except Illegal Instr :=
  match (w.extractLsb' 6 3).toNat with
  | 0 => if w.extractLsb' 9 5 = 0 ∧ w.extractLsb' 0 6 = 0 then .ok (.emovToE (w.extractLsb' 19 5) (w.extractLsb' 14 5)) else .error .operand
  | 1 => if w.extractLsb' 9 5 = 0 ∧ w.extractLsb' 0 6 = 0 then .ok (.emovFromE (w.extractLsb' 19 5) (w.extractLsb' 14 5)) else .error .operand
  | _ => .error .unassigned

/-- Major 0x0B of R59. -/
def decodeMajor0B (w : BitVec 32) : Except Illegal Instr :=
  match (w.extractLsb' 6 3).toNat with
  | 0 => if w.extractLsb' 19 5 = 0 ∧ w.extractLsb' 9 5 = 0 ∧ w.extractLsb' 0 6 = 0 then .ok (.jr (w.extractLsb' 14 5)) else .error .operand
  | 1 => if w.extractLsb' 19 5 = 0 ∧ w.extractLsb' 9 5 = 0 ∧ w.extractLsb' 0 6 = 0 then .ok (.jlr (w.extractLsb' 14 5)) else .error .operand
  | _ => .error .unassigned

/-- Major 0x18 of R59. -/
def decodeMajor18 (w : BitVec 32) : Except Illegal Instr :=
  match (w.extractLsb' 6 3).toNat with
  | 0 => if w.extractLsb' 0 6 = 0 then .ok (.csetb (w.extractLsb' 19 5) (w.extractLsb' 14 5) (w.extractLsb' 9 5)) else .error .operand
  | 1 => if w.extractLsb' 0 6 = 0 then .ok (.cinc (w.extractLsb' 19 5) (w.extractLsb' 14 5) (w.extractLsb' 9 5)) else .error .operand
  | 2 => if w.extractLsb' 0 6 = 0 then .ok (.cand (w.extractLsb' 19 5) (w.extractLsb' 14 5) (w.extractLsb' 9 5)) else .error .operand
  | 3 => if w.extractLsb' 9 5 = 0 ∧ w.extractLsb' 0 6 = 0 then .ok (.cbase (w.extractLsb' 19 5) (w.extractLsb' 14 5)) else .error .operand
  | 4 => if w.extractLsb' 9 5 = 0 ∧ w.extractLsb' 0 6 = 0 then .ok (.clen (w.extractLsb' 19 5) (w.extractLsb' 14 5)) else .error .operand
  | 5 => if w.extractLsb' 9 5 = 0 ∧ w.extractLsb' 0 6 = 0 then .ok (.cperm (w.extractLsb' 19 5) (w.extractLsb' 14 5)) else .error .operand
  | _ => .error .unassigned

/-- Major 0x1D of R59. -/
def decodeMajor1D (w : BitVec 32) : Except Illegal Instr :=
  match (w.extractLsb' 6 3).toNat with
  | 0 => if w.extractLsb' 9 10 = 0 ∧ w.extractLsb' 0 6 = 0 then .ok (.time (w.extractLsb' 19 5)) else .error .operand
  | 1 => if w.extractLsb' 19 5 = 0 ∧ w.extractLsb' 9 5 = 0 ∧ w.extractLsb' 0 6 = 0 then .ok (.twait (w.extractLsb' 14 5)) else .error .operand
  | _ => .error .unassigned

/-- Major 0x1F of R59. -/
def decodeMajor1F (w : BitVec 32) : Except Illegal Instr :=
  match (w.extractLsb' 6 3).toNat with
  | 0 => if w.extractLsb' 19 5 = 0 ∧ w.extractLsb' 9 5 = 0 ∧ w.extractLsb' 0 6 = 0 then .ok (.fresume (w.extractLsb' 14 5)) else .error .operand
  | 1 => if w.extractLsb' 19 5 = 0 ∧ w.extractLsb' 9 5 = 0 ∧ w.extractLsb' 0 6 = 0 then .ok (.fkill (w.extractLsb' 14 5)) else .error .operand
  | 2 => if w.extractLsb' 19 5 = 0 ∧ w.extractLsb' 9 5 = 0 ∧ w.extractLsb' 0 6 = 0 then .ok (.fretry (w.extractLsb' 14 5)) else .error .operand
  | _ => .error .unassigned

/-- Major 0x20 of R59. -/
def decodeMajor20 (w : BitVec 32) : Except Illegal Instr :=
  match (w.extractLsb' 0 4).toNat with
  | 0 => .ok (.fadd (w.extractLsb' 19 5) (w.extractLsb' 14 5) (w.extractLsb' 9 5) (w.extractLsb' 4 5))
  | 1 => .ok (.fsub (w.extractLsb' 19 5) (w.extractLsb' 14 5) (w.extractLsb' 9 5) (w.extractLsb' 4 5))
  | 2 => .ok (.fmul (w.extractLsb' 19 5) (w.extractLsb' 14 5) (w.extractLsb' 9 5) (w.extractLsb' 4 5))
  | 3 => .ok (.fmin (w.extractLsb' 19 5) (w.extractLsb' 14 5) (w.extractLsb' 9 5) (w.extractLsb' 4 5))
  | 4 => .ok (.fmax (w.extractLsb' 19 5) (w.extractLsb' 14 5) (w.extractLsb' 9 5) (w.extractLsb' 4 5))
  | 5 => .ok (.fdiv (w.extractLsb' 19 5) (w.extractLsb' 14 5) (w.extractLsb' 9 5) (w.extractLsb' 4 5))
  | 6 => if w.extractLsb' 9 5 = 0 then .ok (.fabs (w.extractLsb' 19 5) (w.extractLsb' 14 5) (w.extractLsb' 4 5)) else .error .operand
  | 7 => if w.extractLsb' 9 5 = 0 then .ok (.fneg (w.extractLsb' 19 5) (w.extractLsb' 14 5) (w.extractLsb' 4 5)) else .error .operand
  | 8 => if w.extractLsb' 9 5 = 0 then .ok (.fsqrt (w.extractLsb' 19 5) (w.extractLsb' 14 5) (w.extractLsb' 4 5)) else .error .operand
  | 9 => if w.extractLsb' 9 5 = 0 then .ok (.fclass (w.extractLsb' 19 5) (w.extractLsb' 14 5) (w.extractLsb' 4 5)) else .error .operand
  | 10 => .ok (.fcmp (w.extractLsb' 19 5) (w.extractLsb' 14 5) (w.extractLsb' 9 5) (w.extractLsb' 4 5))
  | 11 => .ok (.ffma (w.extractLsb' 19 5) (w.extractLsb' 14 5) (w.extractLsb' 9 5) (w.extractLsb' 4 5))
  | _ => .error .unassigned

/-- Major 0x21 of R59. -/
def decodeMajor21 (w : BitVec 32) : Except Illegal Instr :=
  match (w.extractLsb' 0 4).toNat with
  | 0 => if w.extractLsb' 9 5 = 0 then .ok (.frcp (w.extractLsb' 19 5) (w.extractLsb' 14 5) (w.extractLsb' 4 5)) else .error .operand
  | 1 => if w.extractLsb' 9 5 = 0 then .ok (.frsq (w.extractLsb' 19 5) (w.extractLsb' 14 5) (w.extractLsb' 4 5)) else .error .operand
  | 2 => if w.extractLsb' 9 5 = 0 then .ok (.fexp2 (w.extractLsb' 19 5) (w.extractLsb' 14 5) (w.extractLsb' 4 5)) else .error .operand
  | 3 => if w.extractLsb' 9 5 = 0 then .ok (.flog2 (w.extractLsb' 19 5) (w.extractLsb' 14 5) (w.extractLsb' 4 5)) else .error .operand
  | 4 => if w.extractLsb' 9 5 = 0 then .ok (.fsin (w.extractLsb' 19 5) (w.extractLsb' 14 5) (w.extractLsb' 4 5)) else .error .operand
  | 5 => if w.extractLsb' 9 5 = 0 then .ok (.fcos (w.extractLsb' 19 5) (w.extractLsb' 14 5) (w.extractLsb' 4 5)) else .error .operand
  | _ => .error .unassigned

/-- Major 0x22 of R59. -/
def decodeMajor22 (w : BitVec 32) : Except Illegal Instr :=
  match (w.extractLsb' 0 4).toNat with
  | 0 => .ok (.cvt (w.extractLsb' 19 5) (w.extractLsb' 14 5) (w.extractLsb' 9 5) (w.extractLsb' 4 5))
  | 1 => .ok (.cvtf (w.extractLsb' 19 5) (w.extractLsb' 14 5) (w.extractLsb' 9 5) (w.extractLsb' 4 5))
  | 2 => .ok (.frnd (w.extractLsb' 19 5) (w.extractLsb' 14 5) (w.extractLsb' 9 5) (w.extractLsb' 4 5))
  | _ => .error .unassigned

/-- Major 0x23 of R59. -/
def decodeMajor23 (w : BitVec 32) : Except Illegal Instr :=
  match (w.extractLsb' 6 3).toNat with
  | 0 => if w.extractLsb' 9 5 = 0 ∧ w.extractLsb' 0 6 = 0 then .ok (.tailget (w.extractLsb' 19 5) (w.extractLsb' 14 5)) else .error .operand
  | 1 => if w.extractLsb' 0 6 = 0 then .ok (.tailset (w.extractLsb' 19 5) (w.extractLsb' 14 5) (w.extractLsb' 9 5)) else .error .operand
  | 2 => if w.extractLsb' 9 5 = 0 ∧ w.extractLsb' 3 3 = 0 then .ok (.tailgetV (w.extractLsb' 19 5) (w.extractLsb' 14 5) (w.extractLsb' 0 3)) else .error .operand
  | 3 => if w.extractLsb' 3 3 = 0 then .ok (.tailsetV (w.extractLsb' 19 5) (w.extractLsb' 14 5) (w.extractLsb' 9 5) (w.extractLsb' 0 3)) else .error .operand
  | _ => .error .unassigned

/-- Major 0x30 of R59. -/
def decodeMajor30 (w : BitVec 32) : Except Illegal Instr :=
  match (w.extractLsb' 9 5).toNat with
  | 0 => if w.extractLsb' 3 1 = 0 then .ok (.fabsV (w.extractLsb' 19 5) (w.extractLsb' 14 5) (w.extractLsb' 4 5) (w.extractLsb' 0 3)) else .error .operand
  | 1 => if w.extractLsb' 3 1 = 0 then .ok (.fnegV (w.extractLsb' 19 5) (w.extractLsb' 14 5) (w.extractLsb' 4 5) (w.extractLsb' 0 3)) else .error .operand
  | 2 => if w.extractLsb' 3 1 = 0 then .ok (.fsqrtV (w.extractLsb' 19 5) (w.extractLsb' 14 5) (w.extractLsb' 4 5) (w.extractLsb' 0 3)) else .error .operand
  | 3 => if w.extractLsb' 3 1 = 0 then .ok (.fclassV (w.extractLsb' 19 5) (w.extractLsb' 14 5) (w.extractLsb' 4 5) (w.extractLsb' 0 3)) else .error .operand
  | 4 => if w.extractLsb' 3 1 = 0 then .ok (.frcpV (w.extractLsb' 19 5) (w.extractLsb' 14 5) (w.extractLsb' 4 5) (w.extractLsb' 0 3)) else .error .operand
  | 5 => if w.extractLsb' 3 1 = 0 then .ok (.frsqV (w.extractLsb' 19 5) (w.extractLsb' 14 5) (w.extractLsb' 4 5) (w.extractLsb' 0 3)) else .error .operand
  | 6 => if w.extractLsb' 3 1 = 0 then .ok (.fexp2V (w.extractLsb' 19 5) (w.extractLsb' 14 5) (w.extractLsb' 4 5) (w.extractLsb' 0 3)) else .error .operand
  | 7 => if w.extractLsb' 3 1 = 0 then .ok (.flog2V (w.extractLsb' 19 5) (w.extractLsb' 14 5) (w.extractLsb' 4 5) (w.extractLsb' 0 3)) else .error .operand
  | 8 => if w.extractLsb' 3 1 = 0 then .ok (.fsinV (w.extractLsb' 19 5) (w.extractLsb' 14 5) (w.extractLsb' 4 5) (w.extractLsb' 0 3)) else .error .operand
  | 9 => if w.extractLsb' 3 1 = 0 then .ok (.fcosV (w.extractLsb' 19 5) (w.extractLsb' 14 5) (w.extractLsb' 4 5) (w.extractLsb' 0 3)) else .error .operand
  | _ => .error .unassigned

/-- Major 0x38 of R59. -/
def decodeMajor38 (w : BitVec 32) : Except Illegal Instr :=
  match (w.extractLsb' 6 3).toNat with
  | 0 => if w.extractLsb' 3 3 = 0 then .ok (.vshuf (w.extractLsb' 19 5) (w.extractLsb' 14 5) (w.extractLsb' 9 5) (w.extractLsb' 0 3)) else .error .operand
  | 1 => if w.extractLsb' 3 3 = 0 then .ok (.vrot (w.extractLsb' 19 5) (w.extractLsb' 14 5) (w.extractLsb' 9 5) (w.extractLsb' 0 3)) else .error .operand
  | 2 => if w.extractLsb' 9 5 = 0 ∧ w.extractLsb' 3 3 = 0 then .ok (.vbcast (w.extractLsb' 19 5) (w.extractLsb' 14 5) (w.extractLsb' 0 3)) else .error .operand
  | 3 => if w.extractLsb' 3 3 = 0 then .ok (.vsel (w.extractLsb' 19 5) (w.extractLsb' 14 5) (w.extractLsb' 9 5) (w.extractLsb' 0 3)) else .error .operand
  | 4 => if w.extractLsb' 9 5 = 0 ∧ w.extractLsb' 3 3 = 0 then .ok (.vidx (w.extractLsb' 19 5) (w.extractLsb' 14 5) (w.extractLsb' 0 3)) else .error .operand
  | _ => .error .unassigned

/-- Major 0x39 of R59. -/
def decodeMajor39 (w : BitVec 32) : Except Illegal Instr :=
  match (w.extractLsb' 9 5).toNat with
  | 0 => if w.extractLsb' 3 1 = 0 then .ok (.vredAdd (w.extractLsb' 19 5) (w.extractLsb' 14 5) (w.extractLsb' 4 5) (w.extractLsb' 0 3)) else .error .operand
  | 1 => if w.extractLsb' 3 1 = 0 then .ok (.vredMin (w.extractLsb' 19 5) (w.extractLsb' 14 5) (w.extractLsb' 4 5) (w.extractLsb' 0 3)) else .error .operand
  | 2 => if w.extractLsb' 3 1 = 0 then .ok (.vredMax (w.extractLsb' 19 5) (w.extractLsb' 14 5) (w.extractLsb' 4 5) (w.extractLsb' 0 3)) else .error .operand
  | 3 => if w.extractLsb' 3 1 = 0 then .ok (.vredAnd (w.extractLsb' 19 5) (w.extractLsb' 14 5) (w.extractLsb' 4 5) (w.extractLsb' 0 3)) else .error .operand
  | 4 => if w.extractLsb' 3 1 = 0 then .ok (.vredOr (w.extractLsb' 19 5) (w.extractLsb' 14 5) (w.extractLsb' 4 5) (w.extractLsb' 0 3)) else .error .operand
  | 5 => if w.extractLsb' 3 1 = 0 then .ok (.vredXor (w.extractLsb' 19 5) (w.extractLsb' 14 5) (w.extractLsb' 4 5) (w.extractLsb' 0 3)) else .error .operand
  | _ => .error .unassigned

/-- Major 0x3C of R59. -/
def decodeMajor3C (w : BitVec 32) : Except Illegal Instr :=
  match (w.extractLsb' 6 3).toNat with
  | 0 => if w.extractLsb' 0 6 = 0 then .ok (.rndk (w.extractLsb' 19 5) (w.extractLsb' 14 5) (w.extractLsb' 9 5)) else .error .operand
  | 1 => if w.extractLsb' 3 3 = 0 then .ok (.rndkV (w.extractLsb' 19 5) (w.extractLsb' 14 5) (w.extractLsb' 9 5) (w.extractLsb' 0 3)) else .error .operand
  | _ => .error .unassigned

/-- Major 0x3E of R59. -/
def decodeMajor3E (w : BitVec 32) : Except Illegal Instr :=
  match (w.extractLsb' 6 3).toNat with
  | 0 => if w.extractLsb' 9 15 = 0 ∧ w.extractLsb' 3 3 = 0 then .ok (.gang (w.extractLsb' 0 3)) else .error .operand
  | 1 => if w.extractLsb' 9 15 = 0 ∧ w.extractLsb' 0 6 = 0 then .ok .split else .error .operand
  | _ => .error .unassigned

/-- Major 0x4F of R59. -/
def decodeMajor4F (w : BitVec 32) : Except Illegal Instr :=
  match (w.extractLsb' 9 2).toNat with
  | 0 => if w.extractLsb' 4 5 = 0 ∧ w.extractLsb' 0 1 = 0 then .ok (.spill (w.extractLsb' 19 5) (w.extractLsb' 14 5) (w.extractLsb' 11 3) (w.extractLsb' 1 3)) else .error .operand
  | 1 => if w.extractLsb' 4 5 = 0 ∧ w.extractLsb' 0 1 = 0 then .ok (.fill (w.extractLsb' 19 5) (w.extractLsb' 14 5) (w.extractLsb' 11 3) (w.extractLsb' 1 3)) else .error .operand
  | _ => .error .unassigned

/-- Major 0x68 of R59. -/
def decodeMajor68 (w : BitVec 32) : Except Illegal Instr :=
  match (w.extractLsb' 6 3).toNat with
  | 0 => if w.extractLsb' 9 15 = 0 ∧ w.extractLsb' 0 3 = 0 then .ok (.fence (w.extractLsb' 3 3)) else .error .operand
  | 1 => if w.extractLsb' 9 15 = 0 ∧ w.extractLsb' 0 3 = 0 then .ok (.fenceAcq (w.extractLsb' 3 3)) else .error .operand
  | 2 => if w.extractLsb' 9 15 = 0 ∧ w.extractLsb' 0 3 = 0 then .ok (.fenceRel (w.extractLsb' 3 3)) else .error .operand
  | _ => .error .unassigned

/-- Major 0x6A of R59. -/
def decodeMajor6A (w : BitVec 32) : Except Illegal Instr :=
  match (w.extractLsb' 6 3).toNat with
  | 0 => if w.extractLsb' 9 15 = 0 ∧ w.extractLsb' 0 3 = 0 then .ok (.bar (w.extractLsb' 3 3)) else .error .operand
  | 1 => if w.extractLsb' 9 10 = 0 ∧ w.extractLsb' 0 3 = 0 then .ok (.barw (w.extractLsb' 19 5) (w.extractLsb' 3 3)) else .error .operand
  | 2 => if w.extractLsb' 9 10 = 0 ∧ w.extractLsb' 0 3 = 0 then .ok (.barq (w.extractLsb' 19 5) (w.extractLsb' 3 3)) else .error .operand
  | _ => .error .unassigned

/-- Major 0x6B of R59. -/
def decodeMajor6B (w : BitVec 32) : Except Illegal Instr :=
  match (w.extractLsb' 6 3).toNat with
  | 0 => if w.extractLsb' 9 10 = 0 ∧ w.extractLsb' 3 3 = 0 then .ok (.qpoll (w.extractLsb' 19 5) (w.extractLsb' 0 3)) else .error .operand
  | 1 => if w.extractLsb' 19 5 = 0 ∧ w.extractLsb' 3 3 = 0 then .ok (.qsend (w.extractLsb' 14 5) (w.extractLsb' 9 5) (w.extractLsb' 0 3)) else .error .operand
  | 2 => if w.extractLsb' 19 5 = 0 ∧ w.extractLsb' 3 3 = 0 then .ok (.qsendd (w.extractLsb' 14 5) (w.extractLsb' 9 5) (w.extractLsb' 0 3)) else .error .operand
  | _ => .error .unassigned

/-- Major 0x70 of R59. -/
def decodeMajor70 (w : BitVec 32) : Except Illegal Instr :=
  match (w.extractLsb' 19 5).toNat with
  | 0 => if w.extractLsb' 0 1 = 0 then .ok (.mlda (w.extractLsb' 14 5) (w.extractLsb' 9 5) (w.extractLsb' 6 3) (w.extractLsb' 1 5)) else .error .operand
  | 1 => if w.extractLsb' 0 1 = 0 then .ok (.mldb (w.extractLsb' 14 5) (w.extractLsb' 9 5) (w.extractLsb' 6 3) (w.extractLsb' 1 5)) else .error .operand
  | 2 => if w.extractLsb' 9 5 = 0 ∧ w.extractLsb' 0 1 = 0 then .ok (.mtbl (w.extractLsb' 14 5) (w.extractLsb' 6 3) (w.extractLsb' 1 5)) else .error .operand
  | _ => .error .unassigned

/-- Major 0x72 of R59. -/
def decodeMajor72 (w : BitVec 32) : Except Illegal Instr :=
  match (w.extractLsb' 6 3).toNat with
  | 0 => if w.extractLsb' 9 15 = 0 ∧ w.extractLsb' 0 6 = 0 then .ok .mpass else .error .operand
  | 1 => if w.extractLsb' 19 5 = 0 ∧ w.extractLsb' 9 5 = 0 ∧ w.extractLsb' 0 6 = 0 then .ok (.mwait (w.extractLsb' 14 5)) else .error .operand
  | 2 => if w.extractLsb' 9 5 = 0 ∧ w.extractLsb' 0 6 = 0 then .ok (.mpoll (w.extractLsb' 19 5) (w.extractLsb' 14 5)) else .error .operand
  | 3 => if w.extractLsb' 9 15 = 0 ∧ w.extractLsb' 2 4 = 0 then .ok (.mzero (w.extractLsb' 0 2)) else .error .operand
  | _ => .error .unassigned

/-- Major 0x75 of R59. -/
def decodeMajor75 (w : BitVec 32) : Except Illegal Instr :=
  match (w.extractLsb' 6 3).toNat with
  | 0 => if w.extractLsb' 9 10 = 0 ∧ w.extractLsb' 0 3 = 0 then .ok (.cpy (w.extractLsb' 19 5) (w.extractLsb' 3 3)) else .error .operand
  | 1 => if w.extractLsb' 9 5 = 0 ∧ w.extractLsb' 0 3 = 0 then .ok (.cpyc (w.extractLsb' 19 5) (w.extractLsb' 14 5) (w.extractLsb' 3 3)) else .error .operand
  | 2 => if w.extractLsb' 19 5 = 0 ∧ w.extractLsb' 9 5 = 0 ∧ w.extractLsb' 0 6 = 0 then .ok (.cpyw (w.extractLsb' 14 5)) else .error .operand
  | 3 => if w.extractLsb' 9 5 = 0 ∧ w.extractLsb' 0 6 = 0 then .ok (.cpyq (w.extractLsb' 19 5) (w.extractLsb' 14 5)) else .error .operand
  | _ => .error .unassigned

/-- Major 0x76 of R59. -/
def decodeMajor76 (w : BitVec 32) : Except Illegal Instr :=
  match (w.extractLsb' 6 3).toNat with
  | 0 => if w.extractLsb' 19 5 = 0 ∧ w.extractLsb' 9 5 = 0 then .ok (.gcon (w.extractLsb' 14 5) (w.extractLsb' 0 6)) else .error .operand
  | 1 => if w.extractLsb' 9 10 = 0 then .ok (.gres (w.extractLsb' 19 5) (w.extractLsb' 0 6)) else .error .operand
  | 2 => if w.extractLsb' 9 5 = 0 then .ok (.barmax (w.extractLsb' 19 5) (w.extractLsb' 14 5) (w.extractLsb' 0 6)) else .error .operand
  | _ => .error .unassigned

/-- Major 0x77 of R59. -/
def decodeMajor77 (w : BitVec 32) : Except Illegal Instr :=
  match (w.extractLsb' 6 3).toNat with
  | 0 => if w.extractLsb' 0 6 = 0 then .ok (.fork (w.extractLsb' 19 5) (w.extractLsb' 14 5) (w.extractLsb' 9 5)) else .error .operand
  | 1 => if w.extractLsb' 9 15 = 0 ∧ w.extractLsb' 0 6 = 0 then .ok .choose else .error .operand
  | 2 => if w.extractLsb' 9 15 = 0 ∧ w.extractLsb' 0 6 = 0 then .ok .abandon else .error .operand
  | 3 => if w.extractLsb' 9 5 = 0 ∧ w.extractLsb' 0 3 = 0 then .ok (.dopen (w.extractLsb' 19 5) (w.extractLsb' 14 5) (w.extractLsb' 3 3)) else .error .operand
  | 4 => if w.extractLsb' 9 15 = 0 ∧ w.extractLsb' 0 6 = 0 then .ok .dclose else .error .operand
  | 5 => if w.extractLsb' 9 10 = 0 ∧ w.extractLsb' 0 6 = 0 then .ok (.vstat (w.extractLsb' 19 5)) else .error .operand
  | _ => .error .unassigned

/-- The 32-bit map of R59: the instruction in one 32-bit word, before the checks of `illegalOf`.
A selector value with no row gives detail 0x01 and a RES field that is not zero detail 0x02 (R52). -/
def decode32 (w : BitVec 32) : Except Illegal Instr :=
  match (w.extractLsb' 24 7).toNat with
  | 0x01 => decodeMajor01 w
  | 0x02 => if w.extractLsb' 5 4 = 0 then .ok (.sel (w.extractLsb' 19 5) (w.extractLsb' 14 5) (w.extractLsb' 9 5) (w.extractLsb' 0 5)) else .error .operand
  | 0x03 => .ok (.addi (w.extractLsb' 19 5) (w.extractLsb' 14 5) (w.extractLsb' 0 14))
  | 0x04 => .ok (.li (w.extractLsb' 19 5) (w.extractLsb' 0 19))
  | 0x05 => if w.extractLsb' 18 1 = 0 then .ok (.lih (w.extractLsb' 19 5) (w.extractLsb' 0 18)) else .error .operand
  | 0x06 => .ok (.eli (w.extractLsb' 19 5) (w.extractLsb' 0 19))
  | 0x07 => decodeMajor07 w
  | 0x08 => .ok (.b (w.extractLsb' 0 24))
  | 0x09 => .ok (.j (w.extractLsb' 0 24))
  | 0x0A => .ok (.jl (w.extractLsb' 0 24))
  | 0x0B => decodeMajor0B w
  | 0x0C => .ok (.beq (w.extractLsb' 19 5) (w.extractLsb' 14 5) (w.extractLsb' 0 14))
  | 0x0D => .ok (.bne (w.extractLsb' 19 5) (w.extractLsb' 14 5) (w.extractLsb' 0 14))
  | 0x0E => .ok (.blt (w.extractLsb' 19 5) (w.extractLsb' 14 5) (w.extractLsb' 0 14))
  | 0x0F => .ok (.bge (w.extractLsb' 19 5) (w.extractLsb' 14 5) (w.extractLsb' 0 14))
  | 0x10 => .ok (.bltn (w.extractLsb' 19 5) (w.extractLsb' 14 5) (w.extractLsb' 0 14))
  | 0x11 => .ok (.bgen (w.extractLsb' 19 5) (w.extractLsb' 14 5) (w.extractLsb' 0 14))
  | 0x12 => if w.extractLsb' 14 5 = 0 then .ok (.bz (w.extractLsb' 19 5) (w.extractLsb' 0 14)) else .error .operand
  | 0x13 => if w.extractLsb' 14 5 = 0 then .ok (.bnz (w.extractLsb' 19 5) (w.extractLsb' 0 14)) else .error .operand
  | 0x14 => if w.extractLsb' 14 5 = 0 then .ok (.loop (w.extractLsb' 19 5) (w.extractLsb' 0 14)) else .error .operand
  | 0x18 => decodeMajor18 w
  | 0x1B => if w.extractLsb' 9 10 = 0 then .ok (.getc (w.extractLsb' 19 5) (w.extractLsb' 0 9)) else .error .operand
  | 0x1C => if w.extractLsb' 19 5 = 0 ∧ w.extractLsb' 9 5 = 0 then .ok (.setc (w.extractLsb' 14 5) (w.extractLsb' 0 9)) else .error .operand
  | 0x1D => decodeMajor1D w
  | 0x1E => if w.extractLsb' 14 10 = 0 then .ok (.trap (w.extractLsb' 0 14)) else .error .operand
  | 0x1F => decodeMajor1F w
  | 0x20 => decodeMajor20 w
  | 0x21 => decodeMajor21 w
  | 0x22 => decodeMajor22 w
  | 0x23 => decodeMajor23 w
  | 0x28 => if w.extractLsb' 3 1 = 0 then .ok (.faddV (w.extractLsb' 19 5) (w.extractLsb' 14 5) (w.extractLsb' 9 5) (w.extractLsb' 4 5) (w.extractLsb' 0 3)) else .error .operand
  | 0x29 => if w.extractLsb' 3 1 = 0 then .ok (.fsubV (w.extractLsb' 19 5) (w.extractLsb' 14 5) (w.extractLsb' 9 5) (w.extractLsb' 4 5) (w.extractLsb' 0 3)) else .error .operand
  | 0x2A => if w.extractLsb' 3 1 = 0 then .ok (.fmulV (w.extractLsb' 19 5) (w.extractLsb' 14 5) (w.extractLsb' 9 5) (w.extractLsb' 4 5) (w.extractLsb' 0 3)) else .error .operand
  | 0x2B => if w.extractLsb' 3 1 = 0 then .ok (.fminV (w.extractLsb' 19 5) (w.extractLsb' 14 5) (w.extractLsb' 9 5) (w.extractLsb' 4 5) (w.extractLsb' 0 3)) else .error .operand
  | 0x2C => if w.extractLsb' 3 1 = 0 then .ok (.fmaxV (w.extractLsb' 19 5) (w.extractLsb' 14 5) (w.extractLsb' 9 5) (w.extractLsb' 4 5) (w.extractLsb' 0 3)) else .error .operand
  | 0x2D => if w.extractLsb' 3 1 = 0 then .ok (.fdivV (w.extractLsb' 19 5) (w.extractLsb' 14 5) (w.extractLsb' 9 5) (w.extractLsb' 4 5) (w.extractLsb' 0 3)) else .error .operand
  | 0x2E => if w.extractLsb' 3 1 = 0 then .ok (.ffmaV (w.extractLsb' 19 5) (w.extractLsb' 14 5) (w.extractLsb' 9 5) (w.extractLsb' 4 5) (w.extractLsb' 0 3)) else .error .operand
  | 0x2F => if w.extractLsb' 3 1 = 0 then .ok (.fcmpV (w.extractLsb' 22 2) (w.extractLsb' 19 3) (w.extractLsb' 14 5) (w.extractLsb' 9 5) (w.extractLsb' 4 5) (w.extractLsb' 0 3)) else .error .operand
  | 0x30 => decodeMajor30 w
  | 0x31 => if w.extractLsb' 3 1 = 0 then .ok (.cvtV (w.extractLsb' 19 5) (w.extractLsb' 14 5) (w.extractLsb' 9 5) (w.extractLsb' 4 5) (w.extractLsb' 0 3)) else .error .operand
  | 0x32 => if w.extractLsb' 3 1 = 0 then .ok (.cvtfV (w.extractLsb' 19 5) (w.extractLsb' 14 5) (w.extractLsb' 9 5) (w.extractLsb' 4 5) (w.extractLsb' 0 3)) else .error .operand
  | 0x33 => if w.extractLsb' 3 1 = 0 then .ok (.frndV (w.extractLsb' 19 5) (w.extractLsb' 14 5) (w.extractLsb' 9 5) (w.extractLsb' 4 5) (w.extractLsb' 0 3)) else .error .operand
  | 0x38 => decodeMajor38 w
  | 0x39 => decodeMajor39 w
  | 0x3A => if w.extractLsb' 3 1 = 0 then .ok (.pack (w.extractLsb' 19 5) (w.extractLsb' 14 5) (w.extractLsb' 9 5) (w.extractLsb' 4 5) (w.extractLsb' 0 3)) else .error .operand
  | 0x3B => if w.extractLsb' 9 5 = 0 ∧ w.extractLsb' 3 1 = 0 then .ok (.vlut (w.extractLsb' 19 5) (w.extractLsb' 14 5) (w.extractLsb' 4 5) (w.extractLsb' 0 3)) else .error .operand
  | 0x3C => decodeMajor3C w
  | 0x3D => if w.extractLsb' 0 14 = 0 then .ok (.vloop (w.extractLsb' 19 5) (w.extractLsb' 14 5)) else .error .operand
  | 0x3E => decodeMajor3E w
  | 0x40 => if w.extractLsb' 0 1 = 0 then .ok (.ld (w.extractLsb' 19 5) (w.extractLsb' 14 5) (w.extractLsb' 11 3) (w.extractLsb' 9 2) (w.extractLsb' 4 5) (w.extractLsb' 1 3)) else .error .operand
  | 0x41 => .ok (.ldImm (w.extractLsb' 19 5) (w.extractLsb' 16 3) (w.extractLsb' 11 5) (w.extractLsb' 0 11))
  | 0x42 => if w.extractLsb' 0 1 = 0 then .ok (.st (w.extractLsb' 19 5) (w.extractLsb' 14 5) (w.extractLsb' 11 3) (w.extractLsb' 9 2) (w.extractLsb' 4 5) (w.extractLsb' 1 3)) else .error .operand
  | 0x43 => .ok (.stImm (w.extractLsb' 19 5) (w.extractLsb' 16 3) (w.extractLsb' 11 5) (w.extractLsb' 0 11))
  | 0x44 => if w.extractLsb' 0 1 = 0 then .ok (.fst (w.extractLsb' 19 5) (w.extractLsb' 14 5) (w.extractLsb' 11 3) (w.extractLsb' 9 2) (w.extractLsb' 4 5) (w.extractLsb' 1 3)) else .error .operand
  | 0x45 => .ok (.fstImm (w.extractLsb' 19 5) (w.extractLsb' 16 3) (w.extractLsb' 11 5) (w.extractLsb' 0 11))
  | 0x46 => if w.extractLsb' 0 3 = 0 then .ok (.vld (w.extractLsb' 19 5) (w.extractLsb' 14 5) (w.extractLsb' 11 3) (w.extractLsb' 8 3) (w.extractLsb' 3 5)) else .error .operand
  | 0x47 => .ok (.vldImm (w.extractLsb' 19 5) (w.extractLsb' 16 3) (w.extractLsb' 11 5) (w.extractLsb' 0 11))
  | 0x48 => if w.extractLsb' 0 3 = 0 then .ok (.vst (w.extractLsb' 19 5) (w.extractLsb' 14 5) (w.extractLsb' 11 3) (w.extractLsb' 8 3) (w.extractLsb' 3 5)) else .error .operand
  | 0x49 => .ok (.vstImm (w.extractLsb' 19 5) (w.extractLsb' 16 3) (w.extractLsb' 11 5) (w.extractLsb' 0 11))
  | 0x4A => .ok (.vlds (w.extractLsb' 19 5) (w.extractLsb' 14 5) (w.extractLsb' 11 3) (w.extractLsb' 8 3) (w.extractLsb' 3 5) (w.extractLsb' 0 3))
  | 0x4B => if w.extractLsb' 0 3 = 0 then .ok (.vgath (w.extractLsb' 19 5) (w.extractLsb' 14 5) (w.extractLsb' 11 3) (w.extractLsb' 8 3) (w.extractLsb' 3 5)) else .error .operand
  | 0x4C => if w.extractLsb' 0 3 = 0 then .ok (.vscat (w.extractLsb' 19 5) (w.extractLsb' 14 5) (w.extractLsb' 11 3) (w.extractLsb' 8 3) (w.extractLsb' 3 5)) else .error .operand
  | 0x4D => if w.extractLsb' 4 5 = 0 ∧ w.extractLsb' 0 1 = 0 then .ok (.ldc (w.extractLsb' 19 5) (w.extractLsb' 14 5) (w.extractLsb' 11 3) (w.extractLsb' 9 2) (w.extractLsb' 1 3)) else .error .operand
  | 0x4E => if w.extractLsb' 4 5 = 0 ∧ w.extractLsb' 0 1 = 0 then .ok (.stc (w.extractLsb' 19 5) (w.extractLsb' 14 5) (w.extractLsb' 11 3) (w.extractLsb' 9 2) (w.extractLsb' 1 3)) else .error .operand
  | 0x4F => decodeMajor4F w
  | 0x50 => .ok (.aadd (w.extractLsb' 19 5) (w.extractLsb' 14 5) (w.extractLsb' 9 5) (w.extractLsb' 6 3) (w.extractLsb' 4 2) (w.extractLsb' 1 3) (w.extractLsb' 0 1))
  | 0x51 => .ok (.aand (w.extractLsb' 19 5) (w.extractLsb' 14 5) (w.extractLsb' 9 5) (w.extractLsb' 6 3) (w.extractLsb' 4 2) (w.extractLsb' 1 3) (w.extractLsb' 0 1))
  | 0x52 => .ok (.aor (w.extractLsb' 19 5) (w.extractLsb' 14 5) (w.extractLsb' 9 5) (w.extractLsb' 6 3) (w.extractLsb' 4 2) (w.extractLsb' 1 3) (w.extractLsb' 0 1))
  | 0x53 => .ok (.axor (w.extractLsb' 19 5) (w.extractLsb' 14 5) (w.extractLsb' 9 5) (w.extractLsb' 6 3) (w.extractLsb' 4 2) (w.extractLsb' 1 3) (w.extractLsb' 0 1))
  | 0x54 => .ok (.aswap (w.extractLsb' 19 5) (w.extractLsb' 14 5) (w.extractLsb' 9 5) (w.extractLsb' 6 3) (w.extractLsb' 4 2) (w.extractLsb' 1 3) (w.extractLsb' 0 1))
  | 0x55 => .ok (.acas (w.extractLsb' 19 5) (w.extractLsb' 14 5) (w.extractLsb' 9 5) (w.extractLsb' 6 3) (w.extractLsb' 4 2) (w.extractLsb' 1 3) (w.extractLsb' 0 1))
  | 0x56 => .ok (.aminSigned (w.extractLsb' 19 5) (w.extractLsb' 14 5) (w.extractLsb' 9 5) (w.extractLsb' 6 3) (w.extractLsb' 4 2) (w.extractLsb' 1 3) (w.extractLsb' 0 1))
  | 0x57 => .ok (.aminUnsigned (w.extractLsb' 19 5) (w.extractLsb' 14 5) (w.extractLsb' 9 5) (w.extractLsb' 6 3) (w.extractLsb' 4 2) (w.extractLsb' 1 3) (w.extractLsb' 0 1))
  | 0x58 => .ok (.amaxSigned (w.extractLsb' 19 5) (w.extractLsb' 14 5) (w.extractLsb' 9 5) (w.extractLsb' 6 3) (w.extractLsb' 4 2) (w.extractLsb' 1 3) (w.extractLsb' 0 1))
  | 0x59 => .ok (.amaxUnsigned (w.extractLsb' 19 5) (w.extractLsb' 14 5) (w.extractLsb' 9 5) (w.extractLsb' 6 3) (w.extractLsb' 4 2) (w.extractLsb' 1 3) (w.extractLsb' 0 1))
  | 0x5A => .ok (.afadd (w.extractLsb' 19 5) (w.extractLsb' 14 5) (w.extractLsb' 9 5) (w.extractLsb' 6 3) (w.extractLsb' 4 2) (w.extractLsb' 1 3) (w.extractLsb' 0 1))
  | 0x60 => .ok (.mxacc (w.extractLsb' 19 5) (w.extractLsb' 14 5) (w.extractLsb' 9 5) (w.extractLsb' 6 3) (w.extractLsb' 1 5) (w.extractLsb' 0 1))
  | 0x61 => if w.extractLsb' 0 1 = 0 then .ok (.mxld (w.extractLsb' 19 5) (w.extractLsb' 14 5) (w.extractLsb' 9 5) (w.extractLsb' 6 3) (w.extractLsb' 1 5)) else .error .operand
  | 0x62 => if w.extractLsb' 0 1 = 0 then .ok (.mxst (w.extractLsb' 19 5) (w.extractLsb' 14 5) (w.extractLsb' 9 5) (w.extractLsb' 6 3) (w.extractLsb' 1 5)) else .error .operand
  | 0x63 => if w.extractLsb' 0 1 = 0 then .ok (.mxres (w.extractLsb' 19 5) (w.extractLsb' 14 5) (w.extractLsb' 9 5) (w.extractLsb' 6 3) (w.extractLsb' 1 5)) else .error .operand
  | 0x64 => if w.extractLsb' 19 5 = 0 ∧ w.extractLsb' 9 5 = 0 ∧ w.extractLsb' 0 1 = 0 then .ok (.mxnorm (w.extractLsb' 14 5) (w.extractLsb' 6 3) (w.extractLsb' 1 5)) else .error .operand
  | 0x68 => decodeMajor68 w
  | 0x69 => .ok (.waitne (w.extractLsb' 19 5) (w.extractLsb' 14 5) (w.extractLsb' 9 5) (w.extractLsb' 6 3) (w.extractLsb' 4 2) (w.extractLsb' 1 3) (w.extractLsb' 0 1))
  | 0x6A => decodeMajor6A w
  | 0x6B => decodeMajor6B w
  | 0x6C => if w.extractLsb' 3 3 = 0 then .ok (.spawn (w.extractLsb' 19 5) (w.extractLsb' 14 5) (w.extractLsb' 9 5) (w.extractLsb' 6 3) (w.extractLsb' 0 3)) else .error .operand
  | 0x6D => if w.extractLsb' 4 5 = 0 then .ok (.callat (w.extractLsb' 19 5) (w.extractLsb' 14 5) (w.extractLsb' 9 5) (w.extractLsb' 0 4)) else .error .operand
  | 0x6E => if w.extractLsb' 0 24 = 0 then .ok .quit else .error .operand
  | 0x6F => if w.extractLsb' 19 5 = 0 ∧ w.extractLsb' 0 14 = 0 then .ok (.slott (w.extractLsb' 14 5)) else .error .operand
  | 0x70 => decodeMajor70 w
  | 0x71 => if w.extractLsb' 11 3 = 0 ∧ w.extractLsb' 0 1 = 0 then .ok (.mma (w.extractLsb' 19 5) (w.extractLsb' 14 5) (w.extractLsb' 9 2) (w.extractLsb' 6 3) (w.extractLsb' 1 5)) else .error .operand
  | 0x72 => decodeMajor72 w
  | 0x73 => if w.extractLsb' 19 5 = 0 ∧ w.extractLsb' 11 3 = 0 ∧ w.extractLsb' 0 1 = 0 then .ok (.mstacc (w.extractLsb' 14 5) (w.extractLsb' 9 2) (w.extractLsb' 6 3) (w.extractLsb' 1 5)) else .error .operand
  | 0x74 => if w.extractLsb' 0 6 = 0 then .ok (.mcmd (w.extractLsb' 19 5) (w.extractLsb' 14 5) (w.extractLsb' 9 5) (w.extractLsb' 6 3)) else .error .operand
  | 0x75 => decodeMajor75 w
  | 0x76 => decodeMajor76 w
  | 0x77 => decodeMajor77 w
  | 0x78 => .ok (.hint (w.extractLsb' 24 3) (w.extractLsb' 0 24))
  | 0x79 => .ok (.hint (w.extractLsb' 24 3) (w.extractLsb' 0 24))
  | 0x7A => .ok (.hint (w.extractLsb' 24 3) (w.extractLsb' 0 24))
  | 0x7B => .ok (.hint (w.extractLsb' 24 3) (w.extractLsb' 0 24))
  | 0x7C => .ok (.hint (w.extractLsb' 24 3) (w.extractLsb' 0 24))
  | 0x7D => .ok (.hint (w.extractLsb' 24 3) (w.extractLsb' 0 24))
  | 0x7E => .ok (.hint (w.extractLsb' 24 3) (w.extractLsb' 0 24))
  | _ => .error .unassigned

/-- The check of R52 on the fields: detail 0x02 to 0x05. -/
def checked (r : Except Illegal Instr) : Except Illegal Instr :=
  match r with
  | .error e => .error e
  | .ok i =>
    match illegalOf i with
    | some e => .error e
    | none => .ok i

/-- Whether the halfword at `pc` begins a 32-bit instruction: bit 15 is 1 (R45). -/
def isLong (h : BitVec 16) : Bool := h.getLsbD 15

/-- The 32-bit word of two halfwords: the halfword at `pc` supplies bits [31:16] (R45). -/
def wordOf (h0 h1 : BitVec 16) : BitVec 32 := h0 ++ h1

/-- The instruction that the halfword at `pc` and, for a 32-bit instruction, the halfword at `pc` + 2 hold (R45,
R52). `h1` is not looked at for a 16-bit instruction. -/
def decode (h0 h1 : BitVec 16) : Except Illegal Instr :=
  if h0 = 0x0000 ∨ h0 = 0xFFFF then .error .halfword
  else if isLong h0 then checked (decode32 (wordOf h0 h1))
  else checked (decode16 h0)

/-- The length in bytes of the instruction whose first halfword is `h0` (R45). -/
def lengthOf (h0 : BitVec 16) : Nat := if isLong h0 then 4 else 2

/-- The words of an instruction: one halfword, one 32-bit word, or none for a step that has no encoding. -/
inductive Code where
  | short (w : BitVec 16)
  | long (w : BitVec 32)
  | none
  deriving DecidableEq, Repr

/-- The encoding of every instruction, field by field as R46 to R48, R58 and R59 lay it out. -/
def encode : Instr → Code
  | .add d a b w => .long (0x81#8 ++ d ++ a ++ b ++ w ++ 0x0#3 ++ 0x0#5)
  | .sub d a b w => .long (0x81#8 ++ d ++ a ++ b ++ w ++ 0x0#3 ++ 0x1#5)
  | .mul d a b w => .long (0x81#8 ++ d ++ a ++ b ++ w ++ 0x0#3 ++ 0x2#5)
  | .mulh d a b w => .long (0x81#8 ++ d ++ a ++ b ++ w ++ 0x0#3 ++ 0x3#5)
  | .mulhn d a b w => .long (0x81#8 ++ d ++ a ++ b ++ w ++ 0x0#3 ++ 0x4#5)
  | .div d a b w => .long (0x81#8 ++ d ++ a ++ b ++ w ++ 0x0#3 ++ 0x5#5)
  | .divn d a b w => .long (0x81#8 ++ d ++ a ++ b ++ w ++ 0x0#3 ++ 0x6#5)
  | .rem d a b w => .long (0x81#8 ++ d ++ a ++ b ++ w ++ 0x0#3 ++ 0x7#5)
  | .remn d a b w => .long (0x81#8 ++ d ++ a ++ b ++ w ++ 0x0#3 ++ 0x8#5)
  | .and d a b w => .long (0x81#8 ++ d ++ a ++ b ++ w ++ 0x0#3 ++ 0x9#5)
  | .or d a b w => .long (0x81#8 ++ d ++ a ++ b ++ w ++ 0x0#3 ++ 0xA#5)
  | .xor d a b w => .long (0x81#8 ++ d ++ a ++ b ++ w ++ 0x0#3 ++ 0xB#5)
  | .andn d a b w => .long (0x81#8 ++ d ++ a ++ b ++ w ++ 0x0#3 ++ 0xC#5)
  | .shl d a b w ibit hbit => .long (0x81#8 ++ d ++ a ++ b ++ w ++ ibit ++ hbit ++ 0x0#1 ++ 0xD#5)
  | .shr d a b w ibit hbit => .long (0x81#8 ++ d ++ a ++ b ++ w ++ ibit ++ hbit ++ 0x0#1 ++ 0xE#5)
  | .sar d a b w ibit hbit => .long (0x81#8 ++ d ++ a ++ b ++ w ++ ibit ++ hbit ++ 0x0#1 ++ 0xF#5)
  | .rol d a b w ibit hbit => .long (0x81#8 ++ d ++ a ++ b ++ w ++ ibit ++ hbit ++ 0x0#1 ++ 0x10#5)
  | .min d a b w => .long (0x81#8 ++ d ++ a ++ b ++ w ++ 0x0#3 ++ 0x11#5)
  | .max d a b w => .long (0x81#8 ++ d ++ a ++ b ++ w ++ 0x0#3 ++ 0x12#5)
  | .minn d a b w => .long (0x81#8 ++ d ++ a ++ b ++ w ++ 0x0#3 ++ 0x13#5)
  | .maxn d a b w => .long (0x81#8 ++ d ++ a ++ b ++ w ++ 0x0#3 ++ 0x14#5)
  | .slt d a b w => .long (0x81#8 ++ d ++ a ++ b ++ w ++ 0x0#3 ++ 0x15#5)
  | .sltn d a b w => .long (0x81#8 ++ d ++ a ++ b ++ w ++ 0x0#3 ++ 0x16#5)
  | .clz d a w => .long (0x81#8 ++ d ++ a ++ 0x0#5 ++ w ++ 0x0#3 ++ 0x17#5)
  | .ctz d a w => .long (0x81#8 ++ d ++ a ++ 0x0#5 ++ w ++ 0x0#3 ++ 0x18#5)
  | .popc d a w => .long (0x81#8 ++ d ++ a ++ 0x0#5 ++ w ++ 0x0#3 ++ 0x19#5)
  | .addShort a b => .short (0x1#6 ++ a ++ b)
  | .subShort a b => .short (0x2#6 ++ a ++ b)
  | .andShort a b => .short (0x3#6 ++ a ++ b)
  | .orShort a b => .short (0x4#6 ++ a ++ b)
  | .xorShort a b => .short (0x5#6 ++ a ++ b)
  | .shlShort a imm => .short (0x6#6 ++ a ++ imm)
  | .shrShort a imm => .short (0x7#6 ++ a ++ imm)
  | .sarShort a imm => .short (0x8#6 ++ a ++ imm)
  | .addiShort a imm => .short (0x9#6 ++ a ++ imm)
  | .liShort a imm => .short (0xA#6 ++ a ++ imm)
  | .minShort a b => .short (0xB#6 ++ a ++ b)
  | .maxShort a b => .short (0xC#6 ++ a ++ b)
  | .bzShort a off => .short (0xD#6 ++ a ++ off)
  | .bnzShort a off => .short (0xE#6 ++ a ++ off)
  | .ldShort a c j => .short (0xF#6 ++ a ++ c ++ j)
  | .stShort a c j => .short (0x10#6 ++ a ++ c ++ j)
  | .nop => .short (0x11#6 ++ 0x0#10)
  | .quitShort => .short (0x12#6 ++ 0x0#10)
  | .jrShort a => .short (0x13#6 ++ a ++ 0x0#5)
  | .jlrShort a => .short (0x13#6 ++ a ++ 0x1#5)
  | .faddShort a b => .short (0x14#6 ++ a ++ b)
  | .fmulShort a b => .short (0x15#6 ++ a ++ b)
  | .emovShort a b => .short (0x16#6 ++ a ++ b)
  | .hintShort h a b => .short (0x7#4 ++ h ++ a ++ b)
  | .hint h x => .long (0x1F#5 ++ h ++ x)
  | .sel d a b c => .long (0x82#8 ++ d ++ a ++ b ++ 0x0#4 ++ c)
  | .addi d a imm => .long (0x83#8 ++ d ++ a ++ imm)
  | .li d imm => .long (0x84#8 ++ d ++ imm)
  | .lih d imm => .long (0x85#8 ++ d ++ 0x0#1 ++ imm)
  | .eli d imm => .long (0x86#8 ++ d ++ imm)
  | .emovToE d a => .long (0x87#8 ++ d ++ a ++ 0x0#5 ++ 0x0#3 ++ 0x0#6)
  | .emovFromE d a => .long (0x87#8 ++ d ++ a ++ 0x0#5 ++ 0x1#3 ++ 0x0#6)
  | .b off => .long (0x88#8 ++ off)
  | .j off => .long (0x89#8 ++ off)
  | .jl off => .long (0x8A#8 ++ off)
  | .jr a => .long (0x8B#8 ++ 0x0#5 ++ a ++ 0x0#5 ++ 0x0#3 ++ 0x0#6)
  | .jlr a => .long (0x8B#8 ++ 0x0#5 ++ a ++ 0x0#5 ++ 0x1#3 ++ 0x0#6)
  | .beq d a imm => .long (0x8C#8 ++ d ++ a ++ imm)
  | .bne d a imm => .long (0x8D#8 ++ d ++ a ++ imm)
  | .blt d a imm => .long (0x8E#8 ++ d ++ a ++ imm)
  | .bge d a imm => .long (0x8F#8 ++ d ++ a ++ imm)
  | .bltn d a imm => .long (0x90#8 ++ d ++ a ++ imm)
  | .bgen d a imm => .long (0x91#8 ++ d ++ a ++ imm)
  | .bz d imm => .long (0x92#8 ++ d ++ 0x0#5 ++ imm)
  | .bnz d imm => .long (0x93#8 ++ d ++ 0x0#5 ++ imm)
  | .loop d imm => .long (0x94#8 ++ d ++ 0x0#5 ++ imm)
  | .csetb d a b => .long (0x98#8 ++ d ++ a ++ b ++ 0x0#3 ++ 0x0#6)
  | .cinc d a b => .long (0x98#8 ++ d ++ a ++ b ++ 0x1#3 ++ 0x0#6)
  | .cand d a b => .long (0x98#8 ++ d ++ a ++ b ++ 0x2#3 ++ 0x0#6)
  | .cbase d a => .long (0x98#8 ++ d ++ a ++ 0x0#5 ++ 0x3#3 ++ 0x0#6)
  | .clen d a => .long (0x98#8 ++ d ++ a ++ 0x0#5 ++ 0x4#3 ++ 0x0#6)
  | .cperm d a => .long (0x98#8 ++ d ++ a ++ 0x0#5 ++ 0x5#3 ++ 0x0#6)
  | .getc d num => .long (0x9B#8 ++ d ++ 0x0#10 ++ num)
  | .setc a num => .long (0x9C#8 ++ 0x0#5 ++ a ++ 0x0#5 ++ num)
  | .time d => .long (0x9D#8 ++ d ++ 0x0#10 ++ 0x0#3 ++ 0x0#6)
  | .twait a => .long (0x9D#8 ++ 0x0#5 ++ a ++ 0x0#5 ++ 0x1#3 ++ 0x0#6)
  | .trap imm => .long (0x9E#8 ++ 0x0#10 ++ imm)
  | .fresume a => .long (0x9F#8 ++ 0x0#5 ++ a ++ 0x0#5 ++ 0x0#3 ++ 0x0#6)
  | .fkill a => .long (0x9F#8 ++ 0x0#5 ++ a ++ 0x0#5 ++ 0x1#3 ++ 0x0#6)
  | .fretry a => .long (0x9F#8 ++ 0x0#5 ++ a ++ 0x0#5 ++ 0x2#3 ++ 0x0#6)
  | .fadd d a b ty => .long (0xA0#8 ++ d ++ a ++ b ++ ty ++ 0x0#4)
  | .fsub d a b ty => .long (0xA0#8 ++ d ++ a ++ b ++ ty ++ 0x1#4)
  | .fmul d a b ty => .long (0xA0#8 ++ d ++ a ++ b ++ ty ++ 0x2#4)
  | .fmin d a b ty => .long (0xA0#8 ++ d ++ a ++ b ++ ty ++ 0x3#4)
  | .fmax d a b ty => .long (0xA0#8 ++ d ++ a ++ b ++ ty ++ 0x4#4)
  | .fdiv d a b ty => .long (0xA0#8 ++ d ++ a ++ b ++ ty ++ 0x5#4)
  | .fabs d a ty => .long (0xA0#8 ++ d ++ a ++ 0x0#5 ++ ty ++ 0x6#4)
  | .fneg d a ty => .long (0xA0#8 ++ d ++ a ++ 0x0#5 ++ ty ++ 0x7#4)
  | .fsqrt d a ty => .long (0xA0#8 ++ d ++ a ++ 0x0#5 ++ ty ++ 0x8#4)
  | .fclass d a ty => .long (0xA0#8 ++ d ++ a ++ 0x0#5 ++ ty ++ 0x9#4)
  | .fcmp d a b ty => .long (0xA0#8 ++ d ++ a ++ b ++ ty ++ 0xA#4)
  | .ffma d a b ty => .long (0xA0#8 ++ d ++ a ++ b ++ ty ++ 0xB#4)
  | .frcp d a ty => .long (0xA1#8 ++ d ++ a ++ 0x0#5 ++ ty ++ 0x0#4)
  | .frsq d a ty => .long (0xA1#8 ++ d ++ a ++ 0x0#5 ++ ty ++ 0x1#4)
  | .fexp2 d a ty => .long (0xA1#8 ++ d ++ a ++ 0x0#5 ++ ty ++ 0x2#4)
  | .flog2 d a ty => .long (0xA1#8 ++ d ++ a ++ 0x0#5 ++ ty ++ 0x3#4)
  | .fsin d a ty => .long (0xA1#8 ++ d ++ a ++ 0x0#5 ++ ty ++ 0x4#4)
  | .fcos d a ty => .long (0xA1#8 ++ d ++ a ++ 0x0#5 ++ ty ++ 0x5#4)
  | .cvt d a stype ty => .long (0xA2#8 ++ d ++ a ++ stype ++ ty ++ 0x0#4)
  | .cvtf d a stype ty => .long (0xA2#8 ++ d ++ a ++ stype ++ ty ++ 0x1#4)
  | .frnd d a stype ty => .long (0xA2#8 ++ d ++ a ++ stype ++ ty ++ 0x2#4)
  | .tailget d a => .long (0xA3#8 ++ d ++ a ++ 0x0#5 ++ 0x0#3 ++ 0x0#6)
  | .tailset d a b => .long (0xA3#8 ++ d ++ a ++ b ++ 0x1#3 ++ 0x0#6)
  | .tailgetV d a k => .long (0xA3#8 ++ d ++ a ++ 0x0#5 ++ 0x2#3 ++ 0x0#3 ++ k)
  | .tailsetV d a b k => .long (0xA3#8 ++ d ++ a ++ b ++ 0x3#3 ++ 0x0#3 ++ k)
  | .faddV d a b ty k => .long (0xA8#8 ++ d ++ a ++ b ++ ty ++ 0x0#1 ++ k)
  | .fsubV d a b ty k => .long (0xA9#8 ++ d ++ a ++ b ++ ty ++ 0x0#1 ++ k)
  | .fmulV d a b ty k => .long (0xAA#8 ++ d ++ a ++ b ++ ty ++ 0x0#1 ++ k)
  | .fminV d a b ty k => .long (0xAB#8 ++ d ++ a ++ b ++ ty ++ 0x0#1 ++ k)
  | .fmaxV d a b ty k => .long (0xAC#8 ++ d ++ a ++ b ++ ty ++ 0x0#1 ++ k)
  | .fdivV d a b ty k => .long (0xAD#8 ++ d ++ a ++ b ++ ty ++ 0x0#1 ++ k)
  | .ffmaV d a b ty k => .long (0xAE#8 ++ d ++ a ++ b ++ ty ++ 0x0#1 ++ k)
  | .fcmpV pred kd a b ty k => .long (0xAF#8 ++ pred ++ kd ++ a ++ b ++ ty ++ 0x0#1 ++ k)
  | .fabsV d a ty k => .long (0xB0#8 ++ d ++ a ++ 0x0#5 ++ ty ++ 0x0#1 ++ k)
  | .fnegV d a ty k => .long (0xB0#8 ++ d ++ a ++ 0x1#5 ++ ty ++ 0x0#1 ++ k)
  | .fsqrtV d a ty k => .long (0xB0#8 ++ d ++ a ++ 0x2#5 ++ ty ++ 0x0#1 ++ k)
  | .fclassV d a ty k => .long (0xB0#8 ++ d ++ a ++ 0x3#5 ++ ty ++ 0x0#1 ++ k)
  | .frcpV d a ty k => .long (0xB0#8 ++ d ++ a ++ 0x4#5 ++ ty ++ 0x0#1 ++ k)
  | .frsqV d a ty k => .long (0xB0#8 ++ d ++ a ++ 0x5#5 ++ ty ++ 0x0#1 ++ k)
  | .fexp2V d a ty k => .long (0xB0#8 ++ d ++ a ++ 0x6#5 ++ ty ++ 0x0#1 ++ k)
  | .flog2V d a ty k => .long (0xB0#8 ++ d ++ a ++ 0x7#5 ++ ty ++ 0x0#1 ++ k)
  | .fsinV d a ty k => .long (0xB0#8 ++ d ++ a ++ 0x8#5 ++ ty ++ 0x0#1 ++ k)
  | .fcosV d a ty k => .long (0xB0#8 ++ d ++ a ++ 0x9#5 ++ ty ++ 0x0#1 ++ k)
  | .cvtV d a stype ty k => .long (0xB1#8 ++ d ++ a ++ stype ++ ty ++ 0x0#1 ++ k)
  | .cvtfV d a stype ty k => .long (0xB2#8 ++ d ++ a ++ stype ++ ty ++ 0x0#1 ++ k)
  | .frndV d a stype ty k => .long (0xB3#8 ++ d ++ a ++ stype ++ ty ++ 0x0#1 ++ k)
  | .vshuf d a b k => .long (0xB8#8 ++ d ++ a ++ b ++ 0x0#3 ++ 0x0#3 ++ k)
  | .vrot d a b k => .long (0xB8#8 ++ d ++ a ++ b ++ 0x1#3 ++ 0x0#3 ++ k)
  | .vbcast d a k => .long (0xB8#8 ++ d ++ a ++ 0x0#5 ++ 0x2#3 ++ 0x0#3 ++ k)
  | .vsel d a b k => .long (0xB8#8 ++ d ++ a ++ b ++ 0x3#3 ++ 0x0#3 ++ k)
  | .vidx d a k => .long (0xB8#8 ++ d ++ a ++ 0x0#5 ++ 0x4#3 ++ 0x0#3 ++ k)
  | .vredAdd d a ty k => .long (0xB9#8 ++ d ++ a ++ 0x0#5 ++ ty ++ 0x0#1 ++ k)
  | .vredMin d a ty k => .long (0xB9#8 ++ d ++ a ++ 0x1#5 ++ ty ++ 0x0#1 ++ k)
  | .vredMax d a ty k => .long (0xB9#8 ++ d ++ a ++ 0x2#5 ++ ty ++ 0x0#1 ++ k)
  | .vredAnd d a ty k => .long (0xB9#8 ++ d ++ a ++ 0x3#5 ++ ty ++ 0x0#1 ++ k)
  | .vredOr d a ty k => .long (0xB9#8 ++ d ++ a ++ 0x4#5 ++ ty ++ 0x0#1 ++ k)
  | .vredXor d a ty k => .long (0xB9#8 ++ d ++ a ++ 0x5#5 ++ ty ++ 0x0#1 ++ k)
  | .pack d a b ty k => .long (0xBA#8 ++ d ++ a ++ b ++ ty ++ 0x0#1 ++ k)
  | .vlut d a ty k => .long (0xBB#8 ++ d ++ a ++ 0x0#5 ++ ty ++ 0x0#1 ++ k)
  | .rndk d a b => .long (0xBC#8 ++ d ++ a ++ b ++ 0x0#3 ++ 0x0#6)
  | .rndkV d a b k => .long (0xBC#8 ++ d ++ a ++ b ++ 0x1#3 ++ 0x0#3 ++ k)
  | .vloop n a => .long (0xBD#8 ++ n ++ a ++ 0x0#14)
  | .gang size => .long (0xBE#8 ++ 0x0#15 ++ 0x0#3 ++ 0x0#3 ++ size)
  | .split => .long (0xBE#8 ++ 0x0#15 ++ 0x1#3 ++ 0x0#6)
  | .ld d a c ord ty scope => .long (0xC0#8 ++ d ++ a ++ c ++ ord ++ ty ++ scope ++ 0x0#1)
  | .ldImm d c ty imm => .long (0xC1#8 ++ d ++ c ++ ty ++ imm)
  | .st d a c ord ty scope => .long (0xC2#8 ++ d ++ a ++ c ++ ord ++ ty ++ scope ++ 0x0#1)
  | .stImm d c ty imm => .long (0xC3#8 ++ d ++ c ++ ty ++ imm)
  | .fst d a c ord ty scope => .long (0xC4#8 ++ d ++ a ++ c ++ ord ++ ty ++ scope ++ 0x0#1)
  | .fstImm d c ty imm => .long (0xC5#8 ++ d ++ c ++ ty ++ imm)
  | .vld d a c k ty => .long (0xC6#8 ++ d ++ a ++ c ++ k ++ ty ++ 0x0#3)
  | .vldImm d c ty imm => .long (0xC7#8 ++ d ++ c ++ ty ++ imm)
  | .vst d a c k ty => .long (0xC8#8 ++ d ++ a ++ c ++ k ++ ty ++ 0x0#3)
  | .vstImm d c ty imm => .long (0xC9#8 ++ d ++ c ++ ty ++ imm)
  | .vlds d a c k ty e => .long (0xCA#8 ++ d ++ a ++ c ++ k ++ ty ++ e)
  | .vgath d a c k ty => .long (0xCB#8 ++ d ++ a ++ c ++ k ++ ty ++ 0x0#3)
  | .vscat d a c k ty => .long (0xCC#8 ++ d ++ a ++ c ++ k ++ ty ++ 0x0#3)
  | .ldc d a c ord scope => .long (0xCD#8 ++ d ++ a ++ c ++ ord ++ 0x0#5 ++ scope ++ 0x0#1)
  | .stc d a c ord scope => .long (0xCE#8 ++ d ++ a ++ c ++ ord ++ 0x0#5 ++ scope ++ 0x0#1)
  | .spill d a c cls => .long (0xCF#8 ++ d ++ a ++ c ++ 0x0#2 ++ 0x0#5 ++ cls ++ 0x0#1)
  | .fill d a c cls => .long (0xCF#8 ++ d ++ a ++ c ++ 0x1#2 ++ 0x0#5 ++ cls ++ 0x0#1)
  | .aadd d a b c ord scope w => .long (0xD0#8 ++ d ++ a ++ b ++ c ++ ord ++ scope ++ w)
  | .aand d a b c ord scope w => .long (0xD1#8 ++ d ++ a ++ b ++ c ++ ord ++ scope ++ w)
  | .aor d a b c ord scope w => .long (0xD2#8 ++ d ++ a ++ b ++ c ++ ord ++ scope ++ w)
  | .axor d a b c ord scope w => .long (0xD3#8 ++ d ++ a ++ b ++ c ++ ord ++ scope ++ w)
  | .aswap d a b c ord scope w => .long (0xD4#8 ++ d ++ a ++ b ++ c ++ ord ++ scope ++ w)
  | .acas d a b c ord scope w => .long (0xD5#8 ++ d ++ a ++ b ++ c ++ ord ++ scope ++ w)
  | .aminSigned d a b c ord scope w => .long (0xD6#8 ++ d ++ a ++ b ++ c ++ ord ++ scope ++ w)
  | .aminUnsigned d a b c ord scope w => .long (0xD7#8 ++ d ++ a ++ b ++ c ++ ord ++ scope ++ w)
  | .amaxSigned d a b c ord scope w => .long (0xD8#8 ++ d ++ a ++ b ++ c ++ ord ++ scope ++ w)
  | .amaxUnsigned d a b c ord scope w => .long (0xD9#8 ++ d ++ a ++ b ++ c ++ ord ++ scope ++ w)
  | .afadd d a b c ord scope w => .long (0xDA#8 ++ d ++ a ++ b ++ c ++ ord ++ scope ++ w)
  | .mxacc d a b c ty src => .long (0xE0#8 ++ d ++ a ++ b ++ c ++ ty ++ src)
  | .mxld d a b c ty => .long (0xE1#8 ++ d ++ a ++ b ++ c ++ ty ++ 0x0#1)
  | .mxst d a b c ty => .long (0xE2#8 ++ d ++ a ++ b ++ c ++ ty ++ 0x0#1)
  | .mxres d a b c ty => .long (0xE3#8 ++ d ++ a ++ b ++ c ++ ty ++ 0x0#1)
  | .mxnorm a c ty => .long (0xE4#8 ++ 0x0#5 ++ a ++ 0x0#5 ++ c ++ ty ++ 0x0#1)
  | .fence scope => .long (0xE8#8 ++ 0x0#15 ++ 0x0#3 ++ scope ++ 0x0#3)
  | .fenceAcq scope => .long (0xE8#8 ++ 0x0#15 ++ 0x1#3 ++ scope ++ 0x0#3)
  | .fenceRel scope => .long (0xE8#8 ++ 0x0#15 ++ 0x2#3 ++ scope ++ 0x0#3)
  | .waitne d a b c ord scope w => .long (0xE9#8 ++ d ++ a ++ b ++ c ++ ord ++ scope ++ w)
  | .bar scope => .long (0xEA#8 ++ 0x0#15 ++ 0x0#3 ++ scope ++ 0x0#3)
  | .barw d scope => .long (0xEA#8 ++ d ++ 0x0#10 ++ 0x1#3 ++ scope ++ 0x0#3)
  | .barq d scope => .long (0xEA#8 ++ d ++ 0x0#10 ++ 0x2#3 ++ scope ++ 0x0#3)
  | .qpoll d q => .long (0xEB#8 ++ d ++ 0x0#10 ++ 0x0#3 ++ 0x0#3 ++ q)
  | .qsend a b q => .long (0xEB#8 ++ 0x0#5 ++ a ++ b ++ 0x1#3 ++ 0x0#3 ++ q)
  | .qsendd a b q => .long (0xEB#8 ++ 0x0#5 ++ a ++ b ++ 0x2#3 ++ 0x0#3 ++ q)
  | .spawn d a b e q => .long (0xEC#8 ++ d ++ a ++ b ++ e ++ 0x0#3 ++ q)
  | .callat d a b stage => .long (0xED#8 ++ d ++ a ++ b ++ 0x0#5 ++ stage)
  | .quit => .long (0xEE#8 ++ 0x0#24)
  | .slott a => .long (0xEF#8 ++ 0x0#5 ++ a ++ 0x0#14)
  | .mlda a b c ty => .long (0xF0#8 ++ 0x0#5 ++ a ++ b ++ c ++ ty ++ 0x0#1)
  | .mldb a b c ty => .long (0xF0#8 ++ 0x1#5 ++ a ++ b ++ c ++ ty ++ 0x0#1)
  | .mtbl a c ty => .long (0xF0#8 ++ 0x2#5 ++ a ++ 0x0#5 ++ c ++ ty ++ 0x0#1)
  | .mma d a acc c ty => .long (0xF1#8 ++ d ++ a ++ 0x0#3 ++ acc ++ c ++ ty ++ 0x0#1)
  | .mpass => .long (0xF2#8 ++ 0x0#15 ++ 0x0#3 ++ 0x0#6)
  | .mwait a => .long (0xF2#8 ++ 0x0#5 ++ a ++ 0x0#5 ++ 0x1#3 ++ 0x0#6)
  | .mpoll d a => .long (0xF2#8 ++ d ++ a ++ 0x0#5 ++ 0x2#3 ++ 0x0#6)
  | .mzero acc => .long (0xF2#8 ++ 0x0#15 ++ 0x3#3 ++ 0x0#4 ++ acc)
  | .mstacc a acc c ty => .long (0xF3#8 ++ 0x0#5 ++ a ++ 0x0#3 ++ acc ++ c ++ ty ++ 0x0#1)
  | .mcmd d a b c => .long (0xF4#8 ++ d ++ a ++ b ++ c ++ 0x0#6)
  | .cpy d scope => .long (0xF5#8 ++ d ++ 0x0#10 ++ 0x0#3 ++ scope ++ 0x0#3)
  | .cpyc d a scope => .long (0xF5#8 ++ d ++ a ++ 0x0#5 ++ 0x1#3 ++ scope ++ 0x0#3)
  | .cpyw a => .long (0xF5#8 ++ 0x0#5 ++ a ++ 0x0#5 ++ 0x2#3 ++ 0x0#6)
  | .cpyq d a => .long (0xF5#8 ++ d ++ a ++ 0x0#5 ++ 0x3#3 ++ 0x0#6)
  | .gcon a grp => .long (0xF6#8 ++ 0x0#5 ++ a ++ 0x0#5 ++ 0x0#3 ++ grp)
  | .gres d grp => .long (0xF6#8 ++ d ++ 0x0#10 ++ 0x1#3 ++ grp)
  | .barmax d a grp => .long (0xF6#8 ++ d ++ a ++ 0x0#5 ++ 0x2#3 ++ grp)
  | .fork d a b => .long (0xF7#8 ++ d ++ a ++ b ++ 0x0#3 ++ 0x0#6)
  | .choose => .long (0xF7#8 ++ 0x0#15 ++ 0x1#3 ++ 0x0#6)
  | .abandon => .long (0xF7#8 ++ 0x0#15 ++ 0x2#3 ++ 0x0#6)
  | .dopen d a scope => .long (0xF7#8 ++ d ++ a ++ 0x0#5 ++ 0x3#3 ++ scope ++ 0x0#3)
  | .dclose => .long (0xF7#8 ++ 0x0#15 ++ 0x4#3 ++ 0x0#6)
  | .vstat d => .long (0xF7#8 ++ d ++ 0x0#10 ++ 0x5#3 ++ 0x0#6)
  | .barrierSignal _ _ _ => .none
  | .losingRivalKill _ _ => .none
  | .stageFiring _ _ => .none
  | .spawnRequest _ => .none
  | .launchMessage _ _ _ _ _ _ => .none
  | .heldLaunchStart _ => .none
  | .callatDeposit _ => .none
  | .poolReturn _ _ => .none
  | .queueArrival _ _ => .none
  | .returnArrival _ => .none
  | .parkedDelivery _ _ => .none
  | .scribeHoldRelease _ _ => .none
  | .reservationRequest _ _ => .none
  | .reservationGrant _ _ => .none
  | .chainPushAccept _ _ => .none
  | .portWake _ _ => .none
  | .memoryReply _ _ => .none
  | .sequencerEntry _ _ => .none
  | .faultRecord _ _ => .none
  | .faultPegEnqueue _ => .none
  | .serviceOsPegOnward _ _ _ _ => .none
  | .serviceOsResume _ _ => .none
  | .serviceOsRetry _ _ => .none
  | .serviceOsKill _ _ => .none
  | .waitneRetry _ _ => .none
  | .waitneCompare _ _ => .none
  | .twaitWake _ _ => .none
  | .mmaJobStart _ => .none
  | .mmaJobComplete _ _ => .none
  | .mpassPanelArrival _ => .none
  | .mcmdCommand _ => .none
  | .copyStart _ _ => .none
  | .copyUnitRead _ _ => .none
  | .copyUnitStage _ _ _ => .none
  | .copyUnitAck _ _ _ => .none
  | .copyUnitRelease _ _ => .none
  | .copyEnd _ _ => .none
  | .homeRead _ _ => .none
  | .homeWrite _ _ => .none
  | .homeRmw _ _ => .none
  | .blockAction _ _ => .none
  | .proxyRead _ _ => .none
  | .plbFill _ _ _ _ => .none
  | .translationWalk _ => .none
  | .l2Fill _ => .none
  | .codedDelta _ _ _ => .none
  | .codedDeltaAck _ _ => .none
  | .floorRaise _ _ => .none
  | .floorAck _ _ => .none
  | .commitRecord _ => .none
  | .outboxRelease _ _ => .none
  | .l2CleanSweep _ => .none
  | .pageRetire _ _ _ => .none
  | .rightsNarrow _ _ _ _ _ => .none
  | .codedSet _ _ => .none
  | .codedClear _ => .none
  | .rebuildLine _ _ => .none
  | .collectiveItem _ _ _ => .none
  | .collectiveResult _ _ => .none
  | .trussRewrite _ _ _ _ => .none
  | .memberReadd _ _ _ => .none
  | .remap _ _ _ _ => .none
  | .drainMarker _ _ _ _ => .none
  | .ucieModuleService _ _ _ => .none
  | .ucieRetrainDone _ _ _ _ => .none
  | .podFrame _ _ _ _ => .none
  | .podPortRetrain _ _ _ => .none
  | .podRouteWrite _ _ _ _ => .none
  | .ptcSyncExchange _ _ => .none
  | .ptcSyncLoss _ => .none
  | .sqDoorbell _ _ _ _ => .none
  | .cqDoorbell _ _ _ => .none
  | .qctlEnable _ _ _ => .none
  | .cmdBindImage _ _ => .none
  | .cmdUnbind _ => .none
  | .cmdLaunchStage _ => .none
  | .cmdLaunchEntry _ => .none
  | .cmdReadTenantState _ => .none
  | .completionPost _ _ => .none
  | .deviceEvent _ _ _ => .none
  | .hostFunctionReset _ => .none
  | .hostReenumerate _ => .none
  | .hostMarkPresent _ => .none
  | .hostCompletionTimeout _ _ => .none
  | .cxlMemAccess _ _ _ _ => .none
  | .registerWrite _ _ _ => .none
  | .stopTimeWrite _ _ _ => .none
  | .coreStop _ => .none
  | .cutCountSum _ => .none
  | .contextSave _ => .none
  | .contextRestore _ _ => .none
  | .coreResume _ => .none
  | .registerParityError _ _ => .none
  | .pipeResidueError _ _ => .none
  | .localMemoryDoubleBitError _ _ _ => .none
  | .queueEntryError _ _ _ => .none
  | .flitParityError _ => .none
  | .stopRouterFailure _ _ _ => .none
  | .l2LineError _ => .none
  | .hbmLineError _ => .none
  | .heartbeatLoss _ _ => .none
  | .stackLoss _ _ _ => .none
  | .packageLoss _ _ => .none
  | .serviceProcessorLoss _ _ => .none
  | .diagnosisExchange _ _ _ => .none
  | .councilRequest _ _ _ _ => .none
  | .councilVote _ _ => .none
  | .stopSparing _ _ _ _ => .none
  | .dieSparing _ _ => .none
  | .packageSparing _ _ => .none
  | .serviceQueueNotify _ _ => .none
  | .firmwareHealthConfirm _ => .none
  | .firmwareWatchdog _ => .none
  | .powerGood _ _ _ _ => .none
  | .powerThrottle _ _ => .none
  | .copyInjectArm _ _ _ _ => .none
  | .registerInjectArm _ _ _ _ => .none
  | .firmwareUpdate _ _ => .none
  | .copyPageFaultResolve _ _ _ _ => .none

/-- The halfwords of an instruction in fetch order (R45). -/
def Code.halfwords : Code → List (BitVec 16)
  | .short w => [w]
  | .long w => [w.extractLsb' 16 16, w.extractLsb' 0 16]
  | .none => []

/-- The instruction that a code's halfwords decode to. -/
def Code.decode : Code → Except Illegal Instr
  | .short w => Sys2Proof.decode w 0
  | .long w => Sys2Proof.decode (w.extractLsb' 16 16) (w.extractLsb' 0 16)
  | .none => .error .unassigned

/-- The halfwords of an opcode-table word of `nbits` bits: a row of up to 16 bits is one halfword, a wider row is the
32-bit word W of R45, whose bits [31:16] stand at `pc`. -/
def tableHalfwords (nbits w : Nat) : List (BitVec 16) :=
  if nbits ≤ 16 then [BitVec.ofNat 16 w, 0]
  else [BitVec.ofNat 16 (w / 2 ^ 16), BitVec.ofNat 16 w]

/-- The instruction the decoder reads from an opcode-table word. -/
def decodeTableWord (nbits w : Nat) : Option Instr :=
  match tableHalfwords nbits w with
  | [h0, h1] =>
    match decode h0 h1 with
    | .ok i => some i
    | .error _ => none
  | _ => none

end Sys2Proof
end

