-- ==== Sys2Proof/Config.lean ====
section
/-!
DEFINITION. What the spec leaves to an implementation: the free values and the uninterpreted functions.
Each is an opaque constant with no body, so no proof can lean on a value of it.
-/

namespace Sys2Proof.Config

/-- Nanoseconds that pass at a step beyond what the step itself needs: timing is not part of the model (R7, R8).
Free value: entry 3. -/
opaque elapse : Nat → Nat

/-- Where a special function's result lies within its bound of one ulp, in units of 2^-20 of an ulp (R138): a function
of the function's number, the type code, the operand's bits and its tail, because equal operands give equal results.
Values of magnitude 2^20 and above are clamped to 2^20 - 1. Free value: entry 20. -/
opaque specialSlack : Nat → Nat → BitVec 32 → BitVec 2 → Int

/-- Whether a proxy answers a plain read from a valid read copy or sends it home (R224, R258). Free value: entry 21. -/
opaque proxyAnswers : Nat → Bool

/-- Which of the 16 UCIe modules of a base die carries the messages of a triple: source, destination and channel (R338).
Free value: entry 75. -/
opaque moduleOf : Nat → Nat → Nat → Nat

/-- Whether a message under way, by step and place, has a flit inside a stop router on its route when that router fails
(R299). Free value: entry 76. -/
opaque insideRouter : Nat → Nat → Bool

/-- How the host answers a HOST read: 0 with data, 1 not yet, 2 with an unsupported request, a completer abort or a
poisoned completion (R350). Free value: entry 25. -/
opaque hostReply : Nat → Fin 3

/-- SHA3-256 of a string of bytes, a function the spec names and does not give (R369, R371, R372). Entry 12. -/
opaque sha3 : List Byte → BitVec 256

/-- The image that a package's slot A holds when it leaves the maker, and the key hash in its fuses (R371, R372). Free
values: entry 12. -/
opaque factoryImage : List Byte
/-- The key hash in the fuses of a package (R372). Free value: entry 12. -/
opaque fuseKey : BitVec 256

/-- The public key of a package's device identity, an ML-DSA-44 key pair derived inside its control die, and the signature
of a message under that identity (R372). Free values: entry 12. -/
opaque deviceKey : Nat → List Byte
/-- The signature of a message by a package's device identity (R372). Free value: entry 12. -/
opaque deviceSign : Nat → List Byte → List Byte

/-- The areas of a package's HBM that firmware carves out for scribe logs, the pending-launch pool, overflow and spill areas
and context images: first chunk of 64 KiB and number of chunks (R264). Free value: entry 83. -/
opaque reservedAreas : List (Nat × Nat)

/-- The chunk of reserved HBM that the service OS's check map gives for a stripe set, a stripe offset and a check, Q's or
P's (R316). Free value: entry 83. -/
opaque checkSlot : List Nat → Nat → Bool → Nat

/-- The service queue that the service OS assigns at raising to a kind of entry: error reports, fault pegs, council messages
and host commands (R368). Free value: entry 82. -/
opaque serviceQueue : Fin 4 → Nat

/-- Whether an ML-DSA-44 signature verifies over a digest under a public key, a function the spec names and does not
give (R371, R372). Entry 12. -/
opaque mlDsaVerify : BitVec 256 → List Byte → List Byte → Bool

/-- Whether a destination byte of a copy whose ranges overlap receives the old value of its source byte (R203).
Free value: entry 23. -/
opaque overlapOld : Nat → Bool

/-- The bits a remote `MSTACC` stores for an element when its `fcr` image holds the invalid mode 7 (R35, R199), by step
and element. Free value: entry 24. -/
opaque invalidFinal : Nat → Nat → BitVec 64

/-- Whether a corrupted flit spoils a contribution on its way to the stop, by step and place among the collective messages
(R210). Free value: entry 93. -/
opaque flitSpoils : Nat → Nat → Bool

/-- The status of a host launch to a package that has no valid route or is declared lost (R341, R349, R357), by step. Free
value: entry 92. -/
opaque unroutedLaunch : Nat → BitVec 8

/-- The bytes with which the service OS rewrites a poisoned line of an uncoded page (R266, R293), by step and byte. Free
value: entry 26. -/
opaque rewritten : Nat → Nat → Byte

end Sys2Proof.Config
end

