-- ==== Sys2Proof/Machine/State.lean ====
section
/-!
DEFINITION. The state of the machine: every piece of state the spec gives a pod of DN-9440 packages, as plain data,
the reasons a step can stop, and the state right after reset.

Cores and packages that nothing has touched are not listed: a core not listed is a core at core reset, a package not
listed has been raised and has nothing bound (R373, R400).
-/

namespace Sys2Proof.Machine

/-- The reasons a step stops with a fault. Every fault the spec names is taken as the spec describes it, so the
machine itself faults only where the model's own agenda is misused. -/
inductive Fault where
  /-- An encoded instruction stands on the agenda: only threads issue instructions, and the agenda holds steps of other
  agents. Raised by `step` alone. Safe. -/
  | notAnEvent
  deriving DecidableEq, Repr

/-- The reasons a step is refused. -/
inductive Refusal where
  /-- The instruction has no meaning yet: raised by its arm of `exec` alone. Safe. -/
  | notModelled (mnemonic : String)
  deriving DecidableEq, Repr

/-! ### Memory -/

/-- Bytes of storage in canonical form: addresses strictly rising, no byte listed that equals the zero an unlisted
address reads as (R400). -/
abbrev Memory := List Host.Cell

/-- What an unlisted address reads as: storage that no agent has written reads zero (R400). -/
def Memory.unlisted : Byte := 0

/-- Whether every key of a list lies above `a` and the list rises strictly. -/
def risingFrom {α : Type} (a : Nat) : List (Nat × α) → Bool
  | [] => true
  | c :: rest => decide (a < c.1) && risingFrom c.1 rest

/-- Whether a list of keyed entries rises strictly. -/
def rising {α : Type} : List (Nat × α) → Bool
  | [] => true
  | c :: rest => risingFrom c.1 rest

/-- The canonical form of a memory. -/
def Memory.wf (m : Memory) : Bool := rising m && m.all (fun c => c.2 != Memory.unlisted)

/-- Capability tags of 16-byte granules: the granule numbers whose tag is 1, in rising order (R163). -/
abbrev Tags := List Nat

/-! ### Threads -/

/-- A register element with its tail `rnd : stk` (R27). -/
structure Elem where
  val  : Word
  tail : BitVec 2
  deriving DecidableEq, Repr

/-- Zero with tail 00. -/
def Elem.zero : Elem := ⟨0, 0⟩

/-- The null capability (R25). -/
def nullCap : Cap := ⟨false, 0⟩

/-- The registers of a thread (R19). -/
structure Regs where
  /-- `s0` to `s31`; `s0` and the ports are handled by the register operations (R20, R31). -/
  s   : Vector Elem 32
  /-- `v0` to `v15`, eight lanes each (R22). -/
  v   : Vector (Vector Elem 8) 16
  /-- `k0` to `k7` (R23). -/
  k   : Vector (BitVec 8) 8
  /-- `e0` to `e7` (R24). -/
  e   : Vector Word 8
  /-- `c0` to `c7` (R25). -/
  c   : Vector Cap 8
  /-- The program counter (R26). -/
  pc  : Word
  /-- Final rounding control (R35). -/
  fcr : Word
  /-- Status flags (R36). -/
  tst : Word
  /-- Words of the `qrx` buffer that are still to be read (R31). -/
  qrx : List Word
  /-- Words of the `qup` buffer that are still to be read (R31). -/
  qup : List Word
  /-- Words written to `qdn` that are not yet pushed (R31). -/
  qdn : List Word
  deriving DecidableEq, Repr

/-- The registers at the start of a thread, before pegs and capabilities are loaded (R41). -/
def Regs.initial : Regs where
  s := Vector.replicate 32 Elem.zero
  v := Vector.replicate 16 (Vector.replicate 8 Elem.zero)
  k := Vector.replicate 8 0
  e := Vector.replicate 8 0
  c := Vector.replicate 8 nullCap
  pc := 0
  fcr := 0
  tst := 0
  qrx := []
  qup := []
  qdn := []

/-- The states of a thread slot (R17). -/
inductive SlotState where
  | free | ready | memory | port | sleep | follow | parked
  deriving DecidableEq, Repr

/-- A queue port (R31). -/
inductive Port where
  | qrx | qup | qdn
  deriving DecidableEq, Repr

/-- What a MEMORY, PORT or SLEEP slot waits for (R17). -/
inductive Wait where
  | none
  /-- The reply of the outstanding operation (R159). -/
  | request
  /-- A port that can proceed (R31). -/
  | port (p : Port)
  /-- A package time (R123). -/
  | deadline (t : Nat)
  /-- A barrier level whose phase count differs from `p` (R179). -/
  | phase (level : Nat) (p : BitVec 16)
  /-- An armed monitor (R177). -/
  | monitor
  /-- A refused `WAITNE` that repeats its compare (R177). -/
  | monitorRetry
  /-- A matrix job (R197). -/
  | job (id : BitVec 16)
  /-- A copy (R206). -/
  | copy (id : BitVec 16)
  /-- The result of a collective group's round (R209). -/
  | result (g : Nat) (round : Nat)
  /-- The decision of a world (R217). -/
  | world
  /-- The commit point of a commit into the base view (R262). -/
  | commit
  /-- A status from another package (R185, R186, R199). -/
  | status
  /-- An EMPTY latch buffer of the next core (R196). -/
  | panel
  /-- A host's read completion (R350). -/
  | host
  deriving DecidableEq, Repr

/-- A vector panel buffer of the latch (R43, R192, R193). -/
structure Panel where
  type   : BitVec 5
  bytes  : List Byte
  scales : List Byte
  split  : Bool
  deriving DecidableEq, Repr

/-- Matrix state that a domain with `mx` = 1 preserves (R214). -/
structure MatrixSave where
  acc : Vector (Vector Elem 256) 4
  tbl : Vector (BitVec 16) 16
  deriving DecidableEq, Repr

/-- A command of a matrix unit that `MCMD` carries (R199). -/
structure MatrixCommand where
  cap  : Cap
  op   : BitVec 4
  type : BitVec 5
  acc  : BitVec 2
  off1 : Word
  off2 : Word
  /-- The `fcr` image a remote `MSTACC` uses. -/
  fcr  : Word
  deriving DecidableEq, Repr

/-- A copy descriptor as `CPY` reads it from `e0` to `e7` and the capability registers (R201). -/
structure CopyDesc where
  utag   : BitVec 16
  cmp    : Bool
  cont   : Bool
  crc    : Bool
  src    : Cap
  dst    : Cap
  mbox   : Cap
  soff   : DWord
  doff   : DWord
  len    : Nat
  moff   : DWord
  expect : Word
  scope  : BitVec 3
  deriving DecidableEq, Repr

/-- An entry of a domain's outbox, in issue order (R215). -/
inductive OutItem where
  /-- A `QSEND` or `QSENDD` with its operands captured at issue (R160). -/
  | send (dst : Nat) (q : Nat) (entries : List Entry)
  /-- A `CPY` or, when `chained`, a `CPYC` that names the thread's previous copy (R207). -/
  | copy (desc : CopyDesc) (chained : Bool)
  /-- An `MCMD` (R200). -/
  | command (dst : Nat) (cmd : MatrixCommand)
  deriving DecidableEq, Repr

/-- A local-memory range that a domain preserves: offset, bytes and granule tags (R214). -/
structure SavedRange where
  off   : Nat
  bytes : List Byte
  tags  : Tags
  deriving DecidableEq, Repr

/-- An open view of a thread (R213). -/
structure View where
  /-- The view's number in its package (R259). -/
  num    : Nat
  /-- A rival's view; a domain's otherwise. -/
  rival  : Bool
  /-- The scope of a domain (R214). -/
  scope  : BitVec 3
  /-- The `d` field of the `DOPEN` or `FORK` that opened it. -/
  dst    : BitVec 5
  /-- The instruction after the opening one. -/
  resume : Word
  /-- The retry count (R215). -/
  retry  : BitVec 8
  /-- The preserved thread image (R214). -/
  saved  : Regs
  /-- The preserved ranges (R214). -/
  ranges : List SavedRange
  /-- The preserved matrix state (R214). -/
  matrix : Option MatrixSave
  /-- The outbox, oldest first (R215). -/
  outbox : List OutItem
  /-- Offset and length of its keep-area or preserve-area space (R253). -/
  keep   : Option (Nat × Nat)
  /-- The preserved inputs can no longer be read (R354, R356). -/
  spoiled : Bool
  /-- The unit whose error the domain was last retried for (R359). -/
  cause  : Option UnitName
  /-- The world and the rival index, for a rival (R217). -/
  world  : Nat
  index  : Nat
  /-- The rival window: base, length, contents and tags (R217). -/
  winBase : Nat
  winLen  : Nat
  win     : Memory
  winTags : Tags
  deriving DecidableEq, Repr

/-- The capture of a `VLOOP` body in progress (R149). -/
structure LoopCapture where
  left    : Nat
  count   : Nat
  strides : List (BitVec 16)
  body    : List Instr
  deriving DecidableEq, Repr

/-- A fault peg (R292). -/
structure FaultPeg where
  addr   : DWord
  pc     : Word
  cls    : BitVec 8
  detail : BitVec 8
  gang   : Bool
  svc    : BitVec 2
  gen    : BitVec 8
  slot   : Fin 8
  deriving DecidableEq, Repr

/-- Where an undelivered fault peg is (R293, R294). -/
inductive PegPlace where
  /-- Waiting in the slot for space in queue 7. -/
  | slot (p : FaultPeg)
  /-- With the service OS. -/
  | service (p : FaultPeg)
  deriving DecidableEq, Repr

/-- A fault whose records wait for earlier sequencer entries (R148, R291). -/
structure PendingFault where
  cls    : BitVec 8
  detail : BitVec 8
  addr   : DWord
  scope  : BitVec 3
  gang   : Bool
  deriving DecidableEq, Repr

/-- The reply of an outstanding operation: the registers after it, and the responder's logical die or memory position and
its incarnation (R159, R336). -/
structure Reply where
  regs  : Regs
  pkg   : Nat
  base  : Bool
  index : Nat
  /-- The slice of a base die that answers (R324). -/
  slice : Nat
  inc   : BitVec 8
  deriving DecidableEq, Repr

/-- A thread slot (R17, R19). -/
structure Slot where
  state   : SlotState
  /-- The slot generation (R18). -/
  gen     : BitVec 8
  /-- The thread's tenant (R248). -/
  tenant  : Nat
  /-- The core the thread acts as a thread of: its own, or the forking core of a rival (R217). -/
  home    : Nat
  /-- The image of its tenant's code region that it fetches from (R55). -/
  code    : Nat
  /-- Fields of `tslot` (R37). -/
  stage   : BitVec 4
  prio    : BitVec 2
  bound   : BitVec 3
  hcl     : Bool
  lch     : Bool
  regs    : Regs
  /-- `fault.pc`, `fault.cause` and `fault.addr` (R38). -/
  faultPc    : Word
  faultCause : Word
  faultAddr  : DWord
  wait    : Wait
  /-- The outstanding or sleeping instruction (R159). -/
  held    : Option Instr
  /-- The stamp of the time at which its outstanding request left (R255, R258). -/
  asked   : Option Word
  /-- The lost line for whose rebuild its access is held (R321). -/
  wants   : Option Nat
  /-- A reset of the host function has overtaken its HOST read, whose completion does not arrive (R352). -/
  gone    : Bool
  reply   : Option Reply
  pendFault : Option PendingFault
  peg     : Option PegPlace
  /-- Unconsumed entries of the reservation its firing transferred (R278). -/
  resv    : Nat
  /-- Open views, innermost first (R213). -/
  views   : List View
  /-- Size of the gang it belongs to, 0 outside a gang (R152). -/
  gang    : Nat
  /-- Size of the `GANG` it has issued while partners are missing (R153). -/
  gangWait : Nat
  /-- Where the instruction that its gang is issuing stands, while some member has not completed it (R154). -/
  gangPc  : Option Word
  /-- It has completed that instruction, a control transfer, whose target may be the instruction itself (R154). -/
  gangDone : Bool
  /-- The barrel cycle of its core in which it last issued (R288). -/
  issued  : Option Nat
  /-- Identifier of its previous copy (R202). -/
  lastCopy : Option (BitVec 16)
  loop    : Option LoopCapture
  /-- Entries to replay after a rollback: queue and entry, oldest first (R363). -/
  replay  : List (Nat × Entry)
  deriving DecidableEq, Repr

/-- A FREE slot after core reset on the core named `home` (R18, R37, R38). -/
def Slot.initial : Slot where
  state := .free
  gen := 0
  tenant := 0
  home := 0
  code := 0
  stage := 0
  prio := 0
  bound := 0
  hcl := false
  lch := false
  regs := Regs.initial
  faultPc := 0
  faultCause := 0
  faultAddr := 0
  wait := .none
  held := none
  asked := none
  wants := none
  gone := false
  reply := none
  pendFault := none
  peg := none
  resv := 0
  views := []
  gang := 0
  gangWait := 0
  gangPc := none
  gangDone := false
  issued := none
  lastCopy := none
  loop := none
  replay := []

/-! ### Cores -/

/-- An entry of a hardware queue (R30), its scribe-log number where one was written (R362), and whether it is the
first entry of a `QSENDD` pair. -/
structure QEntry where
  words : Entry
  seq   : Option Nat
  deriving DecidableEq, Repr

/-- A hardware queue (R30, R277). -/
structure Queue where
  entries  : List QEntry
  reserved : Nat
  deriving DecidableEq, Repr

/-- A stage table entry with its run-time state (R273, R278, R282, R285). -/
structure Stage where
  /-- The 128 bits of R273; bit 31 is `vld`. -/
  bits     : BitVec 128
  tenant   : Nat
  live     : Nat
  /-- Entries of the standing reservation it holds (R278). -/
  standing : Nat
  /-- A reservation granted at another core is on its way back (R278). -/
  granted  : Bool
  /-- Entries of its input queue reserved for pooled pegs (R285). -/
  poolResv : Nat
  /-- The image of its tenant's code region that was installed when it was bound (R55). -/
  code     : Nat
  deriving DecidableEq, Repr

/-- An entry of the vector sequencer: its slot, the captured scalar operands and `fcr`, the instruction or the body of
a `VLOOP`, and the next iteration and body position (R147, R149, R151). -/
structure SeqEntry where
  slot     : Fin 8
  body     : List Instr
  strides  : List (BitVec 16)
  count    : Nat
  iter     : Nat
  pos      : Nat
  /-- Captured scalar source values, by register number (R147). -/
  scalars  : List (BitVec 5 × Elem)
  fcr      : Word
  /-- Size of the gang that issued it, 0 outside a gang (R154). -/
  gang     : Nat
  /-- Its pipe has taken its next operation, which completes when the thread's earlier entries have (R147, R290). -/
  taken    : Bool
  deriving DecidableEq, Repr

/-- A partition of local memory, in bytes (R252). -/
structure Partition where
  tenant : Nat
  base   : Nat
  len    : Nat
  /-- The supplied count of the tenant's core-scope barrier, 0 for none (R276, R347). -/
  bcnt   : Nat
  deriving DecidableEq, Repr

/-- An entry of the protection lookaside buffer (R267). -/
structure PlbEntry where
  host   : Bool
  dom    : Nat
  region : Nat
  rights : BitVec 4
  deriving DecidableEq, Repr

/-- The A binding of a matrix unit (R191): addresses in local memory and the type. -/
structure ABinding where
  panel  : Nat
  scales : Nat
  type   : BitVec 5
  deriving DecidableEq, Repr

/-- A matrix job (R43, R193): identifier, type, accumulator, the A binding captured at issue, the mailbox, the tenant and
the views its completion word may go to (R200), and the domains its issuer had open (R310). -/
structure Job where
  id      : BitVec 16
  type    : BitVec 5
  acc     : BitVec 2
  bind    : Option ABinding
  mbox    : Nat
  space   : Nat
  core    : Nat
  slot    : Option (Fin 8)
  gen     : BitVec 8
  tenant  : Nat
  views   : List Nat
  domains : List Nat
  /-- The front bound at job start (R193). -/
  front   : Option Panel
  started : Bool
  /-- An earlier job whose working copy it reads failed its check (R306). -/
  failed  : Bool
  deriving DecidableEq, Repr

/-- A remote command that the unit has accepted and that waits as its local form waits (R199, R308): the sender's
core and tenant, the command, and the job of an `MMA`, whose identifier and A binding are taken when it is accepted. -/
structure HeldCommand where
  sender : Nat
  tenant : Nat
  cmd    : MatrixCommand
  job    : Option Job
  deriving DecidableEq, Repr

/-- The matrix unit of a core (R43). -/
structure Matrix where
  acc   : Vector (Vector Elem 256) 4
  /-- Accumulators marked bad (R310). -/
  bad   : Vector Bool 4
  /-- Accumulators that hold a bit that has flipped and that nothing has read since (R309). -/
  flipped : Vector Bool 4
  tbl   : Vector (BitVec 16) 16
  /-- FULL latch buffers in arrival order, at most two; the head is the front (R193). -/
  latch : List Panel
  abind : Option ABinding
  jobs  : List Job
  /-- The job counter (R193). -/
  next  : BitVec 16
  /-- Accepted remote commands that wait, in order of arrival (R189, R199). -/
  held  : List HeldCommand
  /-- The unit has been used since its core's image was last written back (R302). -/
  used  : Bool
  deriving DecidableEq, Repr

/-- The matrix unit's initial state (R43). -/
def Matrix.initial : Matrix where
  acc := Vector.replicate 4 (Vector.replicate 256 Elem.zero)
  bad := Vector.replicate 4 false
  flipped := Vector.replicate 4 false
  tbl := Vector.replicate 16 0
  latch := []
  abind := none
  jobs := []
  next := 0
  held := []
  used := false

/-- A copy unit in flight (R312): its offset from the start of the copy, its length, its bytes once they have been read,
whether it is staged and acknowledged, whether its hold is broken and how often. -/
structure CopyUnit where
  off    : Nat
  len    : Nat
  bytes  : List Byte
  staged : Bool
  acked  : Bool
  broken : Bool
  breaks : Nat
  deriving DecidableEq, Repr

/-- An entry of the copy table (R202 to R205, R302). -/
structure Copy where
  id      : BitVec 16
  desc    : CopyDesc
  slot    : Fin 8
  gen     : BitVec 8
  tenant  : Nat
  pred    : Option (BitVec 16)
  /-- The time at which it entered its engine's queue, if it has (R311). -/
  queued  : Option Nat
  started : Bool
  /-- The time from which it waits for its next slice, and the offset at which its slice ends (R311). -/
  turn     : Nat
  sliceEnd : Nat
  /-- A page fault stalls it: the unit's offset, the address, and whether it is of the destination (R315). -/
  stalled : Option (Nat × Nat × Bool)
  /-- The lost line for whose rebuild one of its units is held (R321). -/
  wants   : Option Nat
  units   : List CopyUnit
  /-- Bytes read so far and bytes released. -/
  next    : Nat
  done    : Nat
  /-- Register states of the segment and running CRCs, before the final complement (R204). -/
  seg     : Word
  run     : Word
  /-- The status it ends with, 0 while it runs, and the fault class (R205). -/
  status  : BitVec 8
  fclass  : BitVec 8
  /-- Its record has been performed. -/
  posted  : Bool
  /-- An injected error: byte offset and bit (R392). -/
  strike  : Option (Nat × Nat)
  /-- Source bytes that the copy's own writes have replaced, by their offset in the source range (R203). -/
  olds    : List Host.Cell
  deriving DecidableEq, Repr

/-- A collective contribution, partial or result (R96, R332). -/
structure Item where
  /-- FP32 and bitwise operators: the value with its tail. -/
  elem    : Elem
  /-- INT64 add. -/
  wide    : DWord
  /-- MX block add: 32 elements, scale, sticky bits, tag (R208). -/
  block   : List Byte
  scale   : Byte
  sticky  : Word
  tag     : Byte
  /-- Contributions folded into it, none when every one behind it was omitted, and those omitted. -/
  count   : Nat
  omitted : Nat
  deriving DecidableEq, Repr

/-- What a core holds of a collective group (R209). -/
structure CollState where
  g           : Nat
  /-- Rounds the core has contributed to, and the round of the latest result. -/
  contributed : Nat
  completed   : Nat
  result      : Option (Item × BitVec 16)
  deriving DecidableEq, Repr

/-- What a `SPAWN` request carries (R185). -/
structure SpawnRequest where
  tenant : Nat
  entry  : Word
  peg    : Entry
  bound  : BitVec 3
  prio   : BitVec 2
  /-- Where the status goes: core, slot and generation. -/
  core   : Nat
  slot   : Fin 8
  gen    : BitVec 8
  deriving DecidableEq, Repr

/-- A core's image in its package's context area (R302). The header holds the core's name, its die's incarnation, the
presence mask, the package time of the stop, the slot states, the phase counts of the core's barriers by tenant and
level, and `orph`. -/
structure CoreImage where
  core    : Nat
  inc     : BitVec 8
  present : BitVec 11
  stopAt  : BitVec 64
  states  : Vector SlotState 8
  phases  : List (Nat × Nat × BitVec 16)
  slots   : Vector Slot 8
  orph    : Word
  loc     : Memory
  ltags   : Tags
  lpoison : List Nat
  queues  : Vector Queue 8
  stages  : Vector Stage 16
  turns   : Vector (BitVec 8) 32
  staged  : Option (Nat × List (BitVec 8))
  seq     : List SeqEntry
  matrix  : Matrix
  copies  : List Copy
  plb     : List PlbEntry
  deriving DecidableEq, Repr

/-- An entry of a committed outbox on its way out (R216, R241): the slot, generation and tenant of the thread that issued
it, the entry, and the coded write-backs it waits for: line and sequence number (R320). -/
structure Release where
  slot   : Fin 8
  gen    : BitVec 8
  tenant : Nat
  item   : OutItem
  lines  : List (Nat × BitVec 16)
  deriving DecidableEq, Repr

/-- A core (R42). -/
structure Core where
  slots   : Vector Slot 8
  /-- Local memory and its granule tags (R251). -/
  loc     : Memory
  ltags   : Tags
  /-- Poisoned 16-byte words (R357). -/
  lpoison : List Nat
  queues  : Vector Queue 8
  stages  : Vector Stage 16
  /-- The stage that fired last at each priority (R280). -/
  fired   : Vector (Option (Fin 16)) 4
  /-- Slot table and staged table with its tenant (R188, R290). -/
  turns   : Vector (BitVec 8) 32
  staged  : Option (Nat × List (BitVec 8))
  /-- The vector sequencer, oldest entry first (R147). -/
  seq     : List SeqEntry
  /-- The slot each pipe served last: vector, special function (R290). -/
  served  : Fin 8 × Fin 8
  /-- The cycle in which each pipe can next take an entry: vector, special function (R290). -/
  turn    : Nat × Nat
  plb     : List PlbEntry
  /-- Orphan counter (R42). -/
  orph    : Word
  parts   : List Partition
  /-- Keep size code (R252) and allocations (R253). -/
  kc      : Nat
  keeps   : List (Nat × Nat)
  matrix  : Matrix
  copies  : List Copy
  /-- The copy counter (R202). -/
  copyNext : BitVec 16
  colls   : List CollState
  /-- Committed outbox entries, oldest first, and the last copy each slot's release issued (R207, R216). -/
  releases : List Release
  relCopy : List (Nat × BitVec 16)
  /-- The present cycle of the core: its barrel issues next in it (R288, R290; entry 2). -/
  cycle   : Nat
  /-- Pre-emption: stopped, colour, messages of the old colour sent and, of those, received (R297, R300). -/
  stopped : Bool
  /-- The package time at which the core last stopped (R302). -/
  stopAt  : BitVec 64
  colour  : Bool
  sent    : Nat
  received : Nat
  deriving DecidableEq, Repr

/-- An empty queue. -/
def Queue.empty : Queue := ⟨[], 0⟩

/-- A stage table entry not in use. -/
def Stage.empty : Stage := ⟨0, 0, 0, 0, false, 0, 0⟩

/-- The slot table at binding and at core reset: entry i names slot i mod 8 with `vld` = 1 (R290). -/
def initialTurns : Vector (BitVec 8) 32 := Vector.ofFn fun i => 0x80#8 ||| BitVec.ofNat 8 (i.val % 8)

/-- A core after core reset (R18, R43, R290, R400). -/
def Core.initial (name : Nat) : Core where
  slots := Vector.replicate 8 { Slot.initial with home := name }
  loc := []
  ltags := []
  lpoison := []
  queues := Vector.replicate 8 Queue.empty
  stages := Vector.replicate 16 Stage.empty
  fired := Vector.replicate 4 none
  turns := initialTurns
  staged := none
  seq := []
  served := (0, 0)
  turn := (0, 0)
  plb := []
  orph := 0
  parts := []
  kc := 0
  keeps := []
  matrix := Matrix.initial
  copies := []
  copyNext := 0
  colls := []
  releases := []
  relCopy := []
  cycle := 0
  stopped := false
  stopAt := 0
  colour := false
  sent := 0
  received := 0

/-! ### Packages -/

/-- A tenant bound in a package (R272, R347, R391). -/
structure Tenant where
  id        : Nat
  /-- The images that its bindings have installed in its code region, first to last (R55). -/
  code      : List (List (BitVec 16))
  /-- The `local` image of each core and the capabilities that its bindings have written: core, partition offset, capability
  (R69, R272, R366). -/
  images    : List (Nat × List Byte)
  caps      : List (Nat × Nat × Cap)
  spillShare : Nat
  loss      : Nat
  overflow  : Nat
  preserve  : Nat
  preserveUsed : List (Nat × Nat)
  rcore     : Nat
  lost      : List DWord
  nlost     : Nat
  /-- Whether the injection block is published to it, and the block's words (R391). -/
  injection : Bool
  ijoff     : Word
  carm      : Word
  ijpc      : Word
  rarm      : Bool
  rcnt      : BitVec 16
  ccnt      : BitVec 16
  deriving DecidableEq, Repr

/-- A peg in the pending-launch pool (R284) or a held launch (R287). -/
inductive PoolItem where
  | peg (core : Nat) (stage : Fin 16) (words : Entry)
  /-- Its core, entry, bound queue, peg and the step it arrived at. -/
  | launch (core : Nat) (entry : Word) (bound : BitVec 3) (words : Entry) (arrival : Nat)
  deriving DecidableEq, Repr

/-- A tenant's pool in a package (R283). -/
structure Pool where
  tenant : Nat
  size   : Nat
  items  : List PoolItem
  deriving DecidableEq, Repr

/-- An entry of the launch-rights table and the tenant's pod set (R343). -/
structure LaunchRight where
  bits : BitVec 128
  pods : List Nat
  deriving DecidableEq, Repr

/-- The state of a view number in the view table (R261). -/
inductive ViewState where
  | live | committed (parent : Nat) | discarded
  deriving DecidableEq, Repr

/-- A record of the view table with the versions that the view holds: bytes and granule tags it has written (R238,
R259). -/
structure ViewRec where
  num    : Nat
  parent : Nat
  rival  : Bool
  tenant : Nat
  state  : ViewState
  /-- Bytes written in the view, at rising addresses. -/
  writes : List Host.Cell
  /-- Granules whose tag the view has written: granule number and tag. -/
  tags   : List (Nat × Bool)
  /-- Lines whose version in the view is poisoned, `pz` (R255, R266). -/
  pz     : List Nat
  deriving DecidableEq, Repr

/-- A commit into the base view between its lock and its commit point (R262). -/
structure Commit where
  view   : Nat
  core   : Nat
  slot   : Fin 8
  lines  : List Nat
  /-- Packages whose floor raise is still to be done, and those whose acknowledgement is still to arrive. -/
  raise  : List Nat
  acks   : List Nat
  /-- A `CHOOSE`, whose winner passes its image to the parent; a `DCLOSE` otherwise. -/
  choose : Bool
  deriving DecidableEq, Repr

/-- A read copy of a line homed in another package, at the proxy slice (R255, R258). -/
structure ReadCopy where
  line  : Nat
  bytes : List Byte
  /-- Its granules whose capability tag is 1. -/
  tags  : Tags
  stamp : Word
  deriving DecidableEq, Repr

/-- A line that differs from its HBM image (R255): the image it had, and its coded sequence number (R319). -/
structure DirtyLine where
  line  : Nat
  image : List Byte
  /-- The granules of its HBM image whose capability tag is 1. -/
  tags  : Tags
  deriving DecidableEq, Repr

/-- A check line of a stripe (R318, R319): P or Q bytes, and a sequence number for each data position. -/
structure CheckLine where
  /-- Stripe offset and line offset within the chunk, as the package offset of the line. -/
  line  : Nat
  stripe : List Nat
  q     : Bool
  bytes : List Byte
  seqs  : List (BitVec 16)
  deriving DecidableEq, Repr

/-- A coded write-back under way (R319): the line, its position, the delta, its number, which agents have applied
and acknowledged it, and the one whose loss excuses it from that (R322: true for Q's). -/
structure Writeback where
  line    : Nat
  pos     : Nat
  stripe  : List Nat
  delta   : List Byte
  seq     : BitVec 16
  pDone   : Bool
  qDone   : Bool
  gone    : Option Bool
  deriving DecidableEq, Repr

/-- A page whose `cd` changes, to 1 when `setting` (R317): the pages of its leaf, the stripe set, and the lines whose image
both agents have not yet acknowledged, with what P and Q have applied. Lines of zeros change no check and are not
listed. -/
structure Transit where
  pages   : List Nat
  stripe  : List Nat
  setting : Bool
  lines   : List (Nat × Bool × Bool)
  deriving DecidableEq, Repr

/-- A world (R217 to R219). -/
structure World where
  id      : Nat
  core    : Nat
  slot    : Fin 8
  gen     : BitVec 8
  fail    : Word
  dst     : BitVec 5
  rivals  : List (Nat × Fin 8 × BitVec 8 × Nat)
  counted : Nat
  decided : Bool
  /-- The core whose keep area holds the rival windows, with their offset and length (R253). -/
  home    : Nat
  keep    : Nat × Nat
  deriving DecidableEq, Repr

/-- A message-channel entry that could not enter its queue (R328, R329). -/
structure Parked where
  src     : Nat
  core    : Nat
  q       : Nat
  dom     : Nat
  entries : List Entry
  /-- Entries of a reservation it holds (R277, R278). -/
  resv    : Nat
  spilled : Bool
  deriving DecidableEq, Repr

/-- Who sends a message on the collective channel: a core contributes, a router sends partials and results (R332). -/
inductive CollSource where
  | core (c : Nat)
  | router (r : Nat)
  deriving DecidableEq, Repr

/-- A truss entry with the items and the kept partial of the current round (R331, R332). -/
structure Truss where
  router : Nat
  g      : Nat
  bits   : BitVec 128
  items  : List (Nat × Item)
  kept   : Option Item
  /-- The packages at the other ends of a hub entry's pod ports (R399; entry 10). -/
  peers  : List (Nat × Nat)
  deriving DecidableEq, Repr

/-- A collective item in flight to a router, or a result on its way down (R332). -/
structure CollMsg where
  /-- The sender's tenant, and the incarnations of the destination's and the source's die; a hub has none (R324, R335). -/
  dom    : Nat
  dinc   : BitVec 8
  sinc   : BitVec 8
  /-- The core or the router that sent it, and its colour (R300). -/
  src    : CollSource
  col    : Bool
  router : Nat
  port   : Nat
  g      : Nat
  item   : Item
  memb   : BitVec 16
  /-- A result travelling from the root to the cores. -/
  down   : Bool
  /-- A contribution that a router has marked as poisoned, or that was found corrupt in transit: it is omitted (R210,
  R324, R333). -/
  psn    : Bool
  deriving DecidableEq, Repr

/-- The section of a stop's router in the context area (R211, R302): its truss entries with their partial combinations,
the collective items parked at it, the arrivals of its cores in the phase in progress of each barrier (tenant, level,
instance, phase, cores), and the messages of its overflow buffer. -/
structure RouterImage where
  stop     : Nat
  truss    : List Truss
  colls    : List CollMsg
  arrivals : List (Nat × Nat × Nat × BitVec 16 × List Nat)
  parked   : List Parked
  deriving DecidableEq, Repr

/-- A partition that is being pre-empted (R296, R297, R300, R303): logical dies of one package, or every die of a set of
packages, its stop and resume times, and whether its cut has closed. -/
structure Preemption where
  pkgs       : List Nat
  dies       : List Nat
  stopTime   : Nat
  resumeTime : Option Nat
  cutClosed  : Bool
  deriving DecidableEq, Repr

/-- An entry of the scribe log (R362). -/
structure Scribe where
  seq   : Nat
  pay   : Entry
  dst   : Nat
  q     : Nat
  kind  : Nat
  ent   : Word
  pair  : Bool
  ret   : Bool
  pend  : Bool
  pslot : Fin 8
  pgen  : BitVec 8
  deriving DecidableEq, Repr

/-- The scribe log of a logical die (R362, R364). -/
structure ScribeLog where
  next      : Nat
  entries   : List Scribe
  unprotected : Bool
  /-- Threads, by core, slot and generation, whose outermost domain was open when the die became unprotected and has not
  closed since (R364). -/
  open_     : List (Nat × Fin 8 × BitVec 8)
  deriving DecidableEq, Repr

/-- The state of a UCIe module (R338, R339). -/
structure Module where
  base    : Nat
  index   : Nat
  paused  : Bool
  lanes   : Nat
  lost    : Bool
  deriving DecidableEq, Repr

/-- The state of a pod port (R340). -/
structure PodPort where
  index    : Nat
  lanes    : Nat
  down     : Bool
  /-- Frames received in sequence, frames of its own that the other end has acknowledged, and frames sent again. -/
  received : Nat
  acked    : Nat
  replays  : Nat
  /-- Channels that the other end has stopped, one bit each. -/
  stop     : BitVec 5
  deriving DecidableEq, Repr

/-- A completion that waits for its ring (R348): result, identifier, submission head, status and tenant. -/
structure HostCompletion where
  res : Word
  cid : BitVec 16
  sqh : Nat
  st  : BitVec 8
  ten : BitVec 16
  deriving DecidableEq, Repr

/-- A queue pair of the host port (R345, R348). -/
structure QueuePair where
  index    : Nat
  sqb      : DWord
  cqb      : DWord
  qsz      : Word
  enable   : Bool
  ready    : Bool
  quiesced : Bool
  /-- Submission head and tail, completion head (released by the host) and tail, the entries written and not yet
  released, and the phase. -/
  sqh      : Nat
  sqt      : Nat
  cqh      : Nat
  cqt      : Nat
  used     : Nat
  phase    : Bool
  /-- MSI-X vector raised and not yet answered by a `cqh` write. -/
  msix     : Bool
  /-- Completions that wait for the ring, oldest first. -/
  waiting  : List HostCompletion
  deriving DecidableEq, Repr

/-- A command fetched from a submission ring: its queue pair, the submission head after the fetch, its 64 bytes, whether
it is malformed, and whether a reset of the host function has come since (R345, R346, R352). -/
structure HostCommand where
  q     : Nat
  sqh   : Nat
  bytes : List Byte
  bad   : Bool
  reset : Bool
  deriving DecidableEq, Repr

/-- The host function (R350 to R352). -/
inductive HostState where
  | enabled | reset | enumerated
  deriving DecidableEq, Repr

/-- A host CXL.mem access on its way to its home: address, bytes, and whether it writes (R344). -/
structure HostAccess where
  addr  : Nat
  data  : List Byte
  write : Bool
  deriving DecidableEq, Repr

/-- The host port (R344 to R352). -/
structure HostPort where
  state    : HostState
  hosted   : Bool
  cxl      : Bool
  pairs    : List QueuePair
  commands : List HostCommand
  /-- Host memory as HOST space reaches it. -/
  mem      : Memory
  /-- Accesses of the host that wait at their homes, in order of arrival (R344). -/
  accesses : List HostAccess
  /-- Device events not yet posted: tenant and code (R348). -/
  events   : List (Nat × Nat)
  /-- The areas that firmware has carved out of the package's HBM and reported as reserved: first chunk and number (R264). -/
  reserved : List (Nat × Nat)
  deriving DecidableEq, Repr

/-- A firmware slot: its header of 4 KiB and the body behind it, byte by byte (R371). -/
structure FirmwareSlot where
  bytes : List Byte
  deriving DecidableEq, Repr

/-- The firmware state of a control die (R372). -/
structure Firmware where
  slotA   : FirmwareSlot
  slotB   : FirmwareSlot
  /-- The active slot (false A, true B). -/
  active  : Bool
  /-- The other slot stands in trial and has not confirmed its health. -/
  trial   : Bool
  /-- The package runs from the trial slot. -/
  running : Bool
  /-- Package time at the start of the last raising (R372). -/
  bootAt  : Nat
  fuseSvn : Word
  fuseKey : BitVec 256
  deriving DecidableEq, Repr

/-- The error record of a unit (R359). -/
structure ErrorRecord where
  unit      : UnitName
  /-- Package times of its corrected and of its detected errors within the last 600 s. -/
  corrected : List Nat
  detected  : List Nat
  lasting   : Bool
  deriving DecidableEq, Repr

/-- A council under way (R370): the package's two diagnoses and the votes for each. -/
structure Council where
  d0       : Diagnosis
  d1       : Diagnosis
  members  : List Nat
  /-- Answers on their way: member and vote (0, 1, or 2 for an abstention). -/
  ballots  : List (Nat × Nat)
  votes0   : Nat
  votes1   : Nat
  deriving DecidableEq, Repr

/-- The service processors of a package (R368 to R370). -/
structure Service where
  alive0  : Bool
  alive1  : Bool
  /-- Councils lost in a row by each processor. -/
  lost0   : Nat
  lost1   : Nat
  council : Option Council
  /-- Notify registers of the 128 service queues (R368). -/
  notify  : List (Nat × BitVec 64)
  /-- Service threads that a notify has woken: processor and thread. -/
  woken   : List (Nat × Nat)
  records : List ErrorRecord
  /-- Error reports that no diagnosis has used yet, oldest first (R368, R369). -/
  log     : List UnitName
  /-- Diagnoses whose action has been taken and is still to be done, newest first. -/
  taken   : List Diagnosis
  /-- Reports to the operator: unprotected dies, loss of synchronisation, failed packages. -/
  reports : List String
  /-- Pegs of lost threads that wait for space in queue 7 of a recovery core (R355). -/
  pegs    : List (Nat × Entry)
  deriving DecidableEq, Repr

/-- What a message that is still under way carries (R323, R324). -/
inductive Payload where
  /-- Entries for a queue 0 to 4 or, as a return, queue 6, with the reservation they consume (R183, R184, R278). -/
  | queue (q : Nat) (entries : List Entry) (resv : Nat)
  /-- A `CALLAT` peg for a stage; the status returns to the slot (R186). -/
  | callat (stage : Fin 16) (peg : Entry) (slot : Fin 8) (gen : BitVec 8)
  /-- A `SPAWN` request (R185). -/
  | spawn (r : SpawnRequest)
  /-- An `MCMD` command; the status returns to the slot, if one waits for it (R199, R200). -/
  | command (cmd : MatrixCommand) (back : Option (Fin 8 × BitVec 8))
  /-- A launch message (R287). -/
  | launch (entry : Word) (bound : BitVec 3) (peg : Entry)
  /-- A status on the reply channel (R185, R186, R199). -/
  | status (slot : Fin 8) (gen : BitVec 8) (value : Word)
  /-- A message of channel 5 to 7, or of a kind that its destination does not know (R324). -/
  | unknown (ch : BitVec 3) (kind : Byte) (payload : List (BitVec 128))
  deriving DecidableEq, Repr

/-- A message under way: between packages, held at a partition's edge, or behind a link that does not carry it (R301,
R324, R339). -/
structure Msg where
  src     : Nat
  dst     : Nat
  dom     : Nat
  payload : Payload
  /-- The sender's colour (R300). -/
  col     : Bool
  /-- Incarnations of the destination's die, as the sender's map held it, and of the source's die (R324, R336). -/
  dinc    : BitVec 8
  sinc    : BitVec 8
  deriving DecidableEq, Repr

/-- A package (R1, R272, R283, R343, R373). -/
structure Package where
  /-- The package time counter (R122). -/
  ptc      : BitVec 64
  /-- It holds its count until time reaches it: nanoseconds it is ahead (R342). -/
  ahead    : Nat
  syncLost : Bool
  /-- Its parent in the spanning tree of pod ports, the delay of the link to it in nanoseconds, and the package time of
  the last synchronisation (R342). -/
  parent   : Option Nat
  delay    : Nat
  syncAt   : BitVec 64
  tenants  : List Tenant
  pools    : List Pool
  rights   : List RightsRow
  launch   : List LaunchRight
  /-- Translation tables: entry i of the level-1 table at key i; entry j of the level-2 table at physical address 256 q at
  key 2^20 + 32 q + j (R269). -/
  tables   : List (Nat × BitVec 64)
  /-- The translation caches of the base dies, most recent first: base die, virtual page and leaf entry (R269). -/
  tcache   : List (Nat × Nat × BitVec 64)
  views    : List ViewRec
  nextView : Nat
  /-- Versions of lines that views hold: view, line and whether it lies in the overflow area; most recently used first
  (R259, R260). -/
  versions : List (Nat × Nat × Bool)
  commits  : List Commit
  /-- The copy floor (R258). -/
  floor    : Word
  copies   : List ReadCopy
  /-- Lines present in L2, by line number (R255). -/
  l2       : List Nat
  /-- Disabled ways of slices: sixteen times base die and slice as in `setOf`, plus the way (R357, R359). -/
  ways     : List Nat
  /-- Poisoned lines with the detail of R356. -/
  poison   : List (Nat × BitVec 8)
  dirty    : List DirtyLine
  /-- Coded pages: page number and stripe set (R316). -/
  coded    : List (Nat × List Nat)
  checks   : List CheckLine
  wbacks   : List Writeback
  /-- Pages whose `cd` is changing (R317). -/
  transits : List Transit
  /-- Lines lost and not yet rebuilt (R321). -/
  rebuild  : List Nat
  /-- Check lines lost and not yet rebuilt: line within the package, stripe, and whether it is Q's (R321). -/
  rebuildChecks : List (Nat × List Nat × Bool)
  /-- HBM stacks lost, with the stack that took each memory position's home (R257, R265). -/
  lostStacks : List Nat
  parked   : List Parked
  truss    : List Truss
  worlds   : List World
  nextWorld : Nat
  /-- Die map and base map (R335). -/
  dieMap   : Vector (BitVec 32) 8
  baseMap  : Vector (BitVec 16) 9
  /-- Incarnations of the physical core dies and base dies (R336). -/
  dieInc   : Vector (BitVec 8) 9
  baseInc  : Vector (BitVec 8) 9
  /-- Fenced physical dies: base or core, number, until their map entry is written (R337). -/
  fenced   : List (Bool × Nat)
  /-- Drain markers still to arrive (R337, R341). -/
  drains   : List DrainMark
  /-- Failed core dies and the idle brace (R366, R373). -/
  failedDies : List Nat
  brace    : Option Nat
  /-- Disabled stops: physical die and row, mask (R360). -/
  stopMap  : List (Nat × BitVec 34)
  scribes  : List (Nat × ScribeLog)
  /-- Deliveries held at the hub ports of dies whose scribe log is nearly full, oldest first (R364). -/
  scribeHeld : List Msg
  /-- Answers to launch messages: sender and status, oldest first (R343, R349). -/
  answers  : List (Nat × Word)
  modules  : List Module
  ports    : List PodPort
  /-- Pod routes by destination package (R341): port and valid bit; and those written that wait for the marker of the
  old route. -/
  routes   : List (Nat × Nat × Bool)
  newRoutes : List (Nat × Nat × Bool)
  /-- Hub counters of dropped messages and refusals (R324, R343). -/
  errors   : Nat
  refusals : Nat
  host     : HostPort
  service  : Service
  firmware : Firmware
  throttle : Bool
  /-- The context area: core images by core, and sections of routers (R302). -/
  contexts : List (Nat × CoreImage)
  sections : List RouterImage
  /-- Raised, failed at raising, spare (R367, R373). -/
  raised   : Bool
  failed   : Bool
  spare    : Bool
  deriving DecidableEq, Repr

/-- A queue pair after a reset of the host function: every register reads zero except `quiesced` (R348). -/
def QueuePair.initial (q : Nat) : QueuePair where
  index := q
  sqb := 0
  cqb := 0
  qsz := 0
  enable := false
  ready := false
  quiesced := false
  sqh := 0
  sqt := 0
  cqh := 0
  cqt := 0
  used := 0
  phase := true
  msix := false
  waiting := []

/-- The host port of a raised package (R351, R373). -/
def HostPort.initial : HostPort where
  state := .enabled
  hosted := false
  cxl := true
  pairs := []
  commands := []
  accesses := []
  mem := []
  events := []
  reserved := Config.reservedAreas

/-- Service processors after raising (R373). -/
def Service.initial : Service where
  alive0 := true
  alive1 := true
  lost0 := 0
  lost1 := 0
  council := none
  notify := []
  woken := []
  records := []
  log := []
  taken := []
  reports := []
  pegs := []

/-- The bytes of an image as a slot holds them: the header begins with the magic number 0x5745_4C4E and its RES field is
zero (R6, R371). -/
def headerOf (image : List Byte) : List Byte :=
  [0x4E, 0x4C, 0x45, 0x57] ++ (image.drop 4).mapIdx fun i x => if 0xECC ≤ i + 4 && i + 4 < 0x1000 then 0 else x

/-- Firmware after raising from slot A (R372; entry 12). -/
def Firmware.initial : Firmware where
  slotA := ⟨headerOf Config.factoryImage⟩
  slotB := ⟨headerOf []⟩
  active := false
  trial := false
  running := false
  bootAt := 0
  fuseSvn := 0
  fuseKey := Config.fuseKey

/-- A package that has been raised and has nothing bound (R373, R400). -/
def Package.initial : Package where
  ptc := 0
  ahead := 0
  syncLost := false
  parent := none
  delay := 0
  syncAt := 0
  tenants := []
  pools := []
  rights := []
  launch := []
  tables := []
  tcache := []
  views := []
  nextView := 1
  versions := []
  commits := []
  floor := 0
  copies := []
  l2 := []
  ways := []
  poison := []
  dirty := []
  coded := []
  checks := []
  wbacks := []
  transits := []
  rebuild := []
  rebuildChecks := []
  lostStacks := []
  parked := []
  truss := []
  worlds := []
  nextWorld := 0
  dieMap := Vector.ofFn fun i => 0x80000000#32 ||| (BitVec.ofNat 32 i.val <<< 15)
  baseMap := Vector.ofFn fun i => BitVec.ofNat 16 i.val <<< 12
  dieInc := Vector.replicate 9 0
  baseInc := Vector.replicate 9 0
  fenced := []
  drains := []
  failedDies := []
  brace := some 8
  stopMap := []
  scribes := []
  scribeHeld := []
  answers := []
  modules := []
  ports := []
  routes := []
  newRoutes := []
  errors := 0
  refusals := 0
  host := HostPort.initial
  service := Service.initial
  firmware := Firmware.initial
  throttle := false
  contexts := []
  sections := []
  raised := true
  failed := false
  spare := false

/-! ### The pod -/

/-- A barrier of a tenant in one instance of a scope (R42, R178). -/
structure Barrier where
  tenant  : Nat
  level   : Nat
  inst    : Nat
  /-- The count of the phase in progress and the count of later phases (R276). -/
  expect  : Nat
  later   : Nat
  /-- The cores of the arrivals in the phase in progress. -/
  arrived : List Nat
  /-- The phase count of the cores of the instance (R42). -/
  phase   : BitVec 16
  /-- Lost members that count as arrived in the phase in progress (R334). -/
  lost    : Nat
  /-- Arrivals on their way between dies and packages, by core (R323). -/
  signals : List Nat
  deriving DecidableEq, Repr

/-- An armed monitor (R177). -/
structure Monitor where
  /-- Address space (0 LOCAL or WINDOW at a core, 2 GLOBAL), core of a local word, address and width in bytes. -/
  space : Nat
  core  : Nat
  addr  : Nat
  width : Nat
  value : DWord
  /-- The rival's view whose window copy is watched, if any. -/
  view  : Option Nat
  tcore : Nat
  tslot : Fin 8
  deriving DecidableEq, Repr

/-- The state of the machine. -/
structure State where
  /-- Steps of other agents that are due from outside, oldest first. MODEL field: entry 1. -/
  agenda    : List Instr
  /-- The core and the slot the next instruction belongs to. MODEL field: entry 2. -/
  curCore   : Nat
  curSlot   : Fin 8
  /-- The next step issues an instruction where a slot is ready, before pending events are served. MODEL field:
  entry 2. -/
  issueTurn : Bool
  /-- Steps taken so far, which the free values are applied to. MODEL field: entry 3. -/
  ticks     : Nat
  /-- The package time that the counters of untouched packages have reached: all counters run together (R122, R342).
  MODEL field: entry 3. -/
  now       : BitVec 64
  /-- Packages of the pod (R13). -/
  podSize   : Nat
  /-- Contents of GLOBAL space in the base view (R250). -/
  mem       : Memory
  mtags     : Tags
  /-- Messages between packages or held at a partition's edge, oldest first (R227, R301). -/
  fabric    : List Msg
  barriers  : List Barrier
  monitors  : List Monitor
  collMsgs  : List CollMsg
  /-- Partitions that are being pre-empted (R296). -/
  stops     : List Preemption
  /-- Cores that have been touched, by core name. -/
  cores     : List (Nat × Core)
  /-- Packages that have been touched, by index. -/
  pkgs      : List (Nat × Package)
  /-- Entries a monitor table holds before it answers "retry" (R177; entry 14). -/
  monitorRoom : Nat
  deriving DecidableEq, Repr

/-- The machine right after reset: every package raised, nothing bound, every slot FREE, storage zero (R18, R43, R373,
R400). Values the spec states no reset value for are named in entries 1 to 14. -/
def State.reset : State where
  agenda := []
  curCore := 0
  curSlot := 0
  issueTurn := true
  ticks := 0
  now := 0
  podSize := 2048
  mem := []
  mtags := []
  fabric := []
  barriers := []
  monitors := []
  collMsgs := []
  stops := []
  cores := []
  pkgs := []
  monitorRoom := 64

end Sys2Proof.Machine
end

