-- ==== Sys2Proof/Machine/Number.lean ====
section
/-!
DEFINITION. Numbers, tails and rounding (03_numbers_rounding.md): the formats of R72 to R74, extended values (R77), the
odd form (R79), final rounding (R82 to R86), the non-final conversions (R87) and the keyed generator (R97).

A finite exact value is a sign with a magnitude `m * 2^e`. Quotients and square roots, which have no finite binary
form, are first rounded to odd on a grid much finer than any format's; R88 shows that the later rounding to odd is the
rounding of the exact result.
-/

namespace Sys2Proof.Machine

/-! ### Formats -/

/-- Which special encodings a format has (R73). -/
inductive Specials where
  /-- Infinities and NaNs. -/
  | ieee
  /-- NaN at all ones below the sign, no infinities (`.e4m3`). -/
  | nanOnly
  /-- Neither. -/
  | finite
  deriving DecidableEq, Repr

/-- A floating-point format of R72. -/
structure Fmt where
  ebits    : Nat
  fbits    : Nat
  bias     : Nat
  specials : Specials
  deriving DecidableEq, Repr

/-- The precision p (R72). -/
def Fmt.p (f : Fmt) : Nat := f.fbits + 1
/-- The exponent of the smallest normal value (R72). -/
def Fmt.emin (f : Fmt) : Int := 1 - f.bias
/-- The width in bits. -/
def Fmt.width (f : Fmt) : Nat := 1 + f.ebits + f.fbits
/-- The encoding of the largest finite magnitude M (R73). -/
def Fmt.maxEnc (f : Fmt) : Nat :=
  match f.specials with
  | .ieee => (2 ^ f.ebits - 1) * 2 ^ f.fbits - 1
  | .nanOnly => 2 ^ (f.ebits + f.fbits) - 2
  | .finite => 2 ^ (f.ebits + f.fbits) - 1
/-- Whether the format has infinities. -/
def Fmt.hasInf (f : Fmt) : Bool := f.specials == .ieee
/-- Whether the format has NaNs. -/
def Fmt.hasNan (f : Fmt) : Bool := f.specials != .finite
/-- The encoding of positive infinity (R73). -/
def Fmt.infEnc (f : Fmt) : Nat := (2 ^ f.ebits - 1) * 2 ^ f.fbits
/-- The default NaN of R73. -/
def Fmt.nanEnc (f : Fmt) : Nat :=
  match f.specials with
  | .ieee => (2 ^ f.ebits - 1) * 2 ^ f.fbits + 2 ^ (f.fbits - 1)
  | .nanOnly => 2 ^ (f.ebits + f.fbits) - 1
  | .finite => 0
/-- The sign bit's weight. -/
def Fmt.signBit (f : Fmt) : Nat := 2 ^ (f.ebits + f.fbits)

/-- `.f64` (R72). -/
def fmtF64 : Fmt := ⟨11, 52, 1023, .ieee⟩
/-- `.f32` (R72). -/
def fmtF32 : Fmt := ⟨8, 23, 127, .ieee⟩
/-- `.bf16` (R72). -/
def fmtBf16 : Fmt := ⟨8, 7, 127, .ieee⟩
/-- `.f16` (R72). -/
def fmtF16 : Fmt := ⟨5, 10, 15, .ieee⟩
/-- `.e4m3` (R72). -/
def fmtE4m3 : Fmt := ⟨4, 3, 7, .nanOnly⟩
/-- `.e5m2` (R72). -/
def fmtE5m2 : Fmt := ⟨5, 2, 15, .ieee⟩
/-- `.e3m2` (R72). -/
def fmtE3m2 : Fmt := ⟨3, 2, 3, .finite⟩
/-- `.e2m3` (R72). -/
def fmtE2m3 : Fmt := ⟨2, 3, 1, .finite⟩
/-- `.e2m1` (R72). -/
def fmtE2m1 : Fmt := ⟨2, 1, 1, .finite⟩

/-- What a type code of R50 stands for as an element. -/
inductive Ty where
  | int (signed : Bool) (width : Nat)
  | flt (f : Fmt)
  | scale
  | none
  deriving DecidableEq, Repr

/-- The type codes of R50 that name one element. -/
def tyOf (code : BitVec 5) : Ty :=
  match code.toNat with
  | 0 => .int true 8
  | 1 => .int true 16
  | 2 => .int true 32
  | 3 => .int true 64
  | 4 => .int false 8
  | 5 => .int false 16
  | 6 => .int false 32
  | 7 => .int false 64
  | 8 => .flt fmtF64
  | 9 => .flt fmtF32
  | 10 => .flt fmtBf16
  | 11 => .flt fmtF16
  | 12 => .flt fmtE4m3
  | 13 => .flt fmtE5m2
  | 14 => .flt fmtE3m2
  | 15 => .flt fmtE2m3
  | 16 => .flt fmtE2m1
  | 17 => .scale
  | _ => .none

/-- The format of a floating-point type code; `.f32` for any other code. -/
def fmtOf (code : BitVec 5) : Fmt :=
  match tyOf code with
  | .flt f => f
  | _ => fmtF32

/-- The width in bits of an element's value in its register (R50). -/
def Ty.width : Ty → Nat
  | .int _ w => w
  | .flt f => f.width
  | .scale => 8
  | .none => 32

/-- Bytes of one element in memory: narrow formats take a whole byte in a scalar or lane access (R75). -/
def tyBytes (code : BitVec 5) : Nat :=
  match code.toNat with
  | 0 | 4 | 12 | 13 | 14 | 15 | 16 | 17 => 1
  | 1 | 5 | 10 | 11 => 2
  | 3 | 7 | 8 => 8
  | _ => 4

/-! ### Elements and extended values -/

/-- An element of any width: its bits from bit 0 and its tail. -/
structure FElem where
  bits : DWord
  tail : BitVec 2
  deriving DecidableEq, Repr

/-- A result with the flags it raises: `td nv dz of uf nx` from bit 5 down (R36). -/
structure FRes where
  bits  : DWord
  tail  : BitVec 2
  flags : BitVec 6
  deriving DecidableEq, Repr

/-- Inexact. -/
def fNX : BitVec 6 := 1
/-- Underflow. -/
def fUF : BitVec 6 := 2
/-- Overflow. -/
def fOF : BitVec 6 := 4
/-- Division by zero. -/
def fDZ : BitVec 6 := 8
/-- Invalid operation. -/
def fNV : BitVec 6 := 16
/-- Tail dropped. -/
def fTD : BitVec 6 := 32

/-- An extended value (R77): NaN, an infinity, exact or overflowed, or `(-1)^neg * m * 2^e`. -/
inductive XVal where
  | nan
  | inf (neg ovf : Bool)
  | fin (neg : Bool) (m : Nat) (e : Int)
  deriving DecidableEq, Repr

/-- The extended value of an element of a floating-point format (R73, R77, R141). -/
def Fmt.xval (f : Fmt) (bits : Nat) (tail : BitVec 2) : XVal :=
  let b := bits % 2 ^ f.width
  let neg := f.signBit ≤ b
  let mag := b % f.signBit
  if f.maxEnc < mag then
    if f.hasInf && mag = f.infEnc then .inf neg (tail ≠ 0) else .nan
  else
    let ex := mag / 2 ^ f.fbits
    let fr := mag % 2 ^ f.fbits
    if ex = 0 then .fin neg (4 * fr + tail.toNat) (f.emin - f.fbits - 2)
    else .fin neg (4 * (2 ^ f.fbits + fr) + tail.toNat) (ex - f.bias - f.fbits - 2)

/-- The extended value of an integer element, whose ulp is 1 (R77). -/
def intXval (signed : Bool) (w : Nat) (bits : Nat) (tail : BitVec 2) : XVal :=
  let b := bits % 2 ^ w
  if signed && 2 ^ (w - 1) ≤ b then .fin true (4 * (2 ^ w - b) + tail.toNat) (-2)
  else .fin false (4 * b + tail.toNat) (-2)

/-- The extended value of an `.e8m0` element (R74). -/
def scaleXval (bits : Nat) (tail : BitVec 2) : XVal :=
  let b := bits % 256
  if b = 255 then .nan else .fin false (4 + tail.toNat) (b - 127 - 2)

/-- The extended value of an element of a type (R77, R78, R139). -/
def Ty.xval (t : Ty) (x : FElem) : XVal :=
  match t with
  | .int s w => intXval s w x.bits.toNat x.tail
  | .flt f => f.xval x.bits.toNat x.tail
  | .scale => scaleXval x.bits.toNat x.tail
  | .none => .nan

/-- The sign of an extended value; a NaN has none. -/
def XVal.neg : XVal → Bool
  | .nan => false
  | .inf n _ => n
  | .fin n _ _ => n

/-- Whether a value is an exact zero. -/
def XVal.isZero : XVal → Bool
  | .fin _ m _ => m = 0
  | _ => false

/-- The magnitude `m * 2^e` in units of `2^q`, rounded down, with whether it is exact. -/
def unitsFloor (m : Nat) (e q : Int) : Nat × Bool :=
  if q ≤ e then (m * 2 ^ (e - q).toNat, true)
  else
    let n := m >>> (q - e).toNat
    (n, n <<< (q - e).toNat == m)

/-- `m1 * 2^e1 ≤ m2 * 2^e2`. -/
def magLe (m1 : Nat) (e1 : Int) (m2 : Nat) (e2 : Int) : Bool :=
  if e1 ≤ e2 then m1 ≤ m2 * 2 ^ (e2 - e1).toNat else m1 * 2 ^ (e1 - e2).toNat ≤ m2

/-- floor(log2 (m * 2^e)) for a nonzero magnitude. -/
def magLog2 (m : Nat) (e : Int) : Int := (Nat.log2 m : Int) + e

/-- M(F) + ulp(M(F)), the overflow point, as a magnitude (R79, R82). -/
def Fmt.ov (f : Fmt) : Nat × Int :=
  let ex := f.maxEnc / 2 ^ f.fbits
  (2 ^ f.fbits + f.maxEnc % 2 ^ f.fbits + 1, ex - f.bias - f.fbits)

/-- An encoding with a sign. -/
def Fmt.signed (f : Fmt) (neg : Bool) (mag : Nat) : DWord := BitVec.ofNat 64 (mag + if neg then f.signBit else 0)

/-- The default NaN as a result (R80). -/
def Fmt.nanRes (f : Fmt) (flags : BitVec 6) : FRes := ⟨BitVec.ofNat 64 f.nanEnc, 0, flags⟩

/-- Rounding to odd onto a format's grid two bits finer than its precision (R79). An overflowed infinity keeps its
tail 01 (R80); a format without infinities takes M with tail 11. -/
def Fmt.ro (f : Fmt) (x : XVal) (flags : BitVec 6) : FRes :=
  match x with
  | .nan => f.nanRes flags
  | .inf neg ovf =>
    if f.hasInf then ⟨f.signed neg f.infEnc, if ovf then 1 else 0, flags⟩ else ⟨f.signed neg f.maxEnc, 3, flags⟩
  | .fin neg m e =>
    if m = 0 then ⟨f.signed neg 0, 0, flags⟩
    else if magLe f.ov.1 f.ov.2 m e then
      if f.hasInf then ⟨f.signed neg f.infEnc, 1, flags⟩ else ⟨f.signed neg f.maxEnc, 3, flags⟩
    else
      let ex := max (magLog2 m e) f.emin
      let (n, exact) := unitsFloor m e (ex - f.fbits - 2)
      let n := if exact then n else n ||| 1
      ⟨f.signed neg ((ex - f.emin).toNat * 2 ^ f.fbits + n / 4), BitVec.ofNat 2 n, flags⟩

/-! ### Exact operations with their special cases (R80, R133, R134) -/

/-- A value with the flags an operation raises. -/
structure XRes where
  val   : XVal
  flags : BitVec 6
  deriving DecidableEq, Repr

/-- Exact sum of two finite values; an exact zero sum is +0 unless both are -0 (R80). -/
def finAdd (n1 : Bool) (m1 : Nat) (e1 : Int) (n2 : Bool) (m2 : Nat) (e2 : Int) : XVal :=
  let e := min e1 e2
  let a := m1 * 2 ^ (e1 - e).toNat
  let b := m2 * 2 ^ (e2 - e).toNat
  if n1 = n2 then .fin n1 (a + b) e
  else if a = b then .fin false 0 e
  else if b < a then .fin n1 (a - b) e
  else .fin n2 (b - a) e

/-- Exact addition (R80, R133). -/
def xAdd (x y : XVal) : XRes :=
  match x, y with
  | .nan, _ => ⟨.nan, 0⟩
  | _, .nan => ⟨.nan, 0⟩
  | .inf n1 o1, .inf n2 o2 =>
    if n1 = n2 then ⟨.inf n1 (o1 && o2), 0⟩
    else if o1 = o2 then ⟨.nan, fNV⟩
    else if o1 then ⟨.inf n2 false, 0⟩ else ⟨.inf n1 false, 0⟩
  | .inf n o, .fin _ _ _ => ⟨.inf n o, 0⟩
  | .fin _ _ _, .inf n o => ⟨.inf n o, 0⟩
  | .fin n1 m1 e1, .fin n2 m2 e2 => ⟨finAdd n1 m1 e1 n2 m2 e2, 0⟩

/-- The negative of a value. -/
def XVal.negate : XVal → XVal
  | .nan => .nan
  | .inf n o => .inf (!n) o
  | .fin n m e => .fin (!n) m e

/-- Exact subtraction (R133). -/
def xSub (x y : XVal) : XRes := xAdd x y.negate

/-- Exact multiplication (R80, R133). -/
def xMul (x y : XVal) : XRes :=
  match x, y with
  | .nan, _ => ⟨.nan, 0⟩
  | _, .nan => ⟨.nan, 0⟩
  | .inf n1 o1, .inf n2 o2 => ⟨.inf (n1 != n2) (o1 && o2), 0⟩
  | .inf n1 o, .fin n2 m _ => if m = 0 then ⟨.nan, fNV⟩ else ⟨.inf (n1 != n2) o, 0⟩
  | .fin n1 m _, .inf n2 o => if m = 0 then ⟨.nan, fNV⟩ else ⟨.inf (n1 != n2) o, 0⟩
  | .fin n1 m1 e1, .fin n2 m2 e2 => ⟨.fin (n1 != n2) (m1 * m2) (e1 + e2), 0⟩

/-- Exact `x * y + z` with one rounding to come (R81, R133). -/
def xFma (x y z : XVal) : XRes :=
  let p := xMul x y
  match z with
  | .nan => ⟨.nan, p.flags⟩
  | _ =>
    let s := xAdd p.val z
    ⟨s.val, p.flags ||| s.flags⟩

/-- A quotient or root rounded to odd far below any grid: append a bit that says whether anything was left. -/
def sticky (n : Nat) (exact : Bool) : Nat := 2 * n + if exact then 0 else 1

/-- The quotient of two nonzero magnitudes, to more than 70 bits and a sticky bit. -/
def finDiv (neg : Bool) (m1 : Nat) (e1 : Int) (m2 : Nat) (e2 : Int) : XVal :=
  let k := Nat.log2 m2 + 72
  let n := (m1 <<< k) / m2
  .fin neg (sticky n (n * m2 == m1 <<< k)) (e1 - e2 - k - 1)

/-- Division (R133). -/
def xDiv (x y : XVal) : XRes :=
  match x, y with
  | .nan, _ => ⟨.nan, 0⟩
  | _, .nan => ⟨.nan, 0⟩
  | .inf n1 o1, .inf n2 o2 =>
    if o1 = o2 then ⟨.nan, fNV⟩
    else if o2 then ⟨.inf (n1 != n2) false, 0⟩
    else ⟨.fin (n1 != n2) 0 0, 0⟩
  | .inf n1 o, .fin n2 _ _ => ⟨.inf (n1 != n2) o, 0⟩
  | .fin n1 m _, .inf n2 o =>
    -- a nonzero finite value divided by an overflowed infinity is a zero with tail 01: below every quarter-ulp
    if o && m ≠ 0 then ⟨.fin (n1 != n2) 1 (-100000), 0⟩ else ⟨.fin (n1 != n2) 0 0, 0⟩
  | .fin n1 m1 e1, .fin n2 m2 e2 =>
    if m2 = 0 then
      if m1 = 0 then ⟨.nan, fNV⟩ else ⟨.inf (n1 != n2) false, fDZ⟩
    else if m1 = 0 then ⟨.fin (n1 != n2) 0 0, 0⟩
    else ⟨finDiv (n1 != n2) m1 e1 m2 e2, 0⟩

/-- The integer square root of `n`, one bit of the root at a time from bit `k - 1` down. -/
def isqrtBits (n : Nat) : Nat → Nat → Nat
  | 0, r => r
  | k + 1, r => isqrtBits n k (if (r + 2 ^ k) * (r + 2 ^ k) ≤ n then r + 2 ^ k else r)

/-- floor of the square root. -/
def isqrt (n : Nat) : Nat := isqrtBits n (Nat.log2 n / 2 + 1) 0

/-- The square root of a nonzero magnitude, to more than 70 bits and a sticky bit. -/
def finSqrt (m : Nat) (e : Int) : XVal :=
  let k := 150 + (e % 2).toNat
  let n := isqrt (m <<< k)
  .fin false (sticky n (n * n == m <<< k)) ((e - k) / 2 - 1)

/-- Square root (R133). -/
def xSqrt (x : XVal) : XRes :=
  match x with
  | .nan => ⟨.nan, 0⟩
  | .inf n o => if n then ⟨.nan, fNV⟩ else ⟨.inf false o, 0⟩
  | .fin n m e =>
    if m = 0 then ⟨.fin n 0 0, 0⟩
    else if n then ⟨.nan, fNV⟩
    else ⟨finSqrt m e, 0⟩

/-- The order of extended values with -0 below +0 (R134): `x < y`. Neither is NaN. -/
def xLt (x y : XVal) : Bool :=
  match x, y with
  | .nan, _ => false
  | _, .nan => false
  | .inf n1 o1, .inf n2 o2 =>
    -- the overflowed infinity lies nearer zero than the exact one of its sign
    if n1 = n2 then (if n1 then !o1 && o2 else o1 && !o2) else n1
  | .inf n _, .fin _ _ _ => n
  | .fin _ _ _, .inf n _ => !n
  | .fin n1 m1 e1, .fin n2 m2 e2 =>
    if n1 = n2 then (if n1 then !magLe m1 e1 m2 e2 else !magLe m2 e2 m1 e1) else n1

/-- `FCMP`'s order: as `xLt`, but two exact zeros are equal (R135). -/
def xCmpLt (x y : XVal) : Bool := if x.isZero && y.isZero then false else xLt x y

/-- The relation code of R135. -/
def fcmpCode (x y : XVal) : Nat :=
  if x = .nan || y = .nan then 8 else if xCmpLt x y then 2 else if xCmpLt y x then 4 else 1

/-- `FMIN` (`greater` false) and `FMAX` of two elements of a format (R134): one of the operands with its tail. -/
def fMinMax (f : Fmt) (greater : Bool) (a b : FElem) : FRes :=
  let x := f.xval a.bits.toNat a.tail
  let y := f.xval b.bits.toNat b.tail
  let keep (z : FElem) : FRes := ⟨BitVec.ofNat 64 (z.bits.toNat % 2 ^ f.width), z.tail, 0⟩
  if x = .nan && y = .nan then f.nanRes 0
  else if x = .nan then keep b
  else if y = .nan then keep a
  else if greater then (if xLt x y then keep b else keep a)
  else (if xLt y x then keep b else keep a)

/-- `FABS` and `FNEG`: only the sign bit changes, and the tail is kept; a NaN gives the default NaN (R133, R134). -/
def fSign (f : Fmt) (negate : Bool) (a : FElem) : FRes :=
  let b := a.bits.toNat % 2 ^ f.width
  let mag := b % f.signBit
  if f.xval b a.tail = .nan then f.nanRes 0
  else ⟨f.signed (negate && b < f.signBit) mag, a.tail, 0⟩

/-- The class word of R137. -/
def fClass (f : Fmt) (a : FElem) : Nat :=
  let b := a.bits.toNat % 2 ^ f.width
  let neg := f.signBit ≤ b
  let mag := b % f.signBit
  match f.xval b a.tail with
  | .nan => 2 ^ 8
  | .inf n o => if n then (if o then 2 ^ 9 else 2 ^ 0) else (if o then 2 ^ 10 else 2 ^ 7)
  | .fin _ _ _ =>
    let cls := if mag = 0 then (if neg then 3 else 4)
      else if mag < 2 ^ f.fbits then (if neg then 2 else 5)
      else (if neg then 1 else 6)
    2 ^ cls + if a.tail = 0 then 0 else 2 ^ 11

/-! ### The keyed generator (R97) -/

/-- One round of KG. -/
def kgRound (x k : Word) : Word :=
  let y := (x ^^^ k) * 0x01000193#32
  y ^^^ y.rotateLeft 13

/-- KG(seed, index, salt) (R97). -/
def kg (seed index salt : Word) : Word :=
  let k := seed ^^^ salt.rotateLeft 16
  kgRound (kgRound index k) (k + 0x9E3779B9#32)

/-! ### Final rounding (R82 to R86) -/

/-- The rounding modes of R35; 7 is never held. -/
inductive Mode where
  | rne | rtz | rup | rdn | rna | sr | keepOdd
  deriving DecidableEq, Repr

/-- `fcr.mode` (R35). -/
def modeOf (fcr : Word) : Mode :=
  match (fcr.extractLsb' 0 3).toNat with
  | 0 => .rne
  | 1 => .rtz
  | 2 => .rup
  | 3 => .rdn
  | 4 => .rna
  | 5 => .sr
  | _ => .keepOdd

/-- `fcr.ftz` (R35). -/
def ftzOf (fcr : Word) : Bool := fcr.getLsbD 4

/-- `fcr.seed`, zero-extended (R35, R99). -/
def seedOf (fcr : Word) : Word := (fcr.extractLsb' 8 24).zeroExtend 32

/-- The low 16 bits of KG under the key of R99. -/
def srDraw (fcr index salt : Word) : Nat := (kg (seedOf fcr) index salt).toNat % 2 ^ 16

/-- The salt of R99: tail, type code of the destination, position. -/
def srSalt (tail : BitVec 2) (type : BitVec 5) (pos : Nat) : Word :=
  BitVec.ofNat 32 (tail.toNat * 2 ^ 16 + type.toNat * 2 ^ 8 + pos)

/-- The index of R99 for a source element of a type: its bits, a 64-bit element as low word XOR high word. The low bits of
a narrow signed integer are zero-extended as R99 says of a narrow value, though its register element holds them
sign-extended (DEDUCED, entry 62). -/
def srIndex (t : Ty) (x : FElem) : Word :=
  if t.width = 64 then x.bits.setWidth 32 ^^^ (x.bits >>> 32).setWidth 32
  else BitVec.ofNat 32 (x.bits.toNat % 2 ^ t.width)

/-- frac16 of a remainder `r` of a unit of `u` parts (R82). -/
def frac16 (r u : Nat) : Nat :=
  let f := r * 2 ^ 16 / u
  if f * u = r * 2 ^ 16 then f else f ||| 1

/-- Whether final rounding goes to `hi` when `a` lies strictly between `lo` and `hi`: `r` of `u` parts above `lo`, and
`odd` the last significand bit of `lo` (R82). -/
def roundsUp (mode : Mode) (neg odd : Bool) (r u draw : Nat) : Bool :=
  match mode with
  | .rne => u < 2 * r || (2 * r = u && odd)
  | .rna => u ≤ 2 * r
  | .rtz => false
  | .rup => !neg
  | .rdn => neg
  | .sr => 2 ^ 16 ≤ frac16 r u + draw
  | .keepOdd => !odd

/-- What FINAL reads of `fcr`, with the SR draw of R99. -/
structure FinalCtl where
  mode : Mode
  ftz  : Bool
  draw : Nat
  deriving DecidableEq, Repr

/-- A magnitude `m * 2^e` above a grid of quantum `2^q`: the units below it, the remainder and the unit, in common
parts. -/
def splitUnits (m : Nat) (e q : Int) : Nat × Nat × Nat :=
  if q ≤ e then (m * 2 ^ (e - q).toNat, 0, 1)
  else
    let u := 2 ^ (q - e).toNat
    (m / u, m % u, u)

/-- FINAL to a floating-point format (R82 to R84). `dropped` says that the source's tail was 01 or 11 (R83). -/
def Fmt.final (f : Fmt) (c : FinalCtl) (x : XVal) (dropped : Bool) : FRes :=
  match x with
  | .nan => if f.hasNan then f.nanRes 0 else ⟨0, 0, fNV⟩
  | .inf neg false => if f.hasInf then ⟨f.signed neg f.infEnc, 0, 0⟩ else ⟨f.signed neg f.maxEnc, 0, fOF ||| fNX⟩
  | .inf neg true =>
    let down := c.mode = .rtz || c.mode = .keepOdd || (c.mode = .rdn && !neg) || (c.mode = .rup && neg)
    ⟨f.signed neg (if down || !f.hasInf then f.maxEnc else f.infEnc), 0, fOF ||| fNX⟩
  | .fin neg m e =>
    if magLe f.ov.1 f.ov.2 m e then
      let down := c.mode = .rtz || c.mode = .keepOdd || (c.mode = .rdn && !neg) || (c.mode = .rup && neg)
      ⟨f.signed neg (if down || !f.hasInf then f.maxEnc else f.infEnc), 0, fOF ||| fNX⟩
    else if m = 0 then ⟨f.signed neg 0, 0, if dropped then fNX else 0⟩
    else
      let ex := max (magLog2 m e) f.emin
      let (n, r, u) := splitUnits m e (ex - f.fbits)
      let lo := (ex - f.emin).toNat * 2 ^ f.fbits + n
      let mag := if r = 0 then lo else if roundsUp c.mode neg (lo % 2 = 1) r u c.draw then lo + 1 else lo
      let flush := c.ftz && 0 < mag && mag < 2 ^ f.fbits
      let ovf := f.maxEnc < mag
      let inexact := r ≠ 0 || dropped || flush || ovf
      let tiny := !magLe (2 ^ f.fbits) (f.emin - f.fbits) m e
      let mag' := if flush then 0 else if ovf then (if f.hasInf then f.infEnc else f.maxEnc) else mag
      ⟨f.signed neg mag', 0,
        (if inexact then fNX else 0) ||| (if ovf then fOF else 0) |||
        (if (tiny && inexact) || flush then fUF else 0)⟩

/-- FINAL to an integer format (R85). -/
def intFinal (signed : Bool) (w : Nat) (c : FinalCtl) (x : XVal) (dropped : Bool) : FRes :=
  let hi := if signed then 2 ^ (w - 1) - 1 else 2 ^ w - 1
  let lo := if signed then 2 ^ (w - 1) else 0
  let neg2c (m : Nat) : DWord := BitVec.ofNat 64 ((2 ^ w - m) % 2 ^ w)
  match x with
  | .nan => ⟨0, 0, fNV⟩
  | .inf neg _ => if neg then ⟨neg2c lo, 0, fNV⟩ else ⟨BitVec.ofNat 64 hi, 0, fNV⟩
  | .fin neg m e =>
    let (n, r, u) := splitUnits m e 0
    let mag := if r = 0 then n else if roundsUp c.mode neg (n % 2 = 1) r u c.draw then n + 1 else n
    let nx := if r ≠ 0 || dropped then fNX else 0
    if neg then
      if m = 0 then ⟨0, 0, 0⟩
      else if mag = 0 then ⟨0, 0, fUF ||| fNX⟩
      else if lo < mag then ⟨neg2c lo, 0, fNV⟩
      else ⟨neg2c mag, 0, nx⟩
    else if hi < mag then ⟨BitVec.ofNat 64 hi, 0, fNV⟩
    else ⟨BitVec.ofNat 64 mag, 0, nx⟩

/-- FINAL to `.e8m0` (R86). -/
def scaleFinal (c : FinalCtl) (x : XVal) (dropped : Bool) : FRes :=
  match x with
  | .nan => ⟨0xFF, 0, fNV⟩
  | .inf neg _ => if neg then ⟨0xFF, 0, fNV⟩ else ⟨0xFE, 0, fOF ||| fNX⟩
  | .fin neg m e =>
    if m = 0 || neg then ⟨0xFF, 0, fNV⟩
    else
      let ex := magLog2 m e
      if ex < -127 then ⟨0, 0, fUF ||| fNX⟩
      else if 128 ≤ ex then ⟨0xFE, 0, fOF ||| fNX⟩
      else
        let (_, r, u) := splitUnits m e ex
        let lo := (ex + 127).toNat
        let mag := if r = 0 then lo else if roundsUp c.mode false (lo % 2 = 1) r u c.draw then lo + 1 else lo
        let nx := if r ≠ 0 || dropped || 254 < mag then fNX else 0
        if 254 < mag then ⟨0xFE, 0, fOF ||| nx⟩ else ⟨BitVec.ofNat 64 mag, 0, nx⟩

/-- Whether a tail marks a dropped sticky bit: 01 or 11 (R83). -/
def stkOf (t : BitVec 2) : Bool := t.getLsbD 0

/-- FINAL of an element of one type to another, under `fcr` and the SR position of R99. -/
def finalTo (src dst : Ty) (dstCode : BitVec 5) (fcr : Word) (pos : Nat) (x : FElem) : FRes :=
  let c : FinalCtl := ⟨modeOf fcr, ftzOf fcr, srDraw fcr (srIndex src x) (srSalt x.tail dstCode pos)⟩
  let v := src.xval x
  match dst with
  | .flt f => f.final c v (stkOf x.tail)
  | .int s w => intFinal s w c v (stkOf x.tail)
  | .scale => scaleFinal c v (stkOf x.tail)
  | .none => ⟨0, 0, 0⟩

/-! ### Non-final conversions (R87, R139) -/

/-- FINAL under RTZ with no flush, as R87 uses it where a source cannot be held. -/
def rtzCtl : FinalCtl := ⟨.rtz, false, 0⟩

/-- `CVT` to a floating-point format (R87). -/
def cvtFlt (f : Fmt) (x : XVal) : FRes :=
  match x with
  | .nan => f.final rtzCtl .nan false
  | .inf neg false => f.final rtzCtl (.inf neg false) false
  | v => f.ro v 0

/-- `CVT` to an integer format: the magnitude truncated, with two fraction bits rounded to odd as the tail (R87). -/
def cvtInt (signed : Bool) (w : Nat) (x : XVal) : FRes :=
  match x with
  | .fin neg m e =>
    let (q, exact) := unitsFloor m e (-2)
    let q := if exact then q else q ||| 1
    let n := q / 4
    let fits := if neg then signed && n ≤ 2 ^ (w - 1) && (n ≠ 0 || m = 0) else n < (if signed then 2 ^ (w - 1) else 2 ^ w)
    if m = 0 then ⟨0, 0, 0⟩
    else if fits then ⟨BitVec.ofNat 64 (if neg then 2 ^ w - n else n), BitVec.ofNat 2 q, 0⟩
    else { intFinal signed w rtzCtl x false with tail := 0 }
  | v => intFinal signed w rtzCtl v false

/-- `CVT` to `.e8m0`: rounded to odd on the powers of two with p = 1 (R139). An overflowed positive infinity is a finite
overflow, as R87 says of every format without infinities; R139's "infinite" is the exact one (DEDUCED, entry 60). -/
def cvtScale (x : XVal) : FRes :=
  match x with
  | .inf false true => ⟨0xFE, 3, 0⟩
  | .fin false m e =>
    if m = 0 then scaleFinal rtzCtl x false
    else
      let ex := magLog2 m e
      if ex < -127 then scaleFinal rtzCtl x false
      else if 128 ≤ ex then ⟨0xFE, 3, 0⟩
      else
        let (n, exact) := unitsFloor m e (ex - 2)
        let n := if exact then n else n ||| 1
        ⟨BitVec.ofNat 64 (ex + 127).toNat, BitVec.ofNat 2 n, 0⟩
  | v => scaleFinal rtzCtl v false

/-- The non-final conversion of R87 between two types; with one type twice the element is unchanged, a NaN with its
payload and tail among them: R139 says so of this form, R80 of NaN results in general (DEDUCED, entry 61). -/
def cvtTo (src dst : Ty) (x : FElem) : FRes :=
  if src = dst then ⟨BitVec.ofNat 64 (x.bits.toNat % 2 ^ src.width), x.tail, 0⟩
  else
    let v := src.xval x
    match dst with
    | .flt f => cvtFlt f v
    | .int s w => cvtInt s w v
    | .scale => cvtScale v
    | .none => ⟨0, 0, 0⟩

/-- The largest integer that is a value of a format (the largest grid point of `FRND`). -/
def Fmt.maxInt (f : Fmt) : Nat :=
  let ex := f.maxEnc / 2 ^ f.fbits
  (unitsFloor (2 ^ f.fbits + f.maxEnc % 2 ^ f.fbits) (ex - f.bias - f.fbits) 0).1

/-- The encoding of an integer that is a value of the format. -/
def Fmt.ofInt (f : Fmt) (n : Nat) : Nat :=
  if n = 0 then 0
  else
    let ex := max (magLog2 n 0) f.emin
    (ex - f.emin).toNat * 2 ^ f.fbits + (unitsFloor n 0 (ex - f.fbits)).1

/-- `FRND`: FINAL on the integers of the format (R139). -/
def frndTo (f : Fmt) (code : BitVec 5) (fcr : Word) (pos : Nat) (x : FElem) : FRes :=
  let c : FinalCtl := ⟨modeOf fcr, ftzOf fcr, srDraw fcr (srIndex (.flt f) x) (srSalt x.tail code pos)⟩
  match f.xval x.bits.toNat x.tail with
  | .nan => f.nanRes 0
  | .inf neg ovf => f.final c (.inf neg ovf) (stkOf x.tail)
  | .fin neg m e =>
    if magLe (2 ^ (f.p - 1)) 0 m e then
      ⟨BitVec.ofNat 64 (x.bits.toNat % 2 ^ f.width), 0, if x.tail = 0 then 0 else fNX⟩
    else
      let (n, r, u) := splitUnits m e 0
      let mag := if r = 0 then n else if roundsUp c.mode neg (n % 2 = 1) r u c.draw then n + 1 else n
      let ovf := f.maxInt < mag
      let inexact := r ≠ 0 || stkOf x.tail || ovf
      let tiny := m ≠ 0 && !magLe (2 ^ f.fbits) (f.emin - f.fbits) m e
      ⟨f.signed neg (f.ofInt (min mag f.maxInt)), 0,
        (if inexact then fNX else 0) ||| (if ovf then fOF else 0) ||| (if tiny && inexact then fUF else 0)⟩

end Sys2Proof.Machine
end

