-- ==== Sys2Proof/Machine/Ops.lean ====
section
/-!
DEFINITION. The named operations over storage, registers, queues and slots, and taking a fault.
Every meaning of an instruction is written with these.
-/

namespace Sys2Proof

/-! ### Capability fields (R246) -/

/-- Base address. -/
def Cap.base (c : Cap) : Nat := (c.bits.extractLsb' 0 52).toNat
/-- Length in bytes. -/
def Cap.len (c : Cap) : Nat := (c.bits.extractLsb' 52 50).toNat
/-- The seven permission bits. -/
def Cap.perm (c : Cap) : BitVec 7 := c.bits.extractLsb' 102 7
/-- Address space. -/
def Cap.space (c : Cap) : Nat := (c.bits.extractLsb' 109 3).toNat
/-- Tenant domain. -/
def Cap.dom (c : Cap) : Nat := (c.bits.extractLsb' 112 16).toNat
/-- A capability from its fields. -/
def Cap.make (tag : Bool) (dom space : Nat) (perm : BitVec 7) (len base : Nat) : Cap :=
  ⟨tag, BitVec.ofNat 16 dom ++ BitVec.ofNat 3 space ++ perm ++ BitVec.ofNat 50 len ++ BitVec.ofNat 52 base⟩

end Sys2Proof

namespace Sys2Proof.Machine

/-! ### Keyed lists -/

/-- The value at a key of a rising list. -/
def look {α : Type} : List (Nat × α) → Nat → Option α
  | [], _ => none
  | (k, v) :: rest, a => if k = a then some v else look rest a

/-- A rising list with the value at a key replaced or inserted. -/
def put {α : Type} : List (Nat × α) → Nat → α → List (Nat × α)
  | [], a, x => [(a, x)]
  | (k, v) :: rest, a, x =>
    if a < k then (a, x) :: (k, v) :: rest
    else if k = a then (a, x) :: rest
    else (k, v) :: put rest a x

/-- A keyed list without a key. -/
def drop {α : Type} (l : List (Nat × α)) (a : Nat) : List (Nat × α) := l.filter (fun c => c.1 != a)

/-- A rising list of numbers with one added. -/
def addNum : List Nat → Nat → List Nat
  | [], a => [a]
  | k :: rest, a => if a < k then a :: k :: rest else if k = a then k :: rest else k :: addNum rest a

/-- A list of numbers without one. -/
def delNum (l : List Nat) (a : Nat) : List Nat := l.filter (· != a)

/-! ### Storage (R5, R251, R400) -/

/-- The byte at an address. -/
def Memory.read (m : Memory) (a : Nat) : Byte := (look m a).getD Memory.unlisted

/-- A byte written: writing what an unlisted address reads as removes the entry. -/
def Memory.write (m : Memory) (a : Nat) (x : Byte) : Memory :=
  if x = Memory.unlisted then drop m a else put m a x

/-- `n` bytes from an address up. -/
def Memory.readN (m : Memory) (a : Nat) : Nat → List Byte
  | 0 => []
  | n + 1 => m.read a :: Memory.readN m (a + 1) n

/-- Bytes written from an address up. -/
def Memory.writeN (m : Memory) (a : Nat) : List Byte → Memory
  | [] => m
  | x :: rest => Memory.writeN (m.write a x) (a + 1) rest

/-- The little-endian value of bytes (R5). -/
def leValue : List Byte → Nat
  | [] => 0
  | x :: rest => x.toNat + 256 * leValue rest

/-- The `n` little-endian bytes of a value (R5). -/
def leBytes : Nat → Nat → List Byte
  | 0, _ => []
  | n + 1, x => BitVec.ofNat 8 x :: leBytes n (x / 256)

/-- The granules of 16 bytes that `n` bytes from `a` touch. -/
def granules (a n : Nat) : List Nat :=
  if n = 0 then [] else (List.range ((a + n - 1) / 16 - a / 16 + 1)).map (· + a / 16)

/-- Tags with granules cleared (R163). -/
def Tags.clear (t : Tags) (gs : List Nat) : Tags := t.filter (fun g => !gs.contains g)

/-- Tags with one granule's tag set to a value. -/
def Tags.put (t : Tags) (g : Nat) (x : Bool) : Tags := if x then addNum t g else delNum t g

/-! ### Parts of the state -/

/-- A core by its name. -/
def State.core (s : State) (c : Nat) : Core := (look s.cores c).getD (Core.initial c)

/-- The state with a core replaced. -/
def State.setCore (s : State) (c : Nat) (x : Core) : State := { s with cores := put s.cores c x }

/-- The state with a core changed. -/
def State.updCore (s : State) (c : Nat) (f : Core → Core) : State := s.setCore c (f (s.core c))

/-- A package by its index; one that nothing has touched is a raised package whose counter runs with the others. -/
def State.pkg (s : State) (p : Nat) : Package := (look s.pkgs p).getD { Package.initial with ptc := s.now }

/-- The state with a package replaced. -/
def State.setPkg (s : State) (p : Nat) (x : Package) : State := { s with pkgs := put s.pkgs p x }

/-- The state with a package changed. -/
def State.updPkg (s : State) (p : Nat) (f : Package → Package) : State := s.setPkg p (f (s.pkg p))

/-- A slot of a core. -/
def Core.slot (c : Core) (n : Fin 8) : Slot := c.slots[n]

/-- A core with a slot replaced. -/
def Core.setSlot (c : Core) (n : Fin 8) (x : Slot) : Core := { c with slots := c.slots.set n x }

/-- A slot by core name and number. -/
def State.slot (s : State) (c : Nat) (n : Fin 8) : Slot := (s.core c).slot n

/-- The state with a slot replaced. -/
def State.setSlot (s : State) (c : Nat) (n : Fin 8) (x : Slot) : State := s.updCore c (fun k => k.setSlot n x)

/-- The state with a slot changed. -/
def State.updSlot (s : State) (c : Nat) (n : Fin 8) (f : Slot → Slot) : State := s.setSlot c n (f (s.slot c n))

/-- The slot of the thread that issues. -/
def State.me (s : State) : Slot := s.slot s.curCore s.curSlot

/-- The state with the issuing thread's slot changed. -/
def State.updMe (s : State) (f : Slot → Slot) : State := s.updSlot s.curCore s.curSlot f

/-- The issuing thread's registers. -/
def State.regs (s : State) : Regs := s.me.regs

/-- The state with the issuing thread's registers replaced. -/
def State.setRegs (s : State) (r : Regs) : State := s.updMe (fun t => { t with regs := r })

/-- The core the issuing thread acts as a thread of (R217). -/
def State.home (s : State) : Nat := s.me.home

/-- The package of a core name (R13). -/
def pkgOf (c : Nat) : Nat := c / 2 ^ 15

/-- Whether a core's image lies in the context area: its state is that image until it is written back (R302, R303). -/
def State.saved (s : State) (c : Nat) : Bool := (look (s.pkg (pkgOf c)).contexts c).isSome

/-- The logical die of a core name (R13). -/
def dieOf (c : Nat) : Nat := c / 2 ^ 12 % 8

/-- The quad index of a core name (R13). -/
def quadOf (c : Nat) : Nat := c / 4 % 1024

/-- The package, die and quad of a core name as one number: the stop that serves it. -/
def stopOf (c : Nat) : Nat := c / 4

/-- The instance of a scope that contains a core (R11, R12): core, quad, die, package, pod. -/
def instanceOf (level c : Nat) : Nat :=
  match level with
  | 1 => c
  | 2 => c / 4
  | 3 => c / 2 ^ 12
  | 4 => c / 2 ^ 15
  | _ => 0

/-- Whether a 32-bit core name obeys R13. -/
def State.goodName (s : State) (n : Nat) : Bool := decide (n < 2 ^ 26) && decide (pkgOf n < s.podSize)

/-- The chain position of a core (R14). -/
def chainPos (c : Nat) : Nat :=
  let row := c / 128 % 32
  let col := c / 4 % 32
  4 * (row * 32 + if row % 2 = 0 then col else 31 - col) + c % 4

/-- The core at a chain position of the die that a core lies on (R14). -/
def chainCore (c pos : Nat) : Nat :=
  let p := pos / 4
  let row := p / 32
  let col := if row % 2 = 0 then p % 32 else 31 - p % 32
  c / 4096 * 4096 + row * 128 + col * 4 + pos % 4

/-- The downstream neighbour (R14). -/
def downstream (c : Nat) : Nat := chainCore c (chainPos c + 1)

/-- The package time counter of the issuing core's package (R122). -/
def State.ptc (s : State) : BitVec 64 := (s.pkg (pkgOf s.curCore)).ptc

/-! ### Registers (R19 to R25, R29, R31) -/

/-- Scalar register `n` as an element: `s0` reads zero, `s28` and `s29` read the next word of their port buffers. -/
def Regs.get (r : Regs) (n : BitVec 5) : Elem :=
  if n = 0 then Elem.zero
  else if n = 28 then ⟨r.qrx.headD 0, 0⟩
  else if n = 29 then ⟨r.qup.headD 0, 0⟩
  else r.s[n.toNat]'n.isLt

/-- Scalar register `n` written: `s0` discards, `s30` is the next word for `qdn`. -/
def Regs.put (r : Regs) (n : BitVec 5) (x : Elem) : Regs :=
  if n = 0 then r
  else if n = 30 then { r with qdn := r.qdn ++ [x.val] }
  else { r with s := r.s.set n.toNat x n.isLt }

/-- The value of scalar register `n` (R44). -/
def Regs.val (r : Regs) (n : BitVec 5) : Word := (r.get n).val

/-- An integer-class write: tail 00 (R29). -/
def Regs.setVal (r : Regs) (n : BitVec 5) (x : Word) : Regs := r.put n ⟨x, 0⟩

/-- The value of the pair whose even register is `n` (R21). -/
def Regs.pair (r : Regs) (n : BitVec 5) : DWord := r.val (n + 1) ++ r.val n

/-- An integer-class write of a pair (R21). -/
def Regs.setPair (r : Regs) (n : BitVec 5) (x : DWord) : Regs :=
  (r.setVal n (x.setWidth 32)).setVal (n + 1) (x.extractLsb' 32 32)

/-- A pair as an element: its tail is the tail of the high register (R21). -/
def Regs.pairElem (r : Regs) (n : BitVec 5) : FElem := ⟨r.pair n, (r.get (n + 1)).tail⟩

/-- A floating-point write of a pair (R21). -/
def Regs.setPairElem (r : Regs) (n : BitVec 5) (x : DWord) (t : BitVec 2) : Regs :=
  (r.put n ⟨x.setWidth 32, 0⟩).put (n + 1) ⟨x.extractLsb' 32 32, t⟩

/-- Lane `i` of vector register `n` (R22). -/
def Regs.lane (r : Regs) (n : BitVec 5) (i : Fin 8) : Elem :=
  (r.v[(n.setWidth 4).toNat]'(n.setWidth 4).isLt)[i]

/-- A vector register. -/
def Regs.vec (r : Regs) (n : BitVec 5) : Vector Elem 8 := r.v[(n.setWidth 4).toNat]'(n.setWidth 4).isLt

/-- A vector register written whole. -/
def Regs.setVec (r : Regs) (n : BitVec 5) (x : Vector Elem 8) : Regs :=
  { r with v := r.v.set (n.setWidth 4).toNat x (n.setWidth 4).isLt }

/-- Element `i` of a vector in 64-bit form (R22). -/
def elem64 (v : Vector Elem 8) (i : Fin 4) : FElem :=
  ⟨v[2 * i.val + 1].val ++ v[2 * i.val].val, v[2 * i.val + 1].tail⟩

/-- A vector from four 64-bit elements (R22). -/
def ofElem64 (f : Fin 4 → FElem) : Vector Elem 8 :=
  Vector.ofFn fun i =>
    let x := f ⟨i.val / 2, by omega⟩
    if i.val % 2 = 0 then ⟨x.bits.setWidth 32, 0⟩ else ⟨x.bits.extractLsb' 32 32, x.tail⟩

/-- Mask register `n`: `k0` reads all ones (R23). -/
def Regs.mask (r : Regs) (n : BitVec 3) : BitVec 8 := if n = 0 then 0xFF else r.k[n.toNat]'n.isLt

/-- Mask register `n` written: `k0` discards (R23). -/
def Regs.setMask (r : Regs) (n : BitVec 3) (x : BitVec 8) : Regs :=
  if n = 0 then r else { r with k := r.k.set n.toNat x n.isLt }

/-- Extension register `n` (R24). -/
def Regs.ext (r : Regs) (n : BitVec 3) : Word := r.e[n.toNat]'n.isLt

/-- Extension register `n` written (R24). -/
def Regs.setExt (r : Regs) (n : BitVec 3) (x : Word) : Regs := { r with e := r.e.set n.toNat x n.isLt }

/-- Capability register `n`: `c0` is null (R25). -/
def Regs.cap (r : Regs) (n : BitVec 3) : Cap := if n = 0 then nullCap else r.c[n.toNat]'n.isLt

/-- Capability register `n` written: `c0` discards (R25). -/
def Regs.setCap (r : Regs) (n : BitVec 3) (x : Cap) : Regs :=
  if n = 0 then r else { r with c := r.c.set n.toNat x n.isLt }

/-- The program counter advanced by an instruction's length. -/
def Regs.advance (r : Regs) (len : Nat) : Regs := { r with pc := r.pc + BitVec.ofNat 32 len }

/-- Sticky flags set (R36). -/
def Regs.raise (r : Regs) (f : BitVec 6) : Regs := { r with tst := r.tst ||| f.zeroExtend 32 }

/-- Whether one of the sources is a port register. -/
def usesPort (n : BitVec 5) (srcs : List (BitVec 5)) : Bool := srcs.contains n

/-- The port words an instruction read are consumed when it completes (R31 to R33). -/
def Regs.consume (r : Regs) (srcs : List (BitVec 5)) : Regs :=
  { r with
    qrx := if usesPort 28 srcs then r.qrx.drop 1 else r.qrx
    qup := if usesPort 29 srcs then r.qup.drop 1 else r.qup }

/-! ### Spaces (R246) -/

/-- LOCAL space. -/
def spLOCAL : Nat := 0
/-- WINDOW space. -/
def spWINDOW : Nat := 1
/-- GLOBAL space. -/
def spGLOBAL : Nat := 2
/-- HOST space. -/
def spHOST : Nat := 3
/-- CTRL space. -/
def spCTRL : Nat := 4

/-! ### Faults (R38, R291 to R294) -/

/-- A precise fault: its class, detail, address and scope (R38). -/
structure FaultInfo where
  cls    : BitVec 8
  detail : BitVec 8
  addr   : DWord
  scope  : BitVec 3
  deriving DecidableEq, Repr

/-- `trap(class, detail, addr)` of R44, with scope code 0. -/
def mkFault (cls detail : BitVec 8) (addr : DWord) : FaultInfo := ⟨cls, detail, addr, 0⟩

/-- Why an instruction did not complete: it takes a fault, or it waits in the state given. -/
inductive Stop where
  | trap (s : State) (f : FaultInfo)
  | wait (s : State)
  deriving DecidableEq, Repr

/-- How the body of an instruction ends. -/
abbrev Run := Except Stop State

/-- The `fault.cause` word of R38. -/
def causeWord (cls detail : BitVec 8) (gang : Bool) (scope : BitVec 3) : Word :=
  cls ++ detail ++ 0#12 ++ (if gang then 1#1 else 0#1) ++ scope

/-- The 16 bytes of a fault peg (R292). -/
def FaultPeg.words (p : FaultPeg) : Entry :=
  p.addr ++ p.pc ++ p.cls ++ p.detail ++ (if p.gang then 1#1 else 0#1) ++ p.svc ++ 0#2 ++ p.gen ++
    BitVec.ofNat 3 p.slot.val

/-- Whether a core binds a handler stage (R274). -/
def Core.hasHandler (c : Core) : Bool := c.stages.toList.any (fun g => g.bits.getLsbD 31 && g.bits.getLsbD 30)

/-- The handler tenant of a core, if it binds a handler stage (R274). -/
def Core.handlerTenant (c : Core) : Option Nat :=
  (c.stages.toList.find? (fun g => g.bits.getLsbD 31 && g.bits.getLsbD 30)).map (·.tenant)

/-- Whether a core holds a stage of a tenant (R183). -/
def Core.holdsStage (c : Core) (ten : Nat) : Bool :=
  c.stages.toList.any (fun g => g.bits.getLsbD 31 && g.tenant == ten)

/-- The free count of a queue (R277). -/
def Queue.free (q : Queue) : Nat := 16 - q.entries.length - q.reserved

/-- Queue number `q` of a core. -/
def Core.queue (c : Core) (q : Nat) : Queue := c.queues[q % 8]

/-- A core with a queue replaced. -/
def Core.setQueue (c : Core) (q : Nat) (x : Queue) : Core := { c with queues := c.queues.set (q % 8) x }

/-- `orph` of a core raised by a number, saturating (R42). -/
def Core.orphan (c : Core) (n : Nat) : Core :=
  { c with orph := BitVec.ofNat 32 (min (c.orph.toNat + n) 0xFFFFFFFF) }

/-- Whether a peg waits for queue 7 in a slot below one: the lowest goes first (R294). -/
def Core.pegWaits (c : Core) (n : Fin 8) : Bool :=
  (List.finRange 8).any fun m => decide (m < n) && ((c.slot m).peg matches some (.slot _))

/-- A fault peg enters queue 7 when it has room and no lower slot's peg waits; otherwise it waits in its slot (R294). -/
def State.deliverPeg (s : State) (c : Nat) (n : Fin 8) (p : FaultPeg) : State :=
  let k := s.core c
  let q := k.queue 7
  if q.free = 0 || k.pegWaits n then s.updSlot c n (fun t => { t with peg := some (.slot p) })
  else (s.setCore c (k.setQueue 7 { q with entries := q.entries ++ [⟨p.words, none⟩] })).updSlot c n
    (fun t => { t with peg := none })

/-- Where a fault peg goes first (R293): to the service OS for page and poisoned-data faults, for threads of a tenant
that is not the core's handler tenant, and for handler-class threads; otherwise to queue 7. -/
def State.routePeg (s : State) (c : Nat) (n : Fin 8) (p : FaultPeg) : State :=
  let t := s.slot c n
  if p.cls = 0x04 || p.cls = 0x0F || (s.core c).handlerTenant ≠ some t.tenant || t.hcl then
    s.updSlot c n (fun t => { t with peg := some (.service p) })
  else s.deliverPeg c n p

/-- A slot whose instruction is given up: it waits for nothing, holds nothing, and is in no loop and no gang. -/
def Slot.idle (t : Slot) : Slot :=
  { t with
    wait := .none, held := none, asked := none, wants := none, gone := false, reply := none, loop := none
    gang := 0, gangWait := 0, gangPc := none, gangDone := false }

/-- A fault is recorded: the records are written, the slot is PARKED and the peg is formed and delivered (R38, R291,
R292). Sequencer entries of the thread have completed before. -/
def State.recordFault (s : State) (c : Nat) (n : Fin 8) (f : FaultInfo) (gang : Bool) : State :=
  let t := s.slot c n
  let s := s.setSlot c n { t.idle with
    state := .parked, pendFault := none, faultPc := t.regs.pc
    faultCause := causeWord f.cls f.detail gang f.scope, faultAddr := f.addr }
  s.routePeg c n ⟨f.addr, t.regs.pc, f.cls, f.detail, gang, 0, t.gen, n⟩

/-- Whether the sequencer of a core holds an entry of a slot. -/
def Core.seqBusy (c : Core) (n : Fin 8) : Bool := c.seq.any (fun e => e.slot == n)

/-- Taking a fault (R44, R291): the instruction ends without effect; the records are written at once, or, while earlier
sequencer entries of the thread have not completed, when they have (R148). R17 names no state for that wait: the slot is
SLEEP (DESIGN CHOICE, entry 64). -/
def State.trap (s : State) (c : Nat) (n : Fin 8) (f : FaultInfo) : State :=
  let t := s.slot c n
  let gang := t.gang ≠ 0
  if (s.core c).seqBusy n then
    s.updSlot c n (fun t => { t.idle with
      state := .sleep
      pendFault := some ⟨f.cls, f.detail, f.addr, f.scope, gang⟩ })
  else s.recordFault c n f gang

/-- Taking a fault of the issuing thread. -/
def State.trapMe (s : State) (f : FaultInfo) : State := s.trap s.curCore s.curSlot f

/-! ### The scribe log (R362 to R364) -/

/-- The scribe log of a logical die of a package. -/
def Package.scribe (p : Package) (die : Nat) : ScribeLog := (look p.scribes die).getD ⟨0, [], false, []⟩

/-- The threads of a die that have an open domain of their own stack: core, slot and generation. -/
def State.openDomains (s : State) (c : Nat) : List (Nat × Fin 8 × BitVec 8) :=
  (s.cores.filter (fun k => k.1 / 4096 == c / 4096)).flatMap fun k =>
    (List.finRange 8).filterMap fun n =>
      let t := k.2.slot n
      if t.views.any (fun v => !v.rival) then some (k.1, n, t.gen) else none

/-- Whether a die is unprotected: its log has filled, and it is still full or an outermost domain that was open then has
not closed since (R364). -/
def State.unlogged (s : State) (c : Nat) : Bool :=
  let g := (s.pkg (pkgOf c)).scribe (dieOf c)
  g.unprotected && (decide (65536 ≤ g.entries.length) || g.open_.any (s.openDomains c).contains)

/-- A scribe entry is appended unless the die is unprotected; the log that is full leaves it unprotected (R362,
R364). Answers the delivery sequence number. -/
def State.scribeAppend (s : State) (c q kind : Nat) (pay : Entry) (ent : Word) (pair : Bool) : State × Option Nat :=
  let p := s.pkg (pkgOf c)
  let g : ScribeLog := { p.scribe (dieOf c) with unprotected := false, open_ := [] }
  if s.unlogged c then (s, none)
  else if 65536 ≤ g.entries.length then
    (s.setPkg (pkgOf c) { p with
      scribes := put p.scribes (dieOf c) { g with unprotected := true, open_ := s.openDomains c }
      host := { p.host with events := p.host.events ++ p.tenants.map (fun t => (t.id, 3)) }
      service := { p.service with reports := p.service.reports ++ ["unprotected die"] } }, none)
  else
    let e : Scribe := ⟨g.next, pay, c, q, kind, ent, pair, false, false, 0, 0⟩
    (s.setPkg (pkgOf c) { p with
      scribes := put p.scribes (dieOf c) { g with next := (g.next + 1) % 2 ^ 32, entries := g.entries ++ [e] } },
      some g.next)

/-- Scribe entries of a die changed. -/
def State.updScribe (s : State) (c : Nat) (f : Scribe → Scribe) : State :=
  s.updPkg (pkgOf c) fun p =>
    let g := p.scribe (dieOf c)
    if g.entries.isEmpty then p
    else { p with scribes := put p.scribes (dieOf c) { g with entries := g.entries.map f } }

/-- A popped entry is retired, or marked `pend` when its popper has an open domain (R363). -/
def State.scribePop (s : State) (c : Nat) (seq : Option Nat) (owner : Option (Fin 8 × BitVec 8)) : State :=
  match seq with
  | none => s
  | some q => s.updScribe c fun e =>
    if e.seq ≠ q then e
    else match owner with
      | none => { e with ret := true }
      | some (n, g) => { e with pend := true, pslot := n, pgen := g }

/-- The `pend` entries that a slot of a core has popped are retired (R363). -/
def State.scribeRetire (s : State) (c : Nat) (n : Fin 8) (g : BitVec 8) : State :=
  s.updScribe c fun e => if e.pend && e.dst == c && e.pslot == n && e.pgen == g then { e with pend := false, ret := true } else e

/-- The head of a scribe log advances over retired entries at outermost commits (R216, R363). -/
def State.scribeTrim (s : State) (c : Nat) : State :=
  s.updPkg (pkgOf c) fun p =>
    let g := p.scribe (dieOf c)
    { p with scribes := put p.scribes (dieOf c) { g with entries := g.entries.dropWhile (·.ret) } }

/-! ### Queues (R30, R31, R277, R278, R285) -/

/-- The first stage of a core, by index, whose input queue is `q` and whose tenant's pool holds a peg for it: where several
stages share a queue, R285 does not say whose peg takes the freed entry (DESIGN CHOICE, entry 91). -/
def State.pooledStage (s : State) (c q : Nat) : Option (Fin 16) :=
  (List.finRange 16).find? fun i =>
    let g := (s.core c).stages[i]
    g.bits.getLsbD 31 && (g.bits.extractLsb' 21 3).toNat == q &&
      decide (g.poolResv < ((s.pkg (pkgOf c)).pools.filter (·.tenant == g.tenant)).foldl (fun n p =>
        n + (p.items.filter (fun x => match x with
          | .peg k st _ => k == c && st == i
          | .launch _ _ _ _ _ => false)).length) 0)

/-- An entry of a queue has left: while the pool holds pegs for its stage the freed entry is reserved for the pool
(R285). -/
def State.entryLeft (s : State) (c q : Nat) : State :=
  match s.pooledStage c q with
  | none => s
  | some i => s.updCore c fun k =>
    let g := k.stages[i]
    let x := k.queue q
    { k.setQueue q { x with reserved := x.reserved + 1 } with
      stages := k.stages.set i { g with poolResv := g.poolResv + 1 } }

/-- The oldest entry of a queue leaves it, with its scribe number; none while the queue is empty. -/
def State.popQueue (s : State) (c q : Nat) : Option (QEntry × State) :=
  let k := s.core c
  let x := k.queue q
  match x.entries with
  | [] => none
  | e :: rest => some (e, (s.setCore c (k.setQueue q { x with entries := rest })).entryLeft c q)

/-- The tag of a return in the layout of `tslot`[10:0] (R184). -/
def returnTag (n : Fin 8) (gen : BitVec 8) : BitVec 11 := gen ++ BitVec.ofNat 3 n.val

/-- Whether a queue 6 entry is tagged for a slot and generation (R184). -/
def tagged (e : QEntry) (n : Fin 8) (gen : BitVec 8) : Bool := e.words.extractLsb' 0 11 == returnTag n gen

/-- The oldest queue 6 entry tagged for a slot leaves the queue (R31, R184). -/
def State.popReturn (s : State) (c : Nat) (n : Fin 8) (gen : BitVec 8) : Option (QEntry × State) :=
  let k := s.core c
  let x := k.queue 6
  match x.entries.find? (tagged · n gen) with
  | none => none
  | some e => some (e, s.setCore c (k.setQueue 6 { x with entries := x.entries.erase e }))

/-- An entry is appended to a queue whose space has been checked; it consumes a reservation when `resv`. The scribe
log records entries of queues 0 to 6 (R362). -/
def State.pushQueue (s : State) (c q kind : Nat) (e : Entry) (resv pair : Bool) : State :=
  let (s, seq) := if q = 7 then (s, none) else s.scribeAppend c q kind e 0 pair
  s.updCore c fun k =>
    let x := k.queue q
    k.setQueue q { entries := x.entries ++ [⟨e, seq⟩], reserved := if resv then x.reserved - 1 else x.reserved }

/-- The words of an entry, word 0 first. -/
def entryWords (e : Entry) : List Word :=
  [e.extractLsb' 0 32, e.extractLsb' 32 32, e.extractLsb' 64 32, e.extractLsb' 96 32]

/-- An entry from its words. -/
def entryOf (a b c d : Word) : Entry := d ++ c ++ b ++ a

/-- An entry from a list of words. -/
def entryOfList (l : List Word) : Entry := entryOf (l.getD 0 0) (l.getD 1 0) (l.getD 2 0) (l.getD 3 0)

/-! ### Slots -/

/-- Whether a thread has an open domain of its own stack (R363). -/
def Slot.inDomain (t : Slot) : Bool := t.views.any (fun v => !v.rival)

/-- Whether a thread is in a world (R213). -/
def Slot.inWorld (t : Slot) : Bool := t.views.any (·.rival)

/-- The view numbers of a thread, innermost first (R259). -/
def Slot.chain (t : Slot) : List Nat := t.views.map (·.num)

/-- The slot blocks: a follower of a gang stays FOLLOW while it waits (R154). -/
def Slot.block (t : Slot) (st : SlotState) (w : Wait) : Slot :=
  { t with state := if t.state = .follow then .follow else st, wait := w }

/-- The slot's wait is over (R17). -/
def Slot.unblock (t : Slot) : Slot :=
  { t with
    state := if t.state = .follow then .follow else .ready, wait := .none, held := none, asked := none
    wants := none, gone := false, reply := none }

/-- The stage a thread's firing belongs to, if any: threads of `SPAWN` and launches and rivals belong to none (R282). -/
def Slot.ownStage (t : Slot) : Option (Fin 16) := if t.lch || t.inWorld then none else some t.stage.toFin

/-- The queue a stage's reservation is held on: core and queue; the last core of a chain has no downstream queue (R32,
R273, R278). -/
def stageOutput (c : Nat) (bits : BitVec 128) : Option (Nat × Nat) :=
  match (bits.extractLsb' 16 2).toNat with
  | 1 => if chainPos c < 4095 then some (downstream c, 5) else none
  | 2 => some (c, (bits.extractLsb' 13 3).toNat)
  | 3 => some ((bits.extractLsb' 64 32).toNat, (bits.extractLsb' 13 3).toNat)
  | _ => none

/-- Reservations on a queue given back (R278). -/
def State.unreserve (s : State) (c q n : Nat) : State :=
  if n = 0 then s
  else s.updCore c fun k =>
    let x := k.queue q
    k.setQueue q { x with reserved := x.reserved - n }

/-- The cores of the aligned group of R15 of size `n` that contains a core. -/
def gangCores (c n : Nat) : List Nat := (List.range n).map (c / n * n + ·)

/-- The slot state of a wait (R17). R17 lists none for a wait at a commit point: that is a memory operation (DESIGN
CHOICE, entry 65). -/
def Wait.state : Wait → SlotState
  | .none => .ready
  | .request | .commit | .status | .panel | .host => .memory
  | .port _ => .port
  | _ => .sleep

/-- A member of a dissolved gang continues alone: READY, or in the state of what it still waits for (R155). -/
def Slot.leaveGang (t : Slot) : Slot :=
  { t with
    gang := 0, gangWait := 0, gangPc := none, gangDone := false
    state := if t.state = .parked || t.state = .free || t.pendFault.isSome then t.state else t.wait.state }

/-- Whether a member has completed the instruction that its gang issues (R154). -/
def Slot.completed (t : Slot) : Bool := t.wait == .none && (t.gangDone || t.gangPc != some t.regs.pc)

/-- Every slot of a gang of size `g` leaves it; where the leader has completed a transfer, the members that have too
go where it goes (R154, R155). -/
def State.dissolve (s : State) (c : Nat) (n : Fin 8) (g : Nat) : State :=
  if g = 0 then s
  else
    let lead := s.slot (c / g * g) n
    let led := lead.gang == g && lead.gangPc.isSome && lead.completed
    let leave (t : Slot) : Slot :=
      if t.gang ≠ g then t
      else if led && t.gangPc.isSome && t.completed then { t with regs := { t.regs with pc := lead.regs.pc } }.leaveGang
      else t.leaveGang
    (gangCores c g).foldl (fun s m => s.updSlot m n leave) s

/-- Every effect of a slot entering FREE (R18): the generation increments, the records clear, returns tagged with the
old generation become orphans (R184), the stage's live count drops (R282), the unused reservation is released (R278),
a waiting peg is discarded (R294), `pend` scribe entries are retired (R363), and its copies that stay only as
predecessors retire (R204). -/
def State.freeSlot (s : State) (c : Nat) (n : Fin 8) : State :=
  let t := s.slot c n
  let k := s.core c
  let q6 := k.queue 6
  let keep := q6.entries.filter (fun e => !tagged e n t.gen)
  let k := (k.setQueue 6 { q6 with entries := keep }).orphan (q6.entries.length - keep.length)
  let k := match t.ownStage with
    | none => k
    | some i =>
      let g := k.stages[i]
      { k with stages := k.stages.set i { g with live := g.live - 1 } }
  let k := { k with
    seq := k.seq.filter (fun e => e.slot != n)
    copies := k.copies.filter (fun x => !(x.posted && x.slot == n && x.gen == t.gen)) }
  let out := t.ownStage.bind (fun i => stageOutput c k.stages[i].bits)
  let s := (s.setCore c k).setSlot c n { Slot.initial with home := c, gen := t.gen + 1, issued := t.issued }
  let s := { s with monitors := s.monitors.filter (fun m => !(m.tcore == c && m.tslot == n)) }
  let s := s.scribeRetire c n t.gen
  match out with
  | none => s
  | some (oc, oq) => s.unreserve oc oq t.resv

/-! ### Ports (R31 to R33, R160) -/

/-- A view-escape fault with no address (R160). -/
def escape : FaultInfo := mkFault 0x06 0 0

/-- A popped entry fills a port buffer of the issuing thread; a replayed entry keeps its `pend` mark (R31, R363). -/
def State.takeEntry (s : State) (q : Nat) : Option (Entry × State) :=
  let t := s.me
  match t.replay.find? (fun x => x.1 == q) with
  | some x => some (x.2, s.updMe (fun t => { t with replay := t.replay.erase x }))
  | none =>
    let got := if q = 6 then s.popReturn t.home s.curSlot t.gen else s.popQueue t.home q
    match got with
    | none => none
    | some (e, s) => some (e.words, s.scribePop t.home e.seq (if t.inDomain then some (s.curSlot, t.gen) else none))

/-- The buffer of a read port. -/
def Regs.buffer (r : Regs) : Port → List Word
  | .qrx => r.qrx
  | .qup => r.qup
  | .qdn => r.qdn

/-- The buffer of a port replaced. -/
def Regs.setBuffer (r : Regs) (p : Port) (l : List Word) : Regs :=
  match p with
  | .qrx => { r with qrx := l }
  | .qup => { r with qup := l }
  | .qdn => { r with qdn := l }

/-- The queue a read port of a thread pops: its bound queue or queue 5 (R31). -/
def Slot.portQueue (t : Slot) : Port → Nat
  | .qrx => t.bound.toNat
  | _ => 5

/-- A read port is made ready: the chain end faults (R32), a rival that must pop escapes (R160), and an empty queue
leaves the thread in PORT (R31). R104 says that no instruction of its chapter escapes; R160 says that a port operation
of a rival does, and the model follows R160 for the port operations of every instruction (DEDUCED, entry 67). -/
def State.fillPort (p : Port) (s : State) : Run :=
  let t := s.me
  if p = .qup && chainPos t.home = 0 then .error (.trap s (mkFault 0x0E 0 0))
  else if t.regs.buffer p ≠ [] then .ok s
  else if t.inWorld then .error (.trap s escape)
  else match s.takeEntry (t.portQueue p) with
    | none => .error (.wait (s.updMe (fun t => t.block .port (.port p))))
    | some (e, s) => .ok (s.setRegs (s.regs.setBuffer p (entryWords e)))

/-- The write port is checked before the instruction: chain end (R32), and the push of a rival (R160; DEDUCED against
R104, entry 67). -/
def State.checkPush (s : State) : Run :=
  let t := s.me
  if chainPos t.home = 4095 then .error (.trap s (mkFault 0x0E 0 0))
  else if t.inWorld && t.regs.qdn.length = 3 then .error (.trap s escape)
  else .ok s

/-- The read ports that sources name are made ready one after the other, in the order of the operands: R108 gives that
order for `SEL`; no sentence gives one for other instructions (DESIGN CHOICE, entry 66). -/
def State.fillPorts : List (BitVec 5) → State → Run
  | [], s => .ok s
  | n :: rest, s => do
    let s ← if n = 28 then s.fillPort .qrx else if n = 29 then s.fillPort .qup else .ok s
    State.fillPorts rest s

/-- The read ports that an instruction's sources name are made ready, and its write port is checked. -/
def State.preparePorts (srcs dsts : List (BitVec 5)) (s : State) : Run := do
  let s ← State.fillPorts srcs s
  if usesPort 30 dsts then s.checkPush else .ok s

/-- The scalar sources of an instruction that an event completes: their port words are consumed only then (R31, R33). -/
def laterSources : Option Instr → List (BitVec 5)
  | some (.spawn _ a _ _ _) | some (.callat _ a _ _) | some (.mcmd _ a _ _) => [a]
  | some (.mwait a) | some (.cpyw a) | some (.barmax _ a _) => [a]
  | _ => []

/-- Whether entries of the thread's committed outbox have not been released yet: its later sends, copies, requests and
pushes follow them (R216, R241). -/
def State.releasing (s : State) : Bool :=
  let t := s.me
  (s.core s.curCore).releases.any (fun x => x.slot == s.curSlot && x.gen == t.gen)

/-- A full `qdn` buffer is pushed downstream, consuming the thread's reservation of a chain binding; while the queue
has no space the thread is PORT with the buffer full (R31, R278). A core that holds no stage of the thread's tenant
discards the entry as an orphan, as it does a message (R9, R183; DEDUCED, entry 30). -/
def State.pushDown (s : State) : State :=
  let t := s.me
  if t.regs.qdn.length < 4 then s
  else
    let d := downstream t.home
    let chainBound := match t.ownStage with
      | some i => (((s.core t.home).stages[i]).bits.extractLsb' 16 2).toNat == 1
      | none => false
    let resv := chainBound && decide (0 < t.resv)
    if s.releasing then s.updMe (fun t => t.block .port (.port .qdn))
    else if !(s.core d).holdsStage t.tenant then
      ((s.updMe fun t => { t with
        regs := { t.regs with qdn := [] }, resv := if resv then t.resv - 1 else t.resv }).unreserve d 5
          (if resv then 1 else 0)).updCore d (·.orphan 1)
    else if resv || decide (0 < ((s.core d).queue 5).free) then
      (s.updMe fun t => { t with regs := { t.regs with qdn := [] }, resv := if resv then t.resv - 1 else t.resv }).pushQueue
        d 5 2 (entryOfList t.regs.qdn) resv false
    else s.updMe (fun t => t.block .port (.port .qdn))

/-- Whether an armed register injection fires at the issuing thread's instruction (R393). -/
def State.injectionFires (s : State) : Bool :=
  let t := s.me
  (s.pkg (pkgOf s.curCore)).tenants.any (fun n => n.id == t.tenant && n.rarm && n.ijpc == t.regs.pc)

/-- The end of an instruction's body: a fault is taken, a wait stands, and completion consumes the port words it read
and pushes a full `qdn` buffer (R31, R33, R44). -/
def State.finish (srcs dsts : List (BitVec 5)) (x : Run) : State :=
  match x with
  | .error (.trap s f) => s.trapMe f
  | .error (.wait s) => s
  | .ok s =>
    let s := s.setRegs (s.regs.consume srcs)
    if usesPort 30 dsts then s.pushDown else s

/-- One instruction of the issuing thread: its scalar sources and destinations, and the body that runs once its ports
are ready. -/
def State.issue (srcs dsts : List (BitVec 5)) (body : State → Run) (s : State) : State :=
  State.finish srcs dsts (do
    let s ← s.preparePorts srcs dsts
    body s)

/-- The scope code of an instruction that has one (R11, R38). -/
def scopeOf : Instr → BitVec 3
  | .ld _ _ _ _ _ sc | .st _ _ _ _ _ sc | .fst _ _ _ _ _ sc | .ldc _ _ _ _ sc | .stc _ _ _ _ sc => sc
  | .aadd _ _ _ _ _ sc _ | .aand _ _ _ _ _ sc _ | .aor _ _ _ _ _ sc _ | .axor _ _ _ _ _ sc _ => sc
  | .aswap _ _ _ _ _ sc _ | .acas _ _ _ _ _ sc _ | .aminSigned _ _ _ _ _ sc _ | .aminUnsigned _ _ _ _ _ sc _ => sc
  | .amaxSigned _ _ _ _ _ sc _ | .amaxUnsigned _ _ _ _ _ sc _ | .afadd _ _ _ _ _ sc _ | .waitne _ _ _ _ _ sc _ => sc
  | .fence sc | .fenceAcq sc | .fenceRel sc | .bar sc | .barw _ sc | .barq _ sc => sc
  | .cpy _ sc | .cpyc _ _ sc | .dopen _ _ sc => sc
  | _ => 0

/-- A fault's records carry the scope code of the faulting operation (R38). -/
def atScope (sc : BitVec 3) (x : Run) : Run :=
  match x with
  | .error (.trap s f) => .error (.trap s { f with scope := sc })
  | y => y

/-- One instruction that has a scope field: as `State.issue`, with the scope in its faults' cause (R38). -/
def State.scoped (i : Instr) (srcs dsts : List (BitVec 5)) (body : State → Run) (s : State) : State :=
  State.finish srcs dsts (atScope (scopeOf i) (do
    let s ← s.preparePorts srcs dsts
    body s))

/-- An instruction that changes registers only, or faults, and then advances by its length. -/
def State.plain (len : Nat) (srcs dsts : List (BitVec 5)) (f : Regs → Except FaultInfo Regs) (s : State) : State :=
  s.issue srcs dsts fun s =>
    match f s.regs with
    | .ok r => .ok (s.setRegs (r.advance len))
    | .error e => .error (.trap s e)

end Sys2Proof.Machine
end

