-- ==== Sys2Proof/Machine/Access.lean ====
section
/-!
DEFINITION. Memory accesses: the checks of R157 and R248, rights and translation (R267 to R270), homes, read copies
and versions (R224, R238, R255 to R262), the rules inside views (R160), and reads and writes performed at their homes.
-/

namespace Sys2Proof.Machine

/-- Why an access is not performed: a fault, or a wait at its home, which may be for the rebuild of a lost line (R321). -/
inductive Miss where
  | fault (f : FaultInfo)
  | wait (line : Option Nat)
  deriving DecidableEq, Repr

/-- One access of an instruction, after the checks of R248: where it is performed. -/
structure Target where
  /-- The space of R246. -/
  space : Nat
  /-- The core whose local memory holds it, for LOCAL and WINDOW. -/
  core  : Nat
  /-- Local offset, GLOBAL or HOST address, or CTRL offset. -/
  addr  : Nat
  /-- The access address as faults report it. -/
  va    : Nat
  /-- The tenant domain of the capability. -/
  dom   : Nat
  deriving DecidableEq, Repr

/-- Needs the permission `rd` (R118). -/
def pRD : BitVec 7 := 0x01
/-- Needs `wr`. -/
def pWR : BitVec 7 := 0x02
/-- Needs `rc`. -/
def pRC : BitVec 7 := 0x04
/-- Needs `wc`. -/
def pWC : BitVec 7 := 0x08
/-- Needs `at`. -/
def pAT : BitVec 7 := 0x10
/-- Needs `en`. -/
def pEN : BitVec 7 := 0x20
/-- Needs `mc`. -/
def pMC : BitVec 7 := 0x40

/-- Every space (R157). -/
def spAll : List Nat := [0, 1, 2, 3, 4]
/-- Every space but CTRL: instructions other than `LD` and `ST` of 4 or 8 bytes (R254). -/
def spNoCtrl : List Nat := [0, 1, 2, 3]
/-- LOCAL, WINDOW and GLOBAL. -/
def spMem : List Nat := [0, 1, 2]
/-- GLOBAL alone. -/
def spGlob : List Nat := [2]

/-- A capability fault at an address (R249). -/
def capFault (detail : BitVec 8) (a : Nat) : FaultInfo := mkFault 0x03 detail (BitVec.ofNat 64 a)

/-- Whether `n` bytes from a local offset lie in a tenant's partition on a core (R252). -/
def State.inPartition (s : State) (c dom off n : Nat) : Bool :=
  (s.core c).parts.any (fun p => p.tenant == dom && decide (p.base ≤ off) && decide (off + n ≤ p.base + p.len))

/-- The checks of R248 for `z` bytes at an offset through a capability, for a thread of a tenant on a core. -/
def State.targetFor (s : State) (home tenant : Nat) (c : Cap) (off : Int) (z : Nat) (spaces : List Nat)
    (need : BitVec 7) : Except FaultInfo Target :=
  let a := ((c.base : Int) + off) % 2 ^ 64 |>.toNat
  if !c.tag then .error (capFault 0x01 a)
  else if c.dom ≠ tenant then .error (capFault 0x08 a)
  else if !spaces.contains c.space then .error (capFault 0x02 a)
  else if c.perm &&& need ≠ need then .error (capFault 0x03 a)
  else if off < 0 ∨ (c.len : Int) < off + z then .error (capFault 0x04 a)
  else if c.space = spWINDOW && !s.goodName (a / 2 ^ 16 % 2 ^ 26) then .error (capFault 0x07 a)
  else
    let k := if c.space = spWINDOW then a / 2 ^ 16 % 2 ^ 26 else home
    let addr := if c.space = spWINDOW || c.space = spLOCAL then a % 2 ^ 16 else a
    if (c.space = spLOCAL || c.space = spWINDOW) && !s.inPartition k c.dom addr z then .error (capFault 0x09 a)
    else .ok ⟨c.space, k, addr, a, c.dom⟩

/-- The checks of R248 for the issuing thread. -/
def State.target (s : State) (c : Cap) (off : Int) (z : Nat) (spaces : List Nat) (need : BitVec 7) :
    Except FaultInfo Target := s.targetFor s.me.home s.me.tenant c off z spaces need

/-- The alignment check of R158. -/
def Target.align (t : Target) (n : Nat) : Except FaultInfo Unit :=
  if t.va % n = 0 then .ok () else .error (mkFault 0x02 0x01 (BitVec.ofNat 64 t.va))

/-! ### Rules inside views (R160) -/

/-- The kinds of access that R160 tells apart. -/
inductive AccKind where
  | load
  | store
  /-- Atomics and `WAITNE`. -/
  | atomic
  deriving DecidableEq, Repr

/-- The innermost rival view of a thread. -/
def Slot.rivalView (t : Slot) : Option View := t.views.find? (·.rival)

/-- Whether `n` bytes at a local offset lie within a rival's window (R217). -/
def View.inWindow (v : View) (a n : Nat) : Bool := decide (v.winBase ≤ a) && decide (a + n ≤ v.winBase + v.winLen)

/-- Whether the rules of R160 admit an access of `n` bytes. -/
def Slot.viewAllows (t : Slot) (k : AccKind) (x : Target) (n : Nat) : Bool :=
  if t.views.isEmpty || k = .load then true
  else if x.space = spLOCAL then
    match t.rivalView with
    | none => true
    | some v => v.inWindow x.addr n
  else if x.space = spGLOBAL then k = .store
  else false

/-- Step 4 of R157. -/
def State.viewCheck (s : State) (k : AccKind) (x : Target) (n : Nat) : Except FaultInfo Unit :=
  if s.me.viewAllows k x n then .ok () else .error (mkFault 0x06 0 (BitVec.ofNat 64 x.va))

/-! ### Rights (R267, R268) -/

/-- Rights `wc at wr rd` that permission bits of R157 ask of a region (R267). -/
def rightsFor (need : BitVec 7) : BitVec 4 :=
  (if need.getLsbD 3 then 8#4 else 0) ||| (if need.getLsbD 4 then 4#4 else 0) |||
    (if need.getLsbD 1 then 2#4 else 0) ||| (if need.getLsbD 0 then 1#4 else 0)

/-- A PLB fill from the rights table: the entry becomes the most recently used of at most 64 (R267). -/
def State.plbFill (s : State) (c dom region : Nat) (host : Bool) : State :=
  match (s.pkg (pkgOf c)).rights.find? (fun r => r.dom == dom && r.region == region && r.host == host) with
  | none => s
  | some r => s.updCore c fun k =>
    let e : PlbEntry := ⟨host, dom, region, r.rights⟩
    { k with plb := (e :: k.plb.filter (fun p => !(p.dom == dom && p.region == region && p.host == host))).take 64 }

/-- The entry of the PLB for a region, if held. -/
def Core.plbFind (k : Core) (dom region : Nat) (host : Bool) : Option PlbEntry :=
  k.plb.find? (fun p => p.dom == dom && p.region == region && p.host == host)

/-- A hit makes the entry the most recently used; a miss fills it (R267). -/
def State.plbTouch (s : State) (c dom region : Nat) (host : Bool) : State :=
  match (s.core c).plbFind dom region host with
  | none => s.plbFill c dom region host
  | some e => s.updCore c fun k => { k with plb := e :: k.plb.erase e }

/-- The rights check of an address of a tenant as a request leaves a core; a miss fills the PLB (R267, R268). -/
def State.checkRegion (s : State) (c dom : Nat) (host : Bool) (need : BitVec 7) (a : Nat) : Except Miss State :=
  let s := s.plbTouch c dom (a / 2 ^ 21) host
  match (s.core c).plbFind dom (a / 2 ^ 21) host with
  | none => .error (.fault (mkFault 0x05 0x03 (BitVec.ofNat 64 a)))
  | some e =>
    if e.rights &&& rightsFor need = rightsFor need then .ok s
    else .error (.fault (mkFault 0x05 0x04 (BitVec.ofNat 64 a)))

/-- The rights check of `n` bytes of GLOBAL or HOST memory: each region they touch is checked at the access's first byte
in it (R267, R268). -/
def State.checkRights (s : State) (c : Nat) (x : Target) (n : Nat) (need : BitVec 7) : Except Miss State :=
  (List.range ((x.addr + n - 1) / 2 ^ 21 - x.addr / 2 ^ 21 + 1)).foldlM (fun s k =>
    s.checkRegion c x.dom (x.space == spHOST) need (max x.addr ((x.addr / 2 ^ 21 + k) * 2 ^ 21))) s

/-! ### Homes and lines (R250, R255, R256) -/

/-- The home package of a GLOBAL address. -/
def homePkg (a : Nat) : Nat := a / 2 ^ 41 % 2 ^ 11

/-- The line number of a GLOBAL address within its package, x of R256. -/
def lineX (a : Nat) : Nat := a % 2 ^ 41 / 128

/-- The logical memory position, m of R256. -/
def homePos (a : Nat) : Nat := lineX a % 9

/-- The slice of R256. -/
def homeSlice (a : Nat) : Nat :=
  let y := lineX a / 9
  Nat.xor (Nat.xor (Nat.xor (Nat.xor y (y / 2 ^ 7)) (y / 2 ^ 14)) (y / 2 ^ 21)) (y / 2 ^ 28) % 128

/-- The line of an address, counted over all of GLOBAL space. -/
def lineOf (a : Nat) : Nat := a / 128

/-- The 64 KiB page of an address (R269, R316). -/
def pageOf (a : Nat) : Nat := a / 65536

/-- The physical base die that a package assigns to a position (R256, R335). -/
def Package.baseDie (p : Package) (m : Nat) : Nat := (p.baseMap[m % 9].extractLsb' 12 4).toNat

/-- The physical core die that a die-map entry names: 0 to 8 in the package itself, 16 times the package's number plus 1,
plus the die, for a die of another package (R335). -/
def entryDie (e : BitVec 32) : Nat :=
  (e.extractLsb' 15 4).toNat + (if e.getLsbD 30 then 16 * ((e.extractLsb' 19 11).toNat + 1) else 0)

/-- The physical core die that serves a logical die (R335). -/
def Package.coreDie (p : Package) (d : Nat) : Nat := entryDie p.dieMap[d % 8]

/-- The incarnation that the maps hold for a memory position or a logical die (R335, R336). -/
def Package.mapInc (p : Package) (base : Bool) (index : Nat) : BitVec 8 :=
  if base then p.baseMap[index % 9].extractLsb' 0 8 else p.dieMap[index % 8].extractLsb' 0 8

/-- The set of a package's L2 that an address falls in: base die, slice and set index (R255, R256). -/
def Package.setOf (p : Package) (a : Nat) : Nat :=
  p.baseDie (homePos a) * 2 ^ 17 + homeSlice a * 2 ^ 10 + lineX a / 9 / 128 % 1024

/-- The lines that `n` bytes from an address touch. -/
def linesOf (a n : Nat) : List Nat := if n = 0 then [] else (List.range ((a + n - 1) / 128 - a / 128 + 1)).map (· + a / 128)

/-- The stamp of a fill: PTC bits [41:10] (R255). -/
def Package.stamp (p : Package) : Word := p.ptc.extractLsb' 10 32

/-- The bytes of a line of GLOBAL memory in the base view. -/
def State.lineBytes (s : State) (line : Nat) : List Byte := s.mem.readN (line * 128) 128

/-! ### Translation (R269, R270) -/

/-- Key of a level-1 entry in `tables`. -/
def l1Key (a : Nat) : Nat := a / 2 ^ 21 % 2 ^ 20

/-- Key in `tables` of the level-2 entry for an address in the table that a level-1 entry names (R269). -/
def l2Key (e : BitVec 64) (a : Nat) : Nat := 2 ^ 20 + 32 * (e.extractLsb' 8 31).toNat + a / 2 ^ 16 % 32

/-- Whether an entry has only zero RES fields (R269). -/
def entryClean (e : BitVec 64) : Bool := e.extractLsb' 39 22 == 0 && e.extractLsb' 0 8 == 0

/-- The walk of R269: the physical address of a GLOBAL address, or the page-fault detail of R270. -/
def Package.walk (p : Package) (a : Nat) : Except (BitVec 8) Nat :=
  let e := (look p.tables (l1Key a)).getD 0
  if !e.getLsbD 63 then .error 0x01
  else if !entryClean e then .error 0x03
  else if e.getLsbD 62 then
    if e.extractLsb' 8 13 ≠ 0 then .error 0x03 else .ok ((e.extractLsb' 8 31).toNat * 256 + a % 2 ^ 21)
  else
    let f := (look p.tables (l2Key e a)).getD 0
    if !f.getLsbD 63 then .error 0x01
    else if !entryClean f || f.getLsbD 62 || f.extractLsb' 8 8 ≠ 0 then .error 0x03
    else .ok ((f.extractLsb' 8 31).toNat * 256 + a % 2 ^ 16)

/-- The leaf entry that translates an address, 0 where there is none. -/
def Package.leaf (p : Package) (a : Nat) : BitVec 64 :=
  let e := (look p.tables (l1Key a)).getD 0
  if e.getLsbD 63 && !e.getLsbD 62 then (look p.tables (l2Key e a)).getD 0 else e

/-- A page fault at a virtual address (R270). -/
def pageFault (detail : BitVec 8) (a : Nat) : FaultInfo := mkFault 0x04 detail (BitVec.ofNat 64 a)

/-- The physical line address of R266. -/
def Package.physLine (p : Package) (a : Nat) : DWord :=
  let pa := match p.walk a with
    | .ok x => x
    | .error _ => 0
  BitVec.ofNat 64 (homePkg a * 2 ^ 41 + pa % 2 ^ 39 / 128 * 128)

/-- The leaf entry that the translation cache of an address's base die holds for its page (R269). -/
def Package.cachedLeaf (p : Package) (a : Nat) : Option (BitVec 64) :=
  (p.tcache.find? fun x => x.1 == p.baseDie (homePos a) && x.2.1 == pageOf a).map (·.2.2)

/-- A leaf entry enters the translation cache of an address's base die, which holds 8,192 (R269). -/
def Package.cacheLeaf (p : Package) (a : Nat) (e : BitVec 64) : Package :=
  let d := p.baseDie (homePos a)
  let mine := p.tcache.filter fun x => x.1 == d && x.2.1 != pageOf a
  { p with tcache := ((d, pageOf a, e) :: mine).take 8192 ++ p.tcache.filter (·.1 != d) }

/-- A slice that misses consults the translation cache of its base die; where that has no entry for the page, the tables
are walked, and a walk that succeeds leaves the page in the cache (R269). -/
def State.translate (s : State) (a : Nat) : Except FaultInfo State :=
  let h := homePkg a
  match (s.pkg h).cachedLeaf a with
  | some _ => .ok s
  | none => match (s.pkg h).walk a with
    | .error d => .error (pageFault d a)
    | .ok _ => .ok (s.updPkg h fun p => p.cacheLeaf a (p.leaf a))

/-! ### L2 (R255, R259, R319) -/

/-- Whether a line lies in a coded page, and its stripe set (R316). -/
def Package.stripeOf (p : Package) (line : Nat) : Option (List Nat) := look p.coded (line / 512)

/-- Exclusive-or of two strings of bytes. -/
def xorBytes (a b : List Byte) : List Byte := List.zipWith (· ^^^ ·) a b

/-- The check line of a stripe for a line of a data package (R316, R318): its key is the line's number within its
package. -/
def Package.checkLine (p : Package) (line : Nat) (stripe : List Nat) (q : Bool) : CheckLine :=
  match p.checks.find? (fun c => c.line == line % 2 ^ 34 && c.q == q && c.stripe == stripe) with
  | some c => c
  | none => ⟨line % 2 ^ 34, stripe, q, List.replicate 128 0, List.replicate 8 0⟩

/-- A package with a check line replaced. -/
def Package.setCheck (p : Package) (c : CheckLine) : Package :=
  { p with checks := c :: p.checks.filter (fun x => !(x.line == c.line && x.q == c.q && x.stripe == c.stripe)) }

/-- The later of two 16-bit sequence numbers. -/
def laterSeq (a b : BitVec 16) : BitVec 16 := if 0 ≤ (a - b).toInt then a else b

/-- Whether an agent needs do nothing more for a write-back: P's, or Q's. -/
def Writeback.done (w : Writeback) (q : Bool) : Bool := if q then w.qDone else w.pDone

/-- A write-back that an agent has applied. -/
def Writeback.acked (w : Writeback) (q : Bool) : Writeback := if q then { w with qDone := true } else { w with pDone := true }

/-- A write-back whose check agent is lost before it acknowledges: it completes on the other's acknowledgement, which it
then needs (R322). -/
def Writeback.excuse (w : Writeback) (q : Bool) : Writeback :=
  if w.done q || w.gone.isSome then w else { w.acked q with gone := some q }

/-- A coded write-back of a dirty line starts: its delta from what HBM will hold after the line's earlier ones, with the
line's next sequence number (R319, R320). -/
def State.startWriteback (s : State) (line : Nat) : State :=
  let h := homePkg (line * 128)
  let p := s.pkg h
  match p.dirty.find? (·.line == line), p.stripeOf line with
  | some d, some st =>
    let mine := p.wbacks.filter (·.line == line)
    let image := mine.foldl (fun x w => xorBytes x w.delta) d.image
    if !mine.isEmpty && image == s.lineBytes line then s
    else
      let pos := st.findIdx (· == h)
      let check (q : Bool) : Package := s.pkg (st.getD (if q then 9 else 8) 0)
      let last (q : Bool) : BitVec 16 := ((check q).checkLine line st q).seqs.getD pos 0
      let old := (mine.getLast?.map (·.seq)).getD (laterSeq (last false) (last true))
      let w : Writeback := ⟨line, pos, st, xorBytes (s.lineBytes line) image, old + 1, false, false, none⟩
      let w := if (check false).failed then w.excuse false else w
      s.setPkg h { p with wbacks := p.wbacks ++ [if (check true).failed then w.excuse true else w] }
  | _, _ => s

/-- A dirty line of no coded page reaches HBM. -/
def State.cleanLine (s : State) (line : Nat) : State :=
  s.updPkg (homePkg (line * 128)) fun p => { p with dirty := p.dirty.filter (·.line != line) }

/-- A line leaves L2: a dirty line is written back first, a coded one through its delta (R255, R319). -/
def State.evict (s : State) (line : Nat) : State :=
  let h := homePkg (line * 128)
  let p := s.pkg h
  if p.dirty.any (·.line == line) && (p.stripeOf line).isSome then s.startWriteback line
  else (s.cleanLine line).updPkg h fun p => { p with l2 := p.l2.filter (· != line) }

/-- The ways that still serve a set (R255, R357). -/
def Package.waysOf (p : Package) (a : Nat) : Nat := 16 - (p.ways.filter (· / 16 == p.setOf a / 1024)).length

/-- Lines of the base view that a package's L2 holds in a line's set, latest fill first. -/
def Package.setBase (p : Package) (line : Nat) : List Nat :=
  p.l2.filter fun l => p.setOf (l * 128) == p.setOf (line * 128)

/-- Read copies that a package's L2 holds in a line's set, latest fill first. -/
def Package.setCopies (p : Package) (line : Nat) : List ReadCopy :=
  p.copies.filter fun c => p.setOf (c.line * 128) == p.setOf (line * 128)

/-- Ways of a line's set that lines of the base view, versions and read copies take (R255, R259, R260). -/
def Package.setUsed (p : Package) (line : Nat) : Nat :=
  (p.setBase line).length + (p.setCopies line).length +
    (p.versions.filter fun x => !x.2.2 && p.setOf (x.2.1 * 128) == p.setOf (line * 128)).length

/-- Whether a line may leave L2 at once: a dirty line of a coded page stays until both its check agents have acknowledged
(R319). -/
def Package.evictable (p : Package) (line : Nat) : Bool := !p.dirty.any (·.line == line) || (p.stripeOf line).isNone

/-- Lines of the base view that may leave a line's set at once, oldest fill first. -/
def Package.leaving (p : Package) (line : Nat) : List Nat := (p.setBase line).reverse.filter p.evictable

/-- Whether a line's set has a way for one more line, or can make one free at once (R255). -/
def Package.hasRoom (p : Package) (line : Nat) : Bool :=
  decide (p.setUsed line < p.waysOf (line * 128) + (p.setCopies line).length + (p.leaving line).length)

/-- Room for one more line in the set of a line in a package's L2: where every way is taken, the oldest read copies leave
the set, then the oldest lines of the base view that may (R255; entry 36). -/
def State.l2Room (s : State) (own line : Nat) : State :=
  let p := s.pkg own
  let need := p.setUsed line + 1 - p.waysOf (line * 128)
  let gone := (p.setCopies line).reverse.take need
  let s := s.updPkg own fun p => { p with copies := p.copies.filter (!gone.contains ·) }
  ((p.leaving line).take (need - gone.length)).foldl State.evict s

/-- A set that could take no further line starts the write-back of its oldest line (R255, R319; entry 36). -/
def State.keepRoom (s : State) (own line : Nat) : State :=
  if (s.pkg own).hasRoom line then s
  else match ((s.pkg own).setBase line).getLast? with
    | some l => s.startWriteback l
    | none => s

/-- A line fill: the line is present, in a set with room for it; a set without room takes none (R255, R259). -/
def State.l2Fill (s : State) (line : Nat) : State :=
  let h := homePkg (line * 128)
  if (s.pkg h).l2.contains line || !(s.pkg h).hasRoom line then s
  else ((s.l2Room h line).updPkg h fun p => { p with l2 := line :: p.l2 }).keepRoom h line

/-- Whether a line is locked by a commit in progress (R262). -/
def State.locked (s : State) (line : Nat) : Bool := s.pkgs.any (fun p => p.2.commits.any (·.lines.contains line))

/-- Whether a package reaches another by a valid pod route (R341; entry 10). -/
def Package.routed (p : Package) (own dst : Nat) : Bool :=
  own == dst || match look p.routes dst with
    | none => true
    | some r => r.2

/-- Whether messages of a package reach another: a valid pod route, and no fence of a package declared lost (R341,
R357). -/
def State.routed (s : State) (own dst : Nat) : Bool :=
  (s.pkg own).routed own dst && (own == dst || !(s.pkg dst).failed)

/-! ### Routes (R325, R338 to R341) -/

/-- The package of a message's sender or receiver: a core or an agent (R13, R324). -/
def senderPkg (src : Nat) : Nat := src / 2 ^ 15 % 2 ^ 11

/-- A link that a message passes between dies: a UCIe module of a base die, or a pod port (R325). -/
inductive Link where
  | module (pkg base index : Nat)
  | port (pkg index : Nat)
  deriving DecidableEq, Repr

/-- The module by which a core's stack joins the hub, for the messages of a triple (R325, R338; entry 75). An agent sits
at the hub. -/
def State.moduleLink (s : State) (c src dst ch : Nat) : List Link :=
  if 2 ^ 26 ≤ c then []
  else
    let die := (s.pkg (pkgOf c)).coreDie (dieOf c)
    let own := if die < 16 then pkgOf c else die / 16 - 1
    [.module own (die % 16) (Config.moduleOf src dst ch % 16)]

/-- The pod port that a package's messages to another leave by: the one that its route table names, port 0 where nothing has
been written; none where the route is not valid (R341; entry 10). -/
def Package.portLink (p : Package) (own dst : Nat) : List Link :=
  if own = dst then []
  else match look p.routes dst with
    | none => [.port own 0]
    | some (port, valid) => if valid then [.port own port] else []

/-- The links between dies that the messages of a triple pass, in order (R325). -/
def State.route (s : State) (src dst ch : Nat) : List Link :=
  if src / 4096 = dst / 4096 then []
  else s.moduleLink src src dst ch ++ (s.pkg (senderPkg src)).portLink (senderPkg src) (senderPkg dst) ++
    s.moduleLink dst src dst ch

/-- A UCIe module of a base die. -/
def Package.module (p : Package) (base unit : Nat) : Module :=
  (p.modules.find? (fun m => m.base == base && m.index == unit)).getD ⟨base, unit, false, 64, false⟩

/-- A pod port of a package. -/
def Package.port (p : Package) (i : Nat) : PodPort := (p.ports.find? (·.index == i)).getD ⟨i, 4, false, 0, 0, 0, 0⟩

/-- Whether a link carries a channel: the traffic of a paused or lost module waits, and so does that of a port that is
down or whose other end has stopped the channel (R339 to R341, R357). -/
def State.serves (s : State) (ch : Nat) : Link → Bool
  | .module p b i => !((s.pkg p).module b i).paused && !((s.pkg p).module b i).lost
  | .port p i => !((s.pkg p).port i).down && !((s.pkg p).port i).stop.getLsbD ch

/-- Whether every link of a triple's route carries it. -/
def State.carries (s : State) (src dst ch : Nat) : Bool := (s.route src dst ch).all (s.serves ch)

/-- The agent identifier of an L2 slice: package, physical base die and slice (R324). -/
def sliceAgent (pkg base slice : Nat) : Nat := 2 ^ 26 + pkg * 2 ^ 15 + base * 2 ^ 11 + slice * 2 ^ 4

/-- The agent identifier of a package's control die (R324). -/
def controlAgent (pkg : Nat) : Nat := 2 * 2 ^ 26 + pkg * 2 ^ 15

/-- The agent identifier of a package's host port (R324). -/
def hostAgent (pkg : Nat) : Nat := 3 * 2 ^ 26 + pkg * 2 ^ 15

/-- The slice of an address in a package: the home's, or another package's proxy (R256, R258). -/
def State.sliceAt (s : State) (pkg a : Nat) : Nat := sliceAgent pkg ((s.pkg pkg).baseDie (homePos a)) (homeSlice a)

/-- The links between an agent and the slice of its own package for an address: none to a slice of a core's own stack, which
the mesh reaches (R325). -/
def State.stackLinks (s : State) (own c a ch : Nat) : List Link :=
  let base := (s.pkg own).baseDie (homePos a)
  if c < 2 ^ 26 && base == (s.pkg own).coreDie (dieOf c) then []
  else s.moduleLink c c (s.sliceAt own a) ch ++ [.module own base (Config.moduleOf c (s.sliceAt own a) ch % 16)]

/-- The links between an agent and the home slice of an address: those to the proxy slice of its package, and, for a remote
line, those between the proxy and the home (R258, R325). -/
def State.lineLinks (s : State) (own c a ch : Nat) : List Link :=
  let h := homePkg a
  let m (p : Nat) : List Link := [.module p ((s.pkg p).baseDie (homePos a))
    (Config.moduleOf (s.sliceAt own a) (s.sliceAt h a) ch % 16)]
  s.stackLinks own c a ch ++ (if h = own then [] else m own ++ (s.pkg own).portLink own h ++ m h)

/-- Whether the request and the reply channel serve between an agent and the home slice of an address (R323, R339,
R340). -/
def State.lineServed (s : State) (own c a : Nat) : Bool :=
  (s.lineLinks own c a 0).all (s.serves 0) && (s.lineLinks own c a 1).all (s.serves 1)

/-- Whether the request and the reply channel serve between an agent and the proxy slice of an address. -/
def State.proxyServed (s : State) (own c a : Nat) : Bool :=
  (s.stackLinks own c a 0).all (s.serves 0) && (s.stackLinks own c a 1).all (s.serves 1)

/-- Whether the request and the reply channel serve between a core and another agent. -/
def State.pairServed (s : State) (c dst : Nat) : Bool := s.carries c dst 0 && s.carries c dst 1

/-- Whether a line lies in a page whose `cd` is changing: accesses to it are held (R317). -/
def Package.inTransit (p : Package) (line : Nat) : Bool := p.transits.any (·.pages.contains (line / 512))

/-- Whether the slice of an address in a package is fenced: the one of its home, or the proxy slice of another package
(R256, R258, R337). -/
def Package.sliceFenced (p : Package) (a : Nat) : Bool := p.fenced.contains (true, p.baseDie (homePos a))

/-- The part of an access that is made at its home before it is performed (step 5 of R157): the package exists and is
routed (R270, R341), neither the home nor the proxy slice is fenced and the line neither locked, nor of a page whose coding
changes, nor waiting for its rebuild (R258, R262, R317, R321, R337), every link on the way serves (R325, R339, R340), and a
line that L2 does not hold is translated and filled, once its set has room (R255, R269). `c` is the agent of package `from_`
that accesses. -/
def State.reachLine (s : State) (from_ c : Nat) (a : Nat) : Except Miss State :=
  let h := homePkg a
  let line := lineOf a
  if s.podSize ≤ h then .error (.fault (pageFault 0x02 a))
  else if !s.routed from_ h then .error (.fault (pageFault 0x02 a))
  else
    let p := s.pkg h
    if p.sliceFenced a || (s.pkg from_).sliceFenced a || s.locked line || p.inTransit line ||
        !s.lineServed from_ c a then .error (.wait none)
    else if p.rebuild.contains line then .error (.wait (some line))
    else if p.l2.contains line then .ok s
    else match s.translate a with
      | .error f => .error (.fault f)
      | .ok s => if p.hasRoom line then .ok (s.l2Fill line) else .error (.wait none)

/-- Every line of an access from an address up is reached, at the access's first byte in it; then none may be
poisoned. -/
def State.reachAll (s : State) (from_ c a : Nat) : List Nat → Except Miss State
  | [] => .ok s
  | l :: rest => do
    let s ← s.reachLine from_ c (max a (l * 128))
    s.reachAll from_ c a rest

/-! ### Read copies (R255, R258) -/

/-- Whether a stamp is at or after another: 32-bit times wrap (R258). -/
def notBefore (a b : Word) : Bool := decide (0 ≤ (a - b).toInt)

/-- A package's proxy copy of a remote line is refreshed from its home's reply, with the stamp of the time at which the
request left (R255, R258); one that lies below the copy floor is not kept, and neither is one for which its set has no
room. -/
def State.refreshAt (s : State) (own : Nat) (stamp : Word) (line : Nat) : State :=
  let held := (s.pkg own).copies.any (·.line == line)
  if homePkg (line * 128) = own || !held && !(s.pkg own).hasRoom line then s
  else
    let s := if held then s else s.l2Room own line
    (s.updPkg own fun p =>
      { p with copies := (if notBefore stamp p.floor then [⟨line, s.lineBytes line, s.mtags.filter (· / 8 == line), stamp⟩]
          else []) ++ p.copies.filter (·.line != line) }).keepRoom own line

/-- A read copy refreshed by a request of the issuing thread: the one that is outstanding, or the present one (R258). -/
def State.refreshCopy (s : State) (own line : Nat) : State :=
  s.refreshAt own (s.me.asked.getD (s.pkg own).stamp) line

/-- Read copies refreshed by a request that an engine makes now (R258). -/
def State.refreshLines (s : State) (own : Nat) (lines : List Nat) : State :=
  lines.foldl (fun s l => s.refreshAt own (s.pkg own).stamp l) s

/-- Whether a line is joined: its byte 126 holds a block tag (R175). -/
def joined (b : Byte) : Bool := b == 0x13 || b == 0x17

/-- The copy floor of a package is raised to just above the present: every copy filled before lies below it and answers
no read any more, so it is dropped (R234, R258). -/
def State.raiseFloor (s : State) (p : Nat) : State :=
  s.updPkg p fun k => { k with floor := k.stamp + 1, copies := k.copies.filter fun c => notBefore c.stamp (k.stamp + 1) }

/-- The copy that may answer a plain read of a line: at or after the floor, not locked, not a joined line, in the copy or at
its home, and not of a poisoned line; its slice is not fenced, and the links to it serve (R224, R258, R266, R337, R339). -/
def State.validCopy (s : State) (own line : Nat) : Option ReadCopy :=
  if homePkg (line * 128) = own || !s.proxyServed own s.curCore (line * 128) || (s.pkg own).sliceFenced (line * 128) ||
    (look (s.pkg (homePkg (line * 128))).poison line).isSome then none
  else (s.pkg own).copies.find? (fun c => c.line == line && notBefore c.stamp (s.pkg own).floor &&
    !s.locked line && !joined (c.bytes.getD 126 0) && !joined (s.mem.read (line * 128 + 126)))

/-- An acquire of the issuing thread at a scope: at pod scope it raises its package's copy floor (R258). -/
def State.acquire (s : State) (scope : BitVec 3) : State :=
  if scope = 5 then s.raiseFloor (pkgOf s.curCore) else s

/-! ### Views (R238, R259 to R261) -/

/-- A view discarded: what it wrote is gone (R261). -/
def ViewRec.discard (v : ViewRec) : ViewRec := { v with state := .discarded, writes := [], tags := [], pz := [] }

/-- The record of a view number. -/
def Package.view (p : Package) (n : Nat) : Option ViewRec := p.views.find? (·.num == n)

/-- A package with a view record changed. -/
def Package.updView (p : Package) (n : Nat) (f : ViewRec → ViewRec) : Package :=
  { p with views := p.views.map (fun v => if v.num == n then f v else v) }

/-- Whether the version of a line that a view chain reads is poisoned: that of its innermost view that holds one (R259,
R266). -/
def Package.versionPoisoned (p : Package) (chain : List Nat) (line : Nat) : Bool :=
  match chain.find? fun v => p.versions.any fun x => x.1 == v && x.2.1 == line with
  | none => false
  | some v => (p.view v).any (·.pz.contains line)

/-- Poisoned data at the home, or in the version that a view chain of a package reads; either way the fault names the base
line (R266, R356). -/
def State.checkPoison (s : State) (own : Nat) (chain : List Nat) (a : Nat) : Except Miss Unit :=
  let p := s.pkg (homePkg a)
  match look p.poison (lineOf a) with
  | some d => .error (.fault (mkFault 0x0F d (p.physLine a)))
  | none =>
    if (s.pkg own).versionPoisoned chain (lineOf a) then .error (.fault (mkFault 0x0F 0x02 (p.physLine a))) else .ok ()

/-- The first poisoned line of a list, as a view chain of a package reads it, faults. -/
def State.poisonAll (s : State) (own : Nat) (chain : List Nat) : List Nat → Except Miss Unit
  | [] => .ok ()
  | l :: rest => do
    s.checkPoison own chain (l * 128)
    s.poisonAll own chain rest

/-- The byte that the innermost view of a chain that wrote an address holds (R238). -/
def Package.viewByte (p : Package) (chain : List Nat) (a : Nat) : Option Byte :=
  chain.findSome? fun n => (p.view n).bind fun v => look v.writes a

/-- The tag that the innermost view of a chain that wrote a granule holds. -/
def Package.viewTag (p : Package) (chain : List Nat) (g : Nat) : Option Bool :=
  chain.findSome? fun n => (p.view n).bind fun v => look v.tags g

/-- The oldest of a list of versions in recency order, with the rest. -/
def lastVersion (l : List (Nat × Nat × Bool)) : Option (Nat × Nat × Bool) := l.getLast?

/-- A version of a line in a view: it exists, or takes one of the four version ways of its set, moving the least
recently used version of the set to the overflow area of its tenant; none when both are full (R260). Versions of
discarded views are dropped when their set is touched (R261). -/
def Package.needVersion (p : Package) (v line : Nat) : Option Package :=
  let dead (n : Nat) : Bool := match p.view n with
    | some r => r.state == .discarded
    | none => true
  let same (l : Nat) : Bool := p.setOf (l * 128) == p.setOf (line * 128)
  let vs := p.versions.filter (fun x => !(same x.2.1 && dead x.1))
  match vs.find? (fun x => x.1 == v && x.2.1 == line) with
  | some x => some { p with versions := x :: vs.erase x }
  | none =>
    let ways := vs.filter (fun x => same x.2.1 && !x.2.2)
    if ways.length < 4 then some { p with versions := (v, line, false) :: vs }
    else match lastVersion ways with
      | none => none
      | some old =>
        let ten := ((p.view old.1).map (·.tenant)).getD 0
        let buckets := ((p.tenants.find? (·.id == ten)).map (·.overflow)).getD 0
        let bucket (l : Nat) : Nat := lineX (l * 128) % buckets
        let held := vs.filter (fun x => x.2.2 && ((p.view x.1).map (·.tenant)).getD 0 == ten &&
          bucket x.2.1 == bucket old.2.1)
        if buckets = 0 || 16 ≤ held.length then none
        else some { p with versions := (v, line, false) :: (vs.erase old ++ [(old.1, old.2.1, true)]) }

/-- A read through a view chain uses the version of a line that its innermost view with one holds: it becomes the most
recently used (R238, R260). -/
def Package.touchVersion (p : Package) (chain : List Nat) (line : Nat) : Package :=
  match chain.findSome? fun v => p.versions.find? fun x => x.1 == v && x.2.1 == line with
  | none => p
  | some x => { p with versions := x :: p.versions.erase x }

/-- The lines of a read become the most recently used versions of the issuing thread's views (R260). -/
def State.touchViews (s : State) (own : Nat) (chain : List Nat) (lines : List Nat) : State :=
  if chain.isEmpty then s else s.updPkg own fun p => lines.foldl (fun p l => p.touchVersion chain l) p

/-- Bytes written into a view, at their addresses; the granules' tags clear (R163, R238). -/
def ViewRec.write (v : ViewRec) (a : Nat) (bytes : List Byte) : ViewRec :=
  { v with
    writes := (bytes.zipIdx).foldl (fun w x => put w (a + x.2) x.1) v.writes
    tags := (granules a bytes.length).foldl (fun w g => put w g false) v.tags }

/-! ### Monitors and holds -/

/-- The register part of a performed `WAITNE`: the reply is written and the program counter advances (R177). -/
def Regs.waitneReply (r : Regs) (i : Option Instr) (x : DWord) : Regs :=
  match i with
  | some (.waitne d a b _ _ _ w) =>
    let r := (r.consume (if w = 1 then [a] else [a, b])).advance 4
    if w = 1 then r.setPair d x else r.setVal d (x.setWidth 32)
  | _ => r

/-- The scope at which a performed `WAITNE` acquires, 0 where it does not. -/
def waitneScope : Option Instr → BitVec 3
  | some (.waitne _ _ _ _ ord scope _) => if ord = 1 then scope else 0
  | _ => 0

/-- A step of another thread: the issuing thread is `(c, n)` while `f` runs. -/
def State.as (s : State) (c : Nat) (n : Fin 8) (f : State → State) : State :=
  { f { s with curCore := c, curSlot := n } with curCore := s.curCore, curSlot := s.curSlot }

/-- The value a monitor watches (R177): GLOBAL memory, a local memory, or a rival's window copy. -/
def State.monitored (s : State) (m : Monitor) : DWord :=
  let mem : Memory := match m.view with
    | some v => (((s.slot m.tcore m.tslot).views.find? (fun x => x.num == v)).map (fun x => x.win)).getD []
    | none => if m.space = spGLOBAL then s.mem else (s.core m.core).loc
  BitVec.ofNat 64 (leValue (mem.readN m.addr m.width))

/-- The reply of a monitor: its thread completes its `WAITNE` (R177). -/
def State.monitorReply (s : State) (m : Monitor) (x : DWord) : State :=
  s.as m.tcore m.tslot fun s =>
    let t := s.me
    let s := (s.acquire (waitneScope t.held)).updMe fun t =>
      { t.unblock with regs := t.regs.waitneReply t.held x, asked := t.asked }
    let s := if m.space = spGLOBAL && m.view.isNone then s.refreshCopy (pkgOf m.tcore) (lineOf m.addr) else s
    (s.updMe fun t => { t with asked := none }).pushDown

/-- After a write, every monitor whose location differs from its value is removed and replies (R177). -/
def State.fireMonitors (s : State) : State :=
  let due := s.monitors.filter (fun m => s.monitored m != m.value)
  if due.isEmpty then s
  else due.foldl (fun s m => s.monitorReply m (s.monitored m))
    { s with monitors := s.monitors.filter (fun m => s.monitored m == m.value) }

/-- Where the byte at an offset through a capability lies, for an agent located at a core. -/
def placeOf (home : Nat) (c : Cap) (off : Int) : Target :=
  let a := (((c.base : Int) + off) % 2 ^ 52).toNat
  if c.space = spWINDOW then ⟨c.space, a / 2 ^ 16 % 2 ^ 26, a % 2 ^ 16, a, c.dom⟩
  else if c.space = spLOCAL then ⟨c.space, home, a % 2 ^ 16, a, c.dom⟩
  else ⟨c.space, home, a, a, c.dom⟩

/-- Whether two places are of one storage: the same local memory, both GLOBAL, or both of one host. -/
def sameStore (x y : Target) : Bool :=
  if x.space = spGLOBAL || y.space = spGLOBAL then x.space == y.space
  else if x.space = spHOST || y.space = spHOST then x.space == y.space && pkgOf x.core == pkgOf y.core
  else (x.space == spLOCAL || x.space == spWINDOW) && (y.space == spLOCAL || y.space == spWINDOW) && x.core == y.core

/-- The units of a copy with the holds broken that a write of `n` bytes touches (R312). -/
def Copy.breakHolds (cp : Copy) (core : Nat) (x : Target) (n : Nat) : Copy :=
  let at_ (u : CopyUnit) (i : Nat) : Bool :=
    let y := placeOf core cp.desc.src (cp.desc.soff.toInt + (u.off + i : Nat))
    sameStore x y && decide (x.addr / 128 ≤ y.addr / 128) && decide (y.addr / 128 ≤ (x.addr + n - 1) / 128)
  let hit (u : CopyUnit) : Bool := !u.bytes.isEmpty && (at_ u 0 || at_ u (u.len - 1))
  { cp with units := cp.units.map (fun u => if hit u then { u with broken := true } else u) }

/-- A write breaks the holds of copy units whose source lines it touches; `own` is the copy that writes (R312). -/
def State.breakHolds (s : State) (x : Target) (n : Nat) (own : Option (Nat × BitVec 16)) : State :=
  let hit (c : Nat) (cp : Copy) : Copy := if own = some (c, cp.id) then cp else cp.breakHolds c x n
  if s.cores.all (fun k => k.2.copies.isEmpty) then s
  else { s with cores := s.cores.map (fun k => (k.1, { k.2 with copies := k.2.copies.map (hit k.1) })) }

/-! ### Reads and writes performed at a home -/

/-- A base write of GLOBAL memory before monitors look at it: the lines are present and become dirty over their HBM images,
the granules' tags clear and holds break (R163, R225, R255, R312). A line that a commit writes into a set without room stays
in the overflow area until there is room (R261; entry 36). -/
def State.putGlobal (s : State) (a : Nat) (bytes : List Byte) (own : Option (Nat × BitVec 16)) : State :=
  let lines := linesOf a bytes.length
  let s := lines.foldl (fun s l => (s.l2Fill l).updPkg (homePkg (l * 128)) fun p =>
    if p.dirty.any (·.line == l) then p else { p with dirty := ⟨l, s.lineBytes l, s.mtags.filter (· / 8 == l)⟩ :: p.dirty }) s
  let s := { s with mem := s.mem.writeN a bytes, mtags := s.mtags.clear (granules a bytes.length) }
  let s := lines.foldl (fun s l => s.keepRoom (homePkg (l * 128)) l) s
  s.breakHolds ⟨spGLOBAL, 0, a, a, 0⟩ bytes.length own

/-- A base write of GLOBAL memory; monitors whose location now differs reply (R177). -/
def State.writeGlobal (s : State) (a : Nat) (bytes : List Byte) (own : Option (Nat × BitVec 16)) : State :=
  (s.putGlobal a bytes own).fireMonitors

/-- A write of a core's local memory before monitors look at it (R163, R251). -/
def State.putLocal (s : State) (c a : Nat) (bytes : List Byte) (own : Option (Nat × BitVec 16)) : State :=
  let s := s.updCore c fun k =>
    { k with loc := k.loc.writeN a bytes, ltags := k.ltags.clear (granules a bytes.length) }
  s.breakHolds ⟨spLOCAL, c, a, a, 0⟩ bytes.length own

/-- A write of a core's local memory; monitors whose location now differs reply (R177). -/
def State.writeLocal (s : State) (c a : Nat) (bytes : List Byte) (own : Option (Nat × BitVec 16)) : State :=
  (s.putLocal c a bytes own).fireMonitors

/-- A write of a package's host memory through its host port (R163, R312). -/
def State.putHost (s : State) (p a : Nat) (bytes : List Byte) (own : Option (Nat × BitVec 16)) : State :=
  (s.updPkg p fun k => { k with host := { k.host with mem := k.host.mem.writeN a bytes } }).breakHolds
    ⟨spHOST, p * 2 ^ 15, a, a, 0⟩ bytes.length own

/-- A word of the CTRL registers published to a tenant (R254, R391). -/
def Tenant.ctrl (t : Tenant) (off : Nat) : Word :=
  if !t.injection then 0
  else if off = 0x800 then t.ijoff
  else if off = 0x804 then t.carm
  else if off = 0x808 then t.ijpc
  else if off = 0x80C then (if t.rarm then 0x80000000 else 0)
  else if off = 0x810 then t.rcnt ++ t.ccnt
  else 0

/-- A CTRL word written; RES bits stay zero, and read-only fields ignore the write (R254, R391). -/
def Tenant.setCtrl (t : Tenant) (off : Nat) (x : Word) : Tenant :=
  if !t.injection then t
  else if off = 0x800 then { t with ijoff := x }
  else if off = 0x804 then { t with carm := x &&& 0x8007FFFF }
  else if off = 0x808 then { t with ijpc := x }
  else if off = 0x80C then { t with rarm := x.getLsbD 31 }
  else t

/-- The tenant record of a package. -/
def Package.tenant (p : Package) (ten : Nat) : Option Tenant := p.tenants.find? (·.id == ten)

/-- A package with a tenant record changed. -/
def Package.updTenant (p : Package) (ten : Nat) (f : Tenant → Tenant) : Package :=
  { p with tenants := p.tenants.map (fun t => if t.id == ten then f t else t) }

/-- A HOST access of a core: the links to the host port must serve, and the host port must be able to complete it; how the
host answers a read is a free value, and a read not yet answered stays outstanding (R350, R352; entry 25). -/
def State.checkHost (s : State) (p c : Nat) (x : Target) (write : Bool) : Except Miss Unit :=
  let h := (s.pkg p).host
  if !s.pairServed c (hostAgent p) then .error (.wait none)
  else if h.state ≠ .enabled then .error (.fault (mkFault 0x0B 0x01 (BitVec.ofNat 64 x.va)))
  else if write then .ok ()
  else match Config.hostReply s.ticks with
    | 0 => .ok ()
    | 1 => .error (.wait none)
    | _ => .error (.fault (mkFault 0x0B 0x03 (BitVec.ofNat 64 x.va)))

/-- The fault of the first poisoned word of a list of words of a local memory (R356, R357). -/
def Core.poisonFault (k : Core) (c : Nat) (words : List Nat) : Option FaultInfo :=
  (words.find? k.lpoison.contains).map fun g => mkFault 0x0F 0x06 (BitVec.ofNat 64 (c % 2 ^ 26 * 2 ^ 16 + g * 16))

/-- An access of words of a local memory waits while the die is fenced or the core's image lies in its context area (R245,
R302), and a word that was marked poisoned faults (R356, R357). -/
def State.checkWords (s : State) (c : Nat) (words : List Nat) : Except Miss Unit :=
  let p := s.pkg (pkgOf c)
  if p.fenced.contains (false, p.coreDie (dieOf c)) || s.saved c then .error (.wait none)
  else match (s.core c).poisonFault c words with
    | none => .ok ()
    | some f => .error (.fault f)

/-- A WINDOW access from a core to one of a package that its own has no route to faults, and waits for the links on its way
(R323, R325, R339 to R341). -/
def State.checkWindow (s : State) (c : Nat) (x : Target) : Except Miss Unit :=
  if x.space ≠ spWINDOW then .ok ()
  else if !s.routed (pkgOf c) (pkgOf x.core) then .error (.fault (pageFault 0x02 x.va))
  else if !s.pairServed c x.core then .error (.wait none)
  else .ok ()

/-- A core's access of words of a local memory: the way and the words are checked. -/
def State.checkLocal (s : State) (c : Nat) (x : Target) (words : List Nat) : Except Miss Unit := do
  s.checkWindow c x
  s.checkWords x.core words

/-- The offset in local memory at which a byte of a thread's LOCAL address is kept: the keep area holds the windows of the
rivals of a world one after the other (R217, R253). -/
def State.keptAt (s : State) (t : Slot) (a : Nat) : Nat :=
  match t.views.find? (fun v => v.rival && v.inWindow a 1) with
  | none => a
  | some v => match (s.pkg (pkgOf t.home)).worlds.find? (·.id == v.world) with
    | none => a
    | some w => w.keep.1 + v.index * v.winLen + (a - v.winBase)

/-- The words of local memory that hold `n` bytes at a thread's LOCAL address (R217, R253). -/
def State.keptWords (s : State) (t : Slot) (a n : Nat) : List Nat :=
  if t.views.any (·.rival) then (granules a n).map fun g => s.keptAt t (max a (g * 16)) / 16 else granules a n

/-- A byte of local memory as a thread's LOCAL access reads it: a rival's window copy comes first (R160, R217). -/
def State.localByte (s : State) (views : List View) (c a : Nat) : Byte :=
  match views.find? (fun v => v.rival && v.inWindow a 1) with
  | some v => v.win.read a
  | none => (s.core c).loc.read a

/-- A byte of GLOBAL memory as a view chain reads it (R238). -/
def State.globalByte (s : State) (pkg : Nat) (chain : List Nat) (a : Nat) : Byte :=
  match (s.pkg pkg).viewByte chain a with
  | some x => x
  | none => s.mem.read a

/-- The read copy that answers a read of a line, if one does: which of a valid copy and the home answers a plain read
is a free value (R224, R258; entry 21). -/
def State.answering (s : State) (plain : Bool) (line : Nat) : Option ReadCopy :=
  if plain && Config.proxyAnswers s.ticks then s.validCopy (pkgOf s.curCore) line else none

/-- The tag of the granule at an address, as a thread reads it (R163). -/
def State.tagAt (s : State) (x : Target) (plain : Bool) : Bool :=
  let t := s.me
  let g := x.addr / 16
  if x.space = spGLOBAL then
    match (s.pkg (pkgOf s.curCore)).viewTag t.chain g with
    | some b => b
    | none => match s.answering plain (lineOf x.addr) with
      | some c => c.tags.contains g
      | none => s.mtags.contains g
  else if x.space = spLOCAL then
    match t.views.find? (fun v => v.rival && v.inWindow x.addr 16) with
    | some v => v.winTags.contains g
    | none => (s.core x.core).ltags.contains g
  else if x.space = spWINDOW then (s.core x.core).ltags.contains g
  else false

/-- A read of `n` bytes performed for the issuing thread (R224, R225, R238). A plain read of a remote line may be
answered by a valid read copy; which it is, is a free value (entry 21). -/
def State.readAt (s : State) (x : Target) (n : Nat) (plain : Bool) (need : BitVec 7) :
    Except Miss (List Byte × State) :=
  let t := s.me
  let own := pkgOf s.curCore
  if x.space = spLOCAL || x.space = spWINDOW then do
    s.checkLocal s.curCore x (if x.space = spLOCAL then s.keptWords t x.addr n else granules x.addr n)
    let views := if x.space = spLOCAL then t.views else []
    .ok ((List.range n).map (fun i => s.localByte views x.core (x.addr + i)), s)
  else if x.space = spGLOBAL then do
    let s ← s.checkRights s.curCore x n need
    match s.answering (plain && (linesOf x.addr n).length == 1) (lineOf x.addr) with
    | some c =>
      let s := s.touchViews own t.chain (linesOf x.addr n)
      .ok ((List.range n).map (fun i =>
        match (s.pkg own).viewByte t.chain (x.addr + i) with
        | some b => b
        | none => c.bytes.getD ((x.addr + i) % 128) 0), s)
    | none =>
      let s ← s.reachAll own s.curCore x.addr (linesOf x.addr n)
      s.poisonAll own t.chain (linesOf x.addr n)
      let s := ((linesOf x.addr n).foldl (fun s l => s.refreshCopy own l) s).touchViews own t.chain (linesOf x.addr n)
      .ok ((List.range n).map (fun i => s.globalByte own t.chain (x.addr + i)), s)
  else if x.space = spHOST then do
    let s ← s.checkRights s.curCore x n need
    s.checkHost own s.curCore x false
    .ok ((s.pkg own).host.mem.readN x.addr n, s)
  else
    let w (off : Nat) : Word := (((s.pkg own).tenant t.tenant).map (·.ctrl off)).getD 0
    .ok (leBytes n ((w (x.addr / 4 * 4)).toNat + 2 ^ 32 * (w (x.addr / 4 * 4 + 4)).toNat), s)

/-- A version of a line in a view of a package for an access at an address: view exhaustion when the set's version ways and
the overflow bucket are full; a set without room for one more line is waited for (R255, R260). -/
def State.versionFor (s : State) (own v a line : Nat) : Except Miss State :=
  match (s.pkg own).needVersion v line with
  | none => .error (.fault (mkFault 0x07 0 (BitVec.ofNat 64 a)))
  | some p =>
    if p.setUsed line ≤ p.waysOf (line * 128) then .ok (s.setPkg own p)
    else if !(s.pkg own).hasRoom line then .error (.wait none)
    else .ok (((s.l2Room own line).updPkg own fun q => { q with versions := p.versions }).keepRoom own line)

/-- A version of every line of a list in a view. -/
def State.versionsFor (s : State) (own v a : Nat) : List Nat → Except Miss State
  | [] => .ok s
  | l :: rest => do
    let s ← s.versionFor own v a l
    s.versionsFor own v a rest

/-- A write into the issuing thread's innermost view: a version of every line it touches is needed (R213, R260). -/
def State.writeView (s : State) (v : Nat) (a : Nat) (bytes : List Byte) : Except Miss State := do
  let own := pkgOf s.curCore
  let s ← s.versionsFor own v a (linesOf a bytes.length)
  .ok (s.updPkg own (·.updView v (·.write a bytes)))

/-- A write of bytes performed for the issuing thread, before monitors look at it (R160, R225, R238, R244). -/
def State.placeAt (s : State) (x : Target) (bytes : List Byte) (need : BitVec 7) : Except Miss State :=
  let t := s.me
  let own := pkgOf s.curCore
  let n := bytes.length
  if x.space = spLOCAL || x.space = spWINDOW then do
    s.checkLocal s.curCore x []
    if x.space = spLOCAL && t.inWorld then
      .ok (s.updMe fun t => { t with views := updRival t.views x.addr bytes })
    else .ok (s.putLocal x.core x.addr bytes none)
  else if x.space = spGLOBAL then do
    let s ← s.checkRights s.curCore x n need
    let s ← s.reachAll own s.curCore x.addr (linesOf x.addr n)
    match t.chain.head? with
    | some v => do
      let s ← s.writeView v x.addr bytes
      s.poisonAll own t.chain (linesOf x.addr n)
      .ok s
    | none => do
      s.poisonAll own t.chain (linesOf x.addr n)
      let s := s.putGlobal x.addr bytes none
      .ok ((linesOf x.addr n).foldl (fun s l => s.refreshCopy own l) s)
  else if x.space = spHOST then do
    let s ← s.checkRights s.curCore x n need
    s.checkHost own s.curCore x true
    .ok (s.putHost own x.addr bytes none)
  else
    let w (k : Nat) : Word := BitVec.ofNat 32 (leValue ((bytes.drop (4 * k)).take 4))
    .ok (s.updPkg own fun p => p.updTenant t.tenant fun t =>
      (List.range (n / 4)).foldl (fun t k => t.setCtrl (x.addr / 4 * 4 + 4 * k) (w k)) t)
where
  /-- The innermost rival's window copy written (R160). -/
  updRival : List View → Nat → List Byte → List View
    | [], _, _ => []
    | v :: rest, a, bytes =>
      if v.rival then
        { v with win := v.win.writeN a bytes, winTags := v.winTags.clear (granules a bytes.length) } :: rest
      else v :: updRival rest a bytes

/-- A write of bytes performed for the issuing thread; monitors reply after it (R177). -/
def State.writeAt (s : State) (x : Target) (bytes : List Byte) (need : BitVec 7) : Except Miss State :=
  (s.placeAt x bytes need).map State.fireMonitors

/-- The tag of a 16-byte granule written with its bytes (R163, R223). -/
def State.setTag (s : State) (x : Target) (tag : Bool) : State :=
  let t := s.me
  let own := pkgOf s.curCore
  let g := x.addr / 16
  if x.space = spGLOBAL then
    match t.chain.head? with
    | some v => s.updPkg own fun p => p.updView v fun r => { r with tags := put r.tags g tag }
    | none => ({ s with mtags := s.mtags.put g tag } : State).refreshCopy own (lineOf x.addr)
  else if x.space = spLOCAL && t.inWorld then
    s.updMe fun t => { t with views := rivalTag t.views g tag }
  else s.updCore x.core fun k => { k with ltags := k.ltags.put g tag }
where
  /-- The tag of a granule of the innermost rival's window copy. -/
  rivalTag : List View → Nat → Bool → List View
    | [], _, _ => []
    | v :: rest, g, tag =>
      if v.rival then { v with winTags := v.winTags.put g tag } :: rest else v :: rivalTag rest g tag

/-! ### Memory instructions -/

/-- The issuing thread waits in MEMORY for the home of its access, with the instruction held; its request left when it was
first issued (R159, R258). -/
def State.awaitHome (s : State) (i : Instr) (line : Option Nat) : State :=
  s.updMe fun t => { t.block .memory .request with
    held := some i, asked := some (t.asked.getD (s.pkg (pkgOf s.curCore)).stamp), wants := line }

/-- A memory instruction of the issuing thread: its operation answers the registers after it; a fault is taken with no
effect, and a wait leaves the thread in MEMORY with the instruction held (R159). -/
def State.memory (i : Instr) (len : Nat) (srcs dsts : List (BitVec 5))
    (op : State → Except Miss (Regs × State)) (s : State) : State :=
  s.scoped i srcs dsts fun s =>
    match op s with
    | .ok (r, s) => .ok (s.setRegs (r.advance len))
    | .error (.fault f) => .error (.trap s f)
    | .error (.wait line) => .error (.wait (s.awaitHome i line))

/-- A fault found before the access leaves the core. -/
def liftFault {α : Type} : Except FaultInfo α → Except Miss α
  | .ok x => .ok x
  | .error f => .error (.fault f)

end Sys2Proof.Machine
end

