-- ==== Sys2Proof/Machine/Flags.lean ====
section
/-!
DEFINITION. Flag computations: which sticky flags of `tst` an operation raises (R36, R107, R162).
-/

namespace Sys2Proof.Machine

/-- The flag of a division or remainder: `dz` when the divisor is zero (R107). -/
def divFlags {n : Nat} (b : BitVec n) : BitVec 6 := if b = 0 then fDZ else 0

/-- The flag of a raw store of an element: `td` when a sticky bit of 1 is dropped (R162). -/
def storeFlags (t : BitVec 2) : BitVec 6 := if stkOf t then fTD else 0

/-- The union of flags (R130). -/
def unionFlags (l : List FRes) : BitVec 6 := l.foldl (fun f x => f ||| x.flags) 0

/-- A write of 1 to a bit of `tst` clears it (R36, R121). -/
def clearFlags (tst x : Word) : Word := tst &&& ~~~(x &&& 0x3F)

end Sys2Proof.Machine
end

