-- ==== Sys2Proof/Machine/Operands.lean ====
section
/-!
DEFINITION. Operand forms: typed scalar operands and pairs (R51, R129), typed vector elements under a mask (R22, R23,
R130), and the offsets of memory operands (R49, R156).
-/

namespace Sys2Proof.Machine

/-- An outcome of the machine. -/
abbrev Out := Host.Outcome State Fault Refusal

/-- Whether a type code names a 64-bit element (R51). -/
def wide (ty : BitVec 5) : Bool := (tyOf ty).width == 64

/-- The scalar operand of a type: an `s` register, or a pair for a 64-bit type (R129). -/
def Regs.elem (r : Regs) (ty n : BitVec 5) : FElem :=
  if wide ty then r.pairElem n else ⟨(r.val n).zeroExtend 64, (r.get n).tail⟩

/-- A scalar result of a type: narrow signed integers are sign-extended, everything else zero-extended (R129). -/
def extendTo32 (ty : BitVec 5) (x : DWord) : Word :=
  match tyOf ty with
  | .int true 8 => sx32 (x.setWidth 8)
  | .int true 16 => sx32 (x.setWidth 16)
  | t => BitVec.ofNat 32 (x.toNat % 2 ^ t.width)

/-- A scalar result written as an element of a type with its tail (R21, R129). -/
def Regs.setElem (r : Regs) (ty n : BitVec 5) (x : DWord) (t : BitVec 2) : Regs :=
  if wide ty then r.setPairElem n x t else r.put n ⟨extendTo32 ty x, t⟩

/-- A result with flags written (R129). -/
def Regs.setRes (r : Regs) (ty n : BitVec 5) (x : FRes) : Regs := (r.setElem ty n x.bits x.tail).raise x.flags

/-- How many elements of a type a vector register holds (R22). -/
def lanesOf (ty : BitVec 5) : Nat := if wide ty then 4 else 8

/-- Element `i` of a vector register by type (R22, R129). -/
def vecElem (ty : BitVec 5) (v : Vector Elem 8) (i : Nat) : FElem :=
  if wide ty then elem64 v (Fin.ofNat 4 i)
  else
    let x := v[Fin.ofNat 8 i]
    ⟨x.val.zeroExtend 64, x.tail⟩

/-- A vector whose enabled elements of a type are replaced; the others keep their values and tails (R23, R129). -/
def vecPut (ty : BitVec 5) (m : BitVec 8) (old : Vector Elem 8) (f : Nat → FRes) : Vector Elem 8 :=
  if wide ty then
    halves old m f
  else Vector.ofFn fun i =>
    if m.getLsbD i.val then
      let x := f i.val
      ⟨extendTo32 ty x.bits, x.tail⟩
    else old[i]
where
  /-- Four 64-bit elements; a disabled element keeps both its lanes. -/
  halves (old : Vector Elem 8) (m : BitVec 8) (f : Nat → FRes) : Vector Elem 8 := Vector.ofFn fun i =>
    if m.getLsbD (i.val / 2) then
      let x := f (i.val / 2)
      if i.val % 2 = 0 then ⟨x.bits.setWidth 32, 0⟩ else ⟨x.bits.extractLsb' 32 32, x.tail⟩
    else old[i]

/-- The enabled elements of `n` under a mask, ascending. -/
def enabled (m : BitVec 8) (n : Nat) : List Nat := (List.range n).filter (fun i => m.getLsbD i)

/-- The flags that the enabled elements of a vector operation raise (R130). -/
def vecFlags (ty : BitVec 5) (m : BitVec 8) (f : Nat → FRes) : BitVec 6 :=
  unionFlags ((enabled m (lanesOf ty)).map f)

/-- A vector operation: each enabled element replaced, and the union of the flags raised (R130). -/
def Regs.setVecRes (r : Regs) (ty d : BitVec 5) (m : BitVec 8) (f : Nat → FRes) : Regs :=
  (r.setVec d (vecPut ty m (r.vec d) f)).raise (vecFlags ty m f)

/-- The offset of the MR, MV, MA and MX layouts: SX(S[a], 64) bytes (R156). -/
def Regs.offset (r : Regs) (a : BitVec 5) : Int := (r.val a).toInt

/-- The offset of the MI layouts: SX(imm11) times the access size (R49, R156). -/
def immOffset (imm : BitVec 11) (z : Nat) : Int := imm.toInt * z

/-- The bytes of a capability in memory (R246). -/
def capBytes (c : Cap) : List Byte := leBytes 16 c.bits.toNat

/-- A capability from its bytes and tag (R246). -/
def capOf (bytes : List Byte) (tag : Bool) : Cap := ⟨tag, BitVec.ofNat 128 (leValue bytes)⟩

end Sys2Proof.Machine
end

