-- ==== Sys2Proof/Machine/Float.lean ====
section
/-!
DEFINITION. Scalar floating point (R128 to R141, R146): arithmetic rounds once to the odd form (R81), conversions and
tails.
-/

namespace Sys2Proof.Machine

/-! ### Element operations, shared with the vector forms -/

/-- One arithmetic result: the exact operation, then the odd form at p + 2 (R81, R133). -/
def arith (f : Fmt) (x : XRes) : FRes := f.ro x.val x.flags

/-- `FADD` of two elements. -/
def elAdd (ty : BitVec 5) (a b : FElem) : FRes :=
  arith (fmtOf ty) (xAdd ((tyOf ty).xval a) ((tyOf ty).xval b))
/-- `FSUB` of two elements. -/
def elSub (ty : BitVec 5) (a b : FElem) : FRes :=
  arith (fmtOf ty) (xSub ((tyOf ty).xval a) ((tyOf ty).xval b))
/-- `FMUL` of two elements. -/
def elMul (ty : BitVec 5) (a b : FElem) : FRes :=
  arith (fmtOf ty) (xMul ((tyOf ty).xval a) ((tyOf ty).xval b))
/-- `FDIV` of two elements. -/
def elDiv (ty : BitVec 5) (a b : FElem) : FRes :=
  arith (fmtOf ty) (xDiv ((tyOf ty).xval a) ((tyOf ty).xval b))
/-- `FFMA`: `a * b + d` of three elements. -/
def elFma (ty : BitVec 5) (d a b : FElem) : FRes :=
  arith (fmtOf ty) (xFma ((tyOf ty).xval a) ((tyOf ty).xval b) ((tyOf ty).xval d))
/-- `FSQRT` of an element. -/
def elSqrt (ty : BitVec 5) (a : FElem) : FRes := arith (fmtOf ty) (xSqrt ((tyOf ty).xval a))
/-- `FMIN` of two elements (R134). -/
def elMin (ty : BitVec 5) (a b : FElem) : FRes := fMinMax (fmtOf ty) false a b
/-- `FMAX` of two elements (R134). -/
def elMax (ty : BitVec 5) (a b : FElem) : FRes := fMinMax (fmtOf ty) true a b
/-- `FABS` of an element (R134). -/
def elAbs (ty : BitVec 5) (a : FElem) : FRes := fSign (fmtOf ty) false a
/-- `FNEG` of an element (R134). -/
def elNeg (ty : BitVec 5) (a : FElem) : FRes := fSign (fmtOf ty) true a
/-- `FCLASS` of an element (R137). -/
def elClass (ty : BitVec 5) (a : FElem) : FRes := ⟨BitVec.ofNat 64 (fClass (fmtOf ty) a), 0, 0⟩
/-- The relation code of two elements (R135). -/
def elCmp (ty : BitVec 5) (a b : FElem) : Nat := fcmpCode ((tyOf ty).xval a) ((tyOf ty).xval b)
/-- `CVT` of an element (R87, R139). -/
def elCvt (stype ty : BitVec 5) (a : FElem) : FRes := cvtTo (tyOf stype) (tyOf ty) a
/-- `CVTF` of an element at a position (R82 to R86, R139). -/
def elCvtf (stype ty : BitVec 5) (fcr : Word) (pos : Nat) (a : FElem) : FRes :=
  finalTo (tyOf stype) (tyOf ty) ty fcr pos a
/-- `FRND` of an element at a position (R139). -/
def elFrnd (ty : BitVec 5) (fcr : Word) (pos : Nat) (a : FElem) : FRes := frndTo (fmtOf ty) ty fcr pos a

/-! ### Scalar forms -/

/-- A scalar form with one source. -/
def State.float1 (d a sty ty : BitVec 5) (f : Regs → FElem → FRes) (s : State) : Out :=
  .next (s.plain 4 [a] [d] fun r => .ok (r.setRes ty d (f r (r.elem sty a))))

/-- A scalar form with two sources, of either length. -/
def State.float2 (len : Nat) (d a b ty : BitVec 5) (f : FElem → FElem → FRes) (s : State) : Out :=
  .next (s.plain len [a, b] [d] fun r => .ok (r.setRes ty d (f (r.elem ty a) (r.elem ty b))))

/-- `FADD` (R133). -/
def execFadd (d a b ty : BitVec 5) (s : State) : Out := s.float2 4 d a b ty (elAdd ty)
/-- `FSUB` (R133). -/
def execFsub (d a b ty : BitVec 5) (s : State) : Out := s.float2 4 d a b ty (elSub ty)
/-- `FMUL` (R133). -/
def execFmul (d a b ty : BitVec 5) (s : State) : Out := s.float2 4 d a b ty (elMul ty)
/-- `FMIN` (R134). -/
def execFmin (d a b ty : BitVec 5) (s : State) : Out := s.float2 4 d a b ty (elMin ty)
/-- `FMAX` (R134). -/
def execFmax (d a b ty : BitVec 5) (s : State) : Out := s.float2 4 d a b ty (elMax ty)
/-- `FDIV` (R133). -/
def execFdiv (d a b ty : BitVec 5) (s : State) : Out := s.float2 4 d a b ty (elDiv ty)
/-- Short `FADD.f32` (R58). -/
def execFaddShort (a b : BitVec 5) (s : State) : Out := s.float2 2 a a b 9 (elAdd 9)
/-- Short `FMUL.f32` (R58). -/
def execFmulShort (a b : BitVec 5) (s : State) : Out := s.float2 2 a a b 9 (elMul 9)
/-- `FABS` (R134). -/
def execFabs (d a ty : BitVec 5) (s : State) : Out := s.float1 d a ty ty fun _ => elAbs ty
/-- `FNEG` (R134). -/
def execFneg (d a ty : BitVec 5) (s : State) : Out := s.float1 d a ty ty fun _ => elNeg ty
/-- `FSQRT` (R133). -/
def execFsqrt (d a ty : BitVec 5) (s : State) : Out := s.float1 d a ty ty fun _ => elSqrt ty
/-- `FCLASS` (R137): a word of integer class, in the low half of a pair at 64 bits. -/
def execFclass (d a ty : BitVec 5) (s : State) : Out :=
  .next (s.plain 4 [a] [d] fun r =>
    let x := BitVec.ofNat 64 (fClass (fmtOf ty) (r.elem ty a))
    .ok (if wide ty then r.setPair d x else r.setVal d (x.setWidth 32)))
/-- `FCMP` (R135): a code of integer class, in the low half of a pair at 64 bits. -/
def execFcmp (d a b ty : BitVec 5) (s : State) : Out :=
  .next (s.plain 4 [a, b] [d] fun r =>
    let x := BitVec.ofNat 64 (elCmp ty (r.elem ty a) (r.elem ty b))
    .ok (if wide ty then r.setPair d x else r.setVal d (x.setWidth 32)))
/-- `FFMA` (R133): reads and writes `d`. -/
def execFfma (d a b ty : BitVec 5) (s : State) : Out :=
  .next (s.plain 4 [a, b] [d] fun r => .ok (r.setRes ty d (elFma ty (r.elem ty d) (r.elem ty a) (r.elem ty b))))
/-- `CVT` (R87, R139). -/
def execCvt (d a stype ty : BitVec 5) (s : State) : Out := s.float1 d a stype ty fun _ => elCvt stype ty
/-- `CVTF` (R139). -/
def execCvtf (d a stype ty : BitVec 5) (s : State) : Out := s.float1 d a stype ty fun r => elCvtf stype ty r.fcr 0
/-- `FRND` (R139). -/
def execFrnd (d a _stype ty : BitVec 5) (s : State) : Out := s.float1 d a ty ty fun r => elFrnd ty r.fcr 0
/-- `TAILGET` (R141). -/
def execTailget (d a : BitVec 5) (s : State) : Out :=
  .next (s.plain 4 [a] [d] fun r => .ok (r.setVal d ((r.get a).tail.zeroExtend 32)))
/-- `TAILSET` (R141). -/
def execTailset (d a b : BitVec 5) (s : State) : Out :=
  .next (s.plain 4 [a, b] [d] fun r => .ok (r.put d ⟨r.val a, (r.val b).setWidth 2⟩))
/-- `RNDK` (R146). -/
def execRndk (d a b : BitVec 5) (s : State) : Out :=
  .next (s.plain 4 [a, b] [d] fun r => .ok (r.setVal d (kg (seedOf r.fcr) (r.val a) (r.val b))))

end Sys2Proof.Machine
end

