-- ==== Sys2Proof/Machine/Special.lean ====
section
/-!
DEFINITION. The special functions (R138). Each result is the odd form of a real within one ulp of the function's value:
the exact cases and special operands are as the table of R138 states, and elsewhere the place within the bound is a
free value (`Config.specialSlack`, entry 20) around an approximation far finer than the free value's unit.
-/

namespace Sys2Proof.Machine

/-- 256 fraction bits of fixed-point numbers. -/
def fxBits : Nat := 256

/-- ln 2 in 256 fraction bits. -/
def fxLn2 : Nat :=
  80260960185991308862233904206310070533990667611589946606122867505419956976171

/-- π in 256 fraction bits. -/
def fxPi : Nat :=
  363771576891766324280234942777729862653393377328392429958772151117938894466185

/-- A product of fixed-point numbers. -/
def fxMul (a b : Nat) : Nat := (a * b) >>> fxBits

/-- The terms of e^t from the `k`-th on, `n` of them: `term` is t^(k-1)/(k-1)!. -/
def fxExpTail (t : Nat) : Nat → Nat → Nat → Nat
  | 0, _, _ => 0
  | n + 1, k, term =>
    let x := fxMul term t / k
    x + fxExpTail t n (k + 1) x

/-- e^t for t below 1. -/
def fxExp (t : Nat) : Nat := 2 ^ fxBits + fxExpTail t 80 1 (2 ^ fxBits)

/-- The terms of sin t from t^k/k! on, with alternating signs: the sum of the added and of the subtracted terms. -/
def fxSinTail (t2 : Nat) : Nat → Nat → Nat → Bool → Nat × Nat
  | 0, _, _, _ => (0, 0)
  | n + 1, k, term, sub =>
    let r := fxSinTail t2 n (k + 2) (fxMul term t2 / ((k + 1) * (k + 2))) (!sub)
    if sub then (r.1, r.2 + term) else (r.1 + term, r.2)

/-- sin t for t from 0 to π/2. -/
def fxSin (t : Nat) : Nat :=
  let r := fxSinTail (fxMul t t) 50 1 t false
  r.1 - r.2

/-- `n` fraction bits of log2 of a fixed-point number in [1, 2). -/
def fxLog2Bits : Nat → Nat → Nat → Nat
  | 0, _, acc => acc
  | n + 1, x, acc =>
    let y := fxMul x x
    if 2 ^ (fxBits + 1) ≤ y then fxLog2Bits n (y >>> 1) (2 * acc + 1) else fxLog2Bits n y (2 * acc)

/-- The six functions, numbered as fn of major 0x21 (R138). -/
inductive SpecialFn where
  | rcp | rsq | exp2 | log2 | sin | cos
  deriving DecidableEq, Repr

/-- The number of a special function (R138). -/
def SpecialFn.num : SpecialFn → Nat
  | .rcp => 0
  | .rsq => 1
  | .exp2 => 2
  | .log2 => 3
  | .sin => 4
  | .cos => 5

/-- A special function's value before rounding: exact, or near an approximation within one ulp. -/
inductive SpecialVal where
  | exact (x : XRes)
  | near (x : XVal)
  deriving DecidableEq, Repr

/-- An exact result without flags. -/
def exactly (x : XVal) : SpecialVal := .exact ⟨x, 0⟩

/-- An invalid operation. -/
def invalid : SpecialVal := .exact ⟨.nan, fNV⟩

/-- A zero with tail 01: below every quarter of an ulp. -/
def tinyVal (neg : Bool) : XVal := .fin neg 1 (-100000)

/-- Whether a magnitude is a power of two. -/
def isPow2 (m : Nat) : Bool := m == 2 ^ Nat.log2 m

/-- The integer part of `m * 2^e`, whether a half follows it exactly, and the fraction in 256 bits with whether it is
exact zero: only `e ≥ -256` keeps every bit, which holds for every operand that is not tiny. -/
def splitInt (m : Nat) (e : Int) : Nat × Nat × Nat :=
  if 0 ≤ e then (m * 2 ^ e.toNat, 0, 1)
  else
    let u := 2 ^ (-e).toNat
    (m / u, m % u, u)

/-- 1/x (R138). -/
def rcpVal : XVal → SpecialVal
  | .nan => exactly .nan
  | .inf n o => exactly (if o then tinyVal n else .fin n 0 0)
  | .fin n m e =>
    if m = 0 then .exact ⟨.inf n false, fDZ⟩
    else if isPow2 m then exactly (.fin n 1 (-(e + Nat.log2 m)))
    else .near (finDiv n 1 0 m e)

/-- 1/√x (R138). -/
def rsqVal : XVal → SpecialVal
  | .nan => exactly .nan
  | .inf n o => if n then invalid else exactly (if o then tinyVal false else .fin false 0 0)
  | .fin n m e =>
    if m = 0 then .exact ⟨.inf n false, fDZ⟩
    else if n then invalid
    else if isPow2 m && (e + Nat.log2 m) % 2 = 0 then exactly (.fin false 1 (-((e + Nat.log2 m) / 2)))
    else match finDiv false 1 0 m e with
      | .fin _ q f => .near (finSqrt q f)
      | x => .near x

/-- 2^i as a value; exponents beyond every format are clamped. -/
def pow2Val (i : Int) : XVal := .fin false 1 (max (-100000) (min i 100000))

/-- 2^x (R138). -/
def exp2Val : XVal → SpecialVal
  | .nan => exactly .nan
  | .inf n o => exactly (if n then (if o then tinyVal false else .fin false 0 0) else .inf false o)
  | .fin n m e =>
    if 20 < magLog2 m e && m ≠ 0 then
      -- |x| ≥ 2^21: an integer, or so large that its fraction cannot matter beyond the exponent's clamp
      exactly (pow2Val (if n then -100000 else 100000))
    else
      let (i, r, u) := splitInt m e
      if r = 0 then exactly (pow2Val (if n then -(i : Int) else i))
      else
        -- x = i' + fr with 0 < fr < 1
        let fr := (r <<< fxBits) / u
        let fr' := if n then 2 ^ fxBits - fr else fr
        let i' : Int := if n then -(i : Int) - 1 else i
        .near (.fin false (fxExp (fxMul fr' fxLn2)) (i' - fxBits))

/-- log2 x (R138). -/
def log2Val : XVal → SpecialVal
  | .nan => exactly .nan
  | .inf n o => if n then invalid else exactly (.inf false o)
  | .fin n m e =>
    if m = 0 then .exact ⟨.inf true false, fDZ⟩
    else if n then invalid
    else
      let k := Nat.log2 m
      let i : Int := e + k
      if isPow2 m then exactly (.fin (decide (i < 0)) i.natAbs 0)
      else
        let frac := fxLog2Bits 128 ((m <<< fxBits) >>> k) 0
        let total : Int := i * 2 ^ 128 + frac
        .near (.fin (decide (total < 0)) total.natAbs (-128))

/-- sin(π x) for a nonnegative magnitude reduced to at most one half: `r / u`. -/
def sinPart (neg : Bool) (r u : Nat) (m : Nat) (e : Int) (small : Bool) : XVal :=
  if small then .fin neg (m * fxPi) (e - fxBits)
  else .fin neg (fxSin (fxMul ((r <<< fxBits) / u) fxPi)) (-(fxBits : Int))

/-- sin(π x) (R138). -/
def sinVal : XVal → SpecialVal
  | .nan => exactly .nan
  | .inf _ _ => invalid
  | .fin n m e =>
    let (i, r, u) := splitInt m e
    if r = 0 then exactly (.fin n 0 0)
    else
      let neg := n != (i % 2 == 1)
      if 2 * r = u then exactly (.fin neg 1 0)
      else
        let small := decide (magLog2 m e < -60)
        let q := if 2 * r < u then r else u - r
        .near (sinPart neg q u m e small)

/-- cos(π x) (R138). -/
def cosVal : XVal → SpecialVal
  | .nan => exactly .nan
  | .inf _ _ => invalid
  | .fin _ m e =>
    let (i, r, u) := splitInt m e
    if r = 0 then exactly (.fin (i % 2 == 1) 1 0)
    else if 2 * r = u then exactly (.fin false 0 0)
    else
      -- cos(π x) = ± sin(π (1/2 - x)) on the half turn
      let neg := (i % 2 == 1) != decide (u < 2 * r)
      let q := if 2 * r < u then u - 2 * r else 2 * r - u
      .near (sinPart neg q (2 * u) 0 0 false)

/-- The value of a special function. -/
def SpecialFn.val : SpecialFn → XVal → SpecialVal
  | .rcp => rcpVal
  | .rsq => rsqVal
  | .exp2 => exp2Val
  | .log2 => log2Val
  | .sin => sinVal
  | .cos => cosVal

/-- The exponent of ulp(v) of a nonzero magnitude (R77). -/
def Fmt.ulpExp (f : Fmt) (m : Nat) (e : Int) : Int := max (magLog2 m e) f.emin - f.fbits

/-- The free place within the bound, in 2^-20 of an ulp, strictly inside one ulp (R138; entry 20). -/
def slackOf (fn : SpecialFn) (ty : BitVec 5) (a : FElem) : Int :=
  max (-(2 ^ 20 - 1)) (min (Config.specialSlack fn.num ty.toNat
    (BitVec.ofNat 32 (a.bits.toNat % 2 ^ (tyOf ty).width)) a.tail) (2 ^ 20 - 1))

/-- The exponent of ulp(f(x)) for a value near f(x) (R77, R138): one that lies within 2^-60 of itself above a power of two
may stand for an f(x) below it, whose ulp is half as large. -/
def Fmt.ulpBelow (f : Fmt) (m : Nat) (e : Int) : Int := f.ulpExp (m * (2 ^ 60 - 1)) (e - 60)

/-- A special function of an element (R138). -/
def elSpecial (fn : SpecialFn) (ty : BitVec 5) (a : FElem) : FRes :=
  let f := fmtOf ty
  match fn.val ((tyOf ty).xval a) with
  | .exact x => arith f x
  | .near (.fin n m e) =>
    let k := slackOf fn ty a
    f.ro (finAdd n m e (decide (k < 0)) k.natAbs (f.ulpBelow m e - 20)) 0
  | .near x => f.ro x 0

/-- `FRCP` (R138). -/
def execFrcp (d a ty : BitVec 5) (s : State) : Out := s.float1 d a ty ty fun _ => elSpecial .rcp ty
/-- `FRSQ` (R138). -/
def execFrsq (d a ty : BitVec 5) (s : State) : Out := s.float1 d a ty ty fun _ => elSpecial .rsq ty
/-- `FEXP2` (R138). -/
def execFexp2 (d a ty : BitVec 5) (s : State) : Out := s.float1 d a ty ty fun _ => elSpecial .exp2 ty
/-- `FLOG2` (R138). -/
def execFlog2 (d a ty : BitVec 5) (s : State) : Out := s.float1 d a ty ty fun _ => elSpecial .log2 ty
/-- `FSIN` (R138). -/
def execFsin (d a ty : BitVec 5) (s : State) : Out := s.float1 d a ty ty fun _ => elSpecial .sin ty
/-- `FCOS` (R138). -/
def execFcos (d a ty : BitVec 5) (s : State) : Out := s.float1 d a ty ty fun _ => elSpecial .cos ty

end Sys2Proof.Machine
end

