-- ==== Sys2Proof/Machine/Vector.lean ====
section
/-!
DEFINITION. Vector instructions (R130, R133 to R146): what a sequencer entry does to its thread's registers, and the
form every vector instruction takes in the sequencer (R147, R150).
-/

namespace Sys2Proof.Machine

/-- The operations of the sequencer instructions (R147). -/
inductive VKind where
  | tailget | tailset
  | fadd | fsub | fmul | fmin | fmax | fdiv | ffma | fcmp
  | fabs | fneg | fsqrt | fclass
  | special (fn : SpecialFn)
  | cvt | cvtf | frnd
  | vshuf | vrot | vbcast | vsel | vidx
  | redAdd | redMin | redMax | redAnd | redOr | redXor
  | pack | vlut | rndk
  deriving DecidableEq, Repr

/-- A sequencer instruction with its operand fields; `aux` is the predicate of `FCMP.v` or the source type of a
conversion. -/
structure VForm where
  kind : VKind
  d    : BitVec 5
  a    : BitVec 5
  b    : BitVec 5
  k    : BitVec 3
  ty   : BitVec 5
  aux  : BitVec 5
  deriving DecidableEq, Repr

/-- What an entry captured at issue (R147): the `fcr` value and the scalar source; with the gang member's index. -/
structure VCtx where
  fcr    : Word
  x      : Elem
  member : Nat
  deriving DecidableEq, Repr

/-- Whether the `d` field names a vector register: not for `VRED` and `FCMP.v`. -/
def VKind.dVector : VKind → Bool
  | .redAdd | .redMin | .redMax | .redAnd | .redOr | .redXor | .fcmp => false
  | _ => true

/-- Whether the `a` field names a vector register. -/
def VKind.aVector : VKind → Bool
  | .vbcast | .vidx => false
  | _ => true

/-- Whether the `b` field names a vector register. -/
def VKind.bVector : VKind → Bool
  | .tailset | .fadd | .fsub | .fmul | .fmin | .fmax | .fdiv | .ffma | .fcmp | .vshuf | .vsel | .pack => true
  | _ => false

/-- The scalar source register of a form, if it has one (R147). -/
def VForm.scalarSource (v : VForm) : Option (BitVec 5) :=
  match v.kind with
  | .vbcast | .vidx => some v.a
  | .vrot | .rndk => some v.b
  | _ => none

/-- The scalar destination register of a form, if it has one. -/
def VForm.scalarDest (v : VForm) : Option (BitVec 5) :=
  match v.kind with
  | .redAdd | .redMin | .redMax | .redAnd | .redOr | .redXor => some v.d
  | _ => none

/-- Whether the special-function pipe performs a form (R290). -/
def VForm.specialPipe (v : VForm) : Bool :=
  match v.kind with
  | .special _ => true
  | _ => false

/-- The registers a body instruction names in iteration `j` under the strides of its position (R150). -/
def VForm.stride (v : VForm) (w : BitVec 16) (j : Nat) : VForm :=
  let reg (f : BitVec 5) (st : BitVec 4) : BitVec 5 := BitVec.ofNat 5 ((f.toNat + j * st.toNat) % 16)
  let msk (f : BitVec 3) (st : Nat) : BitVec 3 := BitVec.ofNat 3 ((f.toNat + j * st) % 8)
  { v with
    d := if v.kind = .fcmp then (msk (v.d.setWidth 3) (w.extractLsb' 0 4).toNat).zeroExtend 5
         else if v.kind.dVector then reg v.d (w.extractLsb' 0 4) else v.d
    a := if v.kind.aVector then reg v.a (w.extractLsb' 4 4) else v.a
    b := if v.kind.bVector then reg v.b (w.extractLsb' 8 4) else v.b
    k := msk v.k (w.extractLsb' 12 3).toNat }

/-! ### Effects -/

/-- An elementwise form with one vector source of the destination's type. -/
def Regs.vmap1 (r : Regs) (v : VForm) (f : Nat → FElem → FRes) : Regs :=
  r.setVecRes v.ty v.d (r.mask v.k) fun i => f i (vecElem v.ty (r.vec v.a) i)

/-- An elementwise form with two vector sources. -/
def Regs.vmap2 (r : Regs) (v : VForm) (f : FElem → FElem → FRes) : Regs :=
  r.setVecRes v.ty v.d (r.mask v.k) fun i => f (vecElem v.ty (r.vec v.a) i) (vecElem v.ty (r.vec v.b) i)

/-- `FCMP.v` (R136). -/
def Regs.vcmp (r : Regs) (v : VForm) : Regs :=
  let kd := v.d.setWidth 3
  let holds (c : Nat) : Bool :=
    match v.aux.toNat with
    | 0 => c == 1
    | 1 => c == 2
    | 2 => c == 1 || c == 2
    | _ => c == 8
  let bit (i : Nat) : Bool := holds (elCmp v.ty (vecElem v.ty (r.vec v.a) i) (vecElem v.ty (r.vec v.b) i))
  let es := enabled (r.mask v.k) (lanesOf v.ty)
  r.setMask kd (es.foldl (fun (m : BitVec 8) i =>
    if bit i then m ||| (1#8 <<< i) else m &&& ~~~(1#8 <<< i)) (r.mask kd))

/-- A vector conversion (R140): the elements pair by index; when exactly one type is 64-bit there are four. -/
def Regs.vconv (r : Regs) (v : VForm) (f : Nat → FElem → FRes) : Regs :=
  let m := if wide v.aux && !wide v.ty then r.mask v.k &&& 0x0F else r.mask v.k
  r.setVecRes v.ty v.d m fun i => f i (vecElem v.aux (r.vec v.a) i)

/-- Lanes replaced whole, tails included, under a mask (R142). -/
def Regs.vlanes (r : Regs) (d : BitVec 5) (m : BitVec 8) (f : Fin 8 → Elem) : Regs :=
  r.setVec d (Vector.ofFn fun i => if m.getLsbD i.val then f i else (r.vec d)[i])

/-- The ring rotation of `VROT` over the `va` registers of a gang's members, in member order: the lane of member `m`
that lane `i` receives (R142). -/
def ringLane (ring : List (Vector Elem 8)) (amt m : Nat) (i : Fin 8) : Elem :=
  let n := 8 * ring.length
  let g := (8 * m + i.val + (n - amt % n)) % n
  (ring.getD (g / 8) (Vector.replicate 8 Elem.zero))[Fin.ofNat 8 g]

/-- `VROT` of one member of a ring (R142). -/
def Regs.vrot (r : Regs) (v : VForm) (ring : List (Vector Elem 8)) (amt m : Nat) : Regs :=
  r.vlanes v.d (r.mask v.k) (ringLane ring amt m)

/-- A reduction tree over the elements that are present: a node with one input passes it on (R95), and so the only enabled
lane's NaN keeps its payload and tail, where R80 would ask the default NaN (DEDUCED, entry 96). -/
def treeNode (f : FElem → FElem → FRes) (x y : Option FRes) : Option FRes :=
  match x, y with
  | none, y => y
  | x, none => x
  | some a, some b =>
    let c := f ⟨a.bits, a.tail⟩ ⟨b.bits, b.tail⟩
    some { c with flags := a.flags ||| b.flags ||| c.flags }

/-- The fixed tree of R95 over four or eight elements. -/
def tree (f : FElem → FElem → FRes) (n : Nat) (x : Nat → Option FElem) : Option FRes :=
  let leaf (i : Nat) : Option FRes := (x i).map fun e => ⟨e.bits, e.tail, 0⟩
  let p (i : Nat) := treeNode f (leaf (2 * i)) (leaf (2 * i + 1))
  let q (i : Nat) := treeNode f (p (2 * i)) (p (2 * i + 1))
  if n = 4 then q 0 else treeNode f (q 0) (q 1)

/-- The result of a reduction with no enabled element, for float types (R143). -/
def emptyFloat (kind : VKind) (f : Fmt) : FRes :=
  match kind with
  | .redMin => ⟨f.signed false f.infEnc, 0, 0⟩
  | .redMax => ⟨f.signed true f.infEnc, 0, 0⟩
  | _ => ⟨0, 0, 0⟩

/-- The value of an integer of a type as an integer. -/
def intOf (signed : Bool) (w : Nat) (x : DWord) : Int :=
  let n : Nat := x.toNat % 2 ^ w
  if signed && 2 ^ (w - 1) ≤ n then (n : Int) - 2 ^ w else n

/-- An integer reduction over the enabled elements (R143). -/
def intReduce (kind : VKind) (signed : Bool) (w : Nat) (xs : List DWord) : DWord :=
  let vals := xs.map (intOf signed w)
  let lo : Int := if signed then -(2 ^ (w - 1)) else 0
  let hi : Int := if signed then 2 ^ (w - 1) - 1 else 2 ^ w - 1
  let r : Int := match kind with
    | .redMin => vals.foldl min hi
    | .redMax => vals.foldl max lo
    | .redAnd => ((xs.foldl (· &&& ·) (BitVec.allOnes 64)).toNat : Int)
    | .redOr => ((xs.foldl (· ||| ·) 0).toNat : Int)
    | .redXor => ((xs.foldl (· ^^^ ·) 0).toNat : Int)
    | _ => vals.foldl (· + ·) 0
  BitVec.ofInt 64 (r % 2 ^ w)

/-- `VRED` (R143). -/
def Regs.vred (r : Regs) (v : VForm) : Regs :=
  let n := lanesOf v.ty
  let es := enabled (r.mask v.k) n
  match tyOf v.ty with
  | .flt f =>
    let g := match v.kind with
      | .redMin => elMin v.ty
      | .redMax => elMax v.ty
      | _ => elAdd v.ty
    let x (i : Nat) : Option FElem := if es.contains i then some (vecElem v.ty (r.vec v.a) i) else none
    r.setRes v.ty v.d ((tree g n x).getD (emptyFloat v.kind f))
  | .int s w =>
    let y := intReduce v.kind s w (es.map fun i => (vecElem v.ty (r.vec v.a) i).bits)
    if wide v.ty then r.setPair v.d y else r.setVal v.d (y.setWidth 32)
  | _ => r

/-- A saturated integer of `PACK` with its flag (R144). -/
def packInt (signed : Bool) (w : Nat) (x : Word) : FRes :=
  let lo : Int := if signed then -(2 ^ (w - 1)) else 0
  let hi : Int := if signed then 2 ^ (w - 1) - 1 else 2 ^ w - 1
  let y := max lo (min x.toInt hi)
  ⟨BitVec.ofInt 64 (y % 2 ^ w), 0, if y = x.toInt then 0 else fNV⟩

/-- Bits of a field of `PACK`: 16, 8 or 4 (R144). -/
def packWidth (ty : BitVec 5) : Nat :=
  match (tyOf ty).width with
  | 16 => 16
  | 4 => 4
  | _ => 8

/-- A vector register's 256 bits. -/
def vecBits (v : Vector Elem 8) : Nat := (List.finRange 8).foldl (fun x i => x + v[i].val.toNat * 2 ^ (32 * i.val)) 0

/-- A vector from 256 bits, with tails 00. -/
def vecOfBits (x : Nat) : Vector Elem 8 := Vector.ofFn fun i => ⟨BitVec.ofNat 32 (x / 2 ^ (32 * i.val)), 0⟩

/-- `PACK` (R144). -/
def Regs.vpack (r : Regs) (v : VForm) (fcr : Word) : Regs :=
  let w := packWidth v.ty
  let src (j : Nat) : Elem := if j < 8 then (r.vec v.a)[Fin.ofNat 8 j] else (r.vec v.b)[Fin.ofNat 8 j]
  let on (j : Nat) : Bool := (r.mask v.k).getLsbD (j % 8)
  let res (j : Nat) : FRes :=
    match tyOf v.ty with
    | .int s n => packInt s n (src j).val
    | _ => elCvtf 9 v.ty fcr (j % 8) ⟨(src j).val.zeroExtend 64, (src j).tail⟩
  let old := vecBits (r.vec v.d)
  let field (j : Nat) : Nat := if on j then (res j).bits.toNat % 2 ^ w else old / 2 ^ (w * j) % 2 ^ w
  let bits := (List.range 16).foldl (fun x j => x + field j * 2 ^ (w * j)) 0
  let flags := unionFlags (((List.range 16).filter on).map res)
  (r.setVec v.d (vecOfBits bits)).raise flags

/-- `VLUT` (R145). -/
def Regs.vlut (r : Regs) (v : VForm) : Regs :=
  let table := vecBits (r.vec v.d)
  let codes := (r.vec v.a)[0].val
  r.vlanes v.d (r.mask v.k) fun i =>
    let c := codes.toNat / 2 ^ (4 * i.val) % 16
    let e := elCvt 10 9 ⟨BitVec.ofNat 64 (table / 2 ^ (16 * c) % 2 ^ 16), 0⟩
    ⟨e.bits.setWidth 32, 0⟩

/-- What a sequencer entry does to its thread's registers, but for `VROT` in a gang (R133 to R146). -/
def VForm.perform (v : VForm) (c : VCtx) (r : Regs) : Regs :=
  match v.kind with
  | .tailget => r.vlanes v.d (r.mask v.k) fun i => ⟨((r.vec v.a)[i]).tail.zeroExtend 32, 0⟩
  | .tailset => r.vlanes v.d (r.mask v.k) fun i => ⟨((r.vec v.a)[i]).val, (((r.vec v.b)[i]).val).setWidth 2⟩
  | .fadd => r.vmap2 v (elAdd v.ty)
  | .fsub => r.vmap2 v (elSub v.ty)
  | .fmul => r.vmap2 v (elMul v.ty)
  | .fmin => r.vmap2 v (elMin v.ty)
  | .fmax => r.vmap2 v (elMax v.ty)
  | .fdiv => r.vmap2 v (elDiv v.ty)
  | .ffma => r.setVecRes v.ty v.d (r.mask v.k) fun i =>
      elFma v.ty (vecElem v.ty (r.vec v.d) i) (vecElem v.ty (r.vec v.a) i) (vecElem v.ty (r.vec v.b) i)
  | .fcmp => r.vcmp v
  | .fabs => r.vmap1 v fun _ => elAbs v.ty
  | .fneg => r.vmap1 v fun _ => elNeg v.ty
  | .fsqrt => r.vmap1 v fun _ => elSqrt v.ty
  | .fclass => r.vmap1 v fun _ => elClass v.ty
  | .special fn => r.vmap1 v fun _ => elSpecial fn v.ty
  | .cvt => r.vconv v fun _ => elCvt v.aux v.ty
  | .cvtf => r.vconv v (elCvtf v.aux v.ty c.fcr)
  | .frnd => r.vmap1 v (elFrnd v.ty c.fcr)
  | .vshuf => r.vlanes v.d (r.mask v.k) fun i => (r.vec v.a)[Fin.ofNat 8 ((r.vec v.b)[i]).val.toNat]
  | .vrot => r.vrot v [r.vec v.a] c.x.val.toNat 0
  | .vbcast => r.vlanes v.d (r.mask v.k) fun _ => c.x
  | .vsel => r.setVec v.d (Vector.ofFn fun i => if (r.mask v.k).getLsbD i.val then (r.vec v.a)[i] else (r.vec v.b)[i])
  | .vidx => r.vlanes v.d (r.mask v.k) fun i => ⟨c.x.val + BitVec.ofNat 32 (8 * c.member + i.val), 0⟩
  | .redAdd | .redMin | .redMax | .redAnd | .redOr | .redXor => r.vred v
  | .pack => r.vpack v c.fcr
  | .vlut => r.vlut v
  | .rndk => r.vlanes v.d (r.mask v.k) fun i => ⟨kg (seedOf c.fcr) ((r.vec v.a)[i]).val c.x.val, 0⟩

/-! ### The instructions -/

/-- The form a sequencer instruction enters the sequencer with (R147); none for every other instruction. -/
def vform (i : Instr) : Option VForm :=
  match i with
  | .tailgetV d a k => some ⟨.tailget, d, a, 0, k, 9, 0⟩
  | .tailsetV d a b k => some ⟨.tailset, d, a, b, k, 9, 0⟩
  | .faddV d a b ty k => some ⟨.fadd, d, a, b, k, ty, 0⟩
  | .fsubV d a b ty k => some ⟨.fsub, d, a, b, k, ty, 0⟩
  | .fmulV d a b ty k => some ⟨.fmul, d, a, b, k, ty, 0⟩
  | .fminV d a b ty k => some ⟨.fmin, d, a, b, k, ty, 0⟩
  | .fmaxV d a b ty k => some ⟨.fmax, d, a, b, k, ty, 0⟩
  | .fdivV d a b ty k => some ⟨.fdiv, d, a, b, k, ty, 0⟩
  | .ffmaV d a b ty k => some ⟨.ffma, d, a, b, k, ty, 0⟩
  | .fcmpV pred kd a b ty k => some ⟨.fcmp, kd.zeroExtend 5, a, b, k, ty, pred.zeroExtend 5⟩
  | .fabsV d a ty k => some ⟨.fabs, d, a, 0, k, ty, 0⟩
  | .fnegV d a ty k => some ⟨.fneg, d, a, 0, k, ty, 0⟩
  | .fsqrtV d a ty k => some ⟨.fsqrt, d, a, 0, k, ty, 0⟩
  | .fclassV d a ty k => some ⟨.fclass, d, a, 0, k, ty, 0⟩
  | .frcpV d a ty k => some ⟨.special .rcp, d, a, 0, k, ty, 0⟩
  | .frsqV d a ty k => some ⟨.special .rsq, d, a, 0, k, ty, 0⟩
  | .fexp2V d a ty k => some ⟨.special .exp2, d, a, 0, k, ty, 0⟩
  | .flog2V d a ty k => some ⟨.special .log2, d, a, 0, k, ty, 0⟩
  | .fsinV d a ty k => some ⟨.special .sin, d, a, 0, k, ty, 0⟩
  | .fcosV d a ty k => some ⟨.special .cos, d, a, 0, k, ty, 0⟩
  | .cvtV d a stype ty k => some ⟨.cvt, d, a, 0, k, ty, stype⟩
  | .cvtfV d a stype ty k => some ⟨.cvtf, d, a, 0, k, ty, stype⟩
  | .frndV d a _ ty k => some ⟨.frnd, d, a, 0, k, ty, 0⟩
  | .vshuf d a b k => some ⟨.vshuf, d, a, b, k, 9, 0⟩
  | .vrot d a b k => some ⟨.vrot, d, a, b, k, 9, 0⟩
  | .vbcast d a k => some ⟨.vbcast, d, a, 0, k, 9, 0⟩
  | .vsel d a b k => some ⟨.vsel, d, a, b, k, 9, 0⟩
  | .vidx d a k => some ⟨.vidx, d, a, 0, k, 9, 0⟩
  | .vredAdd d a ty k => some ⟨.redAdd, d, a, 0, k, ty, 0⟩
  | .vredMin d a ty k => some ⟨.redMin, d, a, 0, k, ty, 0⟩
  | .vredMax d a ty k => some ⟨.redMax, d, a, 0, k, ty, 0⟩
  | .vredAnd d a ty k => some ⟨.redAnd, d, a, 0, k, ty, 0⟩
  | .vredOr d a ty k => some ⟨.redOr, d, a, 0, k, ty, 0⟩
  | .vredXor d a ty k => some ⟨.redXor, d, a, 0, k, ty, 0⟩
  | .pack d a b ty k => some ⟨.pack, d, a, b, k, ty, 0⟩
  | .vlut d a ty k => some ⟨.vlut, d, a, 0, k, ty, 0⟩
  | .rndkV d a b k => some ⟨.rndk, d, a, b, k, 9, 0⟩
  | _ => none

/-! ### Gang members (R152, R154) -/

/-- The cores of a slot's gang in member order, or its own core outside a gang. -/
def Slot.members (t : Slot) (c : Nat) : List Nat := if t.gang = 0 then [c] else gangCores c t.gang

/-- The index of the issuing thread in its gang, 0 outside a gang (R152). -/
def State.member (s : State) : Nat := if s.me.gang = 0 then 0 else s.curCore % s.me.gang

/-- The registers of the leader of the issuing thread's gang, its own outside a gang (R154). -/
def State.leaderRegs (s : State) : Regs :=
  if s.me.gang = 0 then s.regs else (s.slot (s.curCore / s.me.gang * s.me.gang) s.curSlot).regs

/-- The ring of `VROT`: register `a` of every member, in member order (R142). -/
def State.ring (s : State) (a : BitVec 5) : List (Vector Elem 8) :=
  (s.me.members s.curCore).map fun m => (s.slot m s.curSlot).regs.vec a

/-- A sequencer form performed on the issuing thread's registers: in a gang, `VROT` works on the ring with the leader's
amount (R142, R154). -/
def State.performed (s : State) (v : VForm) (fcr : Word) (x : Elem) (amt : Nat) (r : Regs) : Regs :=
  if v.kind = .vrot then r.vrot v (s.ring v.a) amt s.member
  else v.perform ⟨fcr, x, s.member⟩ r

/-- A sequencer instruction that finds no earlier entry of its thread: it captures its operands and is performed. -/
def State.vector (v : VForm) (s : State) : Out :=
  .next (s.issue v.scalarSource.toList v.scalarDest.toList fun s =>
    let r := s.regs
    let x := (v.scalarSource.map r.get).getD Elem.zero
    let amt := (v.scalarSource.map s.leaderRegs.val).getD 0
    .ok (s.setRegs ((s.performed v r.fcr x amt.toNat r).advance 4)))

/-- `TAILGET_V`. -/
def execTailgetV (d : BitVec 5) (a : BitVec 5) (k : BitVec 3) (s : State) : Out :=
  s.vector ⟨.tailget, d, a, 0, k, 9, 0⟩
/-- `TAILSET_V`. -/
def execTailsetV (d : BitVec 5) (a : BitVec 5) (b : BitVec 5) (k : BitVec 3) (s : State) : Out :=
  s.vector ⟨.tailset, d, a, b, k, 9, 0⟩
/-- `FADD_V`. -/
def execFaddV (d : BitVec 5) (a : BitVec 5) (b : BitVec 5) (ty : BitVec 5) (k : BitVec 3) (s : State) : Out :=
  s.vector ⟨.fadd, d, a, b, k, ty, 0⟩
/-- `FSUB_V`. -/
def execFsubV (d : BitVec 5) (a : BitVec 5) (b : BitVec 5) (ty : BitVec 5) (k : BitVec 3) (s : State) : Out :=
  s.vector ⟨.fsub, d, a, b, k, ty, 0⟩
/-- `FMUL_V`. -/
def execFmulV (d : BitVec 5) (a : BitVec 5) (b : BitVec 5) (ty : BitVec 5) (k : BitVec 3) (s : State) : Out :=
  s.vector ⟨.fmul, d, a, b, k, ty, 0⟩
/-- `FMIN_V`. -/
def execFminV (d : BitVec 5) (a : BitVec 5) (b : BitVec 5) (ty : BitVec 5) (k : BitVec 3) (s : State) : Out :=
  s.vector ⟨.fmin, d, a, b, k, ty, 0⟩
/-- `FMAX_V`. -/
def execFmaxV (d : BitVec 5) (a : BitVec 5) (b : BitVec 5) (ty : BitVec 5) (k : BitVec 3) (s : State) : Out :=
  s.vector ⟨.fmax, d, a, b, k, ty, 0⟩
/-- `FDIV_V`. -/
def execFdivV (d : BitVec 5) (a : BitVec 5) (b : BitVec 5) (ty : BitVec 5) (k : BitVec 3) (s : State) : Out :=
  s.vector ⟨.fdiv, d, a, b, k, ty, 0⟩
/-- `FFMA_V`. -/
def execFfmaV (d : BitVec 5) (a : BitVec 5) (b : BitVec 5) (ty : BitVec 5) (k : BitVec 3) (s : State) : Out :=
  s.vector ⟨.ffma, d, a, b, k, ty, 0⟩
/-- `FCMP_V`. -/
def execFcmpV (pred : BitVec 2) (kd : BitVec 3) (a : BitVec 5) (b : BitVec 5) (ty : BitVec 5) (k : BitVec 3) (s : State) : Out :=
  s.vector ⟨.fcmp, kd.zeroExtend 5, a, b, k, ty, pred.zeroExtend 5⟩
/-- `FABS_V`. -/
def execFabsV (d : BitVec 5) (a : BitVec 5) (ty : BitVec 5) (k : BitVec 3) (s : State) : Out :=
  s.vector ⟨.fabs, d, a, 0, k, ty, 0⟩
/-- `FNEG_V`. -/
def execFnegV (d : BitVec 5) (a : BitVec 5) (ty : BitVec 5) (k : BitVec 3) (s : State) : Out :=
  s.vector ⟨.fneg, d, a, 0, k, ty, 0⟩
/-- `FSQRT_V`. -/
def execFsqrtV (d : BitVec 5) (a : BitVec 5) (ty : BitVec 5) (k : BitVec 3) (s : State) : Out :=
  s.vector ⟨.fsqrt, d, a, 0, k, ty, 0⟩
/-- `FCLASS_V`. -/
def execFclassV (d : BitVec 5) (a : BitVec 5) (ty : BitVec 5) (k : BitVec 3) (s : State) : Out :=
  s.vector ⟨.fclass, d, a, 0, k, ty, 0⟩
/-- `FRCP_V`. -/
def execFrcpV (d : BitVec 5) (a : BitVec 5) (ty : BitVec 5) (k : BitVec 3) (s : State) : Out :=
  s.vector ⟨.special .rcp, d, a, 0, k, ty, 0⟩
/-- `FRSQ_V`. -/
def execFrsqV (d : BitVec 5) (a : BitVec 5) (ty : BitVec 5) (k : BitVec 3) (s : State) : Out :=
  s.vector ⟨.special .rsq, d, a, 0, k, ty, 0⟩
/-- `FEXP2_V`. -/
def execFexp2V (d : BitVec 5) (a : BitVec 5) (ty : BitVec 5) (k : BitVec 3) (s : State) : Out :=
  s.vector ⟨.special .exp2, d, a, 0, k, ty, 0⟩
/-- `FLOG2_V`. -/
def execFlog2V (d : BitVec 5) (a : BitVec 5) (ty : BitVec 5) (k : BitVec 3) (s : State) : Out :=
  s.vector ⟨.special .log2, d, a, 0, k, ty, 0⟩
/-- `FSIN_V`. -/
def execFsinV (d : BitVec 5) (a : BitVec 5) (ty : BitVec 5) (k : BitVec 3) (s : State) : Out :=
  s.vector ⟨.special .sin, d, a, 0, k, ty, 0⟩
/-- `FCOS_V`. -/
def execFcosV (d : BitVec 5) (a : BitVec 5) (ty : BitVec 5) (k : BitVec 3) (s : State) : Out :=
  s.vector ⟨.special .cos, d, a, 0, k, ty, 0⟩
/-- `CVT_V`. -/
def execCvtV (d : BitVec 5) (a : BitVec 5) (stype : BitVec 5) (ty : BitVec 5) (k : BitVec 3) (s : State) : Out :=
  s.vector ⟨.cvt, d, a, 0, k, ty, stype⟩
/-- `CVTF_V`. -/
def execCvtfV (d : BitVec 5) (a : BitVec 5) (stype : BitVec 5) (ty : BitVec 5) (k : BitVec 3) (s : State) : Out :=
  s.vector ⟨.cvtf, d, a, 0, k, ty, stype⟩
/-- `FRND_V`. -/
def execFrndV (d : BitVec 5) (a : BitVec 5) (_stype : BitVec 5) (ty : BitVec 5) (k : BitVec 3) (s : State) : Out :=
  s.vector ⟨.frnd, d, a, 0, k, ty, 0⟩
/-- `VSHUF`. -/
def execVshuf (d : BitVec 5) (a : BitVec 5) (b : BitVec 5) (k : BitVec 3) (s : State) : Out :=
  s.vector ⟨.vshuf, d, a, b, k, 9, 0⟩
/-- `VROT`. -/
def execVrot (d : BitVec 5) (a : BitVec 5) (b : BitVec 5) (k : BitVec 3) (s : State) : Out :=
  s.vector ⟨.vrot, d, a, b, k, 9, 0⟩
/-- `VBCAST`. -/
def execVbcast (d : BitVec 5) (a : BitVec 5) (k : BitVec 3) (s : State) : Out :=
  s.vector ⟨.vbcast, d, a, 0, k, 9, 0⟩
/-- `VSEL`. -/
def execVsel (d : BitVec 5) (a : BitVec 5) (b : BitVec 5) (k : BitVec 3) (s : State) : Out :=
  s.vector ⟨.vsel, d, a, b, k, 9, 0⟩
/-- `VIDX`. -/
def execVidx (d : BitVec 5) (a : BitVec 5) (k : BitVec 3) (s : State) : Out :=
  s.vector ⟨.vidx, d, a, 0, k, 9, 0⟩
/-- `VRED_ADD`. -/
def execVredAdd (d : BitVec 5) (a : BitVec 5) (ty : BitVec 5) (k : BitVec 3) (s : State) : Out :=
  s.vector ⟨.redAdd, d, a, 0, k, ty, 0⟩
/-- `VRED_MIN`. -/
def execVredMin (d : BitVec 5) (a : BitVec 5) (ty : BitVec 5) (k : BitVec 3) (s : State) : Out :=
  s.vector ⟨.redMin, d, a, 0, k, ty, 0⟩
/-- `VRED_MAX`. -/
def execVredMax (d : BitVec 5) (a : BitVec 5) (ty : BitVec 5) (k : BitVec 3) (s : State) : Out :=
  s.vector ⟨.redMax, d, a, 0, k, ty, 0⟩
/-- `VRED_AND`. -/
def execVredAnd (d : BitVec 5) (a : BitVec 5) (ty : BitVec 5) (k : BitVec 3) (s : State) : Out :=
  s.vector ⟨.redAnd, d, a, 0, k, ty, 0⟩
/-- `VRED_OR`. -/
def execVredOr (d : BitVec 5) (a : BitVec 5) (ty : BitVec 5) (k : BitVec 3) (s : State) : Out :=
  s.vector ⟨.redOr, d, a, 0, k, ty, 0⟩
/-- `VRED_XOR`. -/
def execVredXor (d : BitVec 5) (a : BitVec 5) (ty : BitVec 5) (k : BitVec 3) (s : State) : Out :=
  s.vector ⟨.redXor, d, a, 0, k, ty, 0⟩
/-- `PACK`. -/
def execPack (d : BitVec 5) (a : BitVec 5) (b : BitVec 5) (ty : BitVec 5) (k : BitVec 3) (s : State) : Out :=
  s.vector ⟨.pack, d, a, b, k, ty, 0⟩
/-- `VLUT`. -/
def execVlut (d : BitVec 5) (a : BitVec 5) (ty : BitVec 5) (k : BitVec 3) (s : State) : Out :=
  s.vector ⟨.vlut, d, a, 0, k, ty, 0⟩
/-- `RNDK_V`. -/
def execRndkV (d : BitVec 5) (a : BitVec 5) (b : BitVec 5) (k : BitVec 3) (s : State) : Out :=
  s.vector ⟨.rndk, d, a, b, k, 9, 0⟩

end Sys2Proof.Machine
end

