-- ==== Sys2Proof/Machine/Seq.lean ====
section
/-!
DEFINITION. The vector sequencer's entries (R147 to R151), `VLOOP`, `GANG` and `SPLIT` (R149, R153, R155).
-/

namespace Sys2Proof.Machine

/-! ### Entries -/

/-- The form an entry performs next: the body instruction at its position, with the strides of its iteration (R150). -/
def SeqEntry.form (e : SeqEntry) : Option VForm :=
  ((e.body[e.pos]?).bind vform).map fun v => v.stride (e.strides.getD e.pos 0) e.iter

/-- Registers of a thread by number: scalars, vectors and masks. -/
structure RegNames where
  scalars : List (BitVec 5)
  vectors : List (BitVec 5)
  masks   : List (BitVec 5)
  deriving DecidableEq, Repr

/-- No registers. -/
def RegNames.none : RegNames := ⟨[], [], []⟩

/-- The registers of both. -/
def RegNames.join (x y : RegNames) : RegNames :=
  ⟨x.scalars ++ y.scalars, x.vectors ++ y.vectors, x.masks ++ y.masks⟩

/-- Whether two sets of registers share one. -/
def RegNames.meets (x y : RegNames) : Bool :=
  x.scalars.any y.scalars.contains || x.vectors.any y.vectors.contains || x.masks.any y.masks.contains

/-- The number of a vector register that a field names (R22). -/
def vecNum (f : BitVec 5) : BitVec 5 := f &&& 15

/-- The registers that a form writes: a pair where its type is a 64-bit one (R136, R143). -/
def VForm.written (v : VForm) : RegNames :=
  { scalars := match v.scalarDest with
      | none => []
      | some d => if wide v.ty then [d, d + 1] else [d]
    vectors := if v.kind.dVector then [vecNum v.d] else []
    masks := if v.kind = .fcmp then [v.d &&& 7] else [] }

/-- The registers that a form reads, those among them whose masked-off elements it keeps (R23). -/
def VForm.used (v : VForm) : RegNames :=
  { scalars := v.scalarSource.toList
    vectors := (if v.kind.aVector then [vecNum v.a] else []) ++ (if v.kind.bVector then [vecNum v.b] else []) ++
      (if v.kind.dVector then [vecNum v.d] else [])
    masks := v.k.zeroExtend 5 :: if v.kind = .fcmp then [v.d &&& 7] else [] }

/-- The forms of an entry's remaining iterations; the registers they name repeat after sixteen (R150). -/
def SeqEntry.forms (e : SeqEntry) : List VForm :=
  (List.range (min (e.count - e.iter) 16)).flatMap fun j =>
    e.body.zipIdx.filterMap fun x => (vform x.1).map fun v => v.stride (e.strides.getD x.2 0) (e.iter + j)

/-- The registers that an entry still writes. -/
def SeqEntry.written (e : SeqEntry) : RegNames := (e.forms.map VForm.written).foldl RegNames.join RegNames.none

/-- The mask registers that an entry still reads; its scalar sources are captured, and no later instruction writes a
vector register before it completes (R147, R148). -/
def SeqEntry.masks (e : SeqEntry) : List (BitVec 5) := e.forms.flatMap fun v => v.used.masks

/-- The scalar value an entry captured for a register, if it captured one (R147). -/
def SeqEntry.captured (e : SeqEntry) (n : BitVec 5) : Option Elem := (e.scalars.find? (·.1 == n)).map (·.2)

/-- An entry after one of its element operations; none when it has completed (R149, R151). -/
def SeqEntry.advance (e : SeqEntry) : Option SeqEntry :=
  if e.pos + 1 < e.body.length then some { e with pos := e.pos + 1, taken := false }
  else if e.iter + 1 < e.count then some { e with pos := 0, iter := e.iter + 1, taken := false }
  else none

/-- The oldest entry of a slot. -/
def Core.seqHead (k : Core) (n : Fin 8) : Option SeqEntry := k.seq.find? (·.slot == n)

/-- The oldest entry of a slot replaced or removed. -/
def Core.seqStep (k : Core) (n : Fin 8) : Core :=
  { k with seq := go k.seq }
where
  /-- The first entry of the slot advances. -/
  go : List SeqEntry → List SeqEntry
    | [] => []
    | e :: rest => if e.slot = n then e.advance.toList ++ rest else e :: go rest

/-- A scalar source of an entry's form: the captured value, or the register's where a body instruction writes it
(R147, R148). -/
def SeqEntry.source (e : SeqEntry) (v : VForm) (r : Regs) : Elem :=
  match v.scalarSource with
  | none => Elem.zero
  | some n => (e.captured n).getD (r.get n)

/-- The cores whose entries an entry is performed with: those of the gang that issued it and still hold one of its
entries for the slot, or its own core (R154). -/
def State.seqGroup (s : State) (c : Nat) (n : Fin 8) (e : SeqEntry) : List Nat :=
  if e.gang = 0 then [c]
  else (gangCores c e.gang).filter fun m => (s.core m).seq.any fun x => x.slot == n && x.gang == e.gang

/-- Whether the oldest entry of a slot may be performed: the first core of its group performs a gang's entry once it is
the oldest of every member's (R147, R154). -/
def State.seqReady (s : State) (c : Nat) (n : Fin 8) : Bool :=
  match (s.core c).seqHead n with
  | none => false
  | some e =>
    let ms := s.seqGroup c n e
    ms.head? == some c && ms.all fun m => ((s.core m).seqHead n).any (·.gang == e.gang)

/-- What one element operation of the oldest entry of a slot makes of registers of its thread (R147 to R150). A `VROT` of
a gang takes its ring from every core of the gang and its amount from the leader. -/
def State.seqRegs (s : State) (c : Nat) (n : Fin 8) (r : Regs) : Option Regs :=
  (s.core c).seqHead n |>.bind fun e => e.form.map fun v =>
    let m := if e.gang = 0 then 0 else c % e.gang
    let lead := if e.gang = 0 then c else c / e.gang * e.gang
    let led := (s.slot lead n).regs
    let amt := match (s.core lead).seqHead n with
      | some l => if l.gang = e.gang then (l.source v led).val.toNat else (e.source v led).val.toNat
      | none => (v.scalarSource.map led.val).elim 0 BitVec.toNat
    if v.kind = .vrot && e.gang ≠ 0 then
      r.vrot v ((gangCores c e.gang).map fun k => (s.slot k n).regs.vec v.a) amt m
    else v.perform ⟨e.fcr, e.source v r, m⟩ r

/-- One element operation of the oldest entry of a slot of a core, with the registers taken from `s`. Registers that the
thread will have after an outstanding operation take it too (R148). -/
def State.seqApply (s x : State) (c : Nat) (n : Fin 8) : State :=
  match s.seqRegs c n (s.slot c n).regs with
  | none => x
  | some r => (x.updSlot c n fun t => { t with
      regs := r
      reply := t.reply.map fun y => { y with regs := (s.seqRegs c n y.regs).getD y.regs } }).updCore c (·.seqStep n)

/-- Entries of a slot that a pipe has taken before their turn complete as the thread's oldest (R147, R290). -/
def State.seqTaken : Nat → Nat → Fin 8 → State → State
  | 0, _, _, s => s
  | fuel + 1, c, n, s => if ((s.core c).seqHead n).any (·.taken) then State.seqTaken fuel c n (s.seqApply s c n) else s

/-- The sequencer performs one element operation of a slot; a gang's entry, of every member together (R147, R154). -/
def State.seqPerform (s : State) (c : Nat) (n : Fin 8) : State :=
  let ms := (((s.core c).seqHead n).map (s.seqGroup c n)).getD [c]
  ms.foldl (fun x m => State.seqTaken (x.core m).seq.length m n x) (ms.foldl (fun x m => s.seqApply x m n) s)

/-- The operations of gangs' entries that are pending in a slot of a group of cores, and those before them, at most. -/
def State.gangOps (s : State) (ms : List Nat) : Nat :=
  (ms.map fun m => ((s.core m).seq.map fun e => e.body.length * e.count).sum).sum

/-- The pending gang entries of a slot's thread complete, of every member together, before the thread leaves its gang by
a rollback or by its end: the other members' entries are unaffected (R151, R154, R155). -/
def State.drainGang (s : State) (c : Nat) (n : Fin 8) : State :=
  if (s.slot c n).gang ≠ 0 || (s.core c).seq.any (fun e => e.slot == n && e.gang != 0) then
    go (s.gangOps (gangCores c 8)) s
  else s
where
  /-- The first entry that is ready completes, while the slot has entries of a gang. -/
  go : Nat → State → State
    | 0, s => s
    | fuel + 1, s =>
      match (gangCores c 8).find? fun m => (s.core m).seq.any (fun e => e.slot == n && e.gang != 0) && s.seqReady m n with
      | none => s
      | some m => go fuel (s.seqPerform m n)

/-- The pipe of a core takes an entry of a slot in a cycle (R290). -/
def Core.pipeTakes (k : Core) (special : Bool) (n : Fin 8) (at_ : Nat) : Core :=
  { k with
    turn := if special then (k.turn.1, at_ + 1) else (at_ + 1, k.turn.2)
    served := if special then (k.served.1, n) else (n, k.served.2)
    cycle := max k.cycle at_ }

/-- The entries of a slot that stand before its oldest one for a pipe, and that one (R290). -/
def Core.pipeEntry (k : Core) (special : Bool) (n : Fin 8) : Option (List SeqEntry × SeqEntry) :=
  let mine := k.seq.filter (·.slot == n)
  let ours (e : SeqEntry) : Bool := e.form.any (·.specialPipe == special)
  (mine.find? ours).map fun e => (mine.takeWhile (fun x => !ours x), e)

/-- The oldest entry of a slot for a pipe is taken (R290). -/
def Core.seqMark (k : Core) (special : Bool) (n : Fin 8) : Core :=
  { k with seq := go k.seq }
where
  /-- The first such entry is marked. -/
  go : List SeqEntry → List SeqEntry
    | [] => []
    | e :: rest =>
      if e.slot = n ∧ e.form.any (·.specialPipe == special) then { e with taken := true } :: rest else e :: go rest

/-- A pipe takes the oldest entry of a slot for it: the thread's oldest entry is performed; one behind others is performed
when they have completed (R147, R290). -/
def State.seqTake (s : State) (c : Nat) (special : Bool) (n : Fin 8) : State :=
  match (s.core c).pipeEntry special n with
  | none => s
  | some ([], _) => s.seqPerform c n
  | some _ => s.updCore c (·.seqMark special n)

/-- A sequencer instruction enters the sequencer behind earlier entries of its thread, with its scalar operands and
`fcr` captured (R147). -/
def State.enqueue (s : State) (c : Nat) (n : Fin 8) (body : List Instr) (strides : List (BitVec 16)) (count : Nat)
    (scalars : List (BitVec 5 × Elem)) (fcr : Word) : State :=
  if body.isEmpty || count = 0 then s
  else s.updCore c fun k =>
    { k with seq := k.seq ++ [⟨n, body, strides, count, 0, 0, scalars, fcr, (s.slot c n).gang, false⟩] }

/-! ### `VLOOP` (R149, R150) -/

/-- The stride words of the sixteen body positions (R150). -/
def Regs.strides (r : Regs) : List (BitVec 16) :=
  (List.range 16).map fun b => (r.ext (BitVec.ofNat 3 (b / 2))).extractLsb' (16 * (b % 2)) 16

/-- `VLOOP`: the capture of its body begins; in a gang the leader's count and strides decide (R149, R150, R154). -/
def execVloop (n a : BitVec 5) (s : State) : Out :=
  .next (s.issue [a] [] fun s =>
    let r := s.leaderRegs
    .ok ((s.updMe fun t => { t with loop := some ⟨n.toNat + 1, (r.val a).toNat, r.strides, []⟩ }).setRegs
      (s.regs.advance 4)))

/-! ### Gangs (R153, R155) -/

/-- Whether another slot has issued a `GANG` of a size and waits for its partners (R153). Only threads of one tenant
match: a thread that is left waiting leads no other tenant's (R9; DEDUCED, entry 69). -/
def Slot.awaitsGang (t : Slot) (g ten : Nat) : Bool :=
  t.state == .ready && t.gangWait == g && t.gang == 0 && t.tenant == ten

/-- `GANG` of a size: it forms when the same slot of every other core of the group has issued it; until then the
thread stays READY at it. Every member goes on in the leader's stream (R153). -/
def State.joinGang (g : Nat) (s : State) : State :=
  let others := (gangCores s.curCore g).filter (· != s.curCore)
  let pc := (s.slot (s.curCore / g * g) s.curSlot).regs.pc + 4
  if others.all (fun m => (s.slot m s.curSlot).awaitsGang g s.me.tenant) then
    (gangCores s.curCore g).foldl (fun s m => s.updSlot m s.curSlot fun t =>
      { t with gang := g, gangWait := 0, state := if m % g = 0 then .ready else .follow, regs := { t.regs with pc := pc } }) s
  else s.updMe fun t => { t with gangWait := g }

/-- `GANG` (R153). -/
def execGang (size : BitVec 3) (s : State) : Out :=
  .next (s.issue [] [] fun s =>
    if s.me.gang ≠ 0 then .ok (s.setRegs (s.regs.advance 4)) else .ok (s.joinGang (2 ^ size.toNat)))

/-- `SPLIT`: each member leaves the gang after it (R153, R155). -/
def execSplit (s : State) : Out :=
  .next (s.issue [] [] fun s => .ok ((s.updMe Slot.leaveGang).setRegs (s.regs.advance 4)))

end Sys2Proof.Machine
end

