-- ==== Sys2Proof/Machine/ViewOps.lean ====
section
/-!
DEFINITION. Operations over views, worlds and threads that several instructions and events share: opening and
discarding views, commits, the end of a thread, domain rollback (R213 to R221, R253, R259 to R262, R354, R355).
-/

namespace Sys2Proof.Machine

/-! ### Room (R213, R253, R259) -/

/-- The lowest offset from `at_` where `need` bytes fit between allocations that rise by offset (R253). -/
def firstFit (need limit : Nat) : Nat → List (Nat × Nat) → Option Nat
  | at_, [] => if at_ + need ≤ limit then some at_ else none
  | at_, (o, l) :: rest => if at_ + need ≤ o then some at_ else firstFit need limit (max at_ (o + l)) rest

/-- A need rounded up to a multiple of 64 bytes (R253). -/
def round64 (n : Nat) : Nat := (n + 63) / 64 * 64

/-- Space in a core's keep area (R252, R253). -/
def Core.keepAlloc (k : Core) (need : Nat) : Option (Nat × Core) :=
  let need := round64 need
  if need = 0 then some (65536, k)
  else match firstFit need 65536 (65536 - 4096 * k.kc) k.keeps with
  | none => none
  | some o => some (o, { k with keeps := put k.keeps o need })

/-- Space in a tenant's preserve area (R253). -/
def Package.preserveAlloc (p : Package) (ten need : Nat) : Option (Nat × Package) :=
  let need := round64 need
  match p.tenant ten with
  | none => none
  | some t => match firstFit need t.preserve 0 t.preserveUsed with
    | none => none
    | some o => some (o, p.updTenant ten fun t => { t with preserveUsed := put t.preserveUsed o need })

/-- A free view number: none while 16,384 views are live or every number is carried (R213, R261). -/
def Package.freeView (p : Package) : Option Nat :=
  if 16384 ≤ (p.views.filter (·.state == .live)).length then none
  else (List.range (p.views.length + 1)).findSome? fun i =>
    let n := (p.nextView - 1 + i) % 65535 + 1
    if p.views.any (·.num == n) then none else some n

/-- A view opened under a number (R259). -/
def Package.openView (p : Package) (num parent ten : Nat) (rival : Bool) : Package :=
  { p with
    views := p.views ++ [⟨num, parent, rival, ten, .live, [], [], []⟩]
    nextView := num % 65535 + 1 }

/-- The room that a view's preserved inputs take is given back (R253). -/
def State.freeRoom (s : State) (home ten : Nat) (v : View) : State :=
  match v.keep with
  | none => s
  | some (o, _) =>
    if v.scope.toNat ≤ 2 then s.updCore home fun k => { k with keeps := drop k.keeps o }
    else s.updPkg (pkgOf home) fun p => p.updTenant ten fun t => { t with preserveUsed := drop t.preserveUsed o }

/-- A view discarded: one write of its state; its versions are dropped when next touched (R240, R261). -/
def State.discardView (s : State) (home ten : Nat) (v : View) : State :=
  (s.freeRoom home ten v).updPkg (pkgOf home) fun p =>
    { (p.updView v.num ViewRec.discard) with
      commits := p.commits.filter (·.view != v.num) }

/-- A view's writes become writes of another view of the package; its versions count as the parent's (R239, R261). -/
def Package.commitInto (p : Package) (v w : Nat) : Package :=
  match p.view v with
  | none => p
  | some r =>
    let p := p.updView w fun t => { t with
      writes := r.writes.foldl (fun l x => put l x.1 x.2) t.writes
      tags := r.tags.foldl (fun l x => put l x.1 x.2) t.tags
      pz := r.pz.foldl addNum t.pz }
    let p := p.updView v fun t => { t.discard with state := .committed w }
    let mine := p.versions.filter (·.1 == w)
    { p with versions := p.versions.filterMap fun x =>
        if x.1 ≠ v then some x
        else if mine.any (·.2.1 == x.2.1) then none else some (w, x.2) }

/-- The lines that hold versions of a view (R262). -/
def Package.linesIn (p : Package) (v : Nat) : List Nat := (p.versions.filter (·.1 == v)).map (·.2.1)

/-- A view's writes are performed in the base view: the apply step of a commit (R239, R262). -/
def State.applyBase (s : State) (own v : Nat) : State :=
  match (s.pkg own).view v with
  | none => s
  | some r =>
    let lines := (s.pkg own).linesIn v
    let s := s.updPkg own fun p =>
      { (p.updView v fun t => { t.discard with state := .committed 0 }) with versions := p.versions.filter (·.1 != v) }
    let s := r.writes.foldl (fun s x => s.putGlobal x.1 [x.2] none) s
    let s := r.tags.foldl (fun s x => { s with mtags := s.mtags.put x.1 x.2 }) s
    let s := r.pz.foldl (fun s l => s.updPkg (homePkg (l * 128)) fun p => { p with poison := put p.poison l 0x02 }) s
    (s.refreshLines own lines).fireMonitors

/-! ### Worlds (R217 to R219) -/

/-- A world record of a package. -/
def Package.world (p : Package) (w : Nat) : Option World := p.worlds.find? (·.id == w)

/-- The views a thread opened itself or runs as a rival: down to and including its rival view (R217). -/
def ownViews : List View → List View
  | [] => []
  | v :: rest => if v.rival then [v] else v :: ownViews rest

/-- Whether a thread is a losing rival: its world is decided (R218). -/
def State.loser (s : State) (t : Slot) : Bool :=
  match t.rivalView with
  | none => false
  | some v => match (s.pkg (pkgOf t.home)).world v.world with
    | none => true
    | some w => w.decided

/-- A world's record and rival windows are dropped (R253). -/
def State.endWorld (s : State) (w : World) : State :=
  (s.updCore w.home fun k => { k with keeps := drop k.keeps w.keep.1 }).updPkg (pkgOf w.core) fun p =>
    { p with worlds := p.worlds.filter (·.id != w.id) }

/-- The parent of a world resumes (R218, R219); a `qdn` buffer that its status fills is pushed (R31). -/
def State.resumeParent (s : State) (w : World) (f : Regs → Regs) : State :=
  let t := s.slot w.core w.slot
  if t.gen = w.gen && t.state = .sleep && t.wait = .world then
    (s.setSlot w.core w.slot { t.unblock with regs := f t.regs }).as w.core w.slot State.pushDown
  else s

/-- A rival counts as abandoned; when every rival has been counted and none has won, the world fails and the parent
resumes at the fail target (R219). -/
def State.countRival (s : State) (pkg : Nat) (world : Nat) : State :=
  match (s.pkg pkg).world world with
  | none => s
  | some w =>
    let w := { w with counted := w.counted + 1 }
    if w.decided || w.counted < w.rivals.length then
      s.updPkg pkg fun p => { p with worlds := p.worlds.map (fun x => if x.id == w.id then w else x) }
    else (s.resumeParent w fun r => { r.setVal w.dst 0x80000002 with pc := w.fail }).endWorld w

/-! ### The end of a thread -/

/-- The end of a thread by kill, by `ABANDON` or by loss: it leaves its gang, which dissolves (R155), its own views are discarded innermost
first, worlds it is the parent of are discarded whole, its slot enters FREE, and a rival counts in its world (R126,
R215, R219). `fuel` bounds the nesting of worlds. -/
def State.endThread : Nat → State → Nat → Fin 8 → State
  | 0, s, c, n => s.freeSlot c n
  | fuel + 1, s, c, n =>
    let t := s.slot c n
    if t.state = .free then s
    else
      let s := s.drainGang c n
      let s := (ownViews t.views).foldl (fun s v => s.discardView t.home t.tenant v) s
      let worlds := (s.pkg (pkgOf c)).worlds.filter (fun w => w.core == c && w.slot == n && w.gen == t.gen)
      let s := worlds.foldl (fun s w => (w.rivals.foldl (fun s r =>
        if (s.slot r.1 r.2.1).gen = r.2.2.1 then s.endThread fuel r.1 r.2.1 else s) (s.endWorld w))) s
      let s := s.freeSlot c n
      match t.rivalView with
      | none => s
      | some v => s.countRival (pkgOf t.home) v.world

/-- A kill with the effects of `FKILL` (R126). -/
def State.killThread (s : State) (c : Nat) (n : Fin 8) : State := s.endThread 8 c n

/-- The halfword at a byte offset of the code region of a thread's tenant, in the image installed when the thread's stage
was bound (R26, R55). -/
def State.codeHalf (s : State) (pkg : Nat) (t : Slot) (pc : Word) : Option (BitVec 16) :=
  if pc.getLsbD 0 then none
  else ((s.pkg pkg).tenant t.tenant).bind fun x => (x.code[t.code]?).bind fun l => l[pc.toNat / 2]?

/-- `FRESUME` of a PARKED slot: the faulting instruction is skipped, except after a capability fault "code" (R126). -/
def State.resumeParked (s : State) (c : Nat) (n : Fin 8) : State :=
  let t := s.slot c n
  if t.faultCause.extractLsb' 16 16 = 0x0306 then s
  else match s.codeHalf (pkgOf c) t t.faultPc with
    | none => s
    | some h =>
      s.setSlot c n { t.unblock with regs := { t.regs with pc := t.faultPc + if h.getLsbD 15 then 4 else 2 } }

/-- `FRETRY` of a PARKED slot: the faulting instruction issues again (R126). -/
def State.retryParked (s : State) (c : Nat) (n : Fin 8) : State :=
  let t := s.slot c n
  s.setSlot c n { t.unblock with regs := { t.regs with pc := t.faultPc } }

/-- An action on a PARKED slot whose generation matches (R125). -/
def State.onParked (s : State) (c : Nat) (n : Fin 8) (gen : BitVec 8) (f : State → Nat → Fin 8 → State) : State :=
  let t := s.slot c n
  if t.state = .parked && t.gen = gen then f s c n else s

/-! ### Rollback (R215, R354, R355, R363) -/

/-- The `pend` entries that a slot of a core has popped, oldest first, as a replay list (R363). -/
def State.pendEntries (s : State) (c : Nat) (n : Fin 8) (gen : BitVec 8) : List (Nat × Entry) :=
  (((s.pkg (pkgOf c)).scribe (dieOf c)).entries.filter (fun e => e.pend && e.dst == c && e.pslot == n && e.pgen == gen)).map
    (fun e => (e.q, e.pay))

/-- Words of a local memory that have been written whole are poisoned no more (R356, R357; DEDUCED, entry 56). -/
def Core.rewritten (k : Core) (words : List Nat) : Core := { k with lpoison := k.lpoison.filter (!words.contains ·) }

/-- Bytes written to local memory as a thread's own LOCAL addresses name it: into its innermost rival window when they
lie in it, to the memory of the core it acts on otherwise (R160, R217). -/
def State.writeOwn (s : State) (c : Nat) (n : Fin 8) (off : Nat) (bytes : List Byte) (tags : Tags) : State :=
  let t := s.slot c n
  let gs := granules off bytes.length
  let inWin := match t.rivalView with
    | some v => v.inWindow off bytes.length
    | none => false
  if inWin then
    (s.updSlot c n fun t => { t with views := go t.views off bytes tags gs }).updCore t.home
      (·.rewritten (s.keptWords t off bytes.length))
  else
    let s := s.putLocal t.home off bytes none
    (s.updCore t.home fun k => { k with ltags := tags.foldl addNum k.ltags }.rewritten gs).fireMonitors
where
  /-- The innermost rival's window copy written. -/
  go : List View → Nat → List Byte → Tags → Tags → List View
    | [], _, _, _, _ => []
    | v :: rest, off, bytes, tags, gs =>
      if v.rival then
        { v with win := v.win.writeN off bytes, winTags := tags.foldl addNum (v.winTags.clear gs) } :: rest
      else v :: go rest off bytes tags gs

/-- The inputs that a domain preserved are restored: ranges of local memory, whose poison clears, and the matrix state
(R214, R215, R357). -/
def State.restoreInputs (s : State) (c : Nat) (n : Fin 8) (v : View) : State :=
  let s := v.ranges.foldl (fun s r => s.writeOwn c n r.off r.bytes r.tags) s
  match v.matrix with
  | none => s
  | some m => s.updCore (s.slot c n).home fun k =>
    { k with matrix := { k.matrix with acc := m.acc, tbl := m.tbl } }

/-- The view that a word written for a list of views goes to: the innermost view at issue, or the view it has since
been committed into, 0 for the base; none when it has been discarded (R200). `fuel` bounds the chain of commits. -/
def Package.heirView (p : Package) : Nat → Nat → Option Nat
  | 0, _ => none
  | fuel + 1, v =>
    if v = 0 then some 0
    else match p.view v with
      | none => none
      | some r => match r.state with
        | .live => some v
        | .committed u => p.heirView fuel u
        | .discarded => none

/-- A number that no view has: a word for it is discarded. -/
def noView : Nat := 65536

/-- The jobs of a package's cores that would post their words into a view post them nowhere (R200, R240). -/
def State.cutJobs (s : State) (pkg num : Nat) : State :=
  let p := s.pkg pkg
  let mine (j : Job) : Bool := p.heirView (p.views.length + 1) (j.views.headD 0) == some num
  let job (j : Job) : Job := if mine j then { j with views := [noView] } else j
  (s.cores.filter (pkgOf ·.1 == pkg)).foldl (fun s k => s.updCore k.1 fun k =>
    { k with matrix := { k.matrix with jobs := k.matrix.jobs.map job } }) s

/-- A rolled-back domain's view is discarded, with its commit, if one is under way, and the domain goes on in a view of a
new number; it keeps its old one only where no number is free, and then what was bound to the old view is cut from it
(R200, R215, R240, R261; entry 70). -/
def State.renewView (s : State) (pkg num parent ten : Nat) : State × Nat :=
  let cut := s.cutJobs pkg num
  let drop (s : State) : State := s.updPkg pkg fun p =>
    { (p.updView num ViewRec.discard) with
      commits := p.commits.filter (·.view != num) }
  match ((drop s).pkg pkg).freeView with
  | some n => ((drop s).updPkg pkg (·.openView n parent ten false), n)
  | none => ((drop cut).updPkg pkg fun p =>
      { (p.updView num fun r => { r with state := .live }) with versions := p.versions.filter (·.1 != num) }, num)

/-- The jobs of a core's unit know a domain by its view's new number (R310). -/
def Core.renameDomain (k : Core) (num new : Nat) : Core :=
  { k with matrix := { k.matrix with jobs := k.matrix.jobs.map fun j =>
      { j with domains := j.domains.map fun v => if v = num then new else v } } }

/-- The domain at a position of a thread's view stack is rolled back: outboxes and views from it inward are discarded,
worlds the thread is the parent of are discarded whole, its sequencer entries and gang end, its image and inputs are
restored, and it re-executes after its `DOPEN` with its retry count raised (R215). -/
def State.rollback (s : State) (c : Nat) (n : Fin 8) (k : Nat) : State :=
  let t := s.slot c n
  match t.views[k]? with
  | none => s
  | some v =>
    let s := s.drainGang c n
    let s := (t.views.take k).foldl (fun s x => s.discardView t.home t.tenant x) s
    let worlds := (s.pkg (pkgOf c)).worlds.filter (fun w => w.core == c && w.slot == n && w.gen == t.gen)
    let s := worlds.foldl (fun s w => (w.rivals.foldl (fun s r =>
      if (s.slot r.1 r.2.1).gen = r.2.2.1 then s.killThread r.1 r.2.1 else s) (s.endWorld w))) s
    let (s, num) := s.renewView (pkgOf c) v.num (((t.views[k + 1]?).map (·.num)).getD 0) t.tenant
    let s := s.updCore c fun x => { x with seq := x.seq.filter (fun e => e.slot != n) }
    let s := s.updCore t.home (·.renameDomain v.num num)
    let s := { s with monitors := s.monitors.filter (fun m => !(m.tcore == c && m.tslot == n)) }
    let s := s.restoreInputs c n v
    let retry : BitVec 8 := if v.retry = 255 then 255 else v.retry + 1
    let replay := s.pendEntries c n t.gen
    let s := s.updSlot c n fun t => { t.idle with
      state := .ready, pendFault := none, peg := none, replay := replay
      views := { v with num := num, retry := retry, outbox := [] } :: t.views.drop (k + 1)
      regs := { v.saved.setVal v.dst (retry.zeroExtend 32) with pc := v.resume } }
    s.as c n State.pushDown

/-- Whether a domain of a thread that acts on core `h` has a scope of at least `least` and reaches a failed unit at core
`c` (R214, R354). -/
def View.reaches (least c : Nat) (h : Nat) (v : View) : Bool :=
  decide (least ≤ v.scope.toNat) && instanceOf v.scope.toNat h == instanceOf v.scope.toNat c

/-- The position of the innermost own domain of a thread that reaches as far as asked and whose inputs can still be read
(R354). -/
def coverIndex (t : Slot) (reach : Nat → View → Bool) : Option Nat :=
  let own := ownViews t.views
  (List.range own.length).find? fun i =>
    match own[i]? with
    | some v => !v.rival && reach t.home v && !v.spoiled
    | none => false

/-- The innermost domain that covers an error of a thread: its own, or its parent's for a rival: core, slot and position
(R215, R354, R355). None where no open domain covers. `fuel` bounds the nesting of worlds. -/
def State.coverTarget (s : State) : Nat → Nat → Fin 8 → (Nat → View → Bool) → Option (Nat × Fin 8 × Nat)
  | 0, _, _, _ => none
  | fuel + 1, c, n, reach =>
    let t := s.slot c n
    match coverIndex t reach with
    | some k => some (c, n, k)
    | none => match t.rivalView with
      | none => none
      | some v => match (s.pkg (pkgOf t.home)).world v.world with
        | none => none
        | some w => s.coverTarget fuel w.core w.slot reach

/-- A rollback for an error of a unit: the domain remembers the unit (R215, R359). -/
def State.retryFor (s : State) (c : Nat) (n : Fin 8) (k : Nat) (unit : Option UnitName) : State :=
  (s.rollback c n k).updSlot c n fun t => match t.views with
    | v :: rest => { t with views := { v with cause := unit } :: rest }
    | [] => t

/-- Recovery of a thread by the innermost covering domain; a rival's world is discarded whole where that is its parent's
(R215, R355). -/
def State.coverRollback (s : State) (c : Nat) (n : Fin 8) (reach : Nat → View → Bool) (unit : Option UnitName) :
    Option State :=
  (s.coverTarget 9 c n reach).map fun x => s.retryFor x.1 x.2.1 x.2.2 unit

/-- A detected error of a unit, of reach thread or core, that spoils what a thread reads: the innermost covering domain is
rolled back, or the thread takes a poisoned-data fault (R355, R356, R357). -/
def State.threadError (s : State) (c : Nat) (n : Fin 8) (detail : BitVec 8) (addr : DWord)
    (unit : Option UnitName) : State :=
  let t := s.slot c n
  if t.state = .free then s
  else match s.coverRollback c n (View.reaches 1 c) unit with
    | some s => s
    | none => s.trap c n (mkFault 0x0F detail addr)

/-- The least scope that covers an error in a word of a local memory, by the word's WINDOW address: `.die` in the keep
area, `.core` elsewhere (R354). -/
def State.wordReach (s : State) (a : Nat) : Nat :=
  if 65536 - 4096 * (s.core (a / 2 ^ 16)).kc ≤ a % 2 ^ 16 then 3 else 1

/-- The thread name of a slot (R16). -/
def threadName (c : Nat) (n : Fin 8) (gen : BitVec 8) : DWord :=
  BitVec.ofNat 64 (c + 2 ^ 32 * (n.val + 8 * gen.toNat))

/-- A lost thread is recorded in its tenant's list; a peg of detail 0x07 goes to queue 7 of the tenant's recovery core
unless `reach` lost that core (R355, R356). -/
def State.recordLost (s : State) (c : Nat) (n : Fin 8) (reach : Nat → Bool) : State :=
  let t := s.slot c n
  let name := threadName c n t.gen
  let p := pkgOf c
  let s := s.updPkg p fun k => k.updTenant t.tenant fun x =>
    { x with lost := x.lost ++ [name], nlost := min (x.nlost + 1) 0xFFFFFFFF }
  let rc := (((s.pkg p).tenant t.tenant).map (·.rcore)).getD 0xFFFFFFFF
  let k := s.core rc
  if rc = 0xFFFFFFFF || reach rc || k.handlerTenant ≠ some t.tenant then
    s.updPkg p fun x => { x with host := { x.host with events := x.host.events ++ [(t.tenant, 1)] } }
  else
    let peg : FaultPeg := ⟨name, 0, 0x0F, 0x07, false, 2, 0, 0⟩
    if (k.queue 7).free = 0 then
      s.updPkg (pkgOf rc) fun x => { x with service := { x.service with pegs := x.service.pegs ++ [(rc, peg.words)] } }
    else s.setCore rc (k.setQueue 7 { k.queue 7 with entries := (k.queue 7).entries ++ [⟨peg.words, none⟩] })

/-- A thread with the rivals of the worlds it is the parent of, and theirs: they end with it. `fuel` bounds the nesting. -/
def State.withRivals (s : State) : Nat → Nat → Fin 8 → List (Nat × Fin 8)
  | 0, _, _ => []
  | fuel + 1, c, n =>
    let t := s.slot c n
    if t.state = .free then []
    else
      let worlds := (s.pkg (pkgOf c)).worlds.filter (fun w => w.core == c && w.slot == n && w.gen == t.gen)
      (c, n) :: worlds.flatMap fun w => w.rivals.flatMap fun r =>
        if (s.slot r.1 r.2.1).gen = r.2.2.1 then s.withRivals fuel r.1 r.2.1 else []

/-- Threads that an error loses end, and each is recorded, with the rivals that end with it (R355; DEDUCED, entry 80). -/
def State.loseThreads (s : State) (threads : List (Nat × Fin 8)) (reach : Nat → Bool) : State :=
  let s := ((threads.flatMap fun x => s.withRivals 8 x.1 x.2).eraseDups).foldl (fun s x => s.recordLost x.1 x.2 reach) s
  threads.foldl (fun s x => s.endThread 8 x.1 x.2) s

/-- Every thread that an error affects recovers: each covering domain is rolled back once, and a thread that none covers
is handed to `uncovered` (R355). -/
def State.recoverAll (s : State) (threads : List (Nat × Fin 8)) (reach : Nat → View → Bool) (unit : Option UnitName)
    (uncovered : List (Nat × Fin 8) → State → State) : State :=
  let live := threads.filter fun x => (s.slot x.1 x.2).state != .free
  let plan := live.map fun x => (x, s.coverTarget 9 x.1 x.2 reach)
  let targets := (plan.filterMap (·.2)).eraseDups
  let gen (x : Nat × Fin 8) : BitVec 8 := (s.slot x.1 x.2).gen
  let gens := targets.map fun x => (x, gen (x.1, x.2.1))
  let s := uncovered ((plan.filter (·.2.isNone)).map (·.1)) s
  gens.foldl (fun s x =>
    let t := s.slot x.1.1 x.1.2.1
    if t.gen = x.2 && t.state != .free then s.retryFor x.1.1 x.1.2.1 x.1.2.2 unit else s) s

end Sys2Proof.Machine
end

