-- ==== Sys2Proof/Machine/Memory.lean ====
section
/-!
DEFINITION. Scalar, vector and capability accesses, spills and fills (R156 to R166).
-/

namespace Sys2Proof.Machine

/-- The access address of an offset through a capability (R156). -/
def Cap.at (c : Cap) (off : Int) : Nat := (((c.base : Int) + off) % 2 ^ 64).toNat

/-- An address that an instruction requires to be a multiple of `n` (R158). -/
def checkAlign (a n : Nat) : Except FaultInfo Unit :=
  if a % n = 0 then .ok () else .error (mkFault 0x02 0x01 (BitVec.ofNat 64 a))

/-- Steps 2 to 4 of R157 for one access of `z` bytes. -/
def State.checked (s : State) (c : Cap) (off : Int) (z align : Nat) (spaces : List Nat) (need : BitVec 7)
    (k : AccKind) : Except FaultInfo Target := do
  let x ← s.target c off z spaces need
  checkAlign x.va align
  s.viewCheck k x z
  .ok x

/-- Spaces of an access of `z` bytes by `LD` or `ST`: CTRL takes 4 or 8 bytes (R157, R254). -/
def scalarSpaces (z : Nat) : List Nat := if z = 4 || z = 8 then spAll else spNoCtrl

/-! ### Scalar loads and stores (R162) -/

/-- `LD` at an offset, of either layout or length. -/
def State.load (i : Instr) (len : Nat) (srcs : List (BitVec 5)) (ty d : BitVec 5) (c : BitVec 3) (off : Regs → Int)
    (acq : Bool) (scope : BitVec 3) (s : State) : Out :=
  .next (s.memory i len srcs [d] fun s => do
    let z := tyBytes ty
    let x ← liftFault (s.checked (s.regs.cap c) (off s.regs) z z (scalarSpaces z) pRD .load)
    let (bytes, s) ← s.readAt x z (!acq) pRD
    let s := if acq then s.acquire scope else s
    .ok (s.regs.setElem ty d (BitVec.ofNat 64 (leValue bytes)) 0, s))

/-- `ST` and `FST` at an offset: the stored value and its flags are formed from the source element. -/
def State.store (i : Instr) (len : Nat) (srcs : List (BitVec 5)) (ty d : BitVec 5) (c : BitVec 3) (off : Regs → Int)
    (spaces : List Nat) (value : Regs → FElem → FRes) (s : State) : Out :=
  .next (s.memory i len srcs [] fun s => do
    let z := tyBytes ty
    let r := s.regs
    let x ← liftFault (s.checked (r.cap c) (off r) z z spaces pWR .store)
    let y := value r (r.elem ty d)
    let s ← s.writeAt x (leBytes z y.bits.toNat) pWR
    .ok (s.regs.raise y.flags, s))

/-- The value of `ST`: raw bits, `td` for a dropped sticky bit of 1. -/
def rawStore (_ : Regs) (x : FElem) : FRes := ⟨x.bits, 0, storeFlags x.tail⟩

/-- The value of `FST`: `FINAL` under `fcr` (R82 to R86, R162). -/
def finalStore (ty : BitVec 5) (r : Regs) (x : FElem) : FRes := elCvtf ty ty r.fcr 0 x

/-- `LD`, layout MR (R162). -/
def execLd (d a : BitVec 5) (c : BitVec 3) (ord : BitVec 2) (ty : BitVec 5) (scope : BitVec 3) (s : State) : Out :=
  s.load (.ld d a c ord ty scope) 4 [a] ty d c (·.offset a) (ord == 1) scope
/-- `LD`, layout MI (R162). -/
def execLdImm (d : BitVec 5) (c : BitVec 3) (ty : BitVec 5) (imm : BitVec 11) (s : State) : Out :=
  s.load (.ldImm d c ty imm) 4 [] ty d c (fun _ => immOffset imm (tyBytes ty)) false 0
/-- Short `LD.n32` (R58). -/
def execLdShort (a : BitVec 5) (c : BitVec 3) (j : BitVec 2) (s : State) : Out :=
  s.load (.ldShort a c j) 2 [] 6 a c (fun _ => 4 * (j.toNat : Int)) false 0
/-- `ST`, layout MR (R162). -/
def execSt (d a : BitVec 5) (c : BitVec 3) (ord : BitVec 2) (ty : BitVec 5) (scope : BitVec 3) (s : State) : Out :=
  s.store (.st d a c ord ty scope) 4 [a, d] ty d c (·.offset a) (scalarSpaces (tyBytes ty)) rawStore
/-- `ST`, layout MI (R162). -/
def execStImm (d : BitVec 5) (c : BitVec 3) (ty : BitVec 5) (imm : BitVec 11) (s : State) : Out :=
  s.store (.stImm d c ty imm) 4 [d] ty d c (fun _ => immOffset imm (tyBytes ty)) (scalarSpaces (tyBytes ty)) rawStore
/-- Short `ST.n32` (R58). -/
def execStShort (a : BitVec 5) (c : BitVec 3) (j : BitVec 2) (s : State) : Out :=
  s.store (.stShort a c j) 2 [a] 6 a c (fun _ => 4 * (j.toNat : Int)) spAll rawStore
/-- `FST`, layout MR (R162). -/
def execFst (d a : BitVec 5) (c : BitVec 3) (ord : BitVec 2) (ty : BitVec 5) (scope : BitVec 3) (s : State) : Out :=
  s.store (.fst d a c ord ty scope) 4 [a, d] ty d c (·.offset a) spNoCtrl (finalStore ty)
/-- `FST`, layout MI (R162). -/
def execFstImm (d : BitVec 5) (c : BitVec 3) (ty : BitVec 5) (imm : BitVec 11) (s : State) : Out :=
  s.store (.fstImm d c ty imm) 4 [d] ty d c (fun _ => immOffset imm (tyBytes ty)) spNoCtrl (finalStore ty)

/-! ### Vector, strided and indexed accesses (R164) -/

/-- Steps 2 to 4 of R157 for one element; `base` is the offset whose address `VLD` and `VST` align, the element's own
otherwise. -/
def State.checkElem (s : State) (c : Cap) (off : Int) (z : Nat) (base : Option Int) (align : Nat) (need : BitVec 7)
    (k : AccKind) : Except FaultInfo Target := do
  let x ← s.target c off z spNoCtrl need
  checkAlign (Cap.at c (base.getD off)) align
  s.viewCheck k x z
  .ok x

/-- The enabled elements checked in ascending order (R157, R164). -/
def State.checkElems (s : State) (c : Cap) (z : Nat) (base : Option Int) (align : Nat) (need : BitVec 7)
    (k : AccKind) : List (Nat × Int) → Except FaultInfo (List (Nat × Target))
  | [] => .ok []
  | (i, off) :: rest => do
    let x ← s.checkElem c off z base align need k
    let xs ← s.checkElems c z base align need k rest
    .ok ((i, x) :: xs)

/-- Elements read in ascending order, each one single access. -/
def State.readElems (z : Nat) : List (Nat × Target) → State → Except Miss (List (Nat × DWord) × State)
  | [], s => .ok ([], s)
  | (i, x) :: rest, s => do
    let (bytes, s) ← s.readAt x z true pRD
    let (ys, s) ← State.readElems z rest s
    .ok ((i, BitVec.ofNat 64 (leValue bytes)) :: ys, s)

/-- Elements written in ascending order; monitors reply after the last (R164, R177). -/
def State.placeElems (z : Nat) (value : Nat → FElem) : List (Nat × Target) → State → Except Miss State
  | [], s => .ok s.fireMonitors
  | (i, x) :: rest, s => do
    let s ← s.placeAt x (leBytes z (value i).bits.toNat) pWR
    State.placeElems z value rest s

/-- The enabled elements of an access with their offsets. -/
def elemOffsets (ty : BitVec 5) (m : BitVec 8) (off : Nat → Int) : List (Nat × Int) :=
  (enabled m (lanesOf ty)).map fun i => (i, off i)

/-- `VLD`, `VLDS` and `VGATH`. -/
def State.vload (i : Instr) (srcs : List (BitVec 5)) (ty d : BitVec 5) (c k : BitVec 3) (base : Regs → Option Int)
    (align : Nat) (off : Regs → Nat → Int) (s : State) : Out :=
  .next (s.memory i 4 srcs [] fun s => do
    let z := tyBytes ty
    let r := s.regs
    let m := r.mask k
    let xs ← liftFault (s.checkElems (r.cap c) z (base r) align pRD .load (elemOffsets ty m (off r)))
    let (ys, s) ← State.readElems z xs s
    .ok (s.regs.setVec d (vecPut ty m (r.vec d) fun i => ⟨(look ys i).getD 0, 0, 0⟩), s))

/-- The flags of a vector store: `td` when an enabled element drops a sticky bit of 1 (R164). -/
def vecStoreFlags (ty : BitVec 5) (m : BitVec 8) (v : Vector Elem 8) : BitVec 6 :=
  vecFlags ty m fun i => ⟨0, 0, storeFlags (vecElem ty v i).tail⟩

/-- `VST`. -/
def State.vstore (i : Instr) (srcs : List (BitVec 5)) (ty d : BitVec 5) (c k : BitVec 3) (off : Regs → Int)
    (s : State) : Out :=
  .next (s.memory i 4 srcs [] fun s => do
    let z := tyBytes ty
    let r := s.regs
    let m := r.mask k
    let xs ← liftFault (s.checkElems (r.cap c) z (some (off r)) (lanesOf ty * z) pWR .store
      (elemOffsets ty m fun i => off r + i * z))
    let s ← State.placeElems z (vecElem ty (r.vec d)) xs s
    .ok (s.regs.raise (vecStoreFlags ty m (r.vec d)), s))

/-- The offset of an indexed element: SX of the index lane, lane 2i at 64 bits (R164). -/
def Regs.index (r : Regs) (ty a : BitVec 5) (i : Nat) : Int :=
  ((r.vec a)[Fin.ofNat 8 (if wide ty then 2 * i else i)]).val.toInt

/-- `VLD`, layout MV (R164). -/
def execVld (d a : BitVec 5) (c k : BitVec 3) (ty : BitVec 5) (s : State) : Out :=
  s.vload (.vld d a c k ty) [a] ty d c k (fun r => some (r.offset a)) (lanesOf ty * tyBytes ty)
    (fun r i => r.offset a + i * tyBytes ty)
/-- `VLD`, layout MI: every element (R164). -/
def execVldImm (d : BitVec 5) (c : BitVec 3) (ty : BitVec 5) (imm : BitVec 11) (s : State) : Out :=
  s.vload (.vldImm d c ty imm) [] ty d c 0 (fun _ => some (immOffset imm 32)) (lanesOf ty * tyBytes ty)
    (fun _ i => immOffset imm 32 + i * tyBytes ty)
/-- `VST`, layout MV (R164). -/
def execVst (d a : BitVec 5) (c k : BitVec 3) (ty : BitVec 5) (s : State) : Out :=
  s.vstore (.vst d a c k ty) [a] ty d c k (·.offset a)
/-- `VST`, layout MI: every element (R164). -/
def execVstImm (d : BitVec 5) (c : BitVec 3) (ty : BitVec 5) (imm : BitVec 11) (s : State) : Out :=
  s.vstore (.vstImm d c ty imm) [] ty d c 0 (fun _ => immOffset imm 32)
/-- `VLDS`: element i at a stride of `E[e]` (R164). -/
def execVlds (d a : BitVec 5) (c k : BitVec 3) (ty : BitVec 5) (e : BitVec 3) (s : State) : Out :=
  s.vload (.vlds d a c k ty e) [a] ty d c k (fun _ => none) (tyBytes ty)
    (fun r i => r.offset a + i * (r.ext e).toInt)
/-- `VGATH` (R164). -/
def execVgath (d a : BitVec 5) (c k : BitVec 3) (ty : BitVec 5) (s : State) : Out :=
  s.vload (.vgath d a c k ty) [] ty d c k (fun _ => none) (tyBytes ty) (fun r i => r.index ty a i)

/-- Elements of a `VSCAT` checked and performed one after the other: a fault leaves those below it performed (R164).
A wait leaves nothing performed. -/
def State.scatter (c : Cap) (z : Nat) (value : Nat → FElem) : List (Nat × Int) → State → Except Miss State ⊕ (State × FaultInfo)
  | [], s => .inl (.ok s)
  | (i, off) :: rest, s =>
    match s.checkElem c off z none z pWR .store with
    | .error f => .inr (s, f)
    | .ok x => match s.writeAt x (leBytes z (value i).bits.toNat) pWR with
      | .error (.wait line) => .inl (.error (.wait line))
      | .error (.fault f) => .inr (s, f)
      | .ok s => State.scatter c z value rest s

/-- `VSCAT` (R164). -/
def execVscat (d a : BitVec 5) (c k : BitVec 3) (ty : BitVec 5) (s : State) : Out :=
  .next (s.issue [] [] fun s =>
    let r := s.regs
    let m := r.mask k
    match State.scatter (r.cap c) (tyBytes ty) (vecElem ty (r.vec d)) (elemOffsets ty m fun i => r.index ty a i) s with
    | .inl (.ok s) => .ok (s.setRegs ((s.regs.raise (vecStoreFlags ty m (r.vec d))).advance 4))
    | .inl (.error (.fault f)) => .error (.trap s f)
    | .inl (.error (.wait line)) => .error (.wait (s.awaitHome (.vscat d a c k ty) line))
    | .inr (s, f) => .error (.trap s f))

/-! ### Capabilities, spills and fills (R165, R166) -/

/-- A capability read from 16 bytes: the loaded tag is the stored tag AND `rc` (R157, R165). -/
def State.readCap (s : State) (via : Cap) (x : Target) (plain : Bool) : Except Miss (Cap × State) := do
  let tag := s.tagAt x plain
  let (bytes, s) ← s.readAt x 16 plain pRD
  .ok (capOf bytes (tag && via.perm.getLsbD 2), s)

/-- A capability written to 16 bytes with its tag, as one event; monitors reply after it (R163, R165, R223). -/
def State.writeCap (s : State) (x : Target) (v : Cap) (need : BitVec 7) : Except Miss State := do
  let s ← s.placeAt x (capBytes v) need
  .ok (if v.tag then s.setTag x true else s).fireMonitors

/-- The permissions a stored capability needs: `wr`, and `wc` with a tag of 1 (R157). -/
def capNeed (v : Cap) : BitVec 7 := if v.tag then pWR ||| pWC else pWR

/-- The spaces a capability may be stored to: HOST only with tag 0, CTRL never (R157, R254). -/
def capSpaces (v : Cap) : List Nat := if v.tag then spMem else spNoCtrl

/-- The body of `LDC` and of `FILL` of class c. -/
def State.loadCap (s : State) (d a : BitVec 5) (c : BitVec 3) (acq : Bool) (scope : BitVec 3) :
    Except Miss (Regs × State) := do
  let r := s.regs
  let x ← liftFault (s.checked (r.cap c) (r.offset a) 16 16 spMem pRD .load)
  let (v, s) ← s.readCap (r.cap c) x (!acq)
  let s := if acq then s.acquire scope else s
  .ok (s.regs.setCap (d.setWidth 3) v, s)

/-- The body of `STC` and of `SPILL` of class c. -/
def State.storeCap (s : State) (d a : BitVec 5) (c : BitVec 3) : Except Miss (Regs × State) := do
  let r := s.regs
  let v := r.cap (d.setWidth 3)
  let x ← liftFault (s.checked (r.cap c) (r.offset a) 16 16 (capSpaces v) (capNeed v) .store)
  let s ← s.writeCap x v (capNeed v)
  .ok (s.regs, s)

/-- `LDC` (R165). -/
def execLdc (d a : BitVec 5) (c : BitVec 3) (ord : BitVec 2) (scope : BitVec 3) (s : State) : Out :=
  .next (s.memory (.ldc d a c ord scope) 4 [a] [] fun s => s.loadCap d a c (ord == 1) scope)

/-- `STC` (R165). -/
def execStc (d a : BitVec 5) (c : BitVec 3) (ord : BitVec 2) (scope : BitVec 3) (s : State) : Out :=
  .next (s.memory (.stc d a c ord scope) 4 [a] [] fun s => s.storeCap d a c)

/-- Size and alignment of a register image (R166). -/
def imageShape (cls : BitVec 3) : Nat × Nat :=
  match cls.toNat with
  | 0 => (8, 8)
  | 1 => (16, 16)
  | 2 => (48, 16)
  | 3 => (16, 16)
  | _ => (4, 4)

/-- The tails of a vector register as 16 bits (R166). -/
def vecTails (v : Vector Elem 8) : Nat :=
  (List.finRange 8).foldl (fun x i => x + v[i].tail.toNat * 4 ^ i.val) 0

/-- The image of a register of class s, d, v, k or e (R166). -/
def Regs.image (r : Regs) (cls : BitVec 3) (d : BitVec 5) : List Byte :=
  match cls.toNat with
  | 0 => leBytes 4 (r.val d).toNat ++ leBytes 4 (r.get d).tail.toNat
  | 1 => leBytes 8 (r.pair d).toNat ++ leBytes 8 ((r.get d).tail.toNat + 4 * (r.get (d + 1)).tail.toNat)
  | 2 => (List.finRange 8).flatMap (fun i => leBytes 4 ((r.vec d)[i]).val.toNat) ++ leBytes 16 (vecTails (r.vec d))
  | 4 => leBytes 4 (r.mask (d.setWidth 3)).toNat
  | _ => leBytes 4 (r.ext (d.setWidth 3)).toNat

/-- A register of class s, d, v, k or e restored from its image (R166). -/
def Regs.restore (r : Regs) (cls : BitVec 3) (d : BitVec 5) (b : List Byte) : Regs :=
  let word (at_ : Nat) : Word := BitVec.ofNat 32 (leValue ((b.drop at_).take 4))
  let tails (at_ : Nat) : Nat := leValue ((b.drop at_).take 2)
  match cls.toNat with
  | 0 => r.put d ⟨word 0, BitVec.ofNat 2 (tails 4)⟩
  | 1 => (r.put d ⟨word 0, BitVec.ofNat 2 (tails 8)⟩).put (d + 1) ⟨word 4, BitVec.ofNat 2 (tails 8 / 4)⟩
  | 2 => r.setVec d (Vector.ofFn fun i => ⟨word (4 * i.val), BitVec.ofNat 2 (tails 32 / 4 ^ i.val)⟩)
  | 4 => r.setMask (d.setWidth 3) (b.getD 0 0)
  | _ => r.setExt (d.setWidth 3) (word 0)

/-- `SPILL` (R166). -/
def execSpill (d a : BitVec 5) (c cls : BitVec 3) (s : State) : Out :=
  .next (s.memory (.spill d a c cls) 4 [a] [] fun s =>
    if cls = 3 then s.storeCap d a c
    else do
      let r := s.regs
      let (z, al) := imageShape cls
      let x ← liftFault (s.checked (r.cap c) (r.offset a) z al spNoCtrl pWR .store)
      let s ← s.writeAt x (r.image cls d) pWR
      .ok (s.regs, s))

/-- `FILL` (R166). -/
def execFill (d a : BitVec 5) (c cls : BitVec 3) (s : State) : Out :=
  .next (s.memory (.fill d a c cls) 4 [a] [] fun s =>
    if cls = 3 then s.loadCap d a c false 0
    else do
      let r := s.regs
      let (z, al) := imageShape cls
      let x ← liftFault (s.checked (r.cap c) (r.offset a) z al spNoCtrl pRD .load)
      let (bytes, s) ← s.readAt x z true pRD
      .ok (s.regs.restore cls d bytes, s))

end Sys2Proof.Machine
end

