-- ==== Sys2Proof/Machine/Atomic.lean ====
section
/-!
DEFINITION. Atomics (R167, R168) and `WAITNE` (R177).
-/

namespace Sys2Proof.Machine

/-- The operand of an atomic: a scalar or a pair (R167). -/
def Regs.atomVal (r : Regs) (w : BitVec 1) (n : BitVec 5) : DWord := if w = 1 then r.pair n else zx64 (r.val n)

/-- The result of an atomic, tail 00 (R167). -/
def Regs.setAtom (r : Regs) (w : BitVec 1) (n : BitVec 5) (x : DWord) : Regs :=
  if w = 1 then r.setPair n x else r.setVal n (x.setWidth 32)

/-- The access size of an atomic (R167). -/
def atomSize (w : BitVec 1) : Nat := if w = 1 then 8 else 4

/-- The signed value of an operand of an atomic's width. -/
def atomInt (w : BitVec 1) (x : DWord) : Int := if w = 1 then x.toInt else (x.setWidth 32).toInt

/-- Whether an ordering code acquires: 1 or 3 (R49). -/
def acquires (ord : BitVec 2) : Bool := ord = 1 || ord = 3

/-- An atomic: one indivisible action at the home that answers the value to write, if any, and the flags (R167). -/
def State.atomic (i : Instr) (srcs : List (BitVec 5)) (d a : BitVec 5) (c : BitVec 3) (ord : BitVec 2)
    (scope : BitVec 3) (w : BitVec 1) (new : Regs → DWord → Option DWord × BitVec 6) (s : State) : Out :=
  .next (s.memory i 4 srcs [d] fun s => do
    let r := s.regs
    let z := atomSize w
    let x ← liftFault (s.checked (r.cap c) (r.offset a) z z spMem pAT .atomic)
    let (bytes, s) ← s.readAt x z false pAT
    let old : DWord := BitVec.ofNat 64 (leValue bytes)
    let (y, flags) := new r old
    let s ← match y with
      | some v => s.writeAt x (leBytes z v.toNat) pAT
      | none => .ok s
    let s := if acquires ord then s.acquire scope else s
    .ok ((s.regs.setAtom w d old).raise flags, s))

/-- An atomic whose new value is a function of the old value and the operand. -/
def State.atomicOp (i : Instr) (d a b : BitVec 5) (c : BitVec 3) (ord : BitVec 2) (scope : BitVec 3) (w : BitVec 1)
    (f : DWord → DWord → DWord) (s : State) : Out :=
  s.atomic i [a, b] d a c ord scope w fun r old => (some (f old (r.atomVal w b)), 0)

/-- `AADD` (R167). -/
def execAadd (d a b : BitVec 5) (c : BitVec 3) (ord : BitVec 2) (scope : BitVec 3) (w : BitVec 1) (s : State) : Out :=
  s.atomicOp (.aadd d a b c ord scope w) d a b c ord scope w (· + ·)
/-- `AAND` (R167). -/
def execAand (d a b : BitVec 5) (c : BitVec 3) (ord : BitVec 2) (scope : BitVec 3) (w : BitVec 1) (s : State) : Out :=
  s.atomicOp (.aand d a b c ord scope w) d a b c ord scope w (· &&& ·)
/-- `AOR` (R167). -/
def execAor (d a b : BitVec 5) (c : BitVec 3) (ord : BitVec 2) (scope : BitVec 3) (w : BitVec 1) (s : State) : Out :=
  s.atomicOp (.aor d a b c ord scope w) d a b c ord scope w (· ||| ·)
/-- `AXOR` (R167). -/
def execAxor (d a b : BitVec 5) (c : BitVec 3) (ord : BitVec 2) (scope : BitVec 3) (w : BitVec 1) (s : State) : Out :=
  s.atomicOp (.axor d a b c ord scope w) d a b c ord scope w (· ^^^ ·)
/-- `ASWAP` (R167). -/
def execAswap (d a b : BitVec 5) (c : BitVec 3) (ord : BitVec 2) (scope : BitVec 3) (w : BitVec 1) (s : State) : Out :=
  s.atomicOp (.aswap d a b c ord scope w) d a b c ord scope w (fun _ y => y)
/-- `ACAS`: no write when the old value differs from the expected one (R167). -/
def execAcas (d a b : BitVec 5) (c : BitVec 3) (ord : BitVec 2) (scope : BitVec 3) (w : BitVec 1) (s : State) : Out :=
  s.atomic (.acas d a b c ord scope w) [a, b] d a c ord scope w fun r old =>
    (if old = r.atomVal w d then some (r.atomVal w b) else none, 0)
/-- Signed `AMIN` (R167). -/
def execAminSigned (d a b : BitVec 5) (c : BitVec 3) (ord : BitVec 2) (scope : BitVec 3) (w : BitVec 1) (s : State) :
    Out :=
  s.atomicOp (.aminSigned d a b c ord scope w) d a b c ord scope w
    (fun x y => if atomInt w y < atomInt w x then y else x)
/-- Unsigned `AMIN` (R167). -/
def execAminUnsigned (d a b : BitVec 5) (c : BitVec 3) (ord : BitVec 2) (scope : BitVec 3) (w : BitVec 1) (s : State) :
    Out :=
  s.atomicOp (.aminUnsigned d a b c ord scope w) d a b c ord scope w aluMinn64
where
  /-- The lesser value. -/
  aluMinn64 (x y : DWord) : DWord := if y.ult x then y else x
/-- Signed `AMAX` (R167). -/
def execAmaxSigned (d a b : BitVec 5) (c : BitVec 3) (ord : BitVec 2) (scope : BitVec 3) (w : BitVec 1) (s : State) :
    Out :=
  s.atomicOp (.amaxSigned d a b c ord scope w) d a b c ord scope w
    (fun x y => if atomInt w x < atomInt w y then y else x)
/-- Unsigned `AMAX` (R167). -/
def execAmaxUnsigned (d a b : BitVec 5) (c : BitVec 3) (ord : BitVec 2) (scope : BitVec 3) (w : BitVec 1) (s : State) :
    Out :=
  s.atomicOp (.amaxUnsigned d a b c ord scope w) d a b c ord scope w (fun x y => if x.ult y then y else x)

/-- The type code of `AFADD`: `.f32` or `.f64` (R168). -/
def afaddType (w : BitVec 1) : BitVec 5 := if w = 1 then 8 else 9

/-- The new value of `AFADD` with its flags: the exact sum rounded once to odd, then `FINAL` (R168). -/
def afaddNew (w : BitVec 1) (fcr : Word) (old : DWord) (b : FElem) : FRes :=
  let u := elAdd (afaddType w) ⟨old, 0⟩ b
  let y := elCvtf (afaddType w) (afaddType w) fcr 0 ⟨u.bits, u.tail⟩
  { y with flags := u.flags ||| y.flags }

/-- `AFADD` (R168). -/
def execAfadd (d a b : BitVec 5) (c : BitVec 3) (ord : BitVec 2) (scope : BitVec 3) (w : BitVec 1) (s : State) : Out :=
  s.atomic (.afadd d a b c ord scope w) [a, b] d a c ord scope w fun r old =>
    let y := afaddNew w r.fcr old (r.elem (afaddType w) b)
    (some y.bits, y.flags)

/-! ### `WAITNE` (R177) -/

/-- The monitor that a `WAITNE` of the issuing thread arms. -/
def State.monitorOf (s : State) (x : Target) (z : Nat) (v : DWord) : Monitor :=
  let t := s.me
  let own := if x.space = spLOCAL then t.rivalView.map (·.num) else none
  ⟨x.space, x.core, x.addr, z, v, own, s.curCore, s.curSlot⟩

/-- The home of a monitored location, by table: a base die and slice, or a core. -/
def Monitor.table (m : Monitor) : Nat × Nat :=
  if m.space = spGLOBAL then (1, homePkg m.addr * 2 ^ 11 + homePos m.addr * 128 + homeSlice m.addr) else (0, m.core)

/-- `WAITNE`: compare and arm in one action at the home; a full monitor table answers "retry" (R177). -/
def execWaitne (d a b : BitVec 5) (c : BitVec 3) (ord : BitVec 2) (scope : BitVec 3) (w : BitVec 1) (s : State) : Out :=
  let i : Instr := .waitne d a b c ord scope w
  .next (s.scoped i [a, b] [d] fun s =>
    let r := s.regs
    let z := atomSize w
    match s.checked (r.cap c) (r.offset a) z z spMem pAT .atomic with
    | .error f => .error (.trap s f)
    | .ok x => match s.readAt x z false pAT with
      | .error (.wait line) => .error (.wait (s.awaitHome i line))
      | .error (.fault f) => .error (.trap s f)
      | .ok (bytes, s) =>
        let v : DWord := BitVec.ofNat 64 (leValue bytes)
        let y := r.atomVal w b
        if v ≠ y then
          let s := if acquires ord then s.acquire scope else s
          .ok (s.setRegs ((s.regs.setAtom w d v).advance 4))
        else
          let m := s.monitorOf x z y
          if s.monitorRoom ≤ (s.monitors.filter (·.table == m.table)).length then
            .error (.wait (s.updMe fun t => { t.block .sleep .monitorRetry with held := some i }))
          else
            let now := (s.pkg (pkgOf s.curCore)).stamp
            .error (.wait ({ s with monitors := s.monitors ++ [m] }.updMe fun t =>
              { t.block .sleep .monitor with held := some i, asked := some (t.asked.getD now) })))

end Sys2Proof.Machine
end

