-- ==== Sys2Proof/Machine/Caps.lean ====
section
/-!
DEFINITION. Capability manipulation (R117, R118).
-/

namespace Sys2Proof.Machine

/-- The "widen" fault (R117, R249). -/
def widenFault : FaultInfo := mkFault 0x03 0x05 0

/-- A capability derived into `cd` from `ca` and `sb`, or the "widen" fault (R117). -/
def State.derive (d a b : BitVec 5) (f : Cap → Word → Option Cap) (s : State) : Out :=
  .next (s.plain 4 [b] [] fun r =>
    match f (r.cap (a.setWidth 3)) (r.val b) with
    | none => .error widenFault
    | some c => .ok (r.setCap (d.setWidth 3) c))

/-- A word read from a capability into `sd` (R117). -/
def State.capWord (d a : BitVec 5) (f : Cap → Word) (s : State) : Out :=
  .next (s.plain 4 [] [d] fun r => .ok (r.setVal d (f (r.cap (a.setWidth 3)))))

/-- The capability with a length at most its own (R117). -/
def capSetLen (c : Cap) (x : Word) : Option Cap :=
  if c.len < x.toNat then none else some (Cap.make c.tag c.dom c.space c.perm x.toNat c.base)

/-- The capability with its base moved up and its length shortened by as much (R117). The base has 52 bits: a sum that
reaches 2^52, which an untagged image can hold, wraps (DESIGN CHOICE, entry 53). -/
def capMove (c : Cap) (x : Word) : Option Cap :=
  if c.len < x.toNat then none else some (Cap.make c.tag c.dom c.space c.perm (c.len - x.toNat) (c.base + x.toNat))

/-- The capability with permissions removed (R117). -/
def capMask (c : Cap) (x : Word) : Option Cap :=
  some (Cap.make c.tag c.dom c.space (c.perm &&& x.setWidth 7) c.len c.base)

/-- The space that `CPERM` answers: the codes 5 to 7, which only an untagged image can hold, are never produced, and read
as 0 (R118; DESIGN CHOICE, entry 63). -/
def permSpace (c : Cap) : BitVec 3 := if 4 < c.space then 0 else BitVec.ofNat 3 c.space

/-- The word of R118. -/
def permWord (c : Cap) : Word :=
  BitVec.ofNat 16 c.dom ++ 0#4 ++ (if c.tag then 1#1 else 0#1) ++ permSpace c ++ 0#1 ++ c.perm

/-- `CSETB` (R117). -/
def execCsetb (d a b : BitVec 5) (s : State) : Out := s.derive d a b capSetLen
/-- `CINC` (R117). -/
def execCinc (d a b : BitVec 5) (s : State) : Out := s.derive d a b capMove
/-- `CAND` (R117). -/
def execCand (d a b : BitVec 5) (s : State) : Out := s.derive d a b capMask
/-- `CBASE` (R117). -/
def execCbase (d a : BitVec 5) (s : State) : Out := s.capWord d a fun c => BitVec.ofNat 32 c.base
/-- `CLEN` (R117). -/
def execClen (d a : BitVec 5) (s : State) : Out := s.capWord d a fun c => BitVec.ofNat 32 (min c.len 0xFFFFFFFF)
/-- `CPERM` (R117, R118). -/
def execCperm (d a : BitVec 5) (s : State) : Out := s.capWord d a permWord

end Sys2Proof.Machine
end

