-- ==== Sys2Proof/Machine/Errors.lean ====
section
/-!
DEFINITION. Error records and reports (R309, R353 to R359).
-/

namespace Sys2Proof.Machine

/-- Nanoseconds an error counts for: 600 s (R359). -/
def errorWindow : Nat := 600 * 10 ^ 9

/-- Corrected errors that a unit may have within 600 s before it counts as lasting (R359). -/
def correctedLimit : UnitName → Option Nat
  | .core _ _ _ _ _ => some 64
  | .stop _ _ _ _ => some 16
  | .way _ _ _ _ => some 256
  | .page _ _ => some 32
  | _ => none

/-- The error record of a unit. -/
def Service.recordOf (v : Service) (u : UnitName) : ErrorRecord :=
  (v.records.find? (·.unit == u)).getD ⟨u, [], [], false⟩

/-- An error record after one more error: lasting when a second detected error falls within 600 s of the first, when
the corrected errors exceed the unit's threshold, or when a retry fails again in the unit (R359). -/
def ErrorRecord.add (r : ErrorRecord) (now : Nat) (corrected again : Bool) : ErrorRecord :=
  let recent (l : List Nat) : List Nat := l.filter (fun t => now ≤ t + errorWindow)
  let c := if corrected then recent r.corrected ++ [now] else recent r.corrected
  let d := if corrected then recent r.detected else recent r.detected ++ [now]
  { r with
    corrected := c
    detected := d
    lasting := r.lasting || again || 2 ≤ d.length || (match correctedLimit r.unit with
      | some n => decide (n < c.length)
      | none => !d.isEmpty && r.unit matches .coreDie _ _) }

/-- An error of a unit is reported to the service processors of a package (R359). -/
def State.report (s : State) (pkg : Nat) (u : UnitName) (corrected again : Bool) : State :=
  s.updPkg pkg fun p =>
    let r := (p.service.recordOf u).add p.ptc.toNat corrected again
    { p with service := { p.service with
      records := r :: p.service.records.filter (·.unit != u), log := p.service.log ++ [u] } }

/-- The physical column of a logical column of a row whose disabled stops a mask gives (R360). -/
def physColumn (m : BitVec 34) (c : Nat) : Nat := ((List.range 34).filter (fun i => !m.getLsbD i)).getD c 0

/-- The mask of disabled stops of a row of a physical die (R360). -/
def Package.stopMask (p : Package) (pdie row : Nat) : BitVec 34 := (look p.stopMap (pdie * 32 + row)).getD 0

/-- The physical stop that serves a logical quad of a logical die: package, die, row and column (R335, R360). -/
def State.stopPlace (s : State) (pkg die quad : Nat) : Nat × Nat × Nat × Nat :=
  let d := (s.pkg pkg).coreDie die
  let own := if d < 16 then pkg else d / 16 - 1
  (own, d % 16, quad / 32, physColumn ((s.pkg own).stopMask (d % 16) (quad / 32)) (quad % 32))

/-- The physical stop behind a logical one, as error reports name it (R359). -/
def State.stopUnit (s : State) (pkg die quad : Nat) : UnitName :=
  let x := s.stopPlace pkg die quad
  .stop x.1 x.2.1 x.2.2.1 x.2.2.2

/-- The physical core behind a core name, as error reports name it (R359). -/
def State.coreUnit (s : State) (c : Nat) : UnitName :=
  let x := s.stopPlace (pkgOf c) (dieOf c) (quadOf c)
  .core x.1 x.2.1 x.2.2.1 x.2.2.2 (c % 4)

/-- Whether a unit's errors are lasting. -/
def State.lastingUnit (s : State) (pkg : Nat) (u : UnitName) : Bool := ((s.pkg pkg).service.recordOf u).lasting

/-- Whether a domain of a thread has been retried already for an error of a unit (R359). -/
def Slot.retriedFor (t : Slot) (k : Nat) (unit : UnitName) : Bool :=
  (t.views[k]?).any fun v => v.retry != 0 && v.cause == some unit

/-- Whether the innermost covering domain of a thread has been retried already for an error of the same unit (R359). -/
def State.retried (s : State) (c : Nat) (n : Fin 8) (unit : UnitName) : Bool :=
  (s.coverTarget 9 c n (View.reaches 1 c)).any fun x => (s.slot x.1 x.2.1).retriedFor x.2.2 unit

/-- A detected error of reach thread or core in a thread: the core's record takes it, and the thread recovers (R355,
R357, R359). -/
def State.coreError (s : State) (c : Nat) (n : Fin 8) (detail : BitVec 8) (addr : DWord) : State :=
  let unit := s.coreUnit c
  (s.report (pkgOf c) unit false (s.retried c n unit)).threadError c n detail addr (some unit)

/-- A thread that has just met a poisoned word of local memory is rolled back where a domain covers the error, and then
takes no fault; a domain that was rolled back for the same core before has been retried in vain, which the core's record
takes (R355, R357, R359). `before` is the state before its instruction. -/
def State.recoverLocal (s before : State) (c : Nat) (n : Fin 8) : State :=
  match (s.slot c n).peg with
  | some (.service p) =>
    if (before.slot c n).peg.isSome || p.cls ≠ 0x0F || p.detail ≠ 0x06 then s
    else
      let b := before.slot c n
      let s' := s.updSlot c n fun t =>
        { t with peg := none, faultPc := b.faultPc, faultCause := b.faultCause, faultAddr := b.faultAddr }
      match s'.coverTarget 9 c n (View.reaches (s.wordReach p.addr.toNat) (p.addr.toNat / 2 ^ 16)) with
      | none => s
      | some x =>
        let core := pkgOf c * 2 ^ 15 + p.addr.toNat / 2 ^ 16 % 2 ^ 15
        let unit := s.coreUnit core
        let s' := if (s'.slot x.1 x.2.1).retriedFor x.2.2 unit then s'.report (pkgOf core) unit false true else s'
        s'.retryFor x.1 x.2.1 x.2.2 (some unit)
  | _ => s

/-! ### Diagnoses that have been taken (R369) -/

/-- Whether a package's processors have taken a diagnosis (R369). -/
def Package.decided (p : Package) (f : Diagnosis → Bool) : Bool := p.service.taken.any f

/-- A package whose diagnosis has been acted on. -/
def Package.acted (p : Package) (f : Diagnosis → Bool) : Package :=
  { p with service := { p.service with taken := p.service.taken.filter (!f ·) } }

/-- Whether a unit is a stop of a physical die, or a core of it (R359, R361). -/
def inStop (u : UnitName) (x : Nat × Nat × Nat × Nat) : Bool :=
  match u with
  | .stop p d r c => (p, d, r, c) == x
  | .core p d r c _ => (p, d, r, c) == x
  | _ => false

/-- Whether a diagnosis asks for the sparing of a physical stop: package, die, row and column (R361). -/
def asksStop (x : Nat × Nat × Nat × Nat) (d : Diagnosis) : Bool := d.action == .stopSparing && inStop d.unit x

/-- Whether a core's stop has been declared failed and waits for its sparing (R361, R369). -/
def State.stopFailed (s : State) (c : Nat) : Bool :=
  (s.pkg (pkgOf c)).decided (asksStop (s.stopPlace (pkgOf c) (dieOf c) (quadOf c)))

/-- The positions of a thread's own open domains that were open at some moment, innermost first. -/
def Slot.openAmong (t : Slot) (domains : List Nat) : Option Nat :=
  t.views.findIdx? fun v => !v.rival && domains.contains v.num

end Sys2Proof.Machine
end

