-- ==== Sys2Proof/Machine/Mx.lean ====
section
/-!
DEFINITION. MX block instructions on joined lines (R89 to R92, R169 to R174), and the block accumulation that
collectives share (R172).
-/

namespace Sys2Proof.Machine

/-- The element type code of an MX block type (R50). -/
def mxElem (ty : BitVec 5) : BitVec 5 :=
  match ty.toNat with
  | 19 => 12
  | 20 => 13
  | 21 => 14
  | 22 => 15
  | _ => 16

/-- The bytes of one block's elements: 32, or 16 for `.mx4` (R92). -/
def mxBytes (ty : BitVec 5) : Nat := if ty = 23 then 16 else 32

/-- The blocks of a joined line (R91). -/
def mxBlocks (ty : BitVec 5) : Nat := if ty = 23 then 6 else 3

/-- The format tag of a joined line (R91). -/
def mxTag (ty : BitVec 5) : Byte := if ty = 23 then 0x17 else 0x13

/-- The bits of one packed element (R169). -/
def mxWidth (ty : BitVec 5) : Nat := if ty = 23 then 4 else 8

/-- A block: its elements' encodings, its scale and its sticky bits (R92). -/
structure Block where
  elems  : List Nat
  scale  : Nat
  sticky : Word
  deriving DecidableEq, Repr

/-- 32 packed elements (R144, R169). -/
def unpack (ty : BitVec 5) (x : Nat) : List Nat :=
  (List.range 32).map fun i => x / 2 ^ (mxWidth ty * i) % 2 ^ (fmtOf (mxElem ty)).width

/-- Elements packed, zero in the unused bits (R169). -/
def packElems (ty : BitVec 5) (es : List Nat) : Nat :=
  (es.zipIdx).foldl (fun x e => x + e.1 % 2 ^ mxWidth ty * 2 ^ (mxWidth ty * e.2)) 0

/-- Block j of a line's bytes (R91, R92). -/
def blockOf (ty : BitVec 5) (line : List Byte) (j : Nat) : Block :=
  let b := mxBytes ty
  ⟨unpack ty (leValue ((line.drop (b * j)).take b)), (line.getD (96 + j) 0).toNat,
    BitVec.ofNat 32 (leValue ((line.drop (102 + 4 * j)).take 4))⟩

/-- The pieces of a line that block j writes, by offset: elements, scale, sticky bits. -/
def blockPieces (ty : BitVec 5) (j : Nat) (b : Block) : List (Nat × List Byte) :=
  [(mxBytes ty * j, leBytes (mxBytes ty) (packElems ty b.elems)), (96 + j, [BitVec.ofNat 8 b.scale]),
    (102 + 4 * j, leBytes 4 b.sticky.toNat)]

/-! ### Arithmetic -/

/-- The value of an element under a scale byte: `val(e) * 2^(S - 127)` (R89). -/
def scaled (f : Fmt) (e scale : Nat) : XVal :=
  match f.xval e 0 with
  | .fin n m x => .fin n m (x + scale - 127)
  | v => v

/-- M(F) as a magnitude (R73). -/
def Fmt.maxMag (f : Fmt) : Nat × Int :=
  let ex := f.maxEnc / 2 ^ f.fbits
  (2 ^ f.fbits + f.maxEnc % 2 ^ f.fbits, ex - f.bias - f.fbits)

/-- Whether the magnitude of a value is at most `M(F) * 2^k`; a NaN takes no part. -/
def fitsMag (f : Fmt) (k : Int) (x : XVal) : Bool :=
  match x with
  | .nan => true
  | .inf _ _ => false
  | .fin _ m e => magLe m e f.maxMag.1 (f.maxMag.2 + k)

/-- A value divided by `2^k`. -/
def XVal.down (x : XVal) (k : Int) : XVal :=
  match x with
  | .fin n m e => .fin n m (e - k)
  | v => v

/-- ROD: rounding to odd at a format's own precision, with whether the result is inexact (R172). -/
def Fmt.rod (f : Fmt) (neg : Bool) (m : Nat) (e : Int) : Nat × Bool :=
  if m = 0 then ((f.signed neg 0).toNat, false)
  else
    let ex := max (magLog2 m e) f.emin
    let (n, exact) := unitsFloor m e (ex - f.fbits)
    let n := if exact then n else n ||| 1
    ((f.signed neg ((ex - f.emin).toNat * 2 ^ f.fbits + n)).toNat, !exact)

/-- One element of an accumulated block (R172): its encoding and whether it is inexact. -/
def accElem (f : Fmt) (sn : Nat) (x : XVal) : Nat × Bool :=
  match x with
  | .fin n m e =>
    if fitsMag f ((sn : Int) - 127) x then f.rod n m (e - ((sn : Int) - 127))
    else ((f.signed n f.maxEnc).toNat, true)
  | _ => (f.nanEnc, false)

/-- Sticky bits of a list of flags. -/
def bitsOf (l : List Bool) : Word := BitVec.ofNat 32 ((l.zipIdx).foldl (fun x b => x + if b.1 then 2 ^ b.2 else 0) 0)

/-- The accumulation of a source block into a destination block (R172). -/
def blockAcc (ty src : BitVec 5) (o u : Block) : Block :=
  let f := fmtOf (mxElem ty)
  let g := fmtOf (mxElem src)
  if o.scale = 0xFF || u.scale = 0xFF then { o with scale := 0xFF }
  else if ty = 23 && u.elems.any (fun e => g.xval e 0 == .nan) then { o with scale := 0xFF }
  else
    let xs := List.zipWith (fun e w => (xAdd (scaled f e o.scale) (scaled g w u.scale)).val) o.elems u.elems
    let sn : Nat := ((List.range 255).find? fun (k : Nat) => decide (o.scale ≤ k) && xs.all (fitsMag f ((k : Int) - 127))).getD 254
    let ys := xs.map (accElem f sn)
    ⟨ys.map (·.1), sn, o.sticky ||| u.sticky ||| bitsOf (ys.map (·.2))⟩

/-- Whether `MXNORM` makes no change of a block: its scale is `0xFF`, or some element is NaN, or every element is zero
(R174). -/
def blockFixed (ty : BitVec 5) (o : Block) : Bool :=
  let vs := o.elems.map fun e => (fmtOf (mxElem ty)).xval e 0
  o.scale = 0xFF || vs.any (· == .nan) || vs.all (·.isZero)

/-- `MXNORM` of a block (R174). -/
def blockNorm (ty : BitVec 5) (o : Block) : Block :=
  let f := fmtOf (mxElem ty)
  let vs := o.elems.map fun e => f.xval e 0
  if blockFixed ty o then o
  else
    let m : Nat := ((List.range (o.scale + 1)).reverse.find? fun (k : Nat) =>
      vs.all (fun v => fitsMag f 0 (v.down (-(k : Int))))).getD 0
    { o with elems := vs.map (fun v => (accElem f 127 (v.down (-(m : Int)))).1), scale := o.scale - m }

/-- What `MXRES` writes: elements, sticky bits, scale and flags (R173). -/
structure Resolved where
  elems  : List Nat
  sticky : Word
  scale  : Nat
  flags  : BitVec 6
  deriving DecidableEq, Repr

/-- One resolved element: FINAL with the SR key of R99 over So and the element, and whether it is inexact (R173). -/
def resElem (f : Fmt) (code : BitVec 5) (fcr : Word) (so sn e i : Nat) (t : Bool) (x : XVal) : FRes × Bool :=
  let y := x.down ((sn : Int) - 127)
  let c : FinalCtl := ⟨modeOf fcr, ftzOf fcr,
    srDraw fcr (BitVec.ofNat 32 (so * 2 ^ 8 + e)) (srSalt (if t then 1 else 0) code i)⟩
  let r := f.final c y false
  (r, fcmpCode (f.xval r.bits.toNat 0) y ≠ 1 && y ≠ .nan)

/-- `MXRES` of a block held in one format to another (R173). -/
def blockRes (src ty : BitVec 5) (fcr : Word) (o : Block) : Resolved :=
  let g := fmtOf (mxElem src)
  let f := fmtOf (mxElem ty)
  let nan := o.elems.any (fun e => g.xval e 0 == .nan)
  if o.scale = 0xFF || (!f.hasNan && nan) then
    ⟨List.replicate 32 0, 0xFFFFFFFF, 0xFF, if o.scale = 0xFF then 0 else fNV⟩
  else
    let xs := o.elems.map fun e => scaled g e o.scale
    let sn : Nat := if xs.all (·.isZero) then o.scale
      else ((List.range 255).find? fun (k : Nat) => xs.all (fitsMag f ((k : Int) - 127))).getD 254
    let ys := ((xs.zip o.elems).zipIdx).map fun z =>
      resElem f (mxElem ty) fcr o.scale sn z.1.2 z.2 (o.sticky.getLsbD z.2) z.1.1
    ⟨ys.map (·.1.bits.toNat), o.sticky ||| bitsOf (ys.map (·.2)), sn,
      (ys.foldl (fun fl y => fl ||| y.1.flags) 0) ||| (if o.sticky = 0 then 0 else fNX)⟩

/-! ### Access to a block (R157, R169, R170) -/

/-- A block alignment fault (R170). -/
def blockFault (detail : BitVec 8) (a : Nat) : FaultInfo := mkFault 0x08 detail (BitVec.ofNat 64 a)

/-- Steps 2 to 4 of R157 for a block instruction: the whole line that holds the block address, then the placement for
the format that `type` names, or any multiple of 16 for `MXRES` (`ty` 23). Answers the line and the block's offset. -/
def State.blockTarget (s : State) (c : Cap) (off : Int) (ty : BitVec 5) (need : BitVec 7) (k : AccKind) :
    Except FaultInfo (Target × Nat) := do
  let a := Cap.at c off
  let o := a % 128
  let x ← s.target c (off - o) 128 spGlob need
  if o % mxBytes ty ≠ 0 || mxBlocks ty ≤ o / mxBytes ty then .error (blockFault 0 a)
  s.viewCheck k x 128
  .ok (x, o)

/-- Step 5 of R157 up to the block tag: rights, translation and, for a write inside a view, a version of the line. -/
def State.blockReach (s : State) (x : Target) (need : BitVec 7) (write : Bool) : Except Miss State := do
  let s ← s.checkRights s.curCore x 128 need
  let own := pkgOf s.curCore
  let s ← s.reachLine own s.curCore x.addr
  match (if write then s.me.chain.head? else none) with
  | none => .ok (s.touchViews own s.me.chain [lineOf x.addr])
  | some v => s.versionFor own v x.va (lineOf x.addr)

/-- The line's bytes as the issuing thread reads them at the home. -/
def State.blockLine (s : State) (x : Target) : List Byte :=
  (List.range 128).map fun i => s.globalByte (pkgOf s.curCore) s.me.chain (x.addr + i)

/-- The tag check, then poisoned data (R157, R170). -/
def State.blockTag (s : State) (x : Target) (ok : Byte → Bool) (a : Nat) : Except Miss Unit :=
  let tag := (s.blockLine x).getD 126 0
  if !ok tag then .error (.fault (mkFault 0x09 tag (BitVec.ofNat 64 a))) else s.checkPoison (pkgOf s.curCore) s.me.chain x.addr

/-- A block written to the view or to the base as one action (R169, R242). -/
def State.placeBlock (s : State) (x : Target) (ty : BitVec 5) (j : Nat) (b : Block) : State :=
  let own := pkgOf s.curCore
  let s := (blockPieces ty j b).foldl (fun s p =>
    match s.me.chain.head? with
    | some v => s.updPkg own fun k => k.updView v (·.write (x.addr + p.1) p.2)
    | none => s.putGlobal (x.addr + p.1) p.2 none) s
  let s := if s.me.chain.isEmpty then s.refreshCopy own (lineOf x.addr) else s
  s.fireMonitors

/-- A block instruction that acts on one block of the format its type names. -/
def State.block (i : Instr) (ty a : BitVec 5) (c : BitVec 3) (need : BitVec 7) (write : Bool)
    (f : Regs → Block → Regs × Option Block) (s : State) : Out :=
  .next (s.memory i 4 [a] [] fun s => do
    let r := s.regs
    let (x, o) ← liftFault (s.blockTarget (r.cap c) (r.offset a) ty need (if write then .store else .load))
    let s ← s.blockReach x need write
    s.blockTag x (· == mxTag ty) (x.va + o)
    let j := o / mxBytes ty
    let (r, b) := f r (blockOf ty (s.blockLine x) j)
    .ok (r, match b with
      | some b => s.placeBlock x ty j b
      | none => s.refreshCopy (pkgOf s.curCore) (lineOf x.addr)))

/-- The block that `vd` and `db` hold (R169). -/
def Regs.blockIn (r : Regs) (ty d b : BitVec 5) : Block :=
  ⟨unpack ty (vecBits (r.vec d)), (r.val (b + 1)).toNat % 256, r.val b⟩
where
  /-- A vector register's 256 bits. -/
  vecBits (v : Vector Elem 8) : Nat := (List.finRange 8).foldl (fun x i => x + v[i].val.toNat * 2 ^ (32 * i.val)) 0

/-- `vd` and `db` written with a block, tails 00 (R169, R171). -/
def Regs.blockOut (r : Regs) (ty d b : BitVec 5) (elems : List Nat) (sticky : Word) (scale : Nat) : Regs :=
  let x := packElems ty elems
  ((r.setVec d (Vector.ofFn fun i => ⟨BitVec.ofNat 32 (x / 2 ^ (32 * i.val)), 0⟩)).setVal b sticky).setVal (b + 1)
    (BitVec.ofNat 32 scale)

/-- `MXACC` (R172). -/
def execMxacc (d a b : BitVec 5) (c : BitVec 3) (ty : BitVec 5) (src : BitVec 1) (s : State) : Out :=
  let sty : BitVec 5 := if src = 1 then 23 else 19
  s.block (.mxacc d a b c ty src) ty a c pAT true fun r o => (r, some (blockAcc ty sty o (r.blockIn sty d b)))

/-- `MXLD` (R171). -/
def execMxld (d a b : BitVec 5) (c : BitVec 3) (ty : BitVec 5) (s : State) : Out :=
  s.block (.mxld d a b c ty) ty a c pRD false fun r o => (r.blockOut ty d b o.elems o.sticky o.scale, none)

/-- `MXST` (R171). -/
def execMxst (d a b : BitVec 5) (c : BitVec 3) (ty : BitVec 5) (s : State) : Out :=
  s.block (.mxst d a b c ty) ty a c pWR true fun r _ => (r, some (r.blockIn ty d b))

/-- `MXNORM` (R174). -/
def execMxnorm (a : BitVec 5) (c : BitVec 3) (ty : BitVec 5) (s : State) : Out :=
  s.block (.mxnorm a c ty) ty a c pAT true fun r o =>
    (r, if blockFixed ty o then none else some (blockNorm ty o))

/-- `MXRES`: the format is the one that the line's tag names (R170, R173). Poisoned data are found with the tag, before the
alignment of the block that it names, an order that R170 does not give (DESIGN CHOICE, entry 97). -/
def execMxres (d a b : BitVec 5) (c : BitVec 3) (ty : BitVec 5) (s : State) : Out :=
  .next (s.memory (.mxres d a b c ty) 4 [a] [] fun s => do
    let r := s.regs
    let (x, o) ← liftFault (s.blockTarget (r.cap c) (r.offset a) 23 pRD .load)
    let s ← s.blockReach x pRD false
    s.blockTag x (fun t => t == 0x13 || t == 0x17) (x.va + o)
    let src : BitVec 5 := if (s.blockLine x).getD 126 0 = 0x17 then 23 else 19
    if o % mxBytes src ≠ 0 then .error (.fault (blockFault 1 (x.va + o)))
    let z := blockRes src ty r.fcr (blockOf src (s.blockLine x) (o / mxBytes src))
    let s := s.refreshCopy (pkgOf s.curCore) (lineOf x.addr)
    .ok ((r.blockOut ty d b z.elems z.sticky z.scale).raise z.flags, s))

end Sys2Proof.Machine
end

