-- ==== Sys2Proof/Machine/Deliver.lean ====
section
/-!
DEFINITION. Deliveries that instructions and events share: messages into queues, parking and spill (R183, R184, R277,
R278, R328 to R330), the scribe hold (R364), pod ingress (R343), thread starts (R41, R185, R275) and the pending-launch
pool (R283 to R285).
-/

namespace Sys2Proof.Machine

/-! ### Entering a queue -/

/-- A message of one core that has left it is counted, and counted as received once it has arrived (R300). -/
def State.countSent (s : State) (c : Nat) : State := s.updCore c fun k => { k with sent := k.sent + 1 }

/-- The colour of the messages that a core counts: the old one once it has stopped (R300). -/
def Core.counted (k : Core) : Bool := if k.stopped then !k.colour else k.colour

/-- A counted message has been received: it entered a queue, a buffer or the spill area, or was served (R300). -/
def State.countReceived (s : State) (c : Nat) : State := s.updCore c fun k => { k with received := k.received + 1 }

/-- A message that was under way has been received (R300). -/
def State.countArrived (s : State) (m : Msg) : State :=
  if m.col = (s.core m.src).counted then s.countReceived m.src else s

/-- Whether a return's tag names a live slot of its sender's tenant (R184). -/
def Core.liveReturn (k : Core) (dom : Nat) (e : Entry) : Bool :=
  let t := k.slot ((e.extractLsb' 0 3).toFin)
  t.state != .free && t.gen == e.extractLsb' 3 8 && t.tenant == dom

/-- Whether a message is discarded at its destination: no stage of the sender's tenant is bound there, or a return that
names no live slot (R183, R184). -/
def Core.discards (k : Core) (q dom : Nat) (entries : List Entry) : Bool :=
  !k.holdsStage dom || (q == 6 && !(entries.all (k.liveReturn dom)))

/-- Whether the entries of a message find space, beside the reservation they consume (R277). -/
def Queue.admits (x : Queue) (n resv : Nat) : Bool := n ≤ resv || decide (n - resv ≤ x.free)

/-- The entries of a message enter their queue together and adjacent; the first consumes the reservation first
(R183, R278). -/
def State.enter (s : State) (c q : Nat) (entries : List Entry) (resv : Nat) : State :=
  (entries.zipIdx).foldl (fun s e =>
    s.pushQueue c q (if q = 6 then 3 else 0) e.1 (decide (e.2 < resv)) (entries.length == 2 && e.2 == 0)) s

/-- Messages parked in a stop's overflow buffer (R328). -/
def Package.bufferUse (p : Package) (stop : Nat) : Nat :=
  (p.parked.filter (fun x => !x.spilled && stopOf x.core == stop)).length

/-- Whether a triple's earlier messages still wait (R329). -/
def Package.waits (p : Package) (src c : Nat) : Bool := p.parked.any (fun x => x.src == src && x.core == c)

/-- A tenant's loss counter rises, and a device event says so (R330, R348). -/
def Package.raiseLoss (p : Package) (dom : Nat) : Package :=
  { (p.updTenant dom fun t => { t with loss := t.loss + 1 }) with
    host := { p.host with events := p.host.events ++ [(dom, 2)] } }

/-- A message that cannot enter its queue is parked, or spilled to its tenant's share when the stop's buffer of 16
messages is full or its triple already spills; a full share discards it (R328 to R330). A QSENDD pair that holds one of its
two reservations stays in the buffer, also beyond its 16 places (DESIGN CHOICE, entry 98). -/
def State.park (s : State) (m : Parked) : State :=
  let p := s.pkg (pkgOf m.core)
  let spill := 16 ≤ p.bufferUse (stopOf m.core) || p.parked.any (fun x => x.src == m.src && x.core == m.core && x.spilled)
  if m.resv ≠ 0 || !spill then s.setPkg (pkgOf m.core) { p with parked := p.parked ++ [{ m with spilled := false }] }
  else
    let used := (p.parked.filter (fun x => x.spilled && x.dom == m.dom)).length
    let share := ((p.tenant m.dom).map (·.spillShare)).getD 0
    if share ≤ used && !(s.core m.core).stopped then
      (s.updCore m.core (·.orphan 1)).updPkg (pkgOf m.core) fun p => p.raiseLoss m.dom
    else s.setPkg (pkgOf m.core) { p with parked := p.parked ++ [{ m with spilled := true }] }

/-- A message arrives at its destination core: discarded as an orphan, entered into its queue, or parked (R183, R184,
R277, R329, R330). A push that consumes a reservation never waits behind its triple. -/
def State.arriveQueue (s : State) (m : Parked) : State :=
  let k := s.core m.core
  if k.discards m.q m.dom m.entries then (s.unreserve m.core m.q m.resv).updCore m.core (·.orphan 1)
  else if (m.resv ≠ 0 || !(s.pkg (pkgOf m.core)).waits m.src m.core) && (k.queue m.q).admits m.entries.length m.resv then
    s.enter m.core m.q m.entries m.resv
  else s.park m

/-- Entries a scribe log holds at which deliveries from outside the die are held (R364). -/
def scribeLimit : Nat := 64512

/-- Whether a delivery to a die from outside it is held (R364). -/
def State.scribeHolds (s : State) (src dst : Nat) : Bool :=
  src / 4096 ≠ dst / 4096 && decide (scribeLimit ≤ ((s.pkg (pkgOf dst)).scribe (dieOf dst)).entries.length)

/-! ### Partitions that stop (R296 to R303) -/

/-- Whether a partition holds a core (R296). -/
def Preemption.holds (h : Preemption) (c : Nat) : Bool := h.pkgs.contains (pkgOf c) && h.dies.contains (dieOf c)

/-- The partition that is being pre-empted and holds a core (R296). -/
def State.stopping (s : State) (c : Nat) : Option Preemption := s.stops.find? (·.holds c)

/-- Whether two cores lie in one partition that is being pre-empted. -/
def State.together (s : State) (a b : Nat) : Bool := s.stops.any fun h => h.holds a && h.holds b

/-- Whether a package's time lies between the stop time and the resume time of a partition (R297, R303). -/
def Preemption.now (h : Preemption) (p : Package) : Bool :=
  decide (h.stopTime ≤ p.ptc.toNat) && h.resumeTime.all fun t => decide (p.ptc.toNat < t)

/-- Whether a core has to stop: it lies in a partition whose stop time has come, and whose resume time has not (R297,
R303). -/
def State.mustStop (s : State) (c : Nat) : Bool := (s.stopping c).any (·.now (s.pkg (pkgOf c)))

/-- Whether a stopped core's image has been written back: the messages that wait for it come in before it resumes
(R303). -/
def State.restored (s : State) (c : Nat) : Bool := ((s.stopping c).any (·.resumeTime.isSome)) && !s.saved c

/-- Whether a core's die is fenced (R337, R366). -/
def State.fencedDie (s : State) (c : Nat) : Bool :=
  (s.pkg (pkgOf c)).fenced.contains (false, (s.pkg (pkgOf c)).coreDie (dieOf c))

/-- Whether messages of one core to another are held: at the edge of a stopped partition until its cores are restored,
at the hub of a fenced die, or at the neighbours of a stop that has failed (R301, R303, R361, R366). -/
def State.edgeHolds (s : State) (src dst : Nat) : Bool :=
  (s.mustStop dst && !s.together src dst && !s.restored dst) || s.fencedDie dst || s.stopFailed dst

/-! ### The mesh (R325) -/

/-- The stops that a message passes within a die: along the row first, then along the column (R325). -/
def meshRoute (src dst : Nat) : List Nat :=
  let at_ (r c : Nat) : Nat := stopOf src / 1024 * 1024 + r * 32 + c
  let r0 := stopOf src / 32 % 32
  let c0 := stopOf src % 32
  let r1 := stopOf dst / 32 % 32
  let c1 := stopOf dst % 32
  let span (a b : Nat) : List Nat :=
    if a ≤ b then (List.range (b - a + 1)).map (a + ·) else (List.range (a - b + 1)).map (a - ·)
  (span c0 c1).map (at_ r0) ++ ((span r0 r1).drop 1).map (at_ · c1)

/-- The stop routers that a message passes: the mesh within a die; the stops of its ends between dies (R325). -/
def stopsPassed (src dst : Nat) : List Nat :=
  if src / 4096 = dst / 4096 then meshRoute src dst else [stopOf src, stopOf dst]

/-! ### Headers (R324, R336) -/

/-- Number of a channel (R323). -/
def Payload.channel : Payload → BitVec 3
  | .status _ _ _ => 1
  | .unknown ch _ _ => ch
  | _ => 2

/-- Whether a payload asks for an answer on the reply channel. -/
def Payload.asks : Payload → Bool
  | .callat _ _ _ _ | .spawn _ | .command _ (some _) => true
  | _ => false

/-- A message as it leaves its sender (R300, R324, R336). -/
def State.message (s : State) (src dst dom : Nat) (x : Payload) : Msg where
  src := src
  dst := dst
  dom := dom
  payload := x
  col := (s.core src).colour
  dinc := (s.pkg (senderPkg dst)).mapInc false (dieOf dst)
  sinc := (s.pkg (senderPkg src)).mapInc false (dieOf src)

/-- Whether earlier messages of the same pair of cores are still under way (R227). -/
def State.behind (s : State) (src dst : Nat) : Bool :=
  s.fabric.any fun m => m.src == src && m.dst == dst && (match m.payload with
    | .status _ _ _ => false
    | _ => true)

/-- Whether earlier messages of the same pair of cores are held at the die's hub port (R364). -/
def State.heldBehind (s : State) (src dst : Nat) : Bool :=
  (s.pkg (pkgOf dst)).scribeHeld.any (fun m => m.src == src && m.dst == dst)

/-- How a message that leaves a core travels. -/
inductive Path where
  /-- It arrives in the same step. -/
  | near
  /-- It is held at the destination die's hub port (R364). -/
  | hub
  /-- It travels in the fabric (R227, R301). -/
  | far
  /-- No valid route: it is dropped and counted (R341). -/
  | none
  deriving DecidableEq, Repr

/-- The path of a message from one core to another. -/
def State.path (s : State) (src dst : Nat) : Path :=
  if pkgOf src ≠ pkgOf dst then
    if s.routed (pkgOf src) (pkgOf dst) then .far else .none
  else if s.edgeHolds src dst || s.behind src dst || !s.carries src dst 2 then .far
  else if s.scribeHolds src dst || s.heldBehind src dst then .hub
  else .near

/-- A message leaves a core into the fabric (R227). -/
def State.depart (s : State) (src dst dom : Nat) (x : Payload) : State :=
  { s.countSent src with fabric := s.fabric ++ [s.message src dst dom x] }

/-- A message leaves a core along its path; `near` is its arrival in the same step. -/
def State.sendTo (s : State) (src dst dom : Nat) (x : Payload) (near : State → State) : State :=
  match s.path src dst with
  | .near => ((near s).countSent src).countReceived src
  | .hub => (s.updPkg (pkgOf dst) fun p => { p with scribeHeld := p.scribeHeld ++ [s.message src dst dom x] }).countSent src
  | .far => s.depart src dst dom x
  | .none => s.updPkg (pkgOf src) fun p => { p with errors := p.errors + 1 }

/-- Entries sent to a queue of a core (R183). -/
def State.sendQueue (s : State) (src dst dom q : Nat) (entries : List Entry) (resv : Nat) : State :=
  s.sendTo src dst dom (.queue q entries resv) fun s => s.arriveQueue ⟨src, dst, q, dom, entries, resv, false⟩

/-! ### Pod ingress (R343) -/

/-- The launch-rights entry of a tenant. -/
def Package.launchRight (p : Package) (dom : Nat) : Option LaunchRight :=
  p.launch.find? (fun r => (r.bits.extractLsb' 48 16).toNat == dom)

/-- Checks 1 to 3 of R343 for a message from another package. -/
def Package.podAllows (p : Package) (dom src dst : Nat) : Bool :=
  match p.launchRight dom with
  | none => false
  | some r => r.bits.getLsbD 47 && r.bits.getLsbD 46 && r.pods.contains (senderPkg src) && r.bits.getLsbD (37 + dieOf dst)

/-- Checks 1 and 3 of R343 for a host launch. -/
def Package.hostAllows (p : Package) (dom dst : Nat) : Bool :=
  match p.launchRight dom with
  | none => false
  | some r => r.bits.getLsbD 47 && r.bits.getLsbD 45 && r.bits.getLsbD (37 + dieOf dst)

/-- Check 4 of R343: the entry offset lies within the bounds. -/
def Package.entryAllows (p : Package) (dom : Nat) (entry : Word) : Bool :=
  match p.launchRight dom with
  | none => false
  | some r => !(entry.ult (r.bits.extractLsb' 96 32)) && entry.ult (r.bits.extractLsb' 64 32)

/-! ### Starting threads (R41, R185, R275, R281) -/

/-- The base of a tenant's partition on a core (R252). -/
def Core.partBase (k : Core) (ten : Nat) : Nat := ((k.parts.find? (·.tenant == ten)).map (·.base)).getD 0

/-- A capability of a capability block: number i from 1 to 7 at block address `at_` (R275). -/
def Core.blockCap (k : Core) (at_ i : Nat) : Cap :=
  capOf (k.loc.readN (at_ + 16 * (i - 1)) 16) (k.ltags.contains ((at_ + 16 * (i - 1)) / 16))

/-- The registers of a starting thread (R41): one or two pegs, the capabilities of a block, and its entry. -/
def Core.startRegs (k : Core) (pegs : List Entry) (block : Nat) (entry : Word) : Regs :=
  let words := pegs.flatMap entryWords
  { Regs.initial with
    s := Vector.ofFn fun i =>
      if 1 ≤ i.val && i.val ≤ 8 then ⟨words.getD (i.val - 1) 0, 0⟩ else Elem.zero
    c := Vector.ofFn fun i => if i.val = 0 then nullCap else k.blockCap block i.val
    pc := entry }

/-- The FREE slots of a core, ascending. -/
def Core.freeSlots (k : Core) : List (Fin 8) := (List.finRange 8).filter (fun n => (k.slot n).state == .free)

/-- The slot a start of class compute may take: the last FREE slot of a core that binds a handler stage is kept
(R185, R279). -/
def Core.startSlot (k : Core) : Option (Fin 8) :=
  match k.freeSlots with
  | [] => none
  | [n] => if k.hasHandler then none else some n
  | n :: _ => some n

/-- The image whose code a thread of no stage fetches: the one of its tenant that was bound to the core last, also where the
core holds stages of several of the tenant's images and the spawning thread runs another, of which R55 says nothing (DESIGN
CHOICE, entry 88). -/
def Core.codeOf (k : Core) (ten : Nat) : Nat :=
  ((k.stages.toList.filter fun g => g.bits.getLsbD 31 && g.tenant == ten).map (·.code)).foldl max 0

/-- A thread started by `SPAWN` or a launch in a slot (R185, R287); the scribe log records its peg, retired at once
(R362, R363). -/
def State.startLaunched (s : State) (c : Nat) (n : Fin 8) (ten : Nat) (entry : Word) (bound : BitVec 3)
    (prio : BitVec 2) (peg : Entry) : State :=
  let (s, seq) := s.scribeAppend c bound.toNat 4 peg entry false
  let s := s.scribePop c seq none
  let k := s.core c
  s.setSlot c n { Slot.initial with
    home := c, gen := (k.slot n).gen, issued := (k.slot n).issued, state := .ready, tenant := ten, code := k.codeOf ten
    bound := bound, prio := prio
    lch := true
    regs := k.startRegs [peg] (k.partBase ten) entry }

/-- The launches held for a core: tenant and item (R287). -/
def State.heldLaunches (s : State) (c : Nat) : List (Nat × PoolItem) :=
  (s.pkg (pkgOf c)).pools.flatMap fun x => (x.items.filter (fun i => match i with
    | .launch k _ _ _ _ => k == c
    | .peg _ _ _ => false)).map fun i => (x.tenant, i)

/-- The arrival step of a held launch. -/
def PoolItem.arrival (i : PoolItem) : Nat :=
  match i with
  | .launch _ _ _ _ a => a
  | .peg _ _ _ => 0

/-- The oldest of held launches. -/
def oldestLaunch : List (Nat × PoolItem) → Option (Nat × PoolItem)
  | [] => none
  | x :: rest => match oldestLaunch rest with
    | none => some x
    | some y => if y.2.arrival < x.2.arrival then some y else some x

/-- Entries a firing of a stage pops (R273, R281). -/
def Stage.pops (g : Stage) : Nat := if g.bits.getLsbD 20 then 2 else 1

/-- Entries of a stage's reservation (R273, R278). -/
def Stage.rout (g : Stage) : Nat := (g.bits.extractLsb' 18 2).toNat

/-- A stage's class (R273). -/
def Stage.hcl (g : Stage) : Bool := g.bits.getLsbD 30

/-- A stage's priority (R273). -/
def Stage.prio (g : Stage) : BitVec 2 := g.bits.extractLsb' 28 2

/-- A stage's input queue (R273). -/
def Stage.inq (g : Stage) : Nat := (g.bits.extractLsb' 21 3).toNat

/-- Whether a stage is eligible (R279). -/
def Core.eligible (k : Core) (i : Fin 16) : Bool :=
  let g := k.stages[i]
  g.bits.getLsbD 31 && decide (g.pops ≤ (k.queue g.inq).entries.length) && (g.rout == 0 || g.standing != 0) &&
    decide (g.live < (g.bits.extractLsb' 24 3).toNat + 1) &&
    (if !g.hcl && k.hasHandler then decide (2 ≤ k.freeSlots.length) else !k.freeSlots.isEmpty)

/-- The eligible handler stage that fires next: the lowest index first (R280). -/
def Core.handlerChoice (k : Core) : Option (Fin 16) :=
  if k.stopped then none else (List.finRange 16).find? fun i => k.eligible i && k.stages[i].hcl

/-- Whether a core has a start to make before it serves a `SPAWN` request or a launch that has just arrived: an eligible
handler stage, or a launch held since before (R280). -/
def State.startsFirst (s : State) (c : Nat) : Bool :=
  let k := s.core c
  k.handlerChoice.isSome || (!k.stopped && !(s.heldLaunches c).isEmpty && k.startSlot.isSome)

/-- The oldest held launch of a core starts when a slot is available and no handler stage is eligible; a stopped core
starts none (R280, R287). -/
def State.startHeld (s : State) (c : Nat) : State :=
  if (s.core c).stopped || (s.core c).handlerChoice.isSome then s
  else match oldestLaunch (s.heldLaunches c), (s.core c).startSlot with
  | some (ten, .launch k entry bound peg a), some n =>
    (s.updPkg (pkgOf c) fun p => { p with pools := p.pools.map (fun x =>
      if x.tenant == ten then { x with items := x.items.erase (.launch k entry bound peg a) } else x) }).startLaunched
      c n ten entry bound 0 peg
  | _, _ => s

/-- A `SPAWN` served at its target core: the status (R185). -/
def State.serveSpawn (s : State) (c : Nat) (ten : Nat) (entry : Word) (bound : BitVec 3) (prio : BitVec 2)
    (peg : Entry) : State × Word :=
  let k := s.core c
  if !k.holdsStage ten then (s, 0x80000003)
  else match k.startSlot with
    | none => (s, 0x80000001)
    | some n => (s.startLaunched c n ten entry bound prio peg, (returnTag n (k.slot n).gen).zeroExtend 32)

/-! ### The pending-launch pool (R283 to R285, R287) -/

/-- The stages of a tenant on a core that are in use, by index. -/
def Core.stageOf (k : Core) (ten idx : Nat) : Option Stage :=
  let g := k.stages[Fin.ofNat 16 idx]
  if g.bits.getLsbD 31 && g.tenant == ten then some g else none

/-- A stage's quota (R273). -/
def Stage.quota (g : Stage) : Nat := (g.bits.extractLsb' 112 16).toNat

/-- A tenant's pool in a package. -/
def Package.pool (p : Package) (ten : Nat) : Pool := (p.pools.find? (·.tenant == ten)).getD ⟨ten, 0, []⟩

/-- A package with a tenant's pool items changed. -/
def Package.updPool (p : Package) (ten : Nat) (f : List PoolItem → List PoolItem) : Package :=
  { p with pools := p.pools.map (fun x => if x.tenant == ten then { x with items := f x.items } else x) }

/-- Whether an item is a peg of a stage of a core. -/
def PoolItem.isPeg (i : PoolItem) (c : Nat) (st : Fin 16) : Bool :=
  match i with
  | .peg k s _ => k == c && s == st
  | .launch _ _ _ _ _ => false

/-- Whether an item is a launch held for a core. -/
def PoolItem.isLaunch (i : PoolItem) (c : Nat) : Bool :=
  match i with
  | .launch k _ _ _ _ => k == c
  | .peg _ _ _ => false

/-- The pegs pooled for a stage. -/
def Pool.pooled (x : Pool) (c : Nat) (st : Fin 16) : Nat := (x.items.filter (·.isPeg c st)).length

/-- The tenant's stages in a package: core, index and quota. -/
def State.tenantStages (s : State) (pkg ten : Nat) : List (Nat × Fin 16 × Nat) :=
  (s.cores.filter (fun k => pkgOf k.1 == pkg)).flatMap fun k =>
    ((List.finRange 16).filter (fun i => k.2.stages[i].bits.getLsbD 31 && k.2.stages[i].tenant == ten)).map
      fun i => (k.1, i, k.2.stages[i].quota)

/-- The free places of a tenant's shared space (R283). -/
def State.sharedFree (s : State) (pkg ten : Nat) : Nat :=
  let x := (s.pkg pkg).pool ten
  let stages := s.tenantStages pkg ten
  let excess := stages.foldl (fun n g => n + (x.pooled g.1 g.2.1 - g.2.2)) 0
  let launches := (x.items.filter (fun i => match i with
    | .launch _ _ _ _ _ => true
    | .peg _ _ _ => false)).length
  x.size - stages.foldl (fun n g => n + g.2.2) 0 - excess - launches

/-- A `CALLAT` peg or a launch to a stage is deposited in the input queue of the stage, whichever it is, or pooled: the
status (R284; DEDUCED, entry 68). -/
def State.deposit (s : State) (c ten idx : Nat) (peg : Entry) : State × Word :=
  let k := s.core c
  match k.stageOf ten idx with
  | none => (s, 3)
  | some g =>
    let st : Fin 16 := Fin.ofNat 16 idx
    let pooled := ((s.pkg (pkgOf c)).pool ten).pooled c st
    if pooled = 0 && decide (1 ≤ (k.queue g.inq).free) then (s.pushQueue c g.inq 1 peg false false, 0)
    else if pooled < g.quota || 1 ≤ s.sharedFree (pkgOf c) ten then
      (s.updPkg (pkgOf c) fun p => p.updPool ten (· ++ [.peg c st peg]), 1)
    else (s, 2)

/-! ### Statuses on the reply channel (R185, R186, R199) -/

/-- The scalar that receives the status of a `SPAWN`, `CALLAT` or `MCMD`. -/
def statusReg : Instr → Option (BitVec 5)
  | .spawn d _ _ _ _ => some d
  | .callat d _ _ _ => some d
  | .mcmd d _ _ _ => some d
  | _ => none

/-- The status of a thread's request arrives: it completes (R185, R186, R199). -/
def State.answerStatus (s : State) (c : Nat) (n : Fin 8) (gen : BitVec 8) (v : Word) : State :=
  let t := s.slot c n
  if t.gen ≠ gen then s
  else match t.wait, t.held with
  | .status, some i => match statusReg i with
    | some d => s.as c n fun s => (s.updMe fun t =>
        { t.unblock with regs := ((t.regs.consume (laterSources t.held)).setVal d v).advance 4 }).pushDown
    | none => s
  | _, _ => s

/-- A status goes back to the requester: at once within a package, through the fabric otherwise, or while a link of its
route does not carry it (R323, R339); without a route it is dropped and counted (R341). -/
def State.returnStatus (s : State) (from_ c : Nat) (n : Fin 8) (gen : BitVec 8) (v : Word) : State :=
  if pkgOf from_ = pkgOf c && s.carries from_ c 1 then s.answerStatus c n gen v
  else if s.routed (pkgOf from_) (pkgOf c) then
    { s with fabric := s.fabric ++ [s.message from_ c (s.slot c n).tenant (.status n gen v)] }
  else s.updPkg (pkgOf from_) fun p => { p with errors := p.errors + 1 }

end Sys2Proof.Machine
end

