-- ==== Sys2Proof/Machine/Sync.lean ====
section
/-!
DEFINITION. Fences (R176) and barriers (R178 to R180, R188).
-/

namespace Sys2Proof.Machine

/-! ### Fences -/

/-- `FENCE`, full: it acquires at its scope; a thread's earlier accesses have been performed (R159, R176, R258). -/
def execFence (scope : BitVec 3) (s : State) : Out :=
  .next (s.issue [] [] fun s => let s := s.acquire scope; .ok (s.setRegs (s.regs.advance 4)))

/-- `FENCE.acq` (R176, R258). -/
def execFenceAcq (scope : BitVec 3) (s : State) : Out :=
  .next (s.issue [] [] fun s => let s := s.acquire scope; .ok (s.setRegs (s.regs.advance 4)))

/-- `FENCE.rel`: every earlier access of the thread has been performed (R159, R176). -/
def execFenceRel (_scope : BitVec 3) (s : State) : Out := .next (s.plain 4 [] [] .ok)

/-! ### Barriers (R178) -/

/-- A tenant's barrier in an instance. -/
def State.barrier (s : State) (ten level inst : Nat) : Barrier :=
  (s.barriers.find? (fun b => b.tenant == ten && b.level == level && b.inst == inst)).getD
    ⟨ten, level, inst, 0, 0, [], 0, 0, []⟩

/-- The state with a barrier replaced. -/
def State.setBarrier (s : State) (b : Barrier) : State :=
  { s with barriers :=
      b :: s.barriers.filter (fun x => !(x.tenant == b.tenant && x.level == b.level && x.inst == b.inst)) }

/-- The phase count of a core for a level and a tenant (R42, R179). It is kept once for the cores of an instance: a core
that a tenant is bound to later starts at the instance's count (DESIGN CHOICE, entry 72). -/
def State.phase (s : State) (ten level c : Nat) : BitVec 16 := (s.barrier ten level (instanceOf level c)).phase

/-- A sleeper in `BAR` or `BARW` whose phase has changed completes: it acquires, and `BARW` writes the phase (R179,
R231). One of a stopped core sleeps on until the core resumes (R179, R303). -/
def State.wakePhase (s : State) (c : Nat) (n : Fin 8) : State :=
  let t := s.slot c n
  match t.wait, t.held with
  | .phase level p, some i =>
    let q := s.phase t.tenant level c
    if q = p || (s.core c).stopped then s
    else s.as c n fun s =>
      let s := (s.acquire (BitVec.ofNat 3 level)).updMe fun t =>
        { t.unblock with regs := (match i with
            | .barw d _ => t.regs.setVal d (q.zeroExtend 32)
            | _ => t.regs).advance 4 }
      s.pushDown
  | _, _ => s

/-- Every sleeper whose phase has changed completes. -/
def State.wakePhases (s : State) : State :=
  s.cores.foldl (fun s k => (List.finRange 8).foldl (fun s n => s.wakePhase k.1 n) s) s

/-- The staged slot table of a tenant is installed at a core-scope phase completion (R178, R188, R290). -/
def Core.installTurns (k : Core) (ten : Nat) : Core :=
  match k.staged with
  | none => k
  | some (owner, l) =>
    if owner ≠ ten then k
    else { k with
      turns := Vector.ofFn fun i => if i.val < 28 then l.getD i.val 0 else k.turns[i]
      staged := none }

/-- The phase in progress completes (R178): the arrival count returns to 0 and the phase count increments. -/
def Barrier.complete (b : Barrier) : Barrier :=
  { b with arrived := [], lost := 0, expect := b.later, phase := b.phase + 1 }

/-- Whether the arrivals of a barrier have reached its expected count, as if that were 1 when it is 0 (R178). -/
def Barrier.full (b : Barrier) : Bool := decide (max 1 b.expect ≤ b.arrived.length + b.lost)

/-- A barrier's phase completes when its arrivals have reached its count: phase counts increment, a staged slot table
is installed at core scope, and sleepers wake (R178). -/
def State.settleBarrier (s : State) (b : Barrier) : State :=
  if !b.full then s.setBarrier b
  else
    let s := s.setBarrier b.complete
    let s := if b.level = 1 then s.updCore b.inst (·.installTurns b.tenant) else s
    s.wakePhases

/-- An arrival from a core is counted in an instance (R178). -/
def State.arriveAt (s : State) (ten level inst c : Nat) : State :=
  let b := s.barrier ten level inst
  s.settleBarrier { b with arrived := b.arrived ++ [c] }

/-- An arrival of a thread at a core: within a die it is counted at once; at package and pod scope a signal travels to
the instance first (R179, R323). -/
def State.arrive (s : State) (ten level c : Nat) : State :=
  let inst := instanceOf level c
  if level ≤ 3 then s.arriveAt ten level inst c
  else
    let b := s.barrier ten level inst
    s.setBarrier { b with signals := b.signals ++ [c] }

/-- A barrier instruction outside every view (R160). -/
def State.barrierBody (s : State) (f : State → Run) : Run :=
  if s.me.views ≠ [] then .error (.trap s escape) else f s

/-- `BAR` (R179). -/
def execBar (scope : BitVec 3) (s : State) : Out :=
  .next (s.scoped (.bar scope) [] [] fun s => s.barrierBody fun s =>
    let t := s.me
    let p := s.phase t.tenant scope.toNat t.home
    let s := s.arrive t.tenant scope.toNat t.home
    if s.phase t.tenant scope.toNat t.home ≠ p then
      let s := s.acquire scope
      .ok (s.setRegs (s.regs.advance 4))
    else .error (.wait (s.updMe fun t => { t.block .sleep (.phase scope.toNat p) with held := some (.bar scope) })))

/-- `BARW` (R179, R180). -/
def execBarw (d : BitVec 5) (scope : BitVec 3) (s : State) : Out :=
  .next (s.scoped (.barw d scope) [] [] fun s => s.barrierBody fun s =>
    let t := s.me
    let p : BitVec 16 := (t.regs.val d).setWidth 16
    let q := s.phase t.tenant scope.toNat t.home
    if q ≠ p then
      let s := s.acquire scope
      .ok (s.setRegs ((s.regs.setVal d (q.zeroExtend 32)).advance 4))
    else .error (.wait (s.updMe fun t => { t.block .sleep (.phase scope.toNat p) with held := some (.barw d scope) })))

/-- `BARQ` (R179). -/
def execBarq (d : BitVec 5) (scope : BitVec 3) (s : State) : Out :=
  .next (s.scoped (.barq d scope) [] [d] fun s => s.barrierBody fun s =>
    let t := s.me
    let q := s.phase t.tenant scope.toNat t.home
    let s := s.arrive t.tenant scope.toNat t.home
    .ok (s.setRegs ((s.regs.setVal d (q.zeroExtend 32)).advance 4)))

/-- `SLOTT` (R188). -/
def execSlott (a : BitVec 5) (s : State) : Out :=
  .next (s.issue [] [] fun s => s.barrierBody fun s =>
    let t := s.me
    let v := t.regs.vec a
    let l := (List.range 28).map fun i => (v[Fin.ofNat 8 (i / 4)]).val.extractLsb' (8 * (i % 4)) 8
    let s := s.updCore t.home fun k => { k with staged := some (t.tenant, l) }
    .ok (s.setRegs (s.regs.advance 4)))

end Sys2Proof.Machine
end

