-- ==== Sys2Proof/Machine/Tasks.lean ====
section
/-!
DEFINITION. Queue messages, thread starts, stage calls and the end of a thread (R181 to R187).
-/

namespace Sys2Proof.Machine

/-- A core name operand: a name that breaks R13 raises "bad name" with the name as address (R13, R249). -/
def State.checkName (s : State) (x : Word) : Except FaultInfo Nat :=
  if s.goodName x.toNat then .ok x.toNat else .error (mkFault 0x03 0x07 (x.zeroExtend 64))

/-- The four scalars of a peg or message (R59). -/
def Regs.peg (r : Regs) (b : BitVec 5) : Entry := entryOf (r.val b) (r.val (b + 1)) (r.val (b + 2)) (r.val (b + 3))

/-- The entries of the thread's reservation that a send to a queue consumes (R278). -/
def State.reservationFor (s : State) (dst q n : Nat) : Nat :=
  let t := s.me
  match t.ownStage.bind (fun i => stageOutput t.home (s.core t.home).stages[i].bits) with
  | none => 0
  | some out => if out = (dst, q) then min n t.resv else 0

/-- A send of the issuing thread: in a domain it goes to the outbox, and in a world it escapes (R160, R183).
A name that breaks R13 is found before the escape (DESIGN CHOICE, entry 97). -/
def State.sendBody (s : State) (name : Word) (q : Nat) (entries : List Entry) : Run :=
  match s.checkName name with
  | .error f => .error (.trap s f)
  | .ok dst =>
    let t := s.me
    if t.inWorld then .error (.trap s escape)
    else if t.inDomain then
      .ok (s.updMe fun t => match t.views with
        | [] => t
        | v :: rest => { t with views := { v with outbox := v.outbox ++ [.send dst q entries] } :: rest })
    else if s.releasing then .error (.wait s)
    else
      let k := s.reservationFor dst q entries.length
      let s := s.updMe fun t => { t with resv := t.resv - k }
      .ok (s.sendQueue t.home dst t.tenant q entries k)

/-- `QPOLL` (R182). -/
def execQpoll (d : BitVec 5) (q : BitVec 3) (s : State) : Out :=
  .next (s.issue [] [d] fun s =>
    let t := s.me
    let write (s : State) (x : Word) : Run := .ok (s.setRegs ((s.regs.setVal d x).advance 4))
    if q ≠ 6 then write s (BitVec.ofNat 32 ((s.core t.home).queue q.toNat).entries.length)
    else if t.regs.qrx ≠ [] then write s 0
    else match s.takeEntry 6 with
      | none => write s 0
      | some (e, s') =>
        if t.inWorld then .error (.trap s escape)
        else write (s'.setRegs (s'.regs.setBuffer .qrx (entryWords e))) 1)

/-- `QSEND` (R183). -/
def execQsend (a b : BitVec 5) (q : BitVec 3) (s : State) : Out :=
  .next (s.issue [a] [] fun s =>
    (s.sendBody (s.regs.val a) q.toNat [s.regs.peg b]).map fun s => s.setRegs (s.regs.advance 4))

/-- `QSENDD`: lanes 0 to 3, then lanes 4 to 7 (R183). -/
def execQsendd (a b : BitVec 5) (q : BitVec 3) (s : State) : Out :=
  .next (s.issue [a] [] fun s =>
    let v := s.regs.vec b
    let e (i : Fin 8) : Word := v[i].val
    let entries := [entryOf (e 0) (e 1) (e 2) (e 3), entryOf (e 4) (e 5) (e 6) (e 7)]
    (s.sendBody (s.regs.val a) q.toNat entries).map fun s => s.setRegs (s.regs.advance 4))

/-- A request that a status answers: served at once where it arrives in the step and, with `after`, nothing comes before
it, waited for otherwise (R159, R185, R186, R199). It follows the entries of the thread's committed outbox (R241). A
package without a valid route gives a page fault of detail 0x02 (R341). -/
def State.request (s : State) (i : Instr) (d : BitVec 5) (dst : Nat) (x : Payload) (after : Bool)
    (near : State → State × Word) : Run :=
  let t := s.me
  let own := pkgOf t.home
  if s.releasing then .error (.wait s)
  else match s.path t.home dst with
  | .near =>
    if after then
      .error (.wait ((s.depart t.home dst t.tenant x).updMe fun t =>
        { t.block .memory .status with held := some i }))
    else
      let (s, v) := near s
      .ok (s.setRegs ((s.regs.setVal d v).advance 4))
  | .none => .error (.trap (s.updPkg own fun p => { p with errors := p.errors + 1 }) (pageFault 0x02 dst))
  | _ => .error (.wait ((s.sendTo t.home dst t.tenant x id).updMe fun t =>
    { t.block .memory .status with held := some i }))

/-- `SPAWN` (R185): an odd entry is found first, then a name that breaks R13, then the escape from a view, an order that the
spec does not give (DESIGN CHOICE, entry 97). -/
def execSpawn (d a b : BitVec 5) (e q : BitVec 3) (s : State) : Out :=
  .next (s.issue [a] [d] fun s =>
    let t := s.me
    let r := t.regs
    let entry := r.ext e
    if entry.getLsbD 0 then .error (.trap s (mkFault 0x02 0x02 (entry.zeroExtend 64)))
    else match s.checkName (r.val a) with
      | .error f => .error (.trap s f)
      | .ok dst =>
        if t.views ≠ [] then .error (.trap s escape)
        else s.request (.spawn d a b e q) d dst
          (.spawn ⟨t.tenant, entry, r.peg b, q, t.prio, s.curCore, s.curSlot, t.gen⟩) (s.startsFirst dst)
          fun s => s.serveSpawn dst t.tenant entry q t.prio (r.peg b))

/-- `CALLAT` (R186): a name that breaks R13 is found before the escape from a view (DESIGN CHOICE, entry 97). -/
def execCallat (d a b : BitVec 5) (stage : BitVec 4) (s : State) : Out :=
  .next (s.issue [a] [d] fun s =>
    let t := s.me
    let r := t.regs
    match s.checkName (r.val a) with
    | .error f => .error (.trap s f)
    | .ok dst =>
      if t.views ≠ [] then .error (.trap s escape)
      else s.request (.callat d a b stage) d dst (.callat stage.toFin (r.peg b) s.curSlot t.gen) false
        fun s => s.deposit dst t.tenant stage.toNat (r.peg b))

/-- The body of `QUIT` (R160, R187). -/
def State.quitBody (s : State) : Run :=
  if s.me.views ≠ [] then .error (.trap s escape) else .ok (s.freeSlot s.curCore s.curSlot)

/-- `QUIT` (R187). -/
def execQuit (s : State) : Out := .next (s.issue [] [] State.quitBody)

/-- Short `QUIT` (R187). -/
def execQuitShort (s : State) : Out := .next (s.issue [] [] fun s => s.quitBody)

end Sys2Proof.Machine
end

