-- ==== Sys2Proof/Machine/Matrix.lean ====
section
/-!
DEFINITION. The matrix unit (R189 to R200, R305 to R310): its operations, its instructions and remote commands.
-/

namespace Sys2Proof.Machine

/-! ### Geometry (R190, R192) -/

/-- The depth K of one `MMA` (R190). -/
def mmaDepth (ty : BitVec 5) : Nat :=
  match ty.toNat with
  | 8 => 8
  | 9 => 16
  | 10 | 11 => 32
  | 18 | 23 => 128
  | _ => 64

/-- The size of an operand element in half bytes (R190). -/
def mmaHalves (ty : BitVec 5) : Nat :=
  match ty.toNat with
  | 8 => 16
  | 9 => 8
  | 10 | 11 => 4
  | 18 | 23 => 1
  | _ => 2

/-- Scale bytes of a panel in memory: 32, 64 for the 4-bit types, none without scales (R190). -/
def scaleBytes (ty : BitVec 5) : Nat := if isScaled ty then 16 * (mmaDepth ty / 32) else 0

/-- Bytes of a panel (R190). -/
def panelBytes : Nat := 1024

/-- The encoding at (row or column r, index k) of a panel (R190). -/
def panelRaw (ty : BitVec 5) (bytes : List Byte) (r k : Nat) : Nat :=
  let h := mmaHalves ty
  if h = 1 then
    let x := (bytes.getD (64 * r + k / 2) 0).toNat
    if k % 2 = 0 then x % 16 else x / 16
  else leValue ((bytes.drop (64 * r + k * (h / 2))).take (h / 2))

/-- The value of an operand's encoding; a `.cb4` code selects its table entry (R93, R193, R194). -/
def operandValue (tbl : Vector (BitVec 16) 16) (ty : BitVec 5) (raw : Nat) : XVal :=
  if ty = 18 then fmtBf16.xval (tbl[Fin.ofNat 16 raw]).toNat 0
  else if ty = 0 then intXval true 8 raw 0
  else if isScaled ty then (fmtOf (mxElem ty)).xval raw 0
  else (fmtOf ty).xval raw 0

/-- A panel for a latch buffer: of 64 scales it keeps those of the even blocks, and it is "scale split" when a pair of
blocks of a column differs (R192). -/
def latchPanel (ty : BitVec 5) (bytes scales : List Byte) : Panel :=
  if scales.length = 64 then
    let even := (List.range 32).map fun i => scales.getD (2 * i) 0
    let odd := (List.range 32).map fun i => scales.getD (2 * i + 1) 0
    ⟨ty, bytes, even, even != odd⟩
  else ⟨ty, bytes, scales, false⟩

/-- The kept scale of block q of column c of a latch buffer (R192). -/
def Panel.scale (b : Panel) (c q : Nat) : Nat :=
  (if mmaHalves b.type = 1 then b.scales.getD (2 * c + q / 2) 0 else b.scales.getD (2 * c + q) 0).toNat

/-! ### Accumulation (R94, R193, R194) -/

/-- The sum of one group of products, exact, under the group's scales. -/
def groupSum (tbl : Vector (BitVec 16) 16) (ty : BitVec 5) (a b : List Byte) (sa sb i c k0 n : Nat) : XVal :=
  let term (k : Nat) : XVal :=
    (xMul (operandValue tbl ty (panelRaw ty a i k)) (operandValue tbl ty (panelRaw ty b c k))).val
  let sum := ((List.range (n - 1)).map (k0 + 1 + ·)).foldl (fun x k => (xAdd x (term k)).val) (term k0)
  if !isScaled ty then sum
  else if sa = 255 || sb = 255 then .nan
  else sum.down (254 - (sa : Int) - sb)

/-- The format of an accumulator for an operand type (R194). -/
def accType (ty : BitVec 5) : BitVec 5 := if ty = 8 then 8 else 9

/-- The accumulators a job or store of a type names (R193, R198). -/
def accsOf (ty : BitVec 5) (n : BitVec 2) : List (BitVec 2) := if ty = 8 then [n, n + 1] else [n]

/-- Element e of an accumulator: the FP64 element of a pair takes the tail of the higher member (R194). -/
def Matrix.element (m : Matrix) (ty : BitVec 5) (n : BitVec 2) (e : Fin 256) : FElem :=
  let lo := (m.acc[n.toFin])[e]
  if ty = 8 then
    let hi := (m.acc[(n + 1).toFin])[e]
    ⟨hi.val ++ lo.val, hi.tail⟩
  else ⟨zx64 lo.val, lo.tail⟩

/-- An accumulator with every element replaced (R194). -/
def Matrix.setElements (m : Matrix) (ty : BitVec 5) (n : BitVec 2) (f : Fin 256 → FElem) : Matrix :=
  if ty = 8 then
    let lo : Vector Elem 256 := Vector.ofFn fun e => ⟨(f e).bits.setWidth 32, 0⟩
    let hi : Vector Elem 256 := Vector.ofFn fun e => ⟨(f e).bits.extractLsb' 32 32, (f e).tail⟩
    { m with acc := (m.acc.set n.toFin lo).set (n + 1).toFin hi }
  else { m with acc := m.acc.set n.toFin (Vector.ofFn fun e => ⟨(f e).bits.setWidth 32, (f e).tail⟩) }

/-- One element after the groups of an `MMA` in ascending k (R94). -/
def accumulate (tbl : Vector (BitVec 16) 16) (ty : BitVec 5) (a : List Byte) (sa : List Byte) (b : Panel)
    (i c : Nat) (x : FElem) : FElem :=
  let k := mmaDepth ty
  let n := min k 32
  let q := k / 32
  (List.range (k / n)).foldl (fun x g =>
    let s := groupSum tbl ty a b.bytes (sa.getD (i * q + g) 0).toNat (b.scale c g) i c (n * g) n
    let r := arith (fmtOf (accType ty)) (xAdd ((tyOf (accType ty)).xval x) s)
    ⟨r.bits, r.tail⟩) x

/-- The accumulators after an `MMA` (R193). -/
def Matrix.multiply (m : Matrix) (ty : BitVec 5) (n : BitVec 2) (a sa : List Byte) (b : Panel) : Matrix :=
  m.setElements ty n fun e => accumulate m.tbl ty a sa b (e.val / 16) (e.val % 16) (m.element ty n e)

/-- Bits 9 and 8 of a completion word: an infinity, a NaN among the elements of an accumulator (R194, R195). -/
def Matrix.kinds (m : Matrix) (ty : BitVec 5) (n : BitVec 2) : BitVec 2 :=
  let vs := (List.finRange 256).map fun e => (tyOf (accType ty)).xval (m.element ty n e)
  (if vs.any (fun v => match v with
    | .inf _ _ => true
    | _ => false) then 2#2 else 0) ||| (if vs.any (· == .nan) then 1#2 else 0)

/-- Whether an accumulator of a type is marked bad (R310). -/
def Matrix.isBad (m : Matrix) (ty : BitVec 5) (n : BitVec 2) : Bool := (accsOf ty n).any fun a => m.bad[a.toFin]

/-- Whether a read of an accumulator of a type finds a parity error (R309). -/
def Matrix.parityError (m : Matrix) (ty : BitVec 5) (n : BitVec 2) : Bool :=
  (accsOf ty n).any fun a => m.flipped[a.toFin]

/-- The accumulators of a type that a read found in error are marked bad (R309, R310). -/
def Matrix.markBad (m : Matrix) (ty : BitVec 5) (n : BitVec 2) : Matrix :=
  (accsOf ty n).foldl (fun m a =>
    if m.flipped[a.toFin] then { m with bad := m.bad.set a.toFin true, flipped := m.flipped.set a.toFin false } else m) m

/-- Whether a queued job names one of the accumulators (R198). -/
def Matrix.names (m : Matrix) (accs : List (BitVec 2)) : Bool :=
  m.jobs.any fun j => (accsOf j.type j.acc).any accs.contains

/-! ### Writes by engines (R195, R205) -/

/-- A store-release by an engine at a core: performed at its home, or none while the home cannot perform it (R157,
R262, R269); one bound to a view whose commit has begun is performed behind that commit (R239). -/
def State.engineWrite (s : State) (core space mcore addr : Nat) (view : Nat) (bytes : List Byte)
    (own : Option (Nat × BitVec 16)) :
    Option State :=
  let p := pkgOf core
  if space = spGLOBAL then
    match (do
      let s ← s.reachAll p core addr (linesOf addr bytes.length)
      let s ← if view = 0 then .ok s else s.versionsFor p view addr (linesOf addr bytes.length)
      s.poisonAll p (if view = 0 then [] else [view]) (linesOf addr bytes.length)
      .ok s : Except Miss State) with
    | .error _ => none
    | .ok s =>
      if (s.pkg p).commits.any (·.view == view) then none
      else if view = 0 then
        some ((s.writeGlobal addr bytes own).refreshLines p (linesOf addr bytes.length))
      else some (s.updPkg p (·.updView view (·.write addr bytes)))
  else if (s.pkg (pkgOf mcore)).fenced.contains (false, (s.pkg (pkgOf mcore)).coreDie (dieOf mcore)) ||
      s.saved mcore || !s.pairServed core mcore || !s.routed p (pkgOf mcore) then none
  else some (s.writeLocal mcore addr bytes own)

/-! ### The unit's operations, local and remote -/

/-- The unit of a core changed: it has been used since its core's last restore (R302). -/
def State.updMatrix (s : State) (c : Nat) (f : Matrix → Matrix) : State :=
  s.updCore c fun k => { k with matrix := { f k.matrix with used := true } }

/-- A panel becomes FULL in arrival order (R193). -/
def Matrix.arrive (m : Matrix) (b : Panel) : Matrix := { m with latch := m.latch ++ [b] }

/-- The table of `.cb4` from 32 bytes (R191). -/
def tableOf (bytes : List Byte) : Vector (BitVec 16) 16 :=
  Vector.ofFn fun i => BitVec.ofNat 16 (leValue ((bytes.drop (2 * i.val)).take 2))

/-- A job enters the queue under the next identifier (R193). -/
def Matrix.queue (m : Matrix) (j : Job) : Matrix := { m with jobs := m.jobs ++ [j], next := m.next + 1 }

/-- The elements an `MSTACC` stores, with their flags (R198). -/
def Matrix.stored (m : Matrix) (ty : BitVec 5) (n : BitVec 2) (fcr : Word) : List FRes :=
  (List.finRange 256).map fun e => elCvtf (accType ty) ty fcr e.val (m.element (accType ty) n e)

/-- The bytes of stored elements. -/
def storedBytes (ty : BitVec 5) (l : List FRes) : List Byte := l.flatMap fun x => leBytes (tyBytes ty) x.bits.toNat

/-- Bytes cut into pieces of 16 at rising addresses (R198, R223). -/
def pieces16 (a : Nat) : List Byte → List (Nat × List Byte)
  | b0 :: b1 :: b2 :: b3 :: b4 :: b5 :: b6 :: b7 :: b8 :: b9 :: b10 :: b11 :: b12 :: b13 :: b14 :: b15 :: rest =>
    (a, [b0, b1, b2, b3, b4, b5, b6, b7, b8, b9, b10, b11, b12, b13, b14, b15]) :: pieces16 (a + 16) rest
  | [] => []
  | l => [(a, l)]

/-! ### Local instructions -/

/-- A matrix instruction inside a world escapes, with the address of its memory operand (R200). -/
def State.noWorld (s : State) (a : Nat) : Except FaultInfo Unit :=
  if s.me.inWorld then .error (mkFault 0x06 0 (BitVec.ofNat 64 a)) else .ok ()

/-- An instruction that does not issue while a condition holds: its turn passes (R193, R198). -/
def State.hold (waits : State → Bool) (s : State) (k : State → Out) : Out := if waits s then .next s else k s

/-- The unit of the issuing thread's core. -/
def State.unit (s : State) : Matrix := (s.core s.me.home).matrix

/-- The accumulators that a command names. -/
def MatrixCommand.accs (x : MatrixCommand) : List (BitVec 2) := if x.op = 4 then [x.acc] else accsOf x.type x.acc

/-- Whether a command that has come later must not pass one that waits: both load the latch, both queue a job, or one uses
the table or an accumulator that the other writes (R189). -/
def MatrixCommand.behind (h x : MatrixCommand) : Bool :=
  let shares := h.accs.any x.accs.contains
  match h.op.toNat with
  | 1 => x.op == 1
  | 2 => x.op == 2 || (x.op == 3 && x.type == 18)
  | 3 => x.op == 3 || (x.op == 2 && h.type == 18) || ((x.op == 4 || x.op == 5) && shares)
  | _ => (x.op == 3 || x.op == 4 || x.op == 5) && shares

/-- Whether an accepted command that waits comes before a command of the unit's own core (R189). -/
def Matrix.holdsBack (m : Matrix) (op : BitVec 4) (ty : BitVec 5) (acc : BitVec 2) : Bool :=
  m.held.any fun h => h.cmd.behind ⟨nullCap, op, ty, acc, 0, 0, 0⟩

/-- The `MLDB`s of a core's threads that are loading: each has taken an EMPTY buffer (R191). -/
def Core.loading (k : Core) : Nat :=
  (k.slots.toList.filter fun t => t.wait == .request && match t.held with
    | some (.mldb _ _ _ _) => true
    | _ => false).length

/-- Whether the latch of a core has no EMPTY buffer that is not taken (R191, R193). -/
def Core.latchFull (k : Core) : Bool := decide (2 ≤ k.matrix.latch.length + k.loading)

/-- Jobs in a unit's queue, those of accepted commands that wait among them (R189, R193). -/
def Matrix.jobCount (m : Matrix) : Nat := m.jobs.length + (m.held.filter (·.job.isSome)).length

/-- Whether `MLDB` waits for an EMPTY latch buffer (R191). -/
def State.latchFull (s : State) : Bool :=
  ((s.core s.me.home).latchFull || s.unit.holdsBack 1 0 0) && !s.me.inWorld

/-- Whether `MTBL` waits for a queued `.cb4` job (R191). -/
def State.tableBusy (s : State) : Bool := (s.unit.jobs.any (·.type == 18) || s.unit.holdsBack 2 0 0) && !s.me.inWorld

/-- Whether `MMA` finds the job queue full (R193), or an accepted command that it may not pass (R189). -/
def State.jobsFull (ty : BitVec 5) (acc : BitVec 2) (s : State) : Bool :=
  (decide (4 ≤ s.unit.jobCount) || s.unit.holdsBack 3 ty acc) && !s.me.inWorld

/-- Whether `MZERO` (`op` 4) or `MSTACC` (5) waits for a job that names the accumulator (R189, R198). -/
def State.accBusy (op : BitVec 4) (ty : BitVec 5) (n : BitVec 2) (s : State) : Bool :=
  (s.unit.names (if op = 4 then [n] else accsOf ty n) || s.unit.holdsBack op ty n) && !s.me.inWorld

/-- The checks of an operand panel and its scales (R191). -/
def State.panelTargets (s : State) (a b : BitVec 5) (c : BitVec 3) (ty : BitVec 5) (spaces : List Nat) :
    Except FaultInfo (Target × Option Target) := do
  let r := s.regs
  let x ← s.checked (r.cap c) (r.offset a) panelBytes 64 spaces pRD .load
  let y ← if isScaled ty then
      (s.checked (r.cap c) (r.offset b) (scaleBytes ty) 32 spaces pRD .load).map some
    else .ok none
  s.noWorld x.va
  .ok (x, y)

/-- The scalar sources of a panel operand. -/
def panelSrcs (ty a b : BitVec 5) : List (BitVec 5) := if isScaled ty then [a, b] else [a]

/-- `MLDA` (R191). -/
def execMlda (a b : BitVec 5) (c : BitVec 3) (ty : BitVec 5) (s : State) : Out :=
  .next (s.issue (panelSrcs ty a b) [] fun s =>
    match s.panelTargets a b c ty [spLOCAL] with
    | .error f => .error (.trap s f)
    | .ok (x, y) =>
      let s := s.updMatrix s.me.home fun m =>
        { m with abind := some ⟨x.addr, (y.map (·.addr)).getD 0, ty⟩ }
      .ok (s.setRegs (s.regs.advance 4)))

/-- Bytes read for a thread in aligned pieces of `z` bytes, each within one line. -/
def State.readPieces (z : Nat) (x : Target) : Nat → State → Except Miss (List Byte × State)
  | 0, s => .ok ([], s)
  | n + 1, s => do
    let (bytes, s) ← s.readAt x z true pRD
    let (rest, s) ← State.readPieces z { x with addr := x.addr + z, va := x.va + z } n s
    .ok (bytes ++ rest, s)

/-- `MLDB` (R191, R192). -/
def execMldb (a b : BitVec 5) (c : BitVec 3) (ty : BitVec 5) (s : State) : Out :=
  s.hold State.latchFull fun s =>
    .next (s.memory (.mldb a b c ty) 4 (panelSrcs ty a b) [] fun s => do
      let (x, y) ← liftFault (s.panelTargets a b c ty spMem)
      let (bytes, s) ← State.readPieces 64 x 16 s
      let (scales, s) ← match y with
        | none => .ok ([], s)
        | some y => State.readPieces 32 y (scaleBytes ty / 32) s
      .ok (s.regs, s.updMatrix s.me.home (·.arrive (latchPanel ty bytes scales))))

/-- `MTBL` (R191). -/
def execMtbl (a : BitVec 5) (c : BitVec 3) (ty : BitVec 5) (s : State) : Out :=
  s.hold State.tableBusy fun s =>
    .next (s.memory (.mtbl a c ty) 4 [a] [] fun s => do
      let x ← liftFault (s.checked (s.regs.cap c) (s.regs.offset a) 32 32 spMem pRD .load)
      liftFault (s.noWorld x.va)
      let (bytes, s) ← s.readAt x 32 true pRD
      .ok (s.regs, s.updMatrix s.me.home fun m => { m with tbl := tableOf bytes }))

/-- A job as a command queues it: it captures the A binding (R191, R193). -/
def Matrix.jobFor (m : Matrix) (ty : BitVec 5) (acc : BitVec 2) (x : Target) (slot : Option (Fin 8)) (gen : BitVec 8)
    (tenant : Nat) (views domains : List Nat) : Job where
  id := m.next
  type := ty
  acc := acc
  bind := m.abind
  mbox := x.addr
  space := x.space
  core := x.core
  slot := slot
  gen := gen
  tenant := tenant
  views := views
  domains := domains
  front := none
  started := false
  failed := false

/-- `MMA`: the mailbox's rights are checked at issue (R193, R200). A WINDOW mailbox escapes inside a domain. -/
def execMma (d a : BitVec 5) (acc : BitVec 2) (c : BitVec 3) (ty : BitVec 5) (s : State) : Out :=
  s.hold (State.jobsFull ty acc) fun s =>
    .next (s.memory (.mma d a acc c ty) 4 [a] [d] fun s => do
      let x ← liftFault (s.checked (s.regs.cap c) (s.regs.offset a) 4 4 spMem pWR .store)
      liftFault (s.noWorld x.va)
      let s ← if x.space = spGLOBAL then s.checkRights s.curCore x 4 pWR else .ok s
      let t := s.me
      let j := s.unit.jobFor ty acc x (some s.curSlot) t.gen t.tenant (if x.space = spGLOBAL then t.chain else [])
        t.chain
      .ok (s.regs.setVal d (j.id.zeroExtend 32), s.updMatrix t.home (·.queue j)))

/-- Whether `MPASS` of a core waits for its jobs (R196). -/
def Matrix.passBusy (m : Matrix) : Bool := m.jobCount != 0

/-- The next core of a quad's ring (R196). -/
def nextInQuad (c : Nat) : Nat := c / 4 * 4 + (c + 1) % 4

/-- The front of a core moves to the next core's latch (R196). A core that holds no stage of the thread's tenant does not
take it: the panel is gone, and no other tenant's unit is touched (R9; DEDUCED, entry 89). -/
def State.passFront (s : State) (c dst ten : Nat) : State :=
  match (s.core c).matrix.latch with
  | [] => s
  | b :: rest =>
    let s := s.updMatrix c fun m => { m with latch := rest }
    if (s.core dst).holdsStage ten then s.updMatrix dst (·.arrive b) else s

/-- Whether the front of a core can move to the next core: that has an EMPTY buffer, or will not take it (R9, R196). -/
def State.passGoes (s : State) (c dst ten : Nat) : Bool :=
  (s.core c).matrix.latch.isEmpty || !(s.core dst).holdsStage ten || !(s.core dst).latchFull

/-- `MPASS` of a gang: every front moves to its owner's successor at once (R196). -/
def State.passGang (s : State) (ring : List Nat) : State :=
  let n := ring.length
  let fronts := ring.map fun c => (s.core c).matrix.latch.head?
  (ring.zipIdx).foldl (fun s x =>
    s.updMatrix x.1 fun m => { m with
      latch := m.latch.drop 1 ++ ((fronts.getD ((x.2 + n - 1) % n) none).toList) }) s

/-- `MPASS` (R196). In a gang the leader passes for every member. -/
def execMpass (s : State) : Out :=
  .next (s.issue [] [] fun s =>
    let t := s.me
    let next := nextInQuad t.home
    let done (s : State) : Run := .ok (s.setRegs (s.regs.advance 4))
    if t.inWorld then .error (.trap s escape)
    else if (t.members s.curCore).any (fun c => (s.core c).matrix.passBusy) then .error (.wait s)
    else if t.state = .follow then done s
    else if t.gang ≠ 0 then done (s.passGang (t.members s.curCore))
    else if s.passGoes t.home next t.tenant then done (s.passFront t.home next t.tenant)
    else .error (.wait (s.updMe fun t => { t.block .memory .panel with held := some .mpass })))

/-- Whether a job is complete (R197). -/
def Matrix.complete (m : Matrix) (id : BitVec 16) : Bool :=
  !m.jobs.any (·.id == id) && !m.held.any (·.job.any (·.id == id))

/-- `MWAIT` (R197). -/
def execMwait (a : BitVec 5) (s : State) : Out :=
  .next (s.issue [a] [] fun s =>
    let id : BitVec 16 := (s.regs.val a).setWidth 16
    if s.me.inWorld then .error (.trap s escape)
    else if s.unit.complete id then
      let s := s.acquire 5
      .ok (s.setRegs (s.regs.advance 4))
    else .error (.wait (s.updMe fun t => { t.block .sleep (.job id) with held := some (.mwait a) })))

/-- `MPOLL` (R197). -/
def execMpoll (d a : BitVec 5) (s : State) : Out :=
  .next (s.issue [a] [d] fun s =>
    let id : BitVec 16 := (s.regs.val a).setWidth 16
    if s.me.inWorld then .error (.trap s escape)
    else .ok (s.setRegs ((s.regs.setVal d (if s.unit.complete id then 1 else 0)).advance 4)))

/-- An accumulator set to +0 with tail 00; its bad mark clears (R198, R310). -/
def Matrix.zero (m : Matrix) (n : BitVec 2) : Matrix :=
  { m with
    acc := m.acc.set n.toFin (Vector.replicate 256 Elem.zero), bad := m.bad.set n.toFin false
    flipped := m.flipped.set n.toFin false }

/-- `MZERO` (R198). -/
def execMzero (acc : BitVec 2) (s : State) : Out :=
  s.hold (State.accBusy 4 9 acc) fun s =>
    .next (s.issue [] [] fun s =>
      if s.me.inWorld then .error (.trap s escape)
      else
        let s := s.updMatrix s.me.home (·.zero acc)
        .ok (s.setRegs (s.regs.advance 4)))

/-- Pieces written for a thread in order; monitors reply after the last (R177, R198). -/
def State.placePieces (x : Target) : List (Nat × List Byte) → State → Except Miss State
  | [], s => .ok s.fireMonitors
  | (a, bytes) :: rest, s => do
    let s ← s.placeAt { x with addr := a, va := x.va + (a - x.addr) } bytes pWR
    State.placePieces x rest s

/-- The stores of an `MSTACC`: the registers with their flags (R198). -/
def State.storeAcc (s : State) (a : BitVec 5) (acc : BitVec 2) (c : BitVec 3) (ty : BitVec 5) :
    Except Miss (Regs × State) := do
  let r := s.regs
  let x ← liftFault (s.checked (r.cap c) (r.offset a) (256 * tyBytes ty) 16 spMem pWR .store)
  liftFault (s.noWorld x.va)
  let l := s.unit.stored ty acc r.fcr
  let s ← State.placePieces x (pieces16 x.addr (storedBytes ty l)) s
  .ok (s.regs.raise (unionFlags l), s)

/-- A parity error that a read of an accumulator finds: it is marked bad and reported (R309, R310). -/
def State.foundParity (s : State) (c : Nat) (ty : BitVec 5) (acc : BitVec 2) : State :=
  if (s.core c).matrix.parityError ty acc then
    (s.updMatrix c (·.markBad ty acc)).report (pkgOf c) (s.coreUnit c) false false
  else s

/-- `MSTACC` (R198). With a bad accumulator it writes nothing: the thread's domain is rolled back, or it takes the
poisoned-data fault of detail 0x01 (R310). -/
def execMstacc (a : BitVec 5) (acc : BitVec 2) (c : BitVec 3) (ty : BitVec 5) (s : State) : Out :=
  s.hold (State.accBusy 5 ty acc) fun s =>
    if (s.unit.isBad ty acc || s.unit.parityError ty acc) && !s.me.inWorld then
      .next (s.scoped (.mstacc a acc c ty) [a] [] fun s =>
        match s.checked (s.regs.cap c) (s.regs.offset a) (256 * tyBytes ty) 16 spMem pWR .store with
        | .error f => .error (.trap s f)
        | .ok _ => .error (.wait ((s.foundParity s.me.home ty acc).threadError s.curCore s.curSlot 0x01 0
          (some (s.coreUnit s.me.home)))))
    else .next (s.memory (.mstacc a acc c ty) 4 [a] [] fun s => s.storeAcc a acc c ty)

/-! ### Remote commands (R199, R308) -/

/-- The ranges that a command names within its capability: offset, length, alignment and whether it is written. -/
def MatrixCommand.ranges (x : MatrixCommand) : List (Int × Nat × Nat × Bool) :=
  match x.op.toNat with
  | 0 | 1 => (x.off1.toInt, panelBytes, 64, false) ::
      (if isScaled x.type then [(x.off2.toInt, scaleBytes x.type, 32, false)] else [])
  | 2 => [(x.off1.toInt, 32, 32, false)]
  | 3 => [(x.off2.toInt, 4, 4, true)]
  | 5 => [(x.off1.toInt, 256 * tyBytes x.type, 16, true)]
  | _ => []

/-- Check 4 of R308: the operation, its type and its accumulator. -/
def MatrixCommand.formed (x : MatrixCommand) : Bool :=
  let even := x.type != 8 || !x.acc.getLsbD 0
  match x.op.toNat with
  | 0 | 1 => tg8 x.type
  | 2 => tg12 x.type
  | 3 => tg8 x.type && even
  | 4 => true
  | 5 => tg1 x.type && even
  | _ => false

/-- Whether a range of a command lies in a tenant's partition on the target core (R308). -/
def State.commandInPartition (s : State) (dst : Nat) (x : MatrixCommand) (r : Int × Nat × Nat × Bool) : Bool :=
  let a := Cap.at x.cap r.1
  a / 2 ^ 16 % 2 ^ 26 == dst && s.inPartition dst x.cap.dom (a % 2 ^ 16) r.2.1

/-- The checks of R308 in order: the status of the first that fails. -/
def State.commandRefused (s : State) (dst tenant : Nat) (x : MatrixCommand) : Option Word :=
  let c := x.cap
  let need := c.perm.getLsbD 6
  let rs := x.ranges
  if !c.tag || !need then some 0x80000001
  else if c.space ≠ spWINDOW || c.base / 2 ^ 16 % 2 ^ 26 ≠ dst then some 0x80000001
  else if c.dom ≠ tenant || !(s.core dst).holdsStage tenant || !rs.all (s.commandInPartition dst x) then
    some 0x80000001
  else if !x.formed then some 0x80000002
  else if rs.any (fun r => c.perm &&& (if r.2.2.2 then pWR else pRD) = 0 || r.1 < 0 ||
      decide ((c.len : Int) < r.1 + r.2.1)) then some 0x80000001
  else if rs.any (fun r => Cap.at c r.1 % r.2.2.1 ≠ 0) then some 0x80000002
  else if x.op = 3 && decide (4 ≤ (s.core dst).matrix.jobCount) then some 0x80000003
  else none

/-- Whether an accepted command waits as its local form does, or for one of the commands that came before it and wait
(R189, R199). -/
def Core.commandWaits (k : Core) (before : List HeldCommand) (x : MatrixCommand) : Bool :=
  before.any (·.cmd.behind x) || match x.op.toNat with
    | 1 => k.latchFull
    | 2 => k.matrix.jobs.any (·.type == 18)
    | 4 | 5 => k.matrix.names x.accs
    | _ => false

/-- Where a range of an accepted command lies in the target core's local memory. -/
def MatrixCommand.place (x : MatrixCommand) (off : Word) : Nat := Cap.at x.cap off.toInt % 2 ^ 16

/-- The bytes that a remote `MSTACC` stores: under an `fcr` image with the invalid mode they are free (entry 24). -/
def State.remoteStored (s : State) (dst : Nat) (x : MatrixCommand) : List Byte :=
  if x.fcr.extractLsb' 0 3 = 7 then
    (List.range 256).flatMap fun e => leBytes (tyBytes x.type) (Config.invalidFinal s.ticks e).toNat
  else storedBytes x.type ((s.core dst).matrix.stored x.type x.acc x.fcr)

/-- A command carried out on its target's unit, with the job of an `MMA` (R199). A remote `MSTACC` of a bad accumulator
writes nothing (R310). -/
def State.runCommand (s : State) (dst : Nat) (x : MatrixCommand) (job : Option Job) : State :=
  let k := s.core dst
  let read (off : Word) (n : Nat) : List Byte := k.loc.readN (x.place off) n
  match x.op.toNat with
  | 0 => s.updMatrix dst fun m => { m with abind := some ⟨x.place x.off1, x.place x.off2, x.type⟩ }
  | 1 => s.updMatrix dst
      (·.arrive (latchPanel x.type (read x.off1 panelBytes) (read x.off2 (scaleBytes x.type))))
  | 2 => s.updMatrix dst fun m => { m with tbl := tableOf (read x.off1 32) }
  | 3 => s.updMatrix dst fun m => { m with jobs := m.jobs ++ job.toList }
  | 4 => s.updMatrix dst (·.zero x.acc)
  | 5 => if k.matrix.isBad x.type x.acc || k.matrix.parityError x.type x.acc then s.foundParity dst x.type x.acc
      else s.writeLocal dst (x.place x.off1) (s.remoteStored dst x) none
  | _ => s

/-- A command decided at its target: refused, or accepted and carried out, or held until its local form would go on
(R199, R308). Answers the status. -/
def State.serveCommand (s : State) (src dst tenant : Nat) (x : MatrixCommand) : State × Word :=
  match s.commandRefused dst tenant x with
  | some v => (s, v)
  | none =>
    let k := s.core dst
    let m := k.matrix
    let v : Word := if x.op = 3 then m.next.zeroExtend 32 else 0
    let job := if x.op = 3 then some (m.jobFor x.type x.acc ⟨spWINDOW, dst, x.place x.off2, 0, tenant⟩ none 0 tenant [] [])
      else none
    let s := if x.op = 3 then s.updMatrix dst fun m => { m with next := m.next + 1 } else s
    if k.commandWaits m.held x then (s.updMatrix dst fun m => { m with held := m.held ++ [⟨src, tenant, x, job⟩] }, v)
    else (s.runCommand dst x job, v)

/-- Whether the command port of a core holds a command of a sender: the sender's next one waits on its triple (R308). -/
def State.portBusy (s : State) (src dst : Nat) : Bool := (s.core dst).matrix.held.any (·.sender == src)

/-- The first held command of a unit that can go on, with the others; none passes an earlier one (R189). -/
def Core.nextHeld (k : Core) : Option (HeldCommand × Matrix) :=
  go [] k.matrix.held
where
  /-- The held commands in order of arrival, behind those that have been looked at. -/
  go : List HeldCommand → List HeldCommand → Option (HeldCommand × Matrix)
    | _, [] => none
    | before, h :: rest =>
      if k.commandWaits before h.cmd then go (before ++ [h]) rest
      else some (h, { k.matrix with held := before ++ rest })

/-- The command that an `MCMD` sends (R199). -/
def State.commandOf (s : State) (b : BitVec 5) (c : BitVec 3) : MatrixCommand :=
  let r := s.regs
  let v := r.vec b
  let w := v[0].val
  ⟨r.cap c, w.extractLsb' 0 4, w.extractLsb' 4 5, w.extractLsb' 9 2, v[1].val, v[2].val, r.ext 0⟩

/-- `MCMD` (R199, R200). -/
def execMcmd (d a b : BitVec 5) (c : BitVec 3) (s : State) : Out :=
  .next (s.issue [a] [d] fun s =>
    match s.checkName (s.regs.val a) with
    | .error f => .error (.trap s f)
    | .ok dst =>
      let t := s.me
      let x := s.commandOf b c
      if t.inWorld then .error (.trap s escape)
      else if t.inDomain then
        let s := s.updMe fun t => match t.views with
          | [] => t
          | v :: rest => { t with views := { v with outbox := v.outbox ++ [.command dst x] } :: rest }
        .ok (s.setRegs ((s.regs.setVal d 0x40000000).advance 4))
      else if s.releasing then .error (.wait s)
      else s.request (.mcmd d a b c) d dst (.command x (some (s.curSlot, t.gen))) (s.portBusy t.home dst)
        fun s => s.serveCommand t.home dst t.tenant x)

end Sys2Proof.Machine
end

