-- ==== Sys2Proof/Machine/Copy.lean ====
section
/-!
DEFINITION. Copies (R201 to R207, R311 to R315, R392): descriptors, the copy table, the checksum, and the copy
instructions.
-/

namespace Sys2Proof.Machine

/-! ### Descriptors (R201, R202) -/

/-- A descriptor read from `e0` to `e7`; `CPYC` forces `crc` (R201). -/
def Regs.copyDesc (r : Regs) (chained : Bool) (scope : BitVec 3) : CopyDesc :=
  let e := r.ext 0
  let cmp := e.getLsbD 11
  { utag := e.extractLsb' 16 16, cmp := cmp, cont := e.getLsbD 10, crc := e.getLsbD 9 || cmp || chained
    src := r.cap (e.extractLsb' 0 3), dst := r.cap (e.extractLsb' 3 3), mbox := r.cap (e.extractLsb' 6 3)
    soff := r.ext 2 ++ r.ext 1, doff := r.ext 4 ++ r.ext 3, len := (r.ext 5).toNat, moff := sx64 (r.ext 6)
    expect := r.ext 7, scope := scope }

/-- The pieces of a range that lie within one core's local memory each: offset and length (R248). `fuel` bounds their
number. -/
def windowPieces (base : Nat) (off : Int) : Nat → Nat → List (Int × Nat)
  | 0, _ => []
  | fuel + 1, n =>
    if n = 0 then []
    else
      let a := (((base : Int) + off) % 2 ^ 64).toNat
      let k := min n (65536 - a % 65536)
      (off, k) :: windowPieces base (off + k) fuel (n - k)

/-- The first failing check of a list. -/
def firstFault : List (Except FaultInfo Unit) → Except FaultInfo Unit
  | [] => .ok ()
  | .ok _ :: rest => firstFault rest
  | .error f :: _ => .error f

/-- A check that fails with a capability fault at an address. -/
def capCheck (ok : Bool) (detail : BitVec 8) (a : Nat) : Except FaultInfo Unit :=
  if ok then .ok () else .error (capFault detail a)

/-- A range that a copy descriptor names: capability, offset and length (R202). -/
structure CopyRange where
  cap : Cap
  off : Int
  len : Nat

/-- The bounds of a range over its whole length (R202). -/
def CopyRange.boundsFault (r : CopyRange) : Except FaultInfo Unit :=
  capCheck (decide (0 ≤ r.off) && decide (r.off + r.len ≤ (r.cap.len : Int))) 0x04 (Cap.at r.cap r.off)

/-- The pieces of a range: address and length, one for each local memory of a WINDOW range (R202, R248). -/
def CopyRange.pieces (r : CopyRange) : List (Nat × Nat) :=
  if r.cap.space = spWINDOW then
    (windowPieces r.cap.base r.off (r.len / 65536 + 2) r.len).map fun p => (Cap.at r.cap p.1, p.2)
  else if r.cap.space = spLOCAL && r.len != 0 then [(Cap.at r.cap r.off, r.len)] else []

/-- The core names of a WINDOW range (R13, R202). -/
def State.nameFault (s : State) (r : CopyRange) : Except FaultInfo Unit :=
  firstFault (r.pieces.map fun p => capCheck (r.cap.space != spWINDOW || s.goodName (p.1 / 2 ^ 16 % 2 ^ 26)) 0x07 p.1)

/-- The partitions of the LOCAL and WINDOW bytes of a range (R202, R248). -/
def State.partitionFault (s : State) (home : Nat) (r : CopyRange) : Except FaultInfo Unit :=
  firstFault (r.pieces.map fun p =>
    let core := if r.cap.space = spWINDOW then p.1 / 2 ^ 16 % 2 ^ 26 else home
    capCheck (s.inPartition core r.cap.dom (p.1 % 2 ^ 16) p.2) 0x09 p.1)

/-- The checks of R202 in order. -/
def State.checkCopy (s : State) (d : CopyDesc) : Except FaultInfo Unit :=
  let t := s.me
  let src := Cap.at d.src d.soff.toInt
  let dst := Cap.at d.dst d.doff.toInt
  let box := Cap.at d.mbox d.moff.toInt
  let all := [(d.src, src), (d.dst, dst), (d.mbox, box)]
  let needs := [(d.src, pRD, src), (d.dst, pWR, dst), (d.mbox, pWR, box)]
  let ranges : List CopyRange :=
    [⟨d.src, d.soff.toInt, d.len⟩, ⟨d.dst, d.doff.toInt, d.len⟩, ⟨d.mbox, d.moff.toInt, 16⟩]
  firstFault
    (all.map (fun c => capCheck c.1.tag 0x01 c.2) ++
      all.map (fun c => capCheck (c.1.dom == t.tenant) 0x08 c.2) ++
      all.map (fun c => capCheck (c.1.perm &&& pEN != 0) 0x03 c.2) ++
      needs.map (fun c => capCheck (c.1.perm &&& c.2.1 != 0) 0x03 c.2.2) ++
      [capCheck (spNoCtrl.contains d.src.space) 0x02 src, capCheck (spNoCtrl.contains d.dst.space) 0x02 dst,
        capCheck (spMem.contains d.mbox.space) 0x02 box] ++
      ranges.map CopyRange.boundsFault ++ ranges.map s.nameFault ++ ranges.map (s.partitionFault t.home) ++
      [checkAlign box 16])

/-! ### CRC-32C (R204) -/

/-- `n` steps of the reflected division by the Castagnoli polynomial. -/
def crcSteps : Nat → Word → Word
  | 0, x => x
  | n + 1, x => crcSteps n (if x.getLsbD 0 then (x >>> 1) ^^^ 0x82F63B78 else x >>> 1)

/-- The register after a string of bytes, before the final complement (R204). -/
def crcBytes (x : Word) (bytes : List Byte) : Word := bytes.foldl (fun x b => crcSteps 8 (x ^^^ zx32 b)) x

/-- The register at the start of a checksum (R204). -/
def crcInit : Word := 0xFFFFFFFF

/-! ### The copy table (R202 to R204) -/

/-- The entry of an identifier. -/
def Core.copy (k : Core) (id : BitVec 16) : Option Copy := k.copies.find? (·.id == id)

/-- A core's copy entry changed. -/
def State.updCopy (s : State) (c : Nat) (id : BitVec 16) (f : Copy → Copy) : State :=
  s.updCore c fun k => { k with copies := k.copies.map (fun x => if x.id == id then f x else x) }

/-- An entry leaves the table (R204). -/
def State.retireCopy (s : State) (c : Nat) (id : BitVec 16) : State :=
  s.updCore c fun k => { k with copies := k.copies.filter (fun x => x.id != id) }

/-- Entries of a core's copy table (R202). -/
def copyTableSize : Nat := 8

/-- Whether an entry stays only as a predecessor (R204). -/
def Copy.spent (x : Copy) : Bool := x.posted && x.desc.cont

/-- Whether a table has no entry to give: it is full and none may retire (R202, R204). -/
def Core.copyFull (k : Core) : Bool := decide (copyTableSize ≤ k.copies.length) && !k.copies.any Copy.spent

/-- Room for one entry: the oldest that stays only as a predecessor retires from a full table (R204). -/
def Core.copyRoom (k : Core) : Core :=
  if k.copies.length < copyTableSize then k
  else match k.copies.find? Copy.spent with
    | none => k
    | some x => { k with copies := k.copies.filter (fun y => y.id != x.id) }

/-- Whether a tenant's armed copy injection meets a command: where it strikes (R392). -/
def Tenant.strikes (t : Tenant) (d : CopyDesc) : Option (Nat × Nat) :=
  if t.injection && t.carm.getLsbD 31 && t.carm.extractLsb' 0 16 == d.utag && decide (t.ijoff.toNat < d.len) then
    some (t.ijoff.toNat, (t.carm.extractLsb' 16 3).toNat)
  else none

/-- The injection has fired (R392). -/
def Tenant.struck (t : Tenant) : Tenant :=
  { t with carm := t.carm &&& 0x7FFFFFFF, ccnt := if t.ccnt = 0xFFFF then t.ccnt else t.ccnt + 1 }

/-- An injected error is reported to the service processors with a mark and enters no error record (R394). -/
def Package.reportInjected (p : Package) : Package :=
  { p with service := { p.service with reports := p.service.reports ++ ["injected error"] } }

/-- The running register and the status that a predecessor passes on: a chain continues its register, and a failed one
fails every copy that names it (R204, R205). -/
def Copy.follow (x : Copy) (p : Copy) : Copy :=
  if 3 ≤ p.status.toNat then { x with run := if p.desc.crc then p.run else crcInit, status := 7 }
  else { x with run := p.run }

/-- A new entry of a copy table (R202). -/
def Copy.make (id : BitVec 16) (d : CopyDesc) (slot : Fin 8) (gen : BitVec 8) (tenant : Nat)
    (pred : Option (BitVec 16)) (strike : Option (Nat × Nat)) : Copy where
  id := id
  desc := d
  slot := slot
  gen := gen
  tenant := tenant
  pred := pred
  queued := none
  started := false
  turn := 0
  sliceEnd := 0
  stalled := none
  wants := none
  units := []
  next := 0
  done := 0
  seg := crcInit
  run := crcInit
  status := 0
  fclass := 0
  posted := false
  strike := strike
  olds := []

/-- A command issues as a copy of a core's table with room made (R202, R204, R392): its identifier, or `0x8000_0002`
when it names a predecessor that is not in the table or was issued with `cont` = 0. Another tenant's entry is no
predecessor (R9; DEDUCED, entry 90). Room is made first, so a `CPYC` on a full table may name the very entry that retires
for it, and is answered `0x8000_0002` (DEDUCED, entry 84); a released one is never refused for lack of an entry, and goes
on from that entry (R241). -/
def State.issueCopy (s : State) (c : Nat) (slot : Fin 8) (gen : BitVec 8) (tenant : Nat) (d : CopyDesc)
    (chain : Option (Option (BitVec 16))) (released : Bool) : State × Option (BitVec 16) :=
  let before := s.core c
  let s := s.updCore c Core.copyRoom
  let k := s.core c
  let named (id : BitVec 16) : Option Copy :=
    ((if released then before else k).copy id).filter (·.tenant == tenant)
  let p := pkgOf c
  let create (pred : Option Copy) : State × Option (BitVec 16) :=
    let strike := ((s.pkg p).tenant tenant).bind (·.strikes d)
    let x := Copy.make k.copyNext d slot gen tenant ((pred.map (·.id)).filter (k.copy · |>.isSome)) strike
    let x := match pred with
      | some q => if q.posted then x.follow q else x
      | none => x
    let s := if strike.isSome then s.updPkg p fun q => (q.updTenant tenant Tenant.struck).reportInjected else s
    let s := s.updCore c fun k => { k with copies := k.copies ++ [x], copyNext := k.copyNext + 1 }
    (s.updSlot c slot (fun t => if t.gen = gen then { t with lastCopy := some x.id } else t), some x.id)
  match chain with
  | none => create none
  | some name => match name.bind named with
    | none => (s, none)
    | some q => if q.desc.cont then create (some q) else (s, none)

/-- The status word of a `CPY` or `CPYC` that issued (R202). -/
def copyStatus : Option (BitVec 16) → Word
  | some id => id.zeroExtend 32
  | none => 0x80000002

/-! ### The instructions -/

/-- Whether a `CPY` or `CPYC` of the issuing thread finds the copy table full (R202). -/
def State.tableFull (s : State) : Bool := s.me.views.isEmpty && (s.core s.me.home).copyFull

/-- The body of `CPY` and `CPYC`: `chain` is the predecessor's name (R202, R207). -/
def State.copyBody (s : State) (d : BitVec 5) (chain : Option Word) (scope : BitVec 3) : Run :=
  let t := s.me
  let x := s.regs.copyDesc chain.isSome scope
  let write (s : State) (v : Word) : Run := .ok (s.setRegs ((s.regs.setVal d v).advance 4))
  match s.checkCopy x with
  | .error f => .error (.trap s f)
  | .ok _ =>
    if t.inWorld then .error (.trap s escape)
    else if t.inDomain then
      if chain.any (· != 0xFFFFFFFF) then .error (.trap s escape)
      else write (s.updMe fun t => match t.views with
        | [] => t
        | v :: rest => { t with views := { v with outbox := v.outbox ++ [.copy x chain.isSome] } :: rest })
        0x40000000
    else if s.releasing || s.tableFull then .error (.wait s)
    else
      let name := chain.map fun w => if w = 0xFFFFFFFF then t.lastCopy else some (w.setWidth 16)
      let (s, id) := s.issueCopy t.home s.curSlot t.gen t.tenant x name false
      write s (copyStatus id)

/-- `CPY` (R202). -/
def execCpy (d : BitVec 5) (scope : BitVec 3) (s : State) : Out :=
  s.hold State.tableFull fun s =>
    .next (s.scoped (.cpy d scope) [] [d] fun s => s.copyBody d none scope)

/-- `CPYC` (R202). -/
def execCpyc (d a : BitVec 5) (scope : BitVec 3) (s : State) : Out :=
  s.hold State.tableFull fun s =>
    .next (s.scoped (.cpyc d a scope) [a] [d] fun s => s.copyBody d (some (s.regs.val a)) scope)

/-- Whether a copy is complete: its record has been performed or its entry has retired (R204, R206). -/
def Core.copyComplete (k : Core) (id : BitVec 16) : Bool :=
  match k.copy id with
  | none => true
  | some x => x.posted

/-- `CPYW` (R206). -/
def execCpyw (a : BitVec 5) (s : State) : Out :=
  .next (s.issue [a] [] fun s =>
    let id : BitVec 16 := (s.regs.val a).setWidth 16
    if (s.core s.me.home).copyComplete id then
      let s := s.acquire 5
      .ok (s.setRegs (s.regs.advance 4))
    else .error (.wait (s.updMe fun t => { t.block .sleep (.copy id) with held := some (.cpyw a) })))

/-- The bytes a `CPYQ` reports (R206). -/
def Core.copyLeft (k : Core) (id : BitVec 16) : Nat :=
  match k.copy id with
  | none => 0
  | some x => if x.posted then 0 else max 1 (x.desc.len - x.done)

/-- `CPYQ` (R206). -/
def execCpyq (d a : BitVec 5) (s : State) : Out :=
  .next (s.issue [a] [d] fun s =>
    let n := (s.core s.me.home).copyLeft ((s.regs.val a).setWidth 16)
    .ok (s.setRegs ((s.regs.setVal d (BitVec.ofNat 32 n)).advance 4)))

end Sys2Proof.Machine
end

