-- ==== Sys2Proof/Machine/Views.lean ====
section
/-!
DEFINITION. Views: domains, rivals and commits (R212 to R221, R253, R262).
-/

namespace Sys2Proof.Machine

/-! ### Opening (R213) -/

/-- A status of `FORK` or `DOPEN` that opens nothing: the thread continues (R213). -/
def State.notOpened (s : State) (d : BitVec 5) (v : Word) : Run :=
  .ok (s.setRegs ((s.regs.setVal d v).advance 4))

/-- FREE slots that `FORK` may take in the forking core's quad, cores ascending, never the last FREE slot of a core
that binds a handler stage (R217). -/
def State.quadSlots (s : State) (home : Nat) : List (Nat × Fin 8) :=
  (gangCores home 4).flatMap fun c =>
    let k := s.core c
    let l := k.freeSlots
    (if k.hasHandler then l.dropLast else l).map fun n => (c, n)

/-- View numbers opened one after the other: the numbers and the package; none when they run out (R213, R259). -/
def Package.openViews (p : Package) (parent ten : Nat) (rival : Bool) : Nat → Option (List Nat × Package)
  | 0 => some ([], p)
  | n + 1 => match p.freeView with
    | none => none
    | some v => ((p.openView v parent ten rival).openViews parent ten rival n).map fun x => (v :: x.1, x.2)

/-- The bytes of local memory as the issuing thread's own LOCAL addresses name them. -/
def State.ownBytes (s : State) (off n : Nat) : List Byte :=
  (List.range n).map fun i => s.localByte s.me.views s.me.home (off + i)

/-- The granule tags of local memory as the issuing thread's own LOCAL addresses name them. -/
def State.ownTags (s : State) (off n : Nat) : Tags :=
  (granules off n).filter fun g => s.tagAt ⟨spLOCAL, s.me.home, g * 16, g * 16, 0⟩ false

/-- A rival's view of a world (R217). -/
def rivalView (num world i base len : Nat) (bytes : List Byte) (tags : Tags) (r : Regs) (d : BitVec 5) : View where
  num := num
  rival := true
  scope := 0
  dst := d
  resume := r.pc
  retry := 0
  saved := r
  ranges := []
  matrix := none
  outbox := []
  keep := none
  spoiled := false
  cause := none
  world := world
  index := i
  winBase := base
  winLen := len
  win := Memory.writeN [] base bytes
  winTags := tags

/-- A rival placed in a FREE slot: a copy of the parent's image at the instruction after `FORK`, with its index in
`S[d]` and its view pushed (R217). -/
def State.placeRival (s : State) (t : Slot) (c : Nat) (n : Fin 8) (r : Regs) (d : BitVec 5) (v : View) : State :=
  s.setSlot c n { Slot.initial with
    home := t.home, gen := (s.slot c n).gen, issued := (s.slot c n).issued, state := .ready, tenant := t.tenant
    code := t.code, stage := t.stage, prio := t.prio, bound := t.bound, hcl := t.hcl, lch := t.lch
    regs := r.setVal d (BitVec.ofNat 32 v.index)
    views := v :: t.views }

/-- Whether the operands of `FORK` are refused with `0x8000_0006`: the count, the window length, its offset, and its
place in the partition (R217). -/
def State.badFork (s : State) (x off : Word) : Bool :=
  let n := x.toNat % 16
  let len := x.toNat / 2 ^ 16
  let t := s.me
  n < 2 || 8 < n || 512 < len || off.toNat % 16 ≠ 0 || !s.inPartition t.home t.tenant off.toNat (16 * len)

/-- The world of a `FORK` opened: the rivals start and the parent sleeps; a rival whose index fills its `qdn` buffer would
push, and escapes (R160, R217). -/
def State.openWorld (s : State) (d : BitVec 5) (fail : Word) (nums : List Nat) (slots : List (Nat × Fin 8))
    (base len keep : Nat) (r : Regs) : State :=
  let t := s.me
  let own := pkgOf t.home
  let id := (s.pkg own).nextWorld
  let bytes := s.ownBytes base len
  let tags := s.ownTags base len
  let rivals := ((slots.zip nums).zipIdx).map fun x => (x.1.1.1, x.1.1.2, (s.slot x.1.1.1 x.1.1.2).gen, x.1.2, x.2)
  let w : World :=
    { id := id, core := s.curCore, slot := s.curSlot, gen := t.gen, fail := fail, dst := d
      rivals := rivals.map (fun x => (x.1, x.2.1, x.2.2.1, x.2.2.2.1)), counted := 0, decided := false
      home := t.home, keep := (keep, len * slots.length) }
  let s := (s.updPkg own fun p => { p with worlds := p.worlds ++ [w], nextWorld := id + 1 }).updCore t.home
    (·.rewritten (granules keep (len * slots.length)))
  let s := rivals.foldl (fun s x =>
    s.placeRival t x.1 x.2.1 (r.advance 4) d (rivalView x.2.2.2.1 id x.2.2.2.2 base len bytes tags (r.advance 4) d)) s
  let s := rivals.foldl (fun s x =>
    if (s.slot x.1 x.2.1).regs.qdn.length = 4 then s.trap x.1 x.2.1 escape else s) s
  s.updMe fun t => { t.block .sleep .world with regs := r }

/-- `FORK` (R217). -/
def execFork (d a b : BitVec 5) (s : State) : Out :=
  .next (s.issue [a, b] [d] fun s =>
    let t := s.me
    let r := t.regs
    let x := r.val a
    let off := r.val b
    let fail := r.ext 7
    let n := x.toNat % 16
    let len := 16 * (x.toNat / 2 ^ 16)
    let own := pkgOf t.home
    let slots := s.quadSlots t.home
    if t.gang ≠ 0 then .error (.trap s escape)
    else if fail.getLsbD 0 then .error (.trap s (mkFault 0x02 0x02 (fail.zeroExtend 64)))
    else if s.badFork x off then s.notOpened d 0x80000006
    else if 8 ≤ t.views.length then s.notOpened d 0x80000004
    else if slots.length < n then s.notOpened d 0x80000001
    else match (s.pkg own).openViews (t.chain.headD 0) t.tenant true n with
    | none => s.notOpened d 0x80000005
    | some (nums, p) => match (s.core t.home).keepAlloc (n * len) with
      | none => s.notOpened d 0x80000003
      | some (o, k) => match (s.core t.home).poisonFault t.home (s.keptWords t off.toNat len) with
        | some f => .error (.trap s f)
        | none =>
          let s := (s.setPkg own p).setCore t.home k
          .error (.wait (s.openWorld d fail nums (slots.take n) off.toNat len o (r.consume [a, b]))))

/-! ### Commits (R216, R218, R239, R262) -/

/-- A commit into the base view begins: every line that has a version of the view is locked and the floor raises of
every package are due; the thread waits for the commit point (R262), in MEMORY, a state that R17 does not name for it
(DESIGN CHOICE, entry 65). -/
def State.lockCommit (s : State) (v : Nat) (choose : Bool) (i : Instr) : State :=
  let t := s.me
  let own := pkgOf t.home
  let c : Commit :=
    { view := v, core := s.curCore, slot := s.curSlot, lines := (s.pkg own).linesIn v
      raise := List.range s.podSize, acks := [], choose := choose }
  (s.updPkg own fun p => { p with commits := p.commits ++ [c] }).updMe fun t =>
    { t.block .memory .commit with held := some i }

/-- The winner of a world takes the parent's place: its window is copied back, its image passes to the parent, which
continues after `CHOOSE`, every other rival's view is discarded, its slot enters FREE and the world ends (R218). -/
def State.winWorld (s : State) (c : Nat) (n : Fin 8) (v : View) (w : World) (r : Regs) : State :=
  let t := s.slot c n
  let s := s.writeOwn w.core w.slot v.winBase (v.win.readN v.winBase v.winLen) v.winTags
  let p := s.slot w.core w.slot
  let s := if p.gen = w.gen then s.setSlot w.core w.slot { p.unblock with regs := r } else s
  let s := s.updPkg (pkgOf t.home) fun p => (w.rivals.filter (fun x => x.2.2.2 != v.num)).foldl
    (fun p x => p.updView x.2.2.2 ViewRec.discard) p
  (s.freeSlot c n).endWorld w

/-- `CHOOSE` (R218). -/
def execChoose (s : State) : Out :=
  .next (s.issue [] [] fun s =>
    let t := s.me
    let own := pkgOf t.home
    match t.views with
    | [] => .error (.trap s escape)
    | v :: rest =>
      if t.gang ≠ 0 || !v.rival then .error (.trap s escape)
      else match (s.pkg own).world v.world with
        | none => .ok (s.killThread s.curCore s.curSlot)
        | some w =>
          if w.decided then .ok (s.killThread s.curCore s.curSlot)
          else
            let s := s.updPkg own fun p =>
              { p with worlds := p.worlds.map (fun x => if x.id == w.id then { x with decided := true } else x) }
            match rest with
            | [] => .error (.wait (s.lockCommit v.num true .choose))
            | u :: _ =>
              let s := s.updPkg own fun p => p.commitInto v.num u.num
              .ok (s.winWorld s.curCore s.curSlot v w (t.regs.advance 4)))

/-- `ABANDON` (R219). -/
def execAbandon (s : State) : Out :=
  .next (s.issue [] [] fun s =>
    let t := s.me
    if t.gang ≠ 0 || !t.inWorld then .error (.trap s escape) else .ok (s.killThread s.curCore s.curSlot))

/-! ### Domains (R214, R216) -/

/-- The range records of a `DOPEN`: 8 bytes each, offset and length (R69, R214). -/
def rangeRecords (bytes : List Byte) : Nat → List (Nat × Nat)
  | 0 => []
  | n + 1 => (leValue (bytes.take 4), leValue ((bytes.drop 4).take 4)) :: rangeRecords (bytes.drop 8) n

/-- Whether a range record is refused with `0x8000_0006` (R214). -/
def State.badRange (s : State) (x : Nat × Nat) : Bool :=
  x.1 % 16 ≠ 0 || x.2 % 16 ≠ 0 || 65536 < x.1 + x.2 || !s.inPartition s.me.home s.me.tenant x.1 x.2

/-- Bytes that the preserved inputs of a domain take (R253). -/
def preserveNeed (mx : Bool) (ranges : List (Nat × Nat)) : Nat :=
  1024 + (if mx then 4384 else 0) + (ranges.map (·.2)).foldl (· + ·) 0

/-- Space for a domain's preserved inputs: in the keep area of its core for `.core` and `.quad`, in its tenant's preserve
area otherwise (R214, R253). -/
def State.roomFor (s : State) (scope : BitVec 3) (need : Nat) : Option (Nat × State) :=
  let t := s.me
  if scope.toNat ≤ 2 then ((s.core t.home).keepAlloc need).map fun x => (x.1, s.setCore t.home x.2)
  else ((s.pkg (pkgOf t.home)).preserveAlloc t.tenant need).map fun x => (x.1, s.setPkg (pkgOf t.home) x.2)

/-- A domain's view with its preserved inputs (R214). -/
def State.domainView (s : State) (num : Nat) (scope : BitVec 3) (d : BitVec 5) (r : Regs) (mx : Bool)
    (ranges : List (Nat × Nat)) (o need : Nat) : View :=
  let k := s.core s.me.home
  { num := num, rival := false, scope := scope, dst := d, resume := r.pc + 4, retry := 0, saved := r
    ranges := ranges.map fun x => ⟨x.1, s.ownBytes x.1 x.2, s.ownTags x.1 x.2⟩
    matrix := if mx then some ⟨k.matrix.acc, k.matrix.tbl⟩ else none
    outbox := [], keep := some (o, round64 need), spoiled := false, cause := none, world := 0, index := 0
    winBase := 0, winLen := 0, win := [], winTags := [] }

/-- `DOPEN` once its range records have been read (R213, R214); a declared range that holds a poisoned word faults
(R356). -/
def State.openDomain (s : State) (d a : BitVec 5) (scope : BitVec 3) (mx : Bool) (ranges : List (Nat × Nat)) : Run :=
  let t := s.me
  let own := pkgOf t.home
  let r := t.regs.consume [a]
  let status (v : Word) : Run := .ok (s.setRegs ((s.regs.setVal d v).advance 4))
  if ranges.any s.badRange then status 0x80000006
  else if 8 ≤ t.views.length then status 0x80000004
  else match (s.pkg own).freeView with
    | none => status 0x80000005
    | some num => match s.roomFor scope (preserveNeed mx ranges) with
      | none => status 0x80000003
      | some (o, s') => match (s.core t.home).poisonFault t.home (ranges.flatMap fun x => s.keptWords t x.1 x.2) with
      | some f => .error (.trap s f)
      | none =>
        let s := if scope.toNat ≤ 2 then
            s'.updCore t.home (·.rewritten (granules o (round64 (preserveNeed mx ranges)))) else s'
        let v := s.domainView num scope d r mx ranges o (preserveNeed mx ranges)
        let s := s.updPkg own fun p => p.openView num (t.chain.headD 0) t.tenant false
        .ok ((s.updMe fun t => { t with views := v :: t.views }).setRegs ((s.regs.setVal d 0).advance 4))

/-- `DOPEN` (R214). -/
def execDopen (d a : BitVec 5) (scope : BitVec 3) (s : State) : Out :=
  .next (s.scoped (.dopen d a scope) [a] [d] fun s =>
    let t := s.me
    let r := t.regs
    let e := r.ext 0
    let cnt := (e.extractLsb' 8 8).toNat
    let mx := e.getLsbD 3
    if mx && !(s.core t.home).matrix.jobs.isEmpty then .error (.wait s)
    else if cnt = 0 then s.openDomain d a scope mx []
    else
      let read : Except Miss (List Byte × State) := do
        let x ← liftFault (s.target (r.cap (e.extractLsb' 0 3)) (r.offset a) (8 * cnt) spNoCtrl pRD)
        s.readAt x (8 * cnt) true pRD
      match read with
      | .error (.fault f) => .error (.trap s f)
      | .error (.wait line) => .error (.wait (s.awaitHome (.dopen d a scope) line))
      | .ok (bytes, s) => s.openDomain d a scope mx (rangeRecords bytes cnt))

/-- `DCLOSE` (R216). -/
def execDclose (s : State) : Out :=
  .next (s.issue [] [] fun s =>
    let t := s.me
    let own := pkgOf t.home
    match t.views with
    | [] => .error (.trap s escape)
    | v :: rest =>
      if v.rival then .error (.trap s escape)
      else match rest with
        | [] => .error (.wait (s.lockCommit v.num false .dclose))
        | u :: outer =>
          let s := (s.updPkg own fun p => p.commitInto v.num u.num).freeRoom t.home t.tenant v
          .ok (s.updMe fun t => { t with
            views := { u with outbox := u.outbox ++ v.outbox } :: outer, regs := t.regs.advance 4 }))

/-- The `VSTAT` word (R220). -/
def Slot.vstat (t : Slot) : Word :=
  let depth := BitVec.ofNat 4 t.views.length
  let kind : BitVec 4 := match t.views with
    | [] => 0
    | v :: _ => if v.rival then 2 else 1
  let retry : BitVec 8 := match t.views with
    | [] => 0
    | v :: _ => if v.rival then 0 else v.retry
  let index : BitVec 4 := match t.rivalView with
    | none => 0
    | some v => BitVec.ofNat 4 v.index
  0#8 ++ retry ++ index ++ 0#4 ++ kind ++ depth

/-- `VSTAT` (R220). -/
def execVstat (d : BitVec 5) (s : State) : Out :=
  .next (s.issue [] [d] fun s => .ok (s.setRegs ((s.regs.setVal d s.me.vstat).advance 4)))

end Sys2Proof.Machine
end

