-- ==== Sys2Proof/Machine/Sched.lean ====
section
/-!
DEFINITION. Scheduling and message events: starting threads (R279 to R282), the pending-launch pool (R283 to R287),
arrivals, parking and reservations (R183, R184, R277, R278, R328 to R330), pod ingress (R343), and threads that wake.
-/

namespace Sys2Proof.Machine

/-! ### Starting threads (R279 to R282) -/

/-- The stages of a priority in ascending order after the one that fired last, wrapping (R280). -/
def Core.rotation (k : Core) (prio : Fin 4) : List (Fin 16) :=
  match k.fired[prio] with
  | none => List.finRange 16
  | some f => (List.finRange 16).filter (fun i => f.val < i.val) ++ (List.finRange 16).filter (fun i => i.val ≤ f.val)

/-- The compute stage that fires next: the highest priority first (R280). -/
def Core.computeChoice (k : Core) : Option (Fin 16) :=
  [3, 2, 1, 0].findSome? fun (p : Fin 4) =>
    (k.rotation p).find? fun i => k.eligible i && !k.stages[i].hcl && k.stages[i].prio.toNat == p.val

/-- What the scheduler of a core starts next (R280): a stage, or none where a held launch comes first or nothing is
eligible. -/
def State.firingChoice (s : State) (c : Nat) : Option (Fin 16) :=
  let k := s.core c
  if k.stopped then none
  else match k.handlerChoice with
    | some i => some i
    | none => if !(s.heldLaunches c).isEmpty && k.startSlot.isSome then none else k.computeChoice

/-- The entries that a firing pops, oldest first; they are retired in the scribe log (R281, R363). -/
def State.popPegs (s : State) (c q : Nat) : Nat → List Entry × State
  | 0 => ([], s)
  | n + 1 => match s.popQueue c q with
    | none => ([], s)
    | some (e, s) =>
      let (l, s) := (s.scribePop c e.seq none).popPegs c q n
      (e.words :: l, s)

/-- A stage fires into the lowest FREE slot of its core (R281, R282). -/
def State.fire (s : State) (c : Nat) (i : Fin 16) : State :=
  let g := (s.core c).stages[i]
  match (s.core c).freeSlots with
  | [] => s
  | n :: _ =>
    let (pegs, s) := s.popPegs c g.inq g.pops
    let k := s.core c
    let h := k.stages[i]
    let k := { k with
      stages := k.stages.set i { h with live := h.live + 1, standing := 0 }
      fired := k.fired.set g.prio.toNat (some i) g.prio.isLt }
    let cbk := (g.bits.extractLsb' 96 16).toNat
    (s.setCore c k).setSlot c n { Slot.initial with
      home := c, gen := (k.slot n).gen, issued := (k.slot n).issued, state := .ready, tenant := g.tenant, code := g.code, stage := BitVec.ofNat 4 i.val
      prio := g.prio, hcl := g.hcl, bound := BitVec.ofNat 3 g.inq, resv := h.standing
      regs := k.startRegs pegs (k.partBase g.tenant + cbk) (g.bits.extractLsb' 32 32) }

/-- `STAGE_FIRING`: the stage that the scheduler chooses fires (R279 to R281). -/
def execStageFiring (core : Nat) (stage : Fin 16) (s : State) : Out :=
  .next (if s.firingChoice core = some stage then s.fire core stage else s)

/-- `HELD_LAUNCH_START` (R280, R287): an eligible handler stage comes first. -/
def execHeldLaunchStart (core : Nat) (s : State) : Out := .next (s.startHeld core)

/-! ### Messages that arrive -/

/-- A launch whose rights have been checked (R287): its status and, when it started, the thread's `tslot`[10:0]. -/
def State.launch (s : State) (ten c : Nat) (entry : Word) (bound : BitVec 3) (peg : Entry) : State × Nat × Word :=
  let k := s.core c
  let start := if k.stopped || s.startsFirst c || !(s.heldLaunches c).isEmpty then none else k.startSlot
  if !k.holdsStage ten then (s, 3, 0)
  else match start with
    | some n => (s.startLaunched c n ten entry bound 0 peg, 0, (returnTag n (k.slot n).gen).zeroExtend 32)
    | none =>
      if 1 ≤ s.sharedFree (pkgOf c) ten then
        (s.updPkg (pkgOf c) fun p => p.updPool ten (· ++ [.launch c entry bound peg s.ticks]), 1, 0)
      else (s, 2, 0)

/-- The checks of R343 on a message: those of a pod port only for a message of another package; the offset for launches
and `SPAWN`; and all but the pod's for a launch of the package itself (R287). -/
def State.admitted (s : State) (m : Msg) : Bool :=
  let p := s.pkg (pkgOf m.dst)
  let near := senderPkg m.src == pkgOf m.dst
  match m.payload with
  | .status _ _ _ | .unknown _ _ _ => true
  | .spawn r => near || (p.podAllows m.dom m.src m.dst && p.entryAllows m.dom r.entry)
  | .launch e _ _ =>
    (if near then (match p.launchRight m.dom with
      | none => false
      | some r => r.bits.getLsbD 47 && r.bits.getLsbD (37 + dieOf m.dst))
     else p.podAllows m.dom m.src m.dst) && p.entryAllows m.dom e
  | _ => near || p.podAllows m.dom m.src m.dst

/-- The answer to a launch message is recorded (R287, R349). -/
def State.answerLaunch (s : State) (m : Msg) (v : Nat) : State :=
  s.updPkg (pkgOf m.dst) fun p => { p with answers := p.answers ++ [(m.src, BitVec.ofNat 32 v)] }

/-- A message is served at its destination core (R183 to R186, R199, R287). -/
def State.serve (s : State) (m : Msg) : State :=
  match m.payload with
  | .queue q es resv => s.arriveQueue ⟨m.src, m.dst, q, m.dom, es, resv, false⟩
  | .callat st peg n g =>
    let (s, v) := s.deposit m.dst m.dom st.val peg
    s.returnStatus m.dst m.src n g v
  | .spawn r =>
    let (s, v) := s.serveSpawn m.dst r.tenant r.entry r.bound r.prio r.peg
    s.returnStatus m.dst r.core r.slot r.gen v
  | .command x back =>
    let (s, v) := s.serveCommand m.src m.dst m.dom x
    match back with
    | some (n, g) => s.returnStatus m.dst m.src n g v
    | none => s
  | .launch e q peg =>
    let (s, v, _) := s.launch m.dom m.dst e q peg
    s.answerLaunch m v
  | .status n g v => s.answerStatus m.dst n g v
  | .unknown _ _ _ => s.updPkg (pkgOf m.dst) fun p => { p with errors := p.errors + 1 }

/-- A message that fails a check of R343: the refusal of its kind. -/
def State.refuse (s : State) (m : Msg) : State :=
  match m.payload with
  | .queue q _ resv => (s.unreserve m.dst q resv).updPkg (pkgOf m.dst) fun p => { p with refusals := p.refusals + 1 }
  | .callat _ _ n g => s.returnStatus m.dst m.src n g 3
  | .spawn r => s.returnStatus m.dst r.core r.slot r.gen 0x80000003
  | .command _ (some (n, g)) => s.returnStatus m.dst m.src n g 0x80000001
  | .command _ none => s
  | .launch _ _ _ => s.answerLaunch m 5
  | .status _ _ _ | .unknown _ _ _ => s

/-- Whether the die of a request's destination has another incarnation than the request names (R336). Only requests are
dropped for it: a queue entry is delivered once (R245; DEDUCED, entry 74). -/
def State.stale (s : State) (m : Msg) : Bool :=
  m.payload.asks && m.dinc != (s.pkg (pkgOf m.dst)).mapInc false (dieOf m.dst)

/-- A message enters its destination's package: a stale request is dropped and its sender stamps it anew; otherwise it is
refused, held at the die's hub port, or served (R336, R337, R343, R364). -/
def State.arrival (s : State) (m : Msg) : State :=
  if s.stale m then { s with fabric := { m with dinc := (s.pkg (pkgOf m.dst)).mapInc false (dieOf m.dst) } :: s.fabric }
  else if !s.admitted m then (s.refuse m).countArrived m
  else if s.scribeHolds m.src m.dst || s.heldBehind m.src m.dst then
    s.updPkg (pkgOf m.dst) fun p => { p with scribeHeld := p.scribeHeld ++ [m] }
  else (s.serve m).countArrived m

/-- Whether a message travels on the message channel (R323). -/
def Msg.onMessage (m : Msg) : Bool :=
  match m.payload with
  | .status _ _ _ => false
  | _ => true

/-- Whether a message asks for a start: a `SPAWN` request or a launch (R280). -/
def Payload.starts : Payload → Bool
  | .spawn _ | .launch _ _ _ => true
  | _ => false

/-- An `MCMD` command. -/
def Payload.isCommand : Payload → Bool
  | .command _ _ => true
  | _ => false

/-- The first message under way for a core that a predicate picks, with no earlier message of its triple, not held at a
partition's edge or behind a link, and, where it asks for a start, with no start that comes first; a command whose sender
has one in the port waits (R227, R280, R301, R308). -/
def State.nextMsg (s : State) (c : Nat) (pick : Payload → Bool) : Option Msg :=
  (s.fabric.find? fun m => m.dst == c && m.onMessage && !s.edgeHolds m.src m.dst && s.carries m.src m.dst 2 &&
    (s.fabric.find? (fun x => x.onMessage && x.src == m.src && x.dst == c) == some m) && pick m.payload &&
    !(m.payload.starts && s.startsFirst c) && !(m.payload.isCommand && s.portBusy m.src c))

/-- The next message of a kind arrives at a core. -/
def State.takeMsg (s : State) (c : Nat) (pick : Payload → Bool) : State :=
  match s.nextMsg c pick with
  | none => s
  | some m => ({ s with fabric := s.fabric.erase m }).arrival m

/-- A `SPAWN` request. -/
def Payload.isSpawn : Payload → Bool
  | .spawn _ => true
  | _ => false

/-- A `CALLAT` peg. -/
def Payload.isCallat : Payload → Bool
  | .callat _ _ _ _ => true
  | _ => false

/-- A launch message. -/
def Payload.isLaunch : Payload → Bool
  | .launch _ _ _ => true
  | _ => false

/-- Entries for a queue, or a message that no destination knows. -/
def Payload.isQueue (q : Nat) : Payload → Bool
  | .queue n _ _ => n == q
  | .unknown _ _ _ => true
  | _ => false

/-- `SPAWN_REQUEST` (R185, R280, R343). -/
def execSpawnRequest (core : Nat) (s : State) : Out := .next (s.takeMsg core Payload.isSpawn)

/-- `CALLAT_DEPOSIT` (R186, R284, R343). -/
def execCallatDeposit (core : Nat) (s : State) : Out := .next (s.takeMsg core Payload.isCallat)

/-- `MCMD_COMMAND`: a command arrives, or, where none does, the first accepted command that waits goes on (R199,
R308). -/
def execMcmdCommand (core : Nat) (s : State) : Out :=
  .next (match (s.core core).nextHeld with
    | some (h, m) => (s.updMatrix core fun _ => m).runCommand core h.cmd h.job
    | none => s.takeMsg core Payload.isCommand)

/-- `QUEUE_ARRIVAL` (R183, R277, R343). -/
def execQueueArrival (core : Nat) (q : Fin 8) (s : State) : Out :=
  .next (if q.val = 6 then s else s.takeMsg core (Payload.isQueue q.val))

/-- `RETURN_ARRIVAL` (R184). -/
def execReturnArrival (core : Nat) (s : State) : Out := .next (s.takeMsg core (Payload.isQueue 6))

/-- `LAUNCH_MESSAGE`: a launch message that an agent sends, or one that waited, arrives; it waits while another start comes
first, and without a route it is dropped and counted (R280, R287, R341, R343). -/
def execLaunchMessage (src ten core : Nat) (entry : BitVec 32) (queue : Nat) (peg : BitVec 128) (s : State) : Out :=
  .next (match s.nextMsg core Payload.isLaunch with
    | some m => ({ s with fabric := s.fabric.erase m }).arrival m
    | none =>
      if !s.goodName core || 6 < queue || s.podSize ≤ senderPkg src then s
      else
        let m : Msg := { s.message src core ten (.launch entry (BitVec.ofNat 3 queue) peg) with col := false }
        if !s.routed (senderPkg src) (pkgOf core) then
          s.updPkg (senderPkg src) fun p => { p with errors := p.errors + 1 }
        else if s.edgeHolds src core || s.behind src core || !s.carries src core 2 || s.startsFirst core then
          { s with fabric := s.fabric ++ [m] }
        else s.arrival m)

/-- The delivery held for a die that proceeds next: the oldest that no earlier one of its triple, no start that comes first
and no command of its sender in the port holds back (R227, R280, R308, R364). -/
def State.nextHeldFor (s : State) (pkg die : Nat) : Option Msg :=
  let l := (s.pkg pkg).scribeHeld
  l.find? fun m => dieOf m.dst == die && (l.find? (fun x => x.src == m.src && x.dst == m.dst) == some m) &&
    !(m.payload.starts && s.startsFirst m.dst) && !(m.payload.isCommand && s.portBusy m.src m.dst)

/-- `SCRIBE_HOLD_RELEASE`: the oldest delivery held for a die proceeds once its log has room (R364). -/
def execScribeHoldRelease (pkg die : Nat) (s : State) : Out :=
  .next (match s.nextHeldFor pkg die with
    | none => s
    | some m =>
      if s.scribeHolds m.src m.dst then s
      else ((s.updPkg pkg fun p => { p with scribeHeld := p.scribeHeld.erase m }).serve m).countArrived m)

/-! ### Parked messages (R329) -/

/-- The parked message of a core and queue that is delivered next: the oldest of its triple, and it finds space. -/
def State.parkedNext (s : State) (c q : Nat) : Option Parked :=
  let p := s.pkg (pkgOf c)
  p.parked.find? fun m => m.core == c && m.q == q &&
    (p.parked.find? (fun x => x.src == m.src && x.core == c) == some m) &&
    ((s.core c).queue q).admits m.entries.length m.resv

/-- `PARKED_DELIVERY`: one message is delivered; the others of its triple take their turn behind those of other triples
(R329). A stopped core's routers keep theirs until its image has been written back (R301, R303). -/
def execParkedDelivery (core : Nat) (q : Fin 8) (s : State) : Out :=
  .next (if (s.core core).stopped && !s.restored core then s
    else match s.parkedNext core q.val with
    | none => s
    | some m =>
      let s := s.updPkg (pkgOf core) fun p =>
        let l := p.parked.erase m
        { p with parked := l.filter (fun x => !(x.src == m.src && x.core == core)) ++
            l.filter (fun x => x.src == m.src && x.core == core) }
      if (s.core core).discards m.q m.dom m.entries then (s.unreserve core m.q m.resv).updCore core (·.orphan 1)
      else s.enter core m.q m.entries m.resv)

/-! ### The pool (R285) -/

/-- `POOL_RETURN`: the stage's oldest pooled peg enters the entry reserved for it; while the die's scribe log is nearly
full, or the core's image lies in its context area, it is held (R285, R304, R364). -/
def execPoolReturn (core : Nat) (stage : Fin 16) (s : State) : Out :=
  let g := (s.core core).stages[stage]
  let p := s.pkg (pkgOf core)
  .next (if g.poolResv = 0 || s.saved core || scribeLimit ≤ (p.scribe (dieOf core)).entries.length then s
    else match (p.pool g.tenant).items.find? (·.isPeg core stage) with
    | some (.peg k st e) =>
      let s := s.updPkg (pkgOf core) fun p => p.updPool g.tenant (·.erase (.peg k st e))
      let s := s.updCore core fun k => { k with stages := k.stages.set stage { g with poolResv := g.poolResv - 1 } }
      s.pushQueue core g.inq 1 e true false
    | _ => s)

/-! ### Reservations (R278) -/

/-- Whether a stage needs its standing reservation: it holds none and its input queue holds what a firing pops. -/
def Core.needsReservation (k : Core) (i : Fin 16) : Bool :=
  let g := k.stages[i]
  !k.stopped && g.bits.getLsbD 31 && g.rout != 0 && g.standing == 0 && !g.granted &&
    decide (g.pops ≤ (k.queue g.inq).entries.length)

/-- `RESERVATION_REQUEST`: the request reaches the output queue's core, which grants it once its free count allows; a
local binding holds it at once; a core whose image lies in its context area grants none (R278, R304). The exchange passes the links between the
cores, and is made only where there is a route (R323, R339, R341). -/
def execReservationRequest (core : Nat) (stage : Fin 16) (s : State) : Out :=
  let k := s.core core
  let g := k.stages[stage]
  .next (match stageOutput core g.bits with
    | none => s
    | some (oc, oq) =>
      if !k.needsReservation stage || s.saved oc || !s.carries core oc 4 || !s.routed (pkgOf core) (pkgOf oc) || ((s.core oc).queue oq).free < g.rout then s
      else
        let s := s.updCore oc fun k => k.setQueue oq { k.queue oq with reserved := (k.queue oq).reserved + g.rout }
        let h := if g.bits.extractLsb' 16 2 = 2 then { g with standing := g.rout } else { g with granted := true }
        s.updCore core fun k => { k with stages := k.stages.set stage h })

/-- `RESERVATION_GRANT`: the grant reaches the requesting core (R278). -/
def execReservationGrant (core : Nat) (stage : Fin 16) (s : State) : Out :=
  let g := (s.core core).stages[stage]
  let from_ := ((stageOutput core g.bits).map (·.1)).getD core
  .next (if !g.granted || s.saved core || !s.carries from_ core 4 then s
    else s.updCore core fun k =>
      { k with stages := k.stages.set stage { g with granted := false, standing := g.rout } })

/-! ### Threads that wake -/

/-- Whether a queue holds an entry that a read port of a thread can pop (R31, R363). -/
def State.portHas (s : State) (c : Nat) (n : Fin 8) (p : Port) : Bool :=
  let t := s.slot c n
  let q := t.portQueue p
  t.replay.any (·.1 == q) ||
    (if q = 6 then ((s.core t.home).queue 6).entries.any (tagged · n t.gen)
     else !((s.core t.home).queue q).entries.isEmpty)

/-- `PORT_WAKE`: a thread blocked on a read port issues again once its queue holds an entry (R31). -/
def execPortWake (core : Nat) (slot : Fin 8) (s : State) : Out :=
  let t := s.slot core slot
  .next (match t.wait with
    | .port p =>
      if p = .qdn || (s.core core).stopped || !s.portHas core slot p then s else s.setSlot core slot t.unblock
    | _ => s)

/-- `CHAIN_PUSH_ACCEPT`: a held `qdn` push enters the downstream queue once it has room; its thread goes on (R31). -/
def execChainPushAccept (core : Nat) (slot : Fin 8) (s : State) : Out :=
  .next (if (s.slot core slot).wait ≠ .port .qdn || (s.core core).stopped then s
    else s.as core slot fun s => (s.updMe Slot.unblock).pushDown)

/-- `TWAIT_WAKE`: a sleeper wakes once its package's counter reaches its time, with no new check (R123, R303). -/
def execTwaitWake (core : Nat) (slot : Fin 8) (s : State) : Out :=
  let t := s.slot core slot
  .next (match t.wait with
    | .deadline d =>
      if (s.core core).stopped || (s.pkg (pkgOf core)).ptc.toNat < d then s
      else s.setSlot core slot { t.unblock with regs := t.regs.advance 4 }
    | _ => s)

/-- The package whose control die counts a barrier's arrivals: the instance's own, and for the pod, which the spec does not
say, the lowest that is not declared lost (DESIGN CHOICE, entry 94). -/
def State.barrierHub (s : State) (level c : Nat) : Nat :=
  if level ≤ 4 then pkgOf c else ((List.range s.podSize).find? fun p => !(s.pkg p).failed).getD 0

/-- `BARRIER_SIGNAL`: the first arrival on its way whose links serve reaches its instance; one without a route is dropped and
counted (R178, R323, R325, R339, R341). -/
def execBarrierSignal (ten level inst : Nat) (s : State) : Out :=
  let b := s.barrier ten level inst
  .next (match b.signals.find? fun c => s.carries c (controlAgent (s.barrierHub level c)) 4 with
    | none => s
    | some c =>
      let s' := s.setBarrier { b with signals := b.signals.erase c }
      if s.routed (pkgOf c) (s.barrierHub level c) then s'.arriveAt ten level inst c
      else s'.updPkg (pkgOf c) fun p => { p with errors := p.errors + 1 })

/-- `LOSING_RIVAL_KILL`: a READY rival of a decided world is killed at its next issue (R218). -/
def execLosingRivalKill (core : Nat) (slot : Fin 8) (s : State) : Out :=
  let t := s.slot core slot
  .next (if t.state = .ready && !(s.core core).stopped && s.loser t then s.killThread core slot else s)

end Sys2Proof.Machine
end

