-- ==== Sys2Proof/Machine/Home.lean ====
section
/-!
DEFINITION. What the home of an access does for a thread that waits in MEMORY (R159, R222, R225), its reply (R159,
R336), and fills of the lookaside buffer, the translation caches and L2 (R255, R267, R269).
-/

namespace Sys2Proof.Machine

/-- How the home acts for an instruction (R225, R235, R263). -/
inductive HomeAction where
  | read | write | rmw | compare | block
  deriving DecidableEq, Repr

/-- The memory instructions whose access may wait for its home, with their meanings. -/
def homeMeaning : Instr → Option (HomeAction × (State → Out))
  | .ld d a c ord ty scope => some (.read, execLd d a c ord ty scope)
  | .ldImm d c ty imm => some (.read, execLdImm d c ty imm)
  | .ldShort a c j => some (.read, execLdShort a c j)
  | .vld d a c k ty => some (.read, execVld d a c k ty)
  | .vldImm d c ty imm => some (.read, execVldImm d c ty imm)
  | .vlds d a c k ty e => some (.read, execVlds d a c k ty e)
  | .vgath d a c k ty => some (.read, execVgath d a c k ty)
  | .ldc d a c ord scope => some (.read, execLdc d a c ord scope)
  | .fill d a c cls => some (.read, execFill d a c cls)
  | .mldb a b c ty => some (.read, execMldb a b c ty)
  | .mtbl a c ty => some (.read, execMtbl a c ty)
  | .dopen d a scope => some (.read, execDopen d a scope)
  | .st d a c ord ty scope => some (.write, execSt d a c ord ty scope)
  | .stImm d c ty imm => some (.write, execStImm d c ty imm)
  | .stShort a c j => some (.write, execStShort a c j)
  | .fst d a c ord ty scope => some (.write, execFst d a c ord ty scope)
  | .fstImm d c ty imm => some (.write, execFstImm d c ty imm)
  | .vst d a c k ty => some (.write, execVst d a c k ty)
  | .vstImm d c ty imm => some (.write, execVstImm d c ty imm)
  | .vscat d a c k ty => some (.write, execVscat d a c k ty)
  | .stc d a c ord scope => some (.write, execStc d a c ord scope)
  | .spill d a c cls => some (.write, execSpill d a c cls)
  | .mma d a acc c ty => some (.write, execMma d a acc c ty)
  | .mstacc a acc c ty => some (.write, execMstacc a acc c ty)
  | .aadd d a b c ord scope w => some (.rmw, execAadd d a b c ord scope w)
  | .aand d a b c ord scope w => some (.rmw, execAand d a b c ord scope w)
  | .aor d a b c ord scope w => some (.rmw, execAor d a b c ord scope w)
  | .axor d a b c ord scope w => some (.rmw, execAxor d a b c ord scope w)
  | .aswap d a b c ord scope w => some (.rmw, execAswap d a b c ord scope w)
  | .acas d a b c ord scope w => some (.rmw, execAcas d a b c ord scope w)
  | .aminSigned d a b c ord scope w => some (.rmw, execAminSigned d a b c ord scope w)
  | .aminUnsigned d a b c ord scope w => some (.rmw, execAminUnsigned d a b c ord scope w)
  | .amaxSigned d a b c ord scope w => some (.rmw, execAmaxSigned d a b c ord scope w)
  | .amaxUnsigned d a b c ord scope w => some (.rmw, execAmaxUnsigned d a b c ord scope w)
  | .afadd d a b c ord scope w => some (.rmw, execAfadd d a b c ord scope w)
  | .waitne d a b c ord scope w => some (.compare, execWaitne d a b c ord scope w)
  | .mxacc d a b c ty src => some (.block, execMxacc d a b c ty src)
  | .mxld d a b c ty => some (.block, execMxld d a b c ty)
  | .mxst d a b c ty => some (.block, execMxst d a b c ty)
  | .mxnorm a c ty => some (.block, execMxnorm a c ty)
  | .mxres d a b c ty => some (.block, execMxres d a b c ty)
  | _ => none

/-- The capability register and offset of a waiting instruction's first access. -/
def Regs.heldAccess (r : Regs) : Instr → Option (BitVec 3 × Int)
  | .ld _ a c _ _ _ => some (c, r.offset a)
  | .ldImm _ c ty imm => some (c, immOffset imm (tyBytes ty))
  | .ldShort _ c j => some (c, 4 * (j.toNat : Int))
  | .vld _ a c _ _ => some (c, r.offset a)
  | .vldImm _ c _ imm => some (c, immOffset imm 32)
  | .vlds _ a c _ _ _ => some (c, r.offset a)
  | .vgath _ a c _ ty => some (c, r.index ty a 0)
  | .ldc _ a c _ _ => some (c, r.offset a)
  | .fill _ a c _ => some (c, r.offset a)
  | .mldb a _ c _ => some (c, r.offset a)
  | .mtbl a c _ => some (c, r.offset a)
  | .dopen _ a _ => some ((r.ext 0).extractLsb' 0 3, r.offset a)
  | .st _ a c _ _ _ => some (c, r.offset a)
  | .stImm _ c ty imm => some (c, immOffset imm (tyBytes ty))
  | .stShort _ c j => some (c, 4 * (j.toNat : Int))
  | .fst _ a c _ _ _ => some (c, r.offset a)
  | .fstImm _ c ty imm => some (c, immOffset imm (tyBytes ty))
  | .vst _ a c _ _ => some (c, r.offset a)
  | .vstImm _ c _ imm => some (c, immOffset imm 32)
  | .vscat _ a c _ ty => some (c, r.index ty a 0)
  | .stc _ a c _ _ => some (c, r.offset a)
  | .spill _ a c _ => some (c, r.offset a)
  | .mma _ a _ c _ => some (c, r.offset a)
  | .mstacc a _ c _ => some (c, r.offset a)
  | .aadd _ a _ c _ _ _ => some (c, r.offset a)
  | .aand _ a _ c _ _ _ => some (c, r.offset a)
  | .aor _ a _ c _ _ _ => some (c, r.offset a)
  | .axor _ a _ c _ _ _ => some (c, r.offset a)
  | .aswap _ a _ c _ _ _ => some (c, r.offset a)
  | .acas _ a _ c _ _ _ => some (c, r.offset a)
  | .aminSigned _ a _ c _ _ _ => some (c, r.offset a)
  | .aminUnsigned _ a _ c _ _ _ => some (c, r.offset a)
  | .amaxSigned _ a _ c _ _ _ => some (c, r.offset a)
  | .amaxUnsigned _ a _ c _ _ _ => some (c, r.offset a)
  | .afadd _ a _ c _ _ _ => some (c, r.offset a)
  | .waitne _ a _ c _ _ _ => some (c, r.offset a)
  | .mxacc _ a _ c _ _ => some (c, r.offset a)
  | .mxld _ a _ c _ => some (c, r.offset a)
  | .mxst _ a _ c _ => some (c, r.offset a)
  | .mxnorm a c _ => some (c, r.offset a)
  | .mxres _ a _ c _ => some (c, r.offset a)
  | _ => none

/-- The die that answers a thread's access: package, base or core die, memory position or logical die, and slice (R250,
R256, R335). -/
def State.responder (s : State) (c : Nat) (n : Fin 8) (i : Instr) : Nat × Bool × Nat × Nat :=
  let t := s.slot c n
  match t.regs.heldAccess i with
  | none => (pkgOf c, false, dieOf c, 0)
  | some (cr, off) =>
    let x := placeOf t.home (t.regs.cap cr) off
    if x.space = spGLOBAL then (homePkg x.addr, true, homePos x.addr, homeSlice x.addr)
    else (pkgOf x.core, false, dieOf x.core, 0)

/-- A waiting instruction carried out: the result of its meaning on the unblocked thread, whose request left when it was
first issued (R258). -/
def State.carryOut (s : State) (c : Nat) (n : Fin 8) (f : State → Out) : State :=
  s.as c n fun s => match f (s.updMe fun t => { t.unblock with asked := t.asked }) with
    | .next s' => (s'.updMe fun t => if t.wait = .request || t.wait = .monitor then t else { t with asked := none }).recoverLocal s c n
    | _ => s

/-- Whether an instruction has changed nothing of its thread but registers, and pushed nothing. -/
def onlyRegs (before after : Slot) : Bool :=
  after == { before.unblock with regs := after.regs } && after.regs.qdn == before.regs.qdn

/-- The HOST address that a waiting thread's access names, if it names one (R350). -/
def State.heldHost (s : State) (c : Nat) (n : Fin 8) (i : Instr) : Option Nat :=
  let t := s.slot c n
  (t.regs.heldAccess i).bind fun x =>
    let y := placeOf t.home (t.regs.cap x.1) x.2
    if y.space = spHOST then some y.addr else none

/-- The HOST reads of a package's threads that are outstanding when the host function is reset: their completions do not
arrive (R350, R352). -/
def State.loseReads (s : State) (pkg : Nat) : State :=
  (s.cores.filter fun k => pkgOf k.1 == pkg).foldl (fun s k => (List.finRange 8).foldl (fun s n =>
    let t := s.slot k.1 n
    match t.wait, t.held, t.reply with
    | .request, some i, none =>
      if (s.heldHost k.1 n i).isSome then s.updSlot k.1 n fun t => { t with gone := true } else s
    | _, _, _ => s) s) s

/-- The home performs the access of a waiting thread (R225): its reply is on its way, or the thread's fault, wait or
other effect stands. -/
def State.atHome (s : State) (c : Nat) (n : Fin 8) (ok : HomeAction → Instr → Bool) : State :=
  let t := s.slot c n
  match t.wait, t.held, t.reply with
  | .request, some i, none => match homeMeaning i with
    | none => s
    | some (k, f) =>
      if !ok k i || t.gone then s
      else
        let s' := s.carryOut c n f
        let u := s'.slot c n
        if onlyRegs t u then
          let (p, b, d, z) := s.responder c n i
          s'.setSlot c n { t with reply := some ⟨u.regs, p, b, d, z, (s.pkg p).mapInc b d⟩ }
        else s'
  | _, _, _ => s

/-- `HOME_READ` (R224, R225). -/
def execHomeRead (core : Nat) (slot : Fin 8) (s : State) : Out := .next (s.atHome core slot fun k _ => k == .read)

/-- `HOME_WRITE` (R225). -/
def execHomeWrite (core : Nat) (slot : Fin 8) (s : State) : Out := .next (s.atHome core slot fun k _ => k == .write)

/-- `HOME_RMW` (R225, R235). -/
def execHomeRmw (core : Nat) (slot : Fin 8) (s : State) : Out := .next (s.atHome core slot fun k _ => k == .rmw)

/-- `BLOCK_ACTION` (R235, R263). -/
def execBlockAction (core : Nat) (slot : Fin 8) (s : State) : Out := .next (s.atHome core slot fun k _ => k == .block)

/-- Whether a read is plain: it carries no acquire (R224). -/
def plainRead : Instr → Bool
  | .ld _ _ _ ord _ _ => ord != 1
  | .ldc _ _ _ ord _ => ord != 1
  | _ => true

/-- `PROXY_READ`: a plain read of a remote line reaches the proxy slice, which answers it or sends it home (R224,
R258; entry 21). -/
def execProxyRead (core : Nat) (slot : Fin 8) (s : State) : Out :=
  .next (s.atHome core slot fun k i => k == .read && plainRead i)

/-- `WAITNE_COMPARE`: the home compares and arms the monitor as one action (R177). -/
def execWaitneCompare (core : Nat) (slot : Fin 8) (s : State) : Out :=
  let t := s.slot core slot
  .next (match t.wait, t.held with
    | .request, some i => match homeMeaning i with
      | some (.compare, f) => if (s.core core).stopped then s else s.carryOut core slot f
      | _ => s
    | _, _ => s)

/-- `WAITNE_RETRY`: a `WAITNE` that found the monitor table full repeats its compare (R177). -/
def execWaitneRetry (core : Nat) (slot : Fin 8) (s : State) : Out :=
  let t := s.slot core slot
  .next (match t.wait, t.held with
    | .monitorRetry, some i => match homeMeaning i with
      | some (.compare, f) => if (s.core core).stopped then s else s.carryOut core slot f
      | _ => s
    | _, _ => s)

/-- The status message on its way to a slot, once every link of its route carries it (R339). -/
def State.statusFor (s : State) (c : Nat) (n : Fin 8) : Option Msg :=
  s.fabric.find? fun m => m.dst == c && s.carries m.src c 1 && match m.payload with
    | .status k _ _ => k == n
    | _ => false

/-- The links by which the slice of a memory position answers a core: those of a slice of its package, and, for a remote line,
those between the home and the proxy slice; a slice of the core's own stack answers over the mesh (R258, R325, R338). -/
def State.replyLinks (s : State) (c : Nat) (r : Reply) : List Link :=
  let own := pkgOf c
  let at_ (p : Nat) : Nat := sliceAgent p ((s.pkg p).baseDie r.index) r.slice
  let m (p src dst : Nat) : List Link := [.module p ((s.pkg p).baseDie r.index) (Config.moduleOf src dst 1 % 16)]
  (if r.pkg = own then []
    else m r.pkg (at_ r.pkg) (at_ own) ++ (s.pkg r.pkg).portLink r.pkg own ++ m own (at_ r.pkg) (at_ own)) ++
  (if (s.pkg own).baseDie r.index = (s.pkg own).coreDie (dieOf c) then []
    else m own (at_ own) c ++ s.moduleLink c (at_ own) c 1)

/-- Whether every link between a responder and a core carries the reply channel (R325, R339). -/
def State.replyCarried (s : State) (c : Nat) (r : Reply) : Bool :=
  if r.base then (s.replyLinks c r).all (s.serves 1)
  else s.carries (r.pkg * 2 ^ 15 + r.index * 2 ^ 12) c 1

/-- A request or its status is lost: the instruction that waits for the status issues again (R299, R361; entry 76). -/
def State.askAgain (s : State) (c : Nat) (n : Fin 8) (gen : BitVec 8) : State :=
  s.updSlot c n fun t => if t.gen = gen && t.wait == .status then t.unblock else t

/-- Whether a status carries another incarnation than the map holds for its responder's die (R336). -/
def State.late (s : State) (m : Msg) : Bool :=
  decide (m.src < 2 ^ 26) && m.sinc != (s.pkg (pkgOf m.src)).mapInc false (dieOf m.src)

/-- A status reaches its receiver's edge: a late one is dropped, and the instruction that waits for it issues again (R336,
R337). -/
def State.takeStatus (s : State) (m : Msg) : State :=
  let s := { s with fabric := s.fabric.erase m }
  if !s.late m then s.serve m
  else match m.payload with
    | .status n g _ => s.askAgain m.dst n g
    | _ => s

/-- `MEMORY_REPLY`: a reply reaches its thread; a stale incarnation is dropped, and the request issues again (R159, R336,
R337). A status of `SPAWN`, `CALLAT` or `MCMD` arrives in the same way. -/
def execMemoryReply (core : Nat) (slot : Fin 8) (s : State) : Out :=
  let t := s.slot core slot
  .next (match t.reply with
    | some r =>
      if !s.replyCarried core r then s
      else if (s.pkg r.pkg).mapInc r.base r.index ≠ r.inc then s.setSlot core slot { t with reply := none }
      else s.setSlot core slot { t.unblock with regs := r.regs }
    | none => match s.statusFor core slot with
      | some m => s.takeStatus m
      | none => s)

/-! ### Fills -/

/-- `PLB_FILL` (R267). -/
def execPlbFill (core dom region : Nat) (host : Bool) (s : State) : Out :=
  .next (if ((s.core core).plbFind dom region host).isSome then s else s.plbFill core dom region host)

/-- `TRANSLATION_WALK`: a walk that ends in a leaf leaves the page in the translation cache (R269, R270). -/
def execTranslationWalk (addr : Nat) (s : State) : Out :=
  .next (match s.translate addr with
    | .ok s => s
    | .error _ => s)

/-- `L2_FILL`: a line fill completes at the line's home (R255, R259). -/
def execL2Fill (addr : Nat) (s : State) : Out :=
  let p := s.pkg (homePkg addr)
  .next (if s.podSize ≤ homePkg addr || p.rebuild.contains (lineOf addr) then s
    else match s.translate addr with
    | .ok s => s.l2Fill (lineOf addr)
    | .error _ => s)

end Sys2Proof.Machine
end

