-- ==== Sys2Proof/Machine/Engines.lean ====
section
/-!
DEFINITION. Events of the matrix units (R193 to R197, R305 to R310) and of the copy engines (R203 to R207, R311 to
R315, R392).
-/

namespace Sys2Proof.Machine

/-! ### Matrix jobs -/

/-- `MMA_JOB_START`: the job at the head of the queue binds the front FULL buffer (R193, R305). -/
def execMmaJobStart (core : Nat) (s : State) : Out :=
  let m := (s.core core).matrix
  .next (match m.jobs, m.latch with
    | j :: rest, b :: _ =>
      if j.started then s
      else s.updMatrix core fun m => { m with jobs := { j with started := true, front := some b } :: rest }
    | _, _ => s)

/-- Whether a word of local memory within a range is poisoned (R357). -/
def Core.poisoned (k : Core) (a n : Nat) : Bool := (granules a n).any k.lpoison.contains

/-- The status of a job that has run (R193, R195, R306, R310). -/
def Core.jobStatus (k : Core) (j : Job) (error : JobError) : BitVec 8 :=
  match j.bind, j.front with
  | some a, some b =>
    if a.type ≠ j.type || b.type ≠ j.type then 0x02
    else if b.split then 0x03
    else if error = .array || error = .accumulator || j.failed || k.matrix.parityError j.type j.acc ||
        k.matrix.isBad j.type j.acc || k.poisoned a.panel panelBytes ||
        (isScaled j.type && k.poisoned a.scales (scaleBytes j.type)) then 0x04
    else 0x01
  | _, _ => 0x02

/-- The unit after a job of a status: the accumulator commits on 0x01; an accumulator parity error marks it bad, and both
accumulators of an `.f64` job; a flip after the commit stays until the next read (R309); a failed check fails the next
job that names the accumulator; the entry leaves the queue (R193, R305, R306, R310). -/
def Core.afterJob (k : Core) (j : Job) (error : JobError) (st : BitVec 8) : Matrix :=
  let m := k.matrix
  let m := match j.bind, j.front with
    | some a, some b =>
      if st = 0x01 then
        m.multiply j.type j.acc (k.loc.readN a.panel panelBytes) (k.loc.readN a.scales (scaleBytes j.type)) b
      else m
    | _, _ => m
  let all (l : Vector Bool 4) : Vector Bool 4 := (accsOf j.type j.acc).foldl (fun l a => l.set a.toFin true) l
  let m := if st = 0x04 && error = .accumulator then { m with bad := all m.bad } else m
  let m := if st = 0x04 then m.markBad j.type j.acc else if error = .latent then { m with flipped := all m.flipped } else m
  let rest := m.jobs.drop 1
  { m with jobs := if st ≠ 0x04 then rest
      else match rest with
        | [] => []
        | x :: l =>
          (if (accsOf x.type x.acc).any (accsOf j.type j.acc).contains then { x with failed := true } else x) :: l }

/-- The completion word (R195). -/
def completionWord (j : Job) (m : Matrix) (st : BitVec 8) : Word := j.id ++ 0#6 ++ m.kinds j.type j.acc ++ st

/-- The sleepers in `MWAIT` for a job complete; they acquire at `.pod` (R197). -/
def State.wakeJob (s : State) (c : Nat) (id : BitVec 16) : State :=
  (List.finRange 8).foldl (fun s n =>
    if (s.slot c n).wait = .job id then
      s.as c n fun s => (s.acquire 5).updMe fun t =>
        { t.unblock with regs := (t.regs.consume (laterSources t.held)).advance 4 }
    else s) s

/-- A completion word written at its mailbox's home, in the view it has by now; discarded with a discarded view; none
while the home cannot perform it (R195, R200). -/
def State.postWord (s : State) (c : Nat) (j : Job) (w : Word) : Option State :=
  let p := s.pkg (pkgOf c)
  match (if j.space = spGLOBAL then p.heirView (p.views.length + 1) (j.views.headD 0) else some 0) with
  | none => some s
  | some v => s.engineWrite c j.space j.core j.mbox v (leBytes 4 w.toNat) none

/-- A detected error of a job of a local thread rolls back the innermost domain open at its issue that is still open
(R310). -/
def State.jobError (s : State) (c : Nat) (j : Job) : State :=
  let unit := s.coreUnit c
  match j.slot with
  | none => s.report (pkgOf c) unit false false
  | some n =>
    let t := s.slot c n
    match if t.gen = j.gen then t.openAmong j.domains else none with
    | none => s.report (pkgOf c) unit false false
    | some k => (s.report (pkgOf c) unit false (t.retriedFor k unit)).retryFor c n k (some unit)

/-- `MMA_JOB_COMPLETE`: the running job multiplies, checks, commits and posts its completion word (R193 to R197, R305,
R309, R310). -/
def execMmaJobComplete (core : Nat) (error : JobError) (s : State) : Out :=
  let k := s.core core
  .next (match k.matrix.jobs with
    | [] => s
    | j :: _ =>
      if !j.started then s
      else
        let st := k.jobStatus j error
        let m := k.afterJob j error st
        match (s.updMatrix core fun _ => m).postWord core j (completionWord j m st) with
        | none => s
        | some s =>
          let s := s.wakeJob core j.id
          if st = 0x04 then s.jobError core j else s)

/-- The core whose ring passes panels to a core (R196). -/
def prevInQuad (c : Nat) : Nat := c / 4 * 4 + (c + 3) % 4

/-- `MPASS_PANEL_ARRIVAL`: a thread that waits in `MPASS` passes its core's front into an EMPTY buffer (R196). -/
def execMpassPanelArrival (core : Nat) (s : State) : Out :=
  let src := prevInQuad core
  .next (match (List.finRange 8).find? (fun n => (s.slot src n).wait == .panel) with
    | none => s
    | some n =>
      let ten := (s.slot src n).tenant
      if !s.passGoes src core ten then s
      else (s.passFront src core ten).updSlot src n fun t => { t.unblock with regs := t.regs.advance 4 })

/-! ### Copies: places -/

/-- The pieces of a range of a copy that lie within one line each: offset from the range's start, length. `fuel` bounds
their number. -/
def linePieces (c : Cap) (off : Int) (k : Nat) : Nat → Nat → List (Nat × Nat)
  | 0, _ => []
  | fuel + 1, n =>
    if n = 0 then []
    else
      let a := (((c.base : Int) + off + k) % 2 ^ 64).toNat
      let m := min n (128 - a % 128)
      (k, m) :: linePieces c off (k + m) fuel (n - m)

/-- A piece of a copy's source read at its home, which refreshes the package's read copies (R258, R312). -/
def State.readPiece (s : State) (core : Nat) (x : Target) (n : Nat) : Except Miss (List Byte × State) :=
  let own := pkgOf core
  if x.space = spGLOBAL then do
    let s ← s.checkRights core x n pRD
    let s ← s.reachAll own core x.addr (linesOf x.addr n)
    s.poisonAll own [] (linesOf x.addr n)
    .ok (s.mem.readN x.addr n, s.refreshLines own (linesOf x.addr n))
  else if x.space = spHOST then do
    let s ← s.checkRights core x n pRD
    s.checkHost own core x false
    .ok ((s.pkg own).host.mem.readN x.addr n, s)
  else do
    s.checkLocal core x (granules x.addr n)
    .ok ((s.core x.core).loc.readN x.addr n, s)

/-- Pieces of a copy's source read in ascending order. -/
def State.readPiecesOf (core : Nat) (c : Cap) (off : Int) : List (Nat × Nat) → State → Except Miss (List Byte × State)
  | [], s => .ok ([], s)
  | (k, n) :: rest, s => do
    let (a, s) ← s.readPiece core (placeOf core c (off + k)) n
    let (b, s) ← State.readPiecesOf core c off rest s
    .ok (a ++ b, s)

/-- Whether the home of a piece of a copy's destination takes it: rights, translation, poison and the host port (R266,
R268, R315). -/
def State.reachPiece (s : State) (core : Nat) (x : Target) (n : Nat) : Except Miss State :=
  let own := pkgOf core
  if x.space = spGLOBAL then do
    let s ← s.checkRights core x n pWR
    let s ← s.reachAll own core x.addr (linesOf x.addr n)
    s.poisonAll own [] (linesOf x.addr n)
    .ok s
  else if x.space = spHOST then do
    let s ← s.checkRights core x n pWR
    s.checkHost own core x true
    .ok s
  else do
    s.checkLocal core x []
    .ok s

/-- Pieces of a copy's destination reached in ascending order. -/
def State.reachPieces (core : Nat) (c : Cap) (off : Int) : List (Nat × Nat) → State → Except Miss State
  | [], s => .ok s
  | (k, n) :: rest, s => do
    let s ← s.reachPiece core (placeOf core c (off + k)) n
    State.reachPieces core c off rest s

/-- A piece of a copy written at its home; the tags of its granules clear (R163, R203, R225). -/
def State.writePiece (s : State) (core : Nat) (id : BitVec 16) (x : Target) (bytes : List Byte) : State :=
  let own := pkgOf core
  if x.space = spGLOBAL then
    (s.putGlobal x.addr bytes (some (core, id))).refreshLines own (linesOf x.addr bytes.length)
  else if x.space = spHOST then s.putHost own x.addr bytes (some (core, id))
  else s.putLocal x.core x.addr bytes (some (core, id))

/-- The offset within a copy's source range of the byte at a place, if it lies there (R203). -/
def Copy.sourceOffset (x : Copy) (core : Nat) (y : Target) : Option Nat :=
  let a0 := placeOf core x.desc.src x.desc.soff.toInt
  let at_ : Nat := if x.desc.src.space = spWINDOW then y.core * 2 ^ 16 + y.addr else y.addr
  let base : Nat := if x.desc.src.space = spWINDOW then a0.va % 2 ^ 42 else a0.addr
  if (sameStore a0 y || (x.desc.src.space == spWINDOW && (y.space == spLOCAL || y.space == spWINDOW))) &&
      decide (base ≤ at_) && decide (at_ < base + x.desc.len) then some (at_ - base)
  else none

/-- A byte of storage at a place. -/
def State.byteAt (s : State) (own : Nat) (x : Target) : Byte :=
  if x.space = spGLOBAL then s.mem.read x.addr
  else if x.space = spHOST then (s.pkg own).host.mem.read x.addr
  else (s.core x.core).loc.read x.addr

/-! ### Copies: the steps of R312 -/

/-- How a copy's access at a home ends it or stalls it (R203, R205, R315): `dst` for the destination. -/
def Copy.miss (x : Copy) (off : Nat) (dst : Bool) (f : FaultInfo) : Copy :=
  let stop (st cls : BitVec 8) : Copy :=
    { x with status := st, fclass := cls, units := x.units.filter (fun u => decide (u.off < off)) }
  if f.cls = 0x04 then { x with stalled := some (off, f.addr.toNat, dst) }
  else if f.cls = 0x0F then stop 0x05 0
  else if f.cls = 0x0B then stop 0x06 0
  else stop (if dst then 0x04 else 0x03) f.cls

/-- The engine of a core: its row of the base die beneath its die (R311). -/
def engineOf (c : Nat) : Nat := c / 128

/-- The commands an engine works on (R311). -/
def State.engineLoad (s : State) (c : Nat) : Nat :=
  (s.cores.filter (fun k => engineOf k.1 == engineOf c)).foldl
    (fun n k => n + (k.2.copies.filter (fun x => x.started && !x.posted)).length) 0

/-- Whether a copy's predecessor has completed (R203). -/
def Core.predDone (k : Core) (x : Copy) : Bool :=
  match x.pred with
  | none => true
  | some id => k.copyComplete id

/-- The copies of the cores that an engine serves, with their cores (R311). -/
def State.engineCopies (s : State) (c : Nat) : List (Nat × Copy) :=
  (s.cores.filter (fun k => engineOf k.1 == engineOf c)).flatMap fun k => k.2.copies.map (k.1, ·)

/-- Entries of an engine's command queue (R311). -/
def engineQueueSize : Nat := 16

/-- Whether a copy stands in its engine's queue (R311). -/
def Copy.inQueue (x : Copy) : Bool := x.queued.isSome && !x.started && x.status == 0

/-- The copy of a core that enters its engine's queue next: the oldest that has not entered it (R311). -/
def Core.nextCopy (k : Core) : Option Copy := k.copies.find? fun x => x.queued.isNone && x.status == 0

/-- A core's next copy enters its engine's queue when that has room; until then it waits in the copy table (R311). -/
def State.enterQueue (s : State) (core : Nat) : State :=
  match (s.core core).nextCopy with
  | none => s
  | some x =>
    if engineQueueSize ≤ ((s.engineCopies core).filter (·.2.inQueue)).length then s
    else s.updCopy core x.id fun x => { x with queued := some s.ticks }

/-- The member of a list of copies for which a time is least, the first of them. -/
def leastBy (f : Copy → Nat) : List (Nat × Copy) → Option (Nat × Copy)
  | [] => none
  | x :: rest => match leastBy f rest with
    | none => some x
    | some y => if f x.2 ≤ f y.2 then some x else some y

/-- The copy that enters an engine's rotation next: of those in its queue whose predecessor has completed, the one that
came first (R311). -/
def State.nextStart (s : State) (c : Nat) : Option (Nat × Copy) :=
  leastBy (fun x => x.queued.getD 0) ((s.engineCopies c).filter fun x =>
    x.2.inQueue && !(s.core x.1).stopped && (s.core x.1).predDone x.2)

/-- Bytes of the slices that an engine takes from its commands in rotation (R311). -/
def sliceLength : Nat := 4096

/-- `COPY_START`: copies enter their engine's queue in issue order, and the first of the queue its rotation, which works
on at most four; a predecessor that it names retires (R203, R204, R311). -/
def execCopyStart (core : Nat) (id : BitVec 16) (s : State) : Out :=
  let s := s.enterQueue core
  .next (match s.nextStart core with
    | none => s
    | some (c, x) =>
      if c ≠ core || x.id ≠ id || 4 ≤ s.engineLoad core then s
      else
        let s := s.updCopy core id fun x => { x with
          started := true, pred := none, turn := s.ticks, sliceEnd := x.next + sliceLength }
        match x.pred with
        | none => s
        | some p => s.retireCopy core p)

/-- The length of the unit at an offset of a copy: units end at the 64-byte boundaries of the destination (R312). -/
def Copy.unitLen (x : Copy) (off : Nat) : Nat :=
  let a := (((x.desc.dst.base : Int) + x.desc.doff.toInt + off) % 2 ^ 64).toNat
  min (64 - a % 64) (x.desc.len - off)

/-- Whether an engine could read a new unit of a copy: the window of 16 has room, and a stopped core starts none (R312,
R315). -/
def Copy.offersUnit (x : Copy) (stopped : Bool) : Bool :=
  x.started && !x.posted && x.stalled.isNone && x.status == 0 && !stopped && decide (x.units.length < 16) &&
    decide (x.next < x.desc.len)

/-- The copy whose slice an engine works on: of those that offer a unit, the one that has waited longest (R311). -/
def State.sliceOf (s : State) (c : Nat) : Option (Nat × Copy) :=
  leastBy (·.turn) ((s.engineCopies c).filter fun x => x.2.offersUnit (s.core x.1).stopped)

/-- The unit of a copy that its engine reads next: one that must be read again, or a new one of its slice (R311, R312). -/
def State.nextRead (s : State) (core : Nat) (x : Copy) : Option (Nat × Nat) :=
  match x.units.find? (fun u => u.bytes.isEmpty) with
  | some u => some (u.off, u.len)
  | none =>
    if (s.sliceOf core).any (fun y => y.1 == core && y.2.id == x.id) then some (x.next, x.unitLen x.next) else none

/-- Bytes of a unit in a copy's table entry: the unit read again, or a new one, with which its slice may end (R311). -/
def Copy.setUnit (x : Copy) (off len : Nat) (bytes : List Byte) (now : Nat) : Copy :=
  let fresh : CopyUnit := ⟨off, len, bytes, false, false, false, 0⟩
  if x.units.any (·.off == off) then
    { x with units := x.units.map fun u => if u.off = off then { fresh with breaks := u.breaks } else u }
  else if x.sliceEnd ≤ off + len then
    { x with units := x.units ++ [fresh], next := off + len, turn := now, sliceEnd := off + len + sliceLength }
  else { x with units := x.units ++ [fresh], next := off + len }

/-- `COPY_UNIT_READ`: the engine reads a unit's source bytes at their homes, which hold the lines (R312, R315). -/
def execCopyUnitRead (core : Nat) (id : BitVec 16) (s : State) : Out :=
  let k := s.core core
  .next (match k.copy id with
    | none => s
    | some x =>
      if !x.started || x.posted || x.stalled.isSome then s
      else match s.nextRead core x with
      | none => s
      | some (off, len) =>
        match State.readPiecesOf core x.desc.src x.desc.soff.toInt (linePieces x.desc.src x.desc.soff.toInt off 66 len)
          s with
        | .ok (bytes, s) => s.updCopy core id fun x => x.setUnit off len bytes s.ticks
        | .error (.wait line) => s.updCopy core id fun x => { x with wants := line }
        | .error (.fault f) => s.updCopy core id fun x => x.miss off false f)

/-- The unit of a copy at an offset. -/
def Copy.unit (x : Copy) (off : Nat) : Option CopyUnit := x.units.find? (·.off == off)

/-- A copy with a unit changed. -/
def Copy.updUnit (x : Copy) (off : Nat) (f : CopyUnit → CopyUnit) : Copy :=
  { x with units := x.units.map fun u => if u.off = off then f u else u }

/-- Units that a slice or a local memory port stages (R312). -/
def stageBufferSize : Nat := 32

/-- The stage buffer of the home of a place: a slice's or a local memory port's; a host port has none (R312). -/
def stageBufferOf (x : Target) : Option (Bool × Nat) :=
  if x.space = spGLOBAL then some (true, (homePkg x.addr * 9 + homePos x.addr) * 128 + homeSlice x.addr)
  else if x.space = spHOST then none
  else some (false, x.core)

/-- The stage buffers that a unit of a copy takes room in. -/
def Copy.buffersOf (x : Copy) (core : Nat) (u : CopyUnit) : List (Bool × Nat) :=
  ((linePieces x.desc.dst x.desc.doff.toInt u.off 66 u.len).filterMap fun p =>
    stageBufferOf (placeOf core x.desc.dst (x.desc.doff.toInt + p.1))).eraseDups

/-- Whether a unit holds room in its stage buffers: it is staged, or has been and will be again (R312). -/
def CopyUnit.holdsRoom (u : CopyUnit) : Bool := u.staged || decide (0 < u.breaks)

/-- Units that hold room in a stage buffer (R312). -/
def State.stagedIn (s : State) (b : Bool × Nat) : Nat :=
  (s.cores.flatMap fun k => k.2.copies.flatMap fun x =>
    x.units.filter fun u => u.holdsRoom && (x.buffersOf k.1 u).contains b).length

/-- Whether the destination homes of a unit have room for it (R312). -/
def State.stageRoom (s : State) (core : Nat) (x : Copy) (u : CopyUnit) : Bool :=
  u.holdsRoom || (x.buffersOf core u).all fun b => decide (s.stagedIn b < stageBufferSize)

/-- `COPY_UNIT_STAGE`: the destination homes stage a unit that has been read; a full stage buffer delays the engine
(R312). -/
def execCopyUnitStage (core : Nat) (id : BitVec 16) (unit : Nat) (s : State) : Out :=
  .next (match (s.core core).copy id with
    | none => s
    | some x => match x.unit unit with
      | none => s
      | some u =>
        if u.bytes.isEmpty || u.staged || x.stalled.isSome || !s.stageRoom core x u then s
        else match State.reachPieces core x.desc.dst x.desc.doff.toInt
            (linePieces x.desc.dst x.desc.doff.toInt u.off 66 u.len) s with
          | .ok s => s.updCopy core id fun x => x.updUnit unit fun u => { u with staged := true }
          | .error (.wait line) => s.updCopy core id fun x => { x with wants := line }
          | .error (.fault f) => s.updCopy core id fun x => x.miss unit true f)

/-- `COPY_UNIT_ACK`: the acknowledgement of a staged unit, with its CRC, reaches the engine (R314). -/
def execCopyUnitAck (core : Nat) (id : BitVec 16) (unit : Nat) (s : State) : Out :=
  .next (match (s.core core).copy id with
    | none => s
    | some x => match x.unit unit with
      | none => s
      | some u =>
        if !u.staged || u.acked then s
        else s.updCopy core id fun x => x.updUnit unit fun u => { u with acked := true })

/-- The byte that the destination home receives for an offset of a copy: where the copy's own writes have replaced the
source byte, the old or the new value (R203; entry 23); the struck byte has a bit inverted (R392). -/
def State.receivedByte (s : State) (core : Nat) (x : Copy) (off : Nat) (read : Byte) : Byte :=
  let b := match look x.olds off with
    | none => read
    | some old => if Config.overlapOld (s.ticks * 64 + off) then old
        else s.byteAt (pkgOf core) (placeOf core x.desc.src (x.desc.soff.toInt + off))
  match x.strike with
  | some (o, bit) => if o = off then b ^^^ BitVec.twoPow 8 bit else b
  | none => b

/-- The source bytes that a write of a copy replaces join its record of old values (R203). -/
def State.keepOlds (s : State) (core : Nat) (x : Copy) (off len : Nat) : List Host.Cell :=
  (List.range len).foldl (fun l i =>
    let y := placeOf core x.desc.dst (x.desc.doff.toInt + (off + i : Nat))
    match x.sourceOffset core y with
    | none => l
    | some j => if (look l j).isSome then l else put l j (s.byteAt (pkgOf core) y)) x.olds

/-- The pieces of a unit written in ascending order; monitors reply after the last (R177, R223, R313). -/
def State.writePieces (core : Nat) (id : BitVec 16) (c : Cap) (off : Int) (start : Nat) (bytes : List Byte) :
    List (Nat × Nat) → State → State
  | [], s => s.fireMonitors
  | (k, n) :: rest, s =>
    State.writePieces core id c off start bytes rest
      (s.writePiece core id (placeOf core c (off + k)) ((bytes.drop (k - start)).take n))

/-- A unit is released: its bytes are performed at the destination and folded into the CRCs (R204, R312 to R314). -/
def State.releaseUnit (s : State) (core : Nat) (x : Copy) (u : CopyUnit) (read : List Byte) : State :=
  let bytes := (read.zipIdx).map fun b => s.receivedByte core x (u.off + b.2) b.1
  let olds := s.keepOlds core x u.off u.len
  let s := State.writePieces core x.id x.desc.dst x.desc.doff.toInt u.off bytes
    (linePieces x.desc.dst x.desc.doff.toInt u.off 66 u.len) s
  s.updCopy core x.id fun x => { x with
    units := x.units.filter (fun v => v.off != u.off)
    done := x.done + u.len
    seg := crcBytes x.seg bytes
    run := crcBytes x.run bytes
    olds := olds }

/-- `COPY_UNIT_RELEASE`: the lowest unit, once acknowledged, is released; a broken one is read again, and after four
breaks the read is its release (R312, R313). -/
def execCopyUnitRelease (core : Nat) (id : BitVec 16) (s : State) : Out :=
  .next (match (s.core core).copy id with
    | none => s
    | some x => match x.units with
      | [] => s
      | u :: _ =>
        if !u.acked || x.stalled.isSome then s
        else if u.broken && u.breaks < 3 then
          s.updCopy core id fun x => x.updUnit u.off fun u =>
            { u with bytes := [], staged := false, acked := false, broken := false, breaks := u.breaks + 1 }
        else
          match State.reachPieces core x.desc.dst x.desc.doff.toInt
            (linePieces x.desc.dst x.desc.doff.toInt u.off 66 u.len) s with
          | .error (.wait line) => s.updCopy core id fun x => { x with wants := line }
          | .error (.fault f) => s.updCopy core id fun x => x.miss u.off true f
          | .ok s =>
            if !u.broken then s.releaseUnit core x u u.bytes
            else match State.readPiecesOf core x.desc.src x.desc.soff.toInt
                (linePieces x.desc.src x.desc.soff.toInt u.off 66 u.len) s with
              | .error (.wait line) => s.updCopy core id fun x => { x with wants := line }
              | .error (.fault f) => s.updCopy core id fun x => x.miss u.off false f
              | .ok (bytes, s) => s.releaseUnit core x u bytes)

/-- Whether a copy has ended: it has failed, or every byte has been released (R205). -/
def Copy.ended (x : Copy) : Bool :=
  !x.posted && x.units.isEmpty && (x.status != 0 || (x.started && x.next == x.desc.len))

/-- The status a copy posts (R203, R205). -/
def Copy.finalStatus (x : Copy) : BitVec 8 :=
  if x.status ≠ 0 then x.status
  else if x.desc.len ≠ 0 && x.desc.cmp && ~~~x.run ≠ x.desc.expect then 0x02
  else 0x01

/-- The 16 bytes of a completion record (R205). -/
def Copy.record (x : Copy) : List Byte :=
  let st := x.finalStatus
  let cls : BitVec 8 := if st = 0x03 || st = 0x04 then x.fclass else 0
  let crc (r : Word) : Word := if x.desc.crc then ~~~r else 0
  leBytes 4 (x.desc.utag ++ cls ++ st).toNat ++ leBytes 4 (crc x.seg).toNat ++
    leBytes 4 (if x.status = 7 then ~~~x.run else crc x.run).toNat ++ leBytes 4 x.done

/-- The sleepers in `CPYW` for a copy complete; they acquire at `.pod` (R206). -/
def State.wakeCopy (s : State) (c : Nat) (id : BitVec 16) : State :=
  (List.finRange 8).foldl (fun s n =>
    if (s.slot c n).wait = .copy id then
      s.as c n fun s => (s.acquire 5).updMe fun t =>
        { t.unblock with regs := (t.regs.consume (laterSources t.held)).advance 4 }
    else s) s

/-- An ended copy's entry once its record has been performed: successors take over its running register or fail, and it
retires unless a `CPYC` may still name it; a `CPYC` that fails with its predecessor has not started (R204, R205). -/
def State.settleCopy (s : State) (core : Nat) (x : Copy) : State :=
  let y := { x with posted := true, status := x.finalStatus }
  let s := s.updCore core fun k => { k with copies := k.copies.map fun z =>
    if z.id = x.id then y else if z.pred = some x.id then z.follow y else z }
  let t := s.slot core x.slot
  let s := if !x.desc.cont || t.gen ≠ x.gen || t.state = .free then s.retireCopy core x.id else s
  s.wakeCopy core x.id

/-- `COPY_END`: the engine writes the completion record, of a core whose image does not lie in its context area (R204 to R206,
R304). -/
def execCopyEnd (core : Nat) (id : BitVec 16) (s : State) : Out :=
  .next (match (s.core core).copy id with
    | none => s
    | some x =>
      if !x.ended || x.stalled.isSome || s.saved core then s
      else
        let b := placeOf core x.desc.mbox x.desc.moff.toInt
        match s.engineWrite core b.space b.core b.addr 0 x.record (some (core, id)) with
        | none => s
        | some s => s.settleCopy core x)

/-- The 64 KiB pages that a leaf covers: one, or the 32 of a 2 MiB leaf (R269, R316). -/
def Package.leafPages (p : Package) (page : Nat) : List Nat :=
  let e := (look p.tables (l1Key (page * 65536))).getD 0
  if e.getLsbD 63 && !e.getLsbD 62 then [page] else (List.range 32).map (page / 32 * 32 + ·)

/-- The table key of the leaf that covers a page (R269). -/
def Package.leafKey (p : Package) (page : Nat) : Nat :=
  let e := (look p.tables (l1Key (page * 65536))).getD 0
  if e.getLsbD 63 && !e.getLsbD 62 then l2Key e (page * 65536) else l1Key (page * 65536)

/-- Page-table entries that the service OS writes in a package: keys as in `tables` (R269). -/
def Package.writeMaps (p : Package) (maps : List (Nat × BitVec 64)) : Package :=
  let cd := BitVec.twoPow 64 61
  let p : Package := { p with tables := maps.foldl (fun t x => put t x.1 (x.2 &&& ~~~cd)) p.tables }
  (p.coded.map (·.1)).foldl (fun p g =>
    let e := p.leaf (g * 65536)
    if e.getLsbD 63 then { p with tables := put p.tables (p.leafKey g) (e ||| cd) } else p) p

/-- Whether a package's tables map an address. -/
def Package.maps (p : Package) (a : Nat) : Bool :=
  match p.walk a with
  | .ok _ => true
  | .error _ => false

/-- A package's page-table entries written: a page that becomes mapped reads zero (R269, R400). -/
def State.mapPages (s : State) (pkg : Nat) (maps : List (Nat × BitVec 64)) : State :=
  let p := s.pkg pkg
  let s := s.updPkg pkg (·.writeMaps maps)
  let hit (a : Nat) : Bool := homePkg a == pkg && !p.maps a && (s.pkg pkg).maps a
  { s with mem := s.mem.filter (fun c => !hit c.1), mtags := s.mtags.filter (fun g => !hit (g * 16)) }

/-- `COPY_PAGE_FAULT_RESOLVE`: the service OS maps the page, and the unit goes on; a fault it cannot resolve ends the
copy, and the unit and those above it are discarded (R203, R315). -/
def execCopyPageFaultResolve (core : Nat) (id : BitVec 16) (resolved : Bool) (maps : List (Nat × BitVec 64))
    (s : State) : Out :=
  .next (match (if s.saved core then none else ((s.core core).copy id).bind (·.stalled)) with
    | none => s
    | some (off, a, dst) =>
      if resolved then
        (if homePkg a < s.podSize then s.mapPages (homePkg a) maps else s).updCopy core id fun x => { x with stalled := none }
      else s.updCopy core id fun x => { x with
        stalled := none, status := if dst then 0x04 else 0x03, fclass := 0x04
        units := x.units.filter (fun u => decide (u.off < off)) })

end Sys2Proof.Machine
end

