-- ==== Sys2Proof/Machine/Coding.lean ====
section
/-!
DEFINITION. Coded regions (R316 to R322), retired pages and narrowed rights (R268, R271), and the steps of a commit
into the base view (R261, R262, R320).
-/

namespace Sys2Proof.Machine

/-! ### The code (R318) -/

/-- Multiplication by α in GF(2^8) with the polynomial `0x11D`. -/
def gfDouble (x : Byte) : Byte := (x <<< 1) ^^^ (if x.getLsbD 7 then 0x1D else 0)

/-- Multiplication by α^j. -/
def gfShift : Nat → Byte → Byte
  | 0, x => x
  | n + 1, x => gfShift n (gfDouble x)

/-- Multiplication in GF(2^8): the sum of the doublings that `b` selects. -/
def gfMul (a b : Byte) : Byte :=
  (List.range 8).foldl (fun x i => if b.getLsbD i then x ^^^ gfShift i a else x) 0

/-- The multiplicative inverse; 0 for 0. -/
def gfInv (a : Byte) : Byte :=
  (((List.range 256).map (BitVec.ofNat 8 ·)).find? fun x => gfMul a x == 1).getD 0

/-- What a data string adds to a check: itself for P, α^j times it for Q. -/
def checkShare (q : Bool) (j : Nat) (l : List Byte) : List Byte := if q then l.map (gfShift j) else l

/-! ### Coded write-backs (R319) -/

/-- The line's HBM image: what it held at its last write-back (R255). -/
def State.image (s : State) (line : Nat) : List Byte :=
  match (s.pkg (homePkg (line * 128))).dirty.find? (·.line == line) with
  | some d => d.image
  | none => s.lineBytes line

/-- A check line of a line's stripe changed at the check's package. -/
def State.updCheck (s : State) (line : Nat) (st : List Nat) (q : Bool) (f : CheckLine → CheckLine) : State :=
  s.updPkg (st.getD (if q then 9 else 8) 0) fun p => p.setCheck (f (p.checkLine line st q))

/-- A delta applied to a check line, with its sequence number (R319). -/
def CheckLine.apply (c : CheckLine) (pos : Nat) (delta : List Byte) (seq : BitVec 16) : CheckLine :=
  { c with bytes := xorBytes c.bytes (checkShare c.q pos delta), seqs := c.seqs.set pos seq }

/-- Whether a check line is lost and not yet rebuilt (R321). -/
def State.checkLost (s : State) (line : Nat) (st : List Nat) (q : Bool) : Bool :=
  let p := s.pkg (st.getD (if q then 9 else 8) 0)
  p.failed || p.rebuildChecks.contains (line % 2 ^ 34, st, q)

/-- One check agent applies the delta of the oldest write-back of a line that it has not applied, and acknowledges; a delta
for a check line that is being rebuilt waits (R319, R322). -/
def State.applyDelta (s : State) (line : Nat) (q : Bool) : State :=
  let h := homePkg (line * 128)
  match (s.pkg h).wbacks.find? (fun w => w.line == line && !w.done q) with
  | none => s
  | some w =>
    if s.checkLost line w.stripe q then s
    else (s.updCheck line w.stripe q (·.apply w.pos w.delta w.seq)).updPkg h fun p =>
      { p with wbacks := p.wbacks.map fun x => if x.line = line && x.seq = w.seq then x.acked q else x }

/-- Releases that wait for a write-back wait for it no more (R320). -/
def State.writtenBack (s : State) (line : Nat) (seq : BitVec 16) : State :=
  { s with cores := s.cores.map fun k => (k.1, { k.2 with
      releases := k.2.releases.map fun r => { r with lines := r.lines.erase (line, seq) } }) }

/-- The slice writes HBM once both agents have acknowledged the oldest write-back of a line; a lost agent is excused (R319,
R320, R322). The line stays dirty where it has been written since. -/
def State.ackDelta (s : State) (line : Nat) : State :=
  let h := homePkg (line * 128)
  match (s.pkg h).wbacks.find? (·.line == line) with
  | none => s
  | some w =>
    if !w.pDone || !w.qDone then s
    else
      let rest := (s.pkg h).wbacks.erase w
      (s.updPkg h fun p => { p with
        wbacks := rest
        dirty := p.dirty.filterMap fun d =>
          if d.line ≠ line then some d
          else
            let image := xorBytes d.image w.delta
            if image = s.lineBytes line && !rest.any (·.line == line) then none else some { d with image := image }
        }).writtenBack line w.seq

/-- A line is written back whole, as far as its check agents answer: a coded one through both checks (R271, R319). -/
def State.flushLine (s : State) (line : Nat) : State :=
  let p := s.pkg (homePkg (line * 128))
  if !p.dirty.any (·.line == line) then s
  else if (p.stripeOf line).isSome then
    let s := s.startWriteback line
    ((s.pkg (homePkg (line * 128))).wbacks.filter (·.line == line)).foldl
      (fun s _ => ((s.applyDelta line false).applyDelta line true).ackDelta line) s
  else s.cleanLine line

/-- Write-backs of a check line that is lost are excused from its agent's acknowledgement (R322). -/
def State.excuseChecks (s : State) (hit : Nat → List Nat → Bool → Bool) : State :=
  let one (w : Writeback) (q : Bool) : Writeback := if hit (w.line % 2 ^ 34) w.stripe q then w.excuse q else w
  { s with pkgs := s.pkgs.map fun k => (k.1, { k.2 with wbacks := k.2.wbacks.map fun w => one (one w false) true }) }

/-! ### Coding a page (R316, R317) -/

/-- The lines of a page. -/
def pageLines (page : Nat) : List Nat := (List.range 512).map (page * 512 + ·)

/-- A package's versions of a page, which leave the ways of L2 for the overflow area: their views keep what they wrote (R260,
R271; entry 36). -/
def Package.retireVersions (p : Package) (page : Nat) : Package :=
  let at_ (x : Nat × Nat × Bool) : Bool := x.2.1 / 512 == page
  { p with versions := p.versions.filter (!at_ ·) ++ (p.versions.filter at_).map fun x => (x.1, x.2.1, true) }

/-- A page's lines leave every slice of its home, in every view, after their write-back, every proxy drops its copies, and
the translation caches its entry (R271). -/
def State.retirePage (s : State) (page : Nat) : State :=
  let h := homePkg (page * 65536)
  let s := (((s.pkg h).dirty.map (·.line)).filter (· / 512 == page)).foldl (fun s l => s.flushLine l) s
  let s := s.updPkg h fun p => { p.retireVersions page with
    l2 := p.l2.filter (· / 512 != page)
    tcache := p.tcache.filter (·.2.1 != page) }
  { s with pkgs := s.pkgs.map fun k => (k.1, { k.2 with copies := k.2.copies.filter (·.line / 512 != page) }) }

/-- A page's images shipped once to its stripe's checks (R317). -/
def State.shipPage (s : State) (page : Nat) (st : List Nat) (pos : Nat) : State :=
  (pageLines page).foldl (fun s l =>
    let seq := laterSeq (((s.pkg (st.getD 8 0)).checkLine l st false).seqs.getD pos 0)
      (((s.pkg (st.getD 9 0)).checkLine l st true).seqs.getD pos 0) + 1
    (s.updCheck l st false (·.apply pos (s.lineBytes l) seq)).updCheck l st true (·.apply pos (s.lineBytes l) seq)) s

/-- Whether a list names ten distinct packages of the pod (R316). -/
def State.goodStripe (s : State) (st : List Nat) : Bool :=
  st.length == 10 && st.all (fun q => decide (q < s.podSize)) && st.eraseDups.length == 10

/-- What P's or Q's check line has applied of a line of a page in transition; lines no longer listed have been applied
(R317). -/
def Transit.applied (t : Transit) (line : Nat) (q : Bool) : Bool :=
  match t.lines.find? (·.1 == line) with
  | some x => if q then x.2.2 else x.2.1
  | none => true

/-- Whether a check counts a line of a page in transition as its HBM image, and as zero otherwise (R317). -/
def Transit.counts (t : Transit) (line : Nat) (q : Bool) : Bool := t.applied line q == t.setting

/-- The transition that a line's page is in. -/
def Package.transitOf (p : Package) (line : Nat) : Option Transit := p.transits.find? (·.pages.contains (line / 512))

/-- A transition has ended: `cd` changes, and accesses resume (R317). -/
def State.endTransit (s : State) (h : Nat) (t : Transit) : State :=
  s.updPkg h fun p =>
    let page := t.pages.headD 0
    let cd := BitVec.twoPow 64 61
    let e := p.leaf (page * 65536)
    { p with
      transits := p.transits.filter (·.pages != t.pages)
      coded := t.pages.foldl (fun l g => if t.setting then put l g t.stripe else drop l g) p.coded
      tables := put p.tables (p.leafKey page) (if t.setting then e ||| cd else e &&& ~~~cd) }

/-- A transition of the pages of a leaf begins: they are retired, accesses to them are held, and the image of every line is
to be shipped. It waits while a line cannot be written back (R271, R317). -/
def State.beginTransit (s : State) (h : Nat) (pages : List Nat) (st : List Nat) (setting : Bool) : State :=
  let s' := pages.foldl State.retirePage s
  if (s'.pkg h).dirty.any (fun d => pages.contains (d.line / 512)) then s
  else
    let t : Transit := ⟨pages, st, setting, (pages.flatMap pageLines).map fun l => (l, false, false)⟩
    s'.updPkg h fun p => { p with transits := p.transits ++ [t] }

/-- One check agent applies the image of a line of a page in transition, and acknowledges (R317, R319). -/
def State.applyImage (s : State) (h : Nat) (t : Transit) (line : Nat) (q : Bool) : State :=
  let pos := t.stripe.findIdx (· == h)
  let last (q : Bool) : BitVec 16 :=
    (((s.pkg (t.stripe.getD (if q then 9 else 8) 0)).checkLine line t.stripe q).seqs.getD pos 0)
  let seq := if t.applied line !q then last !q else laterSeq (last false) (last true) + 1
  if t.applied line q || s.checkLost line t.stripe q then s
  else (s.updCheck line t.stripe q (·.apply pos (s.lineBytes line) seq)).updPkg h fun p =>
    { p with transits := p.transits.map fun u =>
        if u.pages = t.pages then { u with lines := u.lines.map fun x =>
          if x.1 = line then (if q then (x.1, x.2.1, true) else (x.1, true, x.2.2)) else x } else u }

/-- Both agents have acknowledged the image of a line of a page in transition, or one has and the other is lost; with the
last line the transition ends (R317, R322). -/
def State.ackImage (s : State) (h : Nat) (t : Transit) (line : Nat) : State :=
  let done (q : Bool) : Bool := t.applied line q || (s.pkg (t.stripe.getD (if q then 9 else 8) 0)).failed
  if !(t.lines.any (·.1 == line)) || !done false || !done true || !(t.applied line false || t.applied line true) then s
  else
    let u := { t with lines := t.lines.filter (·.1 != line) }
    if u.lines.isEmpty then s.endTransit h u
    else s.updPkg h fun p => { p with transits := p.transits.map fun x => if x.pages = t.pages then u else x }

/-- `CODED_DELTA`: a coding agent applies a delta to a check line (R317, R319). -/
def execCodedDelta (pkg line : Nat) (q : Bool) (s : State) : Out :=
  .next (if homePkg (line * 128) ≠ pkg then s
    else match (s.pkg pkg).transitOf line with
      | some t => s.applyImage pkg t line q
      | none => s.applyDelta line q)

/-- `CODED_DELTA_ACK`: both acknowledgements have arrived, and the slice writes HBM (R317, R319). -/
def execCodedDeltaAck (pkg line : Nat) (s : State) : Out :=
  .next (if homePkg (line * 128) ≠ pkg then s
    else match (s.pkg pkg).transitOf line with
      | some t => s.ackImage pkg t line
      | none => s.ackDelta line)

/-- `CODED_SET`: the page that a leaf maps is retired and its images are shipped; `cd` becomes 1 once every line has been
acknowledged (R316, R317). -/
def execCodedSet (page : Nat) (stripe : List Nat) (s : State) : Out :=
  let h := homePkg (page * 65536)
  let p := s.pkg h
  let pages := p.leafPages page
  .next (if !s.goodStripe stripe || 8 ≤ stripe.findIdx (· == h) || pages.any (fun g => (look p.coded g).isSome) ||
        !(p.leaf (page * 65536)).getLsbD 63 || pages.any (fun g => p.inTransit (g * 512)) then s
    else s.beginTransit h pages stripe true)

/-- `CODED_CLEAR`: the page's images are shipped once more, so that they leave the checks; `cd` then becomes 0 (R317). -/
def execCodedClear (page : Nat) (s : State) : Out :=
  let h := homePkg (page * 65536)
  let p := s.pkg h
  let pages := p.leafPages page
  .next (match look p.coded page with
    | none => s
    | some st =>
      if pages.any (fun g => p.inTransit (g * 512) || p.rebuild.any (· / 512 == g)) then s
      else s.beginTransit h pages st false)

/-! ### Rebuild (R321, R322) -/

/-- The line at a data position of a line's stripe. -/
def stripeLine (line : Nat) (st : List Nat) (k : Nat) : Nat := st.getD k 0 * 2 ^ 34 + line % 2 ^ 34

/-- Whether a check counts the line at a data position as an image, and not as zero (R316, R317). -/
def State.codedAt (s : State) (line : Nat) (st : List Nat) (q : Bool) (k : Nat) : Bool :=
  let p := s.pkg (st.getD k 0)
  let l := stripeLine line st k
  match p.transitOf l with
  | some t => t.stripe == st && t.counts l q
  | none => p.stripeOf l == some st

/-- Whether the line at a data position is lost: not rebuilt, poisoned, or in a failed package. -/
def State.dataLost (s : State) (line : Nat) (st : List Nat) (k : Nat) : Bool :=
  let p := s.pkg (st.getD k 0)
  let l := stripeLine line st k
  (s.codedAt line st false k || s.codedAt line st true k) && (p.failed || p.rebuild.contains l || (look p.poison l).isSome)

/-- What a line's write-backs under way that a check has applied add to its HBM image. -/
def Package.appliedDeltas (p : Package) (line : Nat) (q : Bool) (image : List Byte) : List Byte :=
  (p.wbacks.filter fun w => w.line == line && w.done q).foldl (fun x w => xorBytes x w.delta) image

/-- The image of a data position as a check counts it: with the deltas that the check has applied (R317, R319). -/
def State.countedImage (s : State) (line : Nat) (st : List Nat) (q : Bool) (k : Nat) : List Byte :=
  let l := stripeLine line st k
  if !s.codedAt line st q k then List.replicate 128 0
  else (s.pkg (st.getD k 0)).appliedDeltas l q (s.image l)

/-- What a check leaves for the lost positions once the surviving data is taken out of it. -/
def State.syndrome (s : State) (line : Nat) (st : List Nat) (q : Bool) (lost : List Nat) : List Byte :=
  (((List.range 8).filter (fun k => !lost.contains k)).foldl
    (fun x k => xorBytes x (checkShare q k (s.countedImage line st q k)))
    ((s.pkg (st.getD (if q then 9 else 8) 0)).checkLine line st q).bytes)

/-- The sequence number a check holds for a data position. -/
def State.checkSeq (s : State) (line : Nat) (st : List Nat) (q : Bool) (k : Nat) : BitVec 16 :=
  ((s.pkg (st.getD (if q then 9 else 8) 0)).checkLine line st q).seqs.getD k 0

/-- Whether the value of a lost line comes from its check Q: P is lost, or holds a lower sequence number for the position
(R322). -/
def State.fromQ (s : State) (line : Nat) (st : List Nat) (j : Nat) : Bool :=
  s.checkLost line st false || (!s.checkLost line st true &&
    laterSeq (s.checkSeq line st false j) (s.checkSeq line st true j) != s.checkSeq line st false j)

/-- The value of a lost data line recomputed from its stripe (R318, R321, R322); none where more than two chunks are
lost, or two data positions with checks that disagree. -/
def State.rebuildValue (s : State) (line : Nat) (st : List Nat) (j : Nat) : Option (List Byte) :=
  let lost := (List.range 8).filter fun k => k == j || s.dataLost line st k
  let pLost := s.checkLost line st false
  let qLost := s.checkLost line st true
  let same (k : Nat) : Bool := s.checkSeq line st false k == s.checkSeq line st true k
  match lost with
  | [_] =>
    if pLost && qLost then none
    else if s.fromQ line st j then some ((s.syndrome line st true lost).map (gfMul (gfInv (gfShift j 1))))
    else some (s.syndrome line st false lost)
  | [a, b] =>
    if pLost || qLost || !same a || !same b then none
    else
      let i := if a = j then b else a
      let p := s.syndrome line st false lost
      let q := s.syndrome line st true lost
      let d := gfInv (gfShift i 1 ^^^ gfShift j 1)
      some (List.zipWith (fun x y => gfMul d (y ^^^ gfShift i x)) p q)
  | _ => none

/-- A line rewritten whole, with its tags clear, and its poison gone; or the line poisoned (R266, R321, R356). -/
def State.installLine (s : State) (line : Nat) (x : Option (List Byte)) : State :=
  let h := homePkg (line * 128)
  let s := s.updPkg h fun p => { p with
    rebuild := p.rebuild.filter (· != line)
    dirty := p.dirty.filter (·.line != line)
    wbacks := p.wbacks.filter (·.line != line)
    poison := drop p.poison line }
  match x with
  | none => s.updPkg h fun p => { p with poison := put p.poison line 0x04 }
  | some b => { s with
    mem := s.mem.writeN (line * 128) b
    mtags := s.mtags.clear (granules (line * 128) 128) }

/-- A lost line's HBM image recomputed: where a surviving slice holds the line dirty, its newer contents stand, and what its
write-backs under way have added to the check is added to the image when they are acknowledged (R265, R319, R321). -/
def State.rebuiltLine (s : State) (line : Nat) (q : Bool) (x : Option (List Byte)) : State :=
  let h := homePkg (line * 128)
  match x with
  | none => s.installLine line none
  | some b =>
    if (s.pkg h).dirty.any (·.line == line) then
      s.updPkg h fun p => { p with
        rebuild := p.rebuild.filter (· != line)
        dirty := p.dirty.map fun d => if d.line = line then { d with image := p.appliedDeltas line q b, tags := [] } else d }
    else s.installLine line (some b)

/-- The sequence number that a rebuilt check line takes for a data position: the other check's, or the one before it where the
other has applied a delta, or an image of a page in transition, that the rebuilt bytes do not count yet (R317, R322). -/
def State.rebuiltSeq (s : State) (line : Nat) (st : List Nat) (q : Bool) (k : Nat) : BitVec 16 :=
  let p := s.pkg (st.getD k 0)
  let l := stripeLine line st k
  let other := s.checkSeq line st (!q) k
  match p.transitOf l with
  | some t => if t.stripe == st && t.applied l !q && !t.applied l q then other - 1 else other
  | none => match p.wbacks.find? fun w => w.line == l && !w.done q with
    | some w => w.seq - 1
    | none => other

/-- A lost check line recomputed from the eight data lines; it waits while one of them is lost (R321, R322). -/
def State.rebuildCheck (s : State) (line : Nat) (st : List Nat) (q : Bool) : State :=
  let cp := st.getD (if q then 9 else 8) 0
  if (List.range 8).any (s.dataLost line st) then s
  else
    let bytes := (List.range 8).foldl (fun x k => xorBytes x (checkShare q k (s.countedImage line st q k)))
      (List.replicate 128 0)
    s.updPkg cp fun p =>
      { (p.setCheck ⟨line % 2 ^ 34, st, q, bytes, (List.range 8).map (s.rebuiltSeq line st q)⟩) with
        rebuildChecks := p.rebuildChecks.filter (· != (line % 2 ^ 34, st, q)) }

/-- The lost line that is rebuilt next: the least in chunk order and line order (R321). -/
def Package.nextRebuild (p : Package) : Option Nat :=
  p.rebuild.foldl (fun x l => match x with
    | none => some l
    | some m => if (p.physLine (l * 128)).toNat < (p.physLine (m * 128)).toNat then some l else some m) none

/-- The lost check line of a package that is rebuilt next: the least in chunk order and line order of those whose data lines
are all there (R316, R321). -/
def State.nextCheck (s : State) (pkg : Nat) : Option (Nat × List Nat × Bool) :=
  let key (x : Nat × List Nat × Bool) : Nat := Config.checkSlot x.2.1 (x.1 / 512) x.2.2 * 512 + x.1 % 512
  ((s.pkg pkg).rebuildChecks.filter fun x => !(List.range 8).any (s.dataLost x.1 x.2.1)).foldl (fun l x => match l with
    | none => some x
    | some y => if key x < key y then some x else some y) none

/-- Whether an access is held for the rebuild of a line: that line is rebuilt first (R321). -/
def State.wanted (s : State) (line : Nat) : Bool :=
  s.cores.any fun k => k.2.slots.toList.any (·.wants == some line) || k.2.copies.any (·.wants == some line)

/-- `REBUILD_LINE`: the coding agents recompute the next lost line, or one for which an access is held, or a lost check line
(R321, R322). `line` is counted over all of GLOBAL space. -/
def execRebuildLine (pkg line : Nat) (s : State) : Out :=
  let p := s.pkg pkg
  .next (if p.rebuild.contains line then
      if p.nextRebuild ≠ some line && !s.wanted line then s
      else match p.stripeOf line with
        | none => s.rebuiltLine line false none
        | some st =>
          let j := st.findIdx (· == pkg)
          s.rebuiltLine line (s.fromQ line st j) (s.rebuildValue line st j)
    else match s.nextCheck pkg with
      | some (l, st, q) => if l = line % 2 ^ 34 then s.rebuildCheck l st q else s
      | none => s)

/-! ### Mappings and rights (R268, R271) -/

/-- Live chunks of a stack (R264). -/
def liveChunks (stack : Nat) : Nat := if stack ≤ 4 then 932068 else 932067

/-- Where the chunk at a position of a lost stack goes: the headroom of the stacks after it in turn, each from its lowest free
position: stack and position (R265). -/
def headroomPlace (lost k : Nat) : Nat × Nat :=
  go ((List.range 8).map fun i => (lost + 1 + i) % 9) k
where
  /-- The place of the k-th chunk in the headroom of a list of stacks. -/
  go : List Nat → Nat → Nat × Nat
    | [], k => (lost, k)
    | t :: rest, k =>
      let room := 2 ^ 20 - liveChunks t
      if k < room then (t, liveChunks t + k) else go rest (k - room)

/-- The stack and the position that hold a chunk of a package (R264, R265). -/
def Package.placeOfChunk (p : Package) (chunk : Nat) : Nat × Nat :=
  if p.lostStacks.head? = some (chunk % 9) then headroomPlace (chunk % 9) (chunk / 9) else (chunk % 9, chunk / 9)

/-- The physical page of an address, as error reports name it: nine times its position plus its stack (R264, R359). -/
def Package.physPage (p : Package) (a : Nat) : Nat :=
  let x := p.placeOfChunk ((p.physLine a).toNat % 2 ^ 41 / 65536)
  9 * x.2 + x.1

/-- `PAGE_RETIRE`: the pages that a leaf covers are retired and translated under a new entry; `keep` says that the
service OS has copied their contents to the new place, otherwise the new page reads zero. It is the
action of a diagnosis that retires the physical page (R271, R357, R359, R369, R400). -/
def execPageRetire (page : Nat) (entry : BitVec 64) (keep : Bool) (s : State) : Out :=
  let h := homePkg (page * 65536)
  let p := s.pkg h
  let pages := p.leafPages page
  let coded := pages.any (fun g => (look p.coded g).isSome)
  .next (if s.podSize ≤ h || (coded && !keep) || pages.any (fun g => p.inTransit (g * 512)) then s
    else
      let s' := pages.foldl State.retirePage s
      if (s'.pkg h).dirty.any (fun d => pages.contains (d.line / 512)) then s
      else
      let s := if keep then s'
        else { s' with
          mem := s'.mem.filter (fun c => !pages.contains (c.1 / 65536))
          mtags := s'.mtags.filter (fun g => !pages.contains (g / 4096)) }
      let bit := BitVec.twoPow 64 61
      let retired (d : Diagnosis) : Bool := d.action == .pageRetire && pages.any fun g =>
        d.unit == .page h (p.physPage (g * 65536))
      s.updPkg h fun p => { p.acted retired with
        poison := if keep then p.poison else p.poison.filter (fun x => !pages.contains (x.1 / 512))
        tables := put p.tables (p.leafKey page) (if coded then entry ||| bit else entry &&& ~~~bit) })

/-- `RIGHTS_NARROW`: the service OS takes rights away, and every PLB of the package drops the entries (R268). -/
def execRightsNarrow (pkg dom region : Nat) (host : Bool) (rights : BitVec 4) (s : State) : Out :=
  let hit (d r : Nat) (h : Bool) : Bool := d == dom && r == region && h == host
  let s := s.updPkg pkg fun p => { p with
    rights := p.rights.map fun r => if hit r.dom r.region r.host then { r with rights := r.rights &&& rights } else r }
  let clean (k : Nat × Core) : Nat × Core :=
    if pkgOf k.1 = pkg then (k.1, { k.2 with plb := k.2.plb.filter (fun e => !hit e.dom e.region e.host) }) else k
  .next { s with cores := s.cores.map clean }

/-! ### Views and commits (R261, R262, R320) -/

/-- Whether something of a package still refers to a view number: a version, a thread's stack, or a job (R200, R261). -/
def State.viewUsed (s : State) (pkg v : Nat) : Bool :=
  (s.pkg pkg).versions.any (·.1 == v) ||
    s.cores.any (fun k => pkgOf k.1 == pkg &&
      (k.2.slots.toList.any (fun t => t.views.any (·.num == v)) || k.2.matrix.jobs.any (·.views.contains v)))

/-- `L2_CLEAN_SWEEP`: versions of discarded views are dropped, and numbers that nothing carries return to the free pool
(R261). -/
def execL2CleanSweep (pkg : Nat) (s : State) : Out :=
  let live (p : Package) (x : Nat × Nat × Bool) : Bool := match p.view x.1 with
    | some r => r.state != .discarded
    | none => false
  let s := s.updPkg pkg fun p => { p with versions := p.versions.filter (live p) }
  .next (s.updPkg pkg fun p =>
    { p with views := p.views.filter fun r => r.state == .live || s.viewUsed pkg r.num })

/-- `FLOOR_RAISE`: a package raises its copy floor for a commit of another and acknowledges (R258, R262). -/
def execFloorRaise (pkg src : Nat) (s : State) : Out :=
  .next (match (s.pkg src).commits.find? (·.raise.contains pkg) with
    | none => s
    | some c => (s.raiseFloor pkg).updPkg src fun p => { p with commits := p.commits.map fun x =>
        if x.view = c.view then { x with raise := delNum x.raise pkg, acks := x.acks ++ [pkg] } else x })

/-- `FLOOR_ACK`: the acknowledgement of a package reaches the committing package's control die (R262). -/
def execFloorAck (pkg src : Nat) (s : State) : Out :=
  .next (match (s.pkg pkg).commits.find? (·.acks.contains src) with
    | none => s
    | some c => s.updPkg pkg fun p => { p with commits := p.commits.map fun x =>
        if x.view = c.view then { x with acks := delNum x.acks src } else x })

/-- An unprotected die logs again once every outermost domain that was open when it became so has closed (R364). -/
def State.resumeLog (s : State) (c : Nat) : State :=
  s.updPkg (pkgOf c) fun p =>
    let g := p.scribe (dieOf c)
    let l := g.open_.filter (s.openDomains c).contains
    if !g.unprotected then p
    else
      let g := if l.isEmpty then { g with unprotected := false, open_ := [] } else { g with open_ := l }
      { p with scribes := put p.scribes (dieOf c) g }

/-- The outermost domain of a thread closes at its commit point: its outbox is released, its scribe entries are retired
and the log trimmed, and the thread goes on (R216, R262, R320, R363, R364). -/
def State.closeOutermost (s : State) (c : Nat) (n : Fin 8) (v : View) (lines : List (Nat × BitVec 16)) :
    State :=
  let t := s.slot c n
  let s := (s.scribeRetire c n t.gen).scribeTrim c
  let s := s.freeRoom t.home t.tenant v
  let s := s.updCore c fun k => { k with
    releases := k.releases ++ v.outbox.map fun i => ⟨n, t.gen, t.tenant, i, lines⟩
    relCopy := match t.lastCopy with
      | some id => if v.outbox.isEmpty then k.relCopy else put k.relCopy (returnTag n t.gen).toNat id
      | none => k.relCopy }
  let s := s.setSlot c n { t.unblock with views := t.views.drop 1, replay := [], regs := t.regs.advance 4 }
  s.resumeLog c

/-- A commit's record and apply steps (R239, R262, R320). -/
def State.recordCommit (s : State) (pkg : Nat) (c : Commit) : State :=
  let s := s.updPkg pkg fun p => { p with commits := p.commits.filter (·.view != c.view) }
  let s := s.applyBase pkg c.view
  let coded := c.lines.filter fun l => ((s.pkg (homePkg (l * 128))).stripeOf l).isSome
  let s := coded.foldl (fun s l => s.startWriteback l) s
  let due := coded.filterMap fun l =>
    (((s.pkg (homePkg (l * 128))).wbacks.filter (·.line == l)).getLast?).map fun w => (l, w.seq)
  let t := s.slot c.core c.slot
  match t.wait, t.views with
  | .commit, v :: _ =>
    if v.num ≠ c.view then s
    else if c.choose then
      match (s.pkg pkg).world v.world with
      | none => s
      | some w => s.winWorld c.core c.slot v w (t.regs.advance 4)
    else s.closeOutermost c.core c.slot v due
  | _, _ => s

/-- `COMMIT_RECORD`: once every floor acknowledgement has arrived, the commit point is recorded and the commit applied
(R262). -/
def execCommitRecord (pkg : Nat) (s : State) : Out :=
  .next (match (s.pkg pkg).commits.find? (fun c => c.raise.isEmpty && c.acks.isEmpty) with
    | none => s
    | some c => s.recordCommit pkg c)

/-- The first entry of a slot's released outbox. -/
def Core.nextRelease (k : Core) (n : Fin 8) : Option Release := k.releases.find? (·.slot == n)

/-- A released send consumes the reservation of its thread (R278). -/
def State.releaseSend (s : State) (c : Nat) (r : Release) (dst q : Nat) (es : List Entry) : State :=
  let t := s.slot c r.slot
  let k := if t.gen ≠ r.gen then 0
    else match t.ownStage.bind (fun i => stageOutput c (s.core c).stages[i].bits) with
      | none => 0
      | some out => if out = (dst, q) then min es.length t.resv else 0
  let s := if k = 0 then s else s.updSlot c r.slot fun t => { t with resv := t.resv - k }
  s.sendQueue c dst r.tenant q es k

/-- One entry of a released outbox is issued (R160, R200, R207, R216, R241). -/
def State.releaseItem (s : State) (c : Nat) (r : Release) : State :=
  match r.item with
  | .send dst q es => s.releaseSend c r dst q es
  | .command dst x =>
    if s.path c dst = .near && s.portBusy c dst then s.depart c dst r.tenant (.command x none)
    else s.sendTo c dst r.tenant (.command x none) fun s => (s.serveCommand c dst r.tenant x).1
  | .copy d chained =>
    let key := (returnTag r.slot r.gen).toNat
    let (s, id) := s.issueCopy c r.slot r.gen r.tenant d
      (if chained then some (look (s.core c).relCopy key) else none) true
    match id with
    | none => s
    | some id => s.updCore c fun k => { k with relCopy := put k.relCopy key id }

/-- `OUTBOX_RELEASE`: the next entry of a thread's committed outbox is issued, in order, once the coded write-backs it
waits for are acknowledged; a copy waits for an entry of the copy table (R202, R216, R241, R320). -/
def execOutboxRelease (core : Nat) (slot : Fin 8) (s : State) : Out :=
  let k := s.core core
  .next (match k.nextRelease slot with
    | none => s
    | some r =>
      let full := match r.item with
        | .copy _ _ => k.copyFull
        | _ => false
      if k.stopped || full || !r.lines.isEmpty then s
      else
        let s := (s.updCore core fun k => { k with releases := k.releases.erase r }).releaseItem core r
        s.updCore core fun k =>
          if k.releases.any (fun x => x.slot == r.slot && x.gen == r.gen) then k
          else { k with relCopy := drop k.relCopy (returnTag r.slot r.gen).toNat })

end Sys2Proof.Machine
end

