-- ==== Sys2Proof/Machine/Collective.lean ====
section
/-!
DEFINITION. Collectives (R96, R208 to R211, R331, R332): truss entries, contributions and folds, and the collective
instructions.
-/

namespace Sys2Proof.Machine

/-! ### Truss entries (R331) -/

/-- Tenant that owns the group. -/
def Truss.dom (t : Truss) : Nat := (t.bits.extractLsb' 112 16).toNat
/-- Membership number. -/
def Truss.memb (t : Truss) : BitVec 16 := t.bits.extractLsb' 96 16
/-- Child ports. -/
def Truss.cmask (t : Truss) : BitVec 40 := t.bits.extractLsb' 40 40
/-- Parent port, `0x3F` at the root. -/
def Truss.par (t : Truss) : Nat := (t.bits.extractLsb' 34 6).toNat
/-- Operator. -/
def Truss.op (t : Truss) : BitVec 3 := t.bits.extractLsb' 31 3
/-- Smallest scope that holds every member. -/
def Truss.scope (t : Truss) : BitVec 3 := t.bits.extractLsb' 28 3
/-- Entry in use. -/
def Truss.vld (t : Truss) : Bool := t.bits.getLsbD 0

/-- A truss entry's 128 bits (R331). -/
def trussBits (dom : Nat) (memb : BitVec 16) (cmask : BitVec 40) (par : BitVec 6) (op scope : BitVec 3) : BitVec 128 :=
  let exp := ((List.range 40).filter (fun i => cmask.getLsbD i)).length
  BitVec.ofNat 16 dom ++ memb ++ BitVec.ofNat 16 exp ++ cmask ++ par ++ op ++ scope ++ 0#27 ++ 1#1

/-- The router number of the hub of a package; stop routers carry the number of their quad. -/
def hubRouter (p : Nat) : Nat := 2 ^ 24 + p

/-- The package of a router. -/
def routerPkg (r : Nat) : Nat := if 2 ^ 24 ≤ r then r - 2 ^ 24 else r / 2 ^ 13

/-- The child ports of an entry, ascending. -/
def Truss.children (t : Truss) : List Nat := (List.range 40).filter fun i => t.cmask.getLsbD i

/-- The entry of a group at a router. -/
def State.trussAt (s : State) (router g : Nat) : Option Truss :=
  (s.pkg (routerPkg router)).truss.find? (fun t => t.router == router && t.g == g && t.vld)

/-- The state with a truss entry replaced. -/
def State.setTruss (s : State) (t : Truss) : State :=
  s.updPkg (routerPkg t.router) fun p =>
    { p with truss := p.truss.map (fun x => if x.router == t.router && x.g == t.g then t else x) }

/-- An entry of a group that is bound for a tenant (R208). -/
def State.groupOf (s : State) (ten g : Nat) : Option Truss :=
  s.pkgs.findSome? fun p => p.2.truss.find? fun t => t.vld && t.g == g && t.dom == ten

/-- Whether a core is a member of a tenant's group: its core port is set at its stop router (R208). -/
def State.memberOf (s : State) (ten g c : Nat) : Bool :=
  match s.trussAt (stopOf c) g with
  | none => false
  | some t => t.dom == ten && t.cmask.getLsbD (c % 4)

/-! ### Items (R96, R208, R210) -/

/-- An item with no contribution in it. -/
def Item.none : Item := ⟨Elem.zero, 0, [], 0, 0, 0, 0, 0⟩

/-- The block type that a tag names in a collective (R208, R210). -/
def tagType (tag : Byte) : BitVec 5 := if tag = 0x17 then 23 else 19

/-- An item's block. -/
def Item.mx (i : Item) : Block := ⟨i.block.map (·.toNat), i.scale.toNat, i.sticky⟩

/-- An item with its block replaced. -/
def Item.withMx (i : Item) (b : Block) : Item :=
  { i with block := b.elems.map (BitVec.ofNat 8 ·), scale := BitVec.ofNat 8 b.scale, sticky := b.sticky }

/-- Two present items combined by an operator (R96). -/
def combine (op : BitVec 3) (x y : Item) : Item :=
  let e (r : FRes) : Elem := ⟨r.bits.setWidth 32, r.tail⟩
  let f (i : Item) : FElem := ⟨zx64 i.elem.val, i.elem.tail⟩
  let z := match op.toNat with
    | 0 => { x with elem := e (elAdd 9 (f x) (f y)) }
    | 1 => { x with wide := x.wide + y.wide }
    | 2 => { x with elem := e (elMin 9 (f x) (f y)) }
    | 3 => { x with elem := e (elMax 9 (f x) (f y)) }
    | 4 => x.withMx (blockAcc (tagType x.tag) (tagType y.tag) x.mx y.mx)
    | 5 => { x with elem := ⟨x.elem.val &&& y.elem.val, 0⟩ }
    | 6 => { x with elem := ⟨x.elem.val ||| y.elem.val, 0⟩ }
    | _ => { x with elem := ⟨x.elem.val ^^^ y.elem.val, 0⟩ }
  { z with count := x.count + y.count, omitted := x.omitted + y.omitted }

/-- Whether an item is left out of a fold after `x`: none is present in it, or, for MX block add, its tag is no block
tag or differs from that of the first present (R210). -/
def leftOut (op : BitVec 3) (x y : Item) : Bool :=
  y.count == 0 || (op == 4 && ((y.tag != 0x13 && y.tag != 0x17) || (x.count != 0 && y.tag != x.tag)))

/-- One step of the left fold: a left-out item counts among the omitted (R96, R210, R332). -/
def foldItem (op : BitVec 3) (x y : Item) : Item :=
  if leftOut op x y then { x with omitted := x.omitted + y.omitted + y.count }
  else if x.count = 0 then { y with omitted := x.omitted + y.omitted }
  else combine op x y

/-- The fold of a round's items in ascending port order (R96, R332). -/
def foldItems (op : BitVec 3) (items : List (Nat × Item)) : Item :=
  ((List.range 40).filterMap (look items)).foldl (foldItem op) Item.none

/-- A contribution of one present value. -/
def Item.one (elem : Elem) (wide : DWord) (block : List Byte) (scale : Byte) (sticky : Word) (tag : Byte) : Item :=
  ⟨elem, wide, block, scale, sticky, tag, 1, 0⟩

/-- What `GCON` contributes from its `a` field under an operator (R208). -/
def Regs.contribution (r : Regs) (op : BitVec 3) (a : BitVec 5) : Item :=
  match op.toNat with
  | 1 => Item.one Elem.zero (r.pair a) [] 0 0 0
  | 4 =>
    let v := r.vec (a + 1)
    let tag : Byte := v[2].val.setWidth 8
    let es := unpack (tagType tag) (vecBits (r.vec a))
    Item.one Elem.zero 0 (es.map (BitVec.ofNat 8 ·)) (v[0].val.setWidth 8) v[1].val tag
  | 5 | 6 | 7 => Item.one ⟨r.val a, 0⟩ 0 [] 0 0 0
  | _ => Item.one (r.get a) 0 [] 0 0 0

/-- The status word of a result (R208). A count of omitted contributions above 65,535 reads 0xFFFF, for which R208 gives
only 16 bits (DESIGN CHOICE, entry 86). -/
def resultStatus (x : Item) (memb : BitVec 16) : Word :=
  0#8 ++ memb.setWidth 8 ++ BitVec.ofNat 16 (min x.omitted 0xFFFF)

/-- What `GRES` writes from its `d` field (R208). -/
def Regs.writeResult (r : Regs) (op : BitVec 3) (d : BitVec 5) (x : Item) (memb : BitVec 16) : Regs :=
  let st := resultStatus x memb
  match op.toNat with
  | 1 => (r.setPair d x.wide).setVal (d + 2) st
  | 4 =>
    let side (i : Fin 8) : Word :=
      match i.val with
      | 0 => zx32 x.scale
      | 1 => x.sticky
      | 2 => zx32 x.tag
      | 3 => st
      | _ => 0
    (r.setVec d (vecOfBits (packElems (tagType x.tag) (x.block.map (·.toNat))))).setVec (d + 1)
      (Vector.ofFn fun i => ⟨side i, 0⟩)
  | _ => (r.put d x.elem).setVal (d + 1) st

/-! ### Rounds (R209, R332) -/

/-- What a core holds of a group. -/
def Core.coll (k : Core) (g : Nat) : CollState := (k.colls.find? (·.g == g)).getD ⟨g, 0, 0, none⟩

/-- A core with what it holds of a group replaced. -/
def Core.setColl (k : Core) (x : CollState) : Core := { k with colls := x :: k.colls.filter (·.g != x.g) }

/-- Whether a core has contributed to the round in progress (R209). -/
def Core.pending (k : Core) (g : Nat) : Bool := decide ((k.coll g).completed < (k.coll g).contributed)

/-- The incarnation that a package's map holds for the die of a stop router; a hub has none (R324, R335). -/
def State.routerInc (s : State) (router : Nat) : BitVec 8 :=
  if router < 2 ^ 24 then (s.pkg (routerPkg router)).mapInc false (router / 1024 % 8) else 0

/-- A collective message as it leaves its sender, with its header (R324). -/
def State.collMsg (s : State) (src : CollSource) (dom : Nat) (col : Bool) (router port g : Nat) (x : Item)
    (memb : BitVec 16) (down : Bool) : CollMsg where
  dom := dom
  dinc := s.routerInc router
  sinc := s.routerInc (match src with
    | .core c => stopOf c
    | .router r => r)
  src := src
  col := col
  router := router
  port := port
  g := g
  item := x
  memb := memb
  down := down
  psn := false

/-- A contribution enters the injection buffer and travels to the core's stop router; the core counts it (R209, R300,
R332). -/
def State.contribute (s : State) (c g : Nat) (x : Item) : State :=
  let s := (s.updCore c fun k => k.setColl { k.coll g with contributed := (k.coll g).contributed + 1 }).countSent c
  { s with collMsgs := s.collMsgs ++
      [s.collMsg (.core c) (((s.trussAt (stopOf c) g).map (·.dom)).getD 0) (s.core c).colour (stopOf c) (c % 4) g x 0 false] }

/-! ### The instructions -/

/-- Checks 2 and 3 of R208: outside every view, on a group bound for the tenant. -/
def State.groupCheck (s : State) (g : Nat) : Except FaultInfo Truss :=
  if s.me.views ≠ [] then .error escape
  else match s.groupOf s.me.tenant g with
    | none => .error (mkFault 0x05 0x01 (BitVec.ofNat 64 g))
    | some t => .ok t

/-- Checks 5 and 6 of R208: the register fields, then membership. -/
def State.fieldCheck (s : State) (g : Nat) (ok : Bool) : Except FaultInfo Unit :=
  if !ok then .error (mkFault 0x01 0x05 0)
  else if s.memberOf s.me.tenant g s.me.home then .ok ()
  else .error (mkFault 0x05 0x05 (BitVec.ofNat 64 g))

/-- The operator of a group as the issuing thread's registers are read for it; 0 where none is bound. -/
def State.opOf (s : State) (g : Nat) : BitVec 3 := ((s.groupOf s.me.tenant g).map (·.op)).getD 0

/-- Whether `GCON` may read `a` under an operator (R208). -/
def conField (op : BitVec 3) (a : BitVec 5) : Bool :=
  match op.toNat with
  | 1 => !a.getLsbD 0 && decide (a.toNat ≤ 26)
  | 4 => decide (a.toNat ≤ 14)
  | _ => sSrc a

/-- Whether `GRES` may write from `d` under an operator (R208). -/
def resField (op : BitVec 3) (d : BitVec 5) : Bool :=
  match op.toNat with
  | 1 => !d.getLsbD 0 && decide (d.toNat ≤ 24)
  | 4 => decide (d.toNat ≤ 14)
  | _ => !d.getLsbD 0 && decide (d.toNat ≤ 26)

/-- Whether an operator reads a scalar. -/
def scalarOp (op : BitVec 3) : Bool := op != 1 && op != 4

/-- Whether a contribution of the issuing thread's core to a group must wait for the round in progress (R209). -/
def State.roundBusy (g : Nat) (s : State) : Bool :=
  s.me.views.isEmpty && s.memberOf s.me.tenant g s.me.home && (s.core s.me.home).pending g

/-- Whether `GCON` passes its turn (R209). -/
def State.conBusy (g : Nat) (a : BitVec 5) (s : State) : Bool := conField (s.opOf g) a && s.roundBusy g

/-- Whether `BARMAX` passes its turn (R209). -/
def State.maxBusy (g : Nat) (d a : BitVec 5) (s : State) : Bool :=
  s.opOf g == 3 && sSrc a && sDst d && s.roundBusy g

/-- `GCON` (R208, R209). -/
def execGcon (a : BitVec 5) (grp : BitVec 6) (s : State) : Out :=
  let g := grp.toNat
  let check (s : State) : Except FaultInfo Truss := do
    let t ← s.groupCheck g
    s.fieldCheck g (conField t.op a)
    .ok t
  s.hold (State.conBusy g a) fun s =>
    .next (match check s with
      | .error f => s.issue [] [] fun s => .error (.trap s f)
      | .ok t => s.issue (if scalarOp t.op then [a] else []) [] fun s =>
          let x := s.regs.contribution t.op a
          let s := s.contribute s.me.home g x
          .ok (s.setRegs (s.regs.advance 4)))

/-- The result a core holds that a `GRES` which waits for a round may take (R209). -/
def Core.resultFor (k : Core) (g round : Nat) : Option (Item × BitVec 16) :=
  if round = 0 || (k.coll g).completed < round then none else (k.coll g).result

/-- `GRES` (R208, R209). -/
def execGres (d : BitVec 5) (grp : BitVec 6) (s : State) : Out :=
  let g := grp.toNat
  .next (s.issue [] [] fun s =>
    let check : Except FaultInfo Truss := do
      let t ← s.groupCheck g
      s.fieldCheck g (resField t.op d)
      .ok t
    match check with
    | .error f => .error (.trap s f)
    | .ok t =>
      let k := s.core s.me.home
      let n := (k.coll g).contributed
      match k.resultFor g n with
      | some (x, memb) => .ok (s.setRegs ((s.regs.writeResult t.op d x memb).advance 4))
      | none => .error (.wait (s.updMe fun t => { t.block .sleep (.result g n) with held := some (.gres d grp) })))

/-- `BARMAX`: it contributes and sleeps until the round's result arrives (R208, R209). -/
def execBarmax (d a : BitVec 5) (grp : BitVec 6) (s : State) : Out :=
  let g := grp.toNat
  let check (s : State) : Except FaultInfo Unit := do
    let t ← s.groupCheck g
    if t.op ≠ 3 then .error (mkFault 0x05 0x02 (BitVec.ofNat 64 g))
    s.fieldCheck g (sSrc a && sDst d)
  s.hold (State.maxBusy g d a) fun s =>
    .next (match check s with
      | .error f => s.issue [] [] fun s => .error (.trap s f)
      | .ok _ => s.issue [a] [d] fun s =>
          let x := s.regs.contribution 3 a
          let s := s.contribute s.me.home g x
          let n := ((s.core s.me.home).coll g).contributed
          .error (.wait (s.updMe fun t =>
            { t.block .sleep (.result g n) with held := some (.barmax d a grp) })))

/-- A sleeper in `GRES` or `BARMAX` takes a result that has arrived: `BARMAX` acquires at the group's scope (R209). One of
a stopped core sleeps on until the core resumes (R303). -/
def State.takeResult (s : State) (c : Nat) (n : Fin 8) (g : Nat) (scope op : BitVec 3) : State :=
  let t := s.slot c n
  match t.wait, t.held, ((s.core t.home).coll g).result with
  | .result h round, some i, some (x, memb) =>
    if h ≠ g || (s.core c).stopped || decide (((s.core t.home).coll g).completed < round) then s
    else s.as c n fun s =>
      let write (f : Regs → Regs) (s : State) : State :=
        s.updMe fun t => { t.unblock with regs := (f (t.regs.consume (laterSources t.held))).advance 4 }
      match i with
      | .gres d _ => write (fun r => r.writeResult op d x memb) s
      | .barmax d _ _ => (write (fun r => r.put d x.elem) (s.acquire scope)).pushDown
      | _ => s
  | _, _, _ => s

/-- A round's result reaches a core: it is held, and the group's sleepers take it (R209). -/
def State.resultAtCore (s : State) (c g : Nat) (t : Truss) (x : Item) (memb : BitVec 16) : State :=
  let s := s.updCore c fun k =>
    k.setColl { k.coll g with completed := (k.coll g).contributed, result := some (x, memb) }
  (List.finRange 8).foldl (fun s n => s.takeResult c n g t.scope t.op) s

end Sys2Proof.Machine
end

