-- ==== Sys2Proof/Machine/Control.lean ====
section
/-!
DEFINITION. Control transfer, `NOP` and hints (R54, R62, R111 to R116).
-/

namespace Sys2Proof.Machine

/-- An instruction that changes registers and sets the program counter itself, or faults. -/
def State.transfer (srcs dsts : List (BitVec 5)) (f : Regs → Except FaultInfo Regs) (s : State) : State :=
  s.issue srcs dsts fun s =>
    match f s.regs with
    | .ok r => .ok (s.setRegs r)
    | .error e => .error (.trap s e)

/-- A relative target: halfwords from the branch itself (R62). -/
def relTarget {n : Nat} (pc : Word) (off : BitVec n) : Word := pc + (sx32 off <<< 1)

/-- The target of a taken or untaken branch of length `len` (R111). -/
def Regs.branchTo (r : Regs) (taken : Bool) (target : Word) (len : Nat) : Regs :=
  { r with pc := if taken then target else r.pc + BitVec.ofNat 32 len }

/-- A compare-and-branch (R113). -/
def State.cmpBranch (d a : BitVec 5) (imm : BitVec 14) (cond : Word → Word → Bool) (s : State) : Out :=
  .next (s.transfer [d, a] [] fun r => .ok (r.branchTo (cond (r.val d) (r.val a)) (relTarget r.pc imm) 4))

/-- A branch on a register's being zero or not, of either length (R114). -/
def State.zeroBranch {n : Nat} (d : BitVec 5) (off : BitVec n) (len : Nat) (onZero : Bool) (s : State) : Out :=
  .next (s.transfer [d] [] fun r => .ok (r.branchTo ((r.val d == 0) == onZero) (relTarget r.pc off) len))

/-- An indirect jump, with a link when `link`: a target with bit 0 set faults, and only the leader's target counts in a
gang (R105, R112). -/
def State.jumpReg (a : BitVec 5) (len : Nat) (link : Bool) (s : State) : Out :=
  let follower := s.me.state == .follow
  .next (s.transfer [a] (if link then [31] else []) fun r =>
    let t := r.val a
    if t.getLsbD 0 && !follower then .error (mkFault 0x02 0x02 (t.zeroExtend 64))
    else
      let r' := if link then r.setVal 31 (r.pc + BitVec.ofNat 32 len) else r
      .ok { r' with pc := t })

/-- `B` (R112). -/
def execB (off : BitVec 24) (s : State) : Out :=
  .next (s.transfer [] [] fun r => .ok { r with pc := relTarget r.pc off })
/-- `J` (R112). -/
def execJ (off : BitVec 24) (s : State) : Out :=
  .next (s.transfer [] [] fun r => .ok { r with pc := zx32 off <<< 1 })
/-- `JL` (R112). -/
def execJl (off : BitVec 24) (s : State) : Out :=
  .next (s.transfer [] [31] fun r => .ok { r.setVal 31 (r.pc + 4) with pc := zx32 off <<< 1 })
/-- `JR` (R112). -/
def execJr (a : BitVec 5) (s : State) : Out := s.jumpReg a 4 false
/-- `JLR` (R112). -/
def execJlr (a : BitVec 5) (s : State) : Out := s.jumpReg a 4 true
/-- Short `JR` (R58). -/
def execJrShort (a : BitVec 5) (s : State) : Out := s.jumpReg a 2 false
/-- Short `JLR` (R58). -/
def execJlrShort (a : BitVec 5) (s : State) : Out := s.jumpReg a 2 true
/-- `BEQ` (R113). -/
def execBeq (d a : BitVec 5) (imm : BitVec 14) (s : State) : Out := s.cmpBranch d a imm (· == ·)
/-- `BNE` (R113). -/
def execBne (d a : BitVec 5) (imm : BitVec 14) (s : State) : Out := s.cmpBranch d a imm (· != ·)
/-- `BLT` (R113). -/
def execBlt (d a : BitVec 5) (imm : BitVec 14) (s : State) : Out := s.cmpBranch d a imm (·.slt ·)
/-- `BGE` (R113). -/
def execBge (d a : BitVec 5) (imm : BitVec 14) (s : State) : Out := s.cmpBranch d a imm (fun x y => !x.slt y)
/-- `BLTN` (R113). -/
def execBltn (d a : BitVec 5) (imm : BitVec 14) (s : State) : Out := s.cmpBranch d a imm (·.ult ·)
/-- `BGEN` (R113). -/
def execBgen (d a : BitVec 5) (imm : BitVec 14) (s : State) : Out := s.cmpBranch d a imm (fun x y => !x.ult y)
/-- `BZ` (R114). -/
def execBz (d : BitVec 5) (imm : BitVec 14) (s : State) : Out := s.zeroBranch d imm 4 true
/-- `BNZ` (R114). -/
def execBnz (d : BitVec 5) (imm : BitVec 14) (s : State) : Out := s.zeroBranch d imm 4 false
/-- Short `BZ` (R58, R114). -/
def execBzShort (a off : BitVec 5) (s : State) : Out := s.zeroBranch a off 2 true
/-- Short `BNZ` (R58, R114). -/
def execBnzShort (a off : BitVec 5) (s : State) : Out := s.zeroBranch a off 2 false
/-- `LOOP`: the count is written whether or not the branch is taken (R115). -/
def execLoop (d : BitVec 5) (imm : BitVec 14) (s : State) : Out :=
  .next (s.transfer [d] [d] fun r =>
    let n := r.val d - 1
    .ok ((r.setVal d n).branchTo (n != 0) (relTarget r.pc imm) 4))
/-- `NOP`: one turn, `pc` advances by 2 (R116). -/
def execNop (s : State) : Out := .next (s.plain 2 [] [] .ok)
/-- A 16-bit hint: a no-op (R54). -/
def execHintShort (_h : BitVec 2) (_a _b : BitVec 5) (s : State) : Out := .next (s.plain 2 [] [] .ok)
/-- A 32-bit hint: a no-op (R54). -/
def execHint (_h : BitVec 3) (_x : BitVec 24) (s : State) : Out := .next (s.plain 4 [] [] .ok)

end Sys2Proof.Machine
end

