-- ==== Sys2Proof/Machine/Handlers.lean ====
section
/-!
DEFINITION. Events of the sequencer's pipes (R290) and of fault records and pegs (R291 to R294).
-/

namespace Sys2Proof.Machine

/-! ### The pipes (R290) -/

/-- Whether a slot has an entry that a pipe of a core can take: the oldest of its thread for that pipe, whose waits are
over: no earlier entry of the thread writes a register that it reads (R148, R290). A gang's entries go with its leader's
(R154), and entries of one thread complete in program order (R147). -/
def State.pipeReady (s : State) (c : Nat) (special : Bool) (n : Fin 8) : Bool :=
  match (s.core c).pipeEntry special n with
  | none => false
  | some ([], _) => s.seqReady c n
  | some (before, e) => !e.taken && e.gang == 0 &&
      e.form.any fun v => !before.any fun x => x.written.meets v.used

/-- The slots after one, in rotation. -/
def slotsAfter (n : Fin 8) : List (Fin 8) := (List.range 8).map fun i => Fin.ofNat 8 (n.val + 1 + i)

/-- The slot that the slot table gives a pipe in a cycle (R290). -/
def State.tableSlot (s : State) (c : Nat) (special : Bool) (cycle : Nat) : Option (Fin 8) :=
  let k := s.core c
  let i := Fin.ofNat 32 cycle
  let e := k.turns[i]
  if 28 ≤ i.val then (List.finRange 8).find? fun n => (k.slot n).hcl && s.pipeReady c special n
  else if e.getLsbD 7 && s.pipeReady c special (Fin.ofNat 8 (e.toNat % 8)) then some (Fin.ofNat 8 (e.toNat % 8))
  else none

/-- The slot a pipe serves in a cycle: the slot table's, or the next in rotation (R290). -/
def State.pipeChoice (s : State) (c : Nat) (special : Bool) (cycle : Nat) : Option (Fin 8) :=
  let k := s.core c
  match s.tableSlot c special cycle with
  | some n => some n
  | none => (slotsAfter (if special then k.served.2 else k.served.1)).find? (s.pipeReady c special)

/-- The cycle in which a pipe of a core takes its next entry: the present one, or the next where it has taken one in it. -/
def Core.pipeCycle (k : Core) (special : Bool) : Nat := max k.cycle (if special then k.turn.2 else k.turn.1)

/-- Whether a pipe of a core takes an entry in the core's present cycle, before the core issues in it (R290). -/
def State.pipeDue (s : State) (c : Nat) (special : Bool) : Bool :=
  let k := s.core c
  !k.stopped && k.pipeCycle special == k.cycle && (s.pipeChoice c special k.cycle).isSome

/-- `SEQUENCER_ENTRY`: a pipe takes one entry in the present cycle; in the next one only where no slot of the core can issue
in the present one; a stopped core starts none (R147, R151, R288, R290, R298). -/
def execSequencerEntry (core : Nat) (special : Bool) (s : State) : Out :=
  let k := s.core core
  let at_ := k.pipeCycle special
  .next (if k.stopped || (at_ != k.cycle && k.slots.toList.any (·.state == .ready)) then s
    else match s.pipeChoice core special at_ with
    | none => s
    | some n => (s.updCore core (·.pipeTakes special n at_)).seqTake core special n)

/-! ### Fault records and pegs (R291 to R294) -/

/-- `FAULT_RECORD`: the earlier entries have completed, so the records are written and the slot parks (R148, R291). -/
def execFaultRecord (core : Nat) (slot : Fin 8) (s : State) : Out :=
  .next (match (s.slot core slot).pendFault with
    | none => s
    | some f =>
      if (s.core core).seqBusy slot then s
      else (s.recordFault core slot ⟨f.cls, f.detail, f.addr, f.scope⟩ f.gang).recoverLocal s core slot)

/-- The lowest slot whose peg waits for space in queue 7. -/
def Core.waitingPeg (k : Core) : Option (Fin 8 × FaultPeg) :=
  (List.finRange 8).findSome? fun n => match (k.slot n).peg with
    | some (.slot p) => some (n, p)
    | _ => none

/-- `FAULT_PEG_ENQUEUE`: a waiting peg enters queue 7, lowest slot first; then pegs of lost threads (R294, R355). -/
def execFaultPegEnqueue (core : Nat) (s : State) : Out :=
  let k := s.core core
  let own := pkgOf core
  .next (if s.saved core || (k.queue 7).free = 0 then s
    else match k.waitingPeg with
    | some (n, p) => s.deliverPeg core n p
    | none => match (s.pkg own).service.pegs.find? (·.1 == core) with
      | none => s
      | some x =>
        (s.setCore core (k.setQueue 7 { k.queue 7 with entries := (k.queue 7).entries ++ [⟨x.2, none⟩] })).updPkg own
          fun p => { p with service := { p.service with pegs := p.service.pegs.erase x } })

/-! ### The service OS (R293) -/

/-- Whether the peg of a slot stays with the service OS, which then resumes, retries or kills the thread: it belongs
to another tenant than the core's handler tenant, or is itself handler-class (R293). -/
def State.serviceKeeps (s : State) (c : Nat) (n : Fin 8) : Bool :=
  let t := s.slot c n
  decide ((s.core c).handlerTenant ≠ some t.tenant) || t.hcl

/-- A management command of the service OS on a PARKED slot whose peg it keeps (R126, R293). -/
def State.serviceAct (s : State) (c : Nat) (n : Fin 8) (f : State → Nat → Fin 8 → State) : State :=
  match (s.slot c n).peg with
  | some (.service p) =>
    if !s.saved c && s.serviceKeeps c n && (s.slot c n).state = .parked && (s.slot c n).gen = p.gen then
      (f s c n).updSlot c n fun t => if t.state = .parked then t else { t with peg := none }
    else s
  | _ => s

/-- `SERVICE_OS_RESUME` (R126, R293). -/
def execServiceOsResume (core : Nat) (slot : Fin 8) (s : State) : Out :=
  .next (s.serviceAct core slot State.resumeParked)

/-- `SERVICE_OS_RETRY` (R126, R293). -/
def execServiceOsRetry (core : Nat) (slot : Fin 8) (s : State) : Out :=
  .next (s.serviceAct core slot State.retryParked)

/-- `SERVICE_OS_KILL` (R126, R293). -/
def execServiceOsKill (core : Nat) (slot : Fin 8) (s : State) : Out :=
  .next (s.serviceAct core slot State.killThread)

end Sys2Proof.Machine
end

