-- ==== Sys2Proof/Machine/Trees.lean ====
section
/-!
DEFINITION. Events of the collective channel (R331 to R333, R367, R399) and lost members of barriers (R334).
-/

namespace Sys2Proof.Machine

/-! ### Links (R325, R399) -/

/-- The logical quad of a die at a row and a column, as part of a stop number. -/
def quadAt (die row col : Nat) : Nat := die * 1024 + row * 32 + col

/-- The neighbour of a stop router through a directional port, with the port it is reached on (R325). -/
def stopLink (r port : Nat) : Option (Nat × Nat) :=
  let die := r / 1024
  let row := r / 32 % 32
  let col := r % 32
  match port with
  | 4 => if row = 0 then none else some (quadAt die (row - 1) col, 6)
  | 5 => if col = 31 then none else some (quadAt die row (col + 1), 7)
  | 6 => if row = 31 then none else some (quadAt die (row + 1) col, 4)
  | 7 => if col = 0 then none else some (quadAt die row (col - 1), 5)
  | _ => none

/-- The stop of a die that a group's items and results pass through to and from the hub (R399). -/
def State.gateStop (s : State) (p die g : Nat) : Option Nat :=
  ((s.pkg p).truss.find? fun t => t.g == g && t.vld && decide (t.router < 2 ^ 24) && t.router / 1024 == p * 8 + die &&
    (t.par == 8 || (t.par == 63 && t.cmask.getLsbD 8))).map (·.router)

/-- The router at the other end of a port for a group, with the port an item arrives on there. -/
def State.linkOf (s : State) (r port g : Nat) : Option (Nat × Nat) :=
  let p := routerPkg r
  if r < 2 ^ 24 then
    if port = 8 then some (hubRouter p, r / 1024 % 8) else stopLink r port
  else if port < 8 then (s.gateStop p port g).map fun x => (x, 8)
  else
    (s.trussAt r g).bind fun t => (t.peers.find? (·.1 == port)).bind fun x =>
      (s.trussAt (hubRouter x.2) g).bind fun u => (u.peers.find? (·.2 == p)).map fun y => (hubRouter x.2, y.1)

/-! ### Items and results (R332) -/

/-- An item or a result sent through a port of a router; a core port of a stop hands a result to its core (R209). It has
the colour of the message that set it off (R300). Without a pod route it is dropped and counted (R341). -/
def State.sendColl (s : State) (r port : Nat) (t : Truss) (x : Item) (memb : BitVec 16) (col down : Bool) : State :=
  if r < 2 ^ 24 && port < 4 then s.resultAtCore (r * 4 + port) t.g t x memb
  else match s.linkOf r port t.g with
    | none => s
    | some (r', port') =>
      if s.routed (routerPkg r) (routerPkg r') then
        { s with collMsgs := s.collMsgs ++ [s.collMsg (.router r) t.dom col r' port' t.g x memb down] }
      else s.updPkg (routerPkg r) fun p => { p with errors := p.errors + 1 }

/-- A router whose entry has an item of every child port folds them and sends the partial to its parent, or, at the
root, the result on its way down (R332). -/
def State.foldRound (s : State) (t : Truss) (col : Bool) : State :=
  if !t.children.all (fun p => (look t.items p).isSome) then s.setTruss t
  else
    let x := foldItems t.op t.items
    let s := s.setTruss { t with items := [], kept := some x }
    if t.par = 63 then
      { s with collMsgs := s.collMsgs ++ [s.collMsg (.router t.router) t.dom col t.router 0 t.g x t.memb true] }
    else s.sendColl t.router t.par t x 0 col false

/-- What a router takes of an item: a poisoned one is omitted, with every contribution in it (R210, R333). -/
def CollMsg.taken (m : CollMsg) : Item :=
  if m.psn then { Item.none with omitted := m.item.count + m.item.omitted } else m.item

/-- A contribution has entered its stop router: its core counts it as received (R300). -/
def State.countItem (s : State) (m : CollMsg) : State :=
  match m.src with
  | .core c => if m.col = (s.core c).counted then s.countReceived c else s
  | .router _ => s

/-! ### Partitions and links (R300, R301, R339) -/

/-- The partition that is being pre-empted and holds a router: the hub belongs to one of whole packages (R296). -/
def State.stoppingRouter (s : State) (r : Nat) : Option Preemption :=
  if r < 2 ^ 24 then s.stopping (r * 4)
  else s.stops.find? fun h => h.pkgs.contains (routerPkg r) && decide (8 ≤ h.dies.length)

/-- Whether the sender of a collective message lies in a partition. -/
def State.sentInside (s : State) (h : Preemption) : CollSource → Bool
  | .core c => h.holds c
  | .router r => s.stoppingRouter r == some h

/-- Whether a collective message is held at the edge of a stopped partition: its sender lies outside, and the router's
section has not been written back for the resume (R301, R303). -/
def State.edgeHoldsColl (s : State) (m : CollMsg) : Bool :=
  match s.stoppingRouter m.router with
  | none => false
  | some h =>
    let p := s.pkg (routerPkg m.router)
    h.now p && !s.sentInside h m.src && (h.resumeTime.isNone || p.sections.any (·.stop == m.router))

/-- A core that stands for a router in the routes of the collective channel, or the hub's agent (R324, R325). -/
def routerAgent (r : Nat) : Nat := if r < 2 ^ 24 then r * 4 else controlAgent (routerPkg r)

/-- Whether the links between a collective message's sender and its router carry it (R339 to R341). -/
def State.collCarried (s : State) (m : CollMsg) : Bool :=
  match m.src with
  | .core _ => true
  | .router r => s.carries (routerAgent r) (routerAgent m.router) 3

/-- Whether a collective message can come in now. -/
def State.collComes (s : State) (m : CollMsg) : Bool := !s.edgeHoldsColl m && s.collCarried m

/-- Whether an item is parked at its router: the round in progress has an item of its port (R211, R300). -/
def State.parkedItem (s : State) (m : CollMsg) : Bool :=
  !m.down && (match s.trussAt m.router m.g with
    | some t => (look t.items m.port).isSome
    | none => false)

/-- `COLLECTIVE_ITEM`: an item arrives at a port of a router, which folds a complete round (R332). -/
def execCollectiveItem (router port g : Nat) (s : State) : Out :=
  .next (match s.collMsgs.find? (fun m => !m.down && m.router == router && m.port == port && m.g == g) with
    | none => s
    | some m =>
      if !s.collComes m || s.parkedItem m then s
      else
        let s := ({ s with collMsgs := s.collMsgs.erase m }).countItem m
        match s.trussAt router g with
        | none => s
        | some t =>
          if t.children.contains port then s.foldRound { t with items := put t.items port m.taken } m.col else s)

/-- `COLLECTIVE_RESULT`: a round's result passes a router to every port of its `cmask`; the kept partial goes (R332). -/
def execCollectiveResult (router g : Nat) (s : State) : Out :=
  .next (match s.collMsgs.find? (fun m => m.down && m.router == router && m.g == g) with
    | none => s
    | some m =>
      if !s.collComes m then s
      else
        let s := { s with collMsgs := s.collMsgs.erase m }
        match s.trussAt router g with
        | none => s
        | some t =>
          t.children.foldl (fun s p => s.sendColl router p t m.item m.memb m.col true)
            (s.setTruss { t with kept := none }))

/-! ### Membership (R333, R334, R367) -/

/-- The members behind a port of a router, as the entries name them, but for those behind a router that `cut` picks.
`fuel` bounds the depth of the tree. -/
def State.membersBehind (s : State) (g : Nat) (cut : Nat → Bool) : Nat → Nat → Nat → Nat
  | 0, _, _ => 0
  | fuel + 1, r, port =>
    if r < 2 ^ 24 && port < 4 then 1
    else match s.linkOf r port g with
      | none => 0
      | some (r', _) =>
        if cut r' then 0
        else match s.trussAt r' g with
          | none => 0
          | some t => (t.children.map (s.membersBehind g cut fuel r')).foldl (· + ·) 0

/-- A truss entry with new child ports and parent, its `exp` to match (R331, R333). -/
def Truss.rewrite (t : Truss) (cmask : BitVec 40) (par : BitVec 6) : Truss :=
  { t with bits := trussBits t.dom t.memb cmask par t.op t.scope }

/-- The routers of a group that stand next to a router in its tree. -/
def State.nextTo (s : State) (g r : Nat) : List Nat :=
  match s.trussAt r g with
  | none => []
  | some t => ((t.par :: t.children).filterMap fun p => s.linkOf r p g).map (·.1)

/-- The routers of the trees that hold some routers of a group: another group of the tenant under the same number has other
routers. `fuel` bounds the way between two of them. -/
def State.treeOf (s : State) (g : Nat) : Nat → List Nat → List Nat
  | 0, l => l
  | fuel + 1, l => s.treeOf g fuel (l ++ l.flatMap (s.nextTo g)).eraseDups

/-- The membership number of every entry of the group that some routers belong to increments (R333). -/
def State.bumpMembers (s : State) (ten g : Nat) (at_ : List Nat) : State :=
  let all := s.treeOf g 64 at_
  let f (t : Truss) : Truss :=
    if t.g == g && t.dom == ten && all.contains t.router then
      { t with bits := trussBits t.dom (t.memb + 1) t.cmask (BitVec.ofNat 6 t.par) t.op t.scope }
    else t
  { s with pkgs := s.pkgs.map fun k => (k.1, { k.2 with truss := k.2.truss.map f }) }

/-- Whether an entry may be installed: its parent is no child port (R331). -/
def changeFits (x : TrussChange) : Bool := !(decide (x.par.toNat < 40) && x.cmask.getLsbD x.par.toNat)

/-- An entry as a change leaves it: the packages at the ends of its pod ports join those it knows (R331, R333). -/
def Truss.changed (t : Truss) (x : TrussChange) : Truss :=
  { t.rewrite x.cmask x.par with peers := x.peers ++ t.peers.filter fun y => !x.peers.any (·.1 == y.1) }

/-- The changes that a rewrite of a group makes: to entries that it has, and that may be installed (R331). -/
def State.changesOf (s : State) (ten g : Nat) (changes : List TrussChange) : List (Truss × TrussChange) :=
  changes.filterMap fun x => match s.trussAt x.router g with
    | some t => if t.dom = ten && changeFits x then some (t, x) else none
    | none => none

/-- Whether a router that is given a new parent stands behind a port of a router. `fuel` bounds the depth of the tree. -/
def State.movedBehind (s : State) (g : Nat) (moved : Nat → Bool) : Nat → Nat → Nat → Bool
  | 0, _, _ => false
  | fuel + 1, r, port =>
    if r < 2 ^ 24 && port < 4 then false
    else match s.linkOf r port g with
      | none => false
      | some (r', _) => moved r' || (match s.trussAt r' g with
        | none => false
        | some t => t.children.any (s.movedBehind g moved fuel r'))

/-- One rewritten entry: what is missing behind a lost port counts once as omitted, unless its router has a new parent, and
so does an item that a lost router has folded of such routers, which send theirs again; a kept partial goes to a new parent
that has not folded it yet; and a round that has every item completes (R210, R333). -/
def State.rewriteEntry (s : State) (g : Nat) (moved : Nat → Bool) (t : Truss) (u : Truss) : State :=
  let gone := t.children.filter (fun p => !u.cmask.getLsbD p)
  let items := gone.foldl (fun l p =>
    if t.kept.isSome || ((look l p).isSome && !s.movedBehind g moved 64 t.router p) then l
    else put l p { Item.none with omitted := s.membersBehind g moved 64 t.router p }) t.items
  let v := { u with items := items }
  match t.kept with
  | none => s.foldRound v false
  | some x =>
    let s := s.setTruss v
    let folded := match s.linkOf t.router v.par g with
      | none => false
      | some (r, _) => (s.trussAt r g).any (·.kept.isSome)
    if v.par = t.par || folded then s
    else if v.par = 63 then
      { s with collMsgs := s.collMsgs ++ [s.collMsg (.router t.router) t.dom false t.router 0 g x v.memb true] }
    else s.sendColl t.router v.par v x 0 false false

/-- `TRUSS_REWRITE`: the control dies rewrite the entries of a group that a loss concerns: child ports, parents, and the
membership number of every entry of the group; kept partials go to new parents, and rounds that have every item complete
(R210, R333). -/
def execTrussRewrite (ten g : Nat) (first : TrussChange) (others : List TrussChange) (s : State) : Out :=
  let old := s.changesOf ten g (first :: others)
  let moved (r : Nat) : Bool := old.any fun x => x.1.router == r && x.2.par.toNat != x.1.par
  let before := s
  let s := s.bumpMembers ten g (old.map (·.1.router))
  let s := old.foldl (fun s x => match s.trussAt x.1.router g with
    | some t => s.setTruss (t.changed x.2)
    | none => s) s
  .next (old.foldl (fun s x => match s.trussAt x.1.router g with
    | some u => s.rewriteEntry g (fun r => moved r || (before.trussAt r g).isNone) { x.1 with items := u.items, kept := u.kept } u
    | none => s) s)

/-- Whether a group is between two rounds: no router holds an item or a partial of it, and none is under way (R367). -/
def State.roundOver (s : State) (ten g : Nat) : Bool :=
  s.pkgs.all (fun p => p.2.truss.all fun t => t.g != g || t.dom != ten || (t.items.isEmpty && t.kept.isNone)) &&
    !s.collMsgs.any (fun m => m.g == g && (s.trussAt m.router g).any (·.dom == ten))

/-- `MEMBER_READD`: at a round boundary members join entries of a group again, with the next membership number (R367). -/
def execMemberReadd (ten g : Nat) (changes : List TrussChange) (s : State) : Out :=
  let old := (s.changesOf ten g changes).filter fun x => x.1.cmask &&& ~~~x.2.cmask == 0
  .next (if old.isEmpty || !s.roundOver ten g then s
    else old.foldl (fun s x => match s.trussAt x.1.router g with
      | some t => s.setTruss (t.changed x.2)
      | none => s) (s.bumpMembers ten g (old.map (·.1.router))))

/-- The core-scope count of a tenant's barrier on a core: the supplied one, or the sum of the concurrency limits of its
compute stages (R276). -/
def Core.barrierCount (k : Core) (ten : Nat) : Nat :=
  match k.parts.find? (·.tenant == ten) with
  | none => 0
  | some p =>
    if p.bcnt ≠ 0 then p.bcnt
    else (k.stages.toList.filter (fun g => g.bits.getLsbD 31 && !g.bits.getLsbD 30 && g.tenant == ten)).foldl
      (fun n g => n + (g.bits.extractLsb' 24 3).toNat + 1) 0

/-- The count of a tenant's barrier in an instance: the sum over the cores it holds, without those that are lost and those of
packages that have been declared lost before (R276, R334). -/
def State.barrierCount (s : State) (ten level inst : Nat) (lost : Nat → Bool) : Nat :=
  (s.cores.filter (fun k => instanceOf level k.1 == inst && !lost k.1 && !(s.pkg (pkgOf k.1)).failed)).foldl (fun n k => n + k.2.barrierCount ten) 0

/-- Lost members of every barrier count as arrived in the phase in progress, and later phases leave them out (R276,
R334). -/
def State.loseMembers (s : State) (lost : Nat → Bool) : State :=
  s.barriers.foldl (fun s b =>
    let b := s.barrier b.tenant b.level b.inst
    let gone := s.cores.filter (fun k => instanceOf b.level k.1 == b.inst && lost k.1)
    if gone.isEmpty then s
    else
      let missing := gone.foldl (fun n k => n + (k.2.barrierCount b.tenant - b.arrived.count k.1)) 0
      s.settleBarrier { b with
        lost := b.lost + missing
        signals := b.signals.filter (fun c => !lost c)
        later := s.barrierCount b.tenant b.level b.inst lost }) s

end Sys2Proof.Machine
end

