-- ==== Sys2Proof/Machine/Preempt.lean ====
section
/-!
DEFINITION. Events of pre-emption (R296 to R304).
-/

namespace Sys2Proof.Machine

/-! ### The stop (R296 to R298) -/

/-- Whether a partition is whole logical dies of one package, or every die of a set of packages (R296). -/
def goodPartition (pkgs dies : List Nat) : Bool :=
  !pkgs.isEmpty && !dies.isEmpty && dies.all (· < 8) && (pkgs.length == 1 || (List.range 8).all dies.contains)

/-- Whether a partition shares a die with one that is being pre-empted. -/
def State.overlaps (s : State) (pkgs dies : List Nat) : Bool :=
  s.stops.any fun h => h.pkgs.any pkgs.contains && h.dies.any dies.contains

/-- `STOP_TIME_WRITE`: the service processor gives a partition a stop time; no stop time joins packages of which one has
lost its synchronisation (R296, R297, R342). -/
def execStopTimeWrite (pkgs dies : List Nat) (time : Nat) (s : State) : Out :=
  .next (if !goodPartition pkgs dies || s.overlaps pkgs dies || (1 < pkgs.length && pkgs.any fun p => (s.pkg p).syncLost) then s
    else { s with stops := s.stops ++ [⟨pkgs, dies, time, none, false⟩] })

/-- A sleeper in `WAITNE`, or one whose compare its home has not made, is left with its instruction not yet executed
(R177). -/
def Slot.unarm (t : Slot) : Slot :=
  match t.wait, t.held, t.reply with
  | .monitor, _, _ | .monitorRetry, _, _ => t.unblock
  | .request, some (.waitne _ _ _ _ _ _ _), none => t.unblock
  | _, _, _ => t

/-- `CORE_STOP`: a core of a partition stops at or after its stop time: its colour flips and its monitors are removed
(R177, R297, R300); the header of its image names the time (R302). -/
def execCoreStop (core : Nat) (s : State) : Out :=
  let k := s.core core
  .next (if k.stopped || !s.mustStop core then s
    else { s with monitors := s.monitors.filter (·.tcore != core) }.setCore core
      { k with stopped := true, stopAt := (s.pkg (pkgOf core)).ptc, colour := !k.colour, slots := k.slots.map Slot.unarm })

/-- Whether work that goes on after a stop remains on a core (R298). -/
def Core.working (k : Core) : Bool :=
  k.slots.toList.any (fun t => t.wait == .request || t.wait == .status || t.wait == .commit || t.wait == .host) ||
    !k.matrix.jobs.isEmpty || k.copies.any (fun x => !x.units.isEmpty)

/-! ### The cut (R300, R301) -/

/-- The touched cores of a partition. -/
def State.coresOf (s : State) (h : Preemption) : List (Nat × Core) := s.cores.filter fun k => h.holds k.1

/-- The touched cores of a partition that its cut counts: those of a failed stop are left out (R361). -/
def State.cutCores (s : State) (h : Preemption) : List (Nat × Core) := (s.coresOf h).filter fun k => !s.stopFailed k.1

/-- Messages of a partition's cores that have passed its edge and have not arrived yet, or that wait for the cores of a
failed stop: they count as received (R301, R361). -/
def State.leaving (s : State) (h : Preemption) : Nat :=
  (s.fabric.filter fun m => m.onMessage && h.holds m.src && !s.stopFailed m.src &&
    (!h.holds m.dst || s.stopFailed m.dst) && m.col == (s.core m.src).counted).length

/-- Contributions of a partition's cores that are parked at a router: they count as received (R300). -/
def State.parkedItems (s : State) (h : Preemption) : Nat :=
  (s.collMsgs.filter fun m => s.parkedItem m && (match m.src with
    | .core c => h.holds c && !s.stopFailed c && m.col == (s.core c).counted
    | .router _ => false)).length

/-- Whether collective messages between routers of a partition are under way and not parked: the cut waits for them
(R211, R300; DEDUCED, entry 73). -/
def State.treeBusy (s : State) (h : Preemption) : Bool :=
  s.collMsgs.any fun m => s.sentInside h m.src && s.stoppingRouter m.router == some h && !s.parkedItem m

/-- Whether a partition's cut can close: every core has stopped, no work that goes on after the stop remains, no module
is paused, and as many messages have been received as were sent (R298, R300, R339). -/
def State.cutCloses (s : State) (h : Preemption) : Bool :=
  let cores := s.cutCores h
  cores.all (fun k => k.2.stopped && !k.2.working) && !h.pkgs.any (fun p => (s.pkg p).modules.any (·.paused)) &&
    !s.treeBusy h &&
    cores.foldl (fun n k => n + k.2.sent) 0 ==
      cores.foldl (fun n k => n + k.2.received) 0 + s.leaving h + s.parkedItems h

/-- `CUT_COUNT_SUM`: the management tree of each partition that holds a package sums its counts, and a cut may close
(R300). -/
def execCutCountSum (pkg : Nat) (s : State) : Out :=
  .next { s with stops := s.stops.map fun h =>
    if h.pkgs.contains pkg && !h.cutClosed && s.cutCloses h then { h with cutClosed := true } else h }

/-! ### The images (R302) -/

/-- The mask of the sections that an image has: a thread image for each slot that is not FREE, sequencer entries, the
matrix unit when it has been used since the last restore, and copies. The order of the bits is the model's (DESIGN CHOICE,
entry 77). -/
def Core.presence (k : Core) : BitVec 11 :=
  BitVec.ofBoolListLE ((List.finRange 8).map (fun n => (k.slot n).state != .free) ++
    [!k.seq.isEmpty, k.matrix.used, !k.copies.isEmpty]) |>.setWidth 11

/-- The phase counts of a core: tenant, level and count (R42, R179). -/
def State.phasesOf (s : State) (c : Nat) : List (Nat × Nat × BitVec 16) :=
  (s.barriers.filter fun b => instanceOf b.level c == b.inst).map fun b => (b.tenant, b.level, b.phase)

/-- The image of a core (R42, R302): R42 counts the PLB in it, and R10 puts R42 before R302, which leaves it out (DEDUCED,
entry 99). -/
def State.imageOf (s : State) (c : Nat) : CoreImage :=
  let k := s.core c
  { core := c, inc := (s.pkg (pkgOf c)).mapInc false (dieOf c), present := k.presence, stopAt := k.stopAt
    states := k.slots.map (·.state), phases := s.phasesOf c, slots := k.slots, orph := k.orph, loc := k.loc
    ltags := k.ltags, lpoison := k.lpoison, queues := k.queues, stages := k.stages, turns := k.turns
    staged := k.staged, seq := k.seq, matrix := k.matrix, copies := k.copies, plb := k.plb }

/-- The section of a stop's router (R211, R302). -/
def State.sectionOf (s : State) (stop : Nat) : RouterImage :=
  let h := s.stoppingRouter stop
  { stop := stop
    truss := (s.pkg (routerPkg stop)).truss.filter (·.router == stop)
    colls := s.collMsgs.filter fun m => m.router == stop && h.any (s.sentInside · m.src)
    arrivals := s.barriers.map fun b => (b.tenant, b.level, b.inst, b.phase, b.arrived.filter fun c => stopOf c == stop)
    parked := (s.pkg (routerPkg stop)).parked.filter fun x => !x.spilled && stopOf x.core == stop }

/-- A save reads the accumulators: one that holds a flipped bit is marked bad, in the image too (R309, R310). -/
def Matrix.readAll (m : Matrix) : Matrix :=
  { m with bad := Vector.ofFn fun i => m.bad[i] || m.flipped[i], flipped := Vector.replicate 4 false }

/-- An image of a core written into the context area, with its router's section (R302). -/
def State.saveCore (s : State) (c : Nat) : State :=
  s.updPkg (pkgOf c) fun p => { p with
    contexts := put p.contexts c (s.imageOf c)
    sections := p.sections.filter (·.stop != stopOf c) ++ [s.sectionOf (stopOf c)] }

/-- `CONTEXT_SAVE`: a core's image is written once the cut has closed, that of a failed stop's core only after recovery; a
parity error found in an accumulator is reported (R300, R302, R309, R310, R361). -/
def execContextSave (core : Nat) (s : State) : Out :=
  let k := s.core core
  .next (if !k.stopped || s.saved core || s.stopFailed core || !(s.stopping core).any (·.cutClosed) then s
    else
      let s := if k.matrix.flipped.toList.any id then
          (s.updCore core fun k => { k with matrix := k.matrix.readAll }).report (pkgOf core) (s.coreUnit core) false false
        else s
      s.saveCore core)

/-! ### The resume (R303, R304) -/

/-- A core with an image written back: the matrix unit has not been used since, the PLB keeps no entry that has been dropped
meanwhile, and the queues keep the reservations as they now stand (R42, R268, R302 to R304). The phase counts stand at their
instances (entry 72). -/
def Core.load (k : Core) (i : CoreImage) : Core :=
  { k with
    slots := i.slots, orph := i.orph, loc := i.loc, ltags := i.ltags, lpoison := i.lpoison
    queues := Vector.ofFn fun q => { i.queues[q] with reserved := k.queues[q].reserved }
    stages := i.stages, turns := i.turns, staged := i.staged, seq := i.seq
    matrix := { i.matrix with used := false }, copies := i.copies, plb := i.plb.filter k.plb.contains }

/-- A barrier with the saved arrivals of a stop's cores in the phase that is still in progress (R302). -/
def Barrier.putBack (b : Barrier) (x : RouterImage) : Barrier :=
  match x.arrivals.find? fun a => a.1 == b.tenant && a.2.1 == b.level && a.2.2.1 == b.inst && a.2.2.2.1 == b.phase with
  | none => b
  | some a => { b with arrived := b.arrived.filter (fun c => stopOf c != x.stop) ++ a.2.2.2.2 }

/-- A router's section written back: truss entries that have not been rewritten since with their items and partials,
parked items, arrivals, and the overflow buffer ahead of every other message (R211, R302, R303). -/
def State.putSection (s : State) (x : RouterImage) : State :=
  let item (t : Truss) : Truss := (x.truss.find? fun u => u.router == t.router && u.g == t.g && u.bits == t.bits).getD t
  let s := s.updPkg (routerPkg x.stop) fun p => { p with
    truss := p.truss.map item
    parked := x.parked ++ p.parked.filter fun y => y.spilled || stopOf y.core != x.stop
    sections := p.sections.filter (·.stop != x.stop) }
  { s with
    collMsgs := x.colls ++ s.collMsgs.filter fun m => !x.colls.contains m
    barriers := s.barriers.map (·.putBack x) }

/-- `CONTEXT_RESTORE`: a core's image and its router's section are written back, and the partition's resume time is set
(R303). -/
def execContextRestore (core time : Nat) (s : State) : Out :=
  let p := s.pkg (pkgOf core)
  .next (match look p.contexts core with
    | none => s
    | some i =>
      if !(s.core core).stopped then s
      else
        let s := (s.updCore core (·.load i)).updPkg (pkgOf core) fun p => { p with contexts := drop p.contexts core }
        let s := match p.sections.find? (·.stop == stopOf core) with
          | some x => s.putSection x
          | none => s
        { s with stops := s.stops.map fun h => if h.holds core then { h with resumeTime := some time } else h })

/-- Whether nothing waits any more to come into a restored core ahead of new messages: no parked message that finds
space, and none released at the edge (R303). -/
def State.caughtUp (s : State) (c : Nat) : Bool :=
  (List.range 8).all (fun q => (s.parkedNext c q).isNone) &&
    !s.fabric.any fun m => m.dst == c && m.onMessage && !s.together m.src c && s.carries m.src c 2

/-- The sleepers of a resumed core whose phase has changed or whose result has arrived wake (R179, R209, R303). -/
def State.wakeSleepers (s : State) (c : Nat) : State :=
  (List.finRange 8).foldl (fun s n =>
    let s := s.wakePhase c n
    match (s.slot c n).wait with
    | .result g _ => match s.groupOf (s.slot c n).tenant g with
      | some t => s.takeResult c n g t.scope t.op
      | none => s
    | _ => s) s

/-- `CORE_RESUME`: at the resume time a restored core goes on from its saved state with its counts at zero, once what
waited for it has come in; the partition ends with its last core (R303). -/
def execCoreResume (core : Nat) (s : State) : Out :=
  let k := s.core core
  let p := s.pkg (pkgOf core)
  .next (match (s.stopping core).bind (·.resumeTime) with
    | none => s
    | some t =>
      if !k.stopped || s.saved core || p.ptc.toNat < t || !s.caughtUp core then s
      else
        let s := (s.setCore core { k with stopped := false, sent := 0, received := 0 }).wakeSleepers core
        { s with stops := s.stops.filter fun h => !h.holds core || (s.coresOf h).any (·.2.stopped) })

/-- The image of a saved core written again after recovery has changed its threads (R302, R355). -/
def State.resave (s : State) (c : Nat) : State := if s.saved c then s.saveCore c else s

end Sys2Proof.Machine
end

