-- ==== Sys2Proof/Machine/Bind.lean ====
section
/-!
DEFINITION. Binding and unbinding a tenant (R69, R252, R272 to R276, R283, R346, R347, R399, R400): the binding request,
its checks, the truss entries of its groups, and what the control die installs and releases.
-/

namespace Sys2Proof.Machine

/-! ### The binding request (R347) -/

/-- A placement entry. -/
structure Placement where
  core  : Nat
  sidx  : Nat
  kc    : Nat
  pbase : Nat
  plen  : Nat
  cbk   : Nat
  quota : Nat
  rpl   : Nat
  bcnt  : Nat
  /-- Its RES bytes are zero. -/
  clean : Bool
  deriving DecidableEq, Repr

/-- A group entry. -/
structure GroupEntry where
  g     : Nat
  op    : Nat
  root  : Nat
  first : Nat
  count : Nat
  /-- Its RES bytes are zero. -/
  clean : Bool
  deriving DecidableEq, Repr

/-- A binding request. -/
structure BindRequest where
  /-- Where the tenant image lies in host memory, and its length; the event brings its parts as data (R69; entry 13). -/
  iaddr   : Nat
  ilen    : Nat
  pool    : Nat
  rcore   : Nat
  places  : List Placement
  groups  : List GroupEntry
  members : List Nat
  deriving DecidableEq, Repr

/-- A little-endian field of `n` bytes at an offset of a byte string. -/
def fieldAt (b : List Byte) (off n : Nat) : Nat := leValue ((b.drop off).take n)

/-- Whether `n` bytes at an offset are zero. -/
def zeroAt (b : List Byte) (off n : Nat) : Bool := ((b.drop off).take n).all (· == 0)

/-- A placement entry from its 32 bytes. -/
def placementOf (b : List Byte) : Placement where
  core := fieldAt b 0 4
  sidx := fieldAt b 4 1
  kc := fieldAt b 5 1
  pbase := fieldAt b 6 2
  plen := fieldAt b 8 2
  cbk := fieldAt b 10 2
  quota := fieldAt b 12 2
  rpl := fieldAt b 14 1
  bcnt := fieldAt b 16 4
  clean := zeroAt b 15 1 && zeroAt b 20 12

/-- A group entry from its 16 bytes. -/
def groupEntryOf (b : List Byte) : GroupEntry where
  g := fieldAt b 0 1
  op := fieldAt b 1 1
  root := fieldAt b 4 4
  first := fieldAt b 8 4
  count := fieldAt b 12 4
  clean := zeroAt b 2 2

/-- A binding request read from host memory: its length must agree with its counts, and its header's RES bytes be zero
(R346, R347). -/
def readRequest (m : Memory) (addr len : Nat) : Option BindRequest :=
  let h := m.readN addr 64
  let np := fieldAt h 16 4
  let ng := fieldAt h 20 4
  let nm := fieldAt h 24 4
  if len ≠ 64 + 32 * np + 16 * ng + 4 * nm || !zeroAt h 36 28 then none
  else
    let at1 := addr + 64 + 32 * np
    let at2 := at1 + 16 * ng
    some {
      iaddr := fieldAt h 0 8
      ilen := fieldAt h 8 8
      pool := fieldAt h 28 4
      rcore := fieldAt h 32 4
      places := (List.range np).map fun i => placementOf (m.readN (addr + 64 + 32 * i) 32)
      groups := (List.range ng).map fun i => groupEntryOf (m.readN (at1 + 16 * i) 16)
      members := (List.range nm).map fun i => leValue (m.readN (at2 + 4 * i) 4) }

/-! ### Descriptors (R273, R274) -/

/-- The 128 bits that a placement installs: the image's descriptor, with `cbk` and `quota` replaced where the placement
says so (R273, R347). -/
def Placement.bits (p : Placement) (d : BitVec 128) : BitVec 128 :=
  let q : BitVec 16 := if p.rpl / 2 % 2 = 1 then BitVec.ofNat 16 p.quota else d.extractLsb' 112 16
  let k : BitVec 16 := if p.rpl % 2 = 1 then BitVec.ofNat 16 p.cbk else d.extractLsb' 96 16
  q ++ k ++ d.extractLsb' 0 96

/-- The image's descriptor of a stage index (R69). -/
def imageStage (x : BindSupply) (i : Nat) : Option (BitVec 128) :=
  x.stages.find? fun d => (d.extractLsb' 0 4).toNat == i

/-- Whether the fields of a descriptor stand by themselves as R273 and R274 ask. -/
def descriptorOk (d : BitVec 128) : Bool :=
  let inq := (d.extractLsb' 21 3).toNat
  let rout := (d.extractLsb' 18 2).toNat
  let obk := (d.extractLsb' 16 2).toNat
  let oq := (d.extractLsb' 13 3).toNat
  d.extractLsb' 4 9 == 0 && !d.getLsbD 27 && !d.getLsbD 32 && d.extractLsb' 96 4 == 0 && rout != 3 &&
    (if d.getLsbD 30 then inq == 7 && !d.getLsbD 20 && rout == 0 && obk == 0 else decide (inq ≤ 5)) &&
    ((obk == 0) == (rout == 0)) && (obk != 1 || oq == 0) && (obk < 2 || decide (oq ≤ 4)) &&
    (obk == 3 || d.extractLsb' 64 32 == 0)

/-- The quotas of the stages that a tenant has bound in a package (R274). -/
def State.boundQuota (s : State) (pkg ten : Nat) : Nat := (s.tenantStages pkg ten).foldl (fun n g => n + g.2.2) 0

/-- Whether a core holds a bound stage. -/
def Core.bound (k : Core) : Bool := k.stages.toList.any (·.bits.getLsbD 31)

/-- Whether a placement's descriptor can be installed beside the others of its request (R274). `before` are the
placements that come first. -/
def State.descriptorFits (s : State) (ten : Nat) (x : BindSupply) (r : BindRequest) (before : List Placement)
    (p : Placement) (d : BitVec 128) : Bool :=
  let k := s.core p.core
  let b := p.bits d
  let others := before.filter (·.core == p.core)
  let quota (q : Placement) : Nat := (((imageStage x q.sidx).map q.bits).getD 0).extractLsb' 112 16 |>.toNat
  let isHandler (q : Placement) : Bool := ((imageStage x q.sidx).getD 0).getLsbD 30
  let ocore := (b.extractLsb' 64 32).toNat
  descriptorOk b && !(k.stages[b.extractLsb' 0 4 |>.toFin]).bits.getLsbD 31 && !others.any (·.sidx == p.sidx) &&
    decide ((b.extractLsb' 96 16).toNat + 112 ≤ p.plen * 1024) &&
    decide (s.boundQuota (pkgOf p.core) ten +
      (before.filter (pkgOf ·.core == pkgOf p.core)).foldl (fun n q => n + quota q) 0 + quota p ≤ r.pool) &&
    (!isHandler p || (match k.handlerTenant with
      | none => true
      | some t => t == ten)) &&
    ((b.extractLsb' 16 2).toNat != 3 ||
      (s.goodName ocore && ((s.core ocore).holdsStage ten || r.places.any (·.core == ocore))))

/-! ### The other checks (R252, R347) -/

/-- Whether a placement's core, keep size and partition can be taken (R252, R347). -/
def State.placementOk (s : State) (ten : Nat) (x : BindSupply) (r : BindRequest) (p : Placement) : Bool :=
  let k := s.core p.core
  let lo := p.pbase * 1024
  let hi := lo + p.plen * 1024
  let others := k.parts.filter (·.tenant != ten)
  let gang := ((x.gangs.find? (·.1 == p.sidx)).map (·.2)).getD 1
  p.clean && decide (p.rpl < 4) && decide (p.kc ≤ 8) && s.goodName p.core &&
    (imageStage x p.sidx).isSome &&
    r.places.all (fun q => q.core != p.core ||
      (q.kc == p.kc && q.pbase == p.pbase && q.plen == p.plen && q.bcnt == p.bcnt)) &&
    (!k.bound || k.kc == p.kc) && decide (hi ≤ 65536 - 4096 * p.kc) &&
    others.all (fun o => decide (hi ≤ o.base) || decide (o.base + o.len ≤ lo)) && decide (others.length < 4) &&
    k.parts.all (fun o => o.tenant != ten || (o.base == lo && o.len == hi - lo)) &&
    decide (x.localImage.length ≤ p.plen * 1024) &&
    (gangCores p.core (max 1 gang)).all (fun c => r.places.any (fun q => q.core == c && q.sidx == p.sidx))

/-- The properties of every capability that the control die creates (R247). -/
def rootCapOk (c : Cap) : Bool :=
  decide (c.space ≤ 4) && decide (c.base + c.len ≤ if c.space = spLOCAL || c.space = spCTRL then 2 ^ 16
    else if c.space = spWINDOW then 2 ^ 42 else 2 ^ 52)

/-- The package of a control-die agent identifier (R324). -/
def controlDie (n : Nat) : Option Nat := if n / 2 ^ 26 = 2 && n % 2 ^ 15 = 0 then some (n / 2 ^ 15 % 2 ^ 11) else none

/-- The members that a group entry names. -/
def BindRequest.membersOf (r : BindRequest) (e : GroupEntry) : List Nat := (r.members.drop e.first).take e.count

/-- Whether a group entry's fields and members can be taken: every member is a placed core of the tenant, by this request
or by an earlier binding (R347). -/
def State.groupOk (s : State) (ten : Nat) (r : BindRequest) (e : GroupEntry) : Bool :=
  e.clean && decide (e.g < 64) && decide (e.op < 8) && decide (1 ≤ e.count) &&
    decide (e.first + e.count ≤ r.members.length) &&
    (s.goodName e.root || (match controlDie e.root with
      | some p => decide (p < s.podSize)
      | none => false)) &&
    (r.membersOf e).all (fun c => s.goodName c &&
      (r.places.any (·.core == c) || (s.core c).holdsStage ten))

/-! ### Truss entries (R325, R331, R399) -/

/-- The stop of a die that a group's items meet at: the root's, or the member stop of lowest quad index (R399). -/
def gatheringStop (die : Nat) (root : Option Nat) (stops : List Nat) : Option Nat :=
  match root with
  | some r => if r / 1024 = die then some r else stops.min?
  | none => stops.min?

/-- The next stop from one stop toward another of the same die, with the port it leaves by: X first, then Y (R325). -/
def nextStop (a b : Nat) : Option (Nat × Nat) :=
  let port :=
    if a % 32 < b % 32 then 5 else if b % 32 < a % 32 then 7
    else if a / 32 % 32 < b / 32 % 32 then 6 else 4
  if a = b then none else (stopLink a port).map fun x => (x.1, port)

/-- The stops of the route from one stop to another, both included. -/
def routeTo (b : Nat) : Nat → Nat → List Nat
  | 0, a => [a]
  | fuel + 1, a => match nextStop a b with
    | none => [a]
    | some (n, _) => a :: routeTo b fuel n

/-- The port on which a stop's partial arrives at the next stop. -/
def arrivalPort (port : Nat) : Nat := if port < 6 then port + 2 else port - 2

/-- A mask from port numbers. -/
def portMask (l : List Nat) : BitVec 40 := l.foldl (fun m p => m ||| BitVec.twoPow 40 p) 0

/-- The truss entries of the stops of one die: router, child ports and parent port (R399). `more` says that the root
receives a partial from the hub. -/
def dieTree (die : Nat) (root : Option Nat) (members : List Nat) (more : Bool) : List (Nat × BitVec 40 × Nat) :=
  let mine := members.filter (fun c => c / 4096 == die)
  match gatheringStop die root (mine.map stopOf) with
  | none => []
  | some g =>
    let isRoot := root == some g
    let stops := (mine.flatMap (fun c => routeTo g 64 (stopOf c)) ++ [g]).eraseDups
    stops.map fun t =>
      let cores := (mine.filter (fun c => stopOf c == t)).map (· % 4)
      let feeds := stops.filterMap fun u => match nextStop u g with
        | some (n, p) => if n = t then some (arrivalPort p) else none
        | none => none
      let up := if t = g && isRoot && more then [8] else []
      let par := match nextStop t g with
        | some (_, p) => p
        | none => if isRoot then 63 else 8
      (t, portMask (cores ++ feeds ++ up), par)

/-- The packages of a group's tree by rank: the root's package first, the others in rising distance from it (entry
10). -/
def treeRanks (podSize rootPkg : Nat) (members : List Nat) : List Nat :=
  let have_ := members.map pkgOf
  (List.range podSize).filterMap fun d =>
    let p := (rootPkg + d) % podSize
    if d = 0 || have_.contains p then some p else none

/-- The pod ports of a package's hub for a group: child ports with their packages, and the parent port with its package
(R399; entry 10). -/
def hubPeers (ranks : List Nat) (pkg : Nat) : List (Nat × Nat) × List (Nat × Nat) :=
  let i := ranks.findIdx (· == pkg)
  let kids := (List.range 31).filterMap fun k => (ranks[31 * i + 1 + k]?).map fun p => (8 + k, p)
  let up := if i = 0 || ranks.length ≤ i then [] else ((ranks[(i - 1) / 31]?).map fun p => (39, p)).toList
  (if i < ranks.length then kids else [], up)

/-- The smallest scope that holds every member (R209, R331). -/
def smallestScope (members : List Nat) : BitVec 3 :=
  let one (f : Nat → Nat) : Bool := members.all fun c => f c == f (members.headD 0)
  if one id then 1 else if one (· / 4) then 2 else if one (· / 4096) then 3 else if one pkgOf then 4 else 5

/-- The truss entries of a group at the routers of a package (R347, R399). -/
def State.groupTree (s : State) (pkg ten : Nat) (r : BindRequest) (e : GroupEntry) : List Truss :=
  let members := (r.membersOf e).eraseDups
  let root : Option Nat := if (controlDie e.root).isSome then none else some (stopOf e.root)
  let rootPkg := (controlDie e.root).getD (pkgOf e.root)
  let rootDie : Option Nat := root.map (· / 1024)
  let ranks := treeRanks s.podSize rootPkg members
  let (kids, up) := hubPeers ranks pkg
  let dies := (List.range 8).map (pkg * 8 + ·)
  let sends (d : Nat) : Bool := members.any (fun c => c / 4096 == d) && rootDie != some d
  let feeds := (dies.filter sends).map (· % 8)
  let hubKids := feeds ++ kids.map (·.1)
  let more := !hubKids.isEmpty
  let entry (router : Nat) (cmask : BitVec 40) (par : Nat) (peers : List (Nat × Nat)) : Truss :=
    ⟨router, e.g, trussBits ten 1 cmask (BitVec.ofNat 6 par) (BitVec.ofNat 3 e.op) (smallestScope members), [], none, peers⟩
  let stops := dies.flatMap fun d => dieTree d root members (more && rootDie == some d)
  let hubPar := match up with
    | [] => (rootDie.map (· % 8)).getD 63
    | x :: _ => x.1
  stops.map (fun t => entry t.1 t.2.1 t.2.2 []) ++
    (if more then [entry (hubRouter pkg) (portMask hubKids) hubPar (kids ++ up)] else [])

/-- The packages whose routers a group's items meet: those of its members and of its root. -/
def BindRequest.groupPkgs (r : BindRequest) (e : GroupEntry) : List Nat :=
  (((controlDie e.root).getD (pkgOf e.root)) :: (r.membersOf e).map pkgOf).eraseDups

/-- The truss entries of all groups of a request; none where a router would hold two for one group (R347). -/
def State.allTrees (s : State) (ten : Nat) (r : BindRequest) : Option (List Truss) :=
  let l := r.groups.flatMap fun e => (r.groupPkgs e).flatMap fun p => s.groupTree p ten r e
  let new := l.map fun t => (t.router, t.g)
  if l.any (fun t => (s.trussAt t.router t.g).isSome) || new.eraseDups.length ≠ new.length then none else some l

/-! ### Installing (R272, R275, R276, R283, R290, R400) -/

/-- A capability written to local memory with its tag (R275). -/
def State.placeCap (s : State) (c off : Nat) (x : Cap) : State :=
  (s.putLocal c off (capBytes x) none).updCore c fun k => { k with ltags := k.ltags.put (off / 16) x.tag }

/-- A core prepared for a tenant: its keep size, slot table and matrix unit, and the tenant's partition, zero before the
image comes (R43, R252, R290, R400). -/
def State.prepareCore (s : State) (ten : Nat) (x : BindSupply) (p : Placement) : State :=
  let k := s.core p.core
  let lo := p.pbase * 1024
  let k := { k with
    kc := p.kc
    matrix := if k.bound then k.matrix else Matrix.initial
    turns := Vector.ofFn fun i => if i.val < 28 then initialTurns[i] else k.turns[i]
    parts := k.parts.filter (·.tenant != ten) ++ [⟨ten, lo, p.plen * 1024, p.bcnt⟩]
    loc := k.loc.filter (fun c => decide (c.1 < lo) || decide (lo + p.plen * 1024 ≤ c.1))
    ltags := k.ltags.filter (fun g => decide (g * 16 < lo) || decide (lo + p.plen * 1024 ≤ g * 16))
    lpoison := k.lpoison.filter (fun g => decide (g * 16 < lo) || decide (lo + p.plen * 1024 ≤ g * 16)) }
  (s.setCore p.core k).putLocal p.core lo x.localImage none

/-- A stage installed on its core (R272). -/
def State.installStage (s : State) (ten : Nat) (x : BindSupply) (p : Placement) : State :=
  let b := p.bits ((imageStage x p.sidx).getD 0)
  let code := (((s.pkg (pkgOf p.core)).tenant ten).map (·.code.length - 1)).getD 0
  s.updCore p.core fun k =>
    { k with stages := k.stages.set (b.extractLsb' 0 4).toNat ⟨b, ten, 0, 0, false, 0, code⟩ (b.extractLsb' 0 4).isLt }

/-- The expected counts of a tenant's barriers over cores whose bindings have changed (R178, R276): a barrier of an
instance in which the tenant had no stage begins with its count; the phase in progress of another keeps its own. -/
def State.recount (s : State) (ten : Nat) (cores : List Nat) (before : Nat → Nat → Bool) : State :=
  let levels := [1, 2, 3, 4, 5].flatMap fun l => ((cores.map (instanceOf l)).eraseDups).map fun i => (l, i)
  levels.foldl (fun s x =>
    let b := s.barrier ten x.1 x.2
    let n := s.barrierCount ten x.1 x.2 (fun _ => false)
    s.setBarrier (if before x.1 x.2 then { b with later := n } else { b with expect := n, later := n })) s

/-- Whether a tenant holds a stage in an instance of a scope. -/
def State.boundIn (s : State) (ten level inst : Nat) : Bool :=
  s.cores.any fun k => instanceOf level k.1 == inst && k.2.holdsStage ten

/-- A tenant's record in a package at a binding that places it on some cores: the image and capabilities of other cores stay
those of their own bindings (R69, R272). -/
def Package.bindTenant (p : Package) (ten : Nat) (x : BindSupply) (rcore : Nat) (cores : List Nat) : Package :=
  let f (t : Tenant) : Tenant :=
    { t with
      code := t.code ++ [x.code]
      images := cores.foldl (fun l c => put l c x.localImage) t.images
      caps := t.caps.filter (!cores.contains ·.1) ++ x.caps.filter (cores.contains ·.1), spillShare := x.spillShare
      overflow := x.overflow, preserve := x.preserve, rcore := rcore, injection := x.injection }
  if (p.tenant ten).isSome then p.updTenant ten f
  else { p with tenants := p.tenants ++ [f ⟨ten, [], [], [], 0, 0, 0, 0, [], 0, [], 0, false, 0, 0, 0, false, 0, 0⟩] }

/-- What the service OS and the control die write into a package's tables at a binding (R267, R283, R343). -/
def Package.bindTables (p : Package) (ten pool : Nat) (x : BindSupply) : Package :=
  let items := (p.pool ten).items
  { p with
    pools := p.pools.filter (·.tenant != ten) ++ [⟨ten, pool, items⟩]
    rights := p.rights.filter (fun r => !x.rights.any (fun n => n.dom == r.dom && n.region == r.region && n.host == r.host))
      ++ x.rights
    launch := p.launch.filter (fun r => !x.launch.any (fun n => n.1.extractLsb' 48 16 == r.bits.extractLsb' 48 16))
      ++ x.launch.map (fun n => ⟨n.1 &&& ~~~(BitVec.allOnes 128 >>> 91), n.2⟩) }

/-- The PLBs of a package drop the entries of rights that have been written anew (R268). -/
def State.dropRights (s : State) (pkg : Nat) (rights : List RightsRow) : State :=
  let new (e : PlbEntry) : Bool := rights.any fun r => r.dom == e.dom && r.region == e.region && r.host == e.host
  { s with cores := s.cores.map fun k =>
      if pkgOf k.1 = pkg then (k.1, { k.2 with plb := k.2.plb.filter (!new ·) }) else k }

/-- A truss entry written at its router (R331, R347). -/
def State.addTruss (s : State) (t : Truss) : State :=
  s.updPkg (routerPkg t.router) fun p => { p with
    truss := p.truss.filter (fun u => u.router != t.router || u.g != t.g) ++ [t] }

/-- Whether a tenant is bound in a package of the pod. -/
def State.boundAny (s : State) (ten : Nat) : Bool := s.pkgs.any fun k => (k.2.tenant ten).isSome

/-- A region of GLOBAL memory that goes to a tenant after another that is bound no more: its pages are retired and read
zero, their images leave the checks of coded pages, poisoned and lost lines are so no more, and the other's rights end, in the
tables and in every PLB (R267, R268, R271, R400; entry 71). -/
def State.clearRegion (s : State) (region : Nat) : State :=
  let h := homePkg (region * 2 ^ 21)
  let s := (List.range 32).foldl (fun s j =>
    let page := region * 32 + j
    let s := s.retirePage page
    match look (s.pkg h).coded page with
    | some st => s.shipPage page st (st.findIdx (· == h))
    | none => s) s
  let other (line : Nat) : Bool := line / 2 ^ 14 != region
  let keep (host : Bool) (g dom : Nat) : Bool := host || g != region || s.boundAny dom
  let view (v : ViewRec) : ViewRec :=
    if s.boundAny v.tenant then v
    else { v with
      writes := v.writes.filter (other <| lineOf ·.1), tags := v.tags.filter (other <| ·.1 / 8), pz := v.pz.filter other }
  { s with
    mem := s.mem.filter (other <| lineOf ·.1)
    mtags := s.mtags.filter (other <| · / 8)
    pkgs := s.pkgs.map fun k => (k.1, { k.2 with
      rights := k.2.rights.filter fun r => keep r.host r.region r.dom
      poison := k.2.poison.filter (other ·.1)
      rebuild := k.2.rebuild.filter other
      versions := k.2.versions.filter fun x => other x.2.1 || (k.2.view x.1).any (s.boundAny ·.tenant)
      views := k.2.views.map view })
    cores := s.cores.map fun k => (k.1, { k.2 with plb := k.2.plb.filter fun e => keep e.host e.region e.dom }) }

/-- The regions that a binding gives a tenant and that a tenant no longer bound has left (R400). -/
def State.leftRegions (s : State) (ten : Nat) (x : BindSupply) : List Nat :=
  ((x.rights.filter fun r => !r.host && r.dom == ten).map (·.region)).filter fun g =>
    let rows := s.pkgs.flatMap fun k => k.2.rights.filter fun r => !r.host && r.region == g
    !rows.isEmpty && rows.all fun r => r.dom != ten && !s.boundAny r.dom

/-- The packages that a binding concerns: the one whose control die carries it out, and those of the placed cores. -/
def BindRequest.pkgs (r : BindRequest) (pkg : Nat) : List Nat := (pkg :: r.places.map (pkgOf ·.core)).eraseDups

/-- A binding that has passed its checks (R272, R400): in every package that holds a placed core, and its truss entries
wherever their routers are. -/
def State.install (s : State) (pkg ten : Nat) (x : BindSupply) (r : BindRequest) (truss : List Truss) : State :=
  let cores := (r.places.map (·.core)).eraseDups
  let first := cores.filterMap fun c => r.places.find? (·.core == c)
  let before := s.boundIn ten
  let s := (s.leftRegions ten x).foldl State.clearRegion s
  let s := (r.pkgs pkg).foldl (fun s q =>
    (s.updPkg q fun p => (p.bindTenant ten x r.rcore cores).bindTables ten r.pool x).dropRights q x.rights) s
  let s := truss.foldl State.addTruss s
  let s := s.mapPages pkg x.maps
  let s := first.foldl (fun s p => s.prepareCore ten x p) s
  let s := r.places.foldl (fun s p => s.installStage ten x p) s
  let s := x.caps.foldl (fun s c =>
    if cores.contains c.1 then s.placeCap c.1 ((s.core c.1).partBase ten + c.2.1) c.2.2 else s) s
  let s := x.sections.foldl (fun s c => s.putGlobal c.1 c.2 none) s
  (s.recount ten cores before).fireMonitors

/-- A binding: status and result (R272, R347). Refused fields come before refused descriptors, and the first refused
descriptor in placement order gives the result. -/
def State.bind (s : State) (pkg ten addr len : Nat) (x : BindSupply) : State × Nat × Nat :=
  match readRequest (s.pkg pkg).host.mem addr len with
  | none => (s, 7, 0)
  | some r =>
    if !r.places.all (s.placementOk ten x r) || !r.groups.all (s.groupOk ten r) || !x.caps.all (rootCapOk ·.2.2) ||
        !(r.rcore == 0xFFFFFFFF || s.goodName r.rcore) then (s, 7, 0)
    else match s.allTrees ten r with
    | none => (s, 7, 0)
    | some truss =>
      let bad := (List.range r.places.length).find? fun i => match r.places[i]? with
        | some p => match imageStage x p.sidx with
          | some d => !s.descriptorFits ten x r (r.places.take i) p d
          | none => true
        | none => false
      match bad with
      | some i => (s, 4, ((r.places[i]?).map (·.sidx)).getD 0)
      | none => (s.install pkg ten x r truss, 0, r.places.length)

/-! ### Unbinding (R346) -/

/-- The live threads of a tenant in a package, by core and slot. -/
def State.liveThreads (s : State) (pkg ten : Nat) : List (Nat × Fin 8) :=
  (s.cores.filter (fun k => pkgOf k.1 == pkg)).flatMap fun k =>
    ((List.finRange 8).filter (fun n => (k.2.slot n).state != .free && (k.2.slot n).tenant == ten)).map (k.1, ·)

/-- A stage of a core removed: the reservations it holds go back (R278, R285, R346). -/
def State.removeStage (s : State) (c : Nat) (i : Fin 16) : State :=
  let g := (s.core c).stages[i]
  let s := match stageOutput c g.bits with
    | none => s
    | some (oc, oq) => s.unreserve oc oq (if g.granted then g.rout else g.standing)
  (s.unreserve c g.inq g.poolResv).updCore c fun k => { k with stages := k.stages.set i Stage.empty }

/-- A tenant's stages and partition leave a core; its pooled pegs there become orphans (R285, R346). -/
def State.clearCore (s : State) (ten c : Nat) : State :=
  let s := (List.finRange 16).foldl (fun s i =>
    let g := (s.core c).stages[i]
    if g.bits.getLsbD 31 && g.tenant == ten then
      (s.updCore c (·.orphan (((s.pkg (pkgOf c)).pool ten).pooled c i))).removeStage c i
    else s) s
  s.updCore c fun k => { k with
    parts := k.parts.filter (·.tenant != ten)
    staged := match k.staged with
      | some (t, l) => if t = ten then none else some (t, l)
      | none => none }

/-- A tenant unbound from a package: the state and the number of threads killed (R346). -/
def State.unbind (s : State) (pkg ten : Nat) : State × Nat :=
  let threads := s.liveThreads pkg ten
  let cores := ((s.cores.filter (fun k => pkgOf k.1 == pkg)).filter (fun k =>
    k.2.holdsStage ten || k.2.parts.any (·.tenant == ten))).map (·.1)
  let s := threads.foldl (fun s x => if (s.slot x.1 x.2).state = .free then s else s.killThread x.1 x.2) s
  let s := cores.foldl (fun s c => s.clearCore ten c) s
  let s := s.updPkg pkg fun p => { p with
    tenants := p.tenants.filter (·.id != ten)
    pools := p.pools.filter (·.tenant != ten)
    truss := p.truss.filter (·.dom != ten) }
  let s := s.recount ten cores (fun _ _ => true)
  ({ s with barriers := s.barriers.filter (fun b => b.tenant != ten || s.boundIn ten b.level b.inst) }, threads.length)

end Sys2Proof.Machine
end

