-- ==== Sys2Proof/Machine/Raise.lean ====
section
/-!
DEFINITION. Firmware (R371, R372), raising (R342, R360, R373) and power (R374).
-/

namespace Sys2Proof.Machine

/-! ### Firmware (R371, R372) -/

/-- A field of a slot: `n` bytes at an offset (R371). -/
def FirmwareSlot.field (x : FirmwareSlot) (off n : Nat) : List Byte := (List.range n).map fun i => x.bytes.getD (off + i) 0

/-- `magic`: 0x5745_4C4E in every slot (R371; `headerOf`). -/
def FirmwareSlot.magic (x : FirmwareSlot) : Word := BitVec.ofNat 32 (leValue (x.field 0x000 4))
/-- `ver`, the image version (R371). -/
def FirmwareSlot.ver (x : FirmwareSlot) : BitVec 64 := BitVec.ofNat 64 (leValue (x.field 0x008 8))
/-- `svn`, the security version (R371). -/
def FirmwareSlot.svn (x : FirmwareSlot) : Word := BitVec.ofNat 32 (leValue (x.field 0x004 4))
/-- `blen`, the length of the body (R371). -/
def FirmwareSlot.blen (x : FirmwareSlot) : Nat := leValue (x.field 0x010 8)
/-- `dig` (R371). -/
def FirmwareSlot.dig (x : FirmwareSlot) : List Byte := x.field 0x018 32
/-- `sig`, the signature over `dig`: 2,420 bytes (R371). -/
def FirmwareSlot.sig (x : FirmwareSlot) : List Byte := x.field 0x038 2420
/-- `pk`, the public key: 1,312 bytes (R371). -/
def FirmwareSlot.pk (x : FirmwareSlot) : List Byte := x.field 0x9AC 1312
/-- The body, which follows the header (R371). -/
def FirmwareSlot.body (x : FirmwareSlot) : List Byte := (x.bytes.drop 4096).take x.blen

/-- A digest as the 256 bits that its 32 bytes hold, the first byte lowest. -/
def digestBits (l : List Byte) : BitVec 256 := BitVec.ofNat 256 (leValue l)

/-- Whether the boot ROM accepts a slot (R372). -/
def Firmware.accepts (f : Firmware) (x : FirmwareSlot) : Bool :=
  Config.sha3 x.pk == f.fuseKey && Config.mlDsaVerify (digestBits x.dig) x.sig x.pk &&
    Config.sha3 (x.field 0 0x18 ++ x.body) == digestBits x.dig && decide (f.fuseSvn.toNat ≤ x.svn.toNat)

/-- The active slot. -/
def Firmware.current (f : Firmware) : FirmwareSlot := if f.active then f.slotB else f.slotA

/-- The other slot. -/
def Firmware.other (f : Firmware) : FirmwareSlot := if f.active then f.slotA else f.slotB

/-- The firmware after a boot: a slot in trial is preferred when it may be and is accepted; none where no slot is
accepted (R372). -/
def Firmware.boot (f : Firmware) (trialFirst : Bool) (now : Nat) : Option Firmware :=
  if trialFirst && f.trial && f.accepts f.other then some { f with running := true, bootAt := now }
  else if f.accepts f.current then some { f with running := false, bootAt := now }
  else none

/-- Nanoseconds in which a trial image must confirm its health: 120 s (R372). -/
def trialTime : Nat := 120 * 10 ^ 9

/-- A package's attestation: the signature of its device identity over the active slot's `dig` and `svn` (R372). -/
def Package.attestation (p : Package) (own : Nat) : List Byte :=
  Config.deviceSign own (p.firmware.current.dig ++ leBytes 4 p.firmware.current.svn.toNat)

/-- `FIRMWARE_UPDATE`: the image is written into the slot that is not active, which then stands in trial (R371, R372). -/
def execFirmwareUpdate (pkg : Nat) (image : List Byte) (s : State) : Out :=
  .next (s.updPkg pkg fun p =>
    let f := p.firmware
    let f := if f.active then { f with slotA := ⟨headerOf image⟩ } else { f with slotB := ⟨headerOf image⟩ }
    { p with firmware := { f with trial := true, running := false } })

/-- `FIRMWARE_HEALTH_CONFIRM`: a trial image that runs confirms in time and becomes active; the fuse counter is raised to
its `svn` (R372). -/
def execFirmwareHealthConfirm (pkg : Nat) (s : State) : Out :=
  .next (s.updPkg pkg fun p =>
    let f := p.firmware
    if !f.trial || !f.running || f.bootAt + trialTime < p.ptc.toNat then p
    else
      let svn := f.other.svn
      { p with firmware := { f with
        active := !f.active, trial := false, running := false
        fuseSvn := if f.fuseSvn.ult svn then svn else f.fuseSvn } })

/-! ### Raising (R373) -/

/-- Whether a package is alive (R342). -/
def Package.alive (p : Package) : Bool := p.raised && !p.failed

/-- The timekeeper: the alive package of lowest index other than one that is being raised (R342). -/
def State.timekeeper (s : State) (but : Nat) : Option Nat :=
  (List.range s.podSize).find? fun p => p != but && (s.pkg p).alive

/-- The state without what a package held: its cores, its part of GLOBAL memory, its messages, its monitors and its
barriers; the others count its members as lost, and no commit waits for it any more (R334, R351). -/
def State.dropPackage (s : State) (pkg : Nat) : State :=
  let s := s.loseMembers (fun c => pkgOf c == pkg)
  let base (r : Nat) : Bool := routerPkg r == pkg
  { s with
    mem := s.mem.filter (fun c => homePkg c.1 != pkg)
    mtags := s.mtags.filter (fun g => homePkg (g * 16) != pkg)
    fabric := s.fabric.filter (fun m => pkgOf m.dst != pkg && senderPkg m.src != pkg)
    collMsgs := s.collMsgs.filter (fun m => !base m.router)
    monitors := s.monitors.filter (fun m => pkgOf m.tcore != pkg)
    barriers := s.barriers.filter (fun b => decide (5 ≤ b.level) || instancePkg b.level b.inst != pkg)
    cores := s.cores.filter (fun k => pkgOf k.1 != pkg)
    pkgs := s.pkgs.map fun k => (k.1, { k.2 with
      copies := k.2.copies.filter (fun c => homePkg (c.line * 128) != pkg)
      scribeHeld := k.2.scribeHeld.filter (fun m => senderPkg m.src != pkg)
      commits := k.2.commits.map fun c => { c with raise := delNum c.raise pkg, acks := delNum c.acks pkg } }) }
where
  /-- The package that an instance of a scope up to the package lies in. -/
  instancePkg (level inst : Nat) : Nat :=
    match level with
    | 1 => pkgOf inst
    | 2 => pkgOf (inst * 4)
    | 3 => pkgOf (inst * 4096)
    | _ => inst

/-- Bits of a mask of disabled stops of a row (R360). -/
def disabledStops (m : BitVec 34) : Nat := ((List.range 34).filter m.getLsbD).length

/-- The physical dies that can serve: those that passed their tests and have at most two disabled stops in every row
(R360, R373). -/
def servingDies (passing : List Nat) (maps : List (Nat × BitVec 34)) : List Nat :=
  (List.range 9).filter fun d => passing.contains d &&
    maps.all (fun m => m.1 / 32 != d || decide (disabledStops m.2 ≤ 2))

/-- The die map of a raised package: logical dies in ascending physical order (R373). -/
def raisedMap (dies : List Nat) : Vector (BitVec 32) 8 :=
  Vector.ofFn fun i => 0x80000000#32 ||| (BitVec.ofNat 32 (dies.getD i.val 0) <<< 15)

/-- A package raises (R351, R373): nothing of its state survives but its firmware slots and what firmware and the
operator fix; fewer than 8 passing core dies or 9 usable stacks, or no accepted slot, leave it failed. -/
def State.raise (s : State) (pkg : Nat) (passing : List Nat) (maps : List (Nat × BitVec 34)) (usable : Nat)
    (trialFirst spare : Bool) : State :=
  let old := s.pkg pkg
  let s := s.dropPackage pkg
  let dies := servingDies passing maps
  let time := match s.timekeeper pkg with
    | some k => (s.pkg k).ptc
    | none => old.ptc
  let now := if old.ptc.ult time then time else old.ptc
  let boot := old.firmware.boot trialFirst now.toNat
  let fresh := { Package.initial with
    ptc := now, firmware := boot.getD old.firmware, spare := spare, stopMap := maps
    host := { HostPort.initial with hosted := old.host.hosted, cxl := old.host.cxl } }
  let s := s.setPkg pkg (if dies.length < 8 || usable < 9 || boot.isNone then { fresh with raised := false, failed := true }
    else { fresh with
      dieMap := raisedMap dies
      brace := dies[8]?
      failedDies := (List.range 9).filter (fun d => !dies.contains d) })
  s.fireMonitors

/-- `POWER_GOOD`: the package raises through boot, tests and training; the operator leaves it spare or not (R367, R373). -/
def execPowerGood (pkg : Nat) (tests : DieTests) (usable : Nat) (spare : Bool) (s : State) : Out :=
  .next (s.raise pkg tests.passing tests.maps usable true spare)

/-- The package raises again with the parts that its last tests found good (R351, R372). -/
def State.raiseAgain (s : State) (pkg : Nat) (trialFirst : Bool) : State :=
  let p := s.pkg pkg
  s.raise pkg ((List.range 9).filter (fun d => !p.failedDies.contains d)) p.stopMap (9 - p.lostStacks.length) trialFirst p.spare

/-- `FIRMWARE_WATCHDOG`: a trial image that has not confirmed within 120 s is given up, and the package raises from the
previous active slot (R372). -/
def execFirmwareWatchdog (pkg : Nat) (s : State) : Out :=
  let p := s.pkg pkg
  .next (if !p.firmware.trial || !p.firmware.running || p.ptc.toNat < p.firmware.bootAt + trialTime then s
    else
      (s.updPkg pkg fun p => { p with firmware := { p.firmware with trial := false, running := false } }).raiseAgain
        pkg false)

/-! ### Power (R374) -/

/-- `POWER_THROTTLE`: the power monitor delays the starts of matrix jobs, or lets them go again; results and orders are
unchanged (R374). -/
def execPowerThrottle (pkg : Nat) (excess : Bool) (s : State) : Out :=
  .next (s.updPkg pkg fun p => { p with throttle := excess })

end Sys2Proof.Machine
end

