-- ==== Sys2Proof/Machine/Host.lean ====
section
/-!
DEFINITION. The host port (R284, R287, R344 to R352): queue pairs, commands and their completions, device events, resets
of the host function, and host accesses to package memory.
-/

namespace Sys2Proof.Machine

/-! ### Queue pairs (R345, R348) -/

/-- A queue pair of a package's host port. -/
def HostPort.pair (h : HostPort) (q : Nat) : QueuePair := (h.pairs.find? (·.index == q)).getD (QueuePair.initial q)

/-- The host port with a queue pair replaced. -/
def HostPort.setPair (h : HostPort) (x : QueuePair) : HostPort :=
  { h with pairs := x :: h.pairs.filter (·.index != x.index) }

/-- A package with its host port changed. -/
def Package.updHost (p : Package) (f : HostPort → HostPort) : Package := { p with host := f p.host }

/-- Entries of a submission ring. -/
def QueuePair.sqSize (x : QueuePair) : Nat := (x.qsz.extractLsb' 0 16).toNat

/-- Entries of a completion ring. -/
def QueuePair.cqSize (x : QueuePair) : Nat := (x.qsz.extractLsb' 16 16).toNat

/-- Whether a ring size is a power of two from 16 to 4,096 (R345). -/
def ringSizeOk (n : Nat) : Bool := [16, 32, 64, 128, 256, 512, 1024, 2048, 4096].contains n

/-- Whether a pair serves. -/
def QueuePair.serves (x : QueuePair) : Bool := x.enable && x.ready && !x.quiesced

/-- A completion put in line for its ring. One of a command that a reset of the host function overtook carries status 6
and comes before those that are not (R348, R349, R352). -/
def HostPort.complete (h : HostPort) (q : Nat) (reset : Bool) (c : HostCompletion) : HostPort :=
  let x := h.pair q
  if reset then
    let c := { c with res := c.st.zeroExtend 32, st := 6 }
    h.setPair { x with waiting := x.waiting.filter (·.st == 6) ++ [c] ++ x.waiting.filter (·.st != 6) }
  else h.setPair { x with waiting := x.waiting ++ [c] }

/-- `REGISTER_WRITE`: ring bases and sizes take writes while the pair is not enabled; doorbells and `qctl` have steps of
their own (R345, R348). -/
def execRegisterWrite (pkg offset : Nat) (value : BitVec 64) (s : State) : Out :=
  let off := offset - 0x100000
  .next (if offset < 0x100000 || 0x100000 + 64 * 64 ≤ offset || (s.pkg pkg).host.state = .reset then s
    else s.updPkg pkg (·.updHost fun h =>
      let x := h.pair (off / 64)
      if x.enable then h
      else match off % 64 with
        | 0 => h.setPair { x with sqb := value }
        | 8 => h.setPair { x with cqb := value }
        | 16 => h.setPair { x with qsz := value.setWidth 32 }
        | _ => h))

/-- `QCTL_ENABLE`: the rings are checked and the pair becomes ready; its heads and tails start at 0, which the spec does
not say (R345, R348, R352; DESIGN CHOICE, entry 95). -/
def execQctlEnable (pkg q : Nat) (enable : Bool) (s : State) : Out :=
  .next (if 64 ≤ q || (s.pkg pkg).host.state = .reset then s
    else s.updPkg pkg (·.updHost fun h =>
      let x := h.pair q
      if !enable then h.setPair { x with enable := false, ready := false }
      else if x.enable then h
      else if !ringSizeOk x.sqSize || !ringSizeOk x.cqSize || x.sqb.extractLsb' 0 12 ≠ 0 || x.cqb.extractLsb' 0 12 ≠ 0 then
        h.setPair { x with enable := false, ready := false }
      else h.setPair { x with
        enable := true, ready := true, quiesced := false, sqh := 0, sqt := 0, cqh := 0, cqt := 0, used := 0, phase := true
        msix := false }))

/-- `CQ_DOORBELL`: the host releases completion entries, and the pair's vector may be raised again; a head equal to the
tail of a full ring releases every entry (R348; DESIGN CHOICE, entry 95). -/
def execCqDoorbell (pkg q head : Nat) (s : State) : Out :=
  .next (if 64 ≤ q || (s.pkg pkg).host.state = .reset then s
    else s.updPkg pkg (·.updHost fun h =>
      let x := h.pair q
      if !x.enable || x.cqSize ≤ head then h
      else h.setPair { x with
        cqh := head, used := min x.used ((x.cqt + x.cqSize - head) % x.cqSize), msix := false }))

/-- The 16 bytes of a completion entry (R348). -/
def HostCompletion.bytes (c : HostCompletion) (phase : Bool) : List Byte :=
  leBytes 4 c.res.toNat ++ leBytes 2 c.cid.toNat ++ leBytes 2 c.sqh ++ [c.st, if phase then 1 else 0] ++
    leBytes 2 c.ten.toNat ++ leBytes 4 0

/-- Whether the next completion of a pair can be written: it is enabled, its ring has room, and no command that a reset
overtook still has to complete before it (R348, R352). -/
def HostPort.canPost (h : HostPort) (q : Nat) : Bool :=
  let x := h.pair q
  h.state != .reset && x.enable && x.ready && decide (x.used < x.cqSize) &&
    match x.waiting with
    | [] => false
    | c :: _ => c.st == 6 || !h.commands.any (fun k => k.q == q && k.reset)

/-- The host address and the bytes of the completion entry that a pair writes next, if it can (R348). -/
def HostPort.nextPost (h : HostPort) (q : Nat) : Option (Nat × List Byte) :=
  let x := h.pair q
  if h.canPost q then x.waiting.head?.map fun c => (x.cqb.toNat + 16 * x.cqt, c.bytes x.phase) else none

/-- A pair whose next completion entry has been written; MSI-X is raised (R348). -/
def HostPort.posted (h : HostPort) (q : Nat) : HostPort :=
  let x := h.pair q
  let last := x.cqt + 1 = x.cqSize
  h.setPair { x with
    waiting := x.waiting.drop 1, used := x.used + 1, msix := true
    cqt := if last then 0 else x.cqt + 1
    phase := if last then !x.phase else x.phase }

/-- `COMPLETION_POST`: a completion entry is written once its ring has room (R348). -/
def execCompletionPost (pkg q : Nat) (s : State) : Out :=
  let h := (s.pkg pkg).host
  .next (match h.nextPost q with
    | none => s
    | some (a, bytes) => (s.putHost pkg a bytes none).updPkg pkg (·.updHost (·.posted q)))

/-- `DEVICE_EVENT`: the event goes to queue pair 0, or is dropped while that is not enabled (R348). -/
def execDeviceEvent (pkg ten code : Nat) (s : State) : Out :=
  .next (if !(s.pkg pkg).host.events.contains (ten, code) then s
    else s.updPkg pkg (·.updHost fun h =>
      let h := { h with events := h.events.erase (ten, code) }
      let x := h.pair 0
      if !x.enable then h
      else h.complete 0 false ⟨BitVec.ofNat 32 code, 0xFFFF, x.sqh, 0, BitVec.ofNat 16 ten⟩))

/-! ### Submission entries (R345, R346) -/

/-- The command of a submission entry. -/
def cmdByte (b : List Byte) : Nat := fieldAt b 0 1

/-- Its command identifier. -/
def cidOf (b : List Byte) : Nat := fieldAt b 2 2

/-- Its tenant. -/
def tenOf (b : List Byte) : Nat := fieldAt b 4 2

/-- Its peg. -/
def pegOf (b : List Byte) : Entry := BitVec.ofNat 128 (fieldAt b 32 16)

/-- Whether a submission entry is well formed: RES bytes zero, a known command, operands in range (R346). -/
def State.entryOk (s : State) (b : List Byte) : Bool :=
  zeroAt b 1 1 && zeroAt b 6 10 && cidOf b != 0xFFFF &&
    match cmdByte b with
    | 1 => fieldAt b 16 8 % 64 == 0 && zeroAt b 28 36
    | 2 => zeroAt b 16 48
    | 3 => s.goodName (fieldAt b 16 4) && decide (fieldAt b 20 1 ≤ 15) && zeroAt b 21 11 && zeroAt b 48 16
    | 4 => s.goodName (fieldAt b 16 4) && fieldAt b 20 4 % 2 == 0 && decide (fieldAt b 24 1 ≤ 6) && zeroAt b 25 7 &&
        zeroAt b 48 16
    | 5 => fieldAt b 16 8 % 4096 == 0 && zeroAt b 24 40
    | _ => false

/-- A command's completion in line for its ring (R348). -/
def HostPort.finish (h : HostPort) (k : HostCommand) (st res : Nat) : HostPort :=
  h.complete k.q k.reset
    ⟨BitVec.ofNat 32 res, BitVec.ofNat 16 (cidOf k.bytes), k.sqh, BitVec.ofNat 8 st, BitVec.ofNat 16 (tenOf k.bytes)⟩

/-- The malformed commands that stand first complete with status 7 (R345, R346). -/
def HostPort.refuseBad : List HostCommand → HostPort → HostPort
  | [], h => { h with commands := [] }
  | k :: rest, h => if k.bad then HostPort.refuseBad rest (h.finish k 7 0) else { h with commands := k :: rest }

/-- The host port once a command has been fetched (R345). -/
def HostPort.fetched (h : HostPort) (k : HostCommand) : HostPort := HostPort.refuseBad (h.commands ++ [k]) h

/-- Entries of a submission ring fetched up to a tail: each is checked, and a malformed one completes with status 7 once
those before it have completed (R345, R346, R352). `fuel` bounds their number. -/
def State.fetchEntries (s : State) (pkg q tail : Nat) : Nat → State
  | 0 => s
  | fuel + 1 =>
    let h := (s.pkg pkg).host
    let x := h.pair q
    if x.sqh = tail then s
    else
      let b := h.mem.readN (x.sqb.toNat + 64 * x.sqh) 64
      let head := (x.sqh + 1) % x.sqSize
      let h := h.setPair { x with sqh := head }
      (s.updPkg pkg (·.updHost fun _ => h.fetched ⟨q, head, b, !s.entryOk b, false⟩)).fetchEntries pkg q tail fuel

/-- `SQ_DOORBELL`: the host has written its memory and now the submission tail; the entries up to it are fetched. A tail
written while the pair is not enabled is ignored (R345, R346, R348; DESIGN CHOICE, entry 95). -/
def execSqDoorbell (pkg q tail : Nat) (writes : List (Nat × BitVec 8)) (s : State) : Out :=
  let s := writes.foldl (fun s x => s.putHost pkg x.1 [x.2] none) s
  let x := (s.pkg pkg).host.pair q
  .next (if 64 ≤ q || (s.pkg pkg).host.state = .reset || !x.serves || x.sqSize ≤ tail then s
    else (s.updPkg pkg (·.updHost fun h => h.setPair { x with sqt := tail })).fetchEntries pkg q tail x.sqSize)

/-! ### Commands (R284, R287, R343, R346, R347, R349) -/

/-- The command that the control die of a package that has raised carries out next, if it has a command byte (R348, R373). -/
def State.hostCommand (s : State) (pkg code : Nat) : Option HostCommand :=
  match (s.pkg pkg).host.commands with
  | [] => none
  | k :: _ => if cmdByte k.bytes = code && (s.pkg pkg).alive then some k else none

/-- A command completes with a status and a result (R348, R352). -/
def State.completeCommand (s : State) (pkg : Nat) (k : HostCommand) (st res : Nat) : State :=
  s.updPkg pkg (·.updHost fun h => HostPort.refuseBad (h.commands.drop 1) (h.finish k st res))

/-- Whether images of a package's cores lie in their context areas: bindings and unbindings wait for their restore, which
writes the cores (R303; entry 85). -/
def State.savesPending (s : State) (pkg : Nat) : Bool := !(s.pkg pkg).contexts.isEmpty

/-- Whether a binding waits: a context image lies in its own package, or in one of a core that it places (R303; DEDUCED,
entry 85). -/
def State.bindWaits (s : State) (pkg addr len : Nat) : Bool :=
  match readRequest (s.pkg pkg).host.mem addr len with
  | none => s.savesPending pkg
  | some r => (r.pkgs pkg).any s.savesPending

/-- `CMD_BIND_IMAGE` (R272, R347): the image's parts, which lie in host memory at `iaddr`, come as data (entry 13). -/
def execCmdBindImage (pkg : Nat) (supply : BindSupply) (s : State) : Out :=
  .next (match s.hostCommand pkg 1 with
    | none => s
    | some k => if s.bindWaits pkg (fieldAt k.bytes 16 8) (fieldAt k.bytes 24 4) then s else
      let (s, st, res) := s.bind pkg (tenOf k.bytes) (fieldAt k.bytes 16 8) (fieldAt k.bytes 24 4) supply
      s.completeCommand pkg k st res)

/-- `CMD_UNBIND` (R346). -/
def execCmdUnbind (pkg : Nat) (s : State) : Out :=
  .next (match s.hostCommand pkg 2 with
    | none => s
    | some k => if s.savesPending pkg then s else
      let (s, n) := s.unbind pkg (tenOf k.bytes)
      s.completeCommand pkg k 0 n)

/-- Whether a host launch waits: its die's scribe log is nearly full, its core lies on a fenced die, the core's image lies
in its context area, or a link of its route does not carry it (R304, R339, R340, R364, R366). A core that has stopped and is
not saved takes deposits, and its launches are held (R287, R298). -/
def State.launchWaits (s : State) (pkg core : Nat) : Bool :=
  s.scribeHolds (hostAgent pkg) core || s.heldBehind (hostAgent pkg) core || s.fencedDie core || s.saved core ||
    !s.carries (hostAgent pkg) core 2

/-- The launch rights of a host launch (R343): checks 1 and 3, those of the target's package for a core of another that it
reaches, and the entry bounds for a launch to an entry. -/
def State.launchAllowed (s : State) (pkg ten core : Nat) (entry : Option Word) : Bool :=
  let p := s.pkg pkg
  let q := s.pkg (pkgOf core)
  let stays := pkgOf core == pkg || !s.routed pkg (pkgOf core)
  p.hostAllows ten core && (stays || q.podAllows ten (pkg * 2 ^ 15) core) &&
    entry.all fun e => p.entryAllows ten e && (stays || q.entryAllows ten e)

/-- A host launch to a core of a package without a valid route, or declared lost: it is dropped and counted, and its command
completes with a status that the spec does not give (R341, R357; entry 92). -/
def State.dropLaunch (s : State) (pkg : Nat) (k : HostCommand) : State :=
  (s.updPkg pkg fun p => { p with errors := p.errors + 1 }).completeCommand pkg k (Config.unroutedLaunch s.ticks).toNat 0

/-- `CMD_LAUNCH_STAGE` (R284, R343). -/
def execCmdLaunchStage (pkg : Nat) (s : State) : Out :=
  .next (match s.hostCommand pkg 3 with
    | none => s
    | some k =>
      let core := fieldAt k.bytes 16 4
      let ten := tenOf k.bytes
      if !s.launchAllowed pkg ten core none then s.completeCommand pkg k 5 0
      else if !s.routed pkg (pkgOf core) then s.dropLaunch pkg k
      else if s.launchWaits pkg core then s
      else
        let (s, st) := s.deposit core ten (fieldAt k.bytes 20 1) (pegOf k.bytes)
        s.completeCommand pkg k st.toNat 0)

/-- `CMD_LAUNCH_ENTRY`: a start that comes first is waited for (R280, R287, R343). -/
def execCmdLaunchEntry (pkg : Nat) (s : State) : Out :=
  .next (match s.hostCommand pkg 4 with
    | none => s
    | some k =>
      let core := fieldAt k.bytes 16 4
      let ten := tenOf k.bytes
      let entry := BitVec.ofNat 32 (fieldAt k.bytes 20 4)
      if !s.launchAllowed pkg ten core (some entry) then s.completeCommand pkg k 5 0
      else if !s.routed pkg (pkgOf core) then s.dropLaunch pkg k
      else if s.launchWaits pkg core || s.startsFirst core then s
      else
        let (s, st, tag) := s.launch ten core entry (BitVec.ofNat 3 (fieldAt k.bytes 24 1)) (pegOf k.bytes)
        s.completeCommand pkg k st (if st = 0 then tag.toNat else 0))

/-- The tenant state record of R346. -/
def State.tenantRecord (s : State) (pkg ten : Nat) : List Byte :=
  let t := ((s.pkg pkg).tenant ten)
  let stages := s.tenantStages pkg ten
  let pegs := (((s.pkg pkg).pool ten).items.filter fun i => match i with
    | .peg _ _ _ => true
    | .launch _ _ _ _ _ => false).length
  let orph := ((s.cores.filter (fun k => pkgOf k.1 == pkg && k.2.holdsStage ten)).map (fun k => k.2.orph.toNat)).foldl
    (fun n k => min (n + k) 0xFFFFFFFF) 0
  let lost := (t.map (·.lost)).getD []
  let nlost := (t.map (·.nlost)).getD 0
  let names := (lost.take (min nlost 256)).flatMap fun n => leBytes 8 n.toNat
  leBytes 4 stages.length ++ leBytes 4 (s.liveThreads pkg ten).length ++ leBytes 4 pegs ++
    leBytes 4 (min ((t.map (·.loss)).getD 0) 0xFFFFFFFF) ++ leBytes 4 orph ++ leBytes 4 (min nlost 0xFFFFFFFF) ++
    List.replicate 232 0 ++ names ++ List.replicate (3840 - names.length) 0

/-- `CMD_READ_TENANT_STATE`: the record is written into the result buffer, and the completion follows. While the host is
not marked present no record is written, and the command completes with status 0 (R346, R352; DESIGN CHOICE, entry 95). -/
def execCmdReadTenantState (pkg : Nat) (s : State) : Out :=
  .next (match s.hostCommand pkg 5 with
    | none => s
    | some k =>
      let rec_ := s.tenantRecord pkg (tenOf k.bytes)
      let s := if (s.pkg pkg).host.state = .enabled then s.putHost pkg (fieldAt k.bytes 16 8) rec_ none else s
      s.completeCommand pkg k 0 0)

/-! ### Resets of the host function (R350 to R352) -/

/-- Whether a waiting completion is that of a device event: its `cid` is 0xFFFF and its status 0, which no command with
that `cid` completes with (R346, R348). -/
def HostCompletion.ofEvent (c : HostCompletion) : Bool := c.cid == 0xFFFF && c.st == 0

/-- The host port after a reset of its function in self-hosted mode (R352). -/
def HostPort.resetFunction (h : HostPort) : HostPort :=
  let clear (x : QueuePair) : QueuePair :=
    { QueuePair.initial x.index with
      quiesced := true
      waiting := (x.waiting.filter (!·.ofEvent)).map (fun c =>
        if c.st = 6 then c else { c with res := c.st.zeroExtend 32, st := 6 }) ++ x.waiting.filter (·.ofEvent) }
  { h with
    state := .reset
    pairs := (List.range 64).map fun q => clear (h.pair q)
    accesses := []
    commands := h.commands.map fun k => { k with reset := true } }

/-- `HOST_FUNCTION_RESET`: in hosted mode the whole device raises again from its active slot; in self-hosted mode only the
host function is reset (R351, R352). -/
def execHostFunctionReset (pkg : Nat) (s : State) : Out :=
  .next (if (s.pkg pkg).host.hosted then s.raiseAgain pkg false
    else (s.loseReads pkg).updPkg pkg (·.updHost (·.resetFunction)))

/-- `HOST_REENUMERATE`: the host enumerates the device again (R352). -/
def execHostReenumerate (pkg : Nat) (s : State) : Out :=
  .next (s.updPkg pkg (·.updHost fun h => if h.state = .reset then { h with state := .enumerated } else h))

/-- `HOST_MARK_PRESENT`: HOST accesses succeed again (R352). -/
def execHostMarkPresent (pkg : Nat) (s : State) : Out :=
  .next (s.updPkg pkg (·.updHost fun h => if h.state = .enumerated then { h with state := .enabled } else h))

/-- `HOST_COMPLETION_TIMEOUT`: a HOST read that was emitted and not answered faults after 50 ms (R350, R352). -/
def execHostCompletionTimeout (core : Nat) (slot : Fin 8) (s : State) : Out :=
  let t := s.slot core slot
  .next (match t.wait, t.held, t.reply with
    | .request, some i, none => match s.heldHost core slot i with
      | some a => s.trap core slot ⟨0x0B, 0x02, BitVec.ofNat 64 a, scopeOf i⟩
      | none => s
    | _, _, _ => s)

/-! ### CXL.mem (R344) -/

/-- Bytes of the range that CXL.mem exposes: 512 GiB (R344). -/
def cxlRange : Nat := 2 ^ 39

/-- A host access performed at its home slice: none while the home makes it wait; one that the mapping or the line does
not allow changes nothing (R262, R266, R269, R317, R321, R344; entry 51). -/
def State.hostAccess (s : State) (pkg : Nat) (x : HostAccess) : Option State :=
  match s.reachAll pkg (hostAgent pkg) x.addr (linesOf x.addr x.data.length) with
  | .error (.wait _) => none
  | .error (.fault _) => some s
  | .ok s => match s.poisonAll pkg [] (linesOf x.addr x.data.length) with
    | .error _ => some s
    | .ok _ => some (if x.write then s.writeGlobal x.addr x.data none else s)

/-- The first of a host's waiting accesses is performed, if its home lets it (R344). -/
def State.retryAccess (s : State) (pkg : Nat) : State :=
  match (s.pkg pkg).host.accesses with
  | [] => s
  | x :: rest => match s.hostAccess pkg x with
    | none => s
    | some s => s.updPkg pkg (·.updHost fun h => { h with accesses := rest })

/-- `CXL_MEM_ACCESS`: the home slice performs a host access, in the order in which they come; where the port or the range
does not allow one, nothing changes (R344, R352; entry 51). -/
def execCxlMemAccess (pkg offset : Nat) (write : Bool) (data : List (BitVec 8)) (s : State) : Out :=
  let h := (s.pkg pkg).host
  let x : HostAccess := ⟨pkg * 2 ^ 41 + offset, data, write⟩
  .next (if !h.cxl || h.state = .reset || s.podSize ≤ pkg || cxlRange < offset + data.length then s
    else
      let held := s.updPkg pkg (·.updHost fun h => { h with accesses := h.accesses ++ [x] })
      if h.accesses.isEmpty then (s.hostAccess pkg x).getD held else held)

end Sys2Proof.Machine
end

