-- ==== Sys2Proof/Machine/Links.lean ====
section
/-!
DEFINITION. Die maps and incarnations (R335 to R337), die-to-die links (R338, R339), pod ports (R340, R341) and the
synchronisation of the package time counters (R342).
-/

namespace Sys2Proof.Machine

/-! ### Maps and incarnations (R335 to R337) -/

/-- Whether an operation may be made again where its reply has not come: it reads only. -/
def readsOnly : Option Instr → Bool
  | some i => match homeMeaning i with
    | some (.read, _) => true
    | _ => false
  | none => true

/-- Whether a core name lies on a logical die. -/
def onDie (pkg die c : Nat) : Bool := decide (c < 2 ^ 26) && c / 4096 == pkg * 8 + die

/-- The reply of a slot arrives: its thread goes on. -/
def Slot.takeReply (t : Slot) (r : Reply) : Slot := { t.unblock with regs := r.regs }

/-- Replies under way of a logical die or memory position whose map entry is about to change. Where its contents stand, the
reply of an operation that has been performed arrives before the change, so that the operation is performed once (R245,
R336; entry 74); the hub drops the others, and their requests issue again (R337). -/
def Slot.fenceReply (t : Slot) (pkg : Nat) (base : Bool) (index : Nat) (lost : Bool) : Slot :=
  match t.reply with
  | some r =>
    if r.pkg == pkg && r.base == base && r.index == index then
      if lost || readsOnly t.held then { t with reply := none } else t.takeReply r
    else t
  | none => t

/-- The statuses of a surviving die that are under way arrive before its map entry changes (R245, R336; entry 74). -/
def State.earlyStatuses (s : State) (pkg die : Nat) : State :=
  let early (m : Msg) : Bool := onDie pkg die m.src && !m.onMessage
  (s.fabric.filter early).foldl State.serve { s with fabric := s.fabric.filter (!early ·) }

/-- What a die whose map entry is about to change has under way, before the fence: its replies, and its statuses (R336,
R337). -/
def State.fenceReplies (s : State) (pkg : Nat) (base : Bool) (index : Nat) (lost : Bool) : State :=
  let s := { s with cores := s.cores.map fun k =>
      (k.1, { k.2 with slots := k.2.slots.map (·.fenceReply pkg base index lost) }) }
  if base || lost then s else s.earlyStatuses pkg index

/-- Requests to a die whose incarnation has changed are stamped anew by their senders (R337). -/
def State.restamp (s : State) (pkg die : Nat) : State :=
  let inc := (s.pkg pkg).mapInc false die
  { s with fabric := s.fabric.map fun m => if onDie pkg die m.dst && m.onMessage then { m with dinc := inc } else m }

/-- Whether a place lies at a memory position or on a logical die of a package. -/
def placedAt (pkg : Nat) (base : Bool) (index : Nat) (x : Target) : Bool :=
  if base then x.space == spGLOBAL && homePkg x.addr == pkg && homePos x.addr == index
  else (x.space == spLOCAL || x.space == spWINDOW) && pkgOf x.core == pkg && dieOf x.core == index

/-- A copy's units whose source or destination home has been remapped are read and staged again (R337). -/
def Copy.restage (x : Copy) (core : Nat) (hit : Target → Bool) : Copy :=
  { x with units := x.units.map fun u =>
      if hit (placeOf core x.desc.src (x.desc.soff.toInt + (u.off : Nat))) ||
          hit (placeOf core x.desc.dst (x.desc.doff.toInt + (u.off : Nat))) then
        { u with bytes := [], staged := false, acked := false, broken := false }
      else u }

/-- The agents meet a new incarnation of a logical die or memory position: requests without an accepted response issue
again, and copy units of it start over (R312, R336, R337). A status that the old incarnation sent is dropped when it
arrives (`State.late`). -/
def State.reissue (s : State) (pkg : Nat) (base : Bool) (index : Nat) : State :=
  let s := if base then s else s.restamp pkg index
  { s with cores := s.cores.map fun k =>
      (k.1, { k.2 with copies := k.2.copies.map (·.restage k.1 (placedAt pkg base index)) }) }

/-- The physical die that a map entry names: base or core (R335). -/
def Package.physical (p : Package) (base : Bool) (index : Nat) : Nat := if base then p.baseDie index else p.coreDie index

/-- A map entry of a package written (R335): 16 bits for a memory position, 32 for a logical die. -/
def Package.setMap (p : Package) (base : Bool) (index : Nat) (entry : BitVec 32) : Package :=
  if base then { p with baseMap := p.baseMap.set (index % 9) (entry.setWidth 16) (Nat.mod_lt _ (by decide)) }
  else { p with dieMap := p.dieMap.set (index % 8) entry (Nat.mod_lt _ (by decide)) }

/-- The incarnation of a physical die written (R336). -/
def Package.setInc (p : Package) (base : Bool) (phys : Nat) (inc : BitVec 8) : Package :=
  if base then { p with baseInc := p.baseInc.set (phys % 9) inc (Nat.mod_lt _ (by decide)) }
  else { p with dieInc := p.dieInc.set (phys % 9) inc (Nat.mod_lt _ (by decide)) }

/-- The package whose physical die an entry names, and the die: one of another package for a remote brace (R335). -/
def placeOfEntry (pkg : Nat) (base : Bool) (entry : BitVec 32) : Nat × Nat :=
  if base then (pkg, (entry.extractLsb' 12 4).toNat)
  else (if entry.getLsbD 30 then (entry.extractLsb' 19 11).toNat else pkg, (entry.extractLsb' 15 4).toNat)

/-- The package and number of the physical die that a map entry of a package names (R335). -/
def Package.placeAt (p : Package) (pkg : Nat) (base : Bool) (index : Nat) : Nat × Nat :=
  if base then (pkg, p.baseDie index) else placeOfEntry pkg false p.dieMap[index % 8]

/-- The incarnation of a physical die of a package (R336). -/
def Package.incOf (p : Package) (base : Bool) (phys : Nat) : BitVec 8 :=
  if base then p.baseInc[phys % 9] else p.dieInc[phys % 9]

/-- The fence of a remap: the hub drops what comes from the old die, which for a base die are its replies; a reservation that
a dropped message consumes goes back. Messages to a core die are held at the hub until the die that takes its identity
resumes, and requests that wait for a base die are in their senders still (R337, R366). -/
def State.fence (s : State) (pkg : Nat) (base : Bool) (index : Nat) (lost : Bool) : State :=
  let s := s.fenceReplies pkg base index lost
  let gone (m : Msg) : Bool := !base && m.onMessage && onDie pkg index m.src && !onDie pkg index m.dst
  (s.fabric.filter gone).foldl (fun s m => (match m.payload with
    | .queue q _ resv => s.unreserve m.dst q resv
    | _ => s).countArrived m) { s with fabric := s.fabric.filter (!gone ·) }

/-- The entry that a remap writes: a die that takes an identity takes its next incarnation, and the entry carries it
(R335, R336). -/
def State.renewedEntry (s : State) (pkg : Nat) (base : Bool) (index : Nat) (entry : BitVec 32) : BitVec 32 :=
  let new := placeOfEntry pkg base entry
  let own := (s.pkg new.1).incOf base new.2
  let takes := (s.pkg pkg).physical base index != (if new.1 = pkg then new.2 else new.2 + 16 * (new.1 + 1))
  entry.extractLsb' 8 24 ++ (if takes then own + 1 else own)

/-- The other memory positions that a base die serves follow its new incarnation; what they hold stands (R257, R336). -/
def State.followBase (s : State) (pkg index : Nat) (inc : BitVec 8) : State :=
  let p := s.pkg pkg
  ((List.range 9).filter fun m => m != index && p.baseDie m == p.baseDie index).foldl (fun s m =>
    ((s.fenceReplies pkg true m false).updPkg pkg fun q =>
      q.setMap true m ((q.baseMap[m % 9].extractLsb' 8 8 ++ inc).zeroExtend 32)).reissue pkg true m) s

/-- A remap (R337): the hub fences the old die, the new entry is written with its die's incarnation, a drain marker of the
old incarnation is under way to the package that holds the old die, and requests issue again. -/
def State.remap (s : State) (pkg : Nat) (base : Bool) (index : Nat) (entry : BitVec 32) (lost : Bool) : State :=
  let p := s.pkg pkg
  let old := p.physical base index
  let entry := s.renewedEntry pkg base index entry
  let inc := entry.extractLsb' 0 8
  let new := placeOfEntry pkg base entry
  let was := p.placeAt pkg base index
  let s := (s.fence pkg base index lost).updPkg new.1 (·.setInc base new.2 inc)
  let s := (s.updPkg pkg fun q => { q.setMap base index entry with fenced := q.fenced.filter (· != (base, old)) }).updPkg
    was.1 fun q => { q with drains := q.drains ++ [.die base was.2 (p.mapInc base index)] }
  let s := s.reissue pkg base index
  if base then s.followBase pkg index inc else s

/-- Whether another logical number of the pod, other than `index` of a package, names a physical core die. A spare package
lends its dies: its own numbers for them do not count (R2, R366). -/
def State.dieTaken (s : State) (pkg index : Nat) (new : Nat × Nat) : Bool :=
  ((new.1, s.pkg new.1) :: s.pkgs).any fun k => (List.range 8).any fun d =>
    !(k.1 == pkg && d == index) && !(k.1 == new.1 && k.1 != pkg && k.2.spare) && k.2.dieMap[d % 8].getLsbD 31 &&
      placeOfEntry k.1 false k.2.dieMap[d % 8] == new

/-- Whether an entry can be written: it is of a die that exists, no other logical number of the pod names it, and its next
incarnation is no value whose previous use at the die has not drained (R2, R335, R337). RES fields are not written (R6). -/
def State.entryFits (s : State) (pkg : Nat) (base : Bool) (index : Nat) (entry : BitVec 32) : Bool :=
  let new := placeOfEntry pkg base entry
  decide (new.2 < 9) && decide (new.1 < s.podSize) &&
    (if base then decide (index < 9)
     else decide (index < 8) && entry.getLsbD 31 && !s.dieTaken pkg index new) &&
    !(s.pkg new.1).drains.contains (.die base new.2 ((s.renewedEntry pkg base index entry).extractLsb' 0 8))

/-- A map entry without its RES fields (R6, R335). -/
def cleanEntry (base : Bool) (entry : BitVec 32) : BitVec 32 := if base then entry &&& 0xF0FF else entry &&& 0xFFFF80FF

/-- A package that lends a die: the die answers to no logical number of the package any more (R2). -/
def Package.lend (p : Package) (d : Nat) : Package :=
  { p with
    dieMap := Vector.ofFn fun i => if p.coreDie i.val == d then p.dieMap[i] &&& 0x7FFFFFFF else p.dieMap[i]
    brace := p.brace.filter (· != d) }

/-- A die that takes an identity: a die of its own package is the brace no more; a remote one is lent (R2, R366). -/
def State.takeBrace (s : State) (pkg q b : Nat) : State :=
  s.updPkg q fun p => if q = pkg then { p with brace := p.brace.filter (· != b) } else p.lend b

/-- `REMAP`: the hub fences the old die, and the control die writes the new entry; a core die that takes an identity answers
to nothing else (R2, R335 to R337). -/
def execRemap (pkg : Nat) (base : Bool) (index : Nat) (entry : BitVec 32) (s : State) : Out :=
  let entry := cleanEntry base entry
  let new := placeOfEntry pkg base entry
  .next (if !s.entryFits pkg base index entry then s
    else (if base then s else s.takeBrace pkg new.1 new.2).remap pkg base index entry false)

/-- The path whose end a marker shows: that of an incarnation of a base or core die, or the old route to a package. -/
def markOf (base : Option Bool) (index : Nat) (inc : BitVec 8) : DrainMark :=
  match base with
  | some b => .die b index inc
  | none => .route index

/-- The parts by which an event names the end of a path. -/
def markParts : DrainMark → Option Bool × Nat × BitVec 8
  | .die b phys inc => (some b, phys, inc)
  | .route dest => (none, dest, 0)

/-- `DRAIN_MARKER`: a marker has arrived on every path: of an old incarnation, or of an old route, after which the new
route serves (R337, R341). -/
def execDrainMarker (pkg : Nat) (base : Option Bool) (index : Nat) (inc : BitVec 8) (s : State) : Out :=
  let mark := markOf base index inc
  .next (if !(s.pkg pkg).drains.contains mark then s
    else s.updPkg pkg fun p =>
      let p := { p with drains := p.drains.erase mark }
      match mark with
      | .die _ _ _ => p
      | .route d => match look p.newRoutes d with
        | some r => { p with routes := put p.routes d r, newRoutes := drop p.newRoutes d }
        | none => p)

/-! ### UCIe modules (R338, R339) -/

/-- A package with a module replaced. -/
def Package.setModule (p : Package) (m : Module) : Package :=
  { p with modules := m :: p.modules.filter (fun x => !(x.base == m.base && x.index == m.index)) }

/-- `UCIE_MODULE_SERVICE`: a module pauses and retrains; the traffic of its triples waits, and so does a cut (R300,
R339). -/
def execUcieModuleService (pkg base unit : Nat) (s : State) : Out :=
  let m := (s.pkg pkg).module base unit
  .next (if 9 ≤ base || 16 ≤ unit || m.lost then s else s.updPkg pkg (·.setModule { m with paused := true }))

/-- `UCIE_RETRAIN_DONE`: the module serves again at x64 or x32, in order; one that fails to train at x32 is lost (R339). -/
def execUcieRetrainDone (pkg base unit lanes : Nat) (s : State) : Out :=
  let m := (s.pkg pkg).module base unit
  .next (if !m.paused then s
    else if 32 ≤ lanes then s.updPkg pkg (·.setModule { m with paused := false, lanes := if 64 ≤ lanes then 64 else 32 })
    else (s.updPkg pkg (·.setModule { m with paused := false, lanes := 0, lost := true })).report pkg
      (.module pkg base unit) false true)

/-! ### Pod ports (R340, R341) -/

/-- A package with a pod port replaced. -/
def Package.setPort (p : Package) (x : PodPort) : Package :=
  { p with ports := x :: p.ports.filter (·.index != x.index) }

/-- `POD_FRAME`: a frame in sequence is taken, with its acknowledgement of the frames sent the other way and its stops of
the five channels; one with a CRC error or out of sequence is replayed (R340). -/
def execPodFrame (pkg port : Nat) (crcOk : Bool) (frame : PodFrame) (s : State) : Out :=
  let x := (s.pkg pkg).port port
  .next (if 32 ≤ port || x.down then s
    else s.updPkg pkg (·.setPort
      (if crcOk && frame.seq = x.received then
        { x with received := x.received + 1, acked := max x.acked frame.ack, stop := frame.stop }
       else { x with replays := x.replays + 1 })))

/-- `POD_PORT_RETRAIN`: a port that lost a lane goes on with its two best; one that cannot is down (R340). -/
def execPodPortRetrain (pkg port lanes : Nat) (s : State) : Out :=
  let x := (s.pkg pkg).port port
  .next (if 32 ≤ port then s
    else s.updPkg pkg (·.setPort
      (if 4 ≤ lanes then { x with lanes := 4, down := false } else if 2 ≤ lanes then { x with lanes := 2, down := false }
       else { x with lanes := 0, down := true })))

/-- A new route of a package: where an old one serves, be it the one that stands unwritten, it takes effect only with the
marker sent on that one; a port that is down sends none, and what waits there goes by the new route in order (R227, R340,
R341; entry 10). -/
def Package.newRoute (p : Package) (dest port : Nat) (valid : Bool) : Package :=
  match (look p.routes dest).getD (0, true) with
  | (old, true) =>
    if (p.port old).down then { p with routes := put p.routes dest (port, valid) }
    else { p with
      newRoutes := put p.newRoutes dest (port, valid)
      drains := if p.drains.contains (.route dest) then p.drains else p.drains ++ [.route dest] }
  | _ => { p with routes := put p.routes dest (port, valid) }

/-- `POD_ROUTE_WRITE`: an entry of the pod route table (R341). -/
def execPodRouteWrite (pkg dest port : Nat) (valid : Bool) (s : State) : Out :=
  .next (if 2048 ≤ dest || 32 ≤ port then s else s.updPkg pkg (·.newRoute dest port valid))

/-! ### Time (R342) -/

/-- Nanoseconds that a counter may be slewed by in one exchange: 200 ppm of 10 µs (R342). -/
def slewLimit : Nat := 2

/-- The timekeeper: the alive package of lowest index (R342). -/
def State.keeper (s : State) : Option Nat := (List.range s.podSize).find? fun q => (s.pkg q).alive

/-- How far a package stands below the timekeeper in the spanning tree, by the parents that packages have, on a way that does
not pass `pkg`; none where it does not stand in the tree. `fuel` bounds the depth. -/
def State.syncDepth (s : State) (k pkg : Nat) : Nat → Nat → Option Nat
  | fuel, q =>
    if q = pkg then none
    else if q = k then some 0
    else match fuel, (s.pkg q).parent with
      | fuel + 1, some r => (s.syncDepth k pkg fuel r).map (· + 1)
      | _, _ => none

/-- The parent of a package in the spanning tree of pod ports, as the service processors choose it: of the alive packages
that it has a valid route to and that stand in the tree at most 15 deep without it, one that stands highest, the lowest index
first; the timekeeper has none. The tree so has no cycle and a depth of at most 16 (R342; DESIGN CHOICE, entry 79). `but` is a
parent that no longer serves. -/
def State.chooseParent (s : State) (pkg : Nat) (but : Option Nat) : Option Nat :=
  match s.keeper with
  | none => none
  | some k =>
    if k = pkg then none
    else (List.range 16).findSome? fun d => (List.range s.podSize).find? fun q =>
      q != pkg && some q != but && (s.pkg q).alive && s.routed pkg q && s.syncDepth k pkg 15 q == some d

/-- Nanoseconds that a package is ahead of its parent, and the delay of the link, measured from both directions, each
time by the sender's or receiver's own counter (R342). -/
def measured (x : SyncTimes) : Int × Nat :=
  (((x.sent : Int) - x.got + (x.back - x.answered)) / 2, (x.back - x.sent - (x.answered - x.got)) / 2)

/-- `PTC_SYNC_EXCHANGE`: a package and its tree parent have exchanged timestamped messages; it slews its counter forward,
or holds it until time reaches it; a package that has no parent, such as the timekeeper, exchanges nothing (R342). -/
def execPtcSyncExchange (pkg : Nat) (times : SyncTimes) (s : State) : Out :=
  let m := measured times
  let parent := ((s.pkg pkg).parent).or (s.chooseParent pkg none)
  .next (if parent.isNone || s.keeper = some pkg then s
    else s.updPkg pkg fun p =>
    let p := if 0 < m.1 then { p with ahead := m.1.toNat }
      else { p with ptc := p.ptc + BitVec.ofNat 64 (min (-m.1).toNat slewLimit), ahead := 0 }
    { p with parent := parent, delay := m.2, syncAt := p.ptc, syncLost := false })

/-- Nanoseconds without synchronisation after which a package reports it: 1 ms (R342). -/
def syncLimit : Nat := 10 ^ 6

/-- `PTC_SYNC_LOSS`: a package other than the timekeeper that has received no synchronisation for 1 ms, be it that it never had
a parent, reports it and gets a new parent (R342). -/
def execPtcSyncLoss (pkg : Nat) (s : State) : Out :=
  let p := s.pkg pkg
  .next (if p.syncLost || !p.alive || s.keeper = some pkg || p.ptc.toNat < p.syncAt.toNat + syncLimit then s
    else s.setPkg pkg { p with
      syncLost := true, parent := s.chooseParent pkg p.parent
      service := { p.service with reports := p.service.reports ++ ["loss of synchronisation"] } })

end Sys2Proof.Machine
end

