-- ==== Sys2Proof/Machine/Resilience.lean ====
section
/-!
DEFINITION. Detected errors and lost units (R257, R265, R266, R333, R334, R353 to R359).
-/

namespace Sys2Proof.Machine

/-! ### Errors in a core (R357) -/

/-- Whether a slot holds a thread that may still read what an error spoiled. -/
def Slot.running (t : Slot) : Bool := t.state != .free && t.state != .parked

/-- `REGISTER_PARITY_ERROR`: the instruction that reads the register ends without effect (R355 to R357). -/
def execRegisterParityError (core : Nat) (slot : Fin 8) (s : State) : Out :=
  .next (if (s.slot core slot).running && !s.saved core then s.coreError core slot 0x05 0 else s)

/-- `PIPE_RESIDUE_ERROR`: the result of the pipe's entry is not written (R355 to R357). -/
def execPipeResidueError (core : Nat) (slot : Fin 8) (s : State) : Out :=
  .next (if (s.slot core slot).running && !s.saved core then
      (s.updCore core fun k => match k.seq.find? (·.slot == slot) with
        | some e => { k with seq := k.seq.erase e }
        | none => k).coreError core slot 0x05 0
    else s)

/-- A domain of a core whose preserved inputs a keep-area word holds covers no later error (R354, R356). -/
def View.spoil (v : View) (word : Nat) : View :=
  match v.keep with
  | some (o, l) =>
    if v.scope.toNat ≤ 2 && decide (o ≤ word * 16) && decide (word * 16 < o + l) then { v with spoiled := true } else v
  | none => v

/-- A keep-area word of a core is lost: the domains whose inputs it holds cover no later error (R354, R356). -/
def State.spoilKeep (s : State) (core word : Nat) : State :=
  let spoil (t : Slot) : Slot := if t.home = core then { t with views := t.views.map (·.spoil word) } else t
  { s with cores := s.cores.map fun k => (k.1, { k.2 with slots := k.2.slots.map spoil }) }

/-- `LOCAL_MEMORY_DOUBLE_BIT_ERROR`: a single-bit error (no slot is named) is corrected and counted. For a double-bit error a
16-byte word of local memory is marked poisoned; in the keep area it spoils the domains whose inputs it holds, elsewhere
the thread of the slot that read it recovers (R251, R354 to R357, R359). -/
def execLocalMemoryDoubleBitError (core word : Nat) (slot : Option (Fin 8)) (s : State) : Out :=
  let k := s.core core
  let unit := s.coreUnit core
  .next (if 4096 ≤ word || s.saved core then s else match slot with
    | none => s.report (pkgOf core) unit true false
    | some n =>
      let s := s.updCore core fun k => { k with lpoison := addNum k.lpoison word }
      if 65536 - 4096 * k.kc ≤ word * 16 then (s.spoilKeep core word).report (pkgOf core) unit false false
      else if (s.slot core n).running then
        s.coreError core n 0x06 (BitVec.ofNat 64 (core % 2 ^ 26 * 2 ^ 16 + word * 16))
      else s.report (pkgOf core) unit false false)

/-- `QUEUE_ENTRY_ERROR`: an entry is withdrawn, fetched again from the scribe log and delivered in its place; an entry
that no log holds is gone, and where the pool holds pegs for its stage the freed entry is reserved for them (R285, R357,
R362; entry 46). -/
def execQueueEntryError (core : Nat) (q : Fin 8) (index : Nat) (s : State) : Out :=
  let k := s.core core
  let x := k.queue q.val
  .next (match (if s.saved core then none else x.entries[index]?) with
    | none => s
    | some e =>
      let log := (s.pkg (pkgOf core)).scribe (dieOf core)
      let s := match e.seq.bind (fun n => log.entries.find? (·.seq == n)) with
        | some l => s.setCore core (k.setQueue q.val { x with entries := x.entries.set index { e with words := l.pay } })
        | none => (s.setCore core (k.setQueue q.val { x with entries := x.entries.eraseIdx index })).entryLeft core q.val
      s.report (pkgOf core) (s.coreUnit core) false false)

/-! ### Errors of the fabric (R357) -/

/-- `FLIT_PARITY_ERROR`: the flit is sent again from the hop buffer; the stop router's record counts it (R357, R359). A
contribution on its way to the router may be found corrupt, and is then omitted (R210; entry 93). -/
def execFlitParityError (stop : Nat) (s : State) : Out :=
  let pkg := stop / 8192
  let one (x : CollMsg × Nat) : CollMsg :=
    if !x.1.down && x.1.router == stop && Config.flitSpoils s.ticks x.2 then { x.1 with psn := true } else x.1
  .next (if s.podSize ≤ pkg then s
    else ({ s with collMsgs := s.collMsgs.zipIdx.map one } : State).report pkg
      (s.stopUnit pkg (stop / 1024 % 8) (stop % 1024)) true false)

/-- A message is lost whole and counted once in its tenant's loss counter; a cut waits for it no more, and a reservation
that it consumes goes back (R299, R300, R330, R357). -/
def State.loseMessage (s : State) (pkg : Nat) (m : Msg) : State :=
  let s := match m.payload with
    | .queue q _ resv => s.unreserve m.dst q resv
    | .callat _ _ n g | .command _ (some (n, g)) => s.askAgain m.src n g
    | .spawn r => s.askAgain r.core r.slot r.gen
    | .status n g _ => s.askAgain m.dst n g
    | _ => s
  (if m.onMessage then s.countArrived m else s).updPkg pkg (·.raiseLoss m.dom)

/-- `STOP_ROUTER_FAILURE`: the messages inside a failed router are lost whole, each counted once in its tenant's loss
counter: those of its overflow buffer, those on their way through it, and items of its groups (R299, R330, R357). Which
messages that pass it have a flit inside is a free value (entry 76). -/
def execStopRouterFailure (pkg die quad : Nat) (s : State) : Out :=
  let stop := pkg * 8192 + die * 1024 + quad
  let held (m : Parked) : Bool := !m.spilled && stopOf m.core == stop
  let inside (x : Msg × Nat) : Bool := (stopsPassed x.1.src x.1.dst).contains stop && Config.insideRouter s.ticks x.2
  let item (x : CollMsg × Nat) : Bool :=
    x.1.router == stop && (s.parkedItem x.1 || Config.insideRouter s.ticks (s.fabric.length + x.2))
  let dom (m : CollMsg) : Nat := ((s.trussAt m.router m.g).map (·.dom)).getD 0
  .next (if 8 ≤ die || 1024 ≤ quad then s
    else
      let p := s.pkg pkg
      let items := s.collMsgs.zipIdx
      let msgs := s.fabric.zipIdx
      let left : State := { s with
        fabric := (msgs.filter (!inside ·)).map (·.1)
        collMsgs := (items.filter (!item ·)).map (·.1) }
      let s := left.setPkg pkg { p with parked := p.parked.filter (!held ·) }
      let s := (p.parked.filter held).foldl (fun s m =>
        (s.unreserve m.core m.q m.resv).updPkg pkg (·.raiseLoss m.dom)) s
      let s := (msgs.filter inside).foldl (fun s x => s.loseMessage pkg x.1) s
      let s := (items.filter item).foldl (fun s x => (s.countItem x.1).updPkg pkg (·.raiseLoss (dom x.1))) s
      s.report pkg (s.stopUnit pkg die quad) false true)

/-! ### Lost memory positions and stacks (R257, R265, R358) -/

/-- The virtual pages of 64 KiB that a package maps, with their physical chunks (R264, R269). -/
def Package.mappedPages (p : Package) (own : Nat) : List (Nat × Nat) :=
  (p.tables.filter fun x => decide (x.1 < 2 ^ 20) && x.2.getLsbD 63).flatMap fun x =>
    let at_ (j : Nat) : Nat := own * 2 ^ 25 + 32 * x.1 + j
    let chunk (e : BitVec 64) : Nat := (e.extractLsb' 8 31).toNat * 256 / 65536
    (List.range 32).filterMap fun j =>
      if x.2.getLsbD 62 then some (at_ j, chunk x.2 + j)
      else
        let e := (look p.tables (l2Key x.2 (at_ j * 65536))).getD 0
        if e.getLsbD 63 then some (at_ j, chunk e) else none

/-- The lines of a page poisoned with a detail (R265, R356). -/
def Package.poisonPage (p : Package) (page : Nat) (detail : BitVec 8) : Package :=
  { p with poison := (pageLines page).foldl (fun l x => put l x detail) p.poison }

/-- The data of a page whose `cd` is changing is lost: while it is being set, its lines are poisoned and the transition
ends, and the check lines that had taken images of it are recomputed; while it is being cleared, the lines that have not
been shipped wait for their rebuild, and the others are poisoned (R265, R317; entry 33). -/
def Package.loseTransit (p : Package) (t : Transit) (page : Nat) : Package :=
  let fresh (l : Nat) : Bool := t.lines.any fun x => x.1 == l && !x.2.1 && !x.2.2
  if t.setting then
    { p.poisonPage page 0x03 with transits := p.transits.filter (·.pages != t.pages) }
  else
    { p with
      rebuild := p.rebuild ++ (pageLines page).filter fun l => fresh l && !p.rebuild.contains l
      poison := ((pageLines page).filter (!fresh ·)).foldl (fun x l => put x l 0x03) p.poison }

/-- The data of a list of mapped pages is lost: coded lines wait for their rebuild, uncoded ones are poisoned (R265,
R317, R321). -/
def Package.losePages (p : Package) (pages : List Nat) : Package :=
  pages.foldl (fun p g => match p.transitOf (g * 512) with
    | some t => p.loseTransit t g
    | none =>
      if (look p.coded g).isSome then { p with rebuild := p.rebuild ++ (pageLines g).filter (fun l => !p.rebuild.contains l) }
      else p.poisonPage g 0x03) p

/-- Check lines of a package that a predicate picks are lost and wait for their rebuild; write-backs that they have not
acknowledged are excused (R321, R322). -/
def State.loseChecks (s : State) (pkg : Nat) (hit : CheckLine → Bool) : State :=
  let gone := (s.pkg pkg).checks.filter hit
  (s.updPkg pkg fun p => { p with
    checks := p.checks.filter (!hit ·)
    rebuildChecks := p.rebuildChecks ++ gone.map fun c => (c.line, c.stripe, c.q) }).excuseChecks
      fun l st q => gone.any fun c => c.line == l && c.stripe == st && c.q == q

/-- The check lines that had taken the image of a line of a page whose coding was being set, when the page is lost: they are
recomputed from the data that remains (R317, R321; entry 33). -/
def State.dropImages (s : State) (pages : List Nat) (p : Package) : State :=
  let lost := p.transits.filter fun t => t.setting && t.pages.any pages.contains
  lost.foldl (fun s t => [false, true].foldl (fun s q =>
    s.loseChecks (t.stripe.getD (if q then 9 else 8) 0) fun c =>
      c.q == q && c.stripe == t.stripe && t.pages.any (fun g => c.line / 512 == g % 2 ^ 25)) s) s

/-- Whether a view of a package holds a version in slices of lost positions (R358). -/
def Package.holdsLost (p : Package) (lost : List Nat) (v : View) : Bool :=
  p.versions.any fun x => x.1 == v.num && !x.2.2 && lost.contains (homePos (x.2.1 * 128))

/-- The line of a lost version that a thread's views hold, if any. -/
def Package.lostLine (p : Package) (lost : List Nat) (t : Slot) : Option Nat :=
  (p.versions.find? fun x => t.views.any (·.num == x.1) && !x.2.2 && lost.contains (homePos (x.2.1 * 128))).map (·.2.1)

/-- Every thread of the package recovers from the loss of slices: the innermost domain that covers and holds no lost
version is rolled back; a thread that holds one and has no such domain takes poisoned data (R354, R355, R358). -/
def State.recoverSlices (s : State) (pkg : Nat) (lost : List Nat) (unit : UnitName) : State :=
  let p := s.pkg pkg
  let threads := (s.cores.filter (fun k => pkgOf k.1 == pkg)).flatMap fun k =>
    ((List.finRange 8).filter fun n => !(k.2.slot n).views.isEmpty).map fun n => (k.1, n)
  let holds (x : Nat × Fin 8) : Bool := (p.lostLine lost (s.slot x.1 x.2)).isSome
  let spoiled (l : List (Nat × Fin 8)) (s : State) : State := l.foldl (fun s x =>
    match p.lostLine lost (s.slot x.1 x.2) with
    | some line => s.trap x.1 x.2 (mkFault 0x0F 0x03 (p.physLine (line * 128)))
    | none => s) s
  let reach (least home : Nat) (v : View) : Bool := v.reaches least home home && !p.holdsLost lost v
  let s := s.recoverAll (threads.filter holds) (reach 4) (some unit) spoiled
  let s := s.recoverAll (threads.filter (!holds ·)) (reach 3) (some unit) (fun _ s => s)
  (threads.map (·.1)).eraseDups.foldl State.resave s

/-- A dirty line of a lost slice: a coded one waits for its rebuild, an uncoded one is back at its HBM image (R257,
R358). -/
def State.loseDirty (s : State) (pkg : Nat) (d : DirtyLine) : State :=
  let s := s.updPkg pkg fun p => { p with dirty := p.dirty.filter (·.line != d.line) }
  if ((s.pkg pkg).stripeOf d.line).isSome then
    s.updPkg pkg fun p => { p with rebuild := addNum p.rebuild d.line }
  else { s with
    mem := s.mem.writeN (d.line * 128) d.image
    mtags := d.tags.foldl addNum (s.mtags.clear (granules (d.line * 128) 128)) }

/-- The versions that a view held in lost slices are gone, with the tags that it wrote there (R257, R358). -/
def ViewRec.loseVersions (v : ViewRec) (gone : Nat → Bool) : ViewRec :=
  { v with writes := v.writes.filter fun c => !gone (lineOf c.1), tags := v.tags.filter fun c => !gone (c.1 / 8), pz := v.pz.filter (!gone ·) }

/-- The slices of memory positions are lost, and the positions move to a surviving base die, which takes a new incarnation
(R257, R336, R358). -/
def State.losePositions (s : State) (pkg : Nat) (lost : List Nat) (onto : Nat) (unit : UnitName) : State :=
  let s := s.recoverSlices pkg lost unit
  let at_ (l : Nat) : Bool := lost.contains (homePos (l * 128))
  let s := ((s.pkg pkg).dirty.filter (fun d => at_ d.line)).foldl (fun s d => s.loseDirty pkg d) s
  let s := s.updPkg pkg fun p => { p with
    l2 := p.l2.filter (fun l => !at_ l)
    wbacks := p.wbacks.filter (fun w => !at_ w.line)
    copies := p.copies.filter (fun c => !at_ c.line)
    views := p.views.map fun v => v.loseVersions fun l => at_ l && p.versions.contains (v.num, l, false)
    versions := p.versions.filter (fun x => x.2.2 || !at_ x.2.1) }
  lost.foldl (fun s m => s.remap pkg true m (BitVec.ofNat 32 (onto * 4096)) true) s

/-- A package is declared lost: its routes and messages are fenced, its members leave the barriers, items of it on their
way count as omitted, and no commit waits for it (R333, R334, R341, R357, R370). -/
def State.declareLost (s : State) (pkg : Nat) : State :=
  let s := (s.loseMembers (fun c => pkgOf c == pkg)).excuseChecks fun _ st q => st.getD (if q then 9 else 8) 0 == pkg
  let fromLost (m : CollMsg) : Bool := match s.trussAt m.router m.g with
    | some t => (look t.peers m.port) == some pkg
    | none => false
  let leaveOut (m : CollMsg) : CollMsg :=
    if !m.down && fromLost m then { m with psn := true } else m
  let other (k : Nat × Package) : Nat × Package :=
    if k.1 = pkg then k
    else (k.1, { k.2 with
      commits := k.2.commits.map fun c => { c with raise := delNum c.raise pkg, acks := delNum c.acks pkg } })
  let s := { s with
    fabric := s.fabric.filter (fun m : Msg => pkgOf m.dst != pkg && senderPkg m.src != pkg)
    collMsgs := (s.collMsgs.filter (fun m : CollMsg => routerPkg m.router != pkg)).map leaveOut
    pkgs := s.pkgs.map other }
  s.updPkg pkg fun p => { p with
    failed := true, service := { p.service with reports := p.service.reports ++ ["package lost"] } }

/-- Whether a diagnosis asks for the remap of a stack's memory positions (R357, R369). -/
def asksStack (pkg stack : Nat) (d : Diagnosis) : Bool := d.action == .stackRemap && d.unit == .stack pkg stack

/-- `STACK_LOSS`: a base die or its HBM stack is lost. Its loss is reported and its die fenced; once a diagnosis has been
taken, its memory positions move onto a surviving die, its coded chunks wait for their rebuild and its uncoded ones are
poisoned. A second lost stack stays fenced, and package sparing follows (R257, R265, R357, R358, R369). -/
def execStackLoss (pkg stack onto : Nat) (s : State) : Out :=
  let p := s.pkg pkg
  let asks := asksStack pkg stack
  .next (if 9 ≤ stack || p.lostStacks.contains stack then s
    else if !p.lostStacks.isEmpty then
      (s.updPkg pkg fun p => { p with
        lostStacks := p.lostStacks ++ [stack], fenced := (p.fenced.filter (· != (true, stack))) ++ [(true, stack)] }).report
          pkg (.package pkg) false true
    else if !p.decided asks then
      (s.updPkg pkg fun p => { p with fenced := (p.fenced.filter (· != (true, stack))) ++ [(true, stack)] }).report
        pkg (.stack pkg stack) false true
    else if 9 ≤ onto || onto = stack then s
    else
      let s := s.losePositions pkg ((List.range 9).filter fun m => p.baseDie m == stack) onto (.stack pkg stack)
      let pages := ((p.mappedPages pkg).filter (fun x => x.2 % 9 == stack)).map (·.1)
      let s := (s.updPkg pkg fun p => { (p.acted asks).losePages pages with
        lostStacks := [stack], fenced := p.fenced.filter (· != (true, stack)) }).dropImages pages p
      s.loseChecks pkg fun c => Config.checkSlot c.stripe (c.line / 512) c.q % 9 == stack)

/-- `PACKAGE_LOSS`: a council declares a silent package failed by two votes or more (R357, R370). -/
def execPackageLoss (pkg votes : Nat) (s : State) : Out :=
  .next (if votes < 2 || s.podSize ≤ pkg || (s.pkg pkg).failed then s else s.declareLost pkg)

/-! ### Errors of L2 and HBM (R266, R357, R359) -/

/-- Failing ways of a slice that may be disabled (R357). -/
def wayLimit : Nat := 4

/-- The next base die that still serves after one (entry 14). -/
def Package.nextBase (p : Package) (b : Nat) : Nat :=
  (((List.range 9).map fun i => (b + 1 + i) % 9).find? fun d => d != b && !p.lostStacks.contains d).getD b

/-- One more way of a slice of a base die is disabled, and lines beyond the ways that still serve leave their sets; past
four ways the positions of the die are lost, without its stack (R257, R357, R359). -/
def State.disableWay (s : State) (pkg base slice way : Nat) : State :=
  let key := base * 128 + slice
  let p := s.pkg pkg
  if p.ways.contains (key * 16 + way) then s
  else if wayLimit ≤ (p.ways.filter (· / 16 == key)).length then
    s.losePositions pkg ((List.range 9).filter fun m => p.baseDie m == base) (p.nextBase base) (.way pkg base slice way)
  else
    let s := s.setPkg pkg { p with ways := (key * 16 + way) :: p.ways }
    let p := s.pkg pkg
    let at_ (l : Nat) : Bool := p.setOf (l * 128) / 1024 == key
    let full (s : State) (l : Nat) : Bool := decide ((s.pkg pkg).waysOf (l * 128) < (s.pkg pkg).setUsed l)
    let s := (p.copies.reverse.filter (at_ ·.line)).foldl (fun s c =>
      if full s c.line then s.updPkg pkg fun p => { p with copies := p.copies.erase c } else s) s
    (p.l2.reverse.filter at_).foldl (fun s l => if full s l then s.evict l else s) s

/-- Whether an error strikes a version of its view that a package holds in L2, or in the overflow area (R255, R260). -/
def Package.versionStruck (p : Package) (e : LineError) (overflow : Bool) : Bool :=
  p.versions.contains (e.view, lineOf e.addr, overflow)

/-- A version of a view in a package is poisoned (R266). -/
def State.poisonVersion (s : State) (e : LineError) : State :=
  s.updPkg e.pkg (·.updView e.view fun v => { v with pz := addNum v.pz (lineOf e.addr) })

/-- `L2_LINE_ERROR`: a single-bit error is corrected and counted; for a double-bit error a clean line or a read copy is
dropped, and a dirty line or a version poisoned. The way's record takes it (R255, R266, R357, R359). -/
def execL2LineError (e : LineError) (s : State) : Out :=
  let h := homePkg e.addr
  let line := lineOf e.addr
  let p := s.pkg e.pkg
  let key := p.baseDie (homePos e.addr) * 128 + homeSlice e.addr
  let copy := p.copies.any (·.line == line)
  let unit := UnitName.way e.pkg (p.baseDie (homePos e.addr)) (homeSlice e.addr) e.way.val
  .next (if s.podSize ≤ h || s.podSize ≤ e.pkg || p.ways.contains (key * 16 + e.way.val) then s
    else if !(if e.view ≠ 0 then p.versionStruck e false else if e.pkg = h then p.l2.contains line else copy) then s
    else if e.corrected then s.report e.pkg unit true false
    else
      (if e.view ≠ 0 then s.poisonVersion e
      else s.updPkg e.pkg fun p =>
        if e.pkg ≠ h then { p with copies := p.copies.filter (·.line != line) }
        else if p.dirty.any (·.line == line) then { p with poison := put p.poison line 0x02 }
        else { p with l2 := p.l2.filter (· != line) }).report e.pkg unit false false)

/-- `HBM_LINE_ERROR`: an error that the code corrects is counted; one that it cannot correct poisons a line that L2 does
not hold, or an entry of the overflow area, whose page the spec does not name (R260, R266, R357, R359). -/
def execHbmLineError (e : LineError) (s : State) : Out :=
  let h := homePkg e.addr
  let p := s.pkg h
  let unit := UnitName.page h (p.physPage e.addr)
  .next (if s.podSize ≤ h || s.podSize ≤ e.pkg then s
    else if e.view ≠ 0 then
      if !e.corrected && (s.pkg e.pkg).versionStruck e true then s.poisonVersion e else s
    else if p.l2.contains (lineOf e.addr) then s
    else if e.corrected then s.report h unit true false
    else (s.updPkg h fun p => { p with poison := put p.poison (lineOf e.addr) 0x02 }).report h unit false false)

/-! ### Heartbeats (R357) -/

/-- The packages whose die map names a physical core die of a package, with the number it has there (R335). -/
def State.servedBy (s : State) (pkg pdie : Nat) : List (Nat × Nat) :=
  (pkg, pdie) :: (s.pkgs.filter fun k => k.1 != pkg && (List.range 8).any fun d =>
    k.2.coreDie d == pdie + 16 * (pkg + 1)).map fun k => (k.1, pdie + 16 * (pkg + 1))

/-- `HEARTBEAT_LOSS`: a core die that missed three heartbeats is suspect: the hub fences it, and so does that of a package
that it serves as a remote brace (R337, R357). -/
def execHeartbeatLoss (pkg pdie : Nat) (s : State) : Out :=
  .next (if 9 ≤ pdie || (s.pkg pkg).fenced.contains (false, pdie) then s
    else (s.servedBy pkg pdie).foldl (fun s x =>
      (s.updPkg x.1 fun p => { p with fenced := p.fenced ++ [(false, x.2)] }).report x.1 (.coreDie pkg pdie) false true) s)

/-- `SERVICE_PROCESSOR_LOSS`: the survivor goes on alone (R357). -/
def execServiceProcessorLoss (pkg sp : Nat) (s : State) : Out :=
  .next (s.updPkg pkg fun p =>
    if sp = 0 then { p with service := { p.service with alive0 := false } }
    else if sp = 1 then { p with service := { p.service with alive1 := false } }
    else p)

end Sys2Proof.Machine
end

