-- ==== Sys2Proof/Machine/Scalar.lean ====
section
/-!
DEFINITION. Integer operations, immediates and extension registers (R103 to R110), with their short forms (R58).
-/

namespace Sys2Proof.Machine

/-! ### The functions of R107, at any width -/

/-- High half of the signed product. -/
def aluMulh {n : Nat} (a b : BitVec n) : BitVec n := BitVec.ofInt n (a.toInt * b.toInt / 2 ^ n)
/-- High half of the unsigned product. -/
def aluMulhn {n : Nat} (a b : BitVec n) : BitVec n := BitVec.ofNat n (a.toNat * b.toNat / 2 ^ n)
/-- Signed quotient, truncated; all ones for a zero divisor. -/
def aluDiv {n : Nat} (a b : BitVec n) : BitVec n := if b = 0 then BitVec.allOnes n else a.sdiv b
/-- Unsigned quotient; all ones for a zero divisor. -/
def aluDivn {n : Nat} (a b : BitVec n) : BitVec n := if b = 0 then BitVec.allOnes n else a / b
/-- Signed remainder, of the dividend's sign; the dividend for a zero divisor. -/
def aluRem {n : Nat} (a b : BitVec n) : BitVec n := if b = 0 then a else a.srem b
/-- Unsigned remainder; the dividend for a zero divisor. -/
def aluRemn {n : Nat} (a b : BitVec n) : BitVec n := if b = 0 then a else a % b
/-- The lesser of two values, signed. -/
def aluMin {n : Nat} (a b : BitVec n) : BitVec n := if b.slt a then b else a
/-- The greater of two values, signed. -/
def aluMax {n : Nat} (a b : BitVec n) : BitVec n := if a.slt b then b else a
/-- The lesser of two values, unsigned. -/
def aluMinn {n : Nat} (a b : BitVec n) : BitVec n := if b.ult a then b else a
/-- The greater of two values, unsigned. -/
def aluMaxn {n : Nat} (a b : BitVec n) : BitVec n := if a.ult b then b else a
/-- 1 where a condition holds. -/
def aluFlag (n : Nat) (c : Bool) : BitVec n := if c then 1 else 0
/-- The number of 0 bits above the highest 1 bit, of the low `k` bits. -/
def leadZeros {n : Nat} (a : BitVec n) : Nat → Nat
  | 0 => 0
  | k + 1 => if a.getLsbD k then 0 else leadZeros a k + 1
/-- The number of 0 bits below the lowest 1 bit, from bit `n - k` on. -/
def trailZeros {n : Nat} (a : BitVec n) : Nat → Nat
  | 0 => 0
  | k + 1 => if a.getLsbD (n - (k + 1)) then 0 else trailZeros a k + 1
/-- The number of 1 bits of the low `k` bits. -/
def countOnes {n : Nat} (a : BitVec n) : Nat → Nat
  | 0 => 0
  | k + 1 => countOnes a k + if a.getLsbD k then 1 else 0
/-- `CLZ`. -/
def aluClz {n : Nat} (a : BitVec n) : BitVec n := BitVec.ofNat n (leadZeros a n)
/-- `CTZ`. -/
def aluCtz {n : Nat} (a : BitVec n) : BitVec n := BitVec.ofNat n (trailZeros a n)
/-- `POPC`. -/
def aluPopc {n : Nat} (a : BitVec n) : BitVec n := BitVec.ofNat n (countOnes a n)

/-! ### Forms (R106, R107) -/

/-- A result of R107 with the flag it raises: scalar operands for `w` = 0, pairs for `w` = 1. -/
def Regs.intOp (r : Regs) (d a b : BitVec 5) (w : BitVec 1) (f32 : Word → Word → Word)
    (f64 : DWord → DWord → DWord) (division : Bool) : Regs :=
  if w = 1 then
    let x := r.pair a
    let y := r.pair b
    (r.setPair d (f64 x y)).raise (if division then divFlags y else 0)
  else
    let x := r.val a
    let y := r.val b
    (r.setVal d (f32 x y)).raise (if division then divFlags y else 0)

/-- A two-operand integer instruction of 4 bytes. -/
def State.int2 (d a b : BitVec 5) (w : BitVec 1) (f32 : Word → Word → Word) (f64 : DWord → DWord → DWord)
    (s : State) : Out :=
  .next (s.plain 4 [a, b] [d] fun r => .ok (r.intOp d a b w f32 f64 false))

/-- A division or remainder of 4 bytes. -/
def State.intDiv (d a b : BitVec 5) (w : BitVec 1) (f32 : Word → Word → Word) (f64 : DWord → DWord → DWord)
    (s : State) : Out :=
  .next (s.plain 4 [a, b] [d] fun r => .ok (r.intOp d a b w f32 f64 true))

/-- A one-operand integer instruction. -/
def State.int1 (d a : BitVec 5) (w : BitVec 1) (f32 : Word → Word) (f64 : DWord → DWord) (s : State) : Out :=
  .next (s.plain 4 [a] [d] fun r => .ok (if w = 1 then r.setPair d (f64 (r.pair a)) else r.setVal d (f32 (r.val a))))

/-- A shift or rotate: the amount is the field `h : b`, or the second operand's low word, modulo the width (R107). -/
def State.intShift (d a b : BitVec 5) (w ibit hbit : BitVec 1) (f32 : Word → Nat → Word) (f64 : DWord → Nat → DWord)
    (s : State) : Out :=
  let srcs := if ibit = 1 then [a] else [a, b]
  .next (s.plain 4 srcs [d] fun r =>
    let amt := if ibit = 1 then (hbit ++ b).toNat else (r.val b).toNat
    .ok (if w = 1 then r.setPair d (f64 (r.pair a) (amt % 64)) else r.setVal d (f32 (r.val a) (amt % 32))))

/-- A short two-operand form: the first source is the destination (R58). -/
def State.short2 (a b : BitVec 5) (f : Word → Word → Word) (s : State) : Out :=
  .next (s.plain 2 [a, b] [a] fun r => .ok (r.setVal a (f (r.val a) (r.val b))))

/-- A short form with an immediate (R58). -/
def State.shortImm (a : BitVec 5) (f : Word → Word) (s : State) : Out :=
  .next (s.plain 2 [a] [a] fun r => .ok (r.setVal a (f (r.val a))))

/-- `ADD` (R107). -/
def execAdd (d a b : BitVec 5) (w : BitVec 1) (s : State) : Out := s.int2 d a b w (· + ·) (· + ·)
/-- `SUB` (R107). -/
def execSub (d a b : BitVec 5) (w : BitVec 1) (s : State) : Out := s.int2 d a b w (· - ·) (· - ·)
/-- `MUL` (R107). -/
def execMul (d a b : BitVec 5) (w : BitVec 1) (s : State) : Out := s.int2 d a b w (· * ·) (· * ·)
/-- `MULH` (R107). -/
def execMulh (d a b : BitVec 5) (w : BitVec 1) (s : State) : Out := s.int2 d a b w aluMulh aluMulh
/-- `MULHN` (R107). -/
def execMulhn (d a b : BitVec 5) (w : BitVec 1) (s : State) : Out := s.int2 d a b w aluMulhn aluMulhn
/-- `DIV` (R107). -/
def execDiv (d a b : BitVec 5) (w : BitVec 1) (s : State) : Out := s.intDiv d a b w aluDiv aluDiv
/-- `DIVN` (R107). -/
def execDivn (d a b : BitVec 5) (w : BitVec 1) (s : State) : Out := s.intDiv d a b w aluDivn aluDivn
/-- `REM` (R107). -/
def execRem (d a b : BitVec 5) (w : BitVec 1) (s : State) : Out := s.intDiv d a b w aluRem aluRem
/-- `REMN` (R107). -/
def execRemn (d a b : BitVec 5) (w : BitVec 1) (s : State) : Out := s.intDiv d a b w aluRemn aluRemn
/-- `AND` (R107). -/
def execAnd (d a b : BitVec 5) (w : BitVec 1) (s : State) : Out := s.int2 d a b w (· &&& ·) (· &&& ·)
/-- `OR` (R107). -/
def execOr (d a b : BitVec 5) (w : BitVec 1) (s : State) : Out := s.int2 d a b w (· ||| ·) (· ||| ·)
/-- `XOR` (R107). -/
def execXor (d a b : BitVec 5) (w : BitVec 1) (s : State) : Out := s.int2 d a b w (· ^^^ ·) (· ^^^ ·)
/-- `ANDN` (R107). -/
def execAndn (d a b : BitVec 5) (w : BitVec 1) (s : State) : Out :=
  s.int2 d a b w (fun x y => x &&& ~~~y) (fun x y => x &&& ~~~y)
/-- `SHL` (R107). -/
def execShl (d a b : BitVec 5) (w ibit hbit : BitVec 1) (s : State) : Out :=
  s.intShift d a b w ibit hbit (· <<< ·) (· <<< ·)
/-- `SHR` (R107). -/
def execShr (d a b : BitVec 5) (w ibit hbit : BitVec 1) (s : State) : Out :=
  s.intShift d a b w ibit hbit (· >>> ·) (· >>> ·)
/-- `SAR` (R107). -/
def execSar (d a b : BitVec 5) (w ibit hbit : BitVec 1) (s : State) : Out :=
  s.intShift d a b w ibit hbit (·.sshiftRight ·) (·.sshiftRight ·)
/-- `ROL` (R107). -/
def execRol (d a b : BitVec 5) (w ibit hbit : BitVec 1) (s : State) : Out :=
  s.intShift d a b w ibit hbit (·.rotateLeft ·) (·.rotateLeft ·)
/-- `MIN` (R107). -/
def execMin (d a b : BitVec 5) (w : BitVec 1) (s : State) : Out := s.int2 d a b w aluMin aluMin
/-- `MAX` (R107). -/
def execMax (d a b : BitVec 5) (w : BitVec 1) (s : State) : Out := s.int2 d a b w aluMax aluMax
/-- `MINN` (R107). -/
def execMinn (d a b : BitVec 5) (w : BitVec 1) (s : State) : Out := s.int2 d a b w aluMinn aluMinn
/-- `MAXN` (R107). -/
def execMaxn (d a b : BitVec 5) (w : BitVec 1) (s : State) : Out := s.int2 d a b w aluMaxn aluMaxn
/-- `SLT` (R107). -/
def execSlt (d a b : BitVec 5) (w : BitVec 1) (s : State) : Out :=
  s.int2 d a b w (fun x y => aluFlag 32 (x.slt y)) (fun x y => aluFlag 64 (x.slt y))
/-- `SLTN` (R107). -/
def execSltn (d a b : BitVec 5) (w : BitVec 1) (s : State) : Out :=
  s.int2 d a b w (fun x y => aluFlag 32 (x.ult y)) (fun x y => aluFlag 64 (x.ult y))
/-- `CLZ` (R107). -/
def execClz (d a : BitVec 5) (w : BitVec 1) (s : State) : Out := s.int1 d a w aluClz aluClz
/-- `CTZ` (R107). -/
def execCtz (d a : BitVec 5) (w : BitVec 1) (s : State) : Out := s.int1 d a w aluCtz aluCtz
/-- `POPC` (R107). -/
def execPopc (d a : BitVec 5) (w : BitVec 1) (s : State) : Out := s.int1 d a w aluPopc aluPopc

/-- Short `ADD` (R58). -/
def execAddShort (a b : BitVec 5) (s : State) : Out := s.short2 a b (· + ·)
/-- Short `SUB` (R58). -/
def execSubShort (a b : BitVec 5) (s : State) : Out := s.short2 a b (· - ·)
/-- Short `AND` (R58). -/
def execAndShort (a b : BitVec 5) (s : State) : Out := s.short2 a b (· &&& ·)
/-- Short `OR` (R58). -/
def execOrShort (a b : BitVec 5) (s : State) : Out := s.short2 a b (· ||| ·)
/-- Short `XOR` (R58). -/
def execXorShort (a b : BitVec 5) (s : State) : Out := s.short2 a b (· ^^^ ·)
/-- Short `SHL` (R58). -/
def execShlShort (a imm : BitVec 5) (s : State) : Out := s.shortImm a (· <<< imm.toNat)
/-- Short `SHR` (R58). -/
def execShrShort (a imm : BitVec 5) (s : State) : Out := s.shortImm a (· >>> imm.toNat)
/-- Short `SAR` (R58). -/
def execSarShort (a imm : BitVec 5) (s : State) : Out := s.shortImm a (·.sshiftRight imm.toNat)
/-- Short `ADDI` (R58). -/
def execAddiShort (a imm : BitVec 5) (s : State) : Out := s.shortImm a (· + sx32 imm)
/-- Short `LI` (R58). -/
def execLiShort (a imm : BitVec 5) (s : State) : Out := .next (s.plain 2 [] [a] fun r => .ok (r.setVal a (sx32 imm)))
/-- Short `MIN` (R58). -/
def execMinShort (a b : BitVec 5) (s : State) : Out := s.short2 a b aluMin
/-- Short `MAX` (R58). -/
def execMaxShort (a b : BitVec 5) (s : State) : Out := s.short2 a b aluMax

/-- `SEL` (R108): all three sources are read. -/
def execSel (d a b c : BitVec 5) (s : State) : Out :=
  .next (s.plain 4 [a, b, c] [d] fun r => .ok (r.setVal d (if r.val c ≠ 0 then r.val a else r.val b)))
/-- `ADDI` (R109). -/
def execAddi (d a : BitVec 5) (imm : BitVec 14) (s : State) : Out :=
  .next (s.plain 4 [a] [d] fun r => .ok (r.setVal d (r.val a + sx32 imm)))
/-- `LI` (R109). -/
def execLi (d : BitVec 5) (imm : BitVec 19) (s : State) : Out :=
  .next (s.plain 4 [] [d] fun r => .ok (r.setVal d (sx32 imm)))
/-- `LIH` (R109). -/
def execLih (d : BitVec 5) (imm : BitVec 18) (s : State) : Out :=
  .next (s.plain 4 [d] [d] fun r => .ok (r.setVal d (imm ++ (r.val d).extractLsb' 0 14)))
/-- `ELI` (R110). -/
def execEli (d : BitVec 5) (imm : BitVec 19) (s : State) : Out :=
  .next (s.plain 4 [] [] fun r => .ok (r.setExt (d.setWidth 3) (sx32 imm)))
/-- `EMOV` to an extension register (R110). -/
def execEmovToE (d a : BitVec 5) (s : State) : Out :=
  .next (s.plain 4 [a] [] fun r => .ok (r.setExt (d.setWidth 3) (r.val a)))
/-- `EMOV` from an extension register (R110). -/
def execEmovFromE (d a : BitVec 5) (s : State) : Out :=
  .next (s.plain 4 [] [d] fun r => .ok (r.setVal d (r.ext (a.setWidth 3))))
/-- Short `EMOV` (R58, R110). -/
def execEmovShort (a b : BitVec 5) (s : State) : Out :=
  .next (s.plain 2 [b] [] fun r => .ok (r.setExt (a.setWidth 3) (r.val b)))

end Sys2Proof.Machine
end

