-- ==== Sys2Proof/Machine/Sparing.lean ====
section
/-!
DEFINITION. Sparing: a lost core is bound again, its threads recover and its queues are rebuilt (R354, R355, R365), stops
(R360, R361), dies (R366) and packages (R367).
-/

namespace Sys2Proof.Machine

/-! ### Cores that are bound again (R355, R365, R366) -/

/-- A slot of a lost core before its thread recovers: what was under way is gone, and the inputs kept in the core cannot
be read any more (R354). -/
def Slot.afterLoss (t : Slot) : Slot :=
  if t.state = .free then { Slot.initial with home := t.home }
  else { t with
    peg := none, pendFault := none, reply := none
    views := t.views.map fun v => if v.scope.toNat ≤ 2 then { v with spoiled := true } else v }

/-- A core that a loss reset and that the control die has bound again: stages, partitions, local images and capability
blocks are those of its bindings, and its queues are still empty (R272, R366). -/
def State.renewCore (s : State) (c : Nat) : State :=
  let k := s.core c
  let watch := s.monitors.filter fun m => m.space != spGLOBAL && m.core == c && m.tcore != c
  let s := watch.foldl (fun s m => s.updSlot m.tcore m.tslot Slot.unarm)
    { s with monitors := s.monitors.filter fun m => m.tcore != c && (m.space == spGLOBAL || m.core != c) }
  let s := s.setCore c { Core.initial c with
    slots := k.slots.map Slot.afterLoss, stages := k.stages, fired := k.fired, turns := k.turns, staged := k.staged
    parts := k.parts, kc := k.kc, colls := k.colls, releases := k.releases, relCopy := k.relCopy
    stopped := k.stopped, stopAt := k.stopAt, colour := k.colour, sent := k.sent, received := k.received
    queues := k.queues.map fun q => { q with entries := [] } }
  k.parts.foldl (fun s p => match (s.pkg (pkgOf c)).tenant p.tenant with
    | none => s
    | some t =>
      t.caps.foldl (fun s x => if x.1 = c then s.placeCap c (p.base + x.2.1) x.2.2 else s)
        (s.putLocal c p.base ((look t.images c).getD []) none)) s

/-- Every thread of a list of lost cores is rolled back by the innermost covering domain, or is lost; all are lost where
`lose` holds (R355, R364); the slots of a core that was reset and that hold no thread are those of a reset core, with
generation 0 (R18). `least` is the least scope that covers, and `at_` a core within the unit that failed. -/
def State.recoverCores (s : State) (cores : List Nat) (least at_ : Nat) (reach : Nat → Bool) (unit : UnitName)
    (lose : Nat → Bool) : State :=
  let threads (l : List Nat) : List (Nat × Fin 8) := l.flatMap fun c => (List.finRange 8).map fun n => (c, n)
  let s := s.loseThreads (threads (cores.filter lose)) reach
  let s := s.recoverAll (threads (cores.filter (!lose ·))) (View.reaches least at_) (some unit) fun l s =>
    s.loseThreads l reach
  let fresh (t : Slot) : Slot := if t.state = .free then { t with gen := 0 } else t
  cores.foldl (fun s c => s.updCore c fun k => { k with slots := k.slots.map fresh }) s

/-- The tenant that a rebuilt entry of a queue belongs to: that of the stage that reads it. -/
def Core.queueTenant (k : Core) (q : Nat) : Nat :=
  match k.stages.toList.find? (fun g => g.bits.getLsbD 31 && g.inq == q) with
  | some g => g.tenant
  | none => ((k.stages.toList.find? (fun g => g.bits.getLsbD 31)).map (·.tenant)).getD 0

/-- Entries of the scribe log put back into their queue together, or parked when it has no space (R328, R365). -/
def State.redeliver (s : State) (pkg : Nat) (l : List Scribe) : State :=
  match l with
  | [] => s
  | e :: _ =>
    let agent := controlAgent pkg
    let k := s.core e.dst
    let x := k.queue e.q
    if !(s.pkg pkg).waits agent e.dst && decide (l.length ≤ x.free) then
      s.setCore e.dst (k.setQueue e.q { x with entries := x.entries ++ l.map fun e => ⟨e.pay, some e.seq⟩ })
    else
      (s.updScribe e.dst fun y => if l.any (·.seq == y.seq) then { y with ret := true } else y).park
        ⟨agent, e.dst, e.q, k.queueTenant e.q, l.map (·.pay), 0, false⟩

/-- Scribe entries put back in `seq` order, pairs together (R365). -/
def State.redeliverAll (s : State) (pkg : Nat) : List Scribe → State
  | [] => s
  | [e] => s.redeliver pkg [e]
  | e :: f :: rest =>
    if e.pair then (s.redeliver pkg [e, f]).redeliverAll pkg rest
    else (s.redeliver pkg [e]).redeliverAll pkg (f :: rest)

/-- The queues of lost cores of a die rebuilt from the entries that are neither retired nor `pend` (R365). -/
def State.rebuildQueues (s : State) (pkg die : Nat) (hit : Nat → Bool) : State :=
  s.redeliverAll pkg (((s.pkg pkg).scribe die).entries.filter fun e =>
    !e.ret && !e.pend && e.kind != 4 && decide (e.q < 7) && hit e.dst)

/-! ### Stop sparing (R360, R361) -/

/-- The logical column that a physical column of a row serves, under a mask of disabled stops (R360). -/
def logColumn (m : BitVec 34) (col : Nat) : Nat := ((List.range col).filter (fun i => !m.getLsbD i)).length

/-- The logical die that a physical core die serves, in its own package or as a remote brace: package and die (R335). -/
def State.identity (s : State) (pkg pdie : Nat) : Option (Nat × Nat) :=
  (s.servedBy pkg pdie).findSome? fun x => ((List.range 8).find? fun d =>
    (s.pkg x.1).dieMap[d % 8].getLsbD 31 && (s.pkg x.1).coreDie d == x.2).map fun d => (x.1, d)

/-- A die's incarnation increments in its own count and in its map entry; what it had under way issues again (R336,
R361). -/
def State.newIncarnation (s : State) (pkg die : Nat) : State :=
  let entry := (s.pkg pkg).dieMap[die % 8]
  let x := placeOfEntry pkg false entry
  let inc := (s.pkg x.1).incOf false x.2 + 1
  (((s.fenceReplies pkg false die false).updPkg x.1 (·.setInc false x.2 inc)).updPkg pkg
    (·.setMap false die (entry.extractLsb' 8 24 ++ inc))).reissue pkg false die

/-- Whether a die is pre-empted for the sparing of a stop: its partition's cut has closed, and every other core of it has
been saved (R361). -/
def State.readyToSpare (s : State) (pkg die : Nat) (cores : List Nat) : Bool :=
  (s.stopping (pkg * 2 ^ 15 + die * 2 ^ 12)).any (·.cutClosed) &&
    s.cores.all fun k => k.1 / 4096 != pkg * 8 + die || cores.contains k.1 || s.saved k.1

/-- The cores of a failed stop recover on the stop that now serves them, and wait with images like those of the other
cores of their pre-empted die for its resume (R355, R361, R365). -/
def State.recoverStop (s : State) (pkg die : Nat) (cores : List Nat) (unit : UnitName) : State :=
  let s := cores.foldl State.renewCore s
  let s := s.recoverCores cores 3 (cores.headD 0) cores.contains unit (fun _ => false)
  let s := s.rebuildQueues pkg die cores.contains
  let s := (s.cores.map (·.1)).foldl State.resave s
  cores.foldl (fun s c => (s.updCore c fun k => { k with stopped := true }).saveCore c) s

/-- `STOP_SPARING`: the failed stop of a diagnosis is bypassed once its die has been pre-empted and saved; the die takes a
new incarnation, the stop's threads recover, and the images of the die wait to be restored. A third disabled stop of a
row makes the die unusable (R3, R335, R360, R361). -/
def execStopSparing (pkg pdie row col : Nat) (s : State) : Out :=
  let mask := (s.pkg pkg).stopMask pdie row
  let place := (pkg, pdie, row, col)
  let id := if logColumn mask col < 32 then s.identity pkg pdie else none
  let own := (id.map (·.1)).getD pkg
  let cores (x : Nat × Nat) : List Nat :=
    (List.range 4).map ((x.1 * 8192 + x.2 * 1024 + row * 32 + logColumn mask col) * 4 + ·)
  let disable (s : State) : State := (s.updPkg own (·.acted (asksStop place))).updPkg pkg fun p =>
    { p with stopMap := put p.stopMap (pdie * 32 + row) (mask ||| BitVec.twoPow 34 col) }
  .next (if 9 ≤ pdie || 32 ≤ row || 34 ≤ col || mask.getLsbD col || !(s.pkg own).decided (asksStop place) then s
    else if 2 ≤ disabledStops mask then
      ((s.updPkg own (·.acted (asksStop place))).updPkg pkg fun p =>
        { p with failedDies := addNum p.failedDies pdie }).report own (.coreDie pkg pdie) false true
    else match id with
      | none => disable s
      | some x =>
        if !s.readyToSpare x.1 x.2 (cores x) then s
        else ((disable s).newIncarnation x.1 x.2).recoverStop x.1 x.2 (cores x) (.stop pkg pdie row col))

/-! ### Groups of a lost die (R333, R366) -/

/-- An item that stands for the members behind a port that are lost. -/
def State.omittedItem (s : State) (g router port : Nat) : Item :=
  { Item.none with omitted := s.membersBehind g (fun _ => false) 64 router port }

/-- The round in progress goes on without a lost die's items: at a root stop on the die every port but the hub's is
omitted, and the hub sends its partial again; otherwise the hub omits the die (R333). -/
def State.omitDie (s : State) (pkg die g : Nat) : State :=
  let hub := s.trussAt (hubRouter pkg) g
  let root := (s.pkg pkg).truss.find? fun t => t.g == g && t.vld && decide (t.router < 2 ^ 24) &&
    t.router / 1024 == pkg * 8 + die && t.par == 63
  match root, hub with
  | some t, h =>
    let items := (t.children.filter (· != 8)).foldl (fun l p => put l p (s.omittedItem g t.router p)) []
    let s := s.foldRound { t with items := items } false
    match h.bind (fun h => h.kept.map fun x => (h, x)) with
    | some (h, x) => s.sendColl h.router h.par h x 0 false false
    | none => s
  | none, some h =>
    if !h.cmask.getLsbD die || (look h.items die).isSome || h.kept.isSome then s
    else s.foldRound { h with items := put h.items die (s.omittedItem g h.router die) } false
  | none, none => s

/-- A group after the loss of a die that another die serves: its items on the die, and those that the die has sent, are
gone, a round in progress omits them, and the die is a member again under a new number (R333, R366). -/
def State.spareGroup (s : State) (pkg die ten g : Nat) : State :=
  let onDie (r : Nat) : Bool := decide (r < 2 ^ 24) && r / 1024 == pkg * 8 + die
  let busy := s.cores.any (fun k => k.1 / 4096 == pkg * 8 + die && k.2.pending g) ||
    (match s.trussAt (hubRouter pkg) g with
      | some t => !t.items.isEmpty || t.kept.isSome
      | none => false)
  let routers := ((s.pkg pkg).truss.filter fun t => t.g == g && t.dom == ten && onDie t.router).map (·.router)
  let s := s.bumpMembers ten g routers
  let clear (t : Truss) : Truss :=
    if t.g == g && t.dom == ten && onDie t.router then { t with items := [], kept := none } else t
  let s := s.updPkg pkg fun p => { p with truss := p.truss.map clear }
  let fromDie (m : CollMsg) : Bool := match m.src with
    | .core c => onDie (stopOf c)
    | .router r => onDie r
  let s := { s with collMsgs := s.collMsgs.filter fun m => !(m.g == g && (onDie m.router || fromDie m)) }
  (if busy then s.omitDie pkg die g else s).bumpMembers ten g routers

/-- The groups that have an entry on a die: tenant and group. -/
def Package.groupsOn (p : Package) (die : Nat) : List (Nat × Nat) :=
  ((p.truss.filter fun t => t.vld && decide (t.router < 2 ^ 24) && t.router / 1024 == die).map fun t => (t.dom, t.g)).eraseDups

/-- Barriers within lost instances go back to the last phase completion (R366). -/
def State.restoreBarriers (s : State) (hit : Nat → Nat → Bool) : State :=
  { s with barriers := s.barriers.map fun b =>
      if hit b.level b.inst then { b with arrived := [], signals := [], lost := 0 } else b }

/-! ### Die sparing (R366) -/

/-- The physical die that a number of a die map names: package and die (R335). -/
def physDie (pkg d : Nat) : Nat × Nat := if d < 16 then (pkg, d) else (d / 16 - 1, d % 16)

/-- Whether a physical core die has failed or is fenced. -/
def Package.deadDie (p : Package) (d : Nat) : Bool := p.failedDies.contains d || p.fenced.contains (false, d)

/-- Whether a physical core die of a package serves another package as a remote brace (R335, R366). -/
def State.lent (s : State) (pkg d : Nat) : Bool := s.pkgs.any fun k => k.1 != pkg && (List.range 8).any fun i =>
  k.2.dieMap[i % 8].getLsbD 31 && k.2.coreDie i == d + 16 * (pkg + 1)

/-- The core dies of a package that can serve: neither failed nor fenced nor lent. -/
def State.goodDies (s : State) (pkg : Nat) : List Nat :=
  (List.range 9).filter fun d => !(s.pkg pkg).deadDie d && !s.lent pkg d

/-- The core die that takes a failed identity of a package: its brace where that serves, or an idle die of a spare package:
package and die (R3, R366). Which spare package and which of its dies is the model's choice: the lowest (DESIGN CHOICE,
entry 81). -/
def State.braceFor (s : State) (pkg : Nat) : Option (Nat × Nat) :=
  match (s.pkg pkg).brace.filter fun b => !(s.pkg pkg).deadDie b with
  | some b => some (pkg, b)
  | none => s.pkgs.findSome? fun k =>
    if k.1 = pkg || !k.2.spare || !k.2.alive then none else (s.goodDies k.1).head?.map fun d => (k.1, d)

/-- Whether an instance of a scope of at most a die lies on a logical die. -/
def instanceOn (die level inst : Nat) : Bool :=
  match level with
  | 1 => inst / 4096 == die
  | 2 => inst / 1024 == die
  | 3 => inst == die
  | _ => false

/-- The die map entry by which a physical die of a package serves a logical die of another or of its own (R335). -/
def braceEntry (pkg q b : Nat) : BitVec 32 :=
  0x80000000#32 ||| (BitVec.ofNat 32 b <<< 15) ||| (if q = pkg then 0#32 else 0x40000000#32 ||| (BitVec.ofNat 32 q <<< 19))

/-- `DIE_SPARING`: a die that a diagnosis declares lost is served by the brace: its cores are bound again, its threads
recover or are lost, its queues, barriers and groups are restored, and it resumes (R333, R337, R354, R355, R364 to
R366). -/
def execDieSparing (pkg die : Nat) (s : State) : Out :=
  let p := s.pkg pkg
  let old := physDie pkg (p.coreDie die)
  let unit := UnitName.coreDie old.1 old.2
  let asks (d : Diagnosis) : Bool := d.action == .dieSparing && d.unit == unit
  .next (if 8 ≤ die || !p.decided asks then s
    else match s.braceFor pkg with
    | none => s
    | some (q, b) =>
      let entry := braceEntry pkg q b
      if !s.entryFits pkg false die entry then s
      else
        let unprotected := s.unlogged (pkg * 2 ^ 15 + die * 2 ^ 12)
        let s := (s.takeBrace pkg q b).remap pkg false die entry true
        let s := (s.updPkg pkg (·.acted asks)).updPkg old.1 fun p => { p with failedDies := addNum p.failedDies old.2 }
        let mine (c : Nat) : Bool := c / 4096 == pkg * 8 + die
        let cores := (s.cores.filter (fun k => mine k.1)).map (·.1)
        let s := cores.foldl State.renewCore s
        let s := s.recoverCores cores 3 (pkg * 2 ^ 15 + die * 2 ^ 12) mine unit (fun _ => unprotected)
        let s := s.rebuildQueues pkg die mine
        let s := s.restoreBarriers (instanceOn (pkg * 8 + die))
        let s := (s.cores.map (·.1)).foldl State.resave s
        ((s.pkg pkg).groupsOn (pkg * 8 + die)).foldl (fun s x => s.spareGroup pkg die x.1 x.2) s)

/-! ### Package sparing (R367) -/

/-- The package that a spare becomes when it takes a failed package's index: the tables of its bindings are those of the
failed package, its parts are its own, and the dies that it has not lent serve with new incarnations (R367). -/
def takeIndex (old sp : Package) (dies : List Nat) (now : BitVec 64) : Package :=
  let inc (d : Nat) : BitVec 8 := sp.dieInc[d % 9] + 1
  { old with
    ptc := now, ahead := 0, syncLost := false, parent := none, delay := 0, syncAt := now
    tcache := [], versions := [], commits := [], copies := [], l2 := [], ways := [], dirty := [], wbacks := []
    parked := [], worlds := old.worlds, scribeHeld := []
    truss := old.truss.map fun t => { t with items := [], kept := none }
    dieMap := Vector.ofFn fun i =>
      0x80000000#32 ||| (BitVec.ofNat 32 (dies.getD i.val 0) <<< 15) ||| (inc (dies.getD i.val 0)).zeroExtend 32
    baseMap := sp.baseMap.map fun e => e.extractLsb' 8 8 ++ (e.extractLsb' 0 8 + 1)
    dieInc := Vector.ofFn fun i => if dies.contains i.val then inc i.val else sp.dieInc[i]
    baseInc := sp.baseInc.map (· + 1)
    fenced := [], drains := [], failedDies := sp.failedDies, brace := dies[8]?, stopMap := sp.stopMap
    lostStacks := sp.lostStacks, modules := sp.modules, ports := sp.ports, routes := sp.routes, newRoutes := []
    host := sp.host, service := sp.service, firmware := sp.firmware
    throttle := false, contexts := [], sections := []
    raised := true, failed := false, spare := false }

/-- Dies of a spare that serve other packages keep their places under the index that it takes (R335, R367). -/
def renameRemote (spare pkg : Nat) (e : BitVec 32) : BitVec 32 :=
  if e.getLsbD 31 && e.getLsbD 30 && (e.extractLsb' 19 11).toNat == spare then
    e.extractLsb' 30 2 ++ BitVec.ofNat 11 pkg ++ e.extractLsb' 0 19
  else e

/-- Another package when a spare takes an index: its route for the index becomes its route to the spare, under the rule of
R341, and its map names the spare's dies by the index (R335, R341, R367). -/
def Package.follow (p : Package) (pkg spare : Nat) : Package :=
  let r := (look p.routes spare).getD (0, true)
  let p := p.newRoute pkg r.1 r.2
  { p with dieMap := p.dieMap.map (renameRemote spare pkg) }

/-- Partitions under pre-emption without a package that has been replaced. -/
def State.leaveStops (s : State) (pkg : Nat) : State :=
  { s with stops := (s.stops.map fun h => { h with pkgs := h.pkgs.filter (· != pkg) }).filter fun h => !h.pkgs.isEmpty }

/-- A spare takes an index, and the other packages follow (R335, R341, R367). -/
def State.takePackage (s : State) (pkg spare : Nat) (new : Package) : State :=
  let follow (k : Nat × Package) : Nat × Package := if k.1 = pkg || k.1 = spare then k else (k.1, k.2.follow pkg spare)
  let s := { s with
    pkgs := s.pkgs.map follow
    mem := s.mem.filter (fun c => homePkg c.1 != pkg)
    mtags := s.mtags.filter (fun g => homePkg (g * 16) != pkg) }
  let s := (s.updPkg spare fun p => { p with raised := false, failed := true, spare := false }).setPkg pkg new
  let s := (List.range 9).foldl (fun s m => (s.fenceReplies pkg true m true).reissue pkg true m) (s.leaveStops pkg)
  (List.range 8).foldl (fun s d => (s.fenceReplies pkg false d true).reissue pkg false d) s

/-- `PACKAGE_SPARING`: a spare takes the index of a package declared lost: coded chunks wait for their rebuild, uncoded
ones are poisoned, tenants are bound again, threads of `.pkg` and `.pod` domains are restored and the others lost, and
queues are rebuilt from the scribe logs (R337, R341, R342, R355, R365, R367). -/
def execPackageSparing (pkg spare : Nat) (s : State) : Out :=
  let old := s.pkg pkg
  let sp := s.pkg spare
  let dies := s.goodDies spare
  .next (if !old.failed || pkg = spare || !sp.spare || !sp.alive || !sp.tenants.isEmpty || dies.length < 8 then s
    else
      let time := ((s.timekeeper pkg).map fun k => (s.pkg k).ptc).getD sp.ptc
      let now := if sp.ptc.ult time then time else sp.ptc
      let new := takeIndex old sp dies now
      let pages := (new.mappedPages pkg).map (·.1)
      let s := ((s.takePackage pkg spare (new.losePages pages)).dropImages pages new).loseChecks pkg (fun _ => true)
      let mine (c : Nat) : Bool := pkgOf c == pkg
      let cores := (s.cores.filter (fun k => mine k.1)).map (·.1)
      let s := (cores.foldl State.renewCore s)
      let s := cores.foldl (fun s c => s.updCore c fun k => { k with stopped := false }) s
      let s := s.recoverCores cores 4 (pkg * 2 ^ 15) mine (.package pkg)
        s.unlogged
      let s := (List.range 8).foldl (fun s d => s.rebuildQueues pkg d mine) s
      let s := s.restoreBarriers fun l i => decide (l ≤ 4) &&
        (if l = 4 then i == pkg else (List.range 8).any fun d => instanceOn (pkg * 8 + d) l i)
      (s.pkg pkg).tenants.foldl (fun s t => s.recount t.id cores (fun _ _ => true)) s)

end Sys2Proof.Machine
end

