-- ==== Sys2Proof/Machine/Service.lean ====
section
/-!
DEFINITION. The service processors: queues, diagnoses and councils (R368 to R370), fault pegs that the service OS hands on
(R293, R356), and the arming of injections (R391 to R393).
-/

namespace Sys2Proof.Machine

/-! ### Service queues (R368) -/

/-- The fields `thr` and `sp` of a service queue's notify register (R368). -/
def Service.notifyOf (v : Service) (q : Nat) : BitVec 64 := (look v.notify q).getD 0

/-- Fault pegs that wait with the service OS of a package (R293, R368). -/
def State.servicePegs (s : State) (pkg : Nat) : Nat :=
  ((s.cores.filter (fun k => pkgOf k.1 == pkg)).flatMap fun k => k.2.slots.toList.filter fun t => match t.peg with
    | some (.service p) => p.svc == 0
    | _ => false).length

/-- Entries of each kind that wait in the service queues of a package: error reports, fault pegs, council messages and host
commands (R368). -/
def State.serviceEntries (s : State) (pkg : Nat) : Fin 4 → Nat
  | 0 => (s.pkg pkg).service.log.length
  | 1 => s.servicePegs pkg
  | 2 => (((s.pkg pkg).service.council).map (·.ballots.length)).getD 0
  | 3 => (s.pkg pkg).host.commands.length

/-- `cnt`: the entries that wait in a service queue, by the queue that the service OS has assigned to each kind (R368; entry
82). -/
def State.serviceCount (s : State) (pkg q : Nat) : Nat :=
  (((List.finRange 4).filter fun k => Config.serviceQueue k % 128 == q).map (s.serviceEntries pkg)).sum

/-- A service queue's notify register as it reads (R368). -/
def State.notifyRegister (s : State) (pkg q : Nat) : BitVec 64 :=
  BitVec.ofNat 32 (s.serviceCount pkg q) ++ ((s.pkg pkg).service.notifyOf q).setWidth 32

/-- The bits of a notify register that a write keeps: `thr` and `sp` (R6, R368). -/
def notifyMask : BitVec 64 := 0xFF80

/-- `SERVICE_QUEUE_NOTIFY`: a notify register is written; with `ntf` set, the thread that the queue is bound to wakes, if
its processor is alive (R357, R368). -/
def execServiceQueueNotify (pkg : Nat) (write : NotifyWrite) (s : State) : Out :=
  let value := write.value
  .next (if 128 ≤ write.queue then s
    else s.updPkg pkg fun p =>
      let v := { p.service with notify := put p.service.notify write.queue (value &&& notifyMask) }
      let sp := if value.getLsbD 7 then 1 else 0
      let alive := if value.getLsbD 7 then v.alive1 else v.alive0
      { p with service := if value.getLsbD 0 && alive then
          { v with woken := v.woken ++ [(sp, (value.extractLsb' 8 6).toNat)] } else v })

/-! ### Diagnoses and councils (R369, R370) -/

/-- The width of a reach: its place in the order of R353. -/
def reachRank : Reach → Nat
  | .none => 0
  | .thread => 1
  | .core => 2
  | .stop => 3
  | .die => 4
  | .stack => 5
  | .package => 6
  | .tray => 7

/-- A diagnosis is taken: the reports of its unit have been used. -/
def Service.take (v : Service) (d : Diagnosis) : Service :=
  { v with taken := d :: v.taken, council := none, log := v.log.filter (· != d.unit) }

/-- The action of a diagnosis that has just been taken, where the service processors do it at once: a way of a slice is
disabled, and the rollback of an error in a thread or core has been made when it was detected (R355, R357, R369). The
others are done by the events that name them. -/
def State.act (s : State) (pkg : Nat) (d : Diagnosis) : State :=
  let done (s : State) : State := s.updPkg pkg (·.acted (· == d))
  match d.action, d.unit with
  | .wayDisable, .way h base slice way =>
    if h = pkg && base < 9 && slice < 128 && way < 16 then (done s).disableWay pkg base slice way else s
  | .rollback, _ | .none, _ => done s
  | _, _ => s

/-- The council of a package: the service processors of the next three packages that are neither failed nor spare
(R370). -/
def State.councilOf (s : State) (pkg : Nat) : List Nat :=
  ((((List.range s.podSize).drop 1).map fun i => (pkg + i) % s.podSize).filter fun q =>
    !(s.pkg q).failed && !(s.pkg q).spare).take 3

/-- `DIAGNOSIS_EXCHANGE`: two processors that agree act; otherwise, or where only one is alive, the package asks a council
(R369, R370). Equal digests stand for equal diagnoses (entry 12). -/
def execDiagnosisExchange (pkg : Nat) (d0 d1 : Diagnosis) (s : State) : Out :=
  let v := (s.pkg pkg).service
  let d0 := if v.alive0 then d0 else d1
  let d1 := if v.alive1 then d1 else d0
  .next (if (!v.alive0 && !v.alive1) || v.council.isSome then s
    else if v.alive0 && v.alive1 && d0 = d1 then
      (s.updPkg pkg fun p => { p with service := p.service.take d0 }).act pkg d0
    else
      let c : Council := ⟨d0, d1, s.councilOf pkg, [], 0, 0⟩
      s.updPkg pkg fun p => { p with service := { p.service with council := some c } })

/-- `COUNCIL_REQUEST`: a council package whose own processors agree votes for the diagnosis that matches its own;
otherwise it abstains (R370). -/
def execCouncilRequest (pkg member : Nat) (own0 own1 : Diagnosis) (s : State) : Out :=
  .next (match (s.pkg pkg).service.council with
    | none => s
    | some c =>
      if !c.members.contains member || c.ballots.any (·.1 == member) then s
      else
        let vote := if own0 ≠ own1 then 2 else if own0 = c.d0 then 0 else if own0 = c.d1 then 1 else 2
        s.updPkg pkg fun p => { p with service := { p.service with
          council := some { c with ballots := c.ballots ++ [(member, vote)] } } })

/-- A processor that has lost a council, or won one: two lost in a row declare it failed (R370). -/
def Service.judge (v : Service) (lost0 lost1 : Bool) : Service :=
  let n0 := if lost0 then v.lost0 + 1 else 0
  let n1 := if lost1 then v.lost1 + 1 else 0
  { v with lost0 := n0, lost1 := n1, alive0 := v.alive0 && decide (n0 < 2), alive1 := v.alive1 && decide (n1 < 2) }

/-- What a council decides once the votes allow: two votes for one diagnosis, or, when every member has answered, the
wider reach (R370). -/
def Council.decision (c : Council) : Option Diagnosis :=
  if 2 ≤ c.votes0 then some c.d0
  else if 2 ≤ c.votes1 then some c.d1
  else if !c.members.isEmpty then none
  else if reachRank c.d0.reach < reachRank c.d1.reach then some c.d1
  else some c.d0

/-- `COUNCIL_VOTE`: a member's answer arrives, and the council may decide (R370). -/
def execCouncilVote (pkg member : Nat) (s : State) : Out :=
  .next (match (s.pkg pkg).service.council with
    | none => s
    | some c => match look c.ballots member with
      | none =>
        if c.members.isEmpty then
          (s.updPkg pkg fun p => { p with service := p.service.take (c.decision.getD c.d0) }).act pkg (c.decision.getD c.d0)
        else s
      | some v =>
        let c := { c with
          members := delNum c.members member, ballots := c.ballots.filter (·.1 != member)
          votes0 := if v = 0 then c.votes0 + 1 else c.votes0
          votes1 := if v = 1 then c.votes1 + 1 else c.votes1 }
        match c.decision with
        | none => s.updPkg pkg fun p => { p with service := { p.service with council := some c } }
        | some d => (s.updPkg pkg fun p =>
            let w := p.service.take d
            { p with service := if c.d0 = c.d1 then w else w.judge (d != c.d0) (d != c.d1) }).act pkg d)

/-! ### Fault pegs of the service OS (R293, R356) -/

/-- A page fault that the service OS has resolved: it writes table entries at the address's home (R270, R293). -/
def State.resolvePage (s : State) (a : Nat) (maps : List (Nat × BitVec 64)) : State :=
  if s.podSize ≤ homePkg a then s else s.mapPages (homePkg a) maps

/-- The poisoned line, or the line with a poisoned version, that a fault's physical line address names (R266). -/
def State.poisonedLine (s : State) (a : DWord) : Option Nat :=
  let h := homePkg a.toNat
  let versions := s.pkgs.flatMap fun k => k.2.views.flatMap (·.pz)
  (((s.pkg h).poison.map (·.1)) ++ versions).find? fun l => homePkg (l * 128) == h && (s.pkg h).physLine (l * 128) == a

/-- Poisoned versions of a line that the service OS has rewritten, with bytes that the spec does not give (R266, R356;
entry 26). -/
def State.rewriteVersions (s : State) (line : Nat) : State :=
  let b : List Byte := (List.range 128).map fun i => Config.rewritten s.ticks i
  let one (v : ViewRec) : ViewRec :=
    if v.pz.contains line then { v.write (line * 128) b with pz := delNum v.pz line } else v
  { s with pkgs := s.pkgs.map fun k => (k.1, { k.2 with views := k.2.views.map one }) }

/-- A poisoned line that the service OS has rewritten, and its poisoned versions: a coded one from its stripe, an uncoded
one with bytes that the spec does not give (R266, R356; entry 26). None where a coded line cannot be rebuilt. -/
def State.rewriteLine (s : State) (line : Nat) : Option State :=
  let h := homePkg (line * 128)
  let b : Option (List Byte) := match (s.pkg h).stripeOf line with
    | some st => s.rebuildValue line st (st.findIdx (· == h))
    | none => some ((List.range 128).map fun i => Config.rewritten s.ticks i)
  if (look (s.pkg h).poison line).isNone then some (s.rewriteVersions line)
  else b.map fun x => (s.installLine line (some x)).rewriteVersions line

/-- What the service OS does for a page or poisoned-data fault, and whether it has mapped the page or rewritten the line
(R293, R356). -/
def State.serviceFix (s : State) (p : FaultPeg) (resolved : Bool) (maps : List (Nat × BitVec 64)) : State × Bool :=
  if !resolved then (s, false)
  else if p.cls = 0x04 then
    let a := p.addr.toNat
    let s := s.resolvePage a maps
    (s, decide (homePkg a < s.podSize) && match (s.pkg (homePkg a)).walk a with
      | .ok _ => true
      | .error _ => false)
  else if p.cls = 0x0F && (p.detail = 0x02 || p.detail = 0x03 || p.detail = 0x04) then
    match (s.poisonedLine p.addr).bind s.rewriteLine with
    | some s => (s, true)
    | none => (s, false)
  else (s, false)

/-- `SERVICE_OS_PEG_ONWARD`: the service OS acts on a page or poisoned-data fault and hands the peg on with `svc` 1 or 2,
to queue 7, or keeps it where no handler of the core takes it (R293, R356). -/
def execServiceOsPegOnward (core : Nat) (slot : Fin 8) (resolved : Bool) (maps : List (Nat × BitVec 64)) (s : State) : Out :=
  .next (match (s.slot core slot).peg with
    | some (.service p) =>
      if p.svc ≠ 0 || !(p.cls = 0x04 || p.cls = 0x0F) || s.saved core then s
      else
        let (s, done) := s.serviceFix p resolved maps
        let p := { p with svc := if done then 1 else 2 }
        if s.serviceKeeps core slot then s.updSlot core slot fun t => { t with peg := some (.service p) }
        else s.deliverPeg core slot p
    | _ => s)

/-! ### Injections (R391 to R393) -/

/-- `COPY_INJECT_ARM`: a tenant's stores to `ijoff` and `carm` (R391, R392). -/
def execCopyInjectArm (pkg ten : Nat) (joff ctl : BitVec 32) (s : State) : Out :=
  .next (s.updPkg pkg fun p => p.updTenant ten fun t => (t.setCtrl 0x800 joff).setCtrl 0x804 ctl)

/-- `REGISTER_INJECT_ARM`: a tenant's stores to `ijpc` and `rarm` (R391, R393). -/
def execRegisterInjectArm (pkg ten : Nat) (jpc ctl : BitVec 32) (s : State) : Out :=
  .next (s.updPkg pkg fun p => p.updTenant ten fun t => (t.setCtrl 0x808 jpc).setCtrl 0x80C ctl)

end Sys2Proof.Machine
end

