-- ==== Sys2Proof/Machine/System.lean ====
section
/-!
DEFINITION. Control registers, the time counter, traps and fault handling (R34 to R40, R119 to R127, R294).
-/

namespace Sys2Proof.Machine

/-- The `tslot` word of a slot (R37). A thread started by `SPAWN` or a launch reads `stage` and `hcl` as 0. -/
def Slot.tslot (t : Slot) (n : Fin 8) : Word :=
  0#10 ++ (if t.lch then 1#1 else 0#1) ++ (if t.hcl && !t.lch then 1#1 else 0#1) ++
    (if t.lch then 0#4 else t.stage) ++ t.prio ++ t.bound ++ t.gen ++ BitVec.ofNat 3 n.val

/-- The slot of a handler-access number (R40). -/
def accessSlot (num : BitVec 9) : Fin 8 := (num.extractLsb' 4 3).toFin

/-- k of a handler-access number (R40). -/
def accessK (num : BitVec 9) : Nat := (num.extractLsb' 0 4).toNat

/-- Whether a number is listed in R34. -/
def listed (num : BitVec 9) : Bool :=
  [0, 1, 2, 3, 8, 0x10, 0x11, 0x12, 0x13].contains num.toNat || (0x100 ≤ num.toNat && num.toNat < 0x180)

/-- The checks of R119 on a control register number. -/
def checkNumber (num : BitVec 9) (hcl : Bool) : Except FaultInfo Unit :=
  if !listed num then .error (mkFault 0x01 0x07 0)
  else if 0x100 ≤ num.toNat && 5 < accessK num then .error (mkFault 0x01 0x07 0)
  else if 0x100 ≤ num.toNat && !hcl then .error (mkFault 0x0C 0 (num.zeroExtend 64))
  else .ok ()

/-- A record of another slot: zero when the slot holds a thread of another tenant (R40, R120, R294). -/
def Slot.accessRead (t : Slot) (tenant : Nat) (n : Fin 8) (k : Nat) : Word :=
  if t.state ≠ .free && t.tenant ≠ tenant then 0
  else match k with
    | 0 => t.faultPc
    | 1 => t.faultCause
    | 2 => t.faultAddr.setWidth 32
    | 3 => t.faultAddr.extractLsb' 32 32
    | 4 => t.tslot n
    | _ => t.regs.tst

/-- The value of a control register as the issuing thread reads it (R34, R120). -/
def State.controlValue (s : State) (num : BitVec 9) : Word :=
  let t := s.me
  match num.toNat with
  | 0 => t.regs.fcr
  | 1 => t.regs.tst
  | 2 => BitVec.ofNat 32 t.home
  | 3 => t.tslot s.curSlot
  | 8 => (s.core t.home).orph
  | 0x10 => t.faultPc
  | 0x11 => t.faultCause
  | 0x12 => t.faultAddr.setWidth 32
  | 0x13 => t.faultAddr.extractLsb' 32 32
  | _ => (s.slot t.home (accessSlot num)).accessRead t.tenant (accessSlot num) (accessK num)

/-- Whether a read of another slot's `tst` waits for that slot's sequencer entries (R120). -/
def State.tstBusy (s : State) (num : BitVec 9) : Bool :=
  decide (0x100 ≤ num.toNat) && accessK num == 5 && (s.core s.me.home).seqBusy (accessSlot num)

/-- `GETC` (R119, R120): a read of a `tst` whose slot has sequencer entries is issued again. -/
def execGetc (d : BitVec 5) (num : BitVec 9) (s : State) : Out :=
  .next (s.issue [] [d] fun s =>
    match checkNumber num s.me.hcl with
    | .error e => .error (.trap s e)
    | .ok _ =>
      if s.tstBusy num then .error (.wait s)
      else .ok (s.setRegs ((s.regs.setVal d (s.controlValue num)).advance 4)))

/-- A control register written with a word (R121). -/
def State.controlWrite (s : State) (num : BitVec 9) (x : Word) : Except FaultInfo State :=
  let t := s.me
  match num.toNat with
  | 0 =>
    if x.extractLsb' 0 3 = 7 then .error (mkFault 0x0D 0 0)
    else .ok (s.setRegs { t.regs with fcr := x &&& 0xFFFFFF17 })
  | 1 => .ok (s.setRegs { t.regs with tst := clearFlags t.regs.tst x })
  | 8 =>
    if !t.hcl then .error (mkFault 0x0C 0 0x008)
    else .ok (s.updCore t.home fun k => { k with orph := x })
  | n =>
    let m := accessSlot num
    let o := s.slot t.home m
    if 0x100 ≤ n && accessK num = 5 && o.state = .parked && o.tenant = t.tenant then
      .ok (s.updSlot t.home m fun o => { o with regs := { o.regs with tst := clearFlags o.regs.tst x } })
    else .ok s

/-- `SETC` (R119, R121). -/
def execSetc (a : BitVec 5) (num : BitVec 9) (s : State) : Out :=
  .next (s.issue [a] [] fun s =>
    match checkNumber num s.me.hcl with
    | .error e => .error (.trap s e)
    | .ok _ => match s.controlWrite num (s.regs.val a) with
      | .error e => .error (.trap s e)
      | .ok s => .ok (s.setRegs (s.regs.advance 4)))

/-- `TIME` (R122). -/
def execTime (d : BitVec 5) (s : State) : Out :=
  .next (s.plain 4 [] [d] fun r => .ok (r.setPair d s.ptc))

/-- `TWAIT`: a late one takes the schedule fault, an early one sleeps until the counter reaches T (R123). -/
def execTwait (a : BitVec 5) (s : State) : Out :=
  .next (s.issue [a] [] fun s =>
    let t := s.regs.pair a
    if t.toNat + 4096 < s.ptc.toNat then .error (.trap s (mkFault 0x0A 0 t))
    else if s.ptc.toNat < t.toNat then .error (.wait (s.updMe (·.block .sleep (.deadline t.toNat))))
    else .ok (s.setRegs (s.regs.advance 4)))

/-- `TRAP` (R124). -/
def execTrap (imm : BitVec 14) (s : State) : Out :=
  .next (s.issue [] [] fun s => .error (.trap s (mkFault 0x10 0 (imm.zeroExtend 64))))

/-- A handler instruction on the slot that its operand names: handler class only, and only a PARKED slot of the same
tenant whose generation matches (R125, R294). -/
def State.handle (a : BitVec 5) (f : State → Nat → Fin 8 → State) (s : State) : Out :=
  .next (s.issue [a] [] fun s =>
    let t := s.me
    let x := s.regs.val a
    let n : Fin 8 := (x.extractLsb' 0 3).toFin
    let s' := s.setRegs (s.regs.advance 4)
    if !t.hcl then .error (.trap s (mkFault 0x0C 0 (BitVec.ofNat 64 (0x100 + 16 * n.val))))
    else if (s.slot t.home n).tenant ≠ t.tenant then .ok s'
    else .ok (s'.onParked t.home n (x.extractLsb' 3 8) f))

/-- `FRESUME` (R125, R126). -/
def execFresume (a : BitVec 5) (s : State) : Out := s.handle a State.resumeParked
/-- `FKILL` (R125, R126). -/
def execFkill (a : BitVec 5) (s : State) : Out := s.handle a State.killThread
/-- `FRETRY` (R125, R126). -/
def execFretry (a : BitVec 5) (s : State) : Out := s.handle a State.retryParked

end Sys2Proof.Machine
end

