-- ==== Sys2Proof/Machine/Dispatch.lean ====
section
/-!
DEFINITION. The dispatch: one arm per constructor of `Instr`, each the meaning of that instruction.
-/

namespace Sys2Proof.Machine

/-- What an instruction, or a step of another agent, does to the machine. -/
def exec (i : Instr) (s : State) : Host.Outcome State Fault Refusal :=
  match i with
  | .add d a b w => Sys2Proof.Machine.execAdd d a b w s
  | .sub d a b w => Sys2Proof.Machine.execSub d a b w s
  | .mul d a b w => Sys2Proof.Machine.execMul d a b w s
  | .mulh d a b w => Sys2Proof.Machine.execMulh d a b w s
  | .mulhn d a b w => Sys2Proof.Machine.execMulhn d a b w s
  | .div d a b w => Sys2Proof.Machine.execDiv d a b w s
  | .divn d a b w => Sys2Proof.Machine.execDivn d a b w s
  | .rem d a b w => Sys2Proof.Machine.execRem d a b w s
  | .remn d a b w => Sys2Proof.Machine.execRemn d a b w s
  | .and d a b w => Sys2Proof.Machine.execAnd d a b w s
  | .or d a b w => Sys2Proof.Machine.execOr d a b w s
  | .xor d a b w => Sys2Proof.Machine.execXor d a b w s
  | .andn d a b w => Sys2Proof.Machine.execAndn d a b w s
  | .shl d a b w ibit hbit => Sys2Proof.Machine.execShl d a b w ibit hbit s
  | .shr d a b w ibit hbit => Sys2Proof.Machine.execShr d a b w ibit hbit s
  | .sar d a b w ibit hbit => Sys2Proof.Machine.execSar d a b w ibit hbit s
  | .rol d a b w ibit hbit => Sys2Proof.Machine.execRol d a b w ibit hbit s
  | .min d a b w => Sys2Proof.Machine.execMin d a b w s
  | .max d a b w => Sys2Proof.Machine.execMax d a b w s
  | .minn d a b w => Sys2Proof.Machine.execMinn d a b w s
  | .maxn d a b w => Sys2Proof.Machine.execMaxn d a b w s
  | .slt d a b w => Sys2Proof.Machine.execSlt d a b w s
  | .sltn d a b w => Sys2Proof.Machine.execSltn d a b w s
  | .clz d a w => Sys2Proof.Machine.execClz d a w s
  | .ctz d a w => Sys2Proof.Machine.execCtz d a w s
  | .popc d a w => Sys2Proof.Machine.execPopc d a w s
  | .addShort a b => Sys2Proof.Machine.execAddShort a b s
  | .subShort a b => Sys2Proof.Machine.execSubShort a b s
  | .andShort a b => Sys2Proof.Machine.execAndShort a b s
  | .orShort a b => Sys2Proof.Machine.execOrShort a b s
  | .xorShort a b => Sys2Proof.Machine.execXorShort a b s
  | .shlShort a imm => Sys2Proof.Machine.execShlShort a imm s
  | .shrShort a imm => Sys2Proof.Machine.execShrShort a imm s
  | .sarShort a imm => Sys2Proof.Machine.execSarShort a imm s
  | .addiShort a imm => Sys2Proof.Machine.execAddiShort a imm s
  | .liShort a imm => Sys2Proof.Machine.execLiShort a imm s
  | .minShort a b => Sys2Proof.Machine.execMinShort a b s
  | .maxShort a b => Sys2Proof.Machine.execMaxShort a b s
  | .bzShort a off => Sys2Proof.Machine.execBzShort a off s
  | .bnzShort a off => Sys2Proof.Machine.execBnzShort a off s
  | .ldShort a c j => Sys2Proof.Machine.execLdShort a c j s
  | .stShort a c j => Sys2Proof.Machine.execStShort a c j s
  | .nop => Sys2Proof.Machine.execNop s
  | .quitShort => Sys2Proof.Machine.execQuitShort s
  | .jrShort a => Sys2Proof.Machine.execJrShort a s
  | .jlrShort a => Sys2Proof.Machine.execJlrShort a s
  | .faddShort a b => Sys2Proof.Machine.execFaddShort a b s
  | .fmulShort a b => Sys2Proof.Machine.execFmulShort a b s
  | .emovShort a b => Sys2Proof.Machine.execEmovShort a b s
  | .hintShort h a b => Sys2Proof.Machine.execHintShort h a b s
  | .hint h x => Sys2Proof.Machine.execHint h x s
  | .sel d a b c => Sys2Proof.Machine.execSel d a b c s
  | .addi d a imm => Sys2Proof.Machine.execAddi d a imm s
  | .li d imm => Sys2Proof.Machine.execLi d imm s
  | .lih d imm => Sys2Proof.Machine.execLih d imm s
  | .eli d imm => Sys2Proof.Machine.execEli d imm s
  | .emovToE d a => Sys2Proof.Machine.execEmovToE d a s
  | .emovFromE d a => Sys2Proof.Machine.execEmovFromE d a s
  | .b off => Sys2Proof.Machine.execB off s
  | .j off => Sys2Proof.Machine.execJ off s
  | .jl off => Sys2Proof.Machine.execJl off s
  | .jr a => Sys2Proof.Machine.execJr a s
  | .jlr a => Sys2Proof.Machine.execJlr a s
  | .beq d a imm => Sys2Proof.Machine.execBeq d a imm s
  | .bne d a imm => Sys2Proof.Machine.execBne d a imm s
  | .blt d a imm => Sys2Proof.Machine.execBlt d a imm s
  | .bge d a imm => Sys2Proof.Machine.execBge d a imm s
  | .bltn d a imm => Sys2Proof.Machine.execBltn d a imm s
  | .bgen d a imm => Sys2Proof.Machine.execBgen d a imm s
  | .bz d imm => Sys2Proof.Machine.execBz d imm s
  | .bnz d imm => Sys2Proof.Machine.execBnz d imm s
  | .loop d imm => Sys2Proof.Machine.execLoop d imm s
  | .csetb d a b => Sys2Proof.Machine.execCsetb d a b s
  | .cinc d a b => Sys2Proof.Machine.execCinc d a b s
  | .cand d a b => Sys2Proof.Machine.execCand d a b s
  | .cbase d a => Sys2Proof.Machine.execCbase d a s
  | .clen d a => Sys2Proof.Machine.execClen d a s
  | .cperm d a => Sys2Proof.Machine.execCperm d a s
  | .getc d num => Sys2Proof.Machine.execGetc d num s
  | .setc a num => Sys2Proof.Machine.execSetc a num s
  | .time d => Sys2Proof.Machine.execTime d s
  | .twait a => Sys2Proof.Machine.execTwait a s
  | .trap imm => Sys2Proof.Machine.execTrap imm s
  | .fresume a => Sys2Proof.Machine.execFresume a s
  | .fkill a => Sys2Proof.Machine.execFkill a s
  | .fretry a => Sys2Proof.Machine.execFretry a s
  | .fadd d a b ty => Sys2Proof.Machine.execFadd d a b ty s
  | .fsub d a b ty => Sys2Proof.Machine.execFsub d a b ty s
  | .fmul d a b ty => Sys2Proof.Machine.execFmul d a b ty s
  | .fmin d a b ty => Sys2Proof.Machine.execFmin d a b ty s
  | .fmax d a b ty => Sys2Proof.Machine.execFmax d a b ty s
  | .fdiv d a b ty => Sys2Proof.Machine.execFdiv d a b ty s
  | .fabs d a ty => Sys2Proof.Machine.execFabs d a ty s
  | .fneg d a ty => Sys2Proof.Machine.execFneg d a ty s
  | .fsqrt d a ty => Sys2Proof.Machine.execFsqrt d a ty s
  | .fclass d a ty => Sys2Proof.Machine.execFclass d a ty s
  | .fcmp d a b ty => Sys2Proof.Machine.execFcmp d a b ty s
  | .ffma d a b ty => Sys2Proof.Machine.execFfma d a b ty s
  | .frcp d a ty => Sys2Proof.Machine.execFrcp d a ty s
  | .frsq d a ty => Sys2Proof.Machine.execFrsq d a ty s
  | .fexp2 d a ty => Sys2Proof.Machine.execFexp2 d a ty s
  | .flog2 d a ty => Sys2Proof.Machine.execFlog2 d a ty s
  | .fsin d a ty => Sys2Proof.Machine.execFsin d a ty s
  | .fcos d a ty => Sys2Proof.Machine.execFcos d a ty s
  | .cvt d a stype ty => Sys2Proof.Machine.execCvt d a stype ty s
  | .cvtf d a stype ty => Sys2Proof.Machine.execCvtf d a stype ty s
  | .frnd d a stype ty => Sys2Proof.Machine.execFrnd d a stype ty s
  | .tailget d a => Sys2Proof.Machine.execTailget d a s
  | .tailset d a b => Sys2Proof.Machine.execTailset d a b s
  | .tailgetV d a k => Sys2Proof.Machine.execTailgetV d a k s
  | .tailsetV d a b k => Sys2Proof.Machine.execTailsetV d a b k s
  | .faddV d a b ty k => Sys2Proof.Machine.execFaddV d a b ty k s
  | .fsubV d a b ty k => Sys2Proof.Machine.execFsubV d a b ty k s
  | .fmulV d a b ty k => Sys2Proof.Machine.execFmulV d a b ty k s
  | .fminV d a b ty k => Sys2Proof.Machine.execFminV d a b ty k s
  | .fmaxV d a b ty k => Sys2Proof.Machine.execFmaxV d a b ty k s
  | .fdivV d a b ty k => Sys2Proof.Machine.execFdivV d a b ty k s
  | .ffmaV d a b ty k => Sys2Proof.Machine.execFfmaV d a b ty k s
  | .fcmpV pred kd a b ty k => Sys2Proof.Machine.execFcmpV pred kd a b ty k s
  | .fabsV d a ty k => Sys2Proof.Machine.execFabsV d a ty k s
  | .fnegV d a ty k => Sys2Proof.Machine.execFnegV d a ty k s
  | .fsqrtV d a ty k => Sys2Proof.Machine.execFsqrtV d a ty k s
  | .fclassV d a ty k => Sys2Proof.Machine.execFclassV d a ty k s
  | .frcpV d a ty k => Sys2Proof.Machine.execFrcpV d a ty k s
  | .frsqV d a ty k => Sys2Proof.Machine.execFrsqV d a ty k s
  | .fexp2V d a ty k => Sys2Proof.Machine.execFexp2V d a ty k s
  | .flog2V d a ty k => Sys2Proof.Machine.execFlog2V d a ty k s
  | .fsinV d a ty k => Sys2Proof.Machine.execFsinV d a ty k s
  | .fcosV d a ty k => Sys2Proof.Machine.execFcosV d a ty k s
  | .cvtV d a stype ty k => Sys2Proof.Machine.execCvtV d a stype ty k s
  | .cvtfV d a stype ty k => Sys2Proof.Machine.execCvtfV d a stype ty k s
  | .frndV d a stype ty k => Sys2Proof.Machine.execFrndV d a stype ty k s
  | .vshuf d a b k => Sys2Proof.Machine.execVshuf d a b k s
  | .vrot d a b k => Sys2Proof.Machine.execVrot d a b k s
  | .vbcast d a k => Sys2Proof.Machine.execVbcast d a k s
  | .vsel d a b k => Sys2Proof.Machine.execVsel d a b k s
  | .vidx d a k => Sys2Proof.Machine.execVidx d a k s
  | .vredAdd d a ty k => Sys2Proof.Machine.execVredAdd d a ty k s
  | .vredMin d a ty k => Sys2Proof.Machine.execVredMin d a ty k s
  | .vredMax d a ty k => Sys2Proof.Machine.execVredMax d a ty k s
  | .vredAnd d a ty k => Sys2Proof.Machine.execVredAnd d a ty k s
  | .vredOr d a ty k => Sys2Proof.Machine.execVredOr d a ty k s
  | .vredXor d a ty k => Sys2Proof.Machine.execVredXor d a ty k s
  | .pack d a b ty k => Sys2Proof.Machine.execPack d a b ty k s
  | .vlut d a ty k => Sys2Proof.Machine.execVlut d a ty k s
  | .rndk d a b => Sys2Proof.Machine.execRndk d a b s
  | .rndkV d a b k => Sys2Proof.Machine.execRndkV d a b k s
  | .vloop n a => Sys2Proof.Machine.execVloop n a s
  | .gang size => Sys2Proof.Machine.execGang size s
  | .split => Sys2Proof.Machine.execSplit s
  | .ld d a c ord ty scope => Sys2Proof.Machine.execLd d a c ord ty scope s
  | .ldImm d c ty imm => Sys2Proof.Machine.execLdImm d c ty imm s
  | .st d a c ord ty scope => Sys2Proof.Machine.execSt d a c ord ty scope s
  | .stImm d c ty imm => Sys2Proof.Machine.execStImm d c ty imm s
  | .fst d a c ord ty scope => Sys2Proof.Machine.execFst d a c ord ty scope s
  | .fstImm d c ty imm => Sys2Proof.Machine.execFstImm d c ty imm s
  | .vld d a c k ty => Sys2Proof.Machine.execVld d a c k ty s
  | .vldImm d c ty imm => Sys2Proof.Machine.execVldImm d c ty imm s
  | .vst d a c k ty => Sys2Proof.Machine.execVst d a c k ty s
  | .vstImm d c ty imm => Sys2Proof.Machine.execVstImm d c ty imm s
  | .vlds d a c k ty e => Sys2Proof.Machine.execVlds d a c k ty e s
  | .vgath d a c k ty => Sys2Proof.Machine.execVgath d a c k ty s
  | .vscat d a c k ty => Sys2Proof.Machine.execVscat d a c k ty s
  | .ldc d a c ord scope => Sys2Proof.Machine.execLdc d a c ord scope s
  | .stc d a c ord scope => Sys2Proof.Machine.execStc d a c ord scope s
  | .spill d a c cls => Sys2Proof.Machine.execSpill d a c cls s
  | .fill d a c cls => Sys2Proof.Machine.execFill d a c cls s
  | .aadd d a b c ord scope w => Sys2Proof.Machine.execAadd d a b c ord scope w s
  | .aand d a b c ord scope w => Sys2Proof.Machine.execAand d a b c ord scope w s
  | .aor d a b c ord scope w => Sys2Proof.Machine.execAor d a b c ord scope w s
  | .axor d a b c ord scope w => Sys2Proof.Machine.execAxor d a b c ord scope w s
  | .aswap d a b c ord scope w => Sys2Proof.Machine.execAswap d a b c ord scope w s
  | .acas d a b c ord scope w => Sys2Proof.Machine.execAcas d a b c ord scope w s
  | .aminSigned d a b c ord scope w => Sys2Proof.Machine.execAminSigned d a b c ord scope w s
  | .aminUnsigned d a b c ord scope w => Sys2Proof.Machine.execAminUnsigned d a b c ord scope w s
  | .amaxSigned d a b c ord scope w => Sys2Proof.Machine.execAmaxSigned d a b c ord scope w s
  | .amaxUnsigned d a b c ord scope w => Sys2Proof.Machine.execAmaxUnsigned d a b c ord scope w s
  | .afadd d a b c ord scope w => Sys2Proof.Machine.execAfadd d a b c ord scope w s
  | .mxacc d a b c ty src => Sys2Proof.Machine.execMxacc d a b c ty src s
  | .mxld d a b c ty => Sys2Proof.Machine.execMxld d a b c ty s
  | .mxst d a b c ty => Sys2Proof.Machine.execMxst d a b c ty s
  | .mxres d a b c ty => Sys2Proof.Machine.execMxres d a b c ty s
  | .mxnorm a c ty => Sys2Proof.Machine.execMxnorm a c ty s
  | .fence scope => Sys2Proof.Machine.execFence scope s
  | .fenceAcq scope => Sys2Proof.Machine.execFenceAcq scope s
  | .fenceRel scope => Sys2Proof.Machine.execFenceRel scope s
  | .waitne d a b c ord scope w => Sys2Proof.Machine.execWaitne d a b c ord scope w s
  | .bar scope => Sys2Proof.Machine.execBar scope s
  | .barw d scope => Sys2Proof.Machine.execBarw d scope s
  | .barq d scope => Sys2Proof.Machine.execBarq d scope s
  | .qpoll d q => Sys2Proof.Machine.execQpoll d q s
  | .qsend a b q => Sys2Proof.Machine.execQsend a b q s
  | .qsendd a b q => Sys2Proof.Machine.execQsendd a b q s
  | .spawn d a b e q => Sys2Proof.Machine.execSpawn d a b e q s
  | .callat d a b stage => Sys2Proof.Machine.execCallat d a b stage s
  | .quit => Sys2Proof.Machine.execQuit s
  | .slott a => Sys2Proof.Machine.execSlott a s
  | .mlda a b c ty => Sys2Proof.Machine.execMlda a b c ty s
  | .mldb a b c ty => Sys2Proof.Machine.execMldb a b c ty s
  | .mtbl a c ty => Sys2Proof.Machine.execMtbl a c ty s
  | .mma d a acc c ty => Sys2Proof.Machine.execMma d a acc c ty s
  | .mpass => Sys2Proof.Machine.execMpass s
  | .mwait a => Sys2Proof.Machine.execMwait a s
  | .mpoll d a => Sys2Proof.Machine.execMpoll d a s
  | .mzero acc => Sys2Proof.Machine.execMzero acc s
  | .mstacc a acc c ty => Sys2Proof.Machine.execMstacc a acc c ty s
  | .mcmd d a b c => Sys2Proof.Machine.execMcmd d a b c s
  | .cpy d scope => Sys2Proof.Machine.execCpy d scope s
  | .cpyc d a scope => Sys2Proof.Machine.execCpyc d a scope s
  | .cpyw a => Sys2Proof.Machine.execCpyw a s
  | .cpyq d a => Sys2Proof.Machine.execCpyq d a s
  | .gcon a grp => Sys2Proof.Machine.execGcon a grp s
  | .gres d grp => Sys2Proof.Machine.execGres d grp s
  | .barmax d a grp => Sys2Proof.Machine.execBarmax d a grp s
  | .fork d a b => Sys2Proof.Machine.execFork d a b s
  | .choose => Sys2Proof.Machine.execChoose s
  | .abandon => Sys2Proof.Machine.execAbandon s
  | .dopen d a scope => Sys2Proof.Machine.execDopen d a scope s
  | .dclose => Sys2Proof.Machine.execDclose s
  | .vstat d => Sys2Proof.Machine.execVstat d s
  | .barrierSignal ten level inst => Sys2Proof.Machine.execBarrierSignal ten level inst s
  | .losingRivalKill core slot => Sys2Proof.Machine.execLosingRivalKill core slot s
  | .stageFiring core stage => Sys2Proof.Machine.execStageFiring core stage s
  | .spawnRequest core => Sys2Proof.Machine.execSpawnRequest core s
  | .launchMessage src ten core entry queue peg => Sys2Proof.Machine.execLaunchMessage src ten core entry queue peg s
  | .heldLaunchStart core => Sys2Proof.Machine.execHeldLaunchStart core s
  | .callatDeposit core => Sys2Proof.Machine.execCallatDeposit core s
  | .poolReturn core stage => Sys2Proof.Machine.execPoolReturn core stage s
  | .queueArrival core q => Sys2Proof.Machine.execQueueArrival core q s
  | .returnArrival core => Sys2Proof.Machine.execReturnArrival core s
  | .parkedDelivery core q => Sys2Proof.Machine.execParkedDelivery core q s
  | .scribeHoldRelease pkg die => Sys2Proof.Machine.execScribeHoldRelease pkg die s
  | .reservationRequest core stage => Sys2Proof.Machine.execReservationRequest core stage s
  | .reservationGrant core stage => Sys2Proof.Machine.execReservationGrant core stage s
  | .chainPushAccept core slot => Sys2Proof.Machine.execChainPushAccept core slot s
  | .portWake core slot => Sys2Proof.Machine.execPortWake core slot s
  | .memoryReply core slot => Sys2Proof.Machine.execMemoryReply core slot s
  | .sequencerEntry core special => Sys2Proof.Machine.execSequencerEntry core special s
  | .faultRecord core slot => Sys2Proof.Machine.execFaultRecord core slot s
  | .faultPegEnqueue core => Sys2Proof.Machine.execFaultPegEnqueue core s
  | .serviceOsPegOnward core slot resolved maps => Sys2Proof.Machine.execServiceOsPegOnward core slot resolved maps s
  | .serviceOsResume core slot => Sys2Proof.Machine.execServiceOsResume core slot s
  | .serviceOsRetry core slot => Sys2Proof.Machine.execServiceOsRetry core slot s
  | .serviceOsKill core slot => Sys2Proof.Machine.execServiceOsKill core slot s
  | .waitneRetry core slot => Sys2Proof.Machine.execWaitneRetry core slot s
  | .waitneCompare core slot => Sys2Proof.Machine.execWaitneCompare core slot s
  | .twaitWake core slot => Sys2Proof.Machine.execTwaitWake core slot s
  | .mmaJobStart core => Sys2Proof.Machine.execMmaJobStart core s
  | .mmaJobComplete core error => Sys2Proof.Machine.execMmaJobComplete core error s
  | .mpassPanelArrival core => Sys2Proof.Machine.execMpassPanelArrival core s
  | .mcmdCommand core => Sys2Proof.Machine.execMcmdCommand core s
  | .copyStart core id => Sys2Proof.Machine.execCopyStart core id s
  | .copyUnitRead core id => Sys2Proof.Machine.execCopyUnitRead core id s
  | .copyUnitStage core id unit => Sys2Proof.Machine.execCopyUnitStage core id unit s
  | .copyUnitAck core id unit => Sys2Proof.Machine.execCopyUnitAck core id unit s
  | .copyUnitRelease core id => Sys2Proof.Machine.execCopyUnitRelease core id s
  | .copyEnd core id => Sys2Proof.Machine.execCopyEnd core id s
  | .homeRead core slot => Sys2Proof.Machine.execHomeRead core slot s
  | .homeWrite core slot => Sys2Proof.Machine.execHomeWrite core slot s
  | .homeRmw core slot => Sys2Proof.Machine.execHomeRmw core slot s
  | .blockAction core slot => Sys2Proof.Machine.execBlockAction core slot s
  | .proxyRead core slot => Sys2Proof.Machine.execProxyRead core slot s
  | .plbFill core dom region host => Sys2Proof.Machine.execPlbFill core dom region host s
  | .translationWalk addr => Sys2Proof.Machine.execTranslationWalk addr s
  | .l2Fill addr => Sys2Proof.Machine.execL2Fill addr s
  | .codedDelta pkg line q => Sys2Proof.Machine.execCodedDelta pkg line q s
  | .codedDeltaAck pkg line => Sys2Proof.Machine.execCodedDeltaAck pkg line s
  | .floorRaise pkg src => Sys2Proof.Machine.execFloorRaise pkg src s
  | .floorAck pkg src => Sys2Proof.Machine.execFloorAck pkg src s
  | .commitRecord pkg => Sys2Proof.Machine.execCommitRecord pkg s
  | .outboxRelease core slot => Sys2Proof.Machine.execOutboxRelease core slot s
  | .l2CleanSweep pkg => Sys2Proof.Machine.execL2CleanSweep pkg s
  | .pageRetire page entry keep => Sys2Proof.Machine.execPageRetire page entry keep s
  | .rightsNarrow pkg dom region host rights => Sys2Proof.Machine.execRightsNarrow pkg dom region host rights s
  | .codedSet page stripe => Sys2Proof.Machine.execCodedSet page stripe s
  | .codedClear page => Sys2Proof.Machine.execCodedClear page s
  | .rebuildLine pkg line => Sys2Proof.Machine.execRebuildLine pkg line s
  | .collectiveItem router port g => Sys2Proof.Machine.execCollectiveItem router port g s
  | .collectiveResult router g => Sys2Proof.Machine.execCollectiveResult router g s
  | .trussRewrite ten g first others => Sys2Proof.Machine.execTrussRewrite ten g first others s
  | .memberReadd ten g changes => Sys2Proof.Machine.execMemberReadd ten g changes s
  | .remap pkg base index entry => Sys2Proof.Machine.execRemap pkg base index entry s
  | .drainMarker pkg base index inc => Sys2Proof.Machine.execDrainMarker pkg base index inc s
  | .ucieModuleService pkg base unit => Sys2Proof.Machine.execUcieModuleService pkg base unit s
  | .ucieRetrainDone pkg base unit lanes => Sys2Proof.Machine.execUcieRetrainDone pkg base unit lanes s
  | .podFrame pkg port crcOk frame => Sys2Proof.Machine.execPodFrame pkg port crcOk frame s
  | .podPortRetrain pkg port lanes => Sys2Proof.Machine.execPodPortRetrain pkg port lanes s
  | .podRouteWrite pkg dest port valid => Sys2Proof.Machine.execPodRouteWrite pkg dest port valid s
  | .ptcSyncExchange pkg times => Sys2Proof.Machine.execPtcSyncExchange pkg times s
  | .ptcSyncLoss pkg => Sys2Proof.Machine.execPtcSyncLoss pkg s
  | .sqDoorbell pkg q tail writes => Sys2Proof.Machine.execSqDoorbell pkg q tail writes s
  | .cqDoorbell pkg q head => Sys2Proof.Machine.execCqDoorbell pkg q head s
  | .qctlEnable pkg q enable => Sys2Proof.Machine.execQctlEnable pkg q enable s
  | .cmdBindImage pkg supply => Sys2Proof.Machine.execCmdBindImage pkg supply s
  | .cmdUnbind pkg => Sys2Proof.Machine.execCmdUnbind pkg s
  | .cmdLaunchStage pkg => Sys2Proof.Machine.execCmdLaunchStage pkg s
  | .cmdLaunchEntry pkg => Sys2Proof.Machine.execCmdLaunchEntry pkg s
  | .cmdReadTenantState pkg => Sys2Proof.Machine.execCmdReadTenantState pkg s
  | .completionPost pkg q => Sys2Proof.Machine.execCompletionPost pkg q s
  | .deviceEvent pkg ten code => Sys2Proof.Machine.execDeviceEvent pkg ten code s
  | .hostFunctionReset pkg => Sys2Proof.Machine.execHostFunctionReset pkg s
  | .hostReenumerate pkg => Sys2Proof.Machine.execHostReenumerate pkg s
  | .hostMarkPresent pkg => Sys2Proof.Machine.execHostMarkPresent pkg s
  | .hostCompletionTimeout core slot => Sys2Proof.Machine.execHostCompletionTimeout core slot s
  | .cxlMemAccess pkg offset write data => Sys2Proof.Machine.execCxlMemAccess pkg offset write data s
  | .registerWrite pkg offset value => Sys2Proof.Machine.execRegisterWrite pkg offset value s
  | .stopTimeWrite pkgs dies time => Sys2Proof.Machine.execStopTimeWrite pkgs dies time s
  | .coreStop core => Sys2Proof.Machine.execCoreStop core s
  | .cutCountSum pkg => Sys2Proof.Machine.execCutCountSum pkg s
  | .contextSave core => Sys2Proof.Machine.execContextSave core s
  | .contextRestore core time => Sys2Proof.Machine.execContextRestore core time s
  | .coreResume core => Sys2Proof.Machine.execCoreResume core s
  | .registerParityError core slot => Sys2Proof.Machine.execRegisterParityError core slot s
  | .pipeResidueError core slot => Sys2Proof.Machine.execPipeResidueError core slot s
  | .localMemoryDoubleBitError core word slot => Sys2Proof.Machine.execLocalMemoryDoubleBitError core word slot s
  | .queueEntryError core q index => Sys2Proof.Machine.execQueueEntryError core q index s
  | .flitParityError stop => Sys2Proof.Machine.execFlitParityError stop s
  | .stopRouterFailure pkg die quad => Sys2Proof.Machine.execStopRouterFailure pkg die quad s
  | .l2LineError e => Sys2Proof.Machine.execL2LineError e s
  | .hbmLineError e => Sys2Proof.Machine.execHbmLineError e s
  | .heartbeatLoss pkg pdie => Sys2Proof.Machine.execHeartbeatLoss pkg pdie s
  | .stackLoss pkg stack onto => Sys2Proof.Machine.execStackLoss pkg stack onto s
  | .packageLoss pkg votes => Sys2Proof.Machine.execPackageLoss pkg votes s
  | .serviceProcessorLoss pkg sp => Sys2Proof.Machine.execServiceProcessorLoss pkg sp s
  | .diagnosisExchange pkg d0 d1 => Sys2Proof.Machine.execDiagnosisExchange pkg d0 d1 s
  | .councilRequest pkg member own0 own1 => Sys2Proof.Machine.execCouncilRequest pkg member own0 own1 s
  | .councilVote pkg member => Sys2Proof.Machine.execCouncilVote pkg member s
  | .stopSparing pkg pdie row col => Sys2Proof.Machine.execStopSparing pkg pdie row col s
  | .dieSparing pkg die => Sys2Proof.Machine.execDieSparing pkg die s
  | .packageSparing pkg spare => Sys2Proof.Machine.execPackageSparing pkg spare s
  | .serviceQueueNotify pkg write => Sys2Proof.Machine.execServiceQueueNotify pkg write s
  | .firmwareHealthConfirm pkg => Sys2Proof.Machine.execFirmwareHealthConfirm pkg s
  | .firmwareWatchdog pkg => Sys2Proof.Machine.execFirmwareWatchdog pkg s
  | .powerGood pkg tests usable spare => Sys2Proof.Machine.execPowerGood pkg tests usable spare s
  | .powerThrottle pkg excess => Sys2Proof.Machine.execPowerThrottle pkg excess s
  | .copyInjectArm pkg ten joff ctl => Sys2Proof.Machine.execCopyInjectArm pkg ten joff ctl s
  | .registerInjectArm pkg ten jpc ctl => Sys2Proof.Machine.execRegisterInjectArm pkg ten jpc ctl s
  | .firmwareUpdate pkg image => Sys2Proof.Machine.execFirmwareUpdate pkg image s
  | .copyPageFaultResolve core id resolved maps => Sys2Proof.Machine.execCopyPageFaultResolve core id resolved maps s

end Sys2Proof.Machine
end

