-- ==== Sys2Proof/Machine/Issue.lean ====
section
/-!
DEFINITION. Issuing an instruction: the fetch (R26, R45, R52, R57), the sequencer's waits and the capture of a `VLOOP`
body (R147 to R149), gangs (R153 to R155), losing rivals (R218) and register injections (R393).
-/

namespace Sys2Proof.Machine

/-! ### Fetch (R26, R45, R52, R56, R57) -/

/-- What decoding answers, as a fault of class 0x01 where the encoding is no instruction (R52). -/
def decoded (x : Except Illegal Instr) : Except FaultInfo Instr :=
  match x with
  | .ok i => .ok i
  | .error e => .error (mkFault 0x01 e.detail 0)

/-- The instruction at the issuing thread's `pc`: a halfword outside the code region is the capability fault "code", with
the `pc` as its address, and comes before any other check (R26, R39, R57). -/
def State.fetch (s : State) : Except FaultInfo Instr :=
  let t := s.me
  let half (a : Word) : Option (BitVec 16) := s.codeHalf (pkgOf s.curCore) t a
  let outside := capFault 0x06 t.regs.pc.toNat
  match half t.regs.pc with
  | none => .error outside
  | some h0 =>
    if isLong h0 then
      match half (t.regs.pc + 2) with
      | none => .error outside
      | some h1 => decoded (decode h0 h1)
    else decoded (decode h0 0)

/-! ### Register injections (R393, R394) -/

/-- Whether an instruction's `a` field names a register that it reads: a scalar other than `s0`, a pair, a vector or a
capability register (R393). `op` gives the operator of a collective group. -/
def readsA (op : BitVec 6 → BitVec 3) (i : Instr) : Bool :=
  let scalar (a : BitVec 5) : Bool := a != 0
  let sized (a : BitVec 5) (w : BitVec 1) : Bool := w == 1 || a != 0
  let typed (a t : BitVec 5) : Bool := is64 t || a != 0
  match i with
  | .add _ a _ w | .sub _ a _ w | .mul _ a _ w | .mulh _ a _ w | .mulhn _ a _ w | .div _ a _ w | .divn _ a _ w
  | .rem _ a _ w | .remn _ a _ w | .and _ a _ w | .or _ a _ w | .xor _ a _ w | .andn _ a _ w | .min _ a _ w
  | .max _ a _ w | .minn _ a _ w | .maxn _ a _ w | .slt _ a _ w | .sltn _ a _ w => sized a w
  | .shl _ a _ w _ _ | .shr _ a _ w _ _ | .sar _ a _ w _ _ | .rol _ a _ w _ _ => sized a w
  | .clz _ a w | .ctz _ a w | .popc _ a w => sized a w
  | .addShort a _ | .subShort a _ | .andShort a _ | .orShort a _ | .xorShort a _ | .shlShort a _ | .shrShort a _
  | .sarShort a _ | .addiShort a _ | .minShort a _ | .maxShort a _ | .bzShort a _ | .bnzShort a _ | .stShort a _ _
  | .jrShort a | .jlrShort a | .faddShort a _ | .fmulShort a _ => scalar a
  | .sel _ a _ _ | .addi _ a _ | .emovToE _ a | .jr a | .jlr a | .setc a _ | .fresume a | .fkill a | .fretry a => scalar a
  | .beq _ a _ | .bne _ a _ | .blt _ a _ | .bge _ a _ | .bltn _ a _ | .bgen _ a _ => scalar a
  | .csetb _ _ _ | .cinc _ _ _ | .cand _ _ _ | .cbase _ _ | .clen _ _ | .cperm _ _ | .twait _ => true
  | .fadd _ a _ t | .fsub _ a _ t | .fmul _ a _ t | .fmin _ a _ t | .fmax _ a _ t | .fdiv _ a _ t | .fcmp _ a _ t
  | .ffma _ a _ t | .fabs _ a t | .fneg _ a t | .fsqrt _ a t | .fclass _ a t | .frcp _ a t | .frsq _ a t | .fexp2 _ a t
  | .flog2 _ a t | .fsin _ a t | .fcos _ a t | .cvt _ a t _ | .cvtf _ a t _ | .frnd _ a t _ => typed a t
  | .tailget _ a | .tailset _ a _ | .rndk _ a _ | .vloop _ a | .vbcast _ a _ | .vidx _ a _ => scalar a
  | .tailgetV _ _ _ | .tailsetV _ _ _ _ | .faddV _ _ _ _ _ | .fsubV _ _ _ _ _ | .fmulV _ _ _ _ _ | .fminV _ _ _ _ _
  | .fmaxV _ _ _ _ _ | .fdivV _ _ _ _ _ | .ffmaV _ _ _ _ _ | .fcmpV _ _ _ _ _ _ | .fabsV _ _ _ _ | .fnegV _ _ _ _
  | .fsqrtV _ _ _ _ | .fclassV _ _ _ _ | .frcpV _ _ _ _ | .frsqV _ _ _ _ | .fexp2V _ _ _ _ | .flog2V _ _ _ _
  | .fsinV _ _ _ _ | .fcosV _ _ _ _ | .cvtV _ _ _ _ _ | .cvtfV _ _ _ _ _ | .frndV _ _ _ _ _ | .vshuf _ _ _ _
  | .vrot _ _ _ _ | .vsel _ _ _ _ | .vredAdd _ _ _ _ | .vredMin _ _ _ _ | .vredMax _ _ _ _ | .vredAnd _ _ _ _
  | .vredOr _ _ _ _ | .vredXor _ _ _ _ | .pack _ _ _ _ _ | .vlut _ _ _ _ | .rndkV _ _ _ _ | .vgath _ _ _ _ _
  | .vscat _ _ _ _ _ | .slott _ => true
  | .ld _ a _ _ _ _ | .st _ a _ _ _ _ | .fst _ a _ _ _ _ | .vld _ a _ _ _ | .vst _ a _ _ _ | .vlds _ a _ _ _ _
  | .ldc _ a _ _ _ | .stc _ a _ _ _ | .spill _ a _ _ | .fill _ a _ _ => scalar a
  | .aadd _ a _ _ _ _ _ | .aand _ a _ _ _ _ _ | .aor _ a _ _ _ _ _ | .axor _ a _ _ _ _ _ | .aswap _ a _ _ _ _ _
  | .acas _ a _ _ _ _ _ | .aminSigned _ a _ _ _ _ _ | .aminUnsigned _ a _ _ _ _ _ | .amaxSigned _ a _ _ _ _ _
  | .amaxUnsigned _ a _ _ _ _ _ | .afadd _ a _ _ _ _ _ | .waitne _ a _ _ _ _ _ => scalar a
  | .mxacc _ a _ _ _ _ | .mxld _ a _ _ _ | .mxst _ a _ _ _ | .mxres _ a _ _ _ | .mxnorm a _ _ => scalar a
  | .qsend a _ _ | .qsendd a _ _ | .spawn _ a _ _ _ | .callat _ a _ _ => scalar a
  | .mlda a _ _ _ | .mldb a _ _ _ | .mtbl a _ _ | .mma _ a _ _ _ | .mwait a | .mpoll _ a | .mstacc a _ _ _
  | .mcmd _ a _ _ => scalar a
  | .cpyc _ a _ | .cpyw a | .cpyq _ a | .fork _ a _ | .dopen _ a _ => scalar a
  | .gcon a g | .barmax _ a g => op g == 1 || op g == 4 || scalar a
  | _ => false

/-- Whether an armed register injection fires at an instruction of the issuing thread; in a gang only the leader's may
(R393). -/
def State.injects (s : State) (i : Instr) : Bool :=
  s.injectionFires && s.me.state != .follow && readsA (fun g => s.opOf g.toNat) i

/-- A register injection fires: the instruction ends without effect, and the thread recovers as from the real error
(R357, R393, R394). -/
def State.inject (s : State) : State :=
  let t := s.me
  let s := s.drainGang s.curCore s.curSlot
  (s.updPkg (pkgOf s.curCore) fun p => (p.updTenant t.tenant fun x =>
    { x with rarm := false, rcnt := if x.rcnt = 0xFFFF then x.rcnt else x.rcnt + 1 }).reportInjected).threadError
      s.curCore s.curSlot 0x05 0 none

/-! ### The sequencer (R147 to R149) -/

/-- Whether a register number is a port's (R31). -/
def isPort (n : BitVec 5) : Bool := n == 28 || n == 29 || n == 30

/-- Whether a `VLOOP` captures an instruction: a sequencer instruction that neither reads nor writes a port (R149). -/
def capturable (i : Instr) : Bool :=
  match vform i with
  | none => false
  | some v => !v.scalarSource.any isPort && !v.scalarDest.any isPort

/-- Entries of a core's sequencer that are taken or kept for the bodies that are being captured (R147, R149). -/
def Core.seqUsed (k : Core) : Nat :=
  (k.seq.map (·.body.length)).sum + (k.slots.toList.map fun t => match t.loop with
    | none => 0
    | some l => l.left + l.body.length).sum

/-- Entries that a core's sequencer holds. -/
def seqRoom : Nat := 16

/-- Whether a slot's thread has an entry that writes a scalar register. -/
def Core.seqWrites (k : Core) (n : Fin 8) (r : BitVec 5) : Bool :=
  k.seq.any fun e => e.slot == n && e.written.scalars.contains r

/-- The registers that an instruction outside the sequencer names, as sources or destinations; `op` gives the operator of
a collective group. Capability and extension registers, which no entry reads or writes, are left out. -/
def namedRegs (op : BitVec 6 → BitVec 3) (i : Instr) : RegNames :=
  let sc (l : List (BitVec 5)) : RegNames := ⟨l, [], []⟩
  let sized (w : BitVec 1) (l : List (BitVec 5)) : RegNames := sc (if w = 1 then l ++ l.map (· + 1) else l)
  let typed (t : BitVec 5) (l : List (BitVec 5)) : List (BitVec 5) := if is64 t then l ++ l.map (· + 1) else l
  match i with
  | .add d a b w | .sub d a b w | .mul d a b w | .mulh d a b w | .mulhn d a b w | .div d a b w | .divn d a b w
  | .rem d a b w | .remn d a b w | .and d a b w | .or d a b w | .xor d a b w | .andn d a b w | .min d a b w
  | .max d a b w | .minn d a b w | .maxn d a b w | .slt d a b w | .sltn d a b w => sized w [d, a, b]
  | .shl d a b w ib _ | .shr d a b w ib _ | .sar d a b w ib _ | .rol d a b w ib _ =>
    (sized w [d, a]).join (sc (if ib = 1 then [] else [b]))
  | .clz d a w | .ctz d a w | .popc d a w => sized w [d, a]
  | .addShort a b | .subShort a b | .andShort a b | .orShort a b | .xorShort a b | .minShort a b | .maxShort a b
  | .faddShort a b | .fmulShort a b => sc [a, b]
  | .shlShort a _ | .shrShort a _ | .sarShort a _ | .addiShort a _ | .liShort a _ | .bzShort a _ | .bnzShort a _
  | .ldShort a _ _ | .stShort a _ _ | .jrShort a => sc [a]
  | .jlrShort a | .jlr a => sc [a, 31]
  | .emovShort _ b => sc [b]
  | .sel d a b c => sc [d, a, b, c]
  | .addi d a _ => sc [d, a]
  | .li d _ | .lih d _ | .emovFromE d _ | .cbase d _ | .clen d _ | .cperm d _ | .getc d _ | .bz d _ | .bnz d _
  | .loop d _ | .barw d _ | .barq d _ | .qpoll d _ | .cpy d _ | .vstat d => sc [d]
  | .emovToE _ a | .jr a | .setc a _ | .fresume a | .fkill a | .fretry a => sc [a]
  | .jl _ => sc [31]
  | .beq d a _ | .bne d a _ | .blt d a _ | .bge d a _ | .bltn d a _ | .bgen d a _ => sc [d, a]
  | .csetb _ _ b | .cinc _ _ b | .cand _ _ b => sc [b]
  | .time d => sc [d, d + 1]
  | .twait a => sc [a, a + 1]
  | .fadd d a b t | .fsub d a b t | .fmul d a b t | .fmin d a b t | .fmax d a b t | .fdiv d a b t | .ffma d a b t =>
    sc (typed t [d, a, b])
  | .fcmp d a b t => sc (d :: typed t [a, b])
  | .fclass d a t => sc (d :: typed t [a])
  | .fabs d a t | .fneg d a t | .fsqrt d a t | .frcp d a t | .frsq d a t | .fexp2 d a t | .flog2 d a t | .fsin d a t
  | .fcos d a t | .frnd d a _ t => sc (typed t [d, a])
  | .cvt d a st t | .cvtf d a st t => sc (typed t [d] ++ typed st [a])
  | .tailget d a => sc [d, a]
  | .tailset d a b | .rndk d a b => sc [d, a, b]
  | .vloop _ a => sc [a]
  | .ld d a _ _ t _ | .st d a _ _ t _ | .fst d a _ _ t _ => sc (a :: typed t [d])
  | .ldImm d _ t _ | .stImm d _ t _ | .fstImm d _ t _ => sc (typed t [d])
  | .ldc _ a _ _ _ | .stc _ a _ _ _ | .mxnorm a _ _ => sc [a]
  | .spill d a _ cls | .fill d a _ cls =>
    match cls.toNat with
    | 0 => sc [d, a]
    | 1 => sc [d, d + 1, a]
    | 2 => ⟨[a], [vecNum d], []⟩
    | 4 => ⟨[a], [], [d &&& 7]⟩
    | _ => sc [a]
  | .aadd d a b _ _ _ w | .aand d a b _ _ _ w | .aor d a b _ _ _ w | .axor d a b _ _ _ w | .aswap d a b _ _ _ w
  | .acas d a b _ _ _ w | .aminSigned d a b _ _ _ w | .aminUnsigned d a b _ _ _ w | .amaxSigned d a b _ _ _ w
  | .amaxUnsigned d a b _ _ _ w | .afadd d a b _ _ _ w | .waitne d a b _ _ _ w => (sized w [d, b]).join (sc [a])
  | .qsend a b _ => sc [a, b, b + 1, b + 2, b + 3]
  | .qsendd a b _ => ⟨[a], [vecNum b], []⟩
  | .spawn d a b _ _ | .callat d a b _ => sc [d, a, b, b + 1, b + 2, b + 3]
  | .slott a => ⟨[], [vecNum a], []⟩
  | .mlda a b _ t | .mldb a b _ t => sc (if isScaled t then [a, b] else [a])
  | .mtbl a _ _ | .mwait a | .mstacc a _ _ _ | .cpyw a => sc [a]
  | .mma d a _ _ _ | .mpoll d a | .cpyc d a _ | .cpyq d a | .barmax d a _ => sc [d, a]
  | .mcmd d a b _ => ⟨[d, a], [vecNum b], []⟩
  | .gcon a g => if op g = 1 then sc [a, a + 1] else if op g = 4 then ⟨[], [vecNum a, vecNum (a + 1)], []⟩ else sc [a]
  | .gres d g => if op g = 1 then sc [d, d + 1, d + 2] else if op g = 4 then ⟨[], [vecNum d, vecNum (d + 1)], []⟩
    else sc [d, d + 1]
  | _ => RegNames.none

/-- Whether an instruction waits until every earlier entry of its thread has completed: `GETC` and `SETC` of `tst`, `SETC`
of `fcr`, memory instructions that name a vector register, and `QUIT`; and those that preserve or hand over the thread's
whole image, whose results are those of program order (R148, R214, R217 to R219). -/
def awaitsEntries (i : Instr) : Bool :=
  match i with
  | .getc _ num => num == 1
  | .setc _ num => num == 0 || num == 1
  | .vld _ _ _ _ _ | .vldImm _ _ _ _ | .vst _ _ _ _ _ | .vstImm _ _ _ _ | .vlds _ _ _ _ _ _ | .vgath _ _ _ _ _
  | .vscat _ _ _ _ _ | .mxacc _ _ _ _ _ _ | .mxld _ _ _ _ _ | .mxst _ _ _ _ _ | .mxres _ _ _ _ _ => true
  | .spill _ _ _ cls | .fill _ _ _ cls => cls == 2
  | .quit | .quitShort | .fork _ _ _ | .dopen _ _ _ | .choose | .abandon => true
  | _ => false

/-- Whether an instruction outside the sequencer waits for earlier entries of the issuing thread: for all of them, or for
one that writes a register it names, or that reads a mask it writes (R148). -/
def State.awaits (s : State) (i : Instr) : Bool :=
  let mine := (s.core s.curCore).seq.filter (·.slot == s.curSlot)
  let names := namedRegs (fun g => s.opOf g.toNat) i
  !mine.isEmpty && (awaitsEntries i || mine.any fun e => e.written.meets names || e.masks.any names.masks.contains)

/-- Whether a core's sequencer holds an entry for a pipe. -/
def Core.pipeBusy (k : Core) (special : Bool) : Bool :=
  k.seq.any fun e => (e.form).any fun v => v.specialPipe == special

/-- How an instruction of a thread meets the sequencer (R147, R148). -/
inductive SeqTurn where
  /-- It is carried out. -/
  | perform
  /-- It enters the sequencer behind earlier entries. -/
  | enter
  /-- It waits. -/
  | wait
  deriving DecidableEq, Repr

/-- The length of the body of a `VLOOP` of at most `n` instructions at a `pc` (R149). -/
def State.bodyLength (s : State) : Nat → Word → Nat
  | 0, _ => 0
  | n + 1, pc =>
    match (s.updMe fun t => { t with regs := { t.regs with pc := pc } }).fetch with
    | .ok i => if capturable i then s.bodyLength n (pc + 4) + 1 else 0
    | .error _ => 0

/-- How an instruction of the issuing thread meets the sequencer. A sequencer instruction needs a free entry; it is
carried out at once where its thread has no earlier entry and no other thread's waits for its pipe, and takes its turn in
the sequencer otherwise, a `VROT` of a gang always, because it takes its ring from every member at once. Behind earlier
entries one waits that reads a scalar which they write, and so does one that writes a port; another instruction waits as
R148 says (R147, R148, R290). -/
def State.seqTurn (s : State) (i : Instr) : SeqTurn :=
  let k := s.core s.curCore
  let room (n : Nat) : Bool := decide (k.seqUsed + n ≤ seqRoom)
  let goIn : SeqTurn := if room 1 then .enter else .wait
  match i with
  | .vloop n _ =>
    if s.awaits i || !room (s.bodyLength (n.toNat + 1) (s.regs.pc + 4)) then .wait else .perform
  | _ =>
    match vform i with
    | none => if s.awaits i then .wait else .perform
    | some v =>
      if !k.seqBusy s.curSlot then
        if v.kind = .vrot && s.me.gang ≠ 0 then goIn
        else if !room 1 then .wait
        else if !k.pipeBusy v.specialPipe then .perform
        else if v.scalarDest.any isPort then .wait
        else .enter
      else if v.scalarDest.any isPort || v.scalarSource.any (k.seqWrites s.curSlot) then .wait
      else goIn

/-- A sequencer instruction of the issuing thread enters the sequencer with its operands captured (R147). -/
def State.enterSeq (s : State) (i : Instr) : State :=
  let srcs := ((vform i).bind (·.scalarSource)).toList
  s.issue srcs [] fun s =>
    let r := s.regs
    .ok ((s.enqueue s.curCore s.curSlot [i] [] 1 (srcs.map fun n => (n, r.get n)) r.fcr).setRegs (r.advance 4))

/-- The scalar operands that a body captures: those no instruction of the body writes (R147, R149). -/
def bodyScalars (body : List Instr) (r : Regs) : List (BitVec 5 × Elem) :=
  let forms := body.filterMap vform
  let written := forms.flatMap (·.written.scalars)
  ((forms.filterMap (·.scalarSource)).filter fun n => !written.contains n).map fun n => (n, r.get n)

/-- The capture of a body ends, and the body enters the sequencer (R149). -/
def State.closeLoop (s : State) : State :=
  match s.me.loop with
  | none => s
  | some l =>
    (s.updMe fun t => { t with loop := none }).enqueue s.curCore s.curSlot l.body l.strides l.count
      (bodyScalars l.body s.regs) s.regs.fcr

/-- A body instruction is captured (R149). -/
def State.capture (s : State) (l : LoopCapture) (i : Instr) : State :=
  let s := s.updMe fun t =>
    { t with loop := some { l with left := l.left - 1, body := l.body ++ [i] }, regs := t.regs.advance 4 }
  if l.left ≤ 1 then s.closeLoop else s

/-- Whether a capture is open and takes an instruction. -/
def Slot.captures (t : Slot) (i : Instr) : Option LoopCapture :=
  match t.loop with
  | none => none
  | some l => if capturable i && decide (0 < l.left) then some l else none

/-! ### One thread -/

/-- An outcome changed where it is a next state. -/
def onNext (x : Out) (f : State → State) : Out :=
  match x with
  | .next s => .next (f s)
  | .fault r => .fault r
  | .refused r => .refused r

/-- A sequencer instruction that the issuing thread has carried out has been its pipe's entry in the present cycle (R147,
R290); `s` is the state before it. -/
def State.pipeUsed (s : State) (i : Instr) (t : State) : State :=
  match vform i with
  | none => t
  | some v =>
    if t.regs.pc = s.regs.pc then t
    else t.updCore s.curCore fun k => k.pipeTakes v.specialPipe s.curSlot k.cycle

/-- The issuing thread carries out an instruction; one that met a poisoned word of local memory recovers (R355, R357). -/
def State.carry (s : State) (i : Instr) : Out :=
  onNext (exec i s) fun t => s.pipeUsed i (t.recoverLocal s s.curCore s.curSlot)

/-- Whether a body instruction that a `VLOOP` captures waits for an earlier entry that writes its scalar source, which is
captured with it (R147, R148). -/
def State.captureWaits (s : State) (i : Instr) : Bool :=
  (vform i).any fun v => v.scalarSource.any ((s.core s.curCore).seqWrites s.curSlot)

/-- A turn of a thread outside a gang: a capture goes on or ends; a fetch that fails faults; an injection fires; the
instruction is carried out, enters the sequencer or waits. -/
def State.issueAlone (s : State) : Out :=
  match s.fetch with
  | .error f => .next (if s.me.loop.isSome then s.closeLoop else s.trapMe f)
  | .ok i =>
    match s.me.captures i with
    | some l =>
      .next (if s.injects i then s.closeLoop.inject else if s.captureWaits i then s else s.capture l i)
    | none =>
      if s.me.loop.isSome then .next s.closeLoop
      else match s.seqTurn i with
        | .wait => .next s
        | .enter => .next (if s.injects i then s.inject else s.enterSeq i)
        | .perform => if s.injects i then .next s.inject else s.carry i

/-! ### Gangs (R153 to R155) -/

/-- Control transfers, which the leader decides (R105, R154). -/
def transfers : Instr → Bool
  | .b _ | .j _ | .jl _ | .jr _ | .jlr _ | .jrShort _ | .jlrShort _ | .beq _ _ _ | .bne _ _ _ | .blt _ _ _ | .bge _ _ _
  | .bltn _ _ _ | .bgen _ _ _ | .bz _ _ | .bnz _ _ | .bzShort _ _ | .bnzShort _ _ | .loop _ _ => true
  | _ => false

/-- The state seen from another member of the issuing thread's gang. -/
def State.from_ (s : State) (c : Nat) : State := { s with curCore := c }

/-- Every member in turn. -/
def State.eachOf (f : State → State) (s : State) (ms : List Nat) : State :=
  let own := s.curCore
  (ms.foldl (fun s m => f (s.from_ m)) s).from_ own

/-- Whether a member still owes the instruction that its gang issues: it neither waits nor has completed it. -/
def Slot.owes (t : Slot) (g : Nat) : Bool :=
  t.gang == g && t.wait == .none && !t.gangDone && t.gangPc == some t.regs.pc

/-- A member carries out the instruction; a follower's own values decide no transfer, so its `pc` goes to the next
instruction until the leader's is known (R105, R154). -/
def State.memberCarry (i : Instr) (len : Nat) (turn : SeqTurn) (s : State) : State :=
  let t := s.me
  match turn with
  | .wait => s
  | .enter => if s.injects i then s.inject else s.enterSeq i
  | .perform =>
    if s.injects i then s.inject
    else match exec i s with
      | .next s' =>
        let s' := s.pipeUsed i s'
        if transfers i && s'.me.gang = t.gang && s'.me.wait = .none then
          s'.updMe fun u =>
            if t.state = .follow then { u with regs := { u.regs with pc := t.regs.pc + BitVec.ofNat 32 len } }
            else { u with gangDone := true }
        else s'
      | _ => s

/-- The members that owe the instruction carry it out, the leader last (R154). -/
def State.gangCarry (s : State) (i : Instr) (len : Nat) (turn : SeqTurn) (ms : List Nat) : State :=
  let n := s.curSlot
  let g := s.me.gang
  let carried := s.eachOf (fun s => if s.me.owes g then s.memberCarry i len turn else s)
    (ms.filter (· != s.curCore) ++ [s.curCore])
  carried.eachOf (fun u => u.recoverLocal s u.curCore n) ms

/-- A port that a sequencer instruction reads is made ready before any member takes the instruction (R31, R154). -/
def State.readyPorts (srcs : List (BitVec 5)) (s : State) : State :=
  match s.preparePorts srcs [] with
  | .ok s => s
  | .error (.wait s) => s
  | .error (.trap _ _) => s

/-- The scalar sources that decide what every member of a gang does: those of a sequencer instruction and the count of a
`VLOOP` (R150, R154). -/
def gangSources (i : Instr) : List (BitVec 5) :=
  match i with
  | .vloop _ a => [a]
  | _ => ((vform i).bind (·.scalarSource)).toList

/-- The instruction of a gang of size `g` is over when every member has completed it: the followers go where the leader
goes (R105, R154). -/
def State.gangSettle (s : State) (g : Nat) (ms : List Nat) : State :=
  let n := s.curSlot
  let pc := s.regs.pc
  if s.me.gang == g && ms.all (fun m => (s.slot m n).gang != g || (s.slot m n).completed) then
    s.eachOf (fun s => s.updMe fun t =>
      if t.gang = g then { t with gangPc := none, gangDone := false, regs := { t.regs with pc := pc } } else t) ms
  else s

/-- A turn of a gang, taken by its leader (R153 to R155). -/
def State.issueGang (s : State) : State :=
  let t := s.me
  let ms := (t.members s.curCore).filter fun m => (s.slot m s.curSlot).gang == t.gang
  let at_ := t.gangPc.getD t.regs.pc
  let len := match s.codeHalf (pkgOf s.curCore) t at_ with
    | some h => lengthOf h
    | none => 2
  if t.gangPc.isSome && ms.all (fun m => (s.slot m s.curSlot).completed) then s.gangSettle t.gang ms
  else match (s.updMe fun t => { t with regs := { t.regs with pc := at_ } }).fetch with
  | .error f =>
    if t.loop.isSome then s.eachOf State.closeLoop ms else s.eachOf (fun s => s.trapMe f) ms
  | .ok i =>
    match t.captures i with
    | some _ =>
      if s.injects i then (s.eachOf State.closeLoop ms).inject
      else if ms.any fun m => (s.from_ m).captureWaits i then s
      else s.eachOf (fun s => match s.me.captures i with
        | some l => s.capture l i
        | none => s) ms
    | none =>
      if t.loop.isSome then s.eachOf State.closeLoop ms
      else
        let s := if t.gangPc.isSome then s else s.eachOf (fun s => s.updMe fun t => { t with gangPc := some at_ }) ms
        let srcs := gangSources i
        let s := s.eachOf (State.readyPorts srcs) ms
        let blocked := !srcs.isEmpty && ms.any fun m => (s.slot m s.curSlot).wait != .none
        let turns := (ms.filter fun m => (s.slot m s.curSlot).owes t.gang).map fun m => (s.from_ m).seqTurn i
        if blocked || turns.contains .wait then s
        else (s.gangCarry i len (if turns.contains .enter then .enter else .perform) ms).gangSettle t.gang ms

/-- Whether the leader of a gang of size `g` still has a control transfer to complete, which decides where the members
that have completed it go (R154, R155). -/
def State.leaderDecides (s : State) (c : Nat) (n : Fin 8) (g : Nat) : Bool :=
  let lead := c / g * g
  let t := s.slot lead n
  t.gang == g && !t.completed && t.gangPc.isSome &&
    match ({ s with curCore := lead, curSlot := n } : State).fetch with
    | .ok i => transfers i
    | .error _ => false

/-- Whether a member of a gang waits for a port that every member needs before one takes the instruction (R31, R154). -/
def State.gangBlocked (s : State) (c : Nat) (n : Fin 8) (g : Nat) : Bool :=
  let lead := c / g * g
  let t := s.slot lead n
  let u := (({ s with curCore := lead, curSlot := n } : State).updMe fun t =>
    { t with regs := { t.regs with pc := t.gangPc.getD t.regs.pc } })
  t.gangPc.isSome && ((gangCores c g).any fun m => (s.slot m n).gang == g && (s.slot m n).wait != .none) &&
    match u.fetch with
    | .ok i => !(gangSources i).isEmpty
    | .error _ => false

/-- Whether a gang can go on: every member has completed its instruction, or one owes it or has none, and no other waits
for a port that they all need (R154). -/
def State.gangGoes (s : State) (c : Nat) (n : Fin 8) (g : Nat) : Bool :=
  let ms := (gangCores c g).filter fun m => (s.slot m n).gang == g
  ms.all (fun m => (s.slot m n).completed) || (!s.gangBlocked c n g &&
    ms.any fun m => (s.slot m n).wait == .none && ((s.slot m n).gangPc == none || (s.slot m n).owes g))

/-- The state of a gang's leader reflects the wait of its members (R154). -/
def State.reflectWait (s : State) (c : Nat) (n : Fin 8) (g : Nat) : State :=
  let t := s.slot c n
  if c % g ≠ 0 || t.wait ≠ .none || t.state = .parked || t.state = .free then s
  else
    let waiting := (gangCores c g).find? fun m => (s.slot m n).wait != .none
    let st := match waiting with
      | some m => if s.gangGoes c n g then SlotState.ready else (s.slot m n).wait.state
      | none => .ready
    if t.state = st then s else s.setSlot c n { t with state := st }

/-- Whether a member of a gang has an access outstanding (R161). -/
def State.gangAccesses (s : State) (c : Nat) (n : Fin 8) (g : Nat) : Bool :=
  (gangCores c g).any fun m =>
    let t := s.slot m n
    t.gang == g && (t.wait == .request || t.wait == .host)

/-- A gang of which some member has left dissolves, once its leader has decided a control transfer and the accesses of its
other members have completed (R155, R161). -/
def State.settleGangs (s : State) : State :=
  s.cores.foldl (fun s k => (List.finRange 8).foldl (fun s n =>
    let g := (s.slot k.1 n).gang
    if g = 0 then s
    else if (gangCores k.1 g).all (fun m => (s.slot m n).gang = g) then s.reflectWait k.1 n g
    else if s.leaderDecides k.1 n g || s.gangAccesses k.1 n g then s
    else s.dissolve k.1 n g) s) s

/-! ### Turns (R218, R288) -/

/-- Whether a core takes no part in anything: its package is not alive or its die is fenced (R337, R366, R370). -/
def State.silent (s : State) (c : Nat) : Bool := !(s.pkg (pkgOf c)).alive || s.fencedDie c

/-- Whether a core may issue (R297). -/
def State.issuing (s : State) (c : Nat) : Bool := !s.silent c && !(s.core c).stopped && !s.mustStop c

/-- Whether a slot can take a turn: it is READY, the pipes of its core have taken their entries of the cycle, and a gang
whose members all wait or have completed goes on only once all have completed (R17, R154, R290). -/
def State.takesTurn (s : State) (c : Nat) (n : Fin 8) : Bool :=
  let t := s.slot c n
  t.state == .ready && (t.members c).all (fun m => s.issuing m && !s.pipeDue m false && !s.pipeDue m true) &&
    (t.gang == 0 || s.gangGoes c n t.gang)

/-- The slots from one on, in rotation (R288). -/
def slotsFrom (n : Fin 8) : List (Fin 8) := (List.range 8).map fun i => Fin.ofNat 8 (n.val + i)

/-- Whether a slot has not issued in the seven cycles before one (R288). -/
def Slot.rested (t : Slot) (cycle : Nat) : Bool := t.issued.all fun c => decide (c + 8 ≤ cycle)

/-- The cycle of a core's barrel in which it issues next, and the slot: the cycle's nominal owner, slot c mod 8, or the
first after it that is READY and has not issued in the seven cycles before. Cycles in which nothing can issue pass
(R288). -/
def State.barrelIssue (s : State) (c : Nat) : Option (Nat × Fin 8) :=
  let ready := (List.finRange 8).filter (s.takesTurn c)
  let k := s.core c
  if ready.isEmpty then none
  else (List.range 8).findSome? fun d =>
    ((slotsFrom (Fin.ofNat 8 (k.cycle + d))).find? fun n =>
      ready.contains n && (k.slot n).rested (k.cycle + d)).map fun n => (k.cycle + d, n)

/-- The slot of a core that issues next (R288). -/
def State.barrelChoice (s : State) (c : Nat) : Option (Fin 8) := (s.barrelIssue c).map (·.2)

/-- The barrel of a core after the issue of a slot (R288). -/
def State.barrelTurn (s : State) (c : Nat) (n : Fin 8) : State :=
  let at_ := ((s.barrelIssue c).map (·.1)).getD (s.core c).cycle
  ((s.slot c n).members c).foldl (fun s m =>
    let now := if m = c then at_ else (s.core m).cycle
    (s.updSlot m n fun t => { t with issued := some now }).updCore m fun k => { k with cycle := now + 1 }) s

/-- The core and slot that issue next: cores take turns (entry 2). -/
def State.turn (s : State) : Option (Nat × Fin 8) :=
  let names := s.cores.map (·.1)
  (names.filter (fun c => decide (s.curCore ≤ c)) ++ names.filter (fun c => decide (c < s.curCore))).findSome? fun c =>
    (s.barrelChoice c).map fun n => (c, n)

/-- A turn of a slot: a losing rival is killed at it (R218). -/
def State.issueAt (s : State) (c : Nat) (n : Fin 8) : Out :=
  let s := s.barrelTurn c n
  let s := { s with curCore := c, curSlot := n }
  onNext (if s.loser s.me then .next (s.killThread c n)
    else if s.me.gang ≠ 0 then .next s.issueGang
    else s.issueAlone) fun s => { s with curCore := c + 1 }

end Sys2Proof.Machine
end

