-- ==== Sys2Proof/Machine/Pending.lean ====
section
/-!
DEFINITION. The steps of the machine's own agents that are pending, the passing of time, and placing an instruction where
the next step fetches it. The order of the steps is one of those the spec allows (entry 22).
-/

namespace Sys2Proof.Machine

/-! ### Time (R122, R342) -/

/-- A package's counter after `d` nanoseconds: one that is ahead holds its count until time reaches it (R342). -/
def Package.tick (p : Package) (d : Nat) : Package :=
  { p with ptc := p.ptc + BitVec.ofNat 64 (d - p.ahead), ahead := p.ahead - d }

/-- `d` nanoseconds pass for every package. -/
def State.pass (s : State) (d : Nat) : State :=
  { s with now := s.now + BitVec.ofNat 64 d, pkgs := s.pkgs.map fun k => (k.1, k.2.tick d) }

/-- The time that a step takes passes (entry 3). -/
def State.elapse (s : State) : State := { s.pass (Config.elapse s.ticks) with ticks := s.ticks + 1 }

/-- The package times that something waits for: sleepers in `TWAIT`, stop and resume times (R123, R297, R303). -/
def State.deadlines (s : State) : List Nat :=
  let after (p t : Nat) : List Nat :=
    let k := s.pkg p
    if k.ptc.toNat < t then [t - k.ptc.toNat + k.ahead] else []
  s.cores.flatMap (fun k => k.2.slots.toList.flatMap fun t => match t.wait with
    | .deadline d => after (pkgOf k.1) d
    | _ => []) ++
  s.stops.flatMap fun h => h.pkgs.flatMap fun p => after p h.stopTime ++ h.resumeTime.toList.flatMap (after p)

/-- With nothing to do, time passes to the earliest deadline. -/
def State.idle (s : State) : State :=
  match s.deadlines.min? with
  | none => { s with issueTurn := true }
  | some d => { s.pass d with issueTurn := true }

/-! ### Pending steps of a core -/

/-- A step of an agent, with where it happens already given. -/
abbrev Work := State → Out

/-- The steps that a slot's wait may end in. -/
def State.slotSteps (s : State) (c : Nat) (n : Fin 8) : List Work :=
  let t := s.slot c n
  (if t.pendFault.isSome then [execFaultRecord c n] else []) ++
  (if t.state = .ready && t.inWorld then [execLosingRivalKill c n] else []) ++
  (match t.wait with
    | .deadline _ => [execTwaitWake c n]
    | .port .qdn => [execChainPushAccept c n]
    | .port _ => [execPortWake c n]
    | .panel => [execMpassPanelArrival (nextInQuad c)]
    | _ => []) ++
  (if t.reply.isSome || (s.statusFor c n).isSome then [execMemoryReply c n] else []) ++
  (if ((s.core c).nextRelease n).isSome then [execOutboxRelease c n] else [])

/-- The steps of a stage. -/
def State.stageSteps (s : State) (c : Nat) (i : Fin 16) : List Work :=
  let g := (s.core c).stages[i]
  if !g.bits.getLsbD 31 then []
  else [execPoolReturn c i, execReservationGrant c i, execReservationRequest c i] ++
    if s.firingChoice c = some i then [execStageFiring c i] else []

/-- The steps of a core's copies. -/
def Core.copySteps (k : Core) (c : Nat) : List Work :=
  k.copies.flatMap fun x =>
    [execCopyStart c x.id, execCopyEnd c x.id, execCopyUnitRelease c x.id] ++
      x.units.flatMap (fun u => [execCopyUnitAck c x.id u.off, execCopyUnitStage c x.id u.off]) ++
        [execCopyUnitRead c x.id]

/-- The steps of a core that may be pending, its held accesses apart. -/
def State.coreSteps (s : State) (c : Nat) : List Work :=
  let k := s.core c
  let throttled := (s.pkg (pkgOf c)).throttle
  [execCoreStop c] ++
  (List.finRange 8).flatMap (s.slotSteps c) ++
  [execFaultPegEnqueue c] ++
  (if k.seq.isEmpty then [] else if s.ticks % 2 = 0 then [execSequencerEntry c false, execSequencerEntry c true]
    else [execSequencerEntry c true, execSequencerEntry c false]) ++
  (List.finRange 8).map (execParkedDelivery c) ++
  (if k.nextHeld.isSome then [execMcmdCommand c] else []) ++
  (match k.matrix.jobs with
    | [] => []
    | j :: _ => if j.started then [execMmaJobComplete c .none] else if throttled then [] else [execMmaJobStart c]) ++
  k.copySteps c ++
  (List.finRange 16).flatMap (s.stageSteps c) ++
  (if (s.heldLaunches c).isEmpty then [] else [execHeldLaunchStart c]) ++
  [execCoreResume c]

/-! ### Pending steps of the fabric and of packages -/

/-- The step that a message under way arrives in. -/
def State.messageSteps (s : State) (m : Msg) : List Work :=
  match m.payload with
  | .queue q _ _ => if q = 6 then [execReturnArrival m.dst] else [execQueueArrival m.dst (Fin.ofNat 8 q)]
  | .callat _ _ _ _ => [execCallatDeposit m.dst]
  | .spawn _ => [execSpawnRequest m.dst]
  | .command _ _ => [execMcmdCommand m.dst]
  | .launch _ _ _ =>
    if (s.nextMsg m.dst Payload.isLaunch).isSome then [execLaunchMessage m.src m.dom m.dst 0 0 0] else []
  | .status _ _ _ => []
  | .unknown _ _ _ => [execQueueArrival m.dst 0]

/-- The step that the next command of a host port takes; a binding waits for its supply. -/
def HostPort.commandSteps (h : HostPort) (p : Nat) : List Work :=
  match h.commands with
  | [] => []
  | k :: _ => match cmdByte k.bytes with
    | 2 => [execCmdUnbind p]
    | 3 => [execCmdLaunchStage p]
    | 4 => [execCmdLaunchEntry p]
    | 5 => [execCmdReadTenantState p]
    | _ => []

/-- The rebuild of a lost line: one for which an access is held, or the next in order (R321). -/
def Package.rebuildSteps (k : Package) (p : Nat) : List Work :=
  match k.nextRebuild with
  | none => []
  | some l => [fun s => match k.rebuild.find? s.wanted with
      | some w => execRebuildLine p w s
      | none => execRebuildLine p l s]

/-- The steps of a package that may be pending. -/
def Package.steps (k : Package) (p : Nat) : List Work :=
  k.commits.flatMap (fun x => x.raise.map (execFloorRaise · p) ++ x.acks.map (execFloorAck p)) ++
  (if k.commits.isEmpty then [] else [execCommitRecord p]) ++
  k.wbacks.flatMap (fun w =>
    (if w.pDone then [] else [execCodedDelta p w.line false]) ++ (if w.qDone then [] else [execCodedDelta p w.line true]) ++
      [execCodedDeltaAck p w.line]) ++
  k.transits.flatMap (fun t => (t.lines.take 1).flatMap fun x =>
    [execCodedDelta p x.1 false, execCodedDelta p x.1 true, execCodedDeltaAck p x.1]) ++
  k.rebuildSteps p ++ k.rebuildChecks.map (fun x => execRebuildLine p x.1) ++
  (if k.scribeHeld.isEmpty then [] else (List.range 8).map (execScribeHoldRelease p)) ++
  k.drains.map (fun m => let x := markParts m; execDrainMarker p x.1 x.2.1 x.2.2) ++
  (match k.service.council with
    | none => []
    | some x => x.ballots.map fun b => execCouncilVote p b.1) ++
  [execFirmwareWatchdog p] ++
  (if k.syncLost then [] else [execPtcSyncLoss p]) ++
  k.host.commandSteps p ++
  (if k.host.accesses.isEmpty then [] else [fun (s : State) => Host.Outcome.next (s.retryAccess p)]) ++
  k.host.events.map (fun e => execDeviceEvent p e.1 e.2) ++
  (k.host.pairs.filter (fun q => !q.waiting.isEmpty)).map (fun q => execCompletionPost p q.index) ++
  (if k.views.all (·.state == .live) then [] else [execL2CleanSweep p])

/-! ### Held accesses -/

/-- The step in which the home of a slot's held access acts (R177, R222, R225). -/
def State.homeSteps (s : State) (c : Nat) (n : Fin 8) : List Work :=
  let t := s.slot c n
  match t.wait, t.held, t.reply with
  | .request, some i, none => match homeMeaning i with
    | some (.read, _) => if plainRead i && (s.responder c n i).1 ≠ pkgOf c then [execProxyRead c n] else [execHomeRead c n]
    | some (.write, _) => [execHomeWrite c n]
    | some (.rmw, _) => [execHomeRmw c n]
    | some (.block, _) => [execBlockAction c n]
    | some (.compare, _) => [execWaitneCompare c n]
    | none => []
  | .monitorRetry, _, _ => [execWaitneRetry c n]
  | _, _, _ => []

/-- A list from a place on, around its end. -/
def rotated {α : Type} (l : List α) (n : Nat) : List α := l.drop (n % l.length) ++ l.take (n % l.length)

/-- The steps that may be pending, in the order in which they are tried: those of cores, of the fabric and of packages,
then starts of jobs that the power monitor delays (R374), then the homes of held accesses, in turn (entry 22). -/
def State.pending (s : State) : List Work :=
  let cores := (s.cores.map (·.1)).filter fun c => !s.silent c
  let pkgs := s.pkgs.filter fun k => k.2.alive
  cores.flatMap s.coreSteps ++
  s.fabric.flatMap (fun m => if s.silent m.dst then [] else s.messageSteps m) ++
  (s.stops.filter (!·.cutClosed)).map (fun h => execCutCountSum (h.pkgs.headD 0)) ++
  (s.barriers.filter (fun b => !b.signals.isEmpty)).map (fun b => execBarrierSignal b.tenant b.level b.inst) ++
  s.collMsgs.map (fun m => if m.down then execCollectiveResult m.router m.g else execCollectiveItem m.router m.port m.g) ++
  pkgs.flatMap (fun k => k.2.steps k.1) ++
  cores.map execMmaJobStart ++
  rotated (cores.flatMap fun c => (List.finRange 8).flatMap (s.homeSteps c)) s.ticks

/-- What a pending step makes of the state, if it changes it. -/
def State.progress (s : State) (f : Work) : Option State :=
  match f s with
  | .next t => if t = s then none else some t
  | _ => none

/-! ### Steps -/

/-- A step of another agent; only threads issue instructions (entry 1). -/
def State.perform (e : Instr) (s : State) : Out :=
  if encode e = .none then onNext (exec e s) State.settleGangs else .fault .notAnEvent

/-- A thread's turn; the next step tries the pending steps first (entry 2). -/
def State.issueStep (s : State) (c : Nat) (n : Fin 8) : Out :=
  onNext (s.issueAt c n) fun s => { s.settleGangs with issueTurn := false }

/-- After a pending step a thread has its turn (entry 2). -/
def State.afterEvent (s : State) : State := { s.settleGangs with issueTurn := true }

/-- The first pending step that changes the state, or time passing to the next deadline. -/
def State.eventStep (s : State) : State :=
  match s.pending.findSome? s.progress with
  | some s => s.afterEvent
  | none => s.idle

/-! ### Placing an instruction -/

/-- Halfwords written into a code region at a halfword's number, which grows as far as they reach. -/
def writeCode (code : List (BitVec 16)) (at_ : Nat) (hs : List (BitVec 16)) : List (BitVec 16) :=
  (code ++ List.replicate (at_ - code.length) 0).take at_ ++ hs ++ code.drop (at_ + hs.length)

/-- A tenant with nothing but a code region. -/
def Tenant.ofCode (id : Nat) (code : List (BitVec 16)) : Tenant where
  id := id
  code := [code]
  images := []
  caps := []
  spillShare := 0
  loss := 0
  overflow := 0
  preserve := 0
  preserveUsed := []
  rcore := 0xFFFFFFFF
  lost := []
  nlost := 0
  injection := false
  ijoff := 0
  carm := 0
  ijpc := 0
  rarm := false
  rcnt := 0
  ccnt := 0

/-- A package in which a tenant's code region holds halfwords at a place, and whose cores issue. -/
def Package.placed (p : Package) (ten img at_ : Nat) (hs : List (BitVec 16)) : Package :=
  let l := if p.tenants.any (·.id == ten) then p.tenants else p.tenants ++ [Tenant.ofCode ten []]
  { p with
    tenants := l.map fun t => if t.id = ten then
      { t with
        code := (t.code ++ List.replicate (img + 1 - t.code.length) []).modify img fun l => writeCode l at_ hs
        rarm := false } else t
    raised := true, failed := false, fenced := [] }

/-- A slot with nothing in the way of its next instruction. -/
def Slot.placed (t : Slot) (loser : Bool) : Slot :=
  { t.idle with
    state := .ready, pendFault := none, issued := none, views := if loser then [] else t.views
    regs := { t.regs with pc := t.regs.pc &&& ~~~1 } }

/-- Halfwords stored at the current thread's `pc`, and the next step its turn. -/
def State.placed (s : State) (hs : List (BitVec 16)) : State :=
  let c := s.curCore
  let t := s.me.placed (s.loser s.me)
  let s := s.updCore c fun k =>
    { k.setSlot s.curSlot t with cycle := k.cycle / 8 * 8 + s.curSlot.val, stopped := false, seq := [] }
  let s := s.updPkg (pkgOf c) fun p => p.placed t.tenant t.code (t.regs.pc.toNat / 2) hs
  { s with agenda := [], issueTurn := true, stops := s.stops.filter (!·.holds c) }

end Sys2Proof.Machine
end

