-- ==== Sys2Proof/Machine/Step.lean ====
section
/-!
DEFINITION. One step of the machine: a step of another agent that is due, an instruction of a thread, or a step of the
machine's own agents; and the state with an instruction placed where the next step fetches it.
-/

namespace Sys2Proof.Machine

/-- One step (entries 1 to 3): the agenda's head first; then, in alternation, a turn of a thread and a pending event. -/
def step (s : State) : Out :=
  let s := s.elapse
  match s.agenda with
  | e :: rest => State.perform e { s with agenda := rest }
  | [] =>
    if s.issueTurn then
      match s.turn with
      | some (c, n) => s.issueStep c n
      | none => .next s.eventStep
    else
      match s.pending.findSome? s.progress with
      | some s => .next s.afterEvent
      | none =>
        match s.turn with
        | some (c, n) => s.issueStep c n
        | none => .next s.idle

/-- The state with an instruction stored at the current thread's `pc` and with the next step its turn: its slot READY and
outside a gang, with no capture, fault, armed injection or sequencer entry in the way; its core issuing. -/
def State.withFetchWord (s : State) (nbits w : Nat) : State := s.placed (tableHalfwords nbits w)

end Sys2Proof.Machine
end

