-- ==== Sys2Proof/Safety.lean ====
section
/-!
DEFINITION. The terms that claims use: what makes an instruction complete at once, what a completed instruction leaves,
and the form that every state of the machine keeps.
-/

namespace Sys2Proof.Machine

/-! ### Completing at once (R31, R32, R160) -/

/-- The ports that an instruction names serve it at once: each read port holds a word, and none stands at an end of the
chain; a rival's fourth word to `qdn` would be a push. -/
def State.portsReady (s : State) (srcs dsts : List (BitVec 5)) : Prop :=
  (28#5 ∈ srcs → s.regs.qrx ≠ []) ∧
  (29#5 ∈ srcs → chainPos s.home ≠ 0 ∧ s.regs.qup ≠ []) ∧
  (30#5 ∈ dsts → chainPos s.home ≠ 4095 ∧ ¬(s.me.inWorld = true ∧ s.regs.qdn.length = 3))

/-- What a completed instruction leaves whose registers end as `r`: the port words it read are consumed, and a full `qdn`
buffer is pushed (R31, R33). -/
def State.completed (s : State) (srcs dsts : List (BitVec 5)) (r : Regs) : State :=
  if 30#5 ∈ dsts then (s.setRegs (r.consume srcs)).pushDown else s.setRegs (r.consume srcs)

/-- An instruction whose ports are ready answers a next state in which it is complete with the registers `r`. -/
def Completes (i : Instr) (s : State) (srcs dsts : List (BitVec 5)) (r : Regs) : Prop :=
  s.portsReady srcs dsts → exec i s = .next (s.completed srcs dsts r)

/-- An instruction whose ports are ready takes a fault and has no other effect. -/
def Faults (i : Instr) (s : State) (srcs dsts : List (BitVec 5)) (f : FaultInfo) : Prop :=
  s.portsReady srcs dsts → exec i s = .next (s.trapMe f)

/-- The issuing thread's registers with a word written to a scalar register and the program counter moved on. -/
def State.wrote (s : State) (d : BitVec 5) (x : Word) (len : Nat) : Regs := (s.regs.setVal d x).advance len

/-- The issuing thread's registers with a pair written and the program counter moved on. -/
def State.wrotePair (s : State) (d : BitVec 5) (x : DWord) (len : Nat) : Regs := (s.regs.setPair d x).advance len

/-! ### Accesses that are admitted -/

/-- The checks of R157, R158 and R248 that need the capability alone pass for `z` bytes at an offset. -/
structure State.Admits (s : State) (c : Cap) (off : Int) (z align : Nat) (need : BitVec 7) (space : Nat) : Prop where
  tagged  : c.tag = true
  owner   : c.dom = s.me.tenant
  space   : c.space = space
  perms   : c.perm &&& need = need
  low     : 0 ≤ off
  high    : off + z ≤ c.len
  aligned : (c.base + off.toNat) % align = 0

/-- Words of a core's local memory are reached: the die that serves the core is not fenced, and its image does not lie in
the context area (R245, R302). -/
structure State.LocalServes (s : State) (core : Nat) : Prop where
  alive   : (s.pkg (pkgOf core)).fenced.contains (false, (s.pkg (pkgOf core)).coreDie (dieOf core)) = false
  present : s.saved core = false

/-- An access of `z` bytes to LOCAL space at an offset through a capability is admitted, for a thread outside every world,
and is performed at the address `a` of its core's local memory: the checks of R157, R158, R248 and R252 pass and no granule
is poisoned. -/
structure State.LocalAt (s : State) (c : Cap) (off : Int) (z align : Nat) (need : BitVec 7) (a : Nat) : Prop
    extends s.Admits c off z align need 0, s.LocalServes s.home where
  address : a = (c.base + off.toNat) % 2 ^ 16
  owned   : s.inPartition s.home c.dom a z = true
  clean   : ∀ g ∈ granules a z, (s.core s.home).lpoison.contains g = false
  outside : s.me.inWorld = false

/-- The same of a thread of a rival, inside the window of its innermost rival view: the window's copy is accessed (R160,
R217). -/
structure State.RivalAt (s : State) (c : Cap) (off : Int) (z align : Nat) (need : BitVec 7) (a : Nat) : Prop
    extends s.Admits c off z align need 0, s.LocalServes s.home where
  address : a = (c.base + off.toNat) % 2 ^ 16
  owned   : s.inPartition s.home c.dom a z = true
  clean   : ∀ g ∈ s.keptWords s.me a z, (s.core s.home).lpoison.contains g = false
  inside  : ∃ v, s.me.rivalView = some v ∧ v.inWindow a z = true

/-- The same of WINDOW space: `z` bytes at the address `a` of the local memory of `core`,
whose package has a route and whose links serve (R245, R323, R325, R341); inside a view R160 admits a load alone. -/
structure State.WindowAt (s : State) (c : Cap) (off : Int) (z align : Nat) (need : BitVec 7) (core a : Nat) : Prop
    extends s.Admits c off z align need 1, s.LocalServes core where
  address : a = (c.base + off.toNat) % 2 ^ 16
  named   : core = (c.base + off.toNat) / 2 ^ 16 % 2 ^ 26
  inPod   : s.goodName core = true
  owned   : s.inPartition core c.dom a z = true
  clean   : ∀ g ∈ granules a z, (s.core core).lpoison.contains g = false
  routed  : s.routed (pkgOf s.curCore) (pkgOf core) = true
  served  : s.pairServed s.curCore core = true
  admits  : s.me.views = [] ∨ need = pRD

/-- `z` bytes from `a` lie in one region whose rights the lookaside buffer holds and which admit what is needed (R267). -/
structure State.Granted (s : State) (c : Cap) (z : Nat) (need : BitVec 7) (a : Nat) (host : Bool) : Prop where
  some   : 0 < z
  region : a / 2 ^ 21 = (a + z - 1) / 2 ^ 21
  rights : ∃ e, (s.core s.curCore).plbFind c.dom (a / 2 ^ 21) host = .some e ∧ e.rights &&& rightsFor need = rightsFor need

/-- `z` bytes from `a` lie in one line of the thread's own package, and the home holds the line, which is neither poisoned,
locked, fenced, of a page whose coding changes, nor waiting for a rebuild, and every link on the way serves (R255, R325,
R339). -/
structure State.LineServes (s : State) (z a : Nat) : Prop where
  oneLine : a / 128 = (a + z - 1) / 128
  ours    : homePkg a = pkgOf s.curCore
  inPod   : homePkg a < s.podSize
  held    : (s.pkg (homePkg a)).l2.contains (lineOf a) = true
  alive   : (s.pkg (homePkg a)).fenced.contains (true, (s.pkg (homePkg a)).baseDie (homePos a)) = false
  free    : s.locked (lineOf a) = false
  steady  : (s.pkg (homePkg a)).inTransit (lineOf a) = false
  whole   : (s.pkg (homePkg a)).rebuild.contains (lineOf a) = false
  clean   : look (s.pkg (homePkg a)).poison (lineOf a) = none
  served  : s.lineServed (pkgOf s.curCore) s.curCore a = true

/-- An access of `z` bytes to GLOBAL space within one line of the thread's own package is admitted, for a thread outside
every view, and is performed at the address `a`: the checks of R157 and R248 pass, the lookaside buffer holds the rights
(R267), and the home serves the line. -/
structure State.GlobalAt (s : State) (c : Cap) (off : Int) (z align : Nat) (need : BitVec 7) (a : Nat) : Prop
    extends s.Admits c off z align need 2, s.Granted c z need a false, s.LineServes z a where
  address : a = c.base + off.toNat
  noView  : s.me.views = []

/-- A line has a version in a view, or takes one for which its set has a way (R255, R260). -/
def State.VersionRoom (s : State) (v a : Nat) : Prop :=
  ∃ p, (s.pkg (pkgOf s.curCore)).needVersion v (lineOf a) = .some p ∧ p.setUsed (lineOf a) ≤ p.waysOf (lineOf a * 128)

/-- The same of a thread inside views, `v` the innermost: the version of the line that the chain of its views reads is not
poisoned, and for a write the line has a version in `v` or room for one (R213, R238, R259, R260). -/
structure State.VersionAt (s : State) (c : Cap) (off : Int) (z align : Nat) (need : BitVec 7) (v a : Nat) : Prop
    extends s.Admits c off z align need 2, s.Granted c z need a false, s.LineServes z a where
  address : a = c.base + off.toNat
  chain   : s.me.chain.head? = .some v
  known   : ∃ r, (s.pkg (pkgOf s.curCore)).view v = .some r ∧ r.pz.contains (lineOf a) = false
  sound   : (s.pkg (pkgOf s.curCore)).versionPoisoned s.me.chain (lineOf a) = false
  room    : need.getLsbD 1 = true → s.VersionRoom v a

/-- An access of `z` bytes to HOST space is admitted, inside a view a load alone, and is performed at the address `a` of
its package's host memory: the rights are held, the host is marked present, and the links to the host port serve (R160,
R267, R350, R352). -/
structure State.HostAt (s : State) (c : Cap) (off : Int) (z align : Nat) (need : BitVec 7) (a : Nat) : Prop
    extends s.Admits c off z align need 3, s.Granted c z need a true where
  address : a = c.base + off.toNat
  enabled : (s.pkg (pkgOf s.curCore)).host.state = .enabled
  served  : s.pairServed s.curCore (hostAgent (pkgOf s.curCore)) = true
  admits  : s.me.views = [] ∨ need = pRD

/-- An access of 4 or 8 bytes to CTRL space is admitted, inside a view a load alone (R160, R254). -/
structure State.CtrlAt (s : State) (c : Cap) (off : Int) (z align : Nat) (need : BitVec 7) (a : Nat) : Prop
    extends s.Admits c off z align need 4 where
  address : a = c.base + off.toNat
  size    : z = 4 ∨ z = 8
  admits  : s.me.views = [] ∨ need = pRD

/-- Where an admitted access is performed: at an address of the core's own local memory, of the window copy of its
innermost rival, of another core's local memory, of GLOBAL memory in the base view or in a view, of host memory, or of the
CTRL registers (R156, R160, R213, R217, R245). -/
inductive Place where
  | own (a : Nat)
  | rival (a : Nat)
  | window (core a : Nat)
  | global (a : Nat)
  | version (v a : Nat)
  | host (a : Nat)
  | ctrl (a : Nat)
  deriving DecidableEq, Repr

/-- An access of `z` bytes at an offset through a capability is admitted and is performed at a place. -/
def State.At (s : State) (c : Cap) (off : Int) (z align : Nat) (need : BitVec 7) : Place → Prop
  | .own a => s.LocalAt c off z align need a
  | .rival a => s.RivalAt c off z align need a
  | .window k a => s.WindowAt c off z align need k a
  | .global a => s.GlobalAt c off z align need a
  | .version v a => s.VersionAt c off z align need v a
  | .host a => s.HostAt c off z align need a
  | .ctrl a => s.CtrlAt c off z align need a

/-- The address within its storage. -/
def Place.addr : Place → Nat
  | .own a | .rival a | .window _ a | .global a | .version _ a | .host a | .ctrl a => a

/-- A place further on in the same storage. -/
def Place.plus (n : Nat) : Place → Place
  | .own a => .own (a + n)
  | .rival a => .rival (a + n)
  | .window k a => .window k (a + n)
  | .global a => .global (a + n)
  | .version v a => .version v (a + n)
  | .host a => .host (a + n)
  | .ctrl a => .ctrl (a + n)

/-- The space of a place (R246). -/
def Place.space : Place → Nat
  | .own _ | .rival _ => 0
  | .window _ _ => 1
  | .global _ | .version _ _ => 2
  | .host _ => 3
  | .ctrl _ => 4

/-- Whether R160 admits a kind of access at a place: an atomic on GLOBAL space escapes from a view. -/
def Place.takes (p : Place) (k : AccKind) : Prop :=
  match p with
  | .version _ _ => k ≠ .atomic
  | _ => True

/-- Whether a read of a place is answered at once: how the host answers one of its memory is a free value (R350; entry
25). -/
def State.answersAt (s : State) : Place → Prop
  | .host _ => Config.hostReply s.ticks = 0
  | _ => True

/-- A word of the CTRL registers of the thread's tenant (R254, R391). -/
def State.ctrlWord (s : State) (a : Nat) : Word :=
  (((s.pkg (pkgOf s.curCore)).tenant s.me.tenant).map (·.ctrl a)).getD 0

/-- The byte of memory that lies at an address of a place's storage, as the issuing thread reads it. -/
def State.placeByte (s : State) (b : Nat) : Place → Byte
  | .own _ => (s.core s.home).loc.read b
  | .rival _ => Memory.read ((s.me.rivalView.map (·.win)).getD []) b
  | .window k _ => (s.core k).loc.read b
  | .global _ => s.mem.read b
  | .version _ _ => ((s.pkg (pkgOf s.curCore)).viewByte s.me.chain b).getD (s.mem.read b)
  | .host _ => (s.pkg (pkgOf s.curCore)).host.mem.read b
  | .ctrl _ => BitVec.ofNat 8 ((s.ctrlWord (b / 4 * 4)).toNat / 256 ^ (b % 4))

/-- The `z` bytes at a place. -/
def State.placeBytes (s : State) (z : Nat) (p : Place) : List Byte := (List.range z).map fun i => s.placeByte (p.addr + i) p

/-- The tag of a granule of a place's storage, as the issuing thread reads it (R163, R246). -/
def State.placeTag (s : State) (g : Nat) : Place → Bool
  | .own _ => (s.core s.home).ltags.contains g
  | .rival _ => ((s.me.rivalView.map (·.winTags)).getD []).contains g
  | .window k _ => (s.core k).ltags.contains g
  | .global _ => s.mtags.contains g
  | .version _ _ => ((s.pkg (pkgOf s.curCore)).viewTag s.me.chain g).getD (s.mtags.contains g)
  | .host _ | .ctrl _ => false

/-! ### Storage -/

/-- The bytes of local memory of a core after a store of `bytes` at `a`, the tags of their granules cleared, or set by the
store of a capability with a tag of 1, and every other storage as before. -/
structure StoredLocal (s t : State) (core a : Nat) (bytes : List Byte) (tag : Bool := false) : Prop where
  stored : ∀ b, (t.core core).loc.read b =
    if a ≤ b ∧ b < a + bytes.length then bytes.getD (b - a) 0 else (s.core core).loc.read b
  tags   : ∀ g, g ∈ (t.core core).ltags ↔
    if g ∈ granules a bytes.length then tag = true else g ∈ (s.core core).ltags
  others : ∀ c, c ≠ core → (t.core c).loc = (s.core c).loc ∧ (t.core c).ltags = (s.core c).ltags
  global : t.mem = s.mem ∧ t.mtags = s.mtags

/-- The bytes of GLOBAL memory after a store of `bytes` at `a`, the tags of their granules cleared or set, and every local
memory as before. -/
structure StoredGlobal (s t : State) (a : Nat) (bytes : List Byte) (tag : Bool := false) : Prop where
  stored : ∀ b, t.mem.read b = if a ≤ b ∧ b < a + bytes.length then bytes.getD (b - a) 0 else s.mem.read b
  tags   : ∀ g, g ∈ t.mtags ↔ if g ∈ granules a bytes.length then tag = true else g ∈ s.mtags
  locals : ∀ c, (t.core c).loc = (s.core c).loc ∧ (t.core c).ltags = (s.core c).ltags

/-- No storage changes: not GLOBAL memory, not a local memory, not a tag. -/
structure SameStorage (s t : State) : Prop where
  global : t.mem = s.mem
  tags   : t.mtags = s.mtags
  locals : ∀ c, (t.core c).loc = (s.core c).loc ∧ (t.core c).ltags = (s.core c).ltags

/-- A CTRL word after a write of one: what is published takes it, and nothing where nothing is (R254, R391). -/
def ctrlWritten (x : Tenant) (a : Nat) (w : Word) : Tenant :=
  if x.injection = false then x
  else { x with
    ijoff := if a = 0x800 then w else x.ijoff
    carm := if a = 0x804 then w &&& 0x8007FFFF else x.carm
    ijpc := if a = 0x808 then w else x.ijpc
    rarm := if a = 0x80C then w.getLsbD 31 else x.rarm }

/-- What a store of `bytes` at a place leaves of all storage: exactly those bytes written there, and the tags of their
granules cleared, or set by the store of a capability with a tag of 1; in a view or a window copy the base stays as it
is. -/
def Stored (s t : State) (bytes : List Byte) (p : Place) (tag : Bool := false) : Prop :=
  let own := pkgOf s.curCore
  match p with
  | .own a => StoredLocal s t s.home a bytes tag
  | .window k a => StoredLocal s t k a bytes tag
  | .global a => StoredGlobal s t a bytes tag
  | .host a => SameStorage s t ∧ (t.pkg own).host.mem = (s.pkg own).host.mem.writeN a bytes
  | .ctrl a => SameStorage s t ∧ (t.pkg own).tenant s.me.tenant = ((s.pkg own).tenant s.me.tenant).map fun x =>
      (List.range (bytes.length / 4)).foldl (fun x k =>
        ctrlWritten x (a + 4 * k) (BitVec.ofNat 32 (leValue ((bytes.drop (4 * k)).take 4)))) x
  | .rival a | .version _ a => SameStorage s t ∧
      (∀ b, t.placeByte b p = if a ≤ b ∧ b < a + bytes.length then bytes.getD (b - a) 0 else s.placeByte b p) ∧
      ∀ g, t.placeTag g p = if g ∈ granules a bytes.length then tag else s.placeTag g p

/-- What stores of several pieces at their places, one after the other, leave of all storage. -/
def StoredAll : State → State → List (Place × List Byte) → Prop
  | s, t, [] => SameStorage s t
  | s, t, [e] => Stored s t e.2 e.1
  | s, t, e :: f :: rest => ∃ u : State, u.curCore = s.curCore ∧ u.home = s.home ∧ Stored s u e.2 e.1 ∧
      StoredAll u t (f :: rest)

/-- What a step leaves that changes neither storage nor the issuing thread: a read, a monitor's reply to another thread. -/
structure KeepsMe (s t : State) : Prop where
  storage : SameStorage s t
  core    : t.curCore = s.curCore
  slot    : t.curSlot = s.curSlot
  me      : t.me = s.me

/-- What a write at a place leaves of the issuing thread: who issues, and the slot but for its views. -/
structure LeavesMe (s t : State) : Prop where
  core : t.curCore = s.curCore
  slot : t.curSlot = s.curSlot
  me   : t.me = { s.me with views := t.me.views }

/-- The issuing thread has no monitor armed of its own: it is not asleep in a `WAITNE`. -/
def State.notWatching (s : State) : Prop := ∀ m ∈ s.monitors, ¬(m.tcore = s.curCore ∧ m.tslot = s.curSlot)

/-- A block of a joined line of GLOBAL space is reached, in the base view or in a view: the access of the whole line is
admitted, a write inside a view has room for its version, and the format tag is one that the instruction takes (R169, R170).
`p` is the line's place and `o` the block's offset in it. -/
structure State.BlockAt (s : State) (c : Cap) (off : Int) (ty : BitVec 5) (need : BitVec 7) (write : Bool)
    (tags : List Byte) (p : Place) (o : Nat) : Prop where
  line   : s.At c (off - o) 128 128 need p
  space  : p.space = 2
  room   : write = true → ∀ v a, p = .version v a → s.VersionRoom v a
  inLine : o < 128
  place  : o % mxBytes ty = 0 ∧ o / mxBytes ty < mxBlocks ty
  tag    : s.placeByte (p.addr + 126) p ∈ tags

end Sys2Proof.Machine
end

