-- ==== Sys2Proof/Certificates/Slice0/Obligations.lean ====
section
/-!
DEFINITION. The statements for the provers. Each cites the rules of spec/ that it formalises.
-/

open Sys2Proof Sys2Proof.Machine

/-! ### Integer instructions -/

/-- A two-operand integer instruction completes with a result of R107 at both widths: scalars at `W` = 0, pairs at
`W` = 1, tail 00, every flag as before. -/
def IntegerResult (mk : BitVec 5 → BitVec 5 → BitVec 5 → BitVec 1 → Instr) (f : Word → Word → Word)
    (g : DWord → DWord → DWord) : Prop :=
  ∀ (s : State) (d a b : BitVec 5),
    Completes (mk d a b 0) s [a, b] [d] (s.wrote d (f (s.regs.val a) (s.regs.val b)) 4) ∧
    Completes (mk d a b 1) s [a, b] [d] (s.wrotePair d (g (s.regs.pair a) (s.regs.pair b)) 4)

/-- R107: sums, differences, products and logic. -/
def IntegerArithmetic : Prop :=
  IntegerResult .add (fun x y => x + y) (fun x y => x + y) ∧
  IntegerResult .sub (fun x y => x - y) (fun x y => x - y) ∧
  IntegerResult .mul (fun x y => x * y) (fun x y => x * y) ∧
  IntegerResult .mulh (fun x y => BitVec.ofInt 32 (x.toInt * y.toInt / 2 ^ 32))
    (fun x y => BitVec.ofInt 64 (x.toInt * y.toInt / 2 ^ 64)) ∧
  IntegerResult .mulhn (fun x y => BitVec.ofNat 32 (x.toNat * y.toNat / 2 ^ 32))
    (fun x y => BitVec.ofNat 64 (x.toNat * y.toNat / 2 ^ 64)) ∧
  IntegerResult .and (fun x y => x &&& y) (fun x y => x &&& y) ∧
  IntegerResult .or (fun x y => x ||| y) (fun x y => x ||| y) ∧
  IntegerResult .xor (fun x y => x ^^^ y) (fun x y => x ^^^ y) ∧
  IntegerResult .andn (fun x y => x &&& ~~~y) (fun x y => x &&& ~~~y)

/-- R107: the lesser, the greater and the comparisons, signed and unsigned. -/
def IntegerComparisons : Prop :=
  IntegerResult .min (fun x y => if y.toInt < x.toInt then y else x) (fun x y => if y.toInt < x.toInt then y else x) ∧
  IntegerResult .max (fun x y => if x.toInt < y.toInt then y else x) (fun x y => if x.toInt < y.toInt then y else x) ∧
  IntegerResult .minn (fun x y => if y.toNat < x.toNat then y else x) (fun x y => if y.toNat < x.toNat then y else x) ∧
  IntegerResult .maxn (fun x y => if x.toNat < y.toNat then y else x) (fun x y => if x.toNat < y.toNat then y else x) ∧
  IntegerResult .slt (fun x y => if x.toInt < y.toInt then 1 else 0) (fun x y => if x.toInt < y.toInt then 1 else 0) ∧
  IntegerResult .sltn (fun x y => if x.toNat < y.toNat then 1 else 0) (fun x y => if x.toNat < y.toNat then 1 else 0)

/-- R107: integer arithmetic and comparisons. -/
def Obligations.IntegerArithmeticAndComparisons : Prop := IntegerArithmetic ∧ IntegerComparisons

/-- A division or remainder completes with a result of R107; the flag `dz` is raised exactly when the divisor is zero. -/
def DivisionResult (mk : BitVec 5 → BitVec 5 → BitVec 5 → BitVec 1 → Instr) (f : Word → Word → Word)
    (g : DWord → DWord → DWord) : Prop :=
  ∀ (s : State) (d a b : BitVec 5),
    Completes (mk d a b 0) s [a, b] [d]
      ((s.wrote d (f (s.regs.val a) (s.regs.val b)) 4).raise (if s.regs.val b = 0 then fDZ else 0)) ∧
    Completes (mk d a b 1) s [a, b] [d]
      ((s.wrotePair d (g (s.regs.pair a) (s.regs.pair b)) 4).raise (if s.regs.pair b = 0 then fDZ else 0))

/-- R107: quotients truncate toward zero and remainders take the dividend's sign; a zero divisor gives all ones or the
dividend; the overflow case needs no clause of its own. -/
def Obligations.IntegerDivision : Prop :=
  DivisionResult .div
    (fun x y => if y = 0 then BitVec.allOnes 32 else BitVec.ofInt 32 (x.toInt.tdiv y.toInt))
    (fun x y => if y = 0 then BitVec.allOnes 64 else BitVec.ofInt 64 (x.toInt.tdiv y.toInt)) ∧
  DivisionResult .divn
    (fun x y => if y = 0 then BitVec.allOnes 32 else BitVec.ofNat 32 (x.toNat / y.toNat))
    (fun x y => if y = 0 then BitVec.allOnes 64 else BitVec.ofNat 64 (x.toNat / y.toNat)) ∧
  DivisionResult .rem
    (fun x y => if y = 0 then x else BitVec.ofInt 32 (x.toInt.tmod y.toInt))
    (fun x y => if y = 0 then x else BitVec.ofInt 64 (x.toInt.tmod y.toInt)) ∧
  DivisionResult .remn
    (fun x y => if y = 0 then x else BitVec.ofNat 32 (x.toNat % y.toNat))
    (fun x y => if y = 0 then x else BitVec.ofNat 64 (x.toNat % y.toNat))

/-- A shift or rotate completes at both widths, with its amount from the field `h : b` at `I` = 1 and from the second
register's low word at `I` = 0, modulo the width. -/
def ShiftResult (mk : BitVec 5 → BitVec 5 → BitVec 5 → BitVec 1 → BitVec 1 → BitVec 1 → Instr)
    (f : Word → Nat → Word) (g : DWord → Nat → DWord) : Prop :=
  ∀ (s : State) (d a b : BitVec 5) (h : BitVec 1),
    Completes (mk d a b 0 0 h) s [a, b] [d] (s.wrote d (f (s.regs.val a) ((s.regs.val b).toNat % 32)) 4) ∧
    Completes (mk d a b 0 1 h) s [a] [d] (s.wrote d (f (s.regs.val a) ((32 * h.toNat + b.toNat) % 32)) 4) ∧
    Completes (mk d a b 1 0 h) s [a, b] [d] (s.wrotePair d (g (s.regs.pair a) ((s.regs.val b).toNat % 64)) 4) ∧
    Completes (mk d a b 1 1 h) s [a] [d] (s.wrotePair d (g (s.regs.pair a) (32 * h.toNat + b.toNat)) 4)

/-- R107: shifts and the rotate, by the arithmetic of the table. -/
def IntegerShifts : Prop :=
  ShiftResult .shl (fun x n => BitVec.ofNat 32 (x.toNat * 2 ^ n)) (fun x n => BitVec.ofNat 64 (x.toNat * 2 ^ n)) ∧
  ShiftResult .shr (fun x n => BitVec.ofNat 32 (x.toNat / 2 ^ n)) (fun x n => BitVec.ofNat 64 (x.toNat / 2 ^ n)) ∧
  ShiftResult .sar (fun x n => BitVec.ofInt 32 (x.toInt / 2 ^ n)) (fun x n => BitVec.ofInt 64 (x.toInt / 2 ^ n)) ∧
  ShiftResult .rol (fun x n => BitVec.ofNat 32 (x.toNat * 2 ^ n + x.toNat / 2 ^ (32 - n)))
    (fun x n => BitVec.ofNat 64 (x.toNat * 2 ^ n + x.toNat / 2 ^ (64 - n)))

/-- A one-operand count completes at both widths with a number that is right for the operand. -/
def CountResult (mk : BitVec 5 → BitVec 5 → BitVec 1 → Instr) (right : (w : Nat) → BitVec w → Nat → Prop) : Prop :=
  ∀ (s : State) (d a : BitVec 5),
    (∃ n, right 32 (s.regs.val a) n ∧ Completes (mk d a 0) s [a] [d] (s.wrote d (BitVec.ofNat 32 n) 4)) ∧
    (∃ n, right 64 (s.regs.pair a) n ∧ Completes (mk d a 1) s [a] [d] (s.wrotePair d (BitVec.ofNat 64 n) 4))

/-- R107: `CLZ` counts the 0 bits above the highest 1 bit, `CTZ` those below the lowest, both w for zero, and `POPC` the
1 bits. -/
def IntegerCounts : Prop :=
  CountResult .clz (fun w x n => n ≤ w ∧ (∀ i, w - n ≤ i → x.getLsbD i = false) ∧ (n < w → x.getLsbD (w - 1 - n) = true)) ∧
  CountResult .ctz (fun w x n => n ≤ w ∧ (∀ i, i < n → x.getLsbD i = false) ∧ (n < w → x.getLsbD n = true)) ∧
  CountResult .popc (fun w x n => n = ((List.range w).filter (fun i => x.getLsbD i)).length)

/-- R107: shifts, rotations and bit counts. -/
def Obligations.IntegerShiftsAndCounts : Prop := IntegerShifts ∧ IntegerCounts

/-- R58: a short form does what the long form does with its first field as source and destination, and is 2 bytes long;
no flag changes. -/
def ShortIntegerForms : Prop :=
  ∀ (s : State) (a b : BitVec 5),
    let x := s.regs.val a
    let y := s.regs.val b
    let n := b.toNat
    Completes (.addShort a b) s [a, b] [a] (s.wrote a (x + y) 2) ∧
    Completes (.subShort a b) s [a, b] [a] (s.wrote a (x - y) 2) ∧
    Completes (.andShort a b) s [a, b] [a] (s.wrote a (x &&& y) 2) ∧
    Completes (.orShort a b) s [a, b] [a] (s.wrote a (x ||| y) 2) ∧
    Completes (.xorShort a b) s [a, b] [a] (s.wrote a (x ^^^ y) 2) ∧
    Completes (.minShort a b) s [a, b] [a] (s.wrote a (if y.toInt < x.toInt then y else x) 2) ∧
    Completes (.maxShort a b) s [a, b] [a] (s.wrote a (if x.toInt < y.toInt then y else x) 2) ∧
    Completes (.shlShort a b) s [a] [a] (s.wrote a (BitVec.ofNat 32 (x.toNat * 2 ^ n)) 2) ∧
    Completes (.shrShort a b) s [a] [a] (s.wrote a (BitVec.ofNat 32 (x.toNat / 2 ^ n)) 2) ∧
    Completes (.sarShort a b) s [a] [a] (s.wrote a (BitVec.ofInt 32 (x.toInt / 2 ^ n)) 2) ∧
    Completes (.addiShort a b) s [a] [a] (s.wrote a (BitVec.ofInt 32 (x.toInt + b.toInt)) 2) ∧
    Completes (.liShort a b) s [] [a] (s.wrote a (BitVec.ofInt 32 b.toInt) 2)

/-- R108 and R109: `SEL` reads all three sources; the immediate forms. -/
def SelectAndImmediates : Prop :=
  ∀ (s : State) (d a b c : BitVec 5) (i14 : BitVec 14) (i19 : BitVec 19) (i18 : BitVec 18),
    Completes (.sel d a b c) s [a, b, c] [d] (s.wrote d (if s.regs.val c ≠ 0 then s.regs.val a else s.regs.val b) 4) ∧
    Completes (.addi d a i14) s [a] [d] (s.wrote d (BitVec.ofInt 32 ((s.regs.val a).toInt + i14.toInt)) 4) ∧
    Completes (.li d i19) s [] [d] (s.wrote d (BitVec.ofInt 32 i19.toInt) 4) ∧
    Completes (.lih d i18) s [d] [d]
      (s.wrote d (BitVec.ofNat 32 (i18.toNat * 2 ^ 14 + (s.regs.val d).toNat % 2 ^ 14)) 4)

/-- R110: the moves to and from the extension registers; the register written is the one named, every other is as
before, and `S[d]` gets tail 00. -/
def ExtensionRegisters : Prop :=
  ∀ (s : State) (d a : BitVec 5) (i19 : BitVec 19),
    Completes (.eli d i19) s [] [] ((s.regs.setExt (d.setWidth 3) (BitVec.ofInt 32 i19.toInt)).advance 4) ∧
    Completes (.emovToE d a) s [a] [] ((s.regs.setExt (d.setWidth 3) (s.regs.val a)).advance 4) ∧
    Completes (.emovShort d a) s [a] [] ((s.regs.setExt (d.setWidth 3) (s.regs.val a)).advance 2) ∧
    Completes (.emovFromE d a) s [] [d] (s.wrote d (s.regs.ext (a.setWidth 3)) 4) ∧
    ∀ (r : Regs) (m n : BitVec 3) (x : Word), (r.setExt n x).ext m = if m = n then x else r.ext m

/-- R58, R108 to R110: the short forms, selection, the immediates and the extension registers. -/
def Obligations.ShortFormsAndImmediates : Prop := ShortIntegerForms ∧ SelectAndImmediates ∧ ExtensionRegisters

/-! ### Control transfer -/

/-- R111, R113 to R115: in a thread that does not follow in a gang a taken branch moves `pc` by twice its sign-extended
offset, an untaken one by its length, and `LOOP` writes its count either way. -/
def Branches : Prop :=
  ∀ (s : State) (d a : BitVec 5) (o : BitVec 14) (p : BitVec 5), s.me.state ≠ .follow →
    let x := s.regs.val d
    let y := s.regs.val a
    let pc := s.regs.pc
    let go (r : Regs) (c : Prop) [Decidable c] (off : Int) (len : Word) : Regs :=
      { r with pc := if c then pc + BitVec.ofInt 32 (2 * off) else pc + len }
    Completes (.beq d a o) s [d, a] [] (go s.regs (x = y) o.toInt 4) ∧
    Completes (.bne d a o) s [d, a] [] (go s.regs (x ≠ y) o.toInt 4) ∧
    Completes (.blt d a o) s [d, a] [] (go s.regs (x.toInt < y.toInt) o.toInt 4) ∧
    Completes (.bge d a o) s [d, a] [] (go s.regs (y.toInt ≤ x.toInt) o.toInt 4) ∧
    Completes (.bltn d a o) s [d, a] [] (go s.regs (x.toNat < y.toNat) o.toInt 4) ∧
    Completes (.bgen d a o) s [d, a] [] (go s.regs (y.toNat ≤ x.toNat) o.toInt 4) ∧
    Completes (.bz d o) s [d] [] (go s.regs (x = 0) o.toInt 4) ∧
    Completes (.bnz d o) s [d] [] (go s.regs (x ≠ 0) o.toInt 4) ∧
    Completes (.bzShort d p) s [d] [] (go s.regs (x = 0) p.toInt 2) ∧
    Completes (.bnzShort d p) s [d] [] (go s.regs (x ≠ 0) p.toInt 2) ∧
    Completes (.loop d o) s [d] [d] (go (s.regs.setVal d (x - 1)) (x - 1 ≠ 0) o.toInt 4)

/-- R111, R112: jumps and their links, in a thread that does not follow in a gang; `JR` and `JLR` complete on an even
target. -/
def Jumps : Prop :=
  ∀ (s : State) (a : BitVec 5) (o : BitVec 24), s.me.state ≠ .follow →
    let r := s.regs
    let t := r.val a
    Completes (.b o) s [] [] { r with pc := r.pc + BitVec.ofInt 32 (2 * o.toInt) } ∧
    Completes (.j o) s [] [] { r with pc := BitVec.ofNat 32 (2 * o.toNat) } ∧
    Completes (.jl o) s [] [31] { r.setVal 31 (r.pc + 4) with pc := BitVec.ofNat 32 (2 * o.toNat) } ∧
    (t.toNat % 2 = 0 →
      Completes (.jr a) s [a] [] { r with pc := t } ∧
      Completes (.jrShort a) s [a] [] { r with pc := t } ∧
      Completes (.jlr a) s [a] [31] { r.setVal 31 (r.pc + 4) with pc := t } ∧
      Completes (.jlrShort a) s [a] [31] { r.setVal 31 (r.pc + 2) with pc := t })

/-- R112: an odd target of `JR` or `JLR` of a thread that leads or has no gang is an alignment fault with the detail
"branch target" and the target in `fault.addr`; neither `pc` nor `s31` changes. R105: a follower's target never
faults, whatever it is. -/
def OddTargets : Prop :=
  ∀ (s : State) (a : BitVec 5), (s.regs.val a).toNat % 2 = 1 →
    (s.me.state ≠ .follow →
      let f : FaultInfo := ⟨0x02, 0x02, (s.regs.val a).zeroExtend 64, 0⟩
      Faults (.jr a) s [a] [] f ∧ Faults (.jrShort a) s [a] [] f ∧
      Faults (.jlr a) s [a] [31] f ∧ Faults (.jlrShort a) s [a] [31] f ∧
      ((s.trapMe f).regs.pc = s.regs.pc ∧ (s.trapMe f).regs.get 31 = s.regs.get 31)) ∧
    (s.me.state = .follow → s.portsReady [a] [] → ∀ i ∈ [Instr.jr a, .jrShort a, .jlr a, .jlrShort a],
      ∃ t : State, exec i s = .next t ∧ t.me.state = .follow)

/-- R62, R105, R111 to R115: branches, jumps and their odd targets. Where the followers of a gang go is the leader's to
decide (R105; entry 34). -/
def Obligations.ControlTransfers : Prop := Branches ∧ Jumps ∧ OddTargets

/-! ### Capabilities -/

/-- R117, R118: `CSETB`, `CINC` and `CAND` complete with the narrowed capability or take the "widen" fault with address 0;
`CBASE`, `CLEN` and `CPERM` write their words, a space code above 4 of a word without a tag reading as 0 (entry 63). -/
def Obligations.CapabilityDerivation : Prop :=
  ∀ (s : State) (d a b : BitVec 5),
    let c := s.regs.cap (a.setWidth 3)
    let x := (s.regs.val b).toNat
    let put (k : Cap) : Regs := (s.regs.setCap (d.setWidth 3) k).advance 4
    let widen : FaultInfo := ⟨0x03, 0x05, 0, 0⟩
    (x ≤ c.len → Completes (.csetb d a b) s [b] [] (put (Cap.make c.tag c.dom c.space c.perm x c.base))) ∧
    (x ≤ c.len → Completes (.cinc d a b) s [b] [] (put (Cap.make c.tag c.dom c.space c.perm (c.len - x) (c.base + x)))) ∧
    (c.len < x → Faults (.csetb d a b) s [b] [] widen ∧ Faults (.cinc d a b) s [b] [] widen) ∧
    Completes (.cand d a b) s [b] []
      (put (Cap.make c.tag c.dom c.space (c.perm &&& (s.regs.val b).setWidth 7) c.len c.base)) ∧
    Completes (.cbase d a) s [] [d] (s.wrote d (BitVec.ofNat 32 c.base) 4) ∧
    Completes (.clen d a) s [] [d] (s.wrote d (BitVec.ofNat 32 (min c.len (2 ^ 32 - 1))) 4) ∧
    Completes (.cperm d a) s [] [d]
      (s.wrote d (BitVec.ofNat 32 (c.dom * 2 ^ 16 + (if c.tag then 2 ^ 11 else 0) +
        (if 4 < c.space then 0 else c.space) * 2 ^ 8 + c.perm.toNat)) 4)

/-- R117, R25: whatever a capability instruction does, every capability register afterwards is one the thread held or
one it may derive: same tag, space and domain, no permission more, and a range within the source's, where no source's
range runs past the top of the 52-bit address space. One that is moved to that very top is left with no bytes, at base 0
(entry 53). -/
def Obligations.CapabilitiesOnlyNarrow : Prop :=
  ∀ (s t : State) (d a b : BitVec 5) (i : Instr), i = .csetb d a b ∨ i = .cinc d a b ∨ i = .cand d a b →
    exec i s = .next t → (∀ n, (s.regs.cap n).base + (s.regs.cap n).len ≤ 2 ^ 52) →
    ∀ n, t.regs.cap n = s.regs.cap n ∨
      ∃ m, (t.regs.cap n).tag = (s.regs.cap m).tag ∧ (t.regs.cap n).space = (s.regs.cap m).space ∧
        (t.regs.cap n).dom = (s.regs.cap m).dom ∧ (t.regs.cap n).perm &&& ~~~(s.regs.cap m).perm = 0 ∧
        ((s.regs.cap m).base ≤ (t.regs.cap n).base ∧
            (t.regs.cap n).base + (t.regs.cap n).len ≤ (s.regs.cap m).base + (s.regs.cap m).len ∨
          (t.regs.cap n).base = 0 ∧ (t.regs.cap n).len = 0 ∧ (s.regs.cap m).base + (s.regs.cap m).len = 2 ^ 52)

/-! ### Control registers, time, traps and handlers -/

/-- R34, R37, R119, R120: what `GETC` reads for every number of a thread's own and of its core, and for every record of
another slot that a handler may read; a thread of another tenant shows zeros (R294). -/
def ControlReads : Prop :=
  ∀ (s : State) (d : BitVec 5),
    let get (num : BitVec 9) (x : Word) : Prop := Completes (.getc d num) s [] [d] (s.wrote d x 4)
    let slotWord (t : Slot) (n : Fin 8) : Word :=
      BitVec.ofNat 32 (n.val + 2 ^ 3 * t.gen.toNat + 2 ^ 11 * t.bound.toNat + 2 ^ 14 * t.prio.toNat +
        (if t.lch then 2 ^ 21 else 2 ^ 16 * t.stage.toNat + if t.hcl then 2 ^ 20 else 0))
    get 0x000 s.regs.fcr ∧ get 0x001 s.regs.tst ∧ get 0x002 (BitVec.ofNat 32 s.home) ∧
    get 0x003 (slotWord s.me s.curSlot) ∧ get 0x008 (s.core s.home).orph ∧ get 0x010 s.me.faultPc ∧
    get 0x011 s.me.faultCause ∧ get 0x012 (BitVec.ofNat 32 s.me.faultAddr.toNat) ∧
    get 0x013 (BitVec.ofNat 32 (s.me.faultAddr.toNat / 2 ^ 32)) ∧
    ∀ n : Fin 8, s.me.hcl = true →
      let o := s.slot s.home n
      let see (x : Word) : Word := if o.state ≠ .free ∧ o.tenant ≠ s.me.tenant then 0 else x
      let num (k : Nat) : BitVec 9 := BitVec.ofNat 9 (0x100 + 16 * n.val + k)
      get (num 0) (see o.faultPc) ∧ get (num 1) (see o.faultCause) ∧
      get (num 2) (see (BitVec.ofNat 32 o.faultAddr.toNat)) ∧
      get (num 3) (see (BitVec.ofNat 32 (o.faultAddr.toNat / 2 ^ 32))) ∧ get (num 4) (see (slotWord o n)) ∧
      ((s.core s.home).seqBusy n = false → get (num 5) (see o.regs.tst))

/-- R34, R40, R119, R121: the numbers that `GETC` and `SETC` refuse: one that R34 does not list and a record number above 5
are illegal instructions with detail 0x07, and a record number in a thread that is no handler is a control access fault
with the number as its address. `SETC` of `fcr` with mode 7 is a control value fault, and a write of `orph` by a thread
that is no handler a control access fault. -/
def ControlFaults : Prop :=
  ∀ (s : State) (d a : BitVec 5) (num : BitVec 9),
    let illegal : FaultInfo := ⟨0x01, 0x07, 0, 0⟩
    let access : FaultInfo := ⟨0x0C, 0, num.zeroExtend 64, 0⟩
    let k := num.toNat % 16
    (num.toNat ∉ [0, 1, 2, 3, 8, 0x10, 0x11, 0x12, 0x13] → num.toNat < 0x100 ∨ 0x180 ≤ num.toNat ∨ 5 < k →
      Faults (.getc d num) s [] [d] illegal ∧ Faults (.setc a num) s [a] [] illegal) ∧
    (0x100 ≤ num.toNat → num.toNat < 0x180 → k ≤ 5 → s.me.hcl = false →
      Faults (.getc d num) s [] [d] access ∧ Faults (.setc a num) s [a] [] access) ∧
    ((s.regs.val a).toNat % 8 = 7 → Faults (.setc a 0x000) s [a] [] ⟨0x0D, 0, 0, 0⟩) ∧
    (s.me.hcl = false → Faults (.setc a 0x008) s [a] [] ⟨0x0C, 0, 0x008, 0⟩)

/-- R35, R36, R121: what `SETC` writes: `fcr` with its reserved bits zero, `tst` with the written ones cleared, `orph`
from a handler, the `tst` of a PARKED slot of the handler's tenant; every other number it takes is ignored. -/
def ControlWrites : Prop :=
  ∀ (s : State) (a : BitVec 5),
    let x := s.regs.val a
    let r := s.regs
    let tst (y : Word) : Word := y &&& ~~~(x &&& 0x3F#32)
    let set (num : BitVec 9) (t : State) (q : Regs) : Prop :=
      s.portsReady [a] [] → exec (.setc a num) s = .next (t.completed [a] [] (q.advance 4))
    (x.toNat % 8 ≠ 7 → set 0x000 s { r with fcr := x &&& 0xFFFFFF17#32 }) ∧
    set 0x001 s { r with tst := tst r.tst } ∧
    set 0x002 s r ∧ set 0x003 s r ∧ set 0x010 s r ∧ set 0x011 s r ∧ set 0x012 s r ∧ set 0x013 s r ∧
    (s.me.hcl = true →
      set 0x008 (s.updCore s.home fun k => { k with orph := x }) r ∧
      ∀ n : Fin 8,
        let o := s.slot s.home n
        let num (k : Nat) : BitVec 9 := BitVec.ofNat 9 (0x100 + 16 * n.val + k)
        (∀ k, k ≤ 4 → set (num k) s r) ∧
        (¬(o.state = .parked ∧ o.tenant = s.me.tenant) → set (num 5) s r) ∧
        (o.state = .parked → o.tenant = s.me.tenant → ¬(s.home = s.curCore ∧ n = s.curSlot) →
          set (num 5) (s.setSlot s.home n { o with regs := { o.regs with tst := tst o.regs.tst } }) r))

/-- R34 to R37, R40, R119 to R121: reads and writes of the control registers, and what neither admits. -/
def Obligations.ControlRegisters : Prop := ControlReads ∧ ControlFaults ∧ ControlWrites

/-- R122 to R124: `TIME` reads the package's counter; `TWAIT` faults more than 4,096 ns late, completes within that,
and sleeps when early, at the same instruction; `TRAP` takes its fault with the immediate as the address. -/
def Obligations.TimeAndTrap : Prop :=
  ∀ (s : State) (d a : BitVec 5) (imm : BitVec 14),
    let now := (s.pkg (s.curCore / 2 ^ 15)).ptc.toNat
    let T := s.regs.pair a
    Completes (.time d) s [] [d] (s.wrotePair d (BitVec.ofNat 64 now) 4) ∧
    (T.toNat ≤ now → now ≤ T.toNat + 4096 → Completes (.twait a) s [a] [] (s.regs.advance 4)) ∧
    (T.toNat + 4096 < now → Faults (.twait a) s [a] [] ⟨0x0A, 0, T, 0⟩) ∧
    (now < T.toNat → s.me.state ≠ .follow → s.portsReady [a] [] → exec (.twait a) s =
      .next (s.setSlot s.curCore s.curSlot { s.me with state := .sleep, wait := .deadline T.toNat })) ∧
    exec (.trap imm) s = .next (s.trapMe ⟨0x10, 0, imm.zeroExtend 64, 0⟩)

/-- R38, R44, R291, R292: taking a fault of a thread that has no sequencer entry: the thread is PARKED at the faulting
instruction with its registers and views as they were, and its records hold the address of the instruction, the cause
word and the address; no other slot and no byte of storage changes. -/
def FaultEntry : Prop :=
  ∀ (s : State) (f : FaultInfo), (s.core s.curCore).seqBusy s.curSlot = false →
    let t := s.trapMe f
    let u := t.me
    u.state = .parked ∧ u.faultPc = s.regs.pc ∧ u.faultAddr = f.addr ∧
    u.faultCause = BitVec.ofNat 32 (f.cls.toNat * 2 ^ 24 + f.detail.toNat * 2 ^ 16 +
      (if s.me.gang = 0 then 0 else 8) + f.scope.toNat) ∧
    u.regs = s.regs ∧ u.views = s.me.views ∧ u.gen = s.me.gen ∧ u.wait = .none ∧ u.held = none ∧
    (∀ c n, ¬(c = s.curCore ∧ n = s.curSlot) → t.slot c n = s.slot c n) ∧
    t.mem = s.mem ∧ t.mtags = s.mtags ∧
    ∀ c, (t.core c).loc = (s.core c).loc ∧ (t.core c).ltags = (s.core c).ltags

/-- R292 to R294: where the peg of a fault goes: with the service OS for page and poisoned-data faults, for threads of a
tenant that is not the core's handler tenant and for handler-class threads; otherwise into queue 7, or into the slot
while queue 7 is full or the peg of a lower slot waits. -/
def FaultPegRouting : Prop :=
  ∀ (s : State) (f : FaultInfo), (s.core s.curCore).seqBusy s.curSlot = false →
    let t := s.trapMe f
    let k := s.core s.curCore
    let peg : FaultPeg := ⟨f.addr, s.regs.pc, f.cls, f.detail, decide (s.me.gang ≠ 0), 0, s.me.gen, s.curSlot⟩
    let service := f.cls = 0x04 ∨ f.cls = 0x0F ∨ k.handlerTenant ≠ some s.me.tenant ∨ s.me.hcl = true
    let queue7 (x : State) := ((x.core s.curCore).queue 7).entries
    let full : Prop := 16 ≤ (k.queue 7).entries.length + (k.queue 7).reserved
    let behind : Prop := ∃ m : Fin 8, m < s.curSlot ∧ ∃ p, (k.slot m).peg = some (.slot p)
    (service → t.me.peg = some (.service peg) ∧ queue7 t = queue7 s) ∧
    (¬service → ¬full → ¬behind → t.me.peg = none ∧ queue7 t = queue7 s ++ [⟨peg.words, none⟩]) ∧
    (¬service → full ∨ behind → t.me.peg = some (.slot peg) ∧ queue7 t = queue7 s)

/-- R38, R44, R291 to R294: taking a fault, and where its peg goes. -/
def Obligations.TakingAFault : Prop := FaultEntry ∧ FaultPegRouting

/-- R125 to R127, R294: a handler instruction on a slot of the issuing thread's core. A thread that is no handler faults.
One whose operand names a slot that is not PARKED, another generation or another tenant's thread only moves on. On a
match `FRETRY` makes the slot READY at its faulting instruction, `FRESUME` READY past it, and `FKILL` frees it. -/
def Obligations.HandlerInstructions : Prop :=
  ∀ (s : State) (a : BitVec 5),
    let x := s.regs.val a
    let n : Fin 8 := Fin.ofNat 8 x.toNat
    let g : BitVec 8 := BitVec.ofNat 8 (x.toNat / 8)
    let o := s.slot s.home n
    let on := s.setRegs (s.regs.advance 4)
    let done (t : State) : State := t.completed [a] [] t.regs
    let after (i : Instr) (t : State) : Prop := s.portsReady [a] [] → exec i s = .next (done t)
    (s.me.hcl = false →
      let f : FaultInfo := ⟨0x0C, 0, BitVec.ofNat 64 (0x100 + 16 * n.val), 0⟩
      Faults (.fresume a) s [a] [] f ∧ Faults (.fkill a) s [a] [] f ∧ Faults (.fretry a) s [a] [] f) ∧
    (s.me.hcl = true → o.state ≠ .parked ∨ o.gen ≠ g ∨ o.tenant ≠ s.me.tenant →
      after (.fresume a) on ∧ after (.fkill a) on ∧ after (.fretry a) on) ∧
    (s.me.hcl = true → o.state = .parked → o.gen = g → o.tenant = s.me.tenant → ¬(s.home = s.curCore ∧ n = s.curSlot) →
      let again (pc : Word) : Slot :=
        { o with
          state := .ready, wait := .none, held := none, reply := none, asked := none, wants := none, gone := false
          regs := { o.regs with pc := pc } }
      after (.fretry a) (on.setSlot s.home n (again o.faultPc)) ∧
      (∀ h, s.codeHalf (pkgOf s.home) o o.faultPc = some h → o.faultCause.toNat / 2 ^ 16 ≠ 0x0306 →
        after (.fresume a) (on.setSlot s.home n (again (o.faultPc + if 2 ^ 15 ≤ h.toNat then 4 else 2)))) ∧
      (o.faultCause.toNat / 2 ^ 16 = 0x0306 → after (.fresume a) on) ∧
      (s.portsReady [a] [] → ∃ t, exec (.fkill a) s = .next t ∧ (t.slot s.home n).state = .free))

/-! ### Floating point -/

/-- A scalar floating-point form with two sources completes with an element of its type, its tail and its flags. -/
def FloatResult2 (mk : BitVec 5 → BitVec 5 → BitVec 5 → BitVec 5 → Instr)
    (f : BitVec 5 → FElem → FElem → FElem → FRes) : Prop :=
  ∀ (s : State) (d a b ty : BitVec 5), Completes (mk d a b ty) s [a, b] [d]
    ((s.regs.setRes ty d (f ty (s.regs.elem ty d) (s.regs.elem ty a) (s.regs.elem ty b))).advance 4)

/-- A scalar floating-point form with one source completes with an element of its type, its tail and its flags. -/
def FloatResult1 (mk : BitVec 5 → BitVec 5 → BitVec 5 → Instr) (f : BitVec 5 → FElem → FRes) : Prop :=
  ∀ (s : State) (d a ty : BitVec 5), Completes (mk d a ty) s [a] [d]
    ((s.regs.setRes ty d (f ty (s.regs.elem ty a))).advance 4)

/-- An operand at its extended value (R77, R78). -/
def extendedValue (ty : BitVec 5) (x : FElem) : XVal := (tyOf ty).xval x

/-- An exact result rounded once to the odd form of a type (R81). -/
def roundedOnce (ty : BitVec 5) (x : XRes) : FRes := (fmtOf ty).ro x.val x.flags

/-- The default NaN of a type with flags (R73, R80). -/
def defaultNan (ty : BitVec 5) (flags : BitVec 6) : FRes := ⟨BitVec.ofNat 64 (fmtOf ty).nanEnc, 0, flags⟩

/-- A finite extended value as a rational number (R77). -/
def exactValue : XVal → Option ℚ
  | .fin neg m e => some (if neg then -(m * 2 ^ e) else m * 2 ^ e)
  | _ => none

/-- The unit in the last place of a magnitude in a format (R77). -/
def ulpOf (f : Fmt) (a : ℚ) : ℚ := 2 ^ (max (Int.log 2 a) f.emin - f.fbits)

/-- The overflow point of a format: its largest finite magnitude and one ulp (R79, R82). -/
def overflowOf (f : Fmt) : ℚ := f.ov.1 * 2 ^ f.ov.2

/-- `RO` of a nonzero real magnitude with a sign, in a format with infinities (R79): at or beyond the overflow point the
overflowed infinity, and below it an element whose extended value is the magnitude itself, or an odd number of quarters of
an ulp within less than one quarter of it. -/
def RoundedToOdd (f : Fmt) (neg : Bool) (a : ℝ) (z : FRes) : Prop :=
  ((overflowOf f : ℝ) ≤ a → f.xval z.bits.toNat z.tail = .inf neg true ∧ z.tail = 1) ∧
  (a < (overflowOf f : ℝ) → ∃ n q : Int, 0 ≤ n ∧ f.xval z.bits.toNat z.tail = .fin neg n.toNat q ∧
    q = max (Int.log 2 a) f.emin - f.fbits - 2 ∧
    ((n : ℝ) * 2 ^ q = a ∨ (n % 2 = 1 ∧ |(n : ℝ) * 2 ^ q - a| < 2 ^ q)))

/-- R77 to R81, R133: finite operands. Sum, difference, product and fused product-sum are exact, an exact zero with the sign
of R80; a quotient by a nonzero value and a root of a positive one are rounded once, to the odd form of the exact real
number; the corners raise `nv` or `dz`. -/
def ExactArithmetic : Prop :=
  ∀ (x y z : XVal) (a b c : ℚ), exactValue x = some a → exactValue y = some b → exactValue z = some c →
    let gives (r : XRes) (zero : Bool) (v : ℚ) : Prop := r.flags = 0 ∧ exactValue r.val = some v ∧ (v = 0 → r.val.neg = zero)
    let sign := x.neg != y.neg
    gives (xAdd x y) (x.neg && y.neg) (a + b) ∧
    gives (xAdd x y.negate) (x.neg && !y.neg) (a - b) ∧
    gives (xMul x y) sign (a * b) ∧
    gives (xFma x y z) (sign && z.neg) (a * b + c) ∧
    (b = 0 → xDiv x y = if a = 0 then ⟨.nan, fNV⟩ else ⟨.inf sign false, fDZ⟩) ∧
    (b ≠ 0 → a = 0 → gives (xDiv x y) sign 0) ∧
    (a = 0 → gives (xSqrt x) x.neg 0) ∧
    (a < 0 → xSqrt x = ⟨.nan, fNV⟩) ∧
    ∀ ty : BitVec 5, tg1 ty = true →
      let once (r : XRes) (neg : Bool) (m : ℝ) : Prop := r.flags = 0 ∧ RoundedToOdd (fmtOf ty) neg m (roundedOnce ty r)
      (a ≠ 0 → b ≠ 0 → once (xDiv x y) sign (|a / b| : ℚ)) ∧ (0 < a → once (xSqrt x) false (Real.sqrt a))

/-- R80, R133: operands that are not finite. A NaN gives NaN; an infinite result is exact where an exact infinity
determines it; what is invalid raises `nv`. -/
def SpecialOperands : Prop :=
  ∀ (n n' o o' : Bool) (m : Nat) (e : Int) (x y : XVal),
    let i : XVal := .inf n o
    let j : XVal := .inf n' o'
    let v : XVal := .fin n' m e
    let sign := n != n'
    let invalid : XRes := ⟨.nan, fNV⟩
    xAdd i j = (if n = n' then ⟨.inf n (o && o'), 0⟩ else if o = o' then invalid else ⟨if o then j else i, 0⟩) ∧
    xAdd i v = ⟨i, 0⟩ ∧ xAdd v i = ⟨i, 0⟩ ∧
    xMul i j = ⟨.inf sign (o && o'), 0⟩ ∧
    xMul i v = (if m = 0 then invalid else ⟨.inf sign o, 0⟩) ∧ xMul v i = xMul i v ∧
    xDiv i j = (if o = o' then invalid else if o' then ⟨.inf sign false, 0⟩ else ⟨.fin sign 0 0, 0⟩) ∧
    xDiv i v = ⟨.inf sign o, 0⟩ ∧
    xSqrt i = (if n then invalid else ⟨i, 0⟩) ∧
    xAdd .nan x = ⟨.nan, 0⟩ ∧ xAdd x .nan = ⟨.nan, 0⟩ ∧ xMul .nan x = ⟨.nan, 0⟩ ∧ xMul x .nan = ⟨.nan, 0⟩ ∧
    xDiv .nan x = ⟨.nan, 0⟩ ∧ xDiv x .nan = ⟨.nan, 0⟩ ∧ xSqrt .nan = ⟨.nan, 0⟩ ∧
    (xFma x y .nan).val = .nan ∧
    xFma x y i = ⟨(xAdd (xMul x y).val i).val, (xMul x y).flags ||| (xAdd (xMul x y).val i).flags⟩ ∧
    xFma i y v = ⟨(xMul i y).val, (xMul i y).flags⟩ ∧ xFma y i v = ⟨(xMul y i).val, (xMul y i).flags⟩ ∧
    ∀ ty : BitVec 5, tg1 ty = true → roundedOnce ty (xDiv v i) =
      ⟨(fmtOf ty).signed sign 0, if o = true ∧ m ≠ 0 then 1 else 0, 0⟩

/-- The class word of an element (R137): the element's value without its tail decides among the finite classes. -/
def classOf (ty : BitVec 5) (x : FElem) : Nat :=
  match extendedValue ty x with
  | .nan => 2 ^ 8
  | .inf n o => 2 ^ if n then (if o then 9 else 0) else if o then 10 else 7
  | .fin n m e =>
    let a : ℚ := (m / 4 : Nat) * 2 ^ (e + 2)
    2 ^ (if a = 0 then (if n then 3 else 4) else if a < 2 ^ (fmtOf ty).emin then (if n then 2 else 5)
      else if n then 1 else 6) + if x.tail = 0 then 0 else 2 ^ 11

/-- One of two operands with its tail: the second where `takeB` says so, the other one where one is a NaN (R134). -/
def oneOf (ty : BitVec 5) (a b : FElem) (takeB : Bool) : FRes :=
  let keep (x : FElem) : FRes := ⟨BitVec.ofNat 64 (x.bits.toNat % 2 ^ (fmtOf ty).width), x.tail, 0⟩
  if extendedValue ty a = .nan then (if extendedValue ty b = .nan then defaultNan ty 0 else keep b)
  else if extendedValue ty b = .nan then keep a else if takeB then keep b else keep a

/-- An operand with the sign bit given and its tail; a NaN gives the default NaN (R134). -/
def withSign (ty : BitVec 5) (a : FElem) (neg : Bool) : FRes :=
  if extendedValue ty a = .nan then defaultNan ty 0
  else ⟨BitVec.ofNat 64 (a.bits.toNat % (fmtOf ty).signBit + if neg then (fmtOf ty).signBit else 0), a.tail, 0⟩

/-- The sign that `FNEG` gives an operand: the other one. -/
def otherSign (ty : BitVec 5) (a : FElem) : Bool := a.bits.toNat % 2 ^ (fmtOf ty).width < (fmtOf ty).signBit

/-- R78, R81, R133: arithmetic takes each operand at its extended value, forms the exact result and rounds it once to the
odd form of its type; `fcr` is not read. -/
def FloatArithmetic : Prop :=
  let v := extendedValue
  let once := roundedOnce
  FloatResult2 .fadd (fun ty _ a b => once ty (xAdd (v ty a) (v ty b))) ∧
  FloatResult2 .fsub (fun ty _ a b => once ty (xAdd (v ty a) (v ty b).negate)) ∧
  FloatResult2 .fmul (fun ty _ a b => once ty (xMul (v ty a) (v ty b))) ∧
  FloatResult2 .fdiv (fun ty _ a b => once ty (xDiv (v ty a) (v ty b))) ∧
  FloatResult2 .ffma (fun ty d a b => once ty (xFma (v ty a) (v ty b) (v ty d))) ∧
  FloatResult1 .fsqrt (fun ty a => once ty (xSqrt (v ty a))) ∧
  (∀ (s : State) (a b : BitVec 5),
    Completes (.faddShort a b) s [a, b] [a]
      ((s.regs.setRes 9 a (once 9 (xAdd (v 9 (s.regs.elem 9 a)) (v 9 (s.regs.elem 9 b))))).advance 2) ∧
    Completes (.fmulShort a b) s [a, b] [a]
      ((s.regs.setRes 9 a (once 9 (xMul (v 9 (s.regs.elem 9 a)) (v 9 (s.regs.elem 9 b))))).advance 2))

/-- R134 to R137: `FMIN` and `FMAX` give one of the operands with its tail, the other where one is a NaN; `FABS` and
`FNEG` change the sign bit alone and keep the tail, a NaN giving the default NaN; `FCMP` and `FCLASS` write an integer
code with tail 00 and raise nothing. -/
def FloatSelection : Prop :=
  let v := extendedValue
  let code (s : State) (d ty : BitVec 5) (n : Nat) : Regs :=
    (if wide ty then s.regs.setPair d (BitVec.ofNat 64 n) else s.regs.setVal d (BitVec.ofNat 32 n)).advance 4
  (∀ (s : State) (d a b ty : BitVec 5), tg1 ty = true →
    let x := s.regs.elem ty a
    let y := s.regs.elem ty b
    let done (i : Instr) (z : FRes) : Prop := Completes i s [a, b] [d] ((s.regs.setRes ty d z).advance 4)
    done (.fmin d a b ty) (oneOf ty x y (xLt (v ty y) (v ty x))) ∧
    done (.fmax d a b ty) (oneOf ty x y (xLt (v ty x) (v ty y))) ∧
    Completes (.fcmp d a b ty) s [a, b] [d] (code s d ty
      (if v ty x = .nan ∨ v ty y = .nan then 8
       else if (v ty x).isZero ∧ (v ty y).isZero then 1
       else if xLt (v ty x) (v ty y) then 2 else if xLt (v ty y) (v ty x) then 4 else 1))) ∧
  (∀ (s : State) (d a ty : BitVec 5), tg1 ty = true →
    let x := s.regs.elem ty a
    let done (i : Instr) (z : FRes) : Prop := Completes i s [a] [d] ((s.regs.setRes ty d z).advance 4)
    done (.fabs d a ty) (withSign ty x false) ∧
    done (.fneg d a ty) (withSign ty x (otherSign ty x)) ∧
    Completes (.fclass d a ty) s [a] [d] (code s d ty (classOf ty x)))

/-- R77 to R81, R133 to R137: arithmetic of one rounding, exact on rational numbers before it, and what selects among its
operands. -/
def Obligations.FloatArithmeticAndSelection : Prop :=
  FloatArithmetic ∧ ExactArithmetic ∧ SpecialOperands ∧ FloatSelection

/-- An extended value is finite, with a sign and a magnitude. -/
def hasMagnitude (x : XVal) (neg : Bool) (a : ℚ) : Prop :=
  match x with
  | .fin n m e => n = neg ∧ (m : ℚ) * 2 ^ e = a
  | _ => False

/-- Final rounding of a magnitude that is `x` units of a grid, one unit between neighbours and the parity of a point that
of its last significand bit (R82). -/
def picked (mode : Mode) (neg : Bool) (draw : Nat) (x : ℚ) : Int :=
  let n := ⌊x⌋
  let d := x - n
  let f := ⌊d * 2 ^ 16⌋
  let frac := if (f : ℚ) = d * 2 ^ 16 ∨ f % 2 = 1 then f else f + 1
  if d = 0 then n
  else match mode with
    | .rne => if d < 1 / 2 ∨ (d = 1 / 2 ∧ n % 2 = 0) then n else n + 1
    | .rna => if d < 1 / 2 then n else n + 1
    | .rtz => n
    | .rup => if neg then n else n + 1
    | .rdn => if neg then n + 1 else n
    | .sr => if 2 ^ 16 ≤ frac + draw then n + 1 else n
    | .keepOdd => if n % 2 = 1 then n else n + 1

/-- `FINAL` to a floating-point format (R82 to R84); `dropped` is a tail of 01 or 11. -/
def FloatFinal (f : Fmt) (mode : Mode) (ftz : Bool) (draw : Nat) (dropped : Bool) (v : XVal) (z : FRes) : Prop :=
  let toM (neg : Bool) : Bool := mode = .rtz || mode = .keepOdd || (mode = .rdn && !neg) || (mode = .rup && neg)
  let beyond (neg down : Bool) : DWord := f.signed neg (if down || !f.hasInf then f.maxEnc else f.infEnc)
  match v with
  | .nan => z = if f.hasNan then ⟨BitVec.ofNat 64 f.nanEnc, 0, 0⟩ else ⟨0, 0, fNV⟩
  | .inf neg false => z = ⟨beyond neg false, 0, if f.hasInf then 0 else fOF ||| fNX⟩
  | .inf neg true => z = ⟨beyond neg (toM neg), 0, fOF ||| fNX⟩
  | .fin neg m e =>
    let a : ℚ := m * 2 ^ e
    let small : ℚ := 2 ^ f.emin
    let r := if overflowOf f ≤ a then overflowOf f else picked mode neg draw (a / ulpOf f a) * ulpOf f a
    let flush := ftz = true ∧ 0 < r ∧ r < small
    let nx := r ≠ a ∨ r = overflowOf f ∨ flush ∨ dropped = true
    z.tail = 0 ∧
    (if r = overflowOf f then z.bits = beyond neg (overflowOf f ≤ a && toM neg)
     else z.bits.toNat < 2 ^ f.width ∧ hasMagnitude (f.xval z.bits.toNat 0) neg (if flush then 0 else r)) ∧
    z.flags = (if nx then fNX else 0) ||| (if r = overflowOf f then fOF else 0) |||
      (if flush ∨ (0 < a ∧ a < small ∧ nx) then fUF else 0)

/-- `FINAL` to an integer format (R85). -/
def IntegerFinal (signed : Bool) (w : Nat) (mode : Mode) (draw : Nat) (dropped : Bool) (v : XVal) (z : FRes) : Prop :=
  let hi : Int := if signed then 2 ^ (w - 1) - 1 else 2 ^ w - 1
  let lo : Int := if signed then -(2 ^ (w - 1)) else 0
  let bits (x : Int) : DWord := BitVec.ofInt 64 (x % 2 ^ w)
  match v with
  | .nan => z = ⟨0, 0, fNV⟩
  | .inf neg _ => z = ⟨bits (if neg then lo else hi), 0, fNV⟩
  | .fin neg m e =>
    let a : ℚ := m * 2 ^ e
    let k := picked mode neg draw a
    let x := if neg then -k else k
    z = if neg ∧ 0 < a ∧ k = 0 then ⟨0, 0, fUF ||| fNX⟩
      else if x < lo then ⟨bits lo, 0, fNV⟩
      else if hi < x then ⟨bits hi, 0, fNV⟩
      else ⟨bits x, 0, if (k : ℚ) ≠ a ∨ dropped = true then fNX else 0⟩

/-- `FINAL` to `.e8m0` (R86): in encodings, a magnitude lies in its binade as far above the binade's encoding as in
units of the binade. -/
def ScaleFinal (mode : Mode) (draw : Nat) (dropped : Bool) (v : XVal) (z : FRes) : Prop :=
  match v with
  | .nan => z = ⟨0xFF, 0, fNV⟩
  | .inf neg _ => z = if neg then ⟨0xFF, 0, fNV⟩ else ⟨0xFE, 0, fOF ||| fNX⟩
  | .fin neg m e =>
    let a : ℚ := m * 2 ^ e
    let j := Int.log 2 a
    let k := picked mode false draw (a / 2 ^ j + (j + 126 : Int))
    z = if neg ∨ a = 0 then ⟨0xFF, 0, fNV⟩
      else if a < 2 ^ (-127 : Int) then ⟨0, 0, fUF ||| fNX⟩
      else if 2 ^ 128 ≤ a ∨ 254 < k then ⟨0xFE, 0, fOF ||| fNX⟩
      else ⟨BitVec.ofInt 64 k, 0, if a ≠ 2 ^ j ∨ dropped = true then fNX else 0⟩

/-- A number of quarters rounded to odd (R79, R87). -/
def toOdd (x : ℚ) : Int := if (⌊x⌋ : ℚ) = x ∨ ⌊x⌋ % 2 = 1 then ⌊x⌋ else ⌊x⌋ + 1

/-- `CVT` to a floating-point format (R87): rounded to odd on the grid two bits finer than the format's. -/
def FloatConversion (f : Fmt) (v : XVal) (z : FRes) : Prop :=
  let beyond (neg : Bool) : FRes := if f.hasInf then ⟨f.signed neg f.infEnc, 1, 0⟩ else ⟨f.signed neg f.maxEnc, 3, 0⟩
  match v with
  | .nan => z = if f.hasNan then ⟨BitVec.ofNat 64 f.nanEnc, 0, 0⟩ else ⟨0, 0, fNV⟩
  | .inf neg false =>
    z = if f.hasInf then ⟨f.signed neg f.infEnc, 0, 0⟩ else ⟨f.signed neg f.maxEnc, 0, fOF ||| fNX⟩
  | .inf neg true => z = beyond neg
  | .fin neg m e =>
    let a : ℚ := m * 2 ^ e
    if overflowOf f ≤ a then z = beyond neg
    else z.flags = 0 ∧ z.bits.toNat < 2 ^ f.width ∧
      hasMagnitude (f.xval z.bits.toNat z.tail) neg (toOdd (4 * a / ulpOf f a) * (ulpOf f a / 4))

/-- `CVT` to an integer format (R87): the integer part as the element and two fraction bits, rounded to odd, as its tail;
what cannot be held so is `FINAL` under RTZ. -/
def IntegerConversion (signed : Bool) (w : Nat) (v : XVal) (z : FRes) : Prop :=
  let hi : Int := if signed then 2 ^ (w - 1) - 1 else 2 ^ w - 1
  let lo : Int := if signed then -(2 ^ (w - 1)) else 0
  match v with
  | .fin neg m e =>
    let a : ℚ := m * 2 ^ e
    let n := toOdd (4 * a)
    let x := if neg then -(n / 4) else n / 4
    if a = 0 then z = ⟨0, 0, 0⟩
    else if x < lo ∨ hi < x ∨ (neg ∧ x = 0) then IntegerFinal signed w .rtz 0 false v z
    else z = ⟨BitVec.ofInt 64 (x % 2 ^ w), BitVec.ofInt 2 n, 0⟩
  | _ => IntegerFinal signed w .rtz 0 false v z

/-- `CVT` to `.e8m0` (R79, R87, R139): rounded to odd on the powers of two; what R86 maps with a flag is as R86 says,
except an overflowed positive infinity (entry 60). -/
def ScaleConversion (v : XVal) (z : FRes) : Prop :=
  match v with
  | .inf false true => z = ⟨0xFE, 3, 0⟩
  | .fin false m e =>
    let a : ℚ := m * 2 ^ e
    let j := Int.log 2 a
    if a < 2 ^ (-127 : Int) then ScaleFinal .rtz 0 false v z
    else if 2 ^ 128 ≤ a then z = ⟨0xFE, 3, 0⟩
    else z = ⟨BitVec.ofInt 64 (j + 127), BitVec.ofInt 2 (toOdd (4 * a / 2 ^ j)), 0⟩
  | _ => ScaleFinal .rtz 0 false v z

/-- `FRND` (R139): `FINAL` on the values of the format that are integers. -/
def IntegralRounding (f : Fmt) (mode : Mode) (draw : Nat) (x : FElem) (z : FRes) : Prop :=
  match f.xval x.bits.toNat x.tail with
  | .fin neg m e =>
    let a : ℚ := m * 2 ^ e
    let top := ⌊overflowOf f - 2 ^ f.ov.2⌋
    let k := picked mode neg draw a
    let nx := (k : ℚ) ≠ a ∨ stkOf x.tail = true ∨ top < k
    z.tail = 0 ∧
    if 2 ^ (f.p - 1) ≤ a then z.bits = BitVec.ofNat 64 (x.bits.toNat % 2 ^ f.width) ∧ z.flags = if x.tail = 0 then 0 else fNX
    else z.bits.toNat < 2 ^ f.width ∧ hasMagnitude (f.xval z.bits.toNat 0) neg (min k top : Int) ∧
      z.flags = (if nx then fNX else 0) ||| (if top < k then fOF else 0) |||
        (if 0 < a ∧ a < 2 ^ f.emin ∧ nx then fUF else 0)
  | v => FloatFinal f mode false draw (stkOf x.tail) v z

/-- SR's draw of 16 bits from the seed of `fcr`, an index and a salt (R97, R99). -/
def drawOf (fcr index : Word) (salt : Nat) : Nat :=
  (kg (BitVec.ofNat 32 (fcr.toNat / 2 ^ 8)) index (BitVec.ofNat 32 salt)).toNat % 2 ^ 16

/-- SR's draw for an element of a type that is rounded to another type at a position (R99; a narrow integer's index is its
own bits alone, entry 62). -/
def elementDraw (t ty : BitVec 5) (fcr : Word) (pos : Nat) (x : FElem) : Nat :=
  let w := (tyOf t).width
  drawOf fcr (if w = 64 then x.bits.setWidth 32 ^^^ x.bits.extractLsb' 32 32 else BitVec.ofNat 32 (x.bits.toNat % 2 ^ w))
    (x.tail.toNat * 2 ^ 16 + ty.toNat * 2 ^ 8 + pos)

/-- R82 to R87, R99, R139: `CVT`, `CVTF` and `FRND` complete with a conversion of their operand. A conversion to the
operand's own type keeps value and tail; to any other type `CVT` rounds to odd, and `CVTF` rounds by `FINAL` under the
mode of `fcr`, with SR's draw from seed, operand, tail, type and position. What `FRND` makes of a large element with a
tail, and of one that rounds beyond the greatest integer of its type, is entries 27 and 28. -/
def Conversions : Prop :=
  (∀ (s : State) (d a t ty : BitVec 5),
    let x := s.regs.elem t a
    let done (i : Instr) (z : FRes) : Prop := Completes i s [a] [d] ((s.regs.setRes ty d z).advance 4)
    done (.cvt d a t ty) (elCvt t ty x) ∧ done (.cvtf d a t ty) (elCvtf t ty s.regs.fcr 0 x) ∧
    (t = ty → done (.frnd d a t ty) (elFrnd ty s.regs.fcr 0 x))) ∧
  ∀ (t ty : BitVec 5) (fcr : Word) (pos : Nat) (x : FElem), tg3 t = true → tg3 ty = true →
    let v := extendedValue t x
    let draw := elementDraw t ty fcr pos x
    let dropped := stkOf x.tail
    (t = ty → elCvt t ty x = ⟨BitVec.ofNat 64 (x.bits.toNat % 2 ^ (tyOf t).width), x.tail, 0⟩) ∧
    match tyOf ty with
    | .flt f => (t ≠ ty → FloatConversion f v (elCvt t ty x)) ∧
      FloatFinal f (modeOf fcr) (ftzOf fcr) draw dropped v (elCvtf t ty fcr pos x) ∧
      (t = ty → IntegralRounding f (modeOf fcr) draw x (elFrnd ty fcr pos x))
    | .int sg n => (t ≠ ty → IntegerConversion sg n v (elCvt t ty x)) ∧
      IntegerFinal sg n (modeOf fcr) draw dropped v (elCvtf t ty fcr pos x)
    | .scale => (t ≠ ty → ScaleConversion v (elCvt t ty x)) ∧
      ScaleFinal (modeOf fcr) draw dropped v (elCvtf t ty fcr pos x)
    | .none => True

/-- What R138's table makes of an operand: its special operands and its exact cases. Elsewhere the result is the odd form
of a value without a flag, which for `FRCP` and `FRSQ` lies within one ulp of the function. -/
def SpecialRule (fn : SpecialFn) (ty : BitVec 5) (v : XVal) (z : FRes) : Prop :=
  let f := fmtOf ty
  let zero (neg ovf : Bool) : FRes := ⟨f.signed neg 0, if ovf then 1 else 0, 0⟩
  let infinite (neg ovf : Bool) (flags : BitVec 6) : FRes := ⟨f.signed neg f.infEnc, if ovf then 1 else 0, flags⟩
  let odd (neg : Bool) (m : Nat) (e : Int) : FRes := f.ro (.fin neg m e) 0
  let near (y r : ℝ) : Prop := |y - r| ≤ (2 : ℝ) ^ (max (Int.log 2 r) f.emin - f.fbits)
  match v with
  | .nan => z = defaultNan ty 0
  | .inf n o => z = match fn with
    | .rcp => zero n o
    | .rsq => if n then defaultNan ty fNV else zero false o
    | .exp2 => if n then zero false o else infinite false o 0
    | .log2 => if n then defaultNan ty fNV else infinite false o 0
    | .sin | .cos => defaultNan ty fNV
  | .fin n m e =>
    let a : ℚ := m * 2 ^ e
    let x : ℚ := if n then -a else a
    match fn with
    | .rcp => if a = 0 then z = infinite n false fDZ
      else ∃ (k : Nat) (q : Int), z = odd n k q ∧ near (k * 2 ^ q) (a⁻¹ : ℚ) ∧
        ((∃ j : Int, a = 2 ^ j) → (k : ℚ) * 2 ^ q = a⁻¹)
    | .rsq => if a = 0 then z = infinite n false fDZ
      else if n then z = defaultNan ty fNV
      else ∃ (k : Nat) (q : Int), z = odd false k q ∧ near (k * 2 ^ q) (Real.sqrt a)⁻¹ ∧
        ∀ j : Int, a = 4 ^ j → (k : ℚ) * 2 ^ q = 2 ^ (-j)
    | .exp2 => (∃ neg k q, z = odd neg k q) ∧ ∀ i : Int, x = i → z = odd false 1 i
    | .log2 => if a = 0 then z = infinite true false fDZ
      else if n then z = defaultNan ty fNV
      else (∃ neg k q, z = odd neg k q) ∧ ∀ i : Int, a = 2 ^ i → z = odd (i < 0) i.natAbs 0
    | .sin => (∃ neg k q, z = odd neg k q) ∧ ∀ i : Nat, (a = i → z = zero n false) ∧
        (a = i + 1 / 2 → z = odd (n != (i % 2 == 1)) 1 0)
    | .cos => (∃ neg k q, z = odd neg k q) ∧ ∀ i : Nat, (a = i → z = odd (i % 2 == 1) 1 0) ∧
        (a = i + 1 / 2 → z = zero false false)

/-- R138: the special functions complete with a function of their type and operand, equal for equal operands, that is as
R138's table says. The bound of one ulp is stated for `FRCP` and `FRSQ`; where the others are inexact, the place within
it is a free value of the model (entry 20). -/
def SpecialFunctions : Prop :=
  ∃ F : SpecialFn → BitVec 5 → Nat → BitVec 2 → FRes,
    let of (fn : SpecialFn) (ty : BitVec 5) (x : FElem) : FRes := F fn ty (x.bits.toNat % 2 ^ (fmtOf ty).width) x.tail
    (∀ (s : State) (d a ty : BitVec 5), tg2 ty = true →
      let done (i : Instr) (fn : SpecialFn) : Prop :=
        Completes i s [a] [d] ((s.regs.setRes ty d (of fn ty (s.regs.elem ty a))).advance 4)
      done (.frcp d a ty) .rcp ∧ done (.frsq d a ty) .rsq ∧ done (.fexp2 d a ty) .exp2 ∧ done (.flog2 d a ty) .log2 ∧
      done (.fsin d a ty) .sin ∧ done (.fcos d a ty) .cos) ∧
    (∀ (s : State) (d a ty : BitVec 5) (k : BitVec 3), tg2 ty = true →
      let r := s.regs
      let done (i : Instr) (fn : SpecialFn) : Prop := Completes i s [] []
        ((r.setVecRes ty d (r.mask k) fun j => of fn ty (vecElem ty (r.vec a) j)).advance 4)
      done (.frcpV d a ty k) .rcp ∧ done (.frsqV d a ty k) .rsq ∧ done (.fexp2V d a ty k) .exp2 ∧
      done (.flog2V d a ty k) .log2 ∧ done (.fsinV d a ty k) .sin ∧ done (.fcosV d a ty k) .cos) ∧
    ∀ (fn : SpecialFn) (ty : BitVec 5) (x : FElem), tg2 ty = true → SpecialRule fn ty (extendedValue ty x) (of fn ty x)

/-- R141, R146: the tail instructions and `RNDK` complete; `KG` is R97's, under the seed of `fcr`. -/
def TailsAndKeys : Prop :=
  ∀ (s : State) (d a b : BitVec 5),
    Completes (.tailget d a) s [a] [d] (s.wrote d ((s.regs.get a).tail.zeroExtend 32) 4) ∧
    Completes (.tailset d a b) s [a, b] [d]
      ((s.regs.put d ⟨s.regs.val a, BitVec.ofNat 2 (s.regs.val b).toNat⟩).advance 4) ∧
    Completes (.rndk d a b) s [a, b] [d]
      (let k := BitVec.ofNat 32 (s.regs.fcr.toNat / 2 ^ 8) ^^^ (s.regs.val b).rotateLeft 16
       let round (x k : Word) : Word := let y := (x ^^^ k) * 0x01000193#32; y ^^^ y.rotateLeft 13
       s.wrote d (round (round (s.regs.val a) k) (k + 0x9E3779B9#32)) 4)

/-- R82 to R87, R97, R99, R138, R139, R141, R146: conversions, special functions, the tail instructions and `RNDK`. The
clauses on `FRND` of large elements rest on entries 27 and 28, those on SR's index of a narrow integer on entry 62. -/
def Obligations.FloatConversions : Prop := Conversions ∧ SpecialFunctions ∧ TailsAndKeys

/-- R79, R80, R81: rounding to odd. A finite nonzero magnitude `m * 2^e` below the overflow point becomes an element whose
extended value has the sign and lies on the grid of quarter ulps: it is the magnitude itself, or an odd number of quarters
within less than one quarter of it. At or beyond the overflow point it becomes the overflowed infinity, with tail 01. -/
def Obligations.RoundingToOdd : Prop :=
  ∀ f ∈ [fmtF64, fmtF32, fmtBf16, fmtF16], ∀ (neg : Bool) (m : Nat) (e : Int) (fl : BitVec 6), 0 < m →
    let x := f.ro (.fin neg m e) fl
    x.flags = fl ∧
    (magLe f.ov.1 f.ov.2 m e = true → f.xval x.bits.toNat x.tail = .inf neg true ∧ x.tail = 1) ∧
    (magLe f.ov.1 f.ov.2 m e = false →
      ∃ n q : Int, 0 ≤ n ∧ f.xval x.bits.toNat x.tail = .fin neg n.toNat q ∧
        q = max ((Nat.log2 m : Int) + e) f.emin - f.fbits - 2 ∧
        ((n : ℚ) * 2 ^ q = m * 2 ^ e ∨ (n % 2 = 1 ∧ |(n : ℚ) * 2 ^ q - m * 2 ^ e| < 2 ^ q)))

/-! ### Vector instructions -/

/-- A vector instruction of a thread outside a gang that reads no scalar completes with the registers given. -/
def VectorResult (i : State → Instr) (r : Regs → Regs) : Prop :=
  ∀ s : State, Completes (i s) s [] [] ((r s.regs).advance 4)

/-- R22, R23, R130, R133, R134, R137: an elementwise instruction writes each enabled element of its type with what the
scalar instruction makes of the elements of the same index, and raises the union of their flags. The special functions'
vector forms are with the scalar ones. -/
def VectorElementwise : Prop :=
  ∀ (s : State) (d a b ty : BitVec 5) (k : BitVec 3), tg1 ty = true →
    let r := s.regs
    let x (i : Nat) : FElem := vecElem ty (r.vec a) i
    let y (i : Nat) : FElem := vecElem ty (r.vec b) i
    let v (x : FElem) : XVal := extendedValue ty x
    let once := roundedOnce ty
    let done (i : Instr) (f : Nat → FRes) : Prop := Completes i s [] [] ((r.setVecRes ty d (r.mask k) f).advance 4)
    done (.faddV d a b ty k) (fun i => once (xAdd (v (x i)) (v (y i)))) ∧
    done (.fsubV d a b ty k) (fun i => once (xAdd (v (x i)) (v (y i)).negate)) ∧
    done (.fmulV d a b ty k) (fun i => once (xMul (v (x i)) (v (y i)))) ∧
    done (.fdivV d a b ty k) (fun i => once (xDiv (v (x i)) (v (y i)))) ∧
    done (.ffmaV d a b ty k) (fun i => once (xFma (v (x i)) (v (y i)) (v (vecElem ty (r.vec d) i)))) ∧
    done (.fsqrtV d a ty k) (fun i => once (xSqrt (v (x i)))) ∧
    done (.fminV d a b ty k) (fun i => oneOf ty (x i) (y i) (xLt (v (y i)) (v (x i)))) ∧
    done (.fmaxV d a b ty k) (fun i => oneOf ty (x i) (y i) (xLt (v (x i)) (v (y i)))) ∧
    done (.fabsV d a ty k) (fun i => withSign ty (x i) false) ∧
    done (.fnegV d a ty k) (fun i => withSign ty (x i) (otherSign ty (x i))) ∧
    done (.fclassV d a ty k) (fun i => ⟨BitVec.ofNat 64 (classOf ty (x i)), 0, 0⟩)

/-- R136, R139, R140: vector compares and conversions. A compare sets or clears the mask bit of each enabled element and
leaves the others. A conversion pairs elements by index; one between a 64-bit and a narrower type covers four of them. -/
def VectorConversions : Prop :=
  ∀ (s : State) (d a b t ty : BitVec 5) (k kd : BitVec 3) (p : BitVec 2),
    let r := s.regs
    let m := r.mask k
    let four : BitVec 8 := if wide t && !wide ty then m &&& 0x0F else m
    let c (i : Nat) : Nat := elCmp ty (vecElem ty (r.vec a) i) (vecElem ty (r.vec b) i)
    let holds (i : Nat) : Bool := match p.toNat with
      | 0 => c i == 1
      | 1 => c i == 2
      | 2 => c i == 1 || c i == 2
      | _ => c i == 8
    Completes (.cvtV d a t ty k) s [] []
      ((r.setVecRes ty d four (fun i => elCvt t ty (vecElem t (r.vec a) i))).advance 4) ∧
    Completes (.cvtfV d a t ty k) s [] []
      ((r.setVecRes ty d four (fun i => elCvtf t ty r.fcr i (vecElem t (r.vec a) i))).advance 4) ∧
    Completes (.frndV d a t ty k) s [] []
      ((r.setVecRes ty d m (fun i => elFrnd ty r.fcr i (vecElem ty (r.vec a) i))).advance 4) ∧
    ∃ q : BitVec 8, Completes (.fcmpV p kd a b ty k) s [] [] ((r.setMask kd q).advance 4) ∧
      ∀ i, i < 8 → q.getLsbD i = if m.getLsbD i ∧ i < lanesOf ty then holds i else (r.mask kd).getLsbD i

/-- Lane `i` of a member of a group of cores after a rotation by an amount of the ring that the register `a` of the same
slot of every member makes, in member order (R142). -/
def ringLaneOf (s : State) (first size member : Nat) (slot : Fin 8) (a : BitVec 5) (amount : Nat) (i : Fin 8) : Elem :=
  let j := (8 * member + i.val + (8 * size - amount % (8 * size))) % (8 * size)
  (s.slot (first + j / 8) slot).regs.lane a (Fin.ofNat 8 j)

/-- R141, R142, R145, R146, R152: the instructions that move lanes whole: an enabled lane receives what the instruction
gives it, tail included, and a disabled one stays. In a gang `VROT` rotates the ring of all members by the leader's
amount, and `VIDX` counts on from member to member; a thread outside a gang is the one member of its own. -/
def VectorLaneMoves : Prop :=
  ∀ (s : State) (d a b ty : BitVec 5) (k : BitVec 3),
    let r := s.regs
    let size := max 1 s.me.gang
    let first := s.curCore / size * size
    let member := s.curCore % size
    let led := (s.slot first s.curSlot).regs
    let lanes (m : BitVec 8) (f : Fin 8 → Elem) : Regs :=
      (r.setVec d (Vector.ofFn fun i => if m.getLsbD i.val then f i else r.lane d i)).advance 4
    let m := r.mask k
    Completes (.tailgetV d a k) s [] [] (lanes m fun i => ⟨(r.lane a i).tail.zeroExtend 32, 0⟩) ∧
    Completes (.tailsetV d a b k) s [] [] (lanes m fun i => ⟨(r.lane a i).val, BitVec.ofNat 2 (r.lane b i).val.toNat⟩) ∧
    Completes (.vshuf d a b k) s [] [] (lanes m fun i => r.lane a (Fin.ofNat 8 (r.lane b i).val.toNat)) ∧
    Completes (.vrot d a b k) s [b] []
      (lanes m fun i => ringLaneOf s first size member s.curSlot a (led.val b).toNat i) ∧
    Completes (.vbcast d a k) s [a] [] (lanes m fun _ => r.get a) ∧
    Completes (.vsel d a b k) s [] []
      ((r.setVec d (Vector.ofFn fun i => if m.getLsbD i.val then r.lane a i else r.lane b i)).advance 4) ∧
    Completes (.vidx d a k) s [a] [] (lanes m fun i => ⟨r.val a + BitVec.ofNat 32 (8 * member + i.val), 0⟩) ∧
    Completes (.rndkV d a b k) s [b] []
      (lanes m fun i => ⟨kg (BitVec.ofNat 32 (r.fcr.toNat / 2 ^ 8)) (r.lane a i).val (r.val b), 0⟩) ∧
    Completes (.vlut d a ty k) s [] [] (lanes m fun i =>
      let c := (r.lane a 0).val.toNat / 2 ^ (4 * i.val) % 16
      let e := (r.lane d (Fin.ofNat 8 (c / 2))).val.toNat / 2 ^ (16 * (c % 2)) % 2 ^ 16
      ⟨BitVec.ofNat 32 (elCvt 10 9 ⟨BitVec.ofNat 64 e, 0⟩).bits.toNat, 0⟩)

/-- R142, R147, R154: a `VROT` of a gang that waits in the sequencer: what its element operation makes of its thread's
registers, with the amount that the leader's entry captured. -/
def GangRotation : Prop :=
  ∀ (s : State) (c : Nat) (n : Fin 8) (d a b : BitVec 5) (k : BitVec 3) (e l : SeqEntry) (x : Elem) (r : Regs),
    let first := c / e.gang * e.gang
    (s.core c).seqHead n = some e → (s.core first).seqHead n = some l → e.gang ≠ 0 → l.gang = e.gang →
    e.body = [.vrot d a b k] → e.pos = 0 → e.iter = 0 → e.strides = [] → l.captured b = some x →
      s.seqRegs c n r = some (r.setVec d (Vector.ofFn fun i => if (r.mask k).getLsbD i.val then
        ringLaneOf s first e.gang (c % e.gang) n a x.val.toNat i else r.lane d i))

/-- R136, R139 to R142, R145 to R147, R152, R154: conversions of vectors, and moves between lanes, in a gang too. -/
def Obligations.VectorConversionsAndMoves : Prop := VectorConversions ∧ VectorLaneMoves ∧ GangRotation

/-- The tree of R95: a node of height `h` joins its two children; where one of them has nothing it passes the other on as
it is, a NaN too (entry 96). -/
def reductionTree (f : FElem → FElem → FRes) (x : Nat → Option FElem) : Nat → Nat → Option FRes
  | 0, i => (x i).map fun e => ⟨e.bits, e.tail, 0⟩
  | h + 1, i =>
    match reductionTree f x h (2 * i), reductionTree f x h (2 * i + 1) with
    | none, z => z
    | some y, none => some y
    | some y, some z =>
      let j := f ⟨y.bits, y.tail⟩ ⟨z.bits, z.tail⟩
      some { j with flags := y.flags ||| z.flags ||| j.flags }

/-- R143, R95: the reductions. An integer reduction folds the enabled elements from the operation's neutral value; a
floating-point one is the tree of R95. -/
def Reductions : Prop :=
  ∀ (s : State) (d a ty : BitVec 5) (k : BitVec 3),
    let r := s.regs
    let xs : List DWord := ((List.range (lanesOf ty)).filter (fun i => (r.mask k).getLsbD i)).map fun i =>
      (vecElem ty (r.vec a) i).bits
    let put (x : Int) (w : Nat) : Regs :=
      (if wide ty then r.setPair d (BitVec.ofInt 64 (x % 2 ^ w)) else r.setVal d (BitVec.ofInt 32 (x % 2 ^ w))).advance 4
    let done (i : Instr) (q : Regs) : Prop := Completes i s [] [d] q
    (∀ (sg : Bool) (w : Nat), tyOf ty = .int sg w →
      let lo : Int := if sg then -(2 ^ (w - 1)) else 0
      let hi : Int := if sg then 2 ^ (w - 1) - 1 else 2 ^ w - 1
      let vals := xs.map (intOf sg w)
      done (.vredAdd d a ty k) (put (vals.foldl (· + ·) 0) w) ∧
      done (.vredMin d a ty k) (put (vals.foldl min hi) w) ∧
      done (.vredMax d a ty k) (put (vals.foldl max lo) w) ∧
      done (.vredAnd d a ty k) (put ((xs.foldl (· &&& ·) (BitVec.allOnes 64)).toNat : Int) w) ∧
      done (.vredOr d a ty k) (put ((xs.foldl (· ||| ·) 0).toNat : Int) w) ∧
      done (.vredXor d a ty k) (put ((xs.foldl (· ^^^ ·) 0).toNat : Int) w)) ∧
    (∀ f : Fmt, tyOf ty = .flt f →
      let x (i : Nat) : Option FElem :=
        if i < lanesOf ty ∧ (r.mask k).getLsbD i = true then some (vecElem ty (r.vec a) i) else none
      let v := extendedValue ty
      let root (g : FElem → FElem → FRes) (none : FRes) : Regs :=
        (r.setRes ty d ((reductionTree g x (if wide ty then 2 else 3) 0).getD none)).advance 4
      done (.vredAdd d a ty k) (root (fun y z => roundedOnce ty (xAdd (v y) (v z))) ⟨0, 0, 0⟩) ∧
      done (.vredMin d a ty k) (root (fun y z => oneOf ty y z (xLt (v z) (v y))) ⟨BitVec.ofNat 64 f.infEnc, 0, 0⟩) ∧
      done (.vredMax d a ty k)
        (root (fun y z => oneOf ty y z (xLt (v y) (v z))) ⟨BitVec.ofNat 64 (f.infEnc + f.signBit), 0, 0⟩))

/-- R144, R82 to R84, R99: `PACK` makes sixteen fields of its destination's 256 bits, each from a lane of one of its
sources: an enabled one is the lane's value saturated to an integer type, with `nv` where that changes it, or rounded by
`FINAL` from `.f32` to a floating-point type; a disabled one keeps its bits. What lies above the fields is zero, every tail
is 00, and the flags are the union of those of the enabled fields. -/
def Packing : Prop :=
  ∀ (s : State) (d a b ty : BitVec 5) (k : BitVec 3), tg10 ty = true →
    let r := s.regs
    let w := if (tyOf ty).width = 16 then 16 else if ty = 16 then 4 else 8
    let on (j : Nat) : Bool := (r.mask k).getLsbD (j % 8)
    let src (j : Nat) : Elem := if j < 8 then r.lane a (Fin.ofNat 8 j) else r.lane b (Fin.ofNat 8 j)
    let field (v : Vector Elem 8) (j : Nat) : Nat := (v[Fin.ofNat 8 (w * j / 32)]).val.toNat / 2 ^ (w * j % 32) % 2 ^ w
    ∃ (v : Vector Elem 8) (z : Nat → FRes),
      Completes (.pack d a b ty k) s [] []
        (((r.setVec d v).raise (((List.range 16).filter on).foldl (fun x j => x ||| (z j).flags) 0)).advance 4) ∧
      (∀ i : Fin 8, v[i].tail = 0 ∧ (w ≤ 2 * i.val → v[i].val = 0)) ∧
      ∀ j, j < 16 →
        let x : FElem := ⟨(src j).val.zeroExtend 64, (src j).tail⟩
        field v j = (if on j then (z j).bits.toNat % 2 ^ w else field (r.vec d) j) ∧
        (∀ sg n, tyOf ty = .int sg n →
          let lo : Int := if sg then -(2 ^ (n - 1)) else 0
          let hi : Int := if sg then 2 ^ (n - 1) - 1 else 2 ^ n - 1
          let y := (src j).val.toInt
          z j = ⟨BitVec.ofInt 64 (max lo (min y hi) % 2 ^ n), 0, if lo ≤ y ∧ y ≤ hi then 0 else fNV⟩) ∧
        ∀ f, tyOf ty = .flt f → FloatFinal f (modeOf r.fcr) (ftzOf r.fcr) (elementDraw 9 ty r.fcr (j % 8) x) (stkOf x.tail)
          (extendedValue 9 x) (z j)

/-- R82 to R84, R95, R99, R143, R144: the reductions and `PACK`. That a reduction of a single NaN passes it on whole is
entry 96. -/
def Obligations.VectorReductions : Prop := Reductions ∧ Packing

/-- R23, R130: whatever type and function an elementwise instruction has, an element that its mask disables keeps its
value and tail: at 32 bits or less lane i under bit i, at 64 bits lanes 2i and 2i + 1 under bit i; an enabled one is
the function's result. Every other vector register stays. -/
def MaskedElements : Prop :=
  ∀ (r : Regs) (ty d n : BitVec 5) (m : BitVec 8) (f : Nat → FRes) (i : Fin 8),
    let q := r.setVecRes ty d m f
    (n.toNat % 16 ≠ d.toNat % 16 → q.vec n = r.vec n) ∧
    (m.getLsbD (if wide ty then i.val / 2 else i.val) = false → q.lane d i = r.lane d i) ∧
    (wide ty = false → m.getLsbD i.val = true → (q.lane d i).tail = (f i.val).tail) ∧
    (wide ty = true → ∀ j : Fin 4, m.getLsbD j.val = true →
      vecElem ty (q.vec d) j.val = ⟨(f j.val).bits, (f j.val).tail⟩)

/-- R22, R23, R130, R133, R134, R137: vector instructions act on each enabled element as the scalar form does, and leave
the others. -/
def Obligations.VectorElementsUnderMasks : Prop := VectorElementwise ∧ MaskedElements

/-! ### The vector sequencer and gangs -/

/-- R149, R150: `VLOOP` of a thread outside a gang opens the capture of its body with the count from its register and the
strides from the extension registers. -/
def LoopCapture : Prop :=
  ∀ (s : State) (n a : BitVec 5), s.me.gang = 0 → s.portsReady [a] [] →
    ∃ t, exec (.vloop n a) s = .next t ∧
      t.me.loop = some ⟨n.toNat + 1, (s.regs.val a).toNat, s.regs.strides, []⟩ ∧
      t.regs = (s.regs.advance 4).consume [a] ∧
      (∀ c m, ¬(c = s.curCore ∧ m = s.curSlot) → t.slot c m = s.slot c m) ∧
      ∀ b : Fin 16, s.regs.strides[b.val]? =
        some (BitVec.ofNat 16 ((s.regs.ext (BitVec.ofNat 3 (b.val / 2))).toNat / 2 ^ (16 * (b.val % 2))))

/-- R153, R155: `GANG` of size 2, 4 or 8 waits at itself until the same slot of every other core of its group has issued
it; the last to issue it forms the gang of the threads of one tenant (entry 69): every member goes on past the leader's
instruction, and only the first core's thread leads; in a gang `GANG` only moves on. `SPLIT` takes the issuing thread out
of its gang. -/
def GangsFormAndSplit : Prop :=
  ∀ (s : State) (z : BitVec 3), 1 ≤ z.toNat → z.toNat ≤ 3 →
    let g := 2 ^ z.toNat
    let n := s.curSlot
    let waits (m : Nat) : Prop := (s.slot m n).state = .ready ∧ (s.slot m n).gangWait = g ∧ (s.slot m n).gang = 0 ∧
      (s.slot m n).tenant = s.me.tenant
    let lead := (s.slot (s.curCore / g * g) n).regs.pc
    let others : Prop := ∀ m, m / g = s.curCore / g → m ≠ s.curCore → waits m
    (s.me.gang = 0 → ¬others → exec (.gang z) s = .next (s.setSlot s.curCore n { s.me with gangWait := g })) ∧
    (s.me.gang = 0 → others → ∃ t, exec (.gang z) s = .next t ∧
      ∀ m, m / g = s.curCore / g → t.slot m n = { s.slot m n with
        gang := g, gangWait := 0, state := if m % g = 0 then .ready else .follow
        regs := { (s.slot m n).regs with pc := lead + 4 } }) ∧
    (s.me.gang ≠ 0 → Completes (.gang z) s [] [] (s.regs.advance 4)) ∧
    ∃ t, exec .split s = .next t ∧ t.me.gang = 0 ∧ t.regs = s.regs.advance 4 ∧
      (s.me.pendFault = none → t.me.state ≠ .follow) ∧ ∀ c m, ¬(c = s.curCore ∧ m = s.curSlot) → t.slot c m = s.slot c m

/-- R149, R150, R153, R155: the capture of a loop body, and gangs that form and split. -/
def Obligations.LoopsAndGangs : Prop := LoopCapture ∧ GangsFormAndSplit

/-! ### Loads and stores -/

/-- The registers after a scalar load: the element of the type from little-endian bytes, tail 00 (R5, R76, R162). -/
def loadedRegs (s : State) (ty d : BitVec 5) (bytes : List Byte) (len : Nat) : Regs :=
  (s.regs.setElem ty d (BitVec.ofNat 64 (leValue bytes)) 0).advance len

/-- R156, R162, R76, R258: a scalar load from LOCAL space completes with the bytes of local memory, sign-extended for a
signed type and zero-extended otherwise; an acquiring one acquires at its scope. -/
def LocalLoads : Prop :=
  ∀ (s : State) (d a : BitVec 5) (c : BitVec 3) (ty : BitVec 5) (ord j : BitVec 2) (scope : BitVec 3) (imm : BitVec 11)
    (at_ : Nat), tg4 ty = true →
    let cap := s.regs.cap c
    let z := tyBytes ty
    let bytes (n : Nat) : List Byte := (s.core s.home).loc.readN at_ n
    (s.LocalAt cap (s.regs.val a).toInt z z pRD at_ → s.portsReady [a] [d] →
      exec (.ld d a c ord ty scope) s =
        .next ((if ord = 1 then s.acquire scope else s).completed [a] [d] (loadedRegs s ty d (bytes z) 4))) ∧
    (s.LocalAt cap (imm.toInt * z) z z pRD at_ →
      Completes (.ldImm d c ty imm) s [] [d] (loadedRegs s ty d (bytes z) 4)) ∧
    (s.LocalAt cap (4 * j.toNat) 4 4 pRD at_ →
      Completes (.ldShort a c j) s [] [a] (s.wrote a (BitVec.ofNat 32 (leValue (bytes 4))) 2))

/-- What a scalar store to LOCAL space leaves: the bytes of the value at its address, the tags of their granules cleared,
the flags raised, and nothing else of the thread's. -/
def StoresToLocal (i : Instr) (s : State) (srcs : List (BitVec 5)) (a : Nat) (bytes : List Byte) (flags : BitVec 6)
    (len : Nat) : Prop :=
  s.portsReady srcs [] → s.notWatching →
    ∃ t, exec i s = .next t ∧ StoredLocal s t s.home a bytes ∧
      t.regs = ((s.regs.raise flags).advance len).consume srcs

/-- R156, R162, R163: a scalar store to LOCAL space writes the low bytes of its source's bits, `td` raised for a sticky bit
of 1; `FST` writes the final value under `fcr` with the flags of that rounding. Every other byte of storage, and every tag
of another granule, is as before. -/
def LocalStores : Prop :=
  ∀ (s : State) (d a : BitVec 5) (c : BitVec 3) (ty : BitVec 5) (ord j : BitVec 2) (scope : BitVec 3) (imm : BitVec 11)
    (at_ : Nat),
    let r := s.regs
    let cap := r.cap c
    let z := tyBytes ty
    let td (t : BitVec 2) : BitVec 6 := if t.toNat % 2 = 1 then 0x20 else 0
    let x := r.elem ty d
    let y := finalTo (tyOf ty) (tyOf ty) ty r.fcr 0 x
    (tg4 ty = true → s.LocalAt cap (r.val a).toInt z z pWR at_ →
      StoresToLocal (.st d a c ord ty scope) s [a, d] at_ (leBytes z x.bits.toNat) (td x.tail) 4) ∧
    (tg4 ty = true → s.LocalAt cap (imm.toInt * z) z z pWR at_ →
      StoresToLocal (.stImm d c ty imm) s [d] at_ (leBytes z x.bits.toNat) (td x.tail) 4) ∧
    (s.LocalAt cap (4 * j.toNat) 4 4 pWR at_ →
      StoresToLocal (.stShort a c j) s [a] at_ (leBytes 4 (r.val a).toNat) (td (r.get a).tail) 2) ∧
    (tg5 ty = true → s.LocalAt cap (r.val a).toInt z z pWR at_ →
      StoresToLocal (.fst d a c ord ty scope) s [a, d] at_ (leBytes z y.bits.toNat) y.flags 4) ∧
    (tg5 ty = true → s.LocalAt cap (imm.toInt * z) z z pWR at_ →
      StoresToLocal (.fstImm d c ty imm) s [d] at_ (leBytes z y.bits.toNat) y.flags 4)

/-- R76, R156, R162, R163, R258: scalar loads and stores of LOCAL space. -/
def Obligations.LocalLoadsAndStores : Prop := LocalLoads ∧ LocalStores

/-- A load from a place completes with the registers given, an acquiring one with its acquire; storage and, outside every
view, every package stay as they are. How the host answers a read is a free value (entry 25). -/
def LoadsFrom (i : Instr) (s : State) (srcs dsts : List (BitVec 5)) (p : Place) (acq : Prop) [Decidable acq]
    (scope : BitVec 3) (r : Regs) : Prop :=
  s.answersAt p → s.portsReady srcs dsts →
    ∃ t : State, exec i s = .next ((if acq then t.acquire scope else t).completed srcs dsts r) ∧ KeepsMe s t ∧
      (s.me.views = [] → t.pkgs = s.pkgs)

/-- A store at a place completes: the bytes stand there, the tags of their granules are cleared, the flags are raised, and
no other storage and nothing else of the thread changes but a view's window copy. -/
def StoresAt (i : Instr) (s : State) (srcs : List (BitVec 5)) (p : Place) (bytes : List Byte) (flags : BitVec 6)
    (len : Nat) : Prop :=
  s.portsReady srcs [] → s.notWatching →
    ∃ t, exec i s = .next t ∧ Stored s t bytes p ∧
      t.me = { s.me with views := t.me.views, regs := ((s.regs.raise flags).advance len).consume srcs }

/-- R76, R156, R160, R162, R163, R213, R217, R245, R250, R254, R258, R267: scalar loads and stores of every form at every
place: the core's own local memory, the window copy of a rival, another core's local memory by WINDOW space, a held line of
GLOBAL memory of the thread's own package in the base view or in a view, host memory and the CTRL registers, which `FST`
does not reach. -/
def Obligations.LoadsAndStoresEverywhere : Prop :=
  ∀ (s : State) (d a : BitVec 5) (c : BitVec 3) (ty : BitVec 5) (ord j : BitVec 2) (scope : BitVec 3) (imm : BitVec 11)
    (p : Place),
    let r := s.regs
    let cap := r.cap c
    let z := tyBytes ty
    let td (t : BitVec 2) : BitVec 6 := if t.toNat % 2 = 1 then 0x20 else 0
    let x := r.elem ty d
    let y := finalTo (tyOf ty) (tyOf ty) ty r.fcr 0 x
    let got (n : Nat) : List Byte := s.placeBytes n p
    (tg4 ty = true → s.At cap (r.val a).toInt z z pRD p →
      LoadsFrom (.ld d a c ord ty scope) s [a] [d] p (ord = 1) scope (loadedRegs s ty d (got z) 4)) ∧
    (tg4 ty = true → s.At cap (imm.toInt * z) z z pRD p →
      LoadsFrom (.ldImm d c ty imm) s [] [d] p False 0 (loadedRegs s ty d (got z) 4)) ∧
    (s.At cap (4 * j.toNat) 4 4 pRD p →
      LoadsFrom (.ldShort a c j) s [] [a] p False 0 (s.wrote a (BitVec.ofNat 32 (leValue (got 4))) 2)) ∧
    (tg4 ty = true → s.At cap (r.val a).toInt z z pWR p →
      StoresAt (.st d a c ord ty scope) s [a, d] p (leBytes z x.bits.toNat) (td x.tail) 4) ∧
    (tg4 ty = true → s.At cap (imm.toInt * z) z z pWR p →
      StoresAt (.stImm d c ty imm) s [d] p (leBytes z x.bits.toNat) (td x.tail) 4) ∧
    (s.At cap (4 * j.toNat) 4 4 pWR p →
      StoresAt (.stShort a c j) s [a] p (leBytes 4 (r.val a).toNat) (td (r.get a).tail) 2) ∧
    (p.space ≠ 4 →
      (tg5 ty = true → s.At cap (r.val a).toInt z z pWR p →
        StoresAt (.fst d a c ord ty scope) s [a, d] p (leBytes z y.bits.toNat) y.flags 4) ∧
      (tg5 ty = true → s.At cap (imm.toInt * z) z z pWR p →
        StoresAt (.fstImm d c ty imm) s [d] p (leBytes z y.bits.toNat) y.flags 4))

/-- One access of an instruction, as its checks see it. -/
structure AccessForm where
  instr  : Instr
  srcs   : List (BitVec 5)
  dsts   : List (BitVec 5)
  /-- The offset of the access through its capability. -/
  off    : Int
  /-- The offset whose address has to be aligned. -/
  base   : Int
  size   : Nat
  align  : Nat
  /-- The permissions it needs. -/
  need   : BitVec 7
  /-- The highest space that the instruction reaches. -/
  most   : Nat
  kind   : AccKind
  /-- The scope code of its faults. -/
  scope  : BitVec 3
  /-- Whether it is the instruction's only access. -/
  single : Bool

/-- The accesses of every load, store, vector, capability, spill, atomic and `WAITNE` form, a vector's by its first enabled
element (R156, R162, R164 to R168, R177). -/
def accessForms (r : Regs) (d a b : BitVec 5) (c k e cls : BitVec 3) (ty : BitVec 5) (ord j : BitVec 2) (scope : BitVec 3)
    (w : BitVec 1) (imm : BitVec 11) : List AccessForm :=
  let z := tyBytes ty
  let off := (r.val a).toInt
  let io := imm.toInt * z
  let most := if z = 4 ∨ z = 8 then 4 else 3
  let whole := lanesOf ty * z
  let first := (List.range (lanesOf ty)).find? fun i => (r.mask k).getLsbD i
  let v := r.cap (d.setWidth 3)
  let capNeed : BitVec 7 := if v.tag then 0x0A else 0x02
  let capMost := if v.tag then 2 else 3
  let za := if w = 1 then 8 else 4
  let al := if cls = 0 then 8 else if cls = 1 ∨ cls = 2 then 16 else 4
  let zs := if cls = 0 then 8 else if cls = 1 then 16 else if cls = 2 then 48 else 4
  let atomic (i : Instr) : AccessForm := ⟨i, [a, b], [d], off, off, za, za, pAT, 2, .atomic, scope, true⟩
  (if tg4 ty then
    [⟨.ld d a c ord ty scope, [a], [d], off, off, z, z, pRD, most, .load, scope, true⟩,
     ⟨.ldImm d c ty imm, [], [d], io, io, z, z, pRD, most, .load, 0, true⟩,
     ⟨.st d a c ord ty scope, [a, d], [], off, off, z, z, pWR, most, .store, scope, true⟩,
     ⟨.stImm d c ty imm, [d], [], io, io, z, z, pWR, most, .store, 0, true⟩,
     ⟨.vldImm d c ty imm, [], [], imm.toInt * 32, imm.toInt * 32, z, whole, pRD, 3, .load, 0, false⟩,
     ⟨.vstImm d c ty imm, [], [], imm.toInt * 32, imm.toInt * 32, z, whole, pWR, 3, .store, 0, false⟩] ++
    (match first with
    | none => []
    | some i =>
      let lane := (r.lane a (Fin.ofNat 8 (if wide ty then 2 * i else i))).val.toInt
      let strided := off + i * (r.ext e).toInt
      [⟨.vld d a c k ty, [a], [], off + i * z, off, z, whole, pRD, 3, .load, 0, false⟩,
       ⟨.vst d a c k ty, [a], [], off + i * z, off, z, whole, pWR, 3, .store, 0, false⟩,
       ⟨.vlds d a c k ty e, [a], [], strided, strided, z, z, pRD, 3, .load, 0, false⟩,
       ⟨.vgath d a c k ty, [], [], lane, lane, z, z, pRD, 3, .load, 0, false⟩,
       ⟨.vscat d a c k ty, [], [], lane, lane, z, z, pWR, 3, .store, 0, false⟩])
  else []) ++
  (if tg5 ty then
    [⟨.fst d a c ord ty scope, [a, d], [], off, off, z, z, pWR, 3, .store, scope, true⟩,
     ⟨.fstImm d c ty imm, [d], [], io, io, z, z, pWR, 3, .store, 0, true⟩]
  else []) ++
  (if cls ∈ [0, 1, 2, 4, 5] then
    [⟨.spill d a c cls, [a], [], off, off, zs, al, pWR, 3, .store, 0, true⟩,
     ⟨.fill d a c cls, [a], [], off, off, zs, al, pRD, 3, .load, 0, true⟩]
  else []) ++
  [⟨.ldShort a c j, [], [a], 4 * j.toNat, 4 * j.toNat, 4, 4, pRD, 4, .load, 0, true⟩,
   ⟨.stShort a c j, [a], [], 4 * j.toNat, 4 * j.toNat, 4, 4, pWR, 4, .store, 0, true⟩,
   ⟨.ldc d a c ord scope, [a], [], off, off, 16, 16, pRD, 2, .load, scope, true⟩,
   ⟨.stc d a c ord scope, [a], [], off, off, 16, 16, capNeed, capMost, .store, scope, true⟩,
   ⟨.fill d a c 3, [a], [], off, off, 16, 16, pRD, 2, .load, 0, true⟩,
   ⟨.spill d a c 3, [a], [], off, off, 16, 16, capNeed, capMost, .store, 0, true⟩,
   atomic (.aadd d a b c ord scope w), atomic (.aand d a b c ord scope w), atomic (.aor d a b c ord scope w),
   atomic (.axor d a b c ord scope w), atomic (.aswap d a b c ord scope w), atomic (.acas d a b c ord scope w),
   atomic (.aminSigned d a b c ord scope w), atomic (.aminUnsigned d a b c ord scope w),
   atomic (.amaxSigned d a b c ord scope w), atomic (.amaxUnsigned d a b c ord scope w),
   atomic (.afadd d a b c ord scope w), atomic (.waitne d a b c ord scope w)]

/-- R157, R160, R248, R249, R252: what an access through a capability that fails a check takes, in the order of the checks,
with the access address: an untagged capability, another tenant's, a space that the instruction does not reach, a permission
it lacks, bounds, a core name outside the pod, an address outside the tenant's partition, alignment, and an escape from a
view. -/
def CapabilityFaults (s : State) (f : AccessForm) (k : Cap) : Prop :=
  let va := (((k.base : Int) + f.off) % 2 ^ 64).toNat
  let at_ := (((k.base : Int) + f.base) % 2 ^ 64).toNat
  let core := if k.space = 1 then va / 2 ^ 16 % 2 ^ 26 else s.home
  let addr := if k.space ≤ 1 then va % 2 ^ 16 else va
  let owned := k.space ≤ 1 → s.inPartition core k.dom addr f.size = true
  let takes (cls detail : BitVec 8) (x : Nat) : Prop :=
    exec f.instr s = .next (s.trapMe ⟨cls, detail, BitVec.ofNat 64 x, f.scope⟩)
  (k.tag = false → takes 0x03 0x01 va) ∧
  (k.tag = true → k.dom ≠ s.me.tenant → takes 0x03 0x08 va) ∧
  (k.tag = true → k.dom = s.me.tenant → f.most < k.space → takes 0x03 0x02 va) ∧
  (k.tag = true → k.dom = s.me.tenant → k.space ≤ f.most →
    (k.perm &&& f.need ≠ f.need → takes 0x03 0x03 va) ∧
    (k.perm &&& f.need = f.need →
      (f.off < 0 ∨ (k.len : Int) < f.off + f.size → takes 0x03 0x04 va) ∧
      (0 ≤ f.off → f.off + f.size ≤ k.len →
        (k.space = 1 → s.podSize ≤ core / 2 ^ 15 → takes 0x03 0x07 va) ∧
        ((k.space = 1 → core / 2 ^ 15 < s.podSize) →
          (¬owned → takes 0x03 0x09 va) ∧
          (owned → at_ % f.align ≠ 0 → takes 0x02 0x01 at_) ∧
          (owned → at_ % f.align = 0 → s.me.views ≠ [] → f.kind ≠ .load →
            (k.space = 1 ∨ 3 ≤ k.space → takes 0x06 0 va) ∧
            (k.space = 2 → f.kind = .atomic → takes 0x06 0 va) ∧
            (k.space = 0 → (∃ v, s.me.rivalView = some v ∧ v.inWindow addr f.size = false) → takes 0x06 0 va))))))

/-- R266 to R268, R270, R341, R350, R356: what an access that passes the checks of its capability takes at its memory:
a region of GLOBAL or HOST space without an entry, or with rights that do not admit it; a home outside the pod or without a
route, for GLOBAL and for WINDOW space; a host that is not marked present; the first poisoned word of the core's own local
memory. -/
def MemoryFaults (s : State) (f : AccessForm) (k : Cap) : Prop :=
  let va := (((k.base : Int) + f.off) % 2 ^ 64).toNat
  let own := pkgOf s.curCore
  let p := s.pkg own
  let row : Option (BitVec 4) := (((s.core s.curCore).plbFind k.dom (va / 2 ^ 21) (k.space == 3)).map (·.rights)).or
    ((p.rights.find? fun r => r.dom == k.dom && r.region == va / 2 ^ 21 && r.host == (k.space == 3)).map (·.rights))
  let takes (cls detail : BitVec 8) (x : Nat) : Prop :=
    exec f.instr s = .next (s.trapMe ⟨cls, detail, BitVec.ofNat 64 x, f.scope⟩)
  (k.space = 2 ∨ k.space = 3 →
    (row = none → takes 0x05 0x03 va) ∧
    (∀ g, row = some g → g &&& rightsFor f.need ≠ rightsFor f.need → takes 0x05 0x04 va) ∧
    (∀ g, row = some g → g &&& rightsFor f.need = rightsFor f.need → va / 2 ^ 21 = (va + f.size - 1) / 2 ^ 21 →
      (k.space = 2 → s.podSize ≤ homePkg va ∨ s.routed own (homePkg va) = false → (∀ x ∈ p.copies, x.line ≠ lineOf va) →
        takes 0x04 0x02 va) ∧
      (k.space = 3 → s.pairServed s.curCore (hostAgent own) = true → p.host.state ≠ .enabled → takes 0x0B 0x01 va))) ∧
  (k.space = 1 → s.routed own (pkgOf (va / 2 ^ 16 % 2 ^ 26)) = false → takes 0x04 0x02 va) ∧
  (k.space = 0 → f.kind ≠ .store → s.me.inWorld = false → s.LocalServes s.home →
    ∀ g, (granules (va % 2 ^ 16) f.size).find? ((s.core s.home).lpoison.contains ·) = some g →
      takes 0x0F 0x06 (s.home % 2 ^ 26 * 2 ^ 16 + g * 16))

/-- R157, R158, R160, R248, R249, R252, R266 to R268, R270, R350, R356: the faults of every access form, loads, stores and
atomics, by register and by immediate offset; those at the memory for a single access that its capability admits and that
does not escape from a view. -/
def Obligations.AccessFaults : Prop :=
  ∀ (s : State) (d a b : BitVec 5) (c k e cls : BitVec 3) (ty : BitVec 5) (ord j : BitVec 2) (scope : BitVec 3)
    (w : BitVec 1) (imm : BitVec 11) (f : AccessForm),
    f ∈ accessForms s.regs d a b c k e cls ty ord j scope w imm → s.portsReady f.srcs f.dsts →
    let v := s.regs.cap c
    CapabilityFaults s f v ∧
    (f.single = true → (s.me.views = [] ∨ f.kind = .load) → v.space ≤ f.most → s.Admits v f.off f.size f.align f.need v.space →
      (let core := if v.space = 1 then (v.base + f.off.toNat) / 2 ^ 16 % 2 ^ 26 else s.home
       v.space ≤ 1 → (v.space = 1 → core / 2 ^ 15 < s.podSize) ∧
         s.inPartition core v.dom ((v.base + f.off.toNat) % 2 ^ 16) f.size = true) →
      MemoryFaults s f v)

/-- R163, R164: vector, strided and indexed loads at every place but the CTRL registers: each enabled element gets the bytes
at its own address, with tail 00; a disabled element is neither accessed nor changed. -/
def VectorLoads : Prop :=
  ∀ (s : State) (d a : BitVec 5) (c k e : BitVec 3) (ty : BitVec 5) (imm : BitVec 11) (p : Nat → Place), tg4 ty = true →
    let r := s.regs
    let z := tyBytes ty
    let on (m : BitVec 8) (i : Nat) : Prop := i < lanesOf ty ∧ m.getLsbD i = true
    let into (m : BitVec 8) : Regs := (r.setVec d (vecPut ty m (r.vec d) fun i =>
      ⟨BitVec.ofNat 64 (leValue (s.placeBytes z (p i))), 0, 0⟩)).advance 4
    let all (m : BitVec 8) (off : Nat → Int) : Prop := ∀ i, on m i →
      s.At (r.cap c) (off i) z z pRD (p i) ∧ (p i).space ≠ 4 ∧ s.answersAt (p i)
    let whole (m : BitVec 8) (off : Int) : Prop :=
      (∃ i, on m i) → (((r.cap c).base : Int) + off) % 2 ^ 64 % (lanesOf ty * z : Nat) = 0
    let loads (i : Instr) (srcs : List (BitVec 5)) (m : BitVec 8) : Prop :=
      s.portsReady srcs [] → ∃ t : State, exec i s = .next (t.completed srcs [] (into m)) ∧ KeepsMe s t
    (all (r.mask k) (fun i => (r.val a).toInt + i * z) → whole (r.mask k) (r.val a).toInt →
      loads (.vld d a c k ty) [a] (r.mask k)) ∧
    (all 0xFF (fun i => imm.toInt * 32 + i * z) → whole 0xFF (imm.toInt * 32) → loads (.vldImm d c ty imm) [] 0xFF) ∧
    (all (r.mask k) (fun i => (r.val a).toInt + i * (r.ext e).toInt) → loads (.vlds d a c k ty e) [a] (r.mask k)) ∧
    (all (r.mask k) (fun i => (r.lane a (Fin.ofNat 8 (if wide ty then 2 * i else i))).val.toInt) →
      loads (.vgath d a c k ty) [] (r.mask k))

/-- R163, R164: vector and indexed stores at every place but the CTRL registers: each enabled element is stored at its own
address in ascending order, `td` raised when one drops a sticky bit of 1, and no other byte of storage and no tag of another
granule changes. An indexed store inside a view is stated for elements of one line, and where no thread waits for a line of
another package. -/
def VectorStores : Prop :=
  ∀ (s : State) (d a : BitVec 5) (c k : BitVec 3) (ty : BitVec 5) (imm : BitVec 11) (p : Nat → Place), tg4 ty = true →
    let r := s.regs
    let z := tyBytes ty
    let x (i : Nat) : FElem := vecElem ty (r.vec d) i
    let es (m : BitVec 8) : List Nat := (List.range (lanesOf ty)).filter fun i => m.getLsbD i
    let all (m : BitVec 8) (off : Nat → Int) : Prop := ∀ i ∈ es m, s.At (r.cap c) (off i) z z pWR (p i) ∧ (p i).space ≠ 4
    let whole (m : BitVec 8) (off : Int) : Prop :=
      es m ≠ [] → (((r.cap c).base : Int) + off) % 2 ^ 64 % (lanesOf ty * z : Nat) = 0
    let near (m : BitVec 8) : Prop :=
      (∀ i ∈ es m, ∀ j ∈ es m, ∀ v b, p i = .version v b → lineOf (p j).addr = lineOf b) ∧
      ∀ m ∈ s.monitors, m.space = 2 → homePkg m.addr = pkgOf m.tcore
    let stores (i : Instr) (srcs : List (BitVec 5)) (m : BitVec 8) : Prop :=
      s.portsReady srcs [] → s.notWatching →
        ∃ t, exec i s = .next t ∧ StoredAll s t ((es m).map fun i => (p i, leBytes z (x i).bits.toNat)) ∧
          t.regs = ((r.raise (if (es m).any (fun i => (x i).tail.getLsbD 0) then 0x20 else 0)).advance 4).consume srcs
    (all (r.mask k) (fun i => (r.val a).toInt + i * z) → whole (r.mask k) (r.val a).toInt →
      stores (.vst d a c k ty) [a] (r.mask k)) ∧
    (all 0xFF (fun i => imm.toInt * 32 + i * z) → whole 0xFF (imm.toInt * 32) → stores (.vstImm d c ty imm) [] 0xFF) ∧
    (all (r.mask k) (fun i => (r.lane a (Fin.ofNat 8 (if wide ty then 2 * i else i))).val.toInt) → near (r.mask k) →
      stores (.vscat d a c k ty) [] (r.mask k))

/-- R163, R164: vector, strided and indexed accesses. -/
def Obligations.VectorLoadsAndStores : Prop := VectorLoads ∧ VectorStores

/-- R163, R165, R166, R246, R254: a capability load from LOCAL, WINDOW or GLOBAL space brings the 16 bytes and the stored tag
AND the permission `rc`; a capability store writes the 16 bytes and sets its granule's tag to its own, and one with tag 0
reaches HOST space too, where no tag is kept. -/
def Obligations.CapabilityAccesses : Prop :=
  ∀ (s : State) (d a : BitVec 5) (c : BitVec 3) (ord : BitVec 2) (scope : BitVec 3) (p : Place),
    let r := s.regs
    let via := r.cap c
    let v := r.cap (d.setWidth 3)
    let got : Cap := ⟨s.placeTag (p.addr / 16) p && via.perm.getLsbD 2, BitVec.ofNat 128 (leValue (s.placeBytes 16 p))⟩
    let need : BitVec 7 := if v.tag then 0x0A else 0x02
    let into : Regs := (r.setCap (d.setWidth 3) got).advance 4
    let stores (i : Instr) : Prop :=
      s.portsReady [a] [] → s.notWatching →
        ∃ t, exec i s = .next t ∧ Stored s t (leBytes 16 v.bits.toNat) p v.tag ∧
          t.me = { s.me with views := t.me.views, regs := (r.advance 4).consume [a] }
    (p.space ≤ 2 → s.At via (r.val a).toInt 16 16 pRD p →
      LoadsFrom (.ldc d a c ord scope) s [a] [] p (ord = 1) scope into ∧
      LoadsFrom (.fill d a c 3) s [a] [] p False 0 into) ∧
    (p.space ≤ 2 ∨ (p.space = 3 ∧ v.tag = false) → s.At via (r.val a).toInt 16 16 need p →
      stores (.stc d a c ord scope) ∧ stores (.spill d a c 3))

/-- R163, R166: `SPILL` of a scalar, pair, vector, mask or extension register writes its image at any place but the CTRL
registers and `FILL` reads one back; no flag is raised. The image holds values and tails, so a register filled from its own
image is what it was. -/
def Obligations.SpillsAndFills : Prop :=
  (∀ (s : State) (d a : BitVec 5) (c cls : BitVec 3) (p : Place), cls ∈ [0, 1, 2, 4, 5] → p.space ≠ 4 →
    let z := if cls = 0 then 8 else if cls = 1 then 16 else if cls = 2 then 48 else 4
    let al := if cls = 0 then 8 else if cls = 1 ∨ cls = 2 then 16 else 4
    (s.regs.image cls d).length = z ∧
    (s.At (s.regs.cap c) (s.regs.val a).toInt z al pWR p → StoresAt (.spill d a c cls) s [a] p (s.regs.image cls d) 0 4) ∧
    (s.At (s.regs.cap c) (s.regs.val a).toInt z al pRD p →
      LoadsFrom (.fill d a c cls) s [a] [] p False 0 ((s.regs.restore cls d (s.placeBytes z p)).advance 4))) ∧
  ∀ (q r : Regs) (d : BitVec 5),
    (d.toNat < 28 ∨ d = 31 → (r.restore 0 d (q.image 0 d)).get d = q.get d) ∧
    (d.toNat % 2 = 0 → d.toNat < 28 → (r.restore 1 d (q.image 1 d)).get d = q.get d ∧
      (r.restore 1 d (q.image 1 d)).get (d + 1) = q.get (d + 1)) ∧
    (r.restore 2 d (q.image 2 d)).vec d = q.vec d ∧
    (r.restore 4 d (q.image 4 d)).mask (d.setWidth 3) = q.mask (d.setWidth 3) ∧
    (r.restore 5 d (q.image 5 d)).ext (d.setWidth 3) = q.ext (d.setWidth 3)

/-! ### Atomics and `WAITNE` -/

/-- What an atomic leaves: the old value in `d` with tail 00, the flags raised, and exactly the given bytes written at its
place. -/
def AtomicLeaves (i : Instr) (s : State) (d a b : BitVec 5) (w : BitVec 1) (p : Place) (old : DWord) (bytes : List Byte)
    (flags : BitVec 6) : Prop :=
  s.portsReady [a, b] [d] → s.notWatching →
    ∃ t : State, exec i s = .next (t.completed [a, b] [d] (((s.regs.setAtom w d old).raise flags).advance 4)) ∧
      Stored s t bytes p ∧ LeavesMe s t

/-- R160, R163, R167, R168: an atomic on LOCAL space, the window copy of a rival, WINDOW space or GLOBAL memory of the
thread's package answers the old value and writes the new one in one action: addition, bit operations, exchange, compare and
exchange (which writes nothing when the old value differs), signed and unsigned extremes, and the floating-point sum rounded
to odd and then by `FINAL`, whose flags alone are raised. -/
def Atomics : Prop :=
  ∀ (s : State) (d a b : BitVec 5) (c : BitVec 3) (ord : BitVec 2) (scope : BitVec 3) (w : BitVec 1) (p : Place),
    p.space ≤ 2 → p.takes .atomic →
    let z := if w = 1 then 8 else 4
    let old : DWord := BitVec.ofNat 64 (leValue (s.placeBytes z p))
    let y := s.regs.atomVal w b
    let leaves (i : Instr) (x : DWord) : Prop := AtomicLeaves i s d a b w p old (leBytes z x.toNat) 0
    let less (x y : DWord) : Prop := if w = 1 then x.toInt < y.toInt else (x.setWidth 32).toInt < (y.setWidth 32).toInt
    s.At (s.regs.cap c) (s.regs.val a).toInt z z pAT p →
      leaves (.aadd d a b c ord scope w) (old + y) ∧
      leaves (.aand d a b c ord scope w) (old &&& y) ∧
      leaves (.aor d a b c ord scope w) (old ||| y) ∧
      leaves (.axor d a b c ord scope w) (old ^^^ y) ∧
      leaves (.aswap d a b c ord scope w) y ∧
      AtomicLeaves (.acas d a b c ord scope w) s d a b w p old
        (if old = s.regs.atomVal w d then leBytes z y.toNat else []) 0 ∧
      (less y old → leaves (.aminSigned d a b c ord scope w) y) ∧
      (¬less y old → leaves (.aminSigned d a b c ord scope w) old) ∧
      (less old y → leaves (.amaxSigned d a b c ord scope w) y) ∧
      (¬less old y → leaves (.amaxSigned d a b c ord scope w) old) ∧
      leaves (.aminUnsigned d a b c ord scope w) (if y.toNat < old.toNat then y else old) ∧
      leaves (.amaxUnsigned d a b c ord scope w) (if old.toNat < y.toNat then y else old) ∧
      (let ty : BitVec 5 := if w = 1 then 8 else 9
       let u := elAdd ty ⟨old, 0⟩ (s.regs.elem ty b)
       let x := finalTo (tyOf ty) (tyOf ty) ty s.regs.fcr 0 ⟨u.bits, u.tail⟩
       AtomicLeaves (.afadd d a b c ord scope w) s d a b w p old (leBytes z x.bits.toNat) (u.flags ||| x.flags))

/-- R177: `WAITNE` compares and arms in one action: a value that differs completes it; an equal one arms a monitor of the
place and the thread sleeps, or sleeps to try again where the home's table is full. -/
def WaitNotEqual : Prop :=
  ∀ (s : State) (d a b : BitVec 5) (c : BitVec 3) (ord : BitVec 2) (scope : BitVec 3) (w : BitVec 1) (p : Place),
    p.space ≤ 2 → p.takes .atomic →
    let i : Instr := .waitne d a b c ord scope w
    let z := if w = 1 then 8 else 4
    let x : DWord := BitVec.ofNat 64 (leValue (s.placeBytes z p))
    let y := s.regs.atomVal w b
    let core := match p with
      | .window k _ => k
      | _ => s.home
    let view := match p with
      | .rival _ => s.me.rivalView.map (·.num)
      | _ => none
    let armed : Monitor := ⟨p.space, core, p.addr, z, y, view, s.curCore, s.curSlot⟩
    let held := (s.monitors.filter fun m => m.table == armed.table).length
    s.At (s.regs.cap c) (s.regs.val a).toInt z z pAT p → s.portsReady [a, b] [d] →
      (x ≠ y → LoadsFrom i s [a, b] [d] p (ord = 1 ∨ ord = 3) scope ((s.regs.setAtom w d x).advance 4)) ∧
      (x = y → held < s.monitorRoom →
        ∃ t : State, KeepsMe s t ∧ t.monitors = s.monitors ∧
          exec i s = .next ({ t with monitors := t.monitors ++ [armed] }.updMe
            fun m => { m.block .sleep .monitor with held := some i,
                                                    asked := some (m.asked.getD (s.pkg (pkgOf s.curCore)).stamp) })) ∧
      (x = y → s.monitorRoom ≤ held →
        ∃ t : State, KeepsMe s t ∧ exec i s = .next (t.updMe fun m => { m.block .sleep .monitorRetry with held := some i }))

/-- R160, R163, R167, R168, R177: atomics and `WAITNE` at every place that takes them. -/
def Obligations.AtomicsAndWaits : Prop := Atomics ∧ WaitNotEqual

/-! ### MX blocks -/

/-- The value of element i of a block under a scale byte, a NaN none (R73, R89). -/
def blockValue (ty : BitVec 5) (b : Block) (i : Nat) : Option ℚ :=
  (exactValue ((fmtOf (mxElem ty)).xval (b.elems.getD i 0) 0)).map (· * 2 ^ ((b.scale : Int) - 127))

/-- The sign of element i of a block. -/
def blockNeg (ty : BitVec 5) (b : Block) (i : Nat) : Bool :=
  match (fmtOf (mxElem ty)).xval (b.elems.getD i 0) 0 with
  | .fin neg _ _ => neg
  | _ => false

/-- The largest finite magnitude of a format (R73). -/
def maxOf (f : Fmt) : ℚ := overflowOf f - 2 ^ f.ov.2

/-- Every value of a block is at most `M × 2^(k - 127)`; a NaN takes no part (R172, R173). -/
def FitsScale (f : Fmt) (x : Nat → Option ℚ) (k : Nat) : Prop :=
  ∀ i q, i < 32 → x i = some q → |q| ≤ maxOf f * 2 ^ ((k : Int) - 127)

/-- The smallest scale from `low` to 254 that every value fits, 254 where none does (R172, R173). -/
def LeastScale (f : Fmt) (low : Nat) (x : Nat → Option ℚ) (k : Nat) : Prop :=
  low ≤ k ∧ k ≤ 254 ∧ (k = 254 ∨ FitsScale f x k) ∧ ∀ j, low ≤ j → j < k → ¬FitsScale f x j

/-- R172: the block that `MXACC` makes of a destination block and a source block: a NaN scale where a scale or, for `.mx4`,
a source element is NaN; otherwise the exact sums under the least scale that they fit, each rounded to odd at the precision
of the destination's elements or cut to their largest magnitude, with the sticky bits of both blocks and of that rounding. -/
def AccRule (ty sty : BitVec 5) (o u z : Block) : Prop :=
  let f := fmtOf (mxElem ty)
  let x (i : Nat) : Option ℚ := do some ((← blockValue ty o i) + (← blockValue sty u i))
  let nan := o.scale = 0xFF ∨ u.scale = 0xFF ∨ (ty = 23 ∧ ∃ i < 32, blockValue sty u i = none)
  (nan → z = { o with scale := 0xFF }) ∧
  (¬nan → LeastScale f o.scale x z.scale ∧ z.elems.length = 32 ∧ ∀ i < 32,
    let e := z.elems.getD i 0
    let old := o.sticky.getLsbD i || u.sticky.getLsbD i
    match x i with
    | none => e = 0x7F ∧ z.sticky.getLsbD i = old
    | some q =>
      let y := |q / 2 ^ ((z.scale : Int) - 127)|
      let r := if y ≤ maxOf f then toOdd (y / ulpOf f y) * ulpOf f y else maxOf f
      let neg := if q = 0 then blockNeg ty o i && blockNeg sty u i else decide (q < 0)
      e < 2 ^ f.width ∧ hasMagnitude (f.xval e 0) neg r ∧ z.sticky.getLsbD i = (old || decide (r ≠ y)))

/-- R174: the block that `MXNORM` makes: the scale lowered as far as every element allows, the elements raised as much. -/
def NormRule (ty : BitVec 5) (o z : Block) : Prop :=
  let f := fmtOf (mxElem ty)
  let v (i : Nat) : XVal := f.xval (o.elems.getD i 0) 0
  let fits (m : Nat) : Prop := ∀ i q, i < 32 → exactValue (v i) = some q → |q| * 2 ^ m ≤ maxOf f
  ∃ m, m ≤ o.scale ∧ fits m ∧ (∀ n, m < n → n ≤ o.scale → ¬fits n) ∧
    z.scale = o.scale - m ∧ z.sticky = o.sticky ∧ z.elems.length = 32 ∧
    ∀ i q, i < 32 → exactValue (v i) = some q →
      z.elems.getD i 0 < 2 ^ f.width ∧ hasMagnitude (f.xval (z.elems.getD i 0) 0) (blockNeg ty o i) (|q| * 2 ^ m)

/-- R173, R99: what `MXRES` makes of a block held in one format, in the elements of another: under a NaN, zeros and a NaN
scale; otherwise `FINAL` of each value under the least scale that all fit, with SR's draw from the stored scale and
element, and the sticky bits of the block and of that rounding. -/
def ResRule (src ty : BitVec 5) (fcr : Word) (o : Block) (z : Resolved) : Prop :=
  let g := fmtOf (mxElem src)
  let f := fmtOf (mxElem ty)
  let x (i : Nat) : Option ℚ := blockValue src o i
  let nan := o.scale = 0xFF ∨ (f.hasNan = false ∧ ∃ i < 32, x i = none)
  (nan → z = ⟨List.replicate 32 0, BitVec.allOnes 32, 0xFF, if o.scale = 0xFF then 0 else fNV⟩) ∧
  (¬nan → z.elems.length = 32 ∧
    ((∀ i < 32, x i = some 0) → z.scale = o.scale) ∧
    (¬(∀ i < 32, x i = some 0) → LeastScale f 0 x z.scale) ∧
    ∃ w : Nat → FRes,
      z.flags = (List.range 32).foldl (fun h i => h ||| (w i).flags) (if o.sticky = 0 then 0 else fNX) ∧
      ∀ i < 32,
        let e := o.elems.getD i 0
        let t := o.sticky.getLsbD i
        let y : XVal := match g.xval e 0 with
          | .fin neg m q => .fin neg m (q + o.scale - z.scale)
          | v => v
        let draw := drawOf fcr (BitVec.ofNat 32 (o.scale * 2 ^ 8 + e))
          ((if t then 2 ^ 16 else 0) + (mxElem ty).toNat * 2 ^ 8 + i)
        FloatFinal f (modeOf fcr) (ftzOf fcr) draw false y (w i) ∧ z.elems.getD i 0 = (w i).bits.toNat ∧
        z.sticky.getLsbD i = (t || match exactValue y with
          | some q => decide (exactValue (f.xval (w i).bits.toNat 0) ≠ some q)
          | none => false))

/-- R163, R169 to R174, R213, R242: the block instructions on a held line of GLOBAL memory of the thread's own package, in
the base view or in a view: `MXLD` and `MXRES` write registers only; `MXST`, `MXACC` and, but for a block that R174 leaves
alone, `MXNORM` write exactly the pieces of the block. -/
def Obligations.BlockInstructions : Prop :=
  ∀ (s : State) (d a b : BitVec 5) (c : BitVec 3) (ty : BitVec 5) (src : BitVec 1) (p : Place) (o : Nat),
    let r := s.regs
    let line := s.placeBytes 128 p
    let j := o / mxBytes ty
    let old := blockOf ty line j
    let reaches (need : BitVec 7) (write : Bool) (tags : List Byte) (t : BitVec 5) : Prop :=
      s.BlockAt (r.cap c) (r.val a).toInt t need write tags p o ∧ s.portsReady [a] []
    let reads (i : Instr) (q : Regs) : Prop :=
      ∃ t : State, exec i s = .next (t.completed [a] [] (q.advance 4)) ∧ KeepsMe s t
    let writes (i : Instr) (x : Block) : Prop := s.notWatching →
      ∃ t : State, exec i s = .next (t.completed [a] [] (r.advance 4)) ∧
        StoredAll s t ((blockPieces ty j x).map fun q => (p.plus q.1, q.2)) ∧ t.me = s.me
    let sty : BitVec 5 := if src = 1 then 23 else 19
    let f := fmtOf (mxElem ty)
    let fixed : Prop := old.scale = 0xFF ∨ (∃ i < 32, f.xval (old.elems.getD i 0) 0 = .nan) ∨
      ∀ i < 32, exactValue (f.xval (old.elems.getD i 0) 0) = some 0
    (tg6 ty = true →
      (reaches pRD false [mxTag ty] ty → reads (.mxld d a b c ty) (r.blockOut ty d b old.elems old.sticky old.scale)) ∧
      (reaches pWR true [mxTag ty] ty → writes (.mxst d a b c ty) (r.blockIn ty d b)) ∧
      (reaches pAT true [mxTag ty] ty →
        ∃ z, AccRule ty sty old (r.blockIn sty d b) z ∧ writes (.mxacc d a b c ty src) z) ∧
      (reaches pAT true [mxTag ty] ty → ¬fixed → ∃ z, NormRule ty old z ∧ writes (.mxnorm a c ty) z) ∧
      (reaches pAT true [mxTag ty] ty → fixed → reads (.mxnorm a c ty) r)) ∧
    (∀ held, held = (if s.placeByte (p.addr + 126) p = 0x17 then 23 else 19) → tg7 ty = true →
      reaches pRD false [0x13, 0x17] 23 → o % mxBytes held = 0 →
      ∃ z, ResRule held ty r.fcr (blockOf held line (o / mxBytes held)) z ∧
        reads (.mxres d a b c ty) ((r.blockOut ty d b z.elems z.sticky z.scale).raise z.flags))

/-! ### Fences and barriers -/

/-- R159, R176, R258: a fence completes: earlier accesses have been performed, and an acquiring one raises the package's
copy floor at pod scope, and no read copy from before it remains. -/
def Fences : Prop :=
  ∀ (s : State) (scope : BitVec 3),
    exec (.fence scope) s = .next ((s.acquire scope).setRegs (s.regs.advance 4)) ∧
    exec (.fenceAcq scope) s = .next ((s.acquire scope).setRegs (s.regs.advance 4)) ∧
    exec (.fenceRel scope) s = .next (s.setRegs (s.regs.advance 4)) ∧
    (let p := s.pkg (pkgOf s.curCore)
     let q := (s.acquire 5).pkg (pkgOf s.curCore)
     q.floor = p.stamp + 1 ∧ ∀ x, x ∈ q.copies ↔ x ∈ p.copies ∧ 0 ≤ (x.stamp - (p.stamp + 1)).toInt) ∧
    (scope ≠ 5 → s.acquire scope = s)

/-- R178, R179, R180, R188: an arrival is counted in its instance, or signalled to it at package and pod scope; `BARQ` goes
on with the phase it read, `BAR` sleeps unless its arrival is the last, `BARW` sleeps only while the phase stands;
`SLOTT` stages 28 turns. Inside a view each of them escapes. -/
def Barriers : Prop :=
  ∀ (s : State) (d a : BitVec 5) (scope : BitVec 3),
    let n := scope.toNat
    let k := instanceOf n s.home
    let b := s.barrier s.me.tenant n k
    let one : Barrier := if n ≤ 3 then { b with arrived := b.arrived ++ [s.home] } else { b with signals := b.signals ++ [s.home] }
    let last : Prop := n ≤ 3 ∧ max 1 b.expect ≤ b.arrived.length + 1 + b.lost
    let next : Barrier := { b with arrived := [], lost := 0, expect := b.later, phase := b.phase + 1 }
    let waits (s : State) (i : Instr) : State := s.updMe fun t => { t.block .sleep (.phase n b.phase) with held := some i }
    let v := s.regs.vec a
    (s.me.views = [] →
      (¬last → s.portsReady [] [d] → exec (.barq d scope) s =
        .next ((s.setBarrier one).completed [] [d] (s.wrote d (b.phase.zeroExtend 32) 4))) ∧
      (¬last → exec (.bar scope) s = .next (waits (s.setBarrier one) (.bar scope))) ∧
      (last → s.me.wait = .none → s.portsReady [] [d] →
        ∃ t : State, exec (.barq d scope) s = .next (t.completed [] [d] (s.wrote d (b.phase.zeroExtend 32) 4)) ∧
          t.barrier s.me.tenant n k = next) ∧
      (last → s.me.wait = .none →
        ∃ t : State, exec (.bar scope) s = .next t ∧ t.regs = s.regs.advance 4 ∧ t.barrier s.me.tenant n k = next) ∧
      ((s.regs.val d).setWidth 16 ≠ b.phase →
        exec (.barw d scope) s = .next ((s.acquire scope).setRegs (s.wrote d (b.phase.zeroExtend 32) 4))) ∧
      ((s.regs.val d).setWidth 16 = b.phase → exec (.barw d scope) s = .next (waits s (.barw d scope))) ∧
      exec (.slott a) s = .next ((s.updCore s.home fun q => { q with staged := some (s.me.tenant, (List.range 28).map
        fun i => (v[Fin.ofNat 8 (i / 4)]).val.extractLsb' (8 * (i % 4)) 8) }).setRegs (s.regs.advance 4))) ∧
    (s.me.views ≠ [] → s.portsReady [] [d] →
      exec (.bar scope) s = .next (s.trapMe ⟨6, 0, 0, scope⟩) ∧ exec (.barw d scope) s = .next (s.trapMe ⟨6, 0, 0, scope⟩) ∧
      exec (.barq d scope) s = .next (s.trapMe ⟨6, 0, 0, scope⟩) ∧ exec (.slott a) s = .next (s.trapMe ⟨6, 0, 0, 0⟩))

/-- R159, R176, R178 to R180, R188, R258: fences and barriers. -/
def Obligations.FencesAndBarriers : Prop := Fences ∧ Barriers

/-! ### Queues, threads and the matrix unit -/

/-- R182, R183, R160: `QPOLL` answers the entries of a queue, or for queue 6 whether a return of the thread's own was taken
into `qrx`; `QSEND` and `QSENDD` send one and two entries of 16 bytes, which enter the queue together where it has
space; inside a domain they join the outbox, inside a world they escape, and a bad core name faults first (entry 97). In a
world a `QPOLL` of queue 6 that has nothing to pop completes with 0 (entry 31). -/
def Obligations.QueueMessages : Prop :=
  ∀ (s : State) (d a b : BitVec 5) (q : BitVec 3),
    let r := s.regs
    let me := s.me
    let dst := (r.val a).toNat
    let v (i : Fin 8) : Word := (r.vec b)[i].val
    let one : List Entry := [entryOf (r.val b) (r.val (b + 1)) (r.val (b + 2)) (r.val (b + 3))]
    let two : List Entry := [entryOf (v 0) (v 1) (v 2) (v 3), entryOf (v 4) (v 5) (v 6) (v 7)]
    let sends (i : Instr) (es : List Entry) : Prop := s.portsReady [a] [] →
      (s.goodName dst = false → exec i s = .next (s.trapMe ⟨3, 7, (r.val a).zeroExtend 64, 0⟩)) ∧
      (s.goodName dst = true → me.inWorld = true → exec i s = .next (s.trapMe ⟨6, 0, 0, 0⟩)) ∧
      (∀ u rest, s.goodName dst = true → me.inWorld = false → me.views = u :: rest →
        exec i s = .next ((s.updMe fun t =>
          { t with views := { u with outbox := u.outbox ++ [.send dst q.toNat es] } :: rest }).completed [a] []
            (r.advance 4))) ∧
      (s.goodName dst = true → me.views = [] → s.releasing = false →
        ∃ t : State, exec i s = .next (t.completed [a] [] (r.advance 4)) ∧
          (s.path s.home dst = .near → (s.core dst).discards q.toNat me.tenant es = false → me.resv = 0 →
            (s.pkg (pkgOf dst)).waits s.home dst = false → es.length ≤ ((s.core dst).queue q.toNat).free →
              ((t.core dst).queue q.toNat).entries.map (·.words) =
                ((s.core dst).queue q.toNat).entries.map (·.words) ++ es))
    (q ≠ 6 → Completes (.qpoll d q) s [] [d]
      (s.wrote d (BitVec.ofNat 32 ((s.core s.home).queue q.toNat).entries.length) 4)) ∧
    (r.qrx ≠ [] ∨ s.takeEntry 6 = none → Completes (.qpoll d 6) s [] [d] (s.wrote d 0 4)) ∧
    (∀ e t, r.qrx = [] → s.takeEntry 6 = some (e, t) → s.portsReady [] [d] →
      (me.inWorld = true → exec (.qpoll d 6) s = .next (s.trapMe ⟨6, 0, 0, 0⟩)) ∧
      (me.inWorld = false → exec (.qpoll d 6) s =
        .next (t.completed [] [d] (((r.setBuffer .qrx (entryWords e)).setVal d 1).advance 4)))) ∧
    sends (.qsend a b q) one ∧ sends (.qsendd a b q) two

/-- R31, R32, R160, R363: a read of a port with an empty buffer refills it: from the thread's replayed entries first, then
from queue 5 for `qup` or the bound queue for `qrx`, whose oldest entry leaves it; with nothing there the thread is PORT
and the instruction has no effect; the chain end faults, and a rival that must pop escapes. -/
def PortRefills : Prop :=
  ∀ (s : State) (d b : BitVec 5) (e : QEntry) (rest : List QEntry), sDst d = true → d ≠ 30 → b.toNat < 28 →
    let i : Instr := .add d 29 b 0
    let k := s.core s.home
    let q := (k.queue 5).entries
    let at_ (w : Word) : Regs := s.wrote d (w + s.regs.val b) 4
    (chainPos s.home = 0 → exec i s = .next (s.trapMe ⟨0x0E, 0, 0, 0⟩)) ∧
    (chainPos s.home ≠ 0 → s.regs.qup = [] →
      (s.me.inWorld = true → exec i s = .next (s.trapMe ⟨6, 0, 0, 0⟩)) ∧
      (s.me.inWorld = false → (s.me.replay.find? fun x => x.1 == 5) = none →
        (q = [] → exec i s = .next (s.updMe fun t => t.block .port (.port .qup))) ∧
        (q = e :: rest → ∃ t : State, exec i s = .next t ∧ ((t.core s.home).queue 5).entries = rest ∧
          t.regs = { at_ (e.words.extractLsb' 0 32) with qup := (entryWords e.words).drop 1 })))

/-- R31, R32, R33, R160: the fourth word written to `qdn` pushes an entry of four words into queue 5 of the next core down
the chain; without space there the thread is PORT with the buffer full; the last core of the chain faults, and a rival's
fourth word escapes. -/
def PortPushes : Prop :=
  ∀ (s : State) (x : BitVec 19) (w0 w1 w2 : Word),
    let i : Instr := .li 30 x
    let w : Word := x.signExtend 32
    let dst := downstream s.home
    let es (s : State) : List Entry := ((s.core dst).queue 5).entries.map (·.words)
    (chainPos s.home = 4095 → exec i s = .next (s.trapMe ⟨0x0E, 0, 0, 0⟩)) ∧
    (chainPos s.home ≠ 4095 → s.regs.qdn = [w0, w1, w2] →
      (s.me.inWorld = true → exec i s = .next (s.trapMe ⟨6, 0, 0, 0⟩)) ∧
      (s.me.inWorld = false → s.me.lch = true → (s.core dst).holdsStage s.me.tenant = true → s.releasing = false →
        (0 < ((s.core dst).queue 5).free → ∃ t : State, exec i s = .next t ∧ es t = es s ++ [entryOf w0 w1 w2 w] ∧
          t.regs = { s.regs.advance 4 with qdn := [] }) ∧
        (((s.core dst).queue 5).free = 0 → exec i s =
          .next ((s.setRegs { s.regs.advance 4 with qdn := [w0, w1, w2, w] }).updMe fun t => t.block .port (.port .qdn)))))

/-- R31 to R33, R160, R363: ports that refill and push. That an instruction of any kind that pops or pushes in a world escapes
is entry 67. -/
def Obligations.Ports : Prop := PortRefills ∧ PortPushes

/-- R41, R185, R186, R187, R18: `SPAWN` served in the step starts a thread in a FREE slot of its target and answers the
slot's tag, or answers why not, unless a start of the core comes first (entry 32); `CALLAT` answers how its peg was deposited
in the input queue of the stage, whichever it is (entry 68), or in the pool; `QUIT` frees the slot under its next generation,
every register at zero (entry 5). Inside a view each of them escapes. -/
def Obligations.StartsAndEnds : Prop :=
  ∀ (s : State) (d a b : BitVec 5) (e q : BitVec 3) (stage : BitVec 4),
    let r := s.regs
    let me := s.me
    let dst := (r.val a).toNat
    let k := s.core dst
    let peg := entryOf (r.val b) (r.val (b + 1)) (r.val (b + 2)) (r.val (b + 3))
    let spawn : Instr := .spawn d a b e q
    let call : Instr := .callat d a b stage
    let answers (i : Instr) (t : State) (v : Word) : Prop := exec i s = .next (t.completed [a] [d] (s.wrote d v 4))
    let u := s.deposit dst me.tenant stage.toNat peg
    (me.views = [] → s.goodName dst = true → s.path s.home dst = .near → s.releasing = false → s.portsReady [a] [d] →
      ((r.ext e).getLsbD 0 = false → s.startsFirst dst = false → me.state = .ready →
        (k.holdsStage me.tenant = false → answers spawn s 0x80000003) ∧
        (k.holdsStage me.tenant = true → k.startSlot = none → answers spawn s 0x80000001) ∧
        (∀ n, k.holdsStage me.tenant = true → k.startSlot = some n → ∃ t : State,
          answers spawn t ((returnTag n (k.slot n).gen).zeroExtend 32) ∧
          t.slot dst n = { Slot.initial with
            home := dst, gen := (k.slot n).gen, issued := (k.slot n).issued, state := .ready, tenant := me.tenant
            code := k.codeOf me.tenant, bound := q, prio := me.prio, lch := true
            regs := k.startRegs [peg] (k.partBase me.tenant) (r.ext e) })) ∧
      answers call u.1 u.2 ∧ (k.stageOf me.tenant stage.toNat = none → u = (s, 3)) ∧
      (∀ g, k.stageOf me.tenant stage.toNat = some g →
        let pooled := ((s.pkg (pkgOf dst)).pool me.tenant).pooled dst stage.toFin
        (pooled = 0 → 1 ≤ (k.queue g.inq).free →
          u.2 = 0 ∧ ((u.1.core dst).queue g.inq).entries.map (·.words) = (k.queue g.inq).entries.map (·.words) ++ [peg]) ∧
        (pooled ≠ 0 ∨ (k.queue g.inq).free = 0 →
          (pooled < g.quota ∨ 1 ≤ s.sharedFree (pkgOf dst) me.tenant → u = (s.updPkg (pkgOf dst)
            (·.updPool me.tenant (· ++ [.peg dst stage.toFin peg])), 1)) ∧
          (g.quota ≤ pooled → s.sharedFree (pkgOf dst) me.tenant = 0 → u = (s, 2))))) ∧
    (me.views = [] → ∀ i ∈ [Instr.quit, .quitShort], ∃ t : State, exec i s = .next t ∧
      t.slot s.curCore s.curSlot = { Slot.initial with home := s.curCore, gen := me.gen + 1, issued := me.issued }) ∧
    (me.views ≠ [] → s.goodName dst = true → (r.ext e).getLsbD 0 = false → s.portsReady [a] [d] →
      ∀ i ∈ [spawn, call, .quit, .quitShort], exec i s = .next (s.trapMe ⟨6, 0, 0, 0⟩))

/-- R189, R191, R192, R193, R196, R197, R198: the matrix instructions outside a world, on operands in LOCAL space: bindings,
panels, tables and jobs enter the unit; a full latch or queue, or an accepted command that waits and came before, holds the
instruction back; `MZERO` clears and `MSTACC` stores an accumulator once no job names it. -/
def MatrixUnit : Prop :=
  ∀ (s : State) (d a b : BitVec 5) (c : BitVec 3) (ty : BitVec 5) (n : BitVec 2) (x y : Nat),
    let r := s.regs
    let k := s.core s.home
    let m := k.matrix
    let unit (f : Matrix → Matrix) : State := s.updMatrix s.home f
    let at_ (z align : Nat) (need : BitVec 7) : Prop := s.LocalAt (r.cap c) (r.val a).toInt z align need x
    let also (z align : Nat) : Prop := s.LocalAt (r.cap c) (r.val b).toInt z align pRD y
    let done (i : Instr) (srcs dsts : List (BitVec 5)) (t : State) (q : Regs) : Prop :=
      s.portsReady srcs dsts → exec i s = .next (t.completed srcs dsts (q.advance 4))
    let id : BitVec 16 := (r.val a).setWidth 16
    let job := m.jobFor ty n ⟨0, s.home, x, (r.cap c).base + (r.val a).toNat, s.me.tenant⟩ (some s.curSlot) s.me.gen s.me.tenant
      [] s.me.chain
    let waits (op : BitVec 4) (i : Instr) : Prop :=
      s.me.inWorld = false → (∃ h ∈ m.held, h.cmd.op = op) → exec i s = .next s
    (isScaled ty = false → at_ 1024 64 pRD →
      done (.mlda a b c ty) [a] [] (unit fun m => { m with abind := some ⟨x, 0, ty⟩ }) r ∧
      (m.held = [] → m.latch.length + k.loading < 2 →
        done (.mldb a b c ty) [a] [] (unit (·.arrive (latchPanel ty (k.loc.readN x 1024) []))) r)) ∧
    (isScaled ty = true → at_ 1024 64 pRD → also (scaleBytes ty) 32 →
      done (.mlda a b c ty) [a, b] [] (unit fun m => { m with abind := some ⟨x, y, ty⟩ }) r ∧
      (m.held = [] → m.latch.length + k.loading < 2 → done (.mldb a b c ty) [a, b] []
        (unit (·.arrive (latchPanel ty (k.loc.readN x 1024) (k.loc.readN y (scaleBytes ty))))) r)) ∧
    (s.me.inWorld = false → 2 ≤ m.latch.length + k.loading → exec (.mldb a b c ty) s = .next s) ∧
    waits 1 (.mldb a b c ty) ∧ waits 2 (.mtbl a c ty) ∧ waits 3 (.mma d a n c ty) ∧
    (at_ 32 32 pRD → m.held = [] → (∀ j ∈ m.jobs, j.type ≠ 18) →
      done (.mtbl a c ty) [a] [] (unit fun m => { m with tbl := tableOf (k.loc.readN x 32) }) r) ∧
    (at_ 4 4 pWR → m.held = [] → m.jobs.length < 4 →
      done (.mma d a n c ty) [a] [d] (unit (·.queue job)) (r.setVal d (m.next.zeroExtend 32))) ∧
    (s.me.inWorld = false → 4 ≤ m.jobCount → exec (.mma d a n c ty) s = .next s) ∧
    (s.me.inWorld = false → m.held = [] →
      ((∀ j ∈ m.jobs, j.id ≠ id) →
        done (.mwait a) [a] [] (s.acquire 5) r ∧ done (.mpoll d a) [a] [d] s (r.setVal d 1)) ∧
      (m.names [n] = false → done (.mzero n) [] [] (unit (·.zero n)) r)) ∧
    (s.me.inWorld = false →
      ((∃ j ∈ m.jobs, j.id = id) ∨ (∃ h ∈ m.held, ∃ j, h.job = some j ∧ j.id = id) →
        done (.mpoll d a) [a] [d] s (r.setVal d 0) ∧ (s.portsReady [a] [] →
          exec (.mwait a) s = .next (s.updMe fun t => { t.block .sleep (.job id) with held := some (.mwait a) }))) ∧
      (m.names [n] = true → exec (.mzero n) s = .next s)) ∧
    (at_ (256 * tyBytes ty) 16 pWR → m.held = [] → m.names (accsOf ty n) = false → m.isBad ty n = false →
      m.parityError ty n = false → s.notWatching → s.portsReady [a] [] →
      let l := m.stored ty n r.fcr
      ∃ t : State, exec (.mstacc a n c ty) s = .next (t.completed [a] [] ((r.raise (unionFlags l)).advance 4)) ∧
        StoredLocal s t s.home x (storedBytes ty l))

/-- R9, R196: `MPASS` outside a world once no member's unit has a job. Alone, it moves the front of its core to the next core
of the quad, which discards it where it holds no stage of the tenant (entry 89), and waits while that has no EMPTY buffer;
in a gang the leader moves every front to its owner's successor at once, and a follower goes on. -/
def PanelPassing : Prop :=
  ∀ (s : State),
    let me := s.me
    let m := (s.core s.home).matrix
    let next := s.home / 4 * 4 + (s.home + 1) % 4
    let q := s.regs.advance 4
    let take (rest : List Panel) : State := s.updMatrix s.home fun m => { m with latch := rest }
    let ring := me.members s.curCore
    let front (c : Nat) : Option Panel := (s.core c).matrix.latch.head?
    me.inWorld = false →
      ((∃ c ∈ ring, (s.core c).matrix.jobCount ≠ 0) → exec .mpass s = .next s) ∧
      ((∀ c ∈ ring, (s.core c).matrix.jobCount = 0) →
        (me.state = .follow → exec .mpass s = .next (s.setRegs q)) ∧
        (me.state ≠ .follow → me.gang = 0 →
          (m.latch = [] → exec .mpass s = .next (s.setRegs q)) ∧
          (∀ p rest, m.latch = p :: rest →
            ((s.core next).holdsStage me.tenant = false → exec .mpass s = .next ((take rest).setRegs q)) ∧
            ((s.core next).holdsStage me.tenant = true → (s.core next).latchFull = false →
              exec .mpass s = .next (((take rest).updMatrix next (·.arrive p)).setRegs q)) ∧
            ((s.core next).holdsStage me.tenant = true → (s.core next).latchFull = true →
              exec .mpass s = .next (s.updMe fun t => { t.block .memory .panel with held := some .mpass })))) ∧
        (me.state ≠ .follow → me.gang ≠ 0 → ∃ t : State, exec .mpass s = .next (t.setRegs q) ∧ KeepsMe s t ∧
          ∀ i, i < me.gang → (t.core (ring.getD i 0)).matrix.latch =
            (s.core (ring.getD i 0)).matrix.latch.drop 1 ++ (front (ring.getD ((i + me.gang - 1) % me.gang) 0)).toList))

/-- R9, R189, R191 to R193, R196 to R198: the matrix instructions. -/
def Obligations.MatrixInstructions : Prop := MatrixUnit ∧ PanelPassing

/-- R189, R199, R200, R308: `MCMD` to a core whose command is served in the step answers the status of the first check that
fails, in their order; an accepted `MZERO` clears the accumulator there, or is held while a job or an earlier command that waits names it, and
answers 0. Inside a domain a command joins
the outbox and answers `0x4000_0000`. -/
def Obligations.RemoteCommands : Prop :=
  ∀ (s : State) (d a b : BitVec 5) (c : BitVec 3),
    let r := s.regs
    let me := s.me
    let dst := (r.val a).toNat
    let x := s.commandOf b c
    let k := s.core dst
    let answers (t : State) (v : Word) : Prop := exec (.mcmd d a b c) s = .next (t.completed [a] [d] (s.wrote d v 4))
    let ranged := x.ranges.all (fun g => decide (Cap.at x.cap g.1 / 2 ^ 16 % 2 ^ 26 = dst) &&
      s.inPartition dst x.cap.dom (Cap.at x.cap g.1 % 2 ^ 16) g.2.1)
    let owned := x.cap.tag && x.cap.perm.getLsbD 6 && decide (x.cap.space = 1) && decide (x.cap.base / 2 ^ 16 % 2 ^ 26 = dst)
      && decide (x.cap.dom = me.tenant) && k.holdsStage me.tenant && ranged
    let reached := x.ranges.all fun g => x.cap.perm &&& (if g.2.2.2 then pWR else pRD) != 0 && decide (0 ≤ g.1) &&
      decide (g.1 + g.2.1 ≤ (x.cap.len : Int))
    let aligned := x.ranges.all fun g => decide (Cap.at x.cap g.1 % g.2.2.1 = 0)
    s.goodName dst = true → s.portsReady [a] [d] →
      (∀ v rest, me.inWorld = false → me.views = v :: rest →
        exec (.mcmd d a b c) s = .next ((s.updMe fun t =>
          { t with views := { v with outbox := v.outbox ++ [.command dst x] } :: rest }).completed [a] [d]
            (s.wrote d 0x40000000 4))) ∧
      (me.views = [] → s.releasing = false → s.path s.home dst = .near → s.portBusy s.home dst = false →
        (owned = false → answers s 0x80000001) ∧
        (owned = true → x.formed = false → answers s 0x80000002) ∧
        (owned = true → x.formed = true → reached = false → answers s 0x80000001) ∧
        (owned = true → x.formed = true → reached = true → aligned = false → answers s 0x80000002) ∧
        (owned = true → x.formed = true → reached = true → aligned = true →
          (x.op = 3 → 4 ≤ k.matrix.jobCount → answers s 0x80000003) ∧
          (x.op = 4 → k.matrix.names [x.acc] = false → k.matrix.held = [] →
            answers (s.updMatrix dst (·.zero x.acc)) 0) ∧
          (x.op = 4 → k.matrix.names [x.acc] = true ∨ (∃ h ∈ k.matrix.held, h.cmd.op = 4 ∧ h.cmd.acc = x.acc) →
            answers (s.updMatrix dst fun m => { m with held := m.held ++ [⟨s.home, me.tenant, x, none⟩] }) 0)))

/-! ### Copies, collectives and views -/

/-- R9, R202, R204, R206, R207: a command whose checks pass issues as the next copy of its core, chained to a predecessor of
its tenant that is in the table (entry 90) and was issued with `cont`; a name that is not answers `0x8000_0002`, also that
of the entry that has just retired to make room (entry 84); inside a domain it
joins the outbox, and a chained name there escapes; `CPYW` waits for a copy's record and `CPYQ` answers the bytes
left. -/
def Obligations.Copies : Prop :=
  ∀ (s : State) (d a : BitVec 5) (scope : BitVec 3),
    let r := s.regs
    let me := s.me
    let k := s.core s.home
    let room := k.copyRoom
    let x := r.copyDesc false scope
    let y := r.copyDesc true scope
    let strike (x : CopyDesc) := ((s.pkg (pkgOf s.home)).tenant me.tenant).bind (·.strikes x)
    let new (x : CopyDesc) (pred : Option (BitVec 16)) : Copy :=
      Copy.make k.copyNext x s.curSlot me.gen me.tenant pred (strike x)
    let issues (i : Instr) (srcs : List (BitVec 5)) (x : Copy) : Prop := s.portsReady srcs [d] →
      ∃ t : State, exec i s = .next (t.completed srcs [d] (s.wrote d (k.copyNext.zeroExtend 32) 4)) ∧
        (t.core s.home).copies = room.copies ++ [x] ∧ (t.core s.home).copyNext = k.copyNext + 1
    let id : BitVec 16 := (r.val a).setWidth 16
    let found := ((if r.val a = 0xFFFFFFFF then me.lastCopy else some id).bind room.copy).filter (·.tenant == me.tenant)
    let joins (i : Instr) (srcs : List (BitVec 5)) (x : CopyDesc) (chained : Bool) (v : View) (rest : List View) : Prop :=
      s.portsReady srcs [d] → exec i s = .next ((s.updMe fun t =>
        { t with views := { v with outbox := v.outbox ++ [.copy x chained] } :: rest }).completed srcs [d]
          (s.wrote d 0x40000000 4))
    (me.views = [] → s.releasing = false → k.copyFull = false →
      (s.checkCopy x = .ok () → issues (.cpy d scope) [] (new x none)) ∧
      (s.checkCopy y = .ok () →
        (∀ q, found = some q → q.desc.cont = true → q.posted = false →
          issues (.cpyc d a scope) [a] (new y (some q.id))) ∧
        (∀ q, found = some q → q.desc.cont = true → q.posted = true →
          issues (.cpyc d a scope) [a] ((new y (some q.id)).follow q)) ∧
        (found.all (fun q => !q.desc.cont) = true → s.portsReady [a] [d] → ∃ t : State,
          exec (.cpyc d a scope) s = .next (t.completed [a] [d] (s.wrote d 0x80000002 4)) ∧
          (t.core s.home).copies = room.copies))) ∧
    (∀ v rest, me.inWorld = false → me.views = v :: rest →
      (s.checkCopy x = .ok () → joins (.cpy d scope) [] x false v rest) ∧
      (s.checkCopy y = .ok () → r.val a = 0xFFFFFFFF → joins (.cpyc d a scope) [a] y true v rest)) ∧
    (me.inWorld = false → me.views ≠ [] → s.checkCopy y = .ok () → r.val a ≠ 0xFFFFFFFF → s.portsReady [a] [d] →
      exec (.cpyc d a scope) s = .next (s.trapMe ⟨6, 0, 0, scope⟩)) ∧
    (s.portsReady [a] [] → k.copyComplete id = true →
      exec (.cpyw a) s = .next ((s.acquire 5).completed [a] [] (r.advance 4))) ∧
    (s.portsReady [a] [] → k.copyComplete id = false →
      exec (.cpyw a) s = .next (s.updMe fun t => { t.block .sleep (.copy id) with held := some (.cpyw a) })) ∧
    Completes (.cpyq d a) s [a] [d] (s.wrote d (BitVec.ofNat 32 (k.copyLeft id)) 4)

/-- R208, R209: the collective instructions on a group bound for the thread's tenant of which its core is a member: `GCON`
contributes, `GRES` takes the result of its core's latest round or sleeps, `BARMAX` contributes to a maximum group and
sleeps until the round's result; a contribution waits while a round of the core is in progress. The checks come in
their order. -/
def CollectiveInstructions : Prop :=
  ∀ (s : State) (d a : BitVec 5) (g : BitVec 6) (t : Truss),
    let r := s.regs
    let n := g.toNat
    let home := s.home
    let k := s.core home
    let round := (k.coll n).contributed
    let srcs : List (BitVec 5) := if t.op ≠ 1 ∧ t.op ≠ 4 then [a] else []
    let faults (i : Instr) (cls detail : BitVec 8) (addr : Nat) : Prop :=
      exec i s = .next (s.trapMe ⟨cls, detail, BitVec.ofNat 64 addr, 0⟩)
    let all : List Instr := [.gcon a g, .gres d g, .barmax d a g]
    (s.me.views ≠ [] → ∀ i ∈ all, faults i 6 0 0) ∧
    (s.me.views = [] → s.groupOf s.me.tenant n = none → s.memberOf s.me.tenant n home = false →
      ∀ i ∈ all, faults i 5 1 n) ∧
    (s.me.views = [] → s.groupOf s.me.tenant n = some t →
      (t.op ≠ 3 → faults (.barmax d a g) 5 2 n) ∧
      (t.op = 3 → (sSrc a && sDst d) = false → faults (.barmax d a g) 1 5 0) ∧
      (conField t.op a = false → faults (.gcon a g) 1 5 0) ∧
      (resField t.op d = false → faults (.gres d g) 1 5 0) ∧
      (s.memberOf s.me.tenant n home = false →
        (conField t.op a = true → faults (.gcon a g) 5 5 n) ∧
        (resField t.op d = true → faults (.gres d g) 5 5 n) ∧
        (t.op = 3 → sSrc a = true → sDst d = true → faults (.barmax d a g) 5 5 n)) ∧
      (s.memberOf s.me.tenant n home = true →
        (conField t.op a = true → k.pending n = true → exec (.gcon a g) s = .next s) ∧
        (conField t.op a = true → k.pending n = false → s.portsReady srcs [] →
          exec (.gcon a g) s = .next ((s.contribute home n (r.contribution t.op a)).completed srcs [] (r.advance 4))) ∧
        (resField t.op d = true → ∀ x memb, k.resultFor n round = some (x, memb) →
          exec (.gres d g) s = .next (s.setRegs ((r.writeResult t.op d x memb).advance 4))) ∧
        (resField t.op d = true → k.resultFor n round = none →
          exec (.gres d g) s = .next (s.updMe fun t => { t.block .sleep (.result n round) with held := some (.gres d g) })) ∧
        (t.op = 3 → sSrc a = true → sDst d = true → k.pending n = false → s.portsReady [a] [d] →
          exec (.barmax d a g) s = .next ((s.contribute home n (r.contribution 3 a)).updMe fun t =>
            { t.block .sleep (.result n (round + 1)) with held := some (.barmax d a g), regs := r.consume [a] }))))

/-- R96, R210: folding items in ascending port order keeps their counts: every contribution is either in the fold or
omitted, whatever the operator. -/
def FoldsKeepCounts : Prop :=
  ∀ (op : BitVec 3) (items : List (Nat × Item)),
    let ports := (List.range 40).filterMap (look items)
    let z := foldItems op items
    z.count + z.omitted = ports.foldl (fun n x => n + (x.count + x.omitted)) 0

/-- R96, R208 to R210: the collective instructions, and the counts that a fold keeps. -/
def Obligations.Collectives : Prop := CollectiveInstructions ∧ FoldsKeepCounts

/-- R213, R214, R216, R217: `DOPEN` with an empty record list opens a domain whose view keeps the registers, the address of
the next instruction and the destination of its status, or answers why not; `DCLOSE` of an inner domain merges its
view into the next one with its outbox, of an outermost one waits for the commit point, and of no domain escapes;
`VSTAT` answers the stack. -/
def Domains : Prop :=
  ∀ (s : State) (d a : BitVec 5) (scope : BitVec 3) (v u : View) (rest : List View),
    let r := s.regs
    let me := s.me
    let home := pkgOf s.home
    let open_ : Instr := .dopen d a scope
    let none_ : Prop := (r.ext 0).extractLsb' 8 8 = 0 ∧ (r.ext 0).getLsbD 3 = false
    let status (x : Word) : Prop := exec open_ s = .next (s.completed [a] [d] (s.wrote d x 4))
    (none_ → s.portsReady [a] [d] →
      (8 ≤ me.views.length → status 0x80000004) ∧
      (me.views.length < 8 → (s.pkg home).freeView = none → status 0x80000005) ∧
      (∀ n, me.views.length < 8 → (s.pkg home).freeView = some n →
        (s.roomFor scope 1024 = none → status 0x80000003) ∧
        (∀ o s', s.roomFor scope 1024 = some (o, s') → ∃ t : State,
          exec open_ s = .next (t.completed [a] [d] (s.wrote d 0 4)) ∧
          ∃ x, t.me.views = x :: me.views ∧ x.num = n ∧ x.rival = false ∧ x.scope = scope ∧ x.dst = d ∧
            x.resume = r.pc + 4 ∧ x.retry = 0 ∧ x.saved = r.consume [a] ∧ x.outbox = []))) ∧
    (me.views = [] → exec .dclose s = .next (s.trapMe ⟨6, 0, 0, 0⟩)) ∧
    (me.views = v :: rest → v.rival = true → exec .dclose s = .next (s.trapMe ⟨6, 0, 0, 0⟩)) ∧
    (me.views = [v] → v.rival = false → ∃ t : State, exec .dclose s = .next t ∧ t.me.wait = .commit ∧ t.me.regs = r ∧
      ∃ c, (t.pkg home).commits = (s.pkg home).commits ++ [c] ∧ c.view = v.num ∧ c.lines = (s.pkg home).linesIn v.num ∧
        c.raise = List.range s.podSize ∧ c.core = s.curCore ∧ c.slot = s.curSlot) ∧
    (me.views = v :: u :: rest → v.rival = false → ∃ t : State, exec .dclose s = .next t ∧
      t.me.views = { u with outbox := u.outbox ++ v.outbox } :: rest ∧ t.regs = r.advance 4) ∧
    Completes (.vstat d) s [] [d] (s.wrote d me.vstat 4)

/-- R213, R217, R218, R219, R356: `FORK` refuses bad operands, a full stack and a lack of slots, of view numbers and of room by
their statuses, in this order, and after them a window with a marked word, a bad failure target and a gang by faults,
and otherwise leaves the parent asleep beside its rivals; `CHOOSE` of the first chooser of a
world decides it: the outermost one's commit is taken, a nested one wins at once, and a later chooser is killed;
`ABANDON` kills its rival. -/
def Worlds : Prop :=
  ∀ (s : State) (d a b : BitVec 5) (v u : View) (rest : List View) (w : World),
    let r := s.regs
    let me := s.me
    let own := pkgOf s.home
    let fork : Instr := .fork d a b
    let count := (r.val a).toNat % 16
    let len := 16 * ((r.val a).toNat / 2 ^ 16)
    let rivals := (s.pkg own).openViews (me.chain.headD 0) me.tenant true count
    let room := (s.core s.home).keepAlloc (count * len)
    let poisoned := (s.core s.home).poisonFault s.home (s.keptWords me (r.val b).toNat len)
    let status (x : Word) : Prop := exec fork s = .next (s.completed [a, b] [d] (s.wrote d x 4))
    let decided : State := s.updPkg own fun p =>
      { p with worlds := p.worlds.map fun x => if x.id == w.id then { x with decided := true } else x }
    let killed (i : Instr) : Prop := ∃ t : State, exec i s = .next t ∧ t = (s.killThread s.curCore s.curSlot).setRegs
      (s.killThread s.curCore s.curSlot).regs
    (s.portsReady [a, b] [d] →
      (me.gang ≠ 0 → exec fork s = .next (s.trapMe ⟨6, 0, 0, 0⟩)) ∧
      (me.gang = 0 → (r.ext 7).getLsbD 0 = true → exec fork s = .next (s.trapMe ⟨2, 2, (r.ext 7).zeroExtend 64, 0⟩)) ∧
      (me.gang = 0 → (r.ext 7).getLsbD 0 = false →
        (s.badFork (r.val a) (r.val b) = true → status 0x80000006) ∧
        (s.badFork (r.val a) (r.val b) = false →
          (8 ≤ me.views.length → status 0x80000004) ∧
          (me.views.length < 8 → (s.quadSlots s.home).length < count → status 0x80000001) ∧
          (me.views.length < 8 → count ≤ (s.quadSlots s.home).length →
            (rivals = none → status 0x80000005) ∧
            (∀ nums p, rivals = some (nums, p) → (room = none → status 0x80000003) ∧
              (∀ o k, room = some (o, k) →
                (∀ f, poisoned = some f → exec fork s = .next (s.trapMe f)) ∧
                (poisoned = none →
                  exec fork s = .next (((s.setPkg own p).setCore s.home k).openWorld d (r.ext 7) nums
                    ((s.quadSlots s.home).take count) (r.val b).toNat len o (r.consume [a, b]))))))))) ∧
    (me.views = [] → ∀ i ∈ [Instr.choose, .abandon], exec i s = .next (s.trapMe ⟨6, 0, 0, 0⟩)) ∧
    (me.gang = 0 → me.inWorld = true → killed .abandon) ∧
    (me.gang = 0 → me.views = v :: rest → v.rival = true → (s.pkg own).world v.world = some w →
      (w.decided = true → killed .choose) ∧
      (w.decided = false → rest = [] → exec .choose s = .next (decided.lockCommit v.num true .choose)) ∧
      (w.decided = false → rest = u :: rest.tail → ∃ t : State, exec .choose s = .next t ∧
        t = let z := (decided.updPkg own fun p => p.commitInto v.num u.num).winWorld s.curCore s.curSlot v w (r.advance 4)
          z.setRegs z.regs))

/-- R213, R214, R216 to R219: domains and worlds. -/
def Obligations.Views : Prop := Domains ∧ Worlds

/-! ### Events: messages, threads, faults and homes -/

/-- R183, R184, R185, R186, R199, R227, R280, R287, R336, R343: the first message under way, when nothing holds it, the links
of its route carry it and no start comes before one that it asks for, reaches its core by the event of its kind: a request that
names another incarnation of its die is dropped and issues again with the one the map holds (entry 74); of the others entries
enter their queue, a peg is deposited, a thread starts, a command is decided, a launch is answered; a message that fails a check of
the pod ports is refused. -/
def Obligations.MessageArrivals : Prop :=
  ∀ (s : State) (m : Msg) (rest : List Msg) (q : Fin 8) (es : List Entry) (r : Nat) (st : Fin 16) (peg : Entry) (n : Fin 8)
    (gen : BitVec 8) (req : SpawnRequest) (x : MatrixCommand) (e : Word) (bound : BitVec 3)
    (src ten other k : Nat) (e' : Word) (peg' : Entry),
    s.fabric = m :: rest → s.edgeHolds m.src m.dst = false → s.carries m.src m.dst 2 = true →
    let u : State := { s with fabric := rest }
    let event (q : Fin 8) : Instr := if q = 6 then .returnArrival m.dst else .queueArrival m.dst q
    let counted (i : Instr) (t : State) : Prop := exec i s = .next (t.countArrived m)
    let idle : Prop := s.startsFirst m.dst = false
    let now := (s.pkg (pkgOf m.dst)).mapInc false (dieOf m.dst)
    (m.dinc ≠ now → m.payload = .callat st peg n gen →
      exec (.callatDeposit m.dst) s = .next { s with fabric := { m with dinc := now } :: rest }) ∧
    (m.dinc ≠ now → m.payload = .spawn req → idle →
      exec (.spawnRequest m.dst) s = .next { s with fabric := { m with dinc := now } :: rest }) ∧
    ((m.payload.asks = true → m.dinc = now) → s.admitted m = true → s.scribeHolds m.src m.dst = false → s.heldBehind m.src m.dst = false →
      (m.payload = .queue q.val es r →
        ∃ t : State, counted (event q) t ∧ t.fabric = rest ∧
          ((s.core m.dst).discards q.val m.dom es = true → r = 0 →
            (t.core m.dst).queues = (s.core m.dst).queues ∧
              (t.core m.dst).orph = BitVec.ofNat 32 (min ((s.core m.dst).orph.toNat + 1) 0xFFFFFFFF)) ∧
          ((s.core m.dst).discards q.val m.dom es = false → (s.pkg (pkgOf m.dst)).waits m.src m.dst = false → r = 0 →
            es.length ≤ ((s.core m.dst).queue q.val).free →
              ((t.core m.dst).queue q.val).entries.map (·.words) =
                ((s.core m.dst).queue q.val).entries.map (·.words) ++ es)) ∧
      (m.payload = .callat st peg n gen →
        let v := u.deposit m.dst m.dom st.val peg
        counted (.callatDeposit m.dst) (v.1.returnStatus m.dst m.src n gen v.2)) ∧
      (m.payload = .spawn req → idle →
        let v := u.serveSpawn m.dst req.tenant req.entry req.bound req.prio req.peg
        counted (.spawnRequest m.dst) (v.1.returnStatus m.dst req.core req.slot req.gen v.2)) ∧
      (m.payload = .command x (some (n, gen)) → (s.core m.dst).nextHeld = none → s.portBusy m.src m.dst = false →
        let v := u.serveCommand m.src m.dst m.dom x
        counted (.mcmdCommand m.dst) (v.1.returnStatus m.dst m.src n gen v.2)) ∧
      (m.payload = .launch e bound peg → idle →
        let v := u.launch m.dom m.dst e bound peg
        counted (.launchMessage src ten m.dst e' k peg')
          (v.1.updPkg (pkgOf m.dst) fun p => { p with answers := p.answers ++ [(m.src, BitVec.ofNat 32 v.2.1)] }))) ∧
    ((m.payload.asks = true → m.dinc = now) → s.admitted m = false →
      (m.payload = .queue q.val es 0 → counted (event q)
        (u.updPkg (pkgOf m.dst) fun p => { p with refusals := p.refusals + 1 })) ∧
      (m.payload = .launch e bound peg → idle → counted (.launchMessage src ten m.dst e' k peg')
        (u.updPkg (pkgOf m.dst) fun p => { p with answers := p.answers ++ [(m.src, 5)] })) ∧
      (m.payload = .callat st peg n gen → counted (.callatDeposit m.dst) (u.returnStatus m.dst m.src n gen 3)) ∧
      (m.payload = .spawn req → idle → counted (.spawnRequest m.dst)
        (u.returnStatus m.dst req.core req.slot req.gen 0x80000003))) ∧
    (∀ i ∈ [Instr.queueArrival other q, .returnArrival other, .callatDeposit other, .spawnRequest other], other ≠ m.dst →
      rest = [] → exec i s = .next s)

/-- R278, R285, R304, R323, R329, R364: a parked message is delivered when its queue has space, and the others of its triple
take their turn behind those of other triples; a held delivery proceeds once its log has room, no start comes before one
that it asks for and its sender has no command in the port; a pooled peg enters the entry reserved for it; a reservation is held
at once by a local binding, and granted and then held by a remote one, over links that carry the exchange, and none is made
while the image of a core of it lies in its context area. -/
def Obligations.WaitingDeliveries : Prop :=
  ∀ (s : State) (core pkg die : Nat) (q : Fin 8) (stage : Fin 16) (m : Parked) (d : Msg) (rest : List Parked)
    (held : List Msg) (peg : Entry) (oc oq : Nat),
    let k := s.core core
    let p := s.pkg (pkgOf core)
    let g := k.stages[stage]
    let log := p.scribe (dieOf core)
    let same (x : Parked) : Bool := x.src == m.src && x.core == core
    let setStage (t : State) (h : Stage) : State := t.updCore core fun k => { k with stages := k.stages.set stage h }
    (p.parked = m :: rest → m.core = core → m.q = q.val → k.stopped = false →
      (k.queue m.q).admits m.entries.length m.resv = true → k.discards m.q m.dom m.entries = false →
        exec (.parkedDelivery core q) s = .next ((s.updPkg (pkgOf core) fun p =>
          { p with parked := rest.filter (fun x => !same x) ++ rest.filter same }).enter core m.q m.entries m.resv)) ∧
    ((s.pkg pkg).scribeHeld = d :: held → dieOf d.dst = die → (d.payload.starts = true → s.startsFirst d.dst = false) →
      (d.payload.isCommand = true → s.portBusy d.src d.dst = false) →
      (s.scribeHolds d.src d.dst = true → exec (.scribeHoldRelease pkg die) s = .next s) ∧
      (s.scribeHolds d.src d.dst = false → exec (.scribeHoldRelease pkg die) s =
        .next (((s.updPkg pkg fun p => { p with scribeHeld := held }).serve d).countArrived d))) ∧
    (0 < g.poolResv → s.saved core = false → log.entries.length < 64512 →
      (p.pool g.tenant).items.find? (·.isPeg core stage) = some (.peg core stage peg) → ∃ t : State,
        exec (.poolReturn core stage) s = .next t ∧ (t.core core).stages[stage].poolResv = g.poolResv - 1 ∧
          ((t.core core).queue g.inq).entries.map (·.words) = (k.queue g.inq).entries.map (·.words) ++ [peg]) ∧
    (k.needsReservation stage = true → stageOutput core g.bits = some (oc, oq) →
      g.rout ≤ ((s.core oc).queue oq).free → s.saved oc = false → s.carries core oc 4 = true →
      s.routed (pkgOf core) (pkgOf oc) = true →
      let u := s.updCore oc fun k => k.setQueue oq { k.queue oq with reserved := (k.queue oq).reserved + g.rout }
      exec (.reservationRequest core stage) s = .next (setStage u
        (if g.bits.extractLsb' 16 2 = 2 then { g with standing := g.rout } else { g with granted := true }))) ∧
    (k.needsReservation stage = true → stageOutput core g.bits = some (oc, oq) →
      ((s.core oc).queue oq).free < g.rout ∨ s.saved oc = true ∨ s.carries core oc 4 = false →
      exec (.reservationRequest core stage) s = .next s) ∧
    (g.granted = true → s.saved core = false → stageOutput core g.bits = some (oc, oq) → s.carries oc core 4 = true →
      exec (.reservationGrant core stage) s =
      .next (setStage s { g with granted := false, standing := g.rout })) ∧
    (g.granted = false → exec (.reservationGrant core stage) s = .next s)

/-- R31, R123, R147, R159, R178, R218, R279, R280, R281, R287, R336: the chosen stage fires into the lowest FREE slot, which
starts READY at the stage's entry; a held launch starts when no handler stage is eligible; sleepers and waiting threads
go on when what they wait for has come, and not before; an arrival at a barrier travels to the control die that counts it, for the
pod the lowest of a package not declared lost (entry 94); a late reply or status is dropped and its request issues again. -/
def ThreadSteps : Prop :=
  ∀ (s : State) (core : Nat) (slot n : Fin 8) (stage : Fin 16) (special : Bool) (p : Port) (at_ : Nat) (r : Reply) (m : Msg) (gen : BitVec 8) (v : Word)
    (ten level inst c : Nat) (rest : List Nat) (launch : Nat × Word × BitVec 3 × Entry × Nat),
    let k := s.core core
    let t := s.slot core slot
    let g := k.stages[stage]
    let time := (s.pkg (pkgOf core)).ptc.toNat
    let b := s.barrier ten level inst
    let set (x : Slot) : State := s.setSlot core slot x
    (s.firingChoice core = some stage → ∀ l, k.freeSlots = n :: l → ∃ u : State,
      exec (.stageFiring core stage) s = .next u ∧ (u.slot core n).state = .ready ∧ (u.slot core n).tenant = g.tenant ∧
        (u.slot core n).gen = (k.slot n).gen ∧ (u.slot core n).issued = (k.slot n).issued ∧ (u.slot core n).regs.pc = g.bits.extractLsb' 32 32 ∧
        (u.slot core n).bound = BitVec.ofNat 3 g.inq ∧ (u.core core).stages[stage].live = g.live + 1 ∧
        (u.core core).stages[stage].standing = 0) ∧
    (s.firingChoice core ≠ some stage → exec (.stageFiring core stage) s = .next s) ∧
    ((∀ i : Fin 16, (k.eligible i && k.stages[i].hcl) = false) → k.stopped = false →
      s.heldLaunches core = [(launch.1, .launch core launch.2.1 launch.2.2.1 launch.2.2.2.1 launch.2.2.2.2)] →
      k.startSlot = some n → ∃ u : State, exec (.heldLaunchStart core) s = .next u ∧ (u.slot core n).state = .ready ∧
        (u.slot core n).tenant = launch.1 ∧ (u.slot core n).regs.pc = launch.2.1 ∧ (u.slot core n).lch = true) ∧
    (t.wait = .port p → p ≠ .qdn → k.stopped = false →
      exec (.portWake core slot) s = .next (if s.portHas core slot p then set t.unblock else s)) ∧
    (t.wait = .port .qdn → k.stopped = false → t.lch = true → t.regs.qdn.length = 4 →
      (s.core (downstream t.home)).holdsStage t.tenant = true → (∀ r ∈ k.releases, r.slot ≠ slot) →
      0 < ((s.core (downstream t.home)).queue 5).free → ∃ u : State, exec (.chainPushAccept core slot) s = .next u ∧
        (u.slot core slot).wait = .none ∧ (u.slot core slot).regs.qdn = [] ∧
        ((u.core (downstream t.home)).queue 5).entries.map (·.words) =
          ((s.core (downstream t.home)).queue 5).entries.map (·.words) ++ [entryOfList t.regs.qdn]) ∧
    (t.wait = .deadline at_ → k.stopped = false → exec (.twaitWake core slot) s =
      .next (if time < at_ then s else set { t.unblock with regs := t.regs.advance 4 })) ∧
    (b.signals = c :: rest → s.carries c (controlAgent (s.barrierHub level c)) 4 = true →
      let u := s.setBarrier { b with signals := rest }
      exec (.barrierSignal ten level inst) s = .next (if s.routed (pkgOf c) (s.barrierHub level c) then u.arriveAt ten level inst c
        else u.updPkg (pkgOf c) fun p => { p with errors := p.errors + 1 })) ∧
    ((∀ x ∈ b.signals, s.carries x (controlAgent (s.barrierHub level x)) 4 = false) →
      exec (.barrierSignal ten level inst) s = .next s) ∧
    (b.signals = [] → exec (.barrierSignal ten level inst) s = .next s) ∧
    (t.state = .ready → k.stopped = false →
      exec (.losingRivalKill core slot) s = .next (if s.loser t then s.killThread core slot else s)) ∧
    (t.reply = some r → s.replyCarried core r = true → exec (.memoryReply core slot) s =
      .next (if (s.pkg r.pkg).mapInc r.base r.index = r.inc then set { t.unblock with regs := r.regs }
        else set { t with reply := none })) ∧
    (t.reply = none → s.statusFor core slot = some m → m.payload = .status slot gen v → m.dst = core →
      let u : State := { s with fabric := s.fabric.erase m }
      exec (.memoryReply core slot) s = .next (if m.sinc = (s.pkg (pkgOf m.src)).mapInc false (dieOf m.src) ∨ 2 ^ 26 ≤ m.src then
        u.answerStatus core slot gen v else u.askAgain core slot gen))

/-- R147, R148, R290, R298: a pipe takes one entry in a cycle of its core: the slot table's, else the next slot in rotation, of the
slots with an entry for the pipe that waits for no earlier one of its thread; an entry that is its thread's oldest is performed,
another when those before it have completed. A pipe that has taken one in the core's present cycle takes the next one a cycle
later, where no slot can issue before (entries 2, 16). -/
def SequencerPipes : Prop :=
  ∀ (s : State) (core : Nat) (special : Bool) (n : Fin 8) (before after : List SeqEntry) (e : SeqEntry) (v : VForm),
    let k := s.core core
    let cycle := max k.cycle (if special then k.turn.2 else k.turn.1)
    let now := cycle = k.cycle ∨ ∀ i, (k.slot i).state ≠ .ready
    let row := k.turns[Fin.ofNat 32 cycle]
    let ready (i : Fin 8) : Prop := s.pipeReady core special i = true
    let handler (i : Fin 8) : Prop := (k.slot i).hcl = true ∧ ready i
    let named (i : Fin 8) : Prop := row.getLsbD 7 = true ∧ row.toNat % 8 = i.val ∧ ready i
    let chosen := s.pipeChoice core special cycle
    let mine := k.seq.filter (·.slot == n)
    let ours (x : SeqEntry) : Prop := ∃ f, x.form = some f ∧ f.specialPipe = special
    (28 ≤ cycle % 32 → handler n → (∀ i < n, ¬ handler i) → chosen = some n) ∧
    (cycle % 32 < 28 → named n → chosen = some n) ∧
    ((28 ≤ cycle % 32 → ∀ i, ¬ handler i) → (cycle % 32 < 28 → ∀ i, ¬ named i) →
      chosen = (slotsAfter (if special then k.served.2 else k.served.1)).find? (s.pipeReady core special)) ∧
    (mine = before ++ e :: after → (∀ x ∈ before, ¬ ours x) → e.form = some v → v.specialPipe = special →
      (before = [] → (ready n ↔ s.seqReady core n = true)) ∧
      (before ≠ [] → (ready n ↔ e.taken = false ∧ e.gang = 0 ∧ ∀ x ∈ before, x.written.meets v.used = false)) ∧
      (k.stopped = false → now → chosen = some n →
        let t := s.updCore core fun k => { k with
          turn := if special then (k.turn.1, cycle + 1) else (cycle + 1, k.turn.2)
          served := if special then (k.served.1, n) else (n, k.served.2)
          cycle := max k.cycle cycle }
        exec (.sequencerEntry core special) s =
          .next (if before = [] then t.seqPerform core n else t.updCore core (·.seqMark special n)))) ∧
    (k.stopped = true ∨ ¬ now ∨ chosen = none → exec (.sequencerEntry core special) s = .next s)

/-- R31, R123, R147, R159, R178, R185 to R187, R199, R218, R279 to R281, R287 to R290, R336: threads start, sleep and go on; the
pipes of the sequencer. -/
def Obligations.ThreadStartsAndWakes : Prop := ThreadSteps ∧ SequencerPipes

/-- R126, R148, R291, R292, R293, R294, R304, R355: a fault waits for the thread's earlier sequencer entries, and then its
records are written and the slot parks; a waiting peg, and then one of a lost thread, enters queue 7 when it has space and the
core's image does not lie in its context area; the service OS hands a peg on with `svc` 2
where it has not mended anything, and resumes, retries or kills only a PARKED thread whose peg it keeps. -/
def Obligations.FaultEvents : Prop :=
  ∀ (s : State) (core : Nat) (slot n : Fin 8) (f : PendingFault) (p : FaultPeg) (lost : Nat × Entry) (maps : List (Nat × BitVec 64)),
    let k := s.core core
    let t := s.slot core slot
    let q := k.queue 7
    let keeps : Prop := s.saved core = false ∧ t.peg = some (.service p) ∧ s.serviceKeeps core slot = true ∧ t.state = .parked ∧ t.gen = p.gen
    (t.pendFault = some f → k.seqBusy slot = true → exec (.faultRecord core slot) s = .next s) ∧
    (t.pendFault = some f → k.seqBusy slot = false → t.peg = none → t.views = [] → ∃ u : State,
      exec (.faultRecord core slot) s = .next u ∧ (u.slot core slot).state = .parked ∧
        (u.slot core slot).faultPc = t.regs.pc ∧ (u.slot core slot).faultAddr = f.addr ∧
        (u.slot core slot).faultCause = causeWord f.cls f.detail f.gang f.scope ∧ (u.slot core slot).pendFault = none) ∧
    (0 < q.free → s.saved core = false → k.waitingPeg = some (n, p) → ∃ u : State, exec (.faultPegEnqueue core) s = .next u ∧
      ((u.core core).queue 7).entries = q.entries ++ [⟨p.words, none⟩] ∧ (u.slot core n).peg = none) ∧
    (q.free = 0 ∨ s.saved core = true → exec (.faultPegEnqueue core) s = .next s) ∧
    (0 < q.free → s.saved core = false → k.waitingPeg = none → (s.pkg (pkgOf core)).service.pegs.find? (·.1 == core) = some lost →
      ∃ u : State, exec (.faultPegEnqueue core) s = .next u ∧ (u.core core).queue 7 = { q with entries := q.entries ++ [⟨lost.2, none⟩] } ∧
        (u.pkg (pkgOf core)).service.pegs = (s.pkg (pkgOf core)).service.pegs.erase lost) ∧
    (t.peg = some (.service p) → s.saved core = true → exec (.serviceOsPegOnward core slot false maps) s = .next s) ∧
    (t.peg = some (.service p) → s.saved core = false → p.svc = 0 → p.cls = 0x04 ∨ p.cls = 0x0F →
      (s.serviceKeeps core slot = true → exec (.serviceOsPegOnward core slot false maps) s =
        .next (s.updSlot core slot fun t => { t with peg := some (.service { p with svc := 2 }) })) ∧
      (s.serviceKeeps core slot = false → 0 < q.free → k.pegWaits slot = false → ∃ u : State,
        exec (.serviceOsPegOnward core slot false maps) s = .next u ∧
          ((u.core core).queue 7).entries = q.entries ++ [⟨({ p with svc := 2 } : FaultPeg).words, none⟩] ∧
          (u.slot core slot).peg = none)) ∧
    (keeps → exec (.serviceOsRetry core slot) s =
      .next (s.setSlot core slot { t.unblock with regs := { t.regs with pc := t.faultPc }, peg := none })) ∧
    (keeps → t.faultCause.extractLsb' 16 16 = 0x0306 → exec (.serviceOsResume core slot) s =
      .next (s.updSlot core slot fun t => t)) ∧
    (keeps → t.faultCause.extractLsb' 16 16 ≠ 0x0306 → ∀ h, s.codeHalf (pkgOf core) t t.faultPc = some h →
      exec (.serviceOsResume core slot) s = .next (s.setSlot core slot { t.unblock with
        peg := none, regs := { t.regs with pc := t.faultPc + if h.getLsbD 15 then 4 else 2 } })) ∧
    (keeps → ∃ u : State, exec (.serviceOsKill core slot) s = .next u ∧ (t.views = [] → t.gang = 0 →
      (s.pkg (pkgOf core)).worlds = [] → (u.slot core slot).state = .free ∧ (u.slot core slot).gen = t.gen + 1)) ∧
    (t.peg = none → exec (.serviceOsResume core slot) s = .next s ∧ exec (.serviceOsRetry core slot) s = .next s ∧
      exec (.serviceOsKill core slot) s = .next s)

/-- R159, R177, R222, R224, R225, R255, R267, R269: the home performs the access of a waiting thread as its instruction's
meaning does on the unblocked thread; a result that is registers only travels back as a reply with the incarnation of
the die that answers. A `WAITNE` compares again. A lookaside buffer, a translation cache and L2 fill from their
tables, L2 where the line's set has room (entry 36). -/
def Obligations.HomeActions : Prop :=
  ∀ (s : State) (core : Nat) (slot : Fin 8) (i : Instr) (a : HomeAction) (f : State → Out) (dom region addr : Nat)
    (host : Bool) (row : RightsRow),
    let t := s.slot core slot
    let u := s.carryOut core slot f
    let die := s.responder core slot i
    let inc := (s.pkg die.1).mapInc die.2.1 die.2.2.1
    let answered : State := if onlyRegs t (u.slot core slot) then u.setSlot core slot { t with
        reply := some ⟨(u.slot core slot).regs, die.1, die.2.1, die.2.2.1, die.2.2.2, inc⟩ } else u
    let h := homePkg addr
    (t.wait = .request → t.held = some i → homeMeaning i = some (a, f) →
      (t.reply = none → t.gone = false →
        (a = .read → exec (.homeRead core slot) s = .next answered) ∧
        (a = .read → plainRead i = true → exec (.proxyRead core slot) s = .next answered) ∧
        (a = .write → exec (.homeWrite core slot) s = .next answered) ∧
        (a = .rmw → exec (.homeRmw core slot) s = .next answered) ∧
        (a = .block → exec (.blockAction core slot) s = .next answered)) ∧
      (a = .compare → (s.core core).stopped = false → exec (.waitneCompare core slot) s = .next u)) ∧
    (t.wait = .monitorRetry → t.held = some i → homeMeaning i = some (.compare, f) → (s.core core).stopped = false →
      exec (.waitneRetry core slot) s = .next u) ∧
    ((s.core core).plbFind dom region host = none →
      (s.pkg (pkgOf core)).rights.find? (fun r => r.dom == dom && r.region == region && r.host == host) = some row →
        ∃ v : State, exec (.plbFill core dom region host) s = .next v ∧
          (v.core core).plbFind dom region host = some ⟨host, dom, region, row.rights⟩ ∧ (v.core core).plb.length ≤ 64) ∧
    ((s.pkg h).cachedLeaf addr = none →
      ((∃ x, (s.pkg h).walk addr = .ok x) → ∃ v : State, exec (.translationWalk addr) s = .next v ∧
        (v.pkg h).cachedLeaf addr = some ((s.pkg h).leaf addr) ∧ v.mem = s.mem) ∧
      ((∃ d, (s.pkg h).walk addr = .error d) →
        exec (.translationWalk addr) s = .next s ∧ exec (.l2Fill addr) s = .next s)) ∧
    ((∃ x, (s.pkg h).walk addr = .ok x) → h < s.podSize → (s.pkg h).rebuild.contains (lineOf addr) = false →
      ((s.pkg h).l2.contains (lineOf addr) = true ∨ (s.pkg h).hasRoom (lineOf addr) = true →
        ∃ v : State, exec (.l2Fill addr) s = .next v ∧ lineOf addr ∈ (v.pkg h).l2 ∧ v.mem = s.mem) ∧
      ((s.pkg h).l2.contains (lineOf addr) = false → (s.pkg h).hasRoom (lineOf addr) = false →
        ∃ v : State, exec (.l2Fill addr) s = .next v ∧ (v.pkg h).l2 = (s.pkg h).l2))

/-! ### Events: engines, commits, coding and the fabric -/

/-- R193, R195, R196, R197: the first job binds the front panel and starts; a job that has run leaves the queue with its
accumulator committed on status 1, its completion word is stored in its mailbox, and its waiters go on; a waiting
`MPASS` moves its front when the next core's latch has room, and drops it where that core holds no stage of its tenant (entry
89). -/
def MatrixEvents : Prop :=
  ∀ (s : State) (core : Nat) (j : Job) (rest : List Job) (b : Panel) (latch rest' : List Panel) (error : JobError) (n : Fin 8),
    let k := s.core core
    let m := k.matrix
    let st := k.jobStatus j error
    let after := k.afterJob j error st
    let src := core / 4 * 4 + (core + 3) % 4
    (m.jobs = j :: rest → m.latch = b :: latch → j.started = false → exec (.mmaJobStart core) s =
      .next (s.updMatrix core fun m => { m with jobs := { j with started := true, front := some b } :: rest })) ∧
    (m.jobs = j :: rest → j.started = true → j.space = 0 → st ≠ 0x04 → s.saved j.core = false →
      s.pairServed core j.core = true → s.routed (pkgOf core) (pkgOf j.core) = true →
      (s.pkg (pkgOf j.core)).fenced.contains (false, (s.pkg (pkgOf j.core)).coreDie (dieOf j.core)) = false →
      ∃ t : State, exec (.mmaJobComplete core error) s = .next t ∧ (t.core core).matrix = { after with used := true } ∧
        (t.core j.core).loc = (s.core j.core).loc.writeN j.mbox
          (leBytes 4 (j.id ++ 0#6 ++ after.kinds j.type j.acc ++ st).toNat)) ∧
    (m.jobs = j :: rest → (st = 0x01 → after.jobs = rest) ∧ (st ≠ 0x01 → after.acc = m.acc)) ∧
    ((List.finRange 8).find? (fun n => (s.slot src n).wait == .panel) = some n →
      let taken := s.updMatrix src fun m => { m with latch := rest' }
      let on (t : State) : State := t.updSlot src n fun t => { t.unblock with regs := t.regs.advance 4 }
      let held := k.holdsStage (s.slot src n).tenant
      ((s.core src).matrix.latch = [] → exec (.mpassPanelArrival core) s = .next (on s)) ∧
      ((s.core src).matrix.latch = b :: rest' →
        (held = false → exec (.mpassPanelArrival core) s = .next (on taken)) ∧
        (held = true → k.latchFull = false →
          exec (.mpassPanelArrival core) s = .next (on (taken.updMatrix core (·.arrive b)))) ∧
        (held = true → k.latchFull = true → exec (.mpassPanelArrival core) s = .next s))) ∧
    ((∀ n, (s.slot src n).wait ≠ .panel) → exec (.mpassPanelArrival core) s = .next s)

/-- R203, R204, R205, R311, R312, R313, R314, R315: the first copy of an engine's queue enters its rotation of at most four
with a slice of 4 KiB; a unit is read at its source, staged at its destination where the stage buffers have room,
acknowledged, and released in order; a broken unit is read again up to three times; an ended copy writes its record; a
page fault is resolved by mapping the page, or ends the copy with the status of its side, the unit that met it and those
above it discarded. -/
def CopyEvents : Prop :=
  ∀ (s t : State) (core : Nat) (id : BitVec 16) (x : Copy) (u : CopyUnit) (us : List CopyUnit) (off len a : Nat)
    (bytes : List Byte) (dst : Bool) (maps : List (Nat × BitVec 64)),
    let k := s.core core
    let src := linePieces x.desc.src x.desc.soff.toInt
    let dest := linePieces x.desc.dst x.desc.doff.toInt
    (let e := s.enterQueue core
     e.nextStart core = some (core, x) → x.id = id → x.pred = none →
      exec (.copyStart core id) s = .next (if 4 ≤ e.engineLoad core then e
        else e.updCopy core id fun x =>
          { x with started := true, pred := none, turn := e.ticks, sliceEnd := x.next + 4096 })) ∧
    (k.copy id = some x →
      (x.started = true → x.posted = false → x.stalled = none → s.nextRead core x = some (off, len) →
        State.readPiecesOf core x.desc.src x.desc.soff.toInt (src off 66 len) s = .ok (bytes, t) →
          exec (.copyUnitRead core id) s = .next (t.updCopy core id fun x => x.setUnit off len bytes t.ticks)) ∧
      (x.unit off = some u → u.bytes ≠ [] → u.staged = false → x.stalled = none → s.stageRoom core x u = true →
        State.reachPieces core x.desc.dst x.desc.doff.toInt (dest u.off 66 u.len) s = .ok t →
          exec (.copyUnitStage core id off) s = .next (t.updCopy core id fun x => x.updUnit off fun u =>
            { u with staged := true })) ∧
      (x.unit off = some u → u.staged = true → u.acked = false → exec (.copyUnitAck core id off) s =
        .next (s.updCopy core id fun x => x.updUnit off fun u => { u with acked := true })) ∧
      (x.units = u :: us → u.acked = true → x.stalled = none →
        (u.broken = true → u.breaks < 3 → exec (.copyUnitRelease core id) s = .next (s.updCopy core id fun x =>
          x.updUnit u.off fun u =>
            { u with bytes := [], staged := false, acked := false, broken := false, breaks := u.breaks + 1 })) ∧
        (u.broken = false → State.reachPieces core x.desc.dst x.desc.doff.toInt (dest u.off 66 u.len) s = .ok t →
          exec (.copyUnitRelease core id) s = .next (t.releaseUnit core x u u.bytes))) ∧
      (x.ended = true → s.saved core = true → exec (.copyEnd core id) s = .next s) ∧
      (x.ended = true → x.stalled = none → s.saved core = false →
        (let b := placeOf core x.desc.mbox x.desc.moff.toInt
         s.engineWrite core b.space b.core b.addr 0 x.record (some (core, id)) = some t) →
          exec (.copyEnd core id) s = .next (t.settleCopy core x)) ∧
      (x.ended = false → exec (.copyEnd core id) s = .next s) ∧
      (x.stalled = some (off, a, dst) → s.saved core = true →
        exec (.copyPageFaultResolve core id true maps) s = .next s) ∧
      (x.stalled = some (off, a, dst) → s.saved core = false →
        (homePkg a < s.podSize → exec (.copyPageFaultResolve core id true maps) s =
          .next ((s.mapPages (homePkg a) maps).updCopy core id fun y => { y with stalled := none })) ∧
        exec (.copyPageFaultResolve core id false maps) s = .next (s.updCopy core id fun y =>
          { y with
            stalled := none, status := if dst then 0x04 else 0x03, fclass := 0x04
            units := y.units.filter fun u => decide (u.off < off) })))

/-- R193, R195 to R197, R203 to R205, R311 to R315: the steps of the matrix units and the copy engines. -/
def Obligations.EngineEvents : Prop := MatrixEvents ∧ CopyEvents

/-- R216, R241, R258, R261, R262, R320: for a commit every package raises its floor, keeps no read copy below it, and acknowledges; once every
acknowledgement has arrived the commit is recorded and applied; the first entry of a thread's released outbox is issued
once the coded write-backs that it waits for are acknowledged; a sweep keeps the live views and changes no memory. -/
def Obligations.CommitEvents : Prop :=
  ∀ (s : State) (pkg src core : Nat) (slot : Fin 8) (c : Commit) (r : Release) (d q : Nat) (es : List Entry),
    let k := s.core core
    let p := s.pkg pkg
    ((s.pkg src).commits = [c] → c.raise.contains pkg = true → ∃ t : State, exec (.floorRaise pkg src) s = .next t ∧
      (t.pkg pkg).floor = p.stamp + 1 ∧
      (∀ x ∈ (t.pkg pkg).copies, x ∈ p.copies ∧ notBefore x.stamp (p.stamp + 1) = true) ∧
      (t.pkg src).commits = [{ c with raise := delNum c.raise pkg, acks := c.acks ++ [pkg] }]) ∧
    (p.commits = [c] → c.acks.contains src = true → exec (.floorAck pkg src) s =
      .next (s.setPkg pkg { p with commits := [{ c with acks := delNum c.acks src }] })) ∧
    (p.commits = [c] →
      (c.raise ≠ [] ∨ c.acks ≠ [] → exec (.commitRecord pkg) s = .next s) ∧
      (c.raise = [] → c.acks = [] → exec (.commitRecord pkg) s = .next (s.recordCommit pkg c))) ∧
    (k.nextRelease slot = some r → k.stopped = false → r.lines = [] → r.item = .send d q es →
      ∃ t : State, exec (.outboxRelease core slot) s = .next t ∧ (t.core core).releases = k.releases.erase r ∧
        (s.path core d = .near → (s.core d).discards q r.tenant es = false → (s.slot core slot).resv = 0 →
          (s.pkg (pkgOf d)).waits core d = false → es.length ≤ ((s.core d).queue q).free →
            ((t.core d).queue q).entries.map (·.words) = ((s.core d).queue q).entries.map (·.words) ++ es)) ∧
    (k.nextRelease slot = some r → r.lines ≠ [] → exec (.outboxRelease core slot) s = .next s) ∧
    (∃ t : State, exec (.l2CleanSweep pkg) s = .next t ∧ t.mem = s.mem ∧
      (∀ v ∈ p.views, v.state = .live → v ∈ (t.pkg pkg).views) ∧ ∀ v ∈ (t.pkg pkg).views, v ∈ p.views)

/-- R268, R271, R317, R319, R321: a check applies a write-back's delta once, and the slice writes HBM once both checks have
acknowledged; a page joins a stripe of ten distinct packages, and leaves it, once the image of each of its lines has been applied
and acknowledged by both checks (entry 33); a lost line of no stripe that is next in order is poisoned; a
retired page is translated under its new entry, and the views keep what they wrote in it (entry 36); narrowed rights leave
every lookaside buffer of the package. -/
def Obligations.CodingEvents : Prop :=
  ∀ (s : State) (pkg line page : Nat) (q host : Bool) (w : Writeback) (st : List Nat) (entry : BitVec 64) (dom region : Nat)
    (rights : BitVec 4) (tr : Transit) (more : List (Nat × Bool × Bool)),
    let p := s.pkg pkg
    let h := homePkg (page * 65536)
    let pages := (s.pkg h).leafPages page
    let idle : Prop := (s.pkg h).dirty = [] ∧ (s.pkg h).transits = []
    let begun (i : Instr) (st : List Nat) (setting : Bool) : Prop :=
      ∃ t : State, exec i s = .next t ∧ t.mem = s.mem ∧ (t.pkg h).tables = (s.pkg h).tables ∧ (t.pkg h).transits =
        [⟨pages, st, setting, (pages.flatMap fun g => (List.range 512).map (g * 512 + ·)).map fun l => (l, false, false)⟩]
    let first := tr.pages.headD 0
    let cd := BitVec.twoPow 64 61
    (homePkg (line * 128) = pkg → p.transits = [tr] → line / 512 ∈ tr.pages → tr.lines = [(line, true, true)] → ∃ t : State,
      exec (.codedDeltaAck pkg line) s = .next t ∧ t.mem = s.mem ∧ (t.pkg pkg).transits = [] ∧
      (t.pkg pkg).tables = put p.tables (p.leafKey first)
        (if tr.setting then p.leaf (first * 65536) ||| cd else p.leaf (first * 65536) &&& ~~~cd) ∧
      ∀ g ∈ tr.pages, look (t.pkg pkg).coded g = if tr.setting then some tr.stripe else none) ∧
    (homePkg (line * 128) = pkg → p.transits = [tr] → line / 512 ∈ tr.pages → tr.lines = (line, false, false) :: more →
      s.checkLost line tr.stripe q = false → ∃ t : State, exec (.codedDelta pkg line q) s = .next t ∧ t.mem = s.mem ∧
        (t.pkg pkg).transits.map (·.lines.head?) = [some (line, !q, q)]) ∧
    (homePkg (line * 128) = pkg → p.transits = [] → p.wbacks = [w] → w.line = line → w.pDone = false → w.qDone = false →
      s.checkLost line w.stripe q = false → ∃ t : State,
        exec (.codedDelta pkg line q) s = .next t ∧
        (t.pkg pkg).wbacks = [if q then { w with qDone := true } else { w with pDone := true }] ∧ t.mem = s.mem) ∧
    (homePkg (line * 128) = pkg → p.transits = [] → p.wbacks = [w] → w.line = line → w.pDone = true → w.qDone = true → ∃ t : State,
      exec (.codedDeltaAck pkg line) s = .next t ∧ (t.pkg pkg).wbacks = [] ∧ t.mem = s.mem) ∧
    (s.goodStripe st = false → exec (.codedSet page st) s = .next s) ∧
    (idle → s.goodStripe st = true → st.findIdx (· == h) < 8 → (∀ g ∈ pages, look (s.pkg h).coded g = none) →
      ((s.pkg h).leaf (page * 65536)).getLsbD 63 = true →
      begun (.codedSet page st) st true) ∧
    (look (s.pkg h).coded page = none → exec (.codedClear page) s = .next s) ∧
    (idle → look (s.pkg h).coded page = some st → (s.pkg h).rebuild = [] →
      begun (.codedClear page) st false) ∧
    (p.nextRebuild = some line → homePkg (line * 128) = pkg → p.stripeOf line = none → ∃ t : State,
      exec (.rebuildLine pkg line) s = .next t ∧ look (t.pkg pkg).poison line = some 0x04 ∧
        line ∉ (t.pkg pkg).rebuild) ∧
    (idle → h < s.podSize → (∀ g ∈ pages, look (s.pkg h).coded g = none) → ∃ t : State,
      exec (.pageRetire page entry false) s = .next t ∧
      (∀ a, a / 65536 ∈ pages → t.mem.read a = Memory.unlisted) ∧
      (∀ a, a / 65536 ∉ pages → t.mem.read a = s.mem.read a) ∧ (∀ x, (t.pkg x).views = (s.pkg x).views) ∧
      (t.pkg h).tables = put (s.pkg h).tables ((s.pkg h).leafKey page) (entry &&& ~~~(BitVec.twoPow 64 61))) ∧
    (∃ t : State, exec (.rightsNarrow pkg dom region host rights) s = .next t ∧
      (∀ k ∈ t.cores, pkgOf k.1 = pkg → k.2.plbFind dom region host = none) ∧
      ∀ r ∈ (t.pkg pkg).rights, r.dom = dom → r.region = region → r.host = host → r.rights &&& rights = r.rights)

/-- R210, R300, R325, R332, R333, R367: an item that comes in waits at its router until every child port has one, and a
complete round goes to the parent; a result passes every child port and the kept partial goes; a rewrite of an entry
outside a round, and a joining between rounds, give the entry its child ports and parent and raise the membership number
of every entry of the group, in the tree that the router belongs to. -/
def Obligations.CollectiveEvents : Prop :=
  ∀ (s : State) (router port g : Nat) (m : CollMsg) (rest : List CollMsg) (t : Truss) (cmask : BitVec 40) (par : BitVec 6)
    (peers : List (Nat × Nat)),
    let u : State := { s with collMsgs := rest }
    let change : TrussChange := ⟨router, cmask, par, peers⟩
    let rewritten (i : Instr) : Prop := ∃ v : State, exec i s = .next v ∧ v.collMsgs = s.collMsgs ∧
      (∃ x, v.trussAt router g = some x ∧ x.cmask = cmask ∧ x.par = par.toNat ∧ x.memb = t.memb + 1) ∧
      ∀ r y, s.trussAt r g = some y → y.dom = t.dom → r ∈ s.treeOf g 64 [router] → ∃ x, v.trussAt r g = some x ∧ x.memb = y.memb + 1
    s.trussAt router g = some t →
    (s.collMsgs = m :: rest → m.router = router → m.g = g → s.collComes m = true →
      (m.down = false → m.port = port → port ∈ t.children → look t.items port = none →
        let v := u.countItem m
        exec (.collectiveItem router port g) s = .next (v.foldRound { t with items := put t.items port m.taken } m.col) ∧
        (∀ p ∈ t.children, p ≠ port → look t.items p = none →
          exec (.collectiveItem router port g) s = .next (v.setTruss { t with items := put t.items port m.taken }))) ∧
      (m.down = false → m.port = port → port ∉ t.children → look t.items port = none →
        exec (.collectiveItem router port g) s = .next (u.countItem m)) ∧
      (m.down = true → exec (.collectiveResult router g) s = .next
        (t.children.foldl (fun s p => s.sendColl router p t m.item m.memb m.col true) (u.setTruss { t with kept := none })))) ∧
    (s.collMsgs = [] → exec (.collectiveItem router port g) s = .next s ∧ exec (.collectiveResult router g) s = .next s) ∧
    (cmask ≠ 0 → 40 ≤ par.toNat → t.items = [] → t.kept = none → rewritten (.trussRewrite t.dom g change [])) ∧
    (t.cmask &&& ~~~cmask = 0 → 40 ≤ par.toNat → s.roundOver t.dom g = true → rewritten (.memberReadd t.dom g [change])) ∧
    (t.items ≠ [] → exec (.memberReadd t.dom g [change]) s = .next s)

/-- R2, R335, R336, R337, R339, R340, R341, R342: a fitting map entry is written with the incarnation of the die that takes
the identity, the fence of the old die ends and its incarnation is left to drain where the old die stands, and a die of
another package answers to no number of its own any more; a marker that has arrived ends what it
drains, and a new route serves then, also where the old one is the route that stands unwritten (entry 10); a module pauses and serves again at x64 or x32, or is lost; a frame in sequence is
taken and any other replayed; a port serves on its two best lanes or is down; a counter ahead of its parent holds, and
one behind it is slewed forward by at most 2 ns in an exchange (entry 48); a millisecond without synchronisation is
reported, and the package takes another parent in the tree of the model's choice (entry 79). -/
def Obligations.LinkEvents : Prop :=
  ∀ (s : State) (pkg index dest unit lanes port seq ack sent got answered back : Nat) (base ok valid : Bool)
    (entry : BitVec 32) (mark : DrainMark) (stop : BitVec 5) (route : Nat × Bool),
    let p := s.pkg pkg
    let m := p.module index unit
    let x := p.port port
    let gives (i : Instr) (q : Package) : Prop := exec i s = .next (s.setPkg pkg q)
    let clean := cleanEntry base entry
    let new := s.renewedEntry pkg base index clean
    let was := p.placeAt pkg base index
    let onto := placeOfEntry pkg base clean
    let old := (look p.routes dest).getD (0, true)
    let child : Prop := p.alive = true ∧ s.keeper ≠ some pkg
    let parent := p.parent.or (s.chooseParent pkg none)
    let ahead : Int := ((sent : Int) - got + (back - answered)) / 2
    let synced (q : Package) : Package := { q with
      parent := parent, delay := (back - sent - (answered - got)) / 2
      syncAt := q.ptc, syncLost := false }
    (s.entryFits pkg base index clean = false → exec (.remap pkg base index entry) s = .next s) ∧
    (s.entryFits pkg base index clean = true → ∃ t : State, exec (.remap pkg base index entry) s = .next t ∧
      (base = false → (t.pkg pkg).dieMap[index]? = some new ∧ ∀ d, d ≠ index → (t.pkg pkg).dieMap[d]? = p.dieMap[d]?) ∧
      (base = true → (t.pkg pkg).baseMap[index]? = some (new.setWidth 16)) ∧
      (base, p.physical base index) ∉ (t.pkg pkg).fenced ∧
      (t.pkg was.1).drains = (s.pkg was.1).drains ++ [.die base was.2 (p.mapInc base index)] ∧
      (base = false → onto.1 ≠ pkg → ∀ d : Fin 8, (s.pkg onto.1).coreDie d.val = onto.2 →
        ((t.pkg onto.1).dieMap[d]).getLsbD 31 = false)) ∧
    (p.drains.contains mark = true → (∀ d, mark ≠ .route d) →
      gives (.drainMarker pkg (markParts mark).1 (markParts mark).2.1 (markParts mark).2.2) { p with drains := p.drains.erase mark }) ∧
    (p.drains.contains (.route dest) = true → look p.newRoutes dest = some route →
      gives (.drainMarker pkg none dest 0) { p with
        drains := p.drains.erase (.route dest), routes := put p.routes dest route, newRoutes := drop p.newRoutes dest }) ∧
    (index < 9 → unit < 16 → m.lost = false →
      gives (.ucieModuleService pkg index unit) (p.setModule { m with paused := true })) ∧
    (m.paused = true → 32 ≤ lanes → gives (.ucieRetrainDone pkg index unit lanes)
      (p.setModule { m with paused := false, lanes := if 64 ≤ lanes then 64 else 32 })) ∧
    (m.paused = true → lanes < 32 → ∃ t : State, exec (.ucieRetrainDone pkg index unit lanes) s = .next t ∧
      (t.pkg pkg).modules = (p.setModule { m with paused := false, lanes := 0, lost := true }).modules) ∧
    (port < 32 → x.down = false → gives (.podFrame pkg port ok ⟨seq, ack, stop⟩) (p.setPort
      (if ok = true ∧ seq = x.received then
        { x with received := x.received + 1, acked := max x.acked ack, stop := stop }
       else { x with replays := x.replays + 1 }))) ∧
    (port < 32 → gives (.podPortRetrain pkg port lanes) (p.setPort
      { x with lanes := if 4 ≤ lanes then 4 else if 2 ≤ lanes then 2 else 0, down := decide (lanes < 2) })) ∧
    (dest < 2048 → port < 32 →
      (old.2 = false ∨ (p.port old.1).down = true →
        gives (.podRouteWrite pkg dest port valid) { p with routes := put p.routes dest (port, valid) }) ∧
      (old.2 = true → (p.port old.1).down = false → p.drains.contains (.route dest) = false →
        gives (.podRouteWrite pkg dest port valid) { p with
          newRoutes := put p.newRoutes dest (port, valid), drains := p.drains ++ [.route dest] }) ∧
      (old.2 = true → (p.port old.1).down = false → p.drains.contains (.route dest) = true →
        gives (.podRouteWrite pkg dest port valid) { p with newRoutes := put p.newRoutes dest (port, valid) })) ∧
    (parent = none ∨ s.keeper = some pkg → exec (.ptcSyncExchange pkg ⟨sent, got, answered, back⟩) s = .next s) ∧
    (parent ≠ none → s.keeper ≠ some pkg → 0 < ahead → gives (.ptcSyncExchange pkg ⟨sent, got, answered, back⟩) (synced { p with ahead := ahead.toNat })) ∧
    (parent ≠ none → s.keeper ≠ some pkg → ahead ≤ 0 → gives (.ptcSyncExchange pkg ⟨sent, got, answered, back⟩)
      (synced { p with ptc := p.ptc + BitVec.ofNat 64 (min (-ahead).toNat 2), ahead := 0 })) ∧
    (p.syncLost = false → child → p.syncAt.toNat + 10 ^ 6 ≤ p.ptc.toNat → ∃ t : State, exec (.ptcSyncLoss pkg) s = .next t ∧
      (t.pkg pkg).syncLost = true ∧ (t.pkg pkg).ptc = p.ptc ∧
      (t.pkg pkg).service.reports.length = p.service.reports.length + 1 ∧
      ∀ q, (t.pkg pkg).parent = some q → q ≠ pkg ∧ p.parent ≠ some q ∧ (s.pkg q).alive = true ∧ s.routed pkg q = true) ∧
    (¬child ∨ p.ptc.toNat < p.syncAt.toNat + 10 ^ 6 → exec (.ptcSyncLoss pkg) s = .next s)

/-! ### Events: pre-emption, the host, errors and service -/

/-- R296, R297, R298, R300, R302, R303, R342: a partition that shares no die with another is given a stop time, unless one
of its packages has lost its synchronisation; a core stops at or after it and flips its colour; the cut closes when every core has stopped, no work
remains, no collective message is under way between routers (entry 73) and the counts agree, messages that leave and items
parked at a router counting as received (entry 35); images are saved behind the closed cut, with the time of the stop and
the lookaside buffer, which R42 counts in them and R302 does not list (entry 99), and written back; at the resume time a core
goes on from them. -/
def Obligations.Preemption : Prop :=
  ∀ (s : State) (pkg core time : Nat) (pkgs dies : List Nat) (i : CoreImage) (h : Machine.Preemption),
    let k := s.core core
    let q := s.pkg (pkgOf core)
    let stop : State := { s with stops := s.stops ++ [⟨pkgs, dies, time, none, false⟩] }
    (goodPartition pkgs dies = true → s.overlaps pkgs dies = false →
      (pkgs.length = 1 ∨ ∀ p ∈ pkgs, (s.pkg p).syncLost = false) → exec (.stopTimeWrite pkgs dies time) s = .next stop) ∧
    (s.overlaps pkgs dies = true → exec (.stopTimeWrite pkgs dies time) s = .next s) ∧
    (k.stopped = false → s.mustStop core = true → ∃ t : State, exec (.coreStop core) s = .next t ∧
      (t.core core).stopped = true ∧ (t.core core).colour = !k.colour ∧ (t.core core).stopAt = q.ptc ∧ (t.core core).loc = k.loc ∧
      (t.core core).queues = k.queues ∧ ∀ m ∈ t.monitors, m.tcore ≠ core) ∧
    (s.mustStop core = false → exec (.coreStop core) s = .next s) ∧
    (s.stops = [h] → pkg ∈ h.pkgs → h.cutClosed = false →
      let cores := s.cutCores h
      let sent := cores.foldl (fun n k => n + k.2.sent) 0
      let received := cores.foldl (fun n k => n + k.2.received) 0
      ((∀ k ∈ cores, k.2.stopped = true ∧ k.2.working = false) → s.treeBusy h = false →
        (∀ p ∈ h.pkgs, ∀ m ∈ (s.pkg p).modules, m.paused = false) →
        sent = received + s.leaving h + s.parkedItems h →
          exec (.cutCountSum pkg) s = .next { s with stops := [{ h with cutClosed := true }] }) ∧
      (sent ≠ received + s.leaving h + s.parkedItems h → exec (.cutCountSum pkg) s = .next s)) ∧
    (k.stopped = true → s.saved core = false → s.stopFailed core = false → (∀ a : Fin 4, k.matrix.flipped[a] = false) →
      ((∃ h, s.stopping core = some h ∧ h.cutClosed = true) → ∃ (t : State) (x : CoreImage),
        exec (.contextSave core) s = .next t ∧ t.cores = s.cores ∧ look (t.pkg (pkgOf core)).contexts core = some x ∧
        x.slots = k.slots ∧ x.loc = k.loc ∧ x.ltags = k.ltags ∧ x.queues = k.queues ∧ x.stages = k.stages ∧
        x.seq = k.seq ∧ x.matrix = k.matrix ∧ x.copies = k.copies ∧ x.stopAt = k.stopAt ∧ x.plb = k.plb) ∧
      (∀ h, s.stopping core = some h → h.cutClosed = false → exec (.contextSave core) s = .next s)) ∧
    (k.stopped = true → look q.contexts core = some i → ∃ t : State, exec (.contextRestore core time) s = .next t ∧
      (t.core core).slots = i.slots ∧ (t.core core).loc = i.loc ∧ (t.core core).stages = i.stages ∧
      (∀ x : Fin 8, (t.core core).queues[x] = { i.queues[x] with reserved := k.queues[x].reserved }) ∧
      (t.core core).seq = i.seq ∧ (t.core core).copies = i.copies ∧
      (t.core core).plb = i.plb.filter k.plb.contains ∧ ∀ h ∈ t.stops, h.holds core = true → h.resumeTime = some time) ∧
    ((s.stopping core).bind (·.resumeTime) = some time → k.stopped = true → s.saved core = false →
      (time ≤ q.ptc.toNat → s.caughtUp core = true → ∃ t : State, exec (.coreResume core) s = .next t ∧
        (t.core core).stopped = false ∧ (t.core core).sent = 0 ∧ (t.core core).received = 0 ∧
        ((∀ n, (k.slot n).wait = .none) → (t.core core).slots = k.slots)) ∧
      (q.ptc.toNat < time → exec (.coreResume core) s = .next s))

/-- R345, R348, R350, R351, R352: ring registers take writes while their pair is not enabled; an enabled pair has checked
rings, its heads and tails at 0 (entry 95); doorbells fetch a well-formed entry and release completions; completions are written with the phase tag and raise the
vector; a reset of the function in self-hosted mode quiesces every pair; after enumeration and marking present HOST
accesses go on; a HOST read that is not answered faults. -/
def HostPortEvents : Prop :=
  ∀ (s : State) (pkg q head tail ten code core a : Nat) (slot : Fin 8) (value : BitVec 64) (writes : List (Nat × BitVec 8))
    (i : Instr) (c : HostCompletion) (rest : List HostCompletion),
    let h := (s.pkg pkg).host
    let x := h.pair q
    let host (f : HostPort) : State := s.updPkg pkg fun p => { p with host := f }
    let t := s.slot core slot
    (h.state ≠ .reset → q < 64 →
      (x.enable = false →
        exec (.registerWrite pkg (0x100000 + 64 * q) value) s = .next (host (h.setPair { x with sqb := value })) ∧
        exec (.registerWrite pkg (0x100008 + 64 * q) value) s = .next (host (h.setPair { x with cqb := value })) ∧
        exec (.registerWrite pkg (0x100010 + 64 * q) value) s =
          .next (host (h.setPair { x with qsz := value.setWidth 32 })) ∧
        (ringSizeOk x.sqSize = true → ringSizeOk x.cqSize = true → x.sqb.extractLsb' 0 12 = 0 →
          x.cqb.extractLsb' 0 12 = 0 → exec (.qctlEnable pkg q true) s = .next (host (h.setPair { x with
            enable := true, ready := true, quiesced := false, sqh := 0, sqt := 0, cqh := 0, cqt := 0, used := 0
            phase := true, msix := false }))) ∧
        (ringSizeOk x.sqSize = false → exec (.qctlEnable pkg q true) s =
          .next (host (h.setPair { x with enable := false, ready := false })))) ∧
      (x.enable = true → exec (.registerWrite pkg (0x100000 + 64 * q) value) s = .next (host h)) ∧
      exec (.qctlEnable pkg q false) s = .next (host (h.setPair { x with enable := false, ready := false })) ∧
      (x.enable = true → head < x.cqSize → exec (.cqDoorbell pkg q head) s = .next (host (h.setPair { x with
        cqh := head, used := min x.used ((x.cqt + x.cqSize - head) % x.cqSize), msix := false }))) ∧
      (x.serves = true → x.sqh = tail → tail < x.sqSize → ∃ u : State,
        exec (.sqDoorbell pkg q tail writes) s = .next u ∧ (u.pkg pkg).host.commands = h.commands ∧
          ((u.pkg pkg).host.pair q).sqt = tail ∧
          (u.pkg pkg).host.mem = writes.foldl (fun m x => m.write x.1 x.2) h.mem) ∧
      (x.serves → x.sqh ≠ tail → tail < x.sqSize → (x.sqh + 1) % x.sqSize = tail → h.commands = [] →
        let b := h.mem.readN (x.sqb.toNat + 64 * x.sqh) 64
        s.entryOk b = true → ∃ u : State, exec (.sqDoorbell pkg q tail []) s = .next u ∧
          (u.pkg pkg).host.commands = [⟨q, tail, b, false, false⟩] ∧ ((u.pkg pkg).host.pair q).sqh = tail)) ∧
    (h.canPost q = true → x.waiting = c :: rest → ∃ u : State, exec (.completionPost pkg q) s = .next u ∧
      ((u.pkg pkg).host.pair q).waiting = rest ∧ ((u.pkg pkg).host.pair q).used = x.used + 1 ∧
      ((u.pkg pkg).host.pair q).msix = true ∧
      (u.pkg pkg).host.mem = h.mem.writeN (x.cqb.toNat + 16 * x.cqt) (leBytes 4 c.res.toNat ++ leBytes 2 c.cid.toNat ++
        leBytes 2 c.sqh ++ [c.st, if x.phase then 1 else 0] ++ leBytes 2 c.ten.toNat ++ leBytes 4 0)) ∧
    (h.canPost q = false → exec (.completionPost pkg q) s = .next s) ∧
    (h.events = [(ten, code)] → (h.pair 0).enable = false →
      exec (.deviceEvent pkg ten code) s = .next (host { h with events := [] })) ∧
    (h.events = [(ten, code)] → (h.pair 0).enable = true → ∃ u : State, exec (.deviceEvent pkg ten code) s = .next u ∧
      ((u.pkg pkg).host.pair 0).waiting = (h.pair 0).waiting ++
        [⟨BitVec.ofNat 32 code, 0xFFFF, (h.pair 0).sqh, 0, BitVec.ofNat 16 ten⟩]) ∧
    (h.hosted = false → ∃ u : State, exec (.hostFunctionReset pkg) s = .next u ∧ (u.pkg pkg).host.state = .reset ∧
      (∀ c, (u.core c).loc = (s.core c).loc) ∧ u.mem = s.mem ∧ (u.pkg pkg).host.mem = h.mem ∧
      (u.pkg pkg).host.commands = h.commands.map (fun k => { k with reset := true }) ∧
      (q < 64 → ((u.pkg pkg).host.pair q).quiesced = true ∧ ((u.pkg pkg).host.pair q).enable = false)) ∧
    (h.hosted = true → exec (.hostFunctionReset pkg) s = .next (s.raiseAgain pkg false)) ∧
    (h.state = .reset → exec (.hostReenumerate pkg) s = .next (host { h with state := .enumerated })) ∧
    (h.state = .enumerated → exec (.hostMarkPresent pkg) s = .next (host { h with state := .enabled })) ∧
    (t.wait = .request → t.held = some i → t.reply = none → s.heldHost core slot i = some a →
      exec (.hostCompletionTimeout core slot) s =
        .next (s.trap core slot ⟨0x0B, 0x02, BitVec.ofNat 64 a, scopeOf i⟩))

/-- R284, R287, R343, R344, R346, R347, R349: the control die of a package that has raised carries out the first
command of its port: a binding or an unbinding while no context image lies in a package that it concerns (entry 85), a
launch with its rights, which waits while its core cannot take it (entry 43) and without a route is dropped and completes with
a free status (entry 92), or the record of a tenant's state (not written while the host is absent, entry 95), and each
completes with its status; a CXL.mem access reads or writes package memory only where port, range, mapping and line allow
it, has no effect elsewhere, and waits where its home makes it wait (entry 51). -/
def HostCommands : Prop :=
  ∀ (s : State) (pkg offset : Nat) (supply : BindSupply) (k : HostCommand) (data : List (BitVec 8)) (write : Bool)
    (t : State),
    let h := (s.pkg pkg).host
    let ten := tenOf k.bytes
    let core := fieldAt k.bytes 16 4
    let entry : Word := BitVec.ofNat 32 (fieldAt k.bytes 20 4)
    let done (i : Instr) (t : State) (st res : Nat) : Prop := exec i s = .next (t.completeCommand pkg k st res)
    let reached := s.routed pkg (pkgOf core)
    let dropped (i : Instr) : Prop :=
      done i (s.updPkg pkg fun p => { p with errors := p.errors + 1 }) (Config.unroutedLaunch s.ticks).toNat 0
    (h.commands = [k] → (s.pkg pkg).alive = true →
      (cmdByte k.bytes = 1 → s.bindWaits pkg (fieldAt k.bytes 16 8) (fieldAt k.bytes 24 4) = false →
        let b := s.bind pkg ten (fieldAt k.bytes 16 8) (fieldAt k.bytes 24 4) supply
        done (.cmdBindImage pkg supply) b.1 b.2.1 b.2.2 ∧
        (readRequest h.mem (fieldAt k.bytes 16 8) (fieldAt k.bytes 24 4) = none → b = (s, 7, 0))) ∧
      (cmdByte k.bytes = 2 → s.savesPending pkg = false → done (.cmdUnbind pkg) (s.unbind pkg ten).1 0 (s.unbind pkg ten).2) ∧
      (cmdByte k.bytes = 3 →
        (s.launchAllowed pkg ten core none = false → done (.cmdLaunchStage pkg) s 5 0) ∧
        (s.launchAllowed pkg ten core none = true → reached = false → dropped (.cmdLaunchStage pkg)) ∧
        (s.launchAllowed pkg ten core none = true → reached = true → s.launchWaits pkg core = true →
          exec (.cmdLaunchStage pkg) s = .next s) ∧
        (s.launchAllowed pkg ten core none = true → reached = true → s.launchWaits pkg core = false →
          let d := s.deposit core ten (fieldAt k.bytes 20 1) (BitVec.ofNat 128 (fieldAt k.bytes 32 16))
          done (.cmdLaunchStage pkg) d.1 d.2.toNat 0)) ∧
      (cmdByte k.bytes = 4 →
        (s.launchAllowed pkg ten core (some entry) = false → done (.cmdLaunchEntry pkg) s 5 0) ∧
        (s.launchAllowed pkg ten core (some entry) = true → reached = false → dropped (.cmdLaunchEntry pkg)) ∧
        (s.launchAllowed pkg ten core (some entry) = true → reached = true →
          s.launchWaits pkg core = true ∨ s.startsFirst core = true → exec (.cmdLaunchEntry pkg) s = .next s) ∧
        (s.launchAllowed pkg ten core (some entry) = true → reached = true → s.launchWaits pkg core = false →
          s.startsFirst core = false →
          let l := s.launch ten core entry (BitVec.ofNat 3 (fieldAt k.bytes 24 1)) (BitVec.ofNat 128 (fieldAt k.bytes 32 16))
          done (.cmdLaunchEntry pkg) l.1 l.2.1 (if l.2.1 = 0 then l.2.2.toNat else 0))) ∧
      (cmdByte k.bytes = 5 → ∃ t : State, done (.cmdReadTenantState pkg) t 0 0 ∧
        (h.state = .enabled → (t.pkg pkg).host.mem = h.mem.writeN (fieldAt k.bytes 16 8) (s.tenantRecord pkg ten)) ∧
        (h.state ≠ .enabled → (t.pkg pkg).host.mem = h.mem))) ∧
    (h.commands = [] ∨ (s.pkg pkg).alive = false → ∀ i ∈ [Instr.cmdBindImage pkg supply, .cmdUnbind pkg, .cmdLaunchStage pkg, .cmdLaunchEntry pkg,
      .cmdReadTenantState pkg], exec i s = .next s) ∧
    (h.cxl = false ∨ h.state = .reset ∨ 2 ^ 39 < offset + data.length →
      exec (.cxlMemAccess pkg offset write data) s = .next s) ∧
    (let a := pkg * 2 ^ 41 + offset
     let lines := linesOf a data.length
     h.cxl = true → h.state ≠ .reset → pkg < s.podSize → offset + data.length ≤ 2 ^ 39 → h.accesses = [] →
      (s.reachAll pkg (hostAgent pkg) a lines = .ok t → t.poisonAll pkg [] lines = .ok () →
        exec (.cxlMemAccess pkg offset write data) s = .next (if write then t.writeGlobal a data none else t)) ∧
      (∀ l, s.reachAll pkg (hostAgent pkg) a lines = .error (.wait l) → exec (.cxlMemAccess pkg offset write data) s =
        .next (s.updPkg pkg fun p => { p with host := { p.host with accesses := [⟨a, data, write⟩] } })))

/-- R284, R287, R343 to R352: the host port: its registers, rings and commands. -/
def Obligations.HostPort : Prop := HostPortEvents ∧ HostCommands

/-- R210, R257, R260, R266, R304, R330, R337, R355 to R359, R370: detected errors: a spoiled register or pipe result ends a
running thread's instruction, at its present `pc` (entry 47), by rollback or a poisoned-data fault; a poisoned word is
marked; a spoiled queue entry is fetched again from the log, and one that no log holds is gone (entry 46); a corrected error,
and a flit that is sent again, are counted in the record of their unit, and contributions of which the flit was part may
be found corrupt (a free value, entry 93); a failed router's parked messages are lost and counted; a bad L2 line or read copy is
dropped or, where dirty, poisoned, a bad version poisoned, and a bad HBM line, of the page that its physical address names
(entry 37), or overflow entry poisoned; a silent die and a lost stack are fenced, and the positions of the stack move once a diagnosis asks for it; lost packages
and processors are recorded. -/
def Obligations.ErrorEvents : Prop :=
  ∀ (s : State) (pkg core word index quad die addr pdie stack onto votes sp view : Nat) (way : Fin 16) (slot : Fin 8)
    (q : Fin 8) (e : QEntry),
    let p := s.pkg pkg
    let asks := asksStack pkg stack
    let t := s.slot core slot
    let k := s.core core
    let h := homePkg addr
    let line := lineOf addr
    let running : Prop := t.state ≠ .free ∧ t.state ≠ .parked
    let live : Prop := s.saved core = false
    let held (x : Package) (i : LineError) : Prop :=
      x.ways.contains ((x.baseDie (homePos i.addr) * 128 + homeSlice i.addr) * 16 + i.way.val) = false
    let wayOf (p : Nat) : UnitName := .way p ((s.pkg p).baseDie (homePos addr)) (homeSlice addr) way.val
    (running → live → exec (.registerParityError core slot) s = .next (s.coreError core slot 0x05 0) ∧
      (k.seq = [] → ∃ u : State, exec (.pipeResidueError core slot) s = .next (u.coreError core slot 0x05 0) ∧
        (u.core core).seq = [] ∧ u.mem = s.mem ∧ u.slot core slot = t)) ∧
    (¬running ∨ ¬live → exec (.registerParityError core slot) s = .next s ∧ exec (.pipeResidueError core slot) s = .next s) ∧
    (∀ n, 4096 ≤ word ∨ ¬live → exec (.localMemoryDoubleBitError core word n) s = .next s) ∧
    (word < 4096 → live → exec (.localMemoryDoubleBitError core word none) s =
      .next (s.report (pkgOf core) (s.coreUnit core) true false)) ∧
    (word < 4096 → live → word * 16 < 65536 - 4096 * k.kc →
      let bad := s.updCore core fun k => { k with lpoison := addNum k.lpoison word }
      (running → exec (.localMemoryDoubleBitError core word (some slot)) s =
        .next (bad.coreError core slot 0x06 (BitVec.ofNat 64 (core % 2 ^ 26 * 2 ^ 16 + word * 16)))) ∧
      (¬running → ∃ u : State, exec (.localMemoryDoubleBitError core word (some slot)) s = .next u ∧
        word ∈ (u.core core).lpoison ∧ (u.core core).loc = k.loc ∧ u.slot core slot = t)) ∧
    ((k.queue q.val).entries[index]? = none ∨ ¬live → exec (.queueEntryError core q index) s = .next s) ∧
    (live → (k.queue q.val).entries[index]? = some e → e.seq = none → ∃ u : State,
      exec (.queueEntryError core q index) s = .next u ∧
        ((u.core core).queue q.val).entries = (k.queue q.val).entries.eraseIdx index) ∧
    (∀ n x, live → (k.queue q.val).entries[index]? = some e → e.seq = some n →
      ((s.pkg (pkgOf core)).scribe (dieOf core)).entries.find? (·.seq == n) = some x → ∃ u : State,
        exec (.queueEntryError core q index) s = .next u ∧
          ((u.core core).queue q.val).entries = (k.queue q.val).entries.set index { e with words := x.pay }) ∧
    (pkg < s.podSize → die < 8 → quad < 1024 → exec (.flitParityError ((pkg * 8 + die) * 1024 + quad)) s =
      .next (({ s with collMsgs := s.collMsgs.zipIdx.map fun x =>
        if x.1.down = false ∧ x.1.router = (pkg * 8 + die) * 1024 + quad ∧ Config.flitSpoils s.ticks x.2 = true then
          { x.1 with psn := true } else x.1 } : State).report pkg (s.stopUnit pkg die quad) true false)) ∧
    (die < 8 → quad < 1024 → s.fabric = [] → s.collMsgs = [] → (∀ m ∈ p.parked, m.spilled = false ∧ stopOf m.core = pkg * 8192 + die * 1024 + quad ∧ m.resv = 0) →
      ∃ u : State, exec (.stopRouterFailure pkg die quad) s = .next u ∧ (u.pkg pkg).parked = [] ∧
        (u.pkg pkg).host.events.length = p.host.events.length + p.parked.length) ∧
    (h < s.podSize → held (s.pkg h) ⟨addr, true, h, 0, way⟩ → (s.pkg h).l2.contains line = true →
      exec (.l2LineError ⟨addr, true, h, 0, way⟩) s = .next (s.report h (wayOf h) true false) ∧
      ((s.pkg h).dirty.any (·.line == line) = true → ∃ u : State, exec (.l2LineError ⟨addr, false, h, 0, way⟩) s = .next u ∧
        look (u.pkg h).poison line = some 0x02) ∧
      ((s.pkg h).dirty.any (·.line == line) = false → ∃ u : State, exec (.l2LineError ⟨addr, false, h, 0, way⟩) s = .next u ∧
        line ∉ (u.pkg h).l2 ∧ (u.pkg h).poison = (s.pkg h).poison)) ∧
    (h < s.podSize → pkg < s.podSize → pkg ≠ h → held p ⟨addr, false, pkg, 0, way⟩ → p.copies.any (·.line == line) = true →
      ∃ u : State, exec (.l2LineError ⟨addr, false, pkg, 0, way⟩) s = .next u ∧ u.mem = s.mem ∧
        ∀ x ∈ (u.pkg pkg).copies, x.line ≠ line) ∧
    (h < s.podSize → pkg < s.podSize → view ≠ 0 → held p ⟨addr, false, pkg, view, way⟩ →
      p.versions.contains (view, line, false) = true → exec (.l2LineError ⟨addr, false, pkg, view, way⟩) s =
        .next ((s.poisonVersion ⟨addr, false, pkg, view, way⟩).report pkg (wayOf pkg) false false)) ∧
    (h < s.podSize → pkg < s.podSize → view ≠ 0 → p.versions.contains (view, line, true) = true →
      exec (.hbmLineError ⟨addr, false, pkg, view, way⟩) s = .next (s.poisonVersion ⟨addr, false, pkg, view, way⟩)) ∧
    (h < s.podSize → (s.pkg h).l2.contains line = false →
      exec (.hbmLineError ⟨addr, true, h, 0, way⟩) s = .next (s.report h (.page h ((s.pkg h).physPage addr)) true false) ∧
      ∃ u : State, exec (.hbmLineError ⟨addr, false, h, 0, way⟩) s = .next u ∧ look (u.pkg h).poison line = some 0x02 ∧
        u.mem = s.mem) ∧
    (pdie < 9 → p.fenced.contains (false, pdie) = false → ∃ u : State, exec (.heartbeatLoss pkg pdie) s = .next u ∧
      (u.pkg pkg).fenced = p.fenced ++ [(false, pdie)]) ∧
    (stack < 9 → p.lostStacks = [] → p.decided asks = false → ∃ u : State,
      exec (.stackLoss pkg stack onto) s = .next u ∧ (true, stack) ∈ (u.pkg pkg).fenced ∧ u.mem = s.mem) ∧
    (stack < 9 → p.lostStacks = [] → p.decided asks = true → onto < 9 → onto ≠ stack → ∃ u : State,
      exec (.stackLoss pkg stack onto) s = .next u ∧ (u.pkg pkg).lostStacks = [stack] ∧
        (true, stack) ∉ (u.pkg pkg).fenced) ∧
    (votes < 2 ∨ p.failed = true → exec (.packageLoss pkg votes) s = .next s) ∧
    (2 ≤ votes → pkg < s.podSize → p.failed = false → ∃ u : State, exec (.packageLoss pkg votes) s = .next u ∧
      (u.pkg pkg).failed = true ∧ ∀ m ∈ u.fabric, pkgOf m.dst ≠ pkg) ∧
    (∃ u : State, exec (.serviceProcessorLoss pkg sp) s = .next u ∧ (sp = 0 → (u.pkg pkg).service.alive0 = false) ∧
      (sp = 1 → (u.pkg pkg).service.alive1 = false))

/-- R368, R369, R370, R371, R372, R373, R374, R391, R392, R393: a write of a notify register keeps `thr` and `sp`, and with
`ntf` set wakes the bound thread of a processor that is alive; agreeing processors take a diagnosis, equal records standing for equal digests (entry 12), and disagreeing ones
ask a council of the next three packages (entry 46), which vote or abstain; a package raises on eight serving dies, nine stacks and firmware that its
boot ROM accepts; firmware goes through trial, confirmation and the watchdog; injections are armed in their tenant's registers. -/
def Obligations.ServiceEvents : Prop :=
  ∀ (s : State) (pkg q member ten : Nat) (d0 d1 own0 own1 : Diagnosis) (c : Council)
    (image : List Byte) (passing : List Nat) (maps : List (Nat × BitVec 34)) (excess spare : Bool) (x y : Word)
    (value : BitVec 64) (tn : Tenant),
    let p := s.pkg pkg
    let v := p.service
    let f := p.firmware
    let sp : Bool := value.getLsbD 7
    let acts (d : Diagnosis) : Prop := d.action ≠ .wayDisable ∧ d.action ≠ .rollback ∧ d.action ≠ .none
    let listed (d : Diagnosis) : Service :=
      { v with taken := d :: v.taken, council := none, log := v.log.filter fun u => u != d.unit }
    let service (v : Service) : State := s.updPkg pkg fun p => { p with service := v }
    let firmware (f : Firmware) : State := s.updPkg pkg fun p => { p with firmware := f }
    (q < 128 → ∃ u : State, exec (.serviceQueueNotify pkg ⟨q, value⟩) s = .next u ∧
      (u.notifyRegister pkg q).setWidth 32 = (value &&& 0xFF80).setWidth 32 ∧
      (u.pkg pkg).service.woken = v.woken ++
        if value.getLsbD 0 ∧ (if sp then v.alive1 else v.alive0) = true then
          [(if sp then 1 else 0, (value.extractLsb' 8 6).toNat)] else []) ∧
    (v.alive0 = true → v.alive1 = true → v.council = none →
      (d0 = d1 → acts d0 → exec (.diagnosisExchange pkg d0 d1) s = .next (service (listed d0))) ∧
      (d0 ≠ d1 → exec (.diagnosisExchange pkg d0 d1) s =
        .next (service { v with council := some ⟨d0, d1, s.councilOf pkg, [], 0, 0⟩ }))) ∧
    (v.council = some c → c.members.contains member = true →
      (c.ballots = [] → exec (.councilRequest pkg member own0 own1) s = .next (service { v with
        council := some { c with ballots := [(member,
          if own0 ≠ own1 then 2 else if own0 = c.d0 then 0 else if own0 = c.d1 then 1 else 2)] } })) ∧
      (c.ballots = [(member, 0)] → c.votes0 = 1 → c.d0 ≠ c.d1 → acts c.d0 → ∃ u : State,
        exec (.councilVote pkg member) s = .next u ∧ (u.pkg pkg).service.taken = c.d0 :: v.taken ∧
          (u.pkg pkg).service.council = none ∧ (u.pkg pkg).service.lost1 = v.lost1 + 1 ∧ (u.pkg pkg).service.lost0 = 0) ∧
      (c.ballots = [(member, 2)] → c.votes0 = 0 → c.votes1 = 0 → (delNum c.members member) ≠ [] →
        exec (.councilVote pkg member) s = .next (service { v with
          council := some { c with members := delNum c.members member, ballots := [] } }))) ∧
    (∃ u : State, exec (.firmwareUpdate pkg image) s = .next u ∧ (u.pkg pkg).firmware.other = ⟨headerOf image⟩ ∧ (u.pkg pkg).firmware.other.magic = 0x57454C4E ∧
      (u.pkg pkg).firmware.trial = true ∧ (u.pkg pkg).firmware.current = f.current) ∧
    (f.trial = true → f.running = true → p.ptc.toNat ≤ f.bootAt + 120 * 10 ^ 9 →
      exec (.firmwareHealthConfirm pkg) s = .next (firmware { f with
        active := !f.active, trial := false, running := false
        fuseSvn := if f.fuseSvn.toNat < f.other.svn.toNat then f.other.svn else f.fuseSvn })) ∧
    (f.trial = false → exec (.firmwareHealthConfirm pkg) s = .next (s.setPkg pkg p)) ∧
    (f.trial = true → f.running = true → f.bootAt + 120 * 10 ^ 9 ≤ p.ptc.toNat → exec (.firmwareWatchdog pkg) s =
      .next ((firmware { f with trial := false, running := false }).raiseAgain pkg false)) ∧
    (p.ptc.toNat < f.bootAt + 120 * 10 ^ 9 → exec (.firmwareWatchdog pkg) s = .next s) ∧
    ((servingDies passing maps).length < 8 → ∃ u : State, exec (.powerGood pkg ⟨passing, maps⟩ 9 spare) s = .next u ∧
      (u.pkg pkg).failed = true ∧ (u.pkg pkg).raised = false) ∧
    (8 ≤ (servingDies passing maps).length →
      let boots := f.accepts f.current || (f.trial && f.accepts f.other)
      ∃ u : State, exec (.powerGood pkg ⟨passing, maps⟩ 9 spare) s = .next u ∧ (u.pkg pkg).raised = boots ∧
        (u.pkg pkg).failed = !boots ∧ (u.pkg pkg).spare = spare ∧ (u.pkg pkg).tenants = [] ∧
        (boots = true → (u.pkg pkg).dieMap = raisedMap (servingDies passing maps)) ∧
        ∀ a, homePkg a = pkg → u.mem.read a = Memory.unlisted) ∧
    exec (.powerThrottle pkg excess) s = .next (s.setPkg pkg { p with throttle := excess }) ∧
    (p.tenants = [tn] → tn.id = ten → tn.injection = true →
      exec (.copyInjectArm pkg ten x y) s = .next (s.setPkg pkg { p with
        tenants := [{ tn with ijoff := x, carm := y &&& 0x8007FFFF }] }) ∧
      exec (.registerInjectArm pkg ten x y) s = .next (s.setPkg pkg { p with
        tenants := [{ tn with ijpc := x, rarm := y.getLsbD 31 }] })) ∧
    (p.tenants = [tn] → tn.id = ten → tn.injection = false →
      exec (.copyInjectArm pkg ten x y) s = .next (s.setPkg pkg p) ∧
      exec (.registerInjectArm pkg ten x y) s = .next (s.setPkg pkg p))

/-- R2, R3, R335, R336, R360, R361, R365, R366, R367: sparing acts only on a diagnosis that has been taken, or on a package
declared lost. A failed stop of a pre-empted and saved die is bypassed, the die takes a new incarnation, and images of the
stop's cores wait for its resume, one step that waits for the pre-emption (entry 49); a stop of a die that serves no
identity is only bypassed, and a third in a row makes the die unusable and is reported. A failed die's identity goes to the
brace, or to a die of a spare package (entry 81), which answers to nothing else, under a new incarnation. A spare takes a
failed package's index with its tables, its mapped pages rebuilt or poisoned, and other packages reach it by their route to
the spare, behind the marker of the old one. An event that nothing asks for has no effect (entry 54). -/
def Obligations.Sparing : Prop :=
  ∀ (s : State) (pkg pdie row col die spare q b : Nat),
    let p := s.pkg pkg
    let place := (pkg, pdie, row, col)
    let mask := p.stopMask pdie row
    let lcol := logColumn mask col
    let good : Prop := pdie < 9 ∧ row < 32 ∧ col < 34 ∧ mask.getLsbD col = false
    let bypassed := put p.stopMap (pdie * 32 + row) (mask ||| BitVec.twoPow 34 col)
    let old := physDie pkg (p.coreDie die)
    let asksDie (d : Diagnosis) : Bool := d.action == .dieSparing && d.unit == .coreDie old.1 old.2
    (p.service.taken = [] → s.identity pkg pdie = none → exec (.stopSparing pkg pdie row col) s = .next s) ∧
    (p.service.taken = [] → exec (.dieSparing pkg die) s = .next s) ∧
    (good → s.identity pkg pdie = none → p.decided (asksStop place) = true →
      (disabledStops mask < 2 → exec (.stopSparing pkg pdie row col) s =
        .next (s.updPkg pkg fun p => { p.acted (asksStop place) with stopMap := bypassed })) ∧
      (2 ≤ disabledStops mask → exec (.stopSparing pkg pdie row col) s =
        .next (((s.updPkg pkg (·.acted (asksStop place))).updPkg pkg fun p =>
          { p with failedDies := addNum p.failedDies pdie }).report pkg (.coreDie pkg pdie) false true))) ∧
    (∀ o d, good → lcol < 32 → s.identity pkg pdie = some (o, d) → d < 8 → (s.pkg o).decided (asksStop place) = true →
      disabledStops mask < 2 →
      let cores := (List.range 4).map ((o * 8192 + d * 1024 + row * 32 + lcol) * 4 + ·)
      let x := placeOfEntry o false (s.pkg o).dieMap[d % 8]
      (s.readyToSpare o d cores = false → exec (.stopSparing pkg pdie row col) s = .next s) ∧
      (s.readyToSpare o d cores = true → ∃ t : State, exec (.stopSparing pkg pdie row col) s = .next t ∧
        (t.pkg pkg).stopMap = bypassed ∧
        (t.pkg o).dieMap[d % 8].extractLsb' 0 8 = (s.pkg x.1).incOf false x.2 + 1 ∧
        ∀ c ∈ cores, (t.core c).stopped = true ∧ t.saved c = true)) ∧
    (die < 8 → p.decided asksDie = true → s.braceFor pkg = some (q, b) →
      s.entryFits pkg false die (braceEntry pkg q b) = true → old ≠ (q, b) → ∃ t : State,
        exec (.dieSparing pkg die) s = .next t ∧
        placeOfEntry pkg false (t.pkg pkg).dieMap[die % 8] = (q, b) ∧
        (t.pkg pkg).dieMap[die % 8].extractLsb' 0 8 = (s.pkg q).incOf false b + 1 ∧
        (∀ d, d ≠ die → (t.pkg pkg).dieMap[d]? = p.dieMap[d]?) ∧ (q = pkg → (t.pkg pkg).brace = none) ∧
        (q ≠ pkg → ∀ d : Fin 8, (s.pkg q).coreDie d.val = b → ((t.pkg q).dieMap[d]).getLsbD 31 = false) ∧
        old.2 ∈ (t.pkg old.1).failedDies) ∧
    (p.failed = false → exec (.packageSparing pkg spare) s = .next s) ∧
    (let sp := s.pkg spare
     p.failed = true → pkg ≠ spare → sp.spare = true → sp.alive = true → sp.tenants = [] → 8 ≤ (s.goodDies spare).length →
     s.cores = [] → p.tenants = [] → p.scribes = [] → p.transits = [] → ∃ u : State,
      exec (.packageSparing pkg spare) s = .next u ∧ (u.pkg pkg).alive = true ∧ (u.pkg pkg).spare = false ∧
        (u.pkg spare).alive = false ∧ (u.pkg pkg).tables = p.tables ∧
        (∀ a, homePkg a = pkg → u.mem.read a = Memory.unlisted) ∧
        (∀ g ∈ (p.mappedPages pkg).map (·.1), ∀ l ∈ pageLines g,
          if (look p.coded g).isSome then l ∈ (u.pkg pkg).rebuild else look (u.pkg pkg).poison l = some 0x03) ∧
        ∀ k, k ≠ pkg → k ≠ spare → k ∈ s.pkgs.map (·.1) →
          let was := (look (s.pkg k).routes pkg).getD (0, true)
          let now := some ((look (s.pkg k).routes spare).getD (0, true))
          if was.2 = false ∨ ((s.pkg k).port was.1).down = true then look (u.pkg k).routes pkg = now
          else look (u.pkg k).newRoutes pkg = now ∧ (u.pkg k).drains.contains (.route pkg) = true)

/-! ### Encodings, steps and reset -/

/-- R46 to R48, R52, R58 to R60: encoding and decoding agree. Every encoded instruction that R52 lets through decodes from
its own words, and every word that decodes gives an instruction that R52 lets through. -/
def Obligations.EncodingRoundTrip : Prop :=
  (∀ i : Instr, encode i ≠ .none → illegalOf i = none → (encode i).decode = .ok i) ∧
  ∀ (h0 h1 : BitVec 16) (i : Instr), decode h0 h1 = .ok i →
    illegalOf i = none ∧ encode i = if isLong h0 then .long (wordOf h0 h1) else .short h0

/-- R45, R52: words that the spec writes out decode to the instructions it gives them to, and the two halfwords that are
permanently illegal to none. -/
def Obligations.WrittenWords : Prop :=
  decodeTableWord 32 0x81298E00 = some (.add 5 6 7 0) ∧
  decodeTableWord 32 0x81211100 = some (.add 4 4 8 1) ∧
  decodeTableWord 32 0x84401388 = some (.li 8 5000) ∧
  decodeTableWord 32 0x98188C40 = some (.cinc 3 2 6) ∧
  decodeTableWord 32 0xF8000000 = some (.hint 0 0) ∧
  decodeTableWord 32 0xA810C895 = some (.faddV 2 3 4 9 5) ∧
  decodeTableWord 32 0xA22992A1 = some (.cvtf 5 6 9 10) ∧
  decodeTableWord 32 0xC0298A66 = some (.ld 5 6 1 1 6 3) ∧
  decodeTableWord 32 0xC1294802 = some (.ldImm 5 1 9 2) ∧
  decodeTableWord 32 0xC2398C68 = some (.st 7 6 1 2 6 4) ∧
  decodeTableWord 32 0xE9298058 = some (.waitne 5 6 0 1 1 4 0) ∧
  decodeTableWord 32 0xEE000000 = some .quit ∧
  decodeTableWord 32 0x9F010040 = some (.fkill 4) ∧
  decodeTableWord 32 0x9F010080 = some (.fretry 4) ∧
  decodeTableWord 16 0x4400 = some .nop ∧
  decodeTableWord 16 0x4800 = some .quitShort ∧
  (∀ h : BitVec 16, decode 0x0000 h = .error .halfword ∧ decode 0xFFFF h = .error .halfword)

/-- R26, R45, R52, R57, R147, R148, R290: a step that issues at a slot fetches the halfwords at its `pc`, decodes them and
carries out the instruction: the next state is that of `exec`, in the pipe's present cycle for a sequencer instruction, which
else enters the sequencer or waits. That cores and other agents take turns, one step each, is the model's order (entry 2). An encoding that is no instruction
faults with its detail, and a halfword outside the code region is the capability fault "code". -/
def Obligations.StepRunsDecoded : Prop :=
  ∀ (s : State) (c : Nat) (n : Fin 8),
    let u := s.elapse
    let v := { u.barrelTurn c n with curCore := c, curSlot := n }
    let half (a : Word) : Option (BitVec 16) := v.codeHalf (pkgOf c) v.me a
    let pc := v.regs.pc
    let after (t : State) : State := { ({ t with curCore := c + 1 }).settleGangs with issueTurn := false }
    u.agenda = [] → u.issueTurn = true → u.turn = some (c, n) → v.loser v.me = false → v.me.gang = 0 → v.me.loop = none →
    (∀ (h0 h1 : BitVec 16) (i : Instr) (t : State), half pc = some h0 →
      (isLong h0 = true → half (pc + 2) = some h1) → decode h0 h1 = .ok i → v.seqTurn i = .perform →
      v.injects i = false → exec i v = .next t → step s = .next (after (v.pipeUsed i (t.recoverLocal v c n)))) ∧
    (∀ (h0 h1 : BitVec 16) (i : Instr), half pc = some h0 → (isLong h0 = true → half (pc + 2) = some h1) →
      decode h0 h1 = .ok i → (v.seqTurn i = .wait → step s = .next (after v)) ∧
        (v.seqTurn i = .enter → v.injects i = false → step s = .next (after (v.enterSeq i)))) ∧
    (∀ (h0 h1 : BitVec 16) (e : Illegal), half pc = some h0 → (isLong h0 = true → half (pc + 2) = some h1) →
      decode h0 h1 = .error e → step s = .next (after (v.trapMe ⟨0x01, e.detail, 0, 0⟩))) ∧
    (half pc = none ∨ (∃ h0, half pc = some h0 ∧ isLong h0 = true ∧ half (pc + 2) = none) →
      step s = .next (after (v.trapMe ⟨0x03, 0x06, BitVec.ofNat 64 pc.toNat, 0⟩)))

/-- R44: every instruction and every event answers a next state: what goes wrong is a fault that the machine takes. Events are
named on an agenda (entry 1): a step
stops only where the agenda names an encoded instruction as a step of another agent, which is none, and it is never
refused. -/
def Obligations.EveryStepAnswers : Prop :=
  (∀ (i : Instr) (s : State), ∃ t, exec i s = .next t) ∧
  ∀ s : State, (∃ t, step s = .next t) ∨
    (step s = .fault .notAnEvent ∧ ∃ e rest, s.agenda = e :: rest ∧ encode e ≠ .none)

/-- The instructions that compute on the issuing thread's registers: integer, branch, capability, floating-point,
conversion, tail and vector instructions, and the hints. -/
def computes : Instr → Bool
  | .add _ _ _ _ | .sub _ _ _ _ | .mul _ _ _ _ | .mulh _ _ _ _ | .mulhn _ _ _ _ | .div _ _ _ _ | .divn _ _ _ _
  | .rem _ _ _ _ | .remn _ _ _ _ | .and _ _ _ _ | .or _ _ _ _ | .xor _ _ _ _ | .andn _ _ _ _ | .min _ _ _ _
  | .max _ _ _ _ | .minn _ _ _ _ | .maxn _ _ _ _ | .slt _ _ _ _ | .sltn _ _ _ _ => true
  | .shl _ _ _ _ _ _ | .shr _ _ _ _ _ _ | .sar _ _ _ _ _ _ | .rol _ _ _ _ _ _ | .clz _ _ _ | .ctz _ _ _
  | .popc _ _ _ => true
  | .addShort _ _ | .subShort _ _ | .andShort _ _ | .orShort _ _ | .xorShort _ _ | .shlShort _ _ | .shrShort _ _
  | .sarShort _ _ | .addiShort _ _ | .liShort _ _ | .minShort _ _ | .maxShort _ _ | .faddShort _ _ | .fmulShort _ _
  | .emovShort _ _ | .nop | .hintShort _ _ _ | .hint _ _ => true
  | .sel _ _ _ _ | .addi _ _ _ | .li _ _ | .lih _ _ | .eli _ _ | .emovToE _ _ | .emovFromE _ _ => true
  | .b _ | .j _ | .jl _ | .jr _ | .jlr _ | .jrShort _ | .jlrShort _ | .beq _ _ _ | .bne _ _ _ | .blt _ _ _
  | .bge _ _ _ | .bltn _ _ _ | .bgen _ _ _ | .bz _ _ | .bnz _ _ | .bzShort _ _ | .bnzShort _ _ | .loop _ _ => true
  | .csetb _ _ _ | .cinc _ _ _ | .cand _ _ _ | .cbase _ _ | .clen _ _ | .cperm _ _ | .time _ => true
  | .fadd _ _ _ _ | .fsub _ _ _ _ | .fmul _ _ _ _ | .fmin _ _ _ _ | .fmax _ _ _ _ | .fdiv _ _ _ _ | .fcmp _ _ _ _
  | .ffma _ _ _ _ | .fabs _ _ _ | .fneg _ _ _ | .fsqrt _ _ _ | .fclass _ _ _ | .frcp _ _ _ | .frsq _ _ _
  | .fexp2 _ _ _ | .flog2 _ _ _ | .fsin _ _ _ | .fcos _ _ _ | .cvt _ _ _ _ | .cvtf _ _ _ _ | .frnd _ _ _ _
  | .tailget _ _ | .tailset _ _ _ | .rndk _ _ _ => true
  | .tailgetV _ _ _ | .tailsetV _ _ _ _ | .faddV _ _ _ _ _ | .fsubV _ _ _ _ _ | .fmulV _ _ _ _ _ | .fminV _ _ _ _ _
  | .fmaxV _ _ _ _ _ | .fdivV _ _ _ _ _ | .ffmaV _ _ _ _ _ | .fcmpV _ _ _ _ _ _ | .fabsV _ _ _ _ | .fnegV _ _ _ _
  | .fsqrtV _ _ _ _ | .fclassV _ _ _ _ | .frcpV _ _ _ _ | .frsqV _ _ _ _ | .fexp2V _ _ _ _ | .flog2V _ _ _ _
  | .fsinV _ _ _ _ | .fcosV _ _ _ _ | .cvtV _ _ _ _ _ | .cvtfV _ _ _ _ _ | .frndV _ _ _ _ _ | .vshuf _ _ _ _
  | .vrot _ _ _ _ | .vbcast _ _ _ | .vsel _ _ _ _ | .vidx _ _ _ | .vredAdd _ _ _ _ | .vredMin _ _ _ _
  | .vredMax _ _ _ _ | .vredAnd _ _ _ _ | .vredOr _ _ _ _ | .vredXor _ _ _ _ | .pack _ _ _ _ _ | .vlut _ _ _ _
  | .rndkV _ _ _ _ => true
  | _ => false

/-- The frame of the instructions that compute on registers, on every path they take (completion, a wait for a port, a
fault): no byte and no tag of any storage changes, no register of another slot, no barrier and no monitor; and of the
thread's own registers, capabilities change by capability instructions alone, extension registers by `ELI` and `EMOV`
alone, vector registers by vector instructions alone, and the rounding control not at all. -/
def Obligations.ComputingFrame : Prop :=
  ∀ (i : Instr) (s t : State), computes i = true → exec i s = .next t →
    SameStorage s t ∧ t.barriers = s.barriers ∧ t.monitors = s.monitors ∧
    (∀ c n, ¬(c = s.curCore ∧ n = s.curSlot) → (t.slot c n).regs = (s.slot c n).regs) ∧
    t.regs.fcr = s.regs.fcr ∧
    ((∀ d a b, i ≠ .csetb d a b ∧ i ≠ .cinc d a b ∧ i ≠ .cand d a b) → t.regs.c = s.regs.c) ∧
    ((∀ d x, i ≠ .eli d x) → (∀ d a, i ≠ .emovToE d a ∧ i ≠ .emovShort d a) → t.regs.e = s.regs.e) ∧
    (vform i = none → t.regs.v = s.regs.v ∧ t.regs.k = s.regs.k)

/-- R18, R43, R290, R373, R400: after reset every slot is FREE with generation 0, storage reads zero with every tag 0,
queues and sequencers are empty, the matrix unit is in its initial state, slot-table entry i names slot i mod 8, the
maps name logical die i at position i with incarnation 0, every die having passed its tests (entry 9), and nothing is
bound. -/
def Obligations.ResetState : Prop :=
  let s := State.reset
  (∀ a, s.mem.read a = 0) ∧ s.mtags = [] ∧ s.fabric = [] ∧
  (∀ (c : Nat) (n : Fin 8), (s.slot c n).state = .free ∧ (s.slot c n).gen = 0 ∧ (s.slot c n).views = []) ∧
  (∀ c : Nat, let k := s.core c
    (∀ a, k.loc.read a = 0) ∧ k.ltags = [] ∧ (∀ q, (k.queue q).entries = []) ∧ k.seq = [] ∧ k.parts = [] ∧
    (∀ st : Fin 16, k.stages[st].bits.getLsbD 31 = false) ∧
    (∀ i : Fin 28, k.turns[i.val]? = some (BitVec.ofNat 8 (0x80 + i.val % 8))) ∧
    (∀ (a : Fin 4) (e : Fin 256), k.matrix.acc[a][e] = Elem.zero ∧ k.matrix.bad[a] = false) ∧
    (∀ e : Fin 16, k.matrix.tbl[e] = 0) ∧ k.matrix.latch = [] ∧ k.matrix.abind = none ∧ k.matrix.jobs = [] ∧
    k.matrix.next = 0) ∧
  ∀ p : Nat, let k := s.pkg p
    k.tenants = [] ∧ k.alive = true ∧ (∀ d, d < 8 → k.coreDie d = d ∧ k.dieInc[d]? = some 0)

/-- GLOBAL memory, every local memory, the local memories of the images in the context areas and the host's memory are
in their canonical form: addresses rise strictly and no listed byte is the zero that an unlisted address reads as. -/
structure StorageForm (s : State) : Prop where
  global : s.mem.wf = true
  locals : ∀ k ∈ s.cores, k.2.loc.wf = true
  images : ∀ k ∈ s.pkgs, ∀ i ∈ k.2.contexts, i.2.loc.wf = true
  host   : ∀ k ∈ s.pkgs, k.2.host.mem.wf = true

/-- R400: the form of storage holds at reset, and every step keeps it. -/
def Obligations.StorageFormKept : Prop :=
  StorageForm State.reset ∧ ∀ s t : State, StorageForm s → step s = .next t → StorageForm t

/-! ### The register file, hints and the chain -/

/-- R19 to R25: a scalar, pair, vector, mask, extension or capability register reads what was last written to it and no
other register of its class changes, of the scalars none but the two of a pair written; `s0` reads zero with tail 00, `k0`
all ones and `c0` the null capability, and writes to them are discarded; `d0` reads zero in its low word and a write to it
writes `s1` alone. -/
def Obligations.RegisterFile : Prop :=
  ∀ (r : Regs) (x : Elem) (w : DWord) (m n : BitVec 5) (b : BitVec 8) (c : Cap) (i j : BitVec 3) (v : Vector Elem 8)
    (y : Word),
    r.get 0 = Elem.zero ∧ r.put 0 x = r ∧ r.mask 0 = 0xFF ∧ r.setMask 0 b = r ∧ r.cap 0 = nullCap ∧ r.setCap 0 c = r ∧
    (r.pair 0).setWidth 32 = 0#32 ∧ r.setPair 0 w = r.setVal 1 (w.extractLsb' 32 32) ∧
    (n ∉ [0, 28, 29, 30] → (r.put n x).get m = if m = n then x else r.get m) ∧
    (n.toNat % 2 = 0 → n ∉ [0, 28, 30] → (r.setPair n w).pair n = w ∧
      (m ≠ n → m ≠ n + 1 → (r.setPair n w).get m = r.get m)) ∧
    (r.setExt i y).ext j = (if j = i then y else r.ext j) ∧
    (i ≠ 0 → (r.setMask i b).mask j = if j = i then b else r.mask j) ∧
    (i ≠ 0 → (r.setCap i c).cap j = if j = i then c else r.cap j) ∧
    (m.toNat < 16 → n.toNat < 16 → (r.setVec n v).vec m = if m = n then v else r.vec m)

/-- R54, R116: `NOP` is the halfword 0x4400 alone, advances `pc` by 2 and changes nothing else. Every word of the hint
space decodes to a hint, which advances `pc` by its length and changes nothing else, and which sequencer, gangs and
injections treat as `NOP`. -/
def Obligations.NopAndHints : Prop :=
  (∀ h0 h1 : BitVec 16, decode h0 h1 = .ok .nop ↔ h0 = 0x4400) ∧
  (∀ h0 h1 : BitVec 16, 0xF8 ≤ h0.toNat / 2 ^ 8 → h0.toNat / 2 ^ 8 ≤ 0xFE → ∃ k x, decode h0 h1 = .ok (.hint k x)) ∧
  (∀ h0 h1 : BitVec 16, 0x1C ≤ h0.toNat / 2 ^ 10 → h0.toNat / 2 ^ 10 ≤ 0x1F →
    ∃ k a b, decode h0 h1 = .ok (.hintShort k a b)) ∧
  ∀ (s : State) (k : BitVec 3) (x : BitVec 24) (h : BitVec 2) (a b : BitVec 5),
    exec .nop s = .next (s.setRegs (s.regs.advance 2)) ∧
    exec (.hintShort h a b) s = .next (s.setRegs (s.regs.advance 2)) ∧
    exec (.hint k x) s = .next (s.setRegs (s.regs.advance 4)) ∧
    ∀ i ∈ [Instr.hint k x, .hintShort h a b], s.seqTurn i = s.seqTurn .nop ∧ s.injects i = s.injects .nop ∧
      capturable i = capturable .nop ∧ transfers i = transfers .nop

/-- R14: the chain of a logical die. The chain position of a core follows its quad row by row, back and forth; each
position from 0 to 4,095 is that of exactly one core of the die; the downstream neighbour is at the next position, and the
upstream neighbour, whose downstream neighbour the core is, at the previous one, with none at position 0; and consecutive
positions are on the same stop or on stops that are adjacent in the mesh. -/
def Obligations.ChainOrder : Prop :=
  ∀ c : Nat,
    let row (c : Nat) : Int := c / 128 % 32
    let col (c : Nat) : Int := c / 4 % 32
    (c / 128 % 2 = 0 → (chainPos c : Int) = 4 * (row c * 32 + col c) + c % 4) ∧
    (c / 128 % 2 = 1 → (chainPos c : Int) = 4 * (row c * 32 + (31 - col c)) + c % 4) ∧
    chainPos c < 4096 ∧
    (∀ p, p < 4096 → chainCore c p / 4096 = c / 4096 ∧ chainPos (chainCore c p) = p) ∧
    (∀ d, d / 4096 = c / 4096 → chainPos d = chainPos c → d = c) ∧
    (chainPos c < 4095 → downstream c / 4096 = c / 4096 ∧ chainPos (downstream c) = chainPos c + 1 ∧
      (stopOf (downstream c) = stopOf c ∨
        |row (downstream c) - row c| + |col (downstream c) - col c| = 1)) ∧
    (0 < chainPos c → let u := chainCore c (chainPos c - 1)
      u / 4096 = c / 4096 ∧ chainPos u + 1 = chainPos c ∧ downstream u = c) ∧
    (chainPos c = 0 → ∀ u, u / 4096 = c / 4096 → chainPos u < 4095 → downstream u ≠ c) ∧
    (∀ bits, chainPos c = 4095 → bits.extractLsb' 16 2 = 1#2 → stageOutput c bits = none)
end

