-- ==== Sys2Proof/Laws/State.lean ====
section
/-!
SUPPORT. The small lemmas of the state: keyed lists, and what each update of the state leaves and writes.
-/

namespace Sys2Proof.Machine

/-! ### Keyed lists -/

/-- A key that was written reads as written. -/
@[simp] theorem look_put_same {α : Type} (l : List (Nat × α)) (a : Nat) (x : α) : look (put l a x) a = some x := by
  induction l with
  | nil => simp [put, look]
  | cons c rest ih =>
    obtain ⟨k, v⟩ := c
    simp only [put]
    split
    · simp [look]
    · split
      · simp [look]
      · simp [look, *]

/-- Another key reads as before. -/
theorem look_put_ne {α : Type} (l : List (Nat × α)) {a b : Nat} (x : α) (h : b ≠ a) : look (put l a x) b = look l b := by
  induction l with
  | nil => simp [put, look, h.symm]
  | cons c rest ih =>
    obtain ⟨k, v⟩ := c
    simp only [put]
    split
    · simp [look, h.symm]
    · split
      · subst_vars; simp [look, h.symm]
      · simp [look, ih]

/-- The second write to a key stands alone. -/
@[simp] theorem put_put {α : Type} (l : List (Nat × α)) (a : Nat) (x y : α) : put (put l a x) a y = put l a y := by
  induction l with
  | nil => simp [put]
  | cons c rest ih =>
    obtain ⟨k, v⟩ := c
    by_cases h : a < k
    · simp [put, h]
    · by_cases e : k = a
      · simp [put, e]
      · simp [put, h, e, ih]

/-- A dropped key is not listed. -/
@[simp] theorem look_drop_same {α : Type} (l : List (Nat × α)) (a : Nat) : look (drop l a) a = none := by
  induction l with
  | nil => rfl
  | cons c rest ih =>
    by_cases h : c.1 = a <;> simp_all [drop, look]

/-- Another key reads as before. -/
theorem look_drop_ne {α : Type} (l : List (Nat × α)) {a b : Nat} (h : b ≠ a) : look (drop l a) b = look l b := by
  induction l with
  | nil => rfl
  | cons c rest ih =>
    by_cases e : c.1 = a
    · have : c.1 ≠ b := fun hb => h (hb.symm.trans e)
      simp_all [drop, look]
    · simp_all [drop, look]

/-! ### A core replaced leaves every other part -/

@[simp] theorem State.setCore_agenda (s : State) (c : Nat) (x : Core) : (s.setCore c x).agenda = s.agenda := rfl
@[simp] theorem State.setCore_curCore (s : State) (c : Nat) (x : Core) : (s.setCore c x).curCore = s.curCore := rfl
@[simp] theorem State.setCore_curSlot (s : State) (c : Nat) (x : Core) : (s.setCore c x).curSlot = s.curSlot := rfl
@[simp] theorem State.setCore_issueTurn (s : State) (c : Nat) (x : Core) : (s.setCore c x).issueTurn = s.issueTurn := rfl
@[simp] theorem State.setCore_ticks (s : State) (c : Nat) (x : Core) : (s.setCore c x).ticks = s.ticks := rfl
@[simp] theorem State.setCore_now (s : State) (c : Nat) (x : Core) : (s.setCore c x).now = s.now := rfl
@[simp] theorem State.setCore_podSize (s : State) (c : Nat) (x : Core) : (s.setCore c x).podSize = s.podSize := rfl
@[simp] theorem State.setCore_mem (s : State) (c : Nat) (x : Core) : (s.setCore c x).mem = s.mem := rfl
@[simp] theorem State.setCore_mtags (s : State) (c : Nat) (x : Core) : (s.setCore c x).mtags = s.mtags := rfl
@[simp] theorem State.setCore_fabric (s : State) (c : Nat) (x : Core) : (s.setCore c x).fabric = s.fabric := rfl
@[simp] theorem State.setCore_barriers (s : State) (c : Nat) (x : Core) : (s.setCore c x).barriers = s.barriers := rfl
@[simp] theorem State.setCore_monitors (s : State) (c : Nat) (x : Core) : (s.setCore c x).monitors = s.monitors := rfl
@[simp] theorem State.setCore_collMsgs (s : State) (c : Nat) (x : Core) : (s.setCore c x).collMsgs = s.collMsgs := rfl
@[simp] theorem State.setCore_stops (s : State) (c : Nat) (x : Core) : (s.setCore c x).stops = s.stops := rfl
@[simp] theorem State.setCore_pkgs (s : State) (c : Nat) (x : Core) : (s.setCore c x).pkgs = s.pkgs := rfl
@[simp] theorem State.setCore_monitorRoom (s : State) (c : Nat) (x : Core) : (s.setCore c x).monitorRoom = s.monitorRoom := rfl

/-! ### A package replaced leaves every other part -/

@[simp] theorem State.setPkg_agenda (s : State) (p : Nat) (x : Package) : (s.setPkg p x).agenda = s.agenda := rfl
@[simp] theorem State.setPkg_curCore (s : State) (p : Nat) (x : Package) : (s.setPkg p x).curCore = s.curCore := rfl
@[simp] theorem State.setPkg_curSlot (s : State) (p : Nat) (x : Package) : (s.setPkg p x).curSlot = s.curSlot := rfl
@[simp] theorem State.setPkg_issueTurn (s : State) (p : Nat) (x : Package) : (s.setPkg p x).issueTurn = s.issueTurn := rfl
@[simp] theorem State.setPkg_ticks (s : State) (p : Nat) (x : Package) : (s.setPkg p x).ticks = s.ticks := rfl
@[simp] theorem State.setPkg_now (s : State) (p : Nat) (x : Package) : (s.setPkg p x).now = s.now := rfl
@[simp] theorem State.setPkg_podSize (s : State) (p : Nat) (x : Package) : (s.setPkg p x).podSize = s.podSize := rfl
@[simp] theorem State.setPkg_mem (s : State) (p : Nat) (x : Package) : (s.setPkg p x).mem = s.mem := rfl
@[simp] theorem State.setPkg_mtags (s : State) (p : Nat) (x : Package) : (s.setPkg p x).mtags = s.mtags := rfl
@[simp] theorem State.setPkg_fabric (s : State) (p : Nat) (x : Package) : (s.setPkg p x).fabric = s.fabric := rfl
@[simp] theorem State.setPkg_barriers (s : State) (p : Nat) (x : Package) : (s.setPkg p x).barriers = s.barriers := rfl
@[simp] theorem State.setPkg_monitors (s : State) (p : Nat) (x : Package) : (s.setPkg p x).monitors = s.monitors := rfl
@[simp] theorem State.setPkg_collMsgs (s : State) (p : Nat) (x : Package) : (s.setPkg p x).collMsgs = s.collMsgs := rfl
@[simp] theorem State.setPkg_stops (s : State) (p : Nat) (x : Package) : (s.setPkg p x).stops = s.stops := rfl
@[simp] theorem State.setPkg_cores (s : State) (p : Nat) (x : Package) : (s.setPkg p x).cores = s.cores := rfl
@[simp] theorem State.setPkg_monitorRoom (s : State) (p : Nat) (x : Package) : (s.setPkg p x).monitorRoom = s.monitorRoom := rfl

/-! ### A slot replaced leaves every other part -/

@[simp] theorem State.setSlot_agenda (s : State) (c : Nat) (n : Fin 8) (x : Slot) : (s.setSlot c n x).agenda = s.agenda := rfl
@[simp] theorem State.setSlot_curCore (s : State) (c : Nat) (n : Fin 8) (x : Slot) : (s.setSlot c n x).curCore = s.curCore := rfl
@[simp] theorem State.setSlot_curSlot (s : State) (c : Nat) (n : Fin 8) (x : Slot) : (s.setSlot c n x).curSlot = s.curSlot := rfl
@[simp] theorem State.setSlot_issueTurn (s : State) (c : Nat) (n : Fin 8) (x : Slot) : (s.setSlot c n x).issueTurn = s.issueTurn := rfl
@[simp] theorem State.setSlot_ticks (s : State) (c : Nat) (n : Fin 8) (x : Slot) : (s.setSlot c n x).ticks = s.ticks := rfl
@[simp] theorem State.setSlot_now (s : State) (c : Nat) (n : Fin 8) (x : Slot) : (s.setSlot c n x).now = s.now := rfl
@[simp] theorem State.setSlot_podSize (s : State) (c : Nat) (n : Fin 8) (x : Slot) : (s.setSlot c n x).podSize = s.podSize := rfl
@[simp] theorem State.setSlot_mem (s : State) (c : Nat) (n : Fin 8) (x : Slot) : (s.setSlot c n x).mem = s.mem := rfl
@[simp] theorem State.setSlot_mtags (s : State) (c : Nat) (n : Fin 8) (x : Slot) : (s.setSlot c n x).mtags = s.mtags := rfl
@[simp] theorem State.setSlot_fabric (s : State) (c : Nat) (n : Fin 8) (x : Slot) : (s.setSlot c n x).fabric = s.fabric := rfl
@[simp] theorem State.setSlot_barriers (s : State) (c : Nat) (n : Fin 8) (x : Slot) : (s.setSlot c n x).barriers = s.barriers := rfl
@[simp] theorem State.setSlot_monitors (s : State) (c : Nat) (n : Fin 8) (x : Slot) : (s.setSlot c n x).monitors = s.monitors := rfl
@[simp] theorem State.setSlot_collMsgs (s : State) (c : Nat) (n : Fin 8) (x : Slot) : (s.setSlot c n x).collMsgs = s.collMsgs := rfl
@[simp] theorem State.setSlot_stops (s : State) (c : Nat) (n : Fin 8) (x : Slot) : (s.setSlot c n x).stops = s.stops := rfl
@[simp] theorem State.setSlot_pkgs (s : State) (c : Nat) (n : Fin 8) (x : Slot) : (s.setSlot c n x).pkgs = s.pkgs := rfl
@[simp] theorem State.setSlot_monitorRoom (s : State) (c : Nat) (n : Fin 8) (x : Slot) : (s.setSlot c n x).monitorRoom = s.monitorRoom := rfl

/-! ### Registers replaced leave every other part -/

@[simp] theorem State.setRegs_agenda (s : State) (r : Regs) : (s.setRegs r).agenda = s.agenda := rfl
@[simp] theorem State.setRegs_curCore (s : State) (r : Regs) : (s.setRegs r).curCore = s.curCore := rfl
@[simp] theorem State.setRegs_curSlot (s : State) (r : Regs) : (s.setRegs r).curSlot = s.curSlot := rfl
@[simp] theorem State.setRegs_issueTurn (s : State) (r : Regs) : (s.setRegs r).issueTurn = s.issueTurn := rfl
@[simp] theorem State.setRegs_ticks (s : State) (r : Regs) : (s.setRegs r).ticks = s.ticks := rfl
@[simp] theorem State.setRegs_now (s : State) (r : Regs) : (s.setRegs r).now = s.now := rfl
@[simp] theorem State.setRegs_podSize (s : State) (r : Regs) : (s.setRegs r).podSize = s.podSize := rfl
@[simp] theorem State.setRegs_mem (s : State) (r : Regs) : (s.setRegs r).mem = s.mem := rfl
@[simp] theorem State.setRegs_mtags (s : State) (r : Regs) : (s.setRegs r).mtags = s.mtags := rfl
@[simp] theorem State.setRegs_fabric (s : State) (r : Regs) : (s.setRegs r).fabric = s.fabric := rfl
@[simp] theorem State.setRegs_barriers (s : State) (r : Regs) : (s.setRegs r).barriers = s.barriers := rfl
@[simp] theorem State.setRegs_monitors (s : State) (r : Regs) : (s.setRegs r).monitors = s.monitors := rfl
@[simp] theorem State.setRegs_collMsgs (s : State) (r : Regs) : (s.setRegs r).collMsgs = s.collMsgs := rfl
@[simp] theorem State.setRegs_stops (s : State) (r : Regs) : (s.setRegs r).stops = s.stops := rfl
@[simp] theorem State.setRegs_pkgs (s : State) (r : Regs) : (s.setRegs r).pkgs = s.pkgs := rfl
@[simp] theorem State.setRegs_monitorRoom (s : State) (r : Regs) : (s.setRegs r).monitorRoom = s.monitorRoom := rfl
/-! ### Changes are replacements -/

theorem State.updCore_eq (s : State) (c : Nat) (f : Core → Core) : s.updCore c f = s.setCore c (f (s.core c)) := rfl
theorem State.updPkg_eq (s : State) (p : Nat) (f : Package → Package) : s.updPkg p f = s.setPkg p (f (s.pkg p)) := rfl
theorem State.updSlot_eq (s : State) (c : Nat) (n : Fin 8) (f : Slot → Slot) :
    s.updSlot c n f = s.setSlot c n (f (s.slot c n)) := rfl
theorem State.updMe_eq (s : State) (f : Slot → Slot) : s.updMe f = s.setSlot s.curCore s.curSlot (f s.me) := rfl
theorem State.setRegs_eq (s : State) (r : Regs) :
    s.setRegs r = s.setSlot s.curCore s.curSlot { s.me with regs := r } := rfl

/-! ### What was replaced reads as replaced -/

@[simp] theorem State.core_setCore (s : State) (c : Nat) (x : Core) : (s.setCore c x).core c = x := by
  simp [State.core, State.setCore]

theorem State.core_setCore_ne (s : State) {c d : Nat} (x : Core) (h : d ≠ c) : (s.setCore c x).core d = s.core d := by
  simp [State.core, State.setCore, look_put_ne _ _ h]

@[simp] theorem State.setCore_setCore (s : State) (c : Nat) (x y : Core) : (s.setCore c x).setCore c y = s.setCore c y := by
  simp [State.setCore]

@[simp] theorem State.core_setPkg (s : State) (p : Nat) (x : Package) (c : Nat) : (s.setPkg p x).core c = s.core c := rfl

@[simp] theorem State.pkg_setPkg (s : State) (p : Nat) (x : Package) : (s.setPkg p x).pkg p = x := by
  simp [State.pkg, State.setPkg]

theorem State.pkg_setPkg_ne (s : State) {p q : Nat} (x : Package) (h : q ≠ p) : (s.setPkg p x).pkg q = s.pkg q := by
  simp [State.pkg, State.setPkg, look_put_ne _ _ h]

@[simp] theorem State.pkg_setCore (s : State) (c : Nat) (x : Core) (p : Nat) : (s.setCore c x).pkg p = s.pkg p := rfl
@[simp] theorem State.pkg_setSlot (s : State) (c : Nat) (n : Fin 8) (x : Slot) (p : Nat) :
    (s.setSlot c n x).pkg p = s.pkg p := rfl
@[simp] theorem State.pkg_setRegs (s : State) (r : Regs) (p : Nat) : (s.setRegs r).pkg p = s.pkg p := rfl

@[simp] theorem Core.slot_setSlot (k : Core) (n : Fin 8) (x : Slot) : (k.setSlot n x).slot n = x := by
  simp [Core.slot, Core.setSlot]

theorem Core.slot_setSlot_ne (k : Core) {n m : Fin 8} (x : Slot) (h : m ≠ n) : (k.setSlot n x).slot m = k.slot m := by
  simp [Core.slot, Core.setSlot, Vector.getElem_set_ne, Fin.val_ne_of_ne h.symm]

@[simp] theorem Core.setSlot_setSlot (k : Core) (n : Fin 8) (x y : Slot) : (k.setSlot n x).setSlot n y = k.setSlot n y := by
  simp [Core.setSlot]

@[simp] theorem State.slot_setSlot (s : State) (c : Nat) (n : Fin 8) (x : Slot) : (s.setSlot c n x).slot c n = x := by
  simp [State.slot, State.setSlot, State.updCore]

/-- A slot of another core or number is as before. -/
theorem State.slot_setSlot_ne (s : State) {c d : Nat} {n m : Fin 8} (x : Slot) (h : ¬(d = c ∧ m = n)) :
    (s.setSlot c n x).slot d m = s.slot d m := by
  by_cases e : d = c
  · subst e
    simp [State.slot, State.setSlot, State.updCore, Core.slot_setSlot_ne _ x (fun e => h ⟨rfl, e⟩)]
  · simp [State.slot, State.setSlot, State.updCore, State.core_setCore_ne _ _ e]

@[simp] theorem State.setSlot_setSlot (s : State) (c : Nat) (n : Fin 8) (x y : Slot) :
    (s.setSlot c n x).setSlot c n y = s.setSlot c n y := by
  simp [State.setSlot, State.updCore]

@[simp] theorem State.slot_setPkg (s : State) (p : Nat) (x : Package) (c : Nat) (n : Fin 8) :
    (s.setPkg p x).slot c n = s.slot c n := rfl

@[simp] theorem State.me_setRegs (s : State) (r : Regs) : (s.setRegs r).me = { s.me with regs := r } := by
  simp [State.me, State.setRegs_eq]

@[simp] theorem State.regs_setRegs (s : State) (r : Regs) : (s.setRegs r).regs = r := by simp [State.regs]

@[simp] theorem State.setRegs_setRegs (s : State) (r q : Regs) : (s.setRegs r).setRegs q = s.setRegs q := by
  conv_lhs => rw [State.setRegs_eq]
  rw [State.me_setRegs]
  simp [State.setRegs_eq]

@[simp] theorem State.home_setRegs (s : State) (r : Regs) : (s.setRegs r).home = s.home := by simp [State.home]

/-- A change of the issuing thread's registers leaves every other slot. -/
theorem State.slot_setRegs_ne (s : State) (r : Regs) {c : Nat} {n : Fin 8} (h : ¬(c = s.curCore ∧ n = s.curSlot)) :
    (s.setRegs r).slot c n = s.slot c n := by
  rw [State.setRegs_eq, State.slot_setSlot_ne _ _ h]

/-- A core apart from its slots, after a slot was replaced. -/
theorem State.core_setSlot (s : State) (c : Nat) (n : Fin 8) (x : Slot) (d : Nat) :
    (s.setSlot c n x).core d = if d = c then (s.core c).setSlot n x else s.core d := by
  by_cases h : d = c
  · subst h; simp [State.setSlot, State.updCore]
  · simp [State.setSlot, State.updCore, State.core_setCore_ne _ _ h, h]

/-- Local memory is no part of a slot. -/
@[simp] theorem State.loc_setSlot (s : State) (c : Nat) (n : Fin 8) (x : Slot) (d : Nat) :
    ((s.setSlot c n x).core d).loc = (s.core d).loc := by
  rw [State.core_setSlot]
  split
  · subst_vars; rfl
  · rfl

@[simp] theorem State.loc_setRegs (s : State) (r : Regs) (d : Nat) : ((s.setRegs r).core d).loc = (s.core d).loc :=
  State.loc_setSlot ..

/-! ### Registers -/

@[simp] theorem Regs.get_zero (r : Regs) : r.get 0 = Elem.zero := rfl
@[simp] theorem Regs.put_zero (r : Regs) (x : Elem) : r.put 0 x = r := rfl
@[simp] theorem Regs.mask_zero (r : Regs) : r.mask 0 = 0xFF := rfl
@[simp] theorem Regs.setMask_zero (r : Regs) (x : BitVec 8) : r.setMask 0 x = r := rfl
@[simp] theorem Regs.cap_zero (r : Regs) : r.cap 0 = nullCap := rfl
@[simp] theorem Regs.setCap_zero (r : Regs) (x : Cap) : r.setCap 0 x = r := rfl

/-- A plain register reads as written. -/
theorem Regs.get_put (r : Regs) {n : BitVec 5} (x : Elem) (h0 : n ≠ 0) (h1 : n ≠ 28) (h2 : n ≠ 29) (h3 : n ≠ 30) :
    (r.put n x).get n = x := by
  rw [Regs.put, if_neg h0, if_neg h3, Regs.get, if_neg h0, if_neg h1, if_neg h2]
  exact Vector.getElem_set_self ..

/-- Every other register reads as before. -/
theorem Regs.get_put_ne (r : Regs) {n m : BitVec 5} (x : Elem) (h : m ≠ n) : (r.put n x).get m = r.get m := by
  have hv : n.toNat ≠ m.toNat := fun e => h (BitVec.eq_of_toNat_eq e.symm)
  by_cases h0 : n = 0
  · rw [Regs.put, if_pos h0]
  · by_cases h3 : n = 30
    · rw [Regs.put, if_neg h0, if_pos h3]; rfl
    · rw [Regs.put, if_neg h0, if_neg h3, Regs.get, Regs.get]
      simp only [Vector.getElem_set_ne _ _ hv]

/-- No flag raised changes nothing. -/
@[simp] theorem Regs.raise_zero (r : Regs) : r.raise 0#6 = r := by simp [Regs.raise]

@[simp] theorem Regs.advance_pc (r : Regs) (n : Nat) : (r.advance n).pc = r.pc + BitVec.ofNat 32 n := rfl
@[simp] theorem Regs.advance_get (r : Regs) (n : Nat) (m : BitVec 5) : (r.advance n).get m = r.get m := rfl

end Sys2Proof.Machine
end

