-- ==== Sys2Proof/Laws/Issue.lean ====
section
/-!
SUPPORT. What an issued instruction does, once for every instruction: its ports, its body and its completion.
-/

namespace Sys2Proof.Machine

/-- A run that has succeeded goes on with its state. -/
@[simp] theorem run_ok_bind {ε α β : Type} (x : α) (f : α → Except ε β) : (Except.ok x >>= f) = f x := rfl

/-- A run that has ended stays ended. -/
@[simp] theorem run_error_bind {ε α β : Type} (e : ε) (f : α → Except ε β) : (Except.error e >>= f) = .error e := rfl

/-- A read port whose buffer holds a word is ready as it stands. -/
theorem State.fillPort_of_word (s : State) {p : Port} (hp : p = .qup → chainPos s.home ≠ 0)
    (h : s.regs.buffer p ≠ []) : s.fillPort p = .ok s := by
  have hc : ¬(p = .qup ∧ chainPos s.me.home = 0) := fun e => hp e.1 e.2
  have hb : s.me.regs.buffer p ≠ [] := h
  simp [State.fillPort, hc, hb]

/-- Read ports that are ready stay as they are, in whatever order sources name them. -/
theorem State.fillPorts_of_ready (s : State) {srcs : List (BitVec 5)} (h1 : 28#5 ∈ srcs → s.fillPort .qrx = .ok s)
    (h2 : 29#5 ∈ srcs → s.fillPort .qup = .ok s) : State.fillPorts srcs s = .ok s := by
  induction srcs with
  | nil => rfl
  | cons n rest ih =>
    have ih := ih (fun m => h1 (List.mem_cons_of_mem _ m)) (fun m => h2 (List.mem_cons_of_mem _ m))
    by_cases e1 : n = 28#5
    · subst e1; simp [State.fillPorts, h1 (List.mem_cons_self ..), ih]
    · by_cases e2 : n = 29#5
      · subst e2; simp [State.fillPorts, h2 (List.mem_cons_self ..), ih]
      · simp [State.fillPorts, e1, e2, ih]

/-- Ports that are ready stay as they are. -/
theorem State.preparePorts_of_ready (s : State) {srcs dsts : List (BitVec 5)} (h : s.portsReady srcs dsts) :
    s.preparePorts srcs dsts = .ok s := by
  obtain ⟨h1, h2, h3⟩ := h
  have e1 : 28#5 ∈ srcs → s.fillPort .qrx = .ok s := fun m => s.fillPort_of_word nofun (h1 m)
  have e2 : 29#5 ∈ srcs → s.fillPort .qup = .ok s := fun m => s.fillPort_of_word (fun _ => (h2 m).1) (h2 m).2
  have e3 : 30#5 ∈ dsts → s.checkPush = .ok s := fun m => by
    have e : ¬(chainPos s.me.home = 4095) := (h3 m).1
    have e' : ¬(s.me.inWorld = true ∧ s.me.regs.qdn.length = 3) := (h3 m).2
    simp [State.checkPush, e, e']
  by_cases m3 : 30#5 ∈ dsts <;> simp [State.preparePorts, s.fillPorts_of_ready e1 e2, usesPort, *]

/-- An instruction without ports is ready. -/
theorem State.portsReady_of_none (s : State) {srcs dsts : List (BitVec 5)} (h1 : 28#5 ∉ srcs) (h2 : 29#5 ∉ srcs)
    (h3 : 30#5 ∉ dsts) : s.portsReady srcs dsts := ⟨fun h => absurd h h1, fun h => absurd h h2, fun h => absurd h h3⟩

@[simp] theorem State.portsReady_nil (s : State) : s.portsReady [] [] := s.portsReady_of_none nofun nofun nofun

/-- A body that completes: the port words are consumed and a full `qdn` buffer is pushed. -/
theorem State.issue_of_ok (s t : State) {srcs dsts : List (BitVec 5)} {body : State → Run} (h : s.portsReady srcs dsts)
    (hb : body s = .ok t) : s.issue srcs dsts body = t.completed srcs dsts t.regs := by
  simp [State.issue, s.preparePorts_of_ready h, hb, State.finish, State.completed, usesPort]

/-- A body that faults: the fault is taken, and the port words stay. -/
theorem State.issue_of_trap (s t : State) {srcs dsts : List (BitVec 5)} {body : State → Run} {f : FaultInfo}
    (h : s.portsReady srcs dsts) (hb : body s = .error (.trap t f)) : s.issue srcs dsts body = t.trapMe f := by
  simp [State.issue, s.preparePorts_of_ready h, hb, State.finish]

/-- A body that waits leaves the state it waits in. -/
theorem State.issue_of_wait (s t : State) {srcs dsts : List (BitVec 5)} {body : State → Run}
    (h : s.portsReady srcs dsts) (hb : body s = .error (.wait t)) : s.issue srcs dsts body = t := by
  simp [State.issue, s.preparePorts_of_ready h, hb, State.finish]

/-- Registers replaced before completion. -/
@[simp] theorem State.completed_setRegs (s : State) (srcs dsts : List (BitVec 5)) (r q : Regs) :
    (s.setRegs r).completed srcs dsts q = s.completed srcs dsts q := by simp [State.completed]

/-- An instruction that changes registers only, with its ports ready. -/
theorem State.plain_of_ready (s : State) {srcs dsts : List (BitVec 5)} {len : Nat} {f : Regs → Except FaultInfo Regs}
    (h : s.portsReady srcs dsts) : s.plain len srcs dsts f = match f s.regs with
      | .ok r => s.completed srcs dsts (r.advance len)
      | .error e => s.trapMe e := by
  unfold State.plain
  cases hf : f s.regs with
  | ok r => simpa using s.issue_of_ok (s.setRegs (r.advance len)) h (by simp [hf])
  | error e => exact s.issue_of_trap s h (by simp [hf])

/-- A memory instruction whose operation answers, with its ports ready. -/
theorem State.memory_of_ok (s t : State) {i : Instr} {len : Nat} {srcs dsts : List (BitVec 5)} {r : Regs}
    {op : State → Except Miss (Regs × State)} (h : s.portsReady srcs dsts) (hop : op s = .ok (r, t)) :
    s.memory i len srcs dsts op = t.completed srcs dsts (r.advance len) := by
  simp [State.memory, State.scoped, s.preparePorts_of_ready h, hop, atScope, State.finish, State.completed, usesPort]

/-- A memory instruction whose operation faults carries its scope code. -/
theorem State.memory_of_fault (s : State) {i : Instr} {len : Nat} {srcs dsts : List (BitVec 5)} {f : FaultInfo}
    {op : State → Except Miss (Regs × State)} (h : s.portsReady srcs dsts) (hop : op s = .error (.fault f)) :
    s.memory i len srcs dsts op = s.trapMe { f with scope := scopeOf i } := by
  simp [State.memory, State.scoped, s.preparePorts_of_ready h, hop, atScope, State.finish]

/-- A memory instruction whose operation waits is held. -/
theorem State.memory_of_wait (s : State) {i : Instr} {len : Nat} {srcs dsts : List (BitVec 5)}
    {op : State → Except Miss (Regs × State)} {line : Option Nat} (h : s.portsReady srcs dsts)
    (hop : op s = .error (.wait line)) : s.memory i len srcs dsts op = s.awaitHome i line := by
  simp [State.memory, State.scoped, s.preparePorts_of_ready h, hop, atScope, State.finish]

/-- A transfer with its ports ready. -/
theorem State.transfer_of_ready (s : State) {srcs dsts : List (BitVec 5)} {f : Regs → Except FaultInfo Regs}
    (h : s.portsReady srcs dsts) : s.transfer srcs dsts f = match f s.regs with
      | .ok r => s.completed srcs dsts r
      | .error e => s.trapMe e := by
  unfold State.transfer
  cases hf : f s.regs with
  | ok r => simpa using s.issue_of_ok (s.setRegs r) h (by simp [hf])
  | error e => exact s.issue_of_trap s h (by simp [hf])

end Sys2Proof.Machine
end

