-- ==== Sys2Proof/Laws/Storage.lean ====
section
/-!
SUPPORT. Storage: what the bytes of a memory are after a write, and that every operation on a memory keeps its
canonical form.
-/

namespace Sys2Proof.Machine

/-! ### The canonical form -/

/-- A list that rises from a number rises from every lesser one. -/
theorem risingFrom_mono {α : Type} {a b : Nat} (h : a ≤ b) : ∀ {l : List (Nat × α)}, risingFrom b l = true → risingFrom a l = true
  | [], _ => rfl
  | c :: l, h' => by simp only [risingFrom, Bool.and_eq_true, decide_eq_true_eq] at *; exact ⟨by omega, h'.2⟩

/-- Writing a key above `a` into a list that rises from `a` keeps it so. -/
theorem risingFrom_put {α : Type} {a k : Nat} (x : α) (h : a < k) :
    ∀ {l : List (Nat × α)}, risingFrom a l = true → risingFrom a (put l k x) = true := by
  intro l
  induction l generalizing a with
  | nil => simp [put, risingFrom, h]
  | cons c rest ih =>
    obtain ⟨j, v⟩ := c
    intro hl
    simp only [risingFrom, Bool.and_eq_true, decide_eq_true_eq] at hl
    simp only [put]
    split
    · simp [risingFrom, *]
    · split
      · subst_vars; simp [risingFrom, *]
      · simp only [risingFrom, Bool.and_eq_true, decide_eq_true_eq]
        exact ⟨hl.1, ih (by omega) hl.2⟩

/-- Writing a key keeps a list rising. -/
theorem rising_put {α : Type} (k : Nat) (x : α) {l : List (Nat × α)} (h : rising l = true) : rising (put l k x) = true := by
  match l, h with
  | [], _ => simp [put, rising, risingFrom]
  | (j, v) :: rest, h =>
    simp only [rising] at h
    simp only [put]
    split
    · simp [rising, risingFrom, *]
    · split
      · subst_vars; simpa [rising] using h
      · simp only [rising]; exact risingFrom_put x (by omega) h

/-- Leaving entries out keeps a list rising from a number. -/
theorem risingFrom_filter {α : Type} {a : Nat} (p : Nat × α → Bool) :
    ∀ {l : List (Nat × α)}, risingFrom a l = true → risingFrom a (l.filter p) = true := by
  intro l
  induction l generalizing a with
  | nil => exact id
  | cons c rest ih =>
    intro h
    simp only [risingFrom, Bool.and_eq_true, decide_eq_true_eq] at h
    simp only [List.filter_cons]
    split
    · simp only [risingFrom, Bool.and_eq_true, decide_eq_true_eq]; exact ⟨h.1, ih h.2⟩
    · exact risingFrom_mono (by omega) (ih h.2)

/-- Leaving entries out keeps a list rising. -/
theorem rising_filter {α : Type} (p : Nat × α → Bool) {l : List (Nat × α)} (h : rising l = true) :
    rising (l.filter p) = true := by
  match l, h with
  | [], _ => rfl
  | c :: rest, h =>
    simp only [rising] at h
    simp only [List.filter_cons]
    split
    · simpa only [rising] using risingFrom_filter p h
    · have := risingFrom_filter p (risingFrom_mono (Nat.zero_le _) h)
      revert this
      cases List.filter p rest with
      | nil => intro _; rfl
      | cons d l => simp only [rising, risingFrom, Bool.and_eq_true]; exact fun h => h.2

/-- Entries of a list that has been written to are the old ones and the new one. -/
theorem mem_put {α : Type} {k : Nat} {x : α} {c : Nat × α} : ∀ {l : List (Nat × α)}, c ∈ put l k x → c = (k, x) ∨ c ∈ l := by
  intro l
  induction l with
  | nil => simp [put]
  | cons d rest ih =>
    obtain ⟨j, v⟩ := d
    simp only [put]
    split
    · simp
    · split
      · simp only [List.mem_cons]; exact fun h => h.imp id .inr
      · simp only [List.mem_cons]
        rintro (h | h)
        · exact .inr (.inl h)
        · exact (ih h).imp id .inr

/-- The canonical form as its two parts. -/
theorem Memory.wf_iff (m : Memory) : m.wf = true ↔ rising m = true ∧ ∀ c ∈ m, c.2 ≠ Memory.unlisted := by
  simp [Memory.wf]

/-- A byte written keeps the form. -/
theorem Memory.wf_write {m : Memory} (h : m.wf = true) (a : Nat) (x : Byte) : (m.write a x).wf = true := by
  rw [Memory.wf_iff] at *
  unfold Memory.write
  split
  · exact ⟨rising_filter _ h.1, fun c hc => h.2 c (List.mem_of_mem_filter hc)⟩
  · exact ⟨rising_put _ _ h.1, fun c hc => by
      rcases mem_put hc with rfl | hc
      · assumption
      · exact h.2 c hc⟩

/-- Bytes written keep the form. -/
theorem Memory.wf_writeN : ∀ (bytes : List Byte) {m : Memory} (_ : m.wf = true) (a : Nat), (m.writeN a bytes).wf = true
  | [], _, h, _ => h
  | _ :: bytes, _, h, _ => Memory.wf_writeN bytes (Memory.wf_write h _ _) _

/-- Entries left out keep the form. -/
theorem Memory.wf_filter {m : Memory} (h : m.wf = true) (p : Host.Cell → Bool) : Memory.wf (m.filter p) = true := by
  rw [Memory.wf_iff] at *
  exact ⟨rising_filter _ h.1, fun c hc => h.2 c (List.mem_of_mem_filter hc)⟩

/-- An empty memory has the form. -/
@[simp] theorem Memory.wf_nil : Memory.wf [] = true := rfl

/-- Memory after reset has the form. -/
theorem State.reset_wf : State.reset.mem.wf = true := rfl

/-! ### Reading what was written -/

/-- A byte reads as written. -/
@[simp] theorem Memory.read_write_same (m : Memory) (a : Nat) (x : Byte) : (m.write a x).read a = x := by
  unfold Memory.write Memory.read
  split <;> simp [*]

/-- Another byte reads as before. -/
theorem Memory.read_write_ne (m : Memory) {a b : Nat} (x : Byte) (h : b ≠ a) : (m.write a x).read b = m.read b := by
  unfold Memory.write Memory.read
  split
  · rw [look_drop_ne _ h]
  · rw [look_put_ne _ _ h]

/-- Every byte after a write of several. -/
theorem Memory.read_writeN (bytes : List Byte) (m : Memory) (a b : Nat) : (m.writeN a bytes).read b =
    if a ≤ b ∧ b < a + bytes.length then bytes.getD (b - a) 0 else m.read b := by
  induction bytes generalizing m a with
  | nil => simp only [Memory.writeN, List.length_nil]; rw [if_neg (by omega)]
  | cons x rest ih =>
    simp only [Memory.writeN, List.length_cons, ih]
    by_cases e : b = a
    · subst e
      rw [if_neg (by omega), if_pos (by omega)]
      simp
    · rw [Memory.read_write_ne _ _ e]
      by_cases h : a + 1 ≤ b ∧ b < a + 1 + rest.length
      · rw [if_pos h, if_pos (by omega)]
        have : b - a = (b - (a + 1)) + 1 := by omega
        rw [this]; rfl
      · rw [if_neg h, if_neg (by omega)]

/-- As many bytes as asked for. -/
@[simp] theorem Memory.length_readN (m : Memory) (n a : Nat) : (m.readN a n).length = n := by
  induction n generalizing a with
  | zero => rfl
  | succ n ih => simp [Memory.readN, ih]

/-- The bytes that are read, one by one. -/
theorem Memory.readN_eq (m : Memory) (n a : Nat) : m.readN a n = (List.range n).map fun i => m.read (a + i) := by
  induction n generalizing a with
  | zero => rfl
  | succ n ih =>
    rw [Memory.readN, ih, List.range_succ_eq_map]
    simp only [List.map_cons, List.map_map, Nat.add_zero]
    congr 1
    apply List.map_congr_left
    intro i _
    show m.read (a + 1 + i) = m.read (a + (i + 1))
    congr 1; omega

/-- As many bytes as asked for. -/
@[simp] theorem length_leBytes (n x : Nat) : (leBytes n x).length = n := by
  induction n generalizing x with
  | zero => rfl
  | succ n ih => simp [leBytes, ih]

/-- The bytes of a number give it back. -/
theorem leValue_leBytes (n x : Nat) : leValue (leBytes n x) = x % 256 ^ n := by
  induction n generalizing x with
  | zero => simp [leBytes, leValue, Nat.mod_one]
  | succ n ih =>
    simp only [leBytes, leValue, ih, BitVec.toNat_ofNat]
    have e : x % 256 ^ (n + 1) = x % 256 + 256 * (x / 256 % 256 ^ n) := by rw [pow_succ', Nat.mod_mul]
    omega

end Sys2Proof.Machine
end

