-- ==== Sys2Proof/Laws/Frame.lean ====
section
/-!
SUPPORT. What the shared operations leave alone: storage, and the registers of threads that they do not act for.
-/

namespace Sys2Proof.Machine

/-! ### Storage -/

/-- Nothing changes storage without changing the state. -/
theorem SameStorage.refl (s : State) : SameStorage s s := ⟨rfl, rfl, fun _ => ⟨rfl, rfl⟩⟩

/-- Storage that is the same twice is the same. -/
theorem SameStorage.trans {s t u : State} (h : SameStorage s t) (g : SameStorage t u) : SameStorage s u :=
  ⟨g.global.trans h.global, g.tags.trans h.tags,
    fun c => ⟨(g.locals c).1.trans (h.locals c).1, (g.locals c).2.trans (h.locals c).2⟩⟩

/-- A package changed. -/
theorem SameStorage.setPkg (s : State) (p : Nat) (x : Package) : SameStorage s (s.setPkg p x) :=
  ⟨rfl, rfl, fun _ => ⟨rfl, rfl⟩⟩

/-- A package changed. -/
theorem SameStorage.updPkg (s : State) (p : Nat) (f : Package → Package) : SameStorage s (s.updPkg p f) :=
  SameStorage.setPkg s p _

/-- A core changed but for its local memory. -/
theorem SameStorage.setCore (s : State) (c : Nat) (x : Core) (h : x.loc = (s.core c).loc) (h' : x.ltags = (s.core c).ltags) :
    SameStorage s (s.setCore c x) := by
  refine ⟨rfl, rfl, fun d => ?_⟩
  by_cases e : d = c
  · subst e; simp [h, h']
  · simp [State.core_setCore_ne s x e]

/-- A core changed but for its local memory. -/
theorem SameStorage.updCore (s : State) (c : Nat) (f : Core → Core) (h : (f (s.core c)).loc = (s.core c).loc)
    (h' : (f (s.core c)).ltags = (s.core c).ltags) : SameStorage s (s.updCore c f) := SameStorage.setCore s c _ h h'

/-- A slot changed. -/
theorem SameStorage.setSlot (s : State) (c : Nat) (n : Fin 8) (x : Slot) : SameStorage s (s.setSlot c n x) :=
  SameStorage.updCore s c _ rfl rfl

/-- A slot changed. -/
theorem SameStorage.updSlot (s : State) (c : Nat) (n : Fin 8) (f : Slot → Slot) : SameStorage s (s.updSlot c n f) :=
  SameStorage.setSlot s c n _

/-- The issuing thread's slot changed. -/
theorem SameStorage.updMe (s : State) (f : Slot → Slot) : SameStorage s (s.updMe f) := SameStorage.updSlot s _ _ f

/-- The issuing thread's registers changed. -/
theorem SameStorage.setRegs (s : State) (r : Regs) : SameStorage s (s.setRegs r) := SameStorage.updMe s _

/-- A state that differs in other parts only. -/
theorem SameStorage.of_cores {s t : State} (h : t.cores = s.cores) (h1 : t.mem = s.mem) (h2 : t.mtags = s.mtags) :
    SameStorage s t := ⟨h1, h2, fun c => by simp [State.core, h]⟩

/-- Each step of a fold leaves storage, so the fold does. -/
theorem SameStorage.foldl {α : Type} (f : State → α → State) (h : ∀ s a, SameStorage s (f s a)) (l : List α) (s : State) :
    SameStorage s (l.foldl f s) := by
  induction l generalizing s with
  | nil => exact .refl s
  | cons a l ih => exact (h s a).trans (ih _)

/-- A scribe entry appended. -/
theorem SameStorage.scribeAppend (s : State) (c q kind : Nat) (pay : Entry) (ent : Word) (pair : Bool) :
    SameStorage s (s.scribeAppend c q kind pay ent pair).1 := by
  unfold State.scribeAppend
  dsimp only
  split
  · exact .refl s
  · split <;> exact .setPkg s _ _

/-- An entry appended to a queue. -/
theorem SameStorage.pushQueue (s : State) (c q kind : Nat) (e : Entry) (resv pair : Bool) :
    SameStorage s (s.pushQueue c q kind e resv pair) := by
  have : SameStorage s (if q = 7 then (s, none) else s.scribeAppend c q kind e 0 pair).1 := by
    split
    · exact .refl s
    · exact .scribeAppend s _ _ _ _ _ _
  refine this.trans ?_
  unfold State.pushQueue
  exact .updCore _ _ _ rfl rfl

/-- Reservations given back. -/
theorem SameStorage.unreserve (s : State) (c q n : Nat) : SameStorage s (s.unreserve c q n) := by
  unfold State.unreserve
  split
  · exact .refl s
  · exact .updCore _ _ _ rfl rfl

/-- A full `qdn` buffer pushed. -/
theorem SameStorage.pushDown (s : State) : SameStorage s s.pushDown := by
  unfold State.pushDown
  dsimp only
  repeat' split
  all_goals first
    | exact .refl s
    | exact .updMe s _
    | exact ((SameStorage.updMe s _).trans (.unreserve _ _ _ _)).trans (.updCore _ _ _ rfl rfl)
    | exact (SameStorage.updMe s _).trans (.pushQueue _ _ _ _ _ _ _)

/-- A completed instruction. -/
theorem SameStorage.completed (s : State) (srcs dsts : List (BitVec 5)) (r : Regs) :
    SameStorage s (s.completed srcs dsts r) := by
  unfold State.completed
  split
  · exact (SameStorage.setRegs s _).trans (.pushDown _)
  · exact .setRegs s _

/-- A fault peg in its queue or in its slot. -/
theorem SameStorage.deliverPeg (s : State) (c : Nat) (n : Fin 8) (p : FaultPeg) : SameStorage s (s.deliverPeg c n p) := by
  unfold State.deliverPeg
  dsimp only
  split
  · exact .updSlot s _ _ _
  · refine SameStorage.trans (t := s.setCore c _) (.setCore s _ _ ?_ ?_) (.updSlot _ _ _ _) <;> rfl

/-- A fault peg on its first way. -/
theorem SameStorage.routePeg (s : State) (c : Nat) (n : Fin 8) (p : FaultPeg) : SameStorage s (s.routePeg c n p) := by
  unfold State.routePeg
  dsimp only
  split
  · exact .updSlot s _ _ _
  · exact .deliverPeg s _ _ _

/-- A fault taken. -/
theorem SameStorage.trap (s : State) (c : Nat) (n : Fin 8) (f : FaultInfo) : SameStorage s (s.trap c n f) := by
  unfold State.trap
  dsimp only
  split
  · exact .updSlot s _ _ _
  · exact (SameStorage.setSlot s _ _ _).trans (.routePeg _ _ _ _)

/-- A fault of the issuing thread taken. -/
theorem SameStorage.trapMe (s : State) (f : FaultInfo) : SameStorage s (s.trapMe f) := .trap s _ _ f

/-! ### The issuing thread and the others -/

/-- The slots other than the issuing thread's keep their registers, and the issuing thread is the same. -/
structure OwnRegs (s t : State) : Prop where
  core   : t.curCore = s.curCore
  slot   : t.curSlot = s.curSlot
  others : ∀ c n, ¬(c = s.curCore ∧ n = s.curSlot) → (t.slot c n).regs = (s.slot c n).regs

/-- A state keeps its own registers. -/
theorem OwnRegs.refl (s : State) : OwnRegs s s := ⟨rfl, rfl, fun _ _ _ => rfl⟩

/-- Registers kept twice are kept. -/
theorem OwnRegs.trans {s t u : State} (h : OwnRegs s t) (g : OwnRegs t u) : OwnRegs s u :=
  ⟨g.core.trans h.core, g.slot.trans h.slot, fun c n e =>
    (g.others c n (by rw [h.core, h.slot]; exact e)).trans (h.others c n e)⟩

/-- A package changed. -/
theorem OwnRegs.setPkg (s : State) (p : Nat) (x : Package) : OwnRegs s (s.setPkg p x) := ⟨rfl, rfl, fun _ _ _ => rfl⟩

/-- A core changed whose slots keep their registers. -/
theorem OwnRegs.setCore (s : State) (c : Nat) (x : Core) (h : ∀ n, (x.slot n).regs = ((s.core c).slot n).regs) :
    OwnRegs s (s.setCore c x) := by
  refine ⟨rfl, rfl, fun d n _ => ?_⟩
  by_cases e : d = c
  · subst e; simp [State.slot, h]
  · simp [State.slot, State.core_setCore_ne s x e]

/-- The issuing thread's slot changed. -/
theorem OwnRegs.updMe (s : State) (f : Slot → Slot) : OwnRegs s (s.updMe f) := by
  refine ⟨rfl, rfl, fun c n e => ?_⟩
  rw [State.updMe_eq, State.slot_setSlot_ne _ _ e]

/-- The issuing thread's registers changed. -/
theorem OwnRegs.setRegs (s : State) (r : Regs) : OwnRegs s (s.setRegs r) := .updMe s _

/-- A scribe entry appended. -/
theorem OwnRegs.scribeAppend (s : State) (c q kind : Nat) (pay : Entry) (ent : Word) (pair : Bool) :
    OwnRegs s (s.scribeAppend c q kind pay ent pair).1 := by
  unfold State.scribeAppend
  dsimp only
  split
  · exact .refl s
  · split <;> exact .setPkg s _ _

/-- An entry appended to a queue. -/
theorem OwnRegs.pushQueue (s : State) (c q kind : Nat) (e : Entry) (resv pair : Bool) :
    OwnRegs s (s.pushQueue c q kind e resv pair) := by
  have : OwnRegs s (if q = 7 then (s, none) else s.scribeAppend c q kind e 0 pair).1 := by
    split
    · exact .refl s
    · exact .scribeAppend s _ _ _ _ _ _
  refine this.trans ?_
  unfold State.pushQueue
  exact .setCore _ _ _ fun _ => rfl

/-- Reservations given back. -/
theorem OwnRegs.unreserve (s : State) (c q n : Nat) : OwnRegs s (s.unreserve c q n) := by
  unfold State.unreserve
  split
  · exact .refl s
  · exact .setCore _ _ _ fun _ => rfl

/-- A full `qdn` buffer pushed. -/
theorem OwnRegs.pushDown (s : State) : OwnRegs s s.pushDown := by
  unfold State.pushDown
  dsimp only
  repeat' split
  all_goals first
    | exact .refl s
    | exact .updMe s _
    | exact ((OwnRegs.updMe s _).trans (.unreserve _ _ _ _)).trans (.setCore _ _ _ fun _ => rfl)
    | exact (OwnRegs.updMe s _).trans (.pushQueue _ _ _ _ _ _ _)

/-- A completed instruction. -/
theorem OwnRegs.completed (s : State) (srcs dsts : List (BitVec 5)) (r : Regs) : OwnRegs s (s.completed srcs dsts r) := by
  unfold State.completed
  split
  · exact (OwnRegs.setRegs s _).trans (.pushDown _)
  · exact .setRegs s _

end Sys2Proof.Machine
end

