-- ==== Sys2Proof/Laws/Access.lean ====
section
/-!
SUPPORT. What an admitted access does, once for every instruction: its checks pass, a read answers the bytes of its place,
and a write leaves exactly its bytes changed.
-/

namespace Sys2Proof

/-- A capability's base has 52 bits. -/
theorem Cap.base_lt (c : Cap) : c.base < 2 ^ 52 := BitVec.isLt _

/-- A capability's length has 50 bits. -/
theorem Cap.len_lt (c : Cap) : c.len < 2 ^ 50 := BitVec.isLt _

/-- An admitted offset does not wrap. -/
theorem Cap.at_of_bounds (c : Cap) {off : Int} {z : Nat} (h0 : 0 ≤ off) (h1 : off + z ≤ c.len) :
    (((c.base : Int) + off) % 2 ^ 64).toNat = c.base + off.toNat := by
  have := c.base_lt
  have := c.len_lt
  omega

end Sys2Proof

namespace Sys2Proof.Machine

/-! ### Checks that pass -/

/-- A thread outside every world has no rival view. -/
theorem Slot.no_rival {t : Slot} (h : t.inWorld = false) : ∀ v ∈ t.views, v.rival = false := by
  simpa [Slot.inWorld] using h

/-- Nor an innermost one. -/
theorem Slot.rivalView_none {t : Slot} (h : t.inWorld = false) : t.rivalView = none := by
  simpa [Slot.rivalView] using t.no_rival h

/-- A search for a rival view that something else holds of finds none. -/
theorem Slot.find_rival {t : Slot} (h : t.inWorld = false) (f : View → Bool) :
    t.views.find? (fun v => v.rival && f v) = none := by
  simpa using fun v hv hr => absurd hr (by simp [t.no_rival h v hv])

/-- The checks of R157 pass for an admitted access to LOCAL space. -/
theorem State.LocalAt.checked {s : State} {c : Cap} {off : Int} {z align a : Nat} {need : BitVec 7} {spaces : List Nat}
    {k : AccKind} (h : s.LocalAt c off z align need a) (hs : spaces.contains 0 = true) :
    s.checked c off z align spaces need k = .ok ⟨0, s.home, a, c.base + off.toNat, c.dom⟩ := by
  have e := c.at_of_bounds h.low h.high
  have hb : ¬(off < 0 ∨ (c.len : Int) < off + z) := by have := h.low; have := h.high; omega
  have hp : s.inPartition s.me.home s.me.tenant ((c.base + off.toNat) % 65536) z = true := by
    simpa [h.address, h.owner, State.home] using h.owned
  simp only [List.contains_eq_mem, decide_eq_true_eq] at hs
  simp only [State.checked, State.target, State.targetFor, e]
  simp [h.tagged, h.owner, h.space, h.perms, hb, spWINDOW, spLOCAL, checkAlign, h.aligned, State.viewCheck, Slot.viewAllows,
    Slot.rivalView_none h.outside, h.address, hs, hp, State.home]

/-- The checks of R157 pass for an admitted access to GLOBAL space. -/
theorem State.GlobalAt.checked {s : State} {c : Cap} {off : Int} {z align a : Nat} {need : BitVec 7} {spaces : List Nat}
    {k : AccKind} (h : s.GlobalAt c off z align need a) (hs : spaces.contains 2 = true) :
    s.checked c off z align spaces need k = .ok ⟨2, s.home, a, a, c.dom⟩ := by
  have e := c.at_of_bounds h.low h.high
  have hb : ¬(off < 0 ∨ (c.len : Int) < off + z) := by have := h.low; have := h.high; omega
  simp only [State.checked, State.target, State.targetFor, e, ← h.address]
  have ha := h.aligned
  rw [← h.address] at ha
  simp only [List.contains_eq_mem, decide_eq_true_eq] at hs
  simp [h.tagged, h.owner, h.space, h.perms, hb, spWINDOW, spLOCAL, checkAlign, ha, State.viewCheck, Slot.viewAllows,
    h.noView, hs, State.home]

/-! ### Reads -/

/-- An admitted read of LOCAL space answers the bytes of the core's local memory and changes nothing. -/
theorem State.LocalAt.readAt {s : State} {c : Cap} {off : Int} {z align a va dom : Nat} {need : BitVec 7}
    (h : s.LocalAt c off z align need a) (plain : Bool) (need' : BitVec 7) :
    s.readAt ⟨0, s.home, a, va, dom⟩ z plain need' = .ok ((s.core s.home).loc.readN a z, s) := by
  have hc : s.checkWords s.home (granules a z) = .ok () := by
    have hf : (granules a z).find? (fun g => (s.core s.home).lpoison.contains g) = none := by
      simpa using h.clean
    simp only [State.checkWords, h.alive, h.present, Core.poisonFault, hf, Bool.or_self, Option.map_none]
    rfl
  have hk : s.keptWords s.me a z = granules a z := by
    have : s.me.views.any (·.rival) = false := h.outside
    simp [State.keptWords, this]
  simp [State.readAt, State.checkLocal, State.checkWindow, spLOCAL, spWINDOW, hk, hc, Slot.find_rival h.outside, State.localByte,
    Memory.readN_eq]

/-! ### Writes -/

/-- A keyed list mapped by key reads as mapped. -/
theorem look_map {α : Type} (l : List (Nat × α)) (f : Nat → α → α) (a : Nat) :
    look (l.map fun k => (k.1, f k.1 k.2)) a = (look l a).map (f a) := by
  induction l with
  | nil => rfl
  | cons k l ih =>
    by_cases e : k.1 = a
    · simp [look, e]
    · simp [look, e, ih]

/-- Holds broken change the copies of a core and nothing else of it. -/
theorem State.core_breakHolds (s : State) (x : Target) (n : Nat) (own : Option (Nat × BitVec 16)) (c : Nat) :
    ∃ cs, (s.breakHolds x n own).core c = { s.core c with copies := cs } := by
  unfold State.breakHolds
  dsimp only
  split
  · exact ⟨(s.core c).copies, rfl⟩
  · simp only [State.core]
    rw [look_map s.cores (fun c k => { k with
      copies := k.copies.map (fun cp => if own = some (c, cp.id) then cp else cp.breakHolds c x n) }) c]
    cases h : look s.cores c
    · exact ⟨_, rfl⟩
    · exact ⟨_, rfl⟩

/-- Holds broken leave everything outside the cores. -/
theorem State.breakHolds_rest (s : State) (x : Target) (n : Nat) (own : Option (Nat × BitVec 16)) :
    s.breakHolds x n own = { s with cores := (s.breakHolds x n own).cores } := by
  unfold State.breakHolds
  dsimp only
  split <;> rfl

/-- Holds broken leave storage. -/
theorem SameStorage.breakHolds (s : State) (x : Target) (n : Nat) (own : Option (Nat × BitVec 16)) :
    SameStorage s (s.breakHolds x n own) := by
  refine ⟨by rw [s.breakHolds_rest], by rw [s.breakHolds_rest], fun c => ?_⟩
  obtain ⟨cs, h⟩ := s.core_breakHolds x n own c
  simp [h]

/-- Holds broken leave every slot. -/
theorem State.slot_breakHolds (s : State) (x : Target) (n : Nat) (own : Option (Nat × BitVec 16)) (c : Nat) (m : Fin 8) :
    (s.breakHolds x n own).slot c m = s.slot c m := by
  obtain ⟨cs, h⟩ := s.core_breakHolds x n own c
  simp [State.slot, h, Core.slot]

/-- Holds broken leave the issuing thread. -/
theorem State.me_breakHolds (s : State) (x : Target) (n : Nat) (own : Option (Nat × BitVec 16)) :
    (s.breakHolds x n own).me = s.me := by
  have e := s.breakHolds_rest x n own
  have h1 : (s.breakHolds x n own).curCore = s.curCore := by rw [e]
  have h2 : (s.breakHolds x n own).curSlot = s.curSlot := by rw [e]
  rw [State.me, h1, h2, s.slot_breakHolds]; rfl

/-! ### Monitors (R177) -/

/-- Nothing is kept by doing nothing. -/
theorem KeepsMe.refl (s : State) : KeepsMe s s := ⟨.refl s, rfl, rfl, rfl⟩

/-- What is kept twice is kept. -/
theorem KeepsMe.trans {s t u : State} (h : KeepsMe s t) (g : KeepsMe t u) : KeepsMe s u :=
  ⟨h.storage.trans g.storage, g.core.trans h.core, g.slot.trans h.slot, g.me.trans h.me⟩

/-- A package changed. -/
theorem KeepsMe.setPkg (s : State) (p : Nat) (x : Package) : KeepsMe s (s.setPkg p x) := ⟨.setPkg s p x, rfl, rfl, rfl⟩

/-- A core replaced with the same slots leaves every slot. -/
theorem State.slot_setCore_slots (s : State) (c : Nat) (x : Core) (h : x.slots = (s.core c).slots) (d : Nat) (m : Fin 8) :
    (s.setCore c x).slot d m = s.slot d m := by
  by_cases hd : d = c
  · subst hd; simp [State.slot, Core.slot, h]
  · simp [State.slot, State.core_setCore_ne _ _ hd]

/-- A scribe's entry changes no core. -/
theorem State.cores_scribeAppend (s : State) (c q kind : Nat) (pay : Entry) (ent : Word) (pair : Bool) :
    (s.scribeAppend c q kind pay ent pair).1.cores = s.cores := by
  unfold State.scribeAppend
  dsimp only
  split
  · rfl
  · split <;> rfl

/-- An entry appended to a queue changes no slot. -/
theorem State.slot_pushQueue (s : State) (c q kind : Nat) (e : Entry) (resv pair : Bool) (d : Nat) (m : Fin 8) :
    (s.pushQueue c q kind e resv pair).slot d m = s.slot d m := by
  have hc : (if q = 7 then (s, none) else s.scribeAppend c q kind e 0 pair).1.cores = s.cores := by
    split
    · rfl
    · exact s.cores_scribeAppend ..
  unfold State.pushQueue
  simp only [State.updCore_eq]
  rw [State.slot_setCore_slots]
  · simp only [State.slot, State.core, hc]
  · rfl

/-- A core changed but for its slots leaves every slot. -/
theorem State.slot_updCore (s : State) (c : Nat) (f : Core → Core) (h : (f (s.core c)).slots = (s.core c).slots)
    (d : Nat) (m : Fin 8) : (s.updCore c f).slot d m = s.slot d m := by
  rw [State.updCore_eq, State.slot_setCore_slots _ _ _ h]

/-- Reservations given back change no slot. -/
theorem State.slot_unreserve (s : State) (c q n : Nat) (d : Nat) (m : Fin 8) :
    (s.unreserve c q n).slot d m = s.slot d m := by
  unfold State.unreserve
  split
  · rfl
  · exact s.slot_updCore _ _ (by rfl) d m

/-- A full `qdn` buffer pushed leaves every slot but the issuing thread's. -/
theorem State.slot_pushDown (s : State) {d : Nat} {m : Fin 8} (h : ¬(d = s.curCore ∧ m = s.curSlot)) :
    s.pushDown.slot d m = s.slot d m := by
  unfold State.pushDown
  dsimp only
  repeat' split
  all_goals first
    | rfl
    | rw [State.slot_updCore _ _ _ rfl, State.slot_unreserve, State.updMe_eq, State.slot_setSlot_ne _ _ h]
    | simp only [State.slot_pushQueue, State.updMe_eq, State.slot_setSlot_ne _ _ h]

/-- A full `qdn` buffer pushed leaves who issues. -/
theorem State.cur_pushDown (s : State) : s.pushDown.curCore = s.curCore ∧ s.pushDown.curSlot = s.curSlot :=
  ⟨(OwnRegs.pushDown s).core, (OwnRegs.pushDown s).slot⟩

/-- An act of another thread that leaves storage and every slot but its own keeps the issuing one. -/
theorem KeepsMe.as (s : State) {c : Nat} {n : Fin 8} {f : State → State} (h : ¬(c = s.curCore ∧ n = s.curSlot))
    (hs : ∀ t, SameStorage t (f t))
    (ho : ∀ t d m, ¬(d = t.curCore ∧ m = t.curSlot) → (f t).slot d m = t.slot d m) : KeepsMe s (s.as c n f) := by
  have g := hs { s with curCore := c, curSlot := n }
  exact ⟨⟨g.global, g.tags, g.locals⟩, rfl, rfl,
    ho { s with curCore := c, curSlot := n } s.curCore s.curSlot fun e => h ⟨e.1.symm, e.2.symm⟩⟩

/-- An acquire changes no storage. -/
theorem SameStorage.acquire (s : State) (k : BitVec 3) : SameStorage s (s.acquire k) := by
  unfold State.acquire
  split
  · exact .setPkg _ _ _
  · exact .refl s

/-- An acquire changes nothing of the issuing thread. -/
theorem KeepsMe.acquire (s : State) (k : BitVec 3) : KeepsMe s (s.acquire k) := by
  unfold State.acquire
  split
  · exact .setPkg _ _ _
  · exact .refl s

/-- An acquire changes no slot. -/
theorem State.slot_acquire (s : State) (k : BitVec 3) (d : Nat) (m : Fin 8) : (s.acquire k).slot d m = s.slot d m := by
  unfold State.acquire
  split <;> rfl

/-- Nothing outside the packages changes. -/
def OnlyPkgs (s t : State) : Prop := t = { s with pkgs := t.pkgs }

theorem OnlyPkgs.trans {s t u : State} (h : OnlyPkgs s t) (g : OnlyPkgs t u) : OnlyPkgs s u := by
  unfold OnlyPkgs at *
  rw [g]
  generalize u.pkgs = ps
  rw [h]

theorem OnlyPkgs.updPkg (s : State) (p : Nat) (f : Package → Package) : OnlyPkgs s (s.updPkg p f) := rfl

/-- Steps that change packages only, one after the other. -/
theorem OnlyPkgs.foldl {f : State → Nat → State} (h : ∀ s x, OnlyPkgs s (f s x)) (l : List Nat) :
    ∀ s : State, OnlyPkgs s (l.foldl f s) := by
  induction l with
  | nil => exact fun _ => rfl
  | cons x l ih => exact fun s => (h s x).trans (ih _)

/-- What changes packages only keeps the issuing thread and every slot. -/
theorem KeepsMe.of_pkgs {s t : State} (h : OnlyPkgs s t) : KeepsMe s t := by
  rw [h]; exact ⟨⟨rfl, rfl, fun _ => ⟨rfl, rfl⟩⟩, rfl, rfl, rfl⟩

/-- A write-back started, a line evicted, room made, a line filled and a read copy refreshed change packages only. -/
theorem OnlyPkgs.startWriteback (s : State) (l : Nat) : OnlyPkgs s (s.startWriteback l) := by
  unfold State.startWriteback
  dsimp only
  repeat' split
  all_goals rfl

theorem OnlyPkgs.evict (s : State) (l : Nat) : OnlyPkgs s (s.evict l) := by
  unfold State.evict
  dsimp only
  split
  · exact .startWriteback s l
  · rfl

theorem OnlyPkgs.l2Room (s : State) (own l : Nat) : OnlyPkgs s (s.l2Room own l) :=
  (OnlyPkgs.updPkg ..).trans (.foldl .evict _ _)

theorem OnlyPkgs.keepRoom (s : State) (own l : Nat) : OnlyPkgs s (s.keepRoom own l) := by
  unfold State.keepRoom
  repeat' split
  · rfl
  · exact .startWriteback s _
  · rfl

theorem OnlyPkgs.l2Fill (s : State) (l : Nat) : OnlyPkgs s (s.l2Fill l) := by
  unfold State.l2Fill
  dsimp only
  split
  · rfl
  · exact ((OnlyPkgs.l2Room ..).trans (.updPkg ..)).trans (.keepRoom ..)

theorem OnlyPkgs.refreshAt (s : State) (own : Nat) (stamp : Word) (l : Nat) : OnlyPkgs s (s.refreshAt own stamp l) := by
  unfold State.refreshAt
  dsimp only
  split
  · rfl
  · refine OnlyPkgs.trans (OnlyPkgs.trans ?_ (.updPkg ..)) (.keepRoom ..)
    split
    · rfl
    · exact .l2Room ..

/-- A read copy refreshed keeps the issuing thread. -/
theorem KeepsMe.refreshCopy (s : State) (own l : Nat) : KeepsMe s (s.refreshCopy own l) := .of_pkgs (.refreshAt ..)

/-- A read copy refreshed changes no slot. -/
theorem State.slot_refreshCopy (s : State) (own l : Nat) (d : Nat) (m : Fin 8) :
    (s.refreshCopy own l).slot d m = s.slot d m := by
  rw [State.refreshCopy, OnlyPkgs.refreshAt s]; rfl

/-- An act on the own slot leaves every other one. -/
theorem State.slot_updMe (u : State) (f : Slot → Slot) {d : Nat} {m : Fin 8} (e : ¬(d = u.curCore ∧ m = u.curSlot)) :
    (u.updMe f).slot d m = u.slot d m := by rw [State.updMe_eq, State.slot_setSlot_ne _ _ e]

/-- Acts on the own slot before and after a read copy's refresh, and a push, leave storage and every other slot. -/
theorem State.replyTail (u : State) (f g : Slot → Slot) (b : Bool) (own l : Nat) :
    SameStorage u ((if b then (u.updMe f).refreshCopy own l else u.updMe f).updMe g).pushDown ∧
      ∀ d m, ¬(d = u.curCore ∧ m = u.curSlot) →
        ((if b then (u.updMe f).refreshCopy own l else u.updMe f).updMe g).pushDown.slot d m = u.slot d m := by
  have k := KeepsMe.refreshCopy (u.updMe f) own l
  cases b
  · refine ⟨((SameStorage.updMe u f).trans (.updMe _ g)).trans (.pushDown _), fun d m e => ?_⟩
    simp only [Bool.false_eq_true, if_false]
    rw [State.slot_pushDown _ (by exact e), State.slot_updMe _ _ (by exact e), State.slot_updMe _ _ e]
  · refine ⟨(((SameStorage.updMe u f).trans k.storage).trans (.updMe _ g)).trans (.pushDown _), fun d m e => ?_⟩
    simp only [if_true]
    have e' : ¬(d = ((u.updMe f).refreshCopy own l).curCore ∧ m = ((u.updMe f).refreshCopy own l).curSlot) := by
      rw [k.core, k.slot]; exact e
    rw [State.slot_pushDown _ (by exact e'), State.slot_updMe _ _ e', State.slot_refreshCopy, State.slot_updMe _ _ e]

/-- A monitor's reply to another thread keeps the issuing one. -/
theorem KeepsMe.monitorReply (s : State) (m : Monitor) (x : DWord) (h : ¬(m.tcore = s.curCore ∧ m.tslot = s.curSlot)) :
    KeepsMe s (s.monitorReply m x) := by
  unfold State.monitorReply
  refine KeepsMe.as s h (fun t => ?_) (fun t d n e => ?_)
  · exact (SameStorage.acquire t _).trans (State.replyTail ..).1
  · have ka : KeepsMe t (t.acquire (waitneScope t.me.held)) := KeepsMe.acquire t _
    exact ((State.replyTail ..).2 d n (by rw [ka.core, ka.slot]; exact e)).trans (t.slot_acquire _ _ _)

/-- The replies of monitors of other threads keep the issuing one. -/
theorem KeepsMe.monitorReplies (l : List Monitor) : ∀ s : State,
    (∀ m ∈ l, ¬(m.tcore = s.curCore ∧ m.tslot = s.curSlot)) →
      KeepsMe s (l.foldl (fun s m => s.monitorReply m (s.monitored m)) s) := by
  induction l with
  | nil => exact fun s _ => .refl s
  | cons m l ih =>
    intro s hl
    rw [List.foldl_cons]
    have k := KeepsMe.monitorReply s m (s.monitored m) (hl m (List.mem_cons_self ..))
    generalize s.monitorReply m (s.monitored m) = t at *
    exact k.trans (ih t fun q hq => by rw [k.core, k.slot]; exact hl q (List.mem_cons_of_mem _ hq))

/-- Monitors replaced. -/
theorem KeepsMe.monitors (s : State) (l : List Monitor) : KeepsMe s { s with monitors := l } :=
  ⟨⟨rfl, rfl, fun _ => ⟨rfl, rfl⟩⟩, rfl, rfl, rfl⟩

/-- Monitors that fire keep a thread that watches nothing. -/
theorem KeepsMe.fireMonitors (s : State) (h : s.notWatching) : KeepsMe s s.fireMonitors := by
  unfold State.fireMonitors
  dsimp only
  split
  · exact .refl s
  · refine (KeepsMe.monitors s _).trans (KeepsMe.monitorReplies _ _ fun m hm => ?_)
    exact h m (List.mem_of_mem_filter hm)

/-! ### Writes that are admitted -/

/-- An admitted write of LOCAL space leaves its bytes in the core's local memory, the tags of its granules cleared, and
nothing else of storage or of the issuing thread changed. -/
structure WroteLocal (s t : State) (core a : Nat) (bytes : List Byte) : Prop where
  loc    : (t.core core).loc = (s.core core).loc.writeN a bytes
  ltags  : (t.core core).ltags = (s.core core).ltags.clear (granules a bytes.length)
  others : ∀ c, c ≠ core → (t.core c).loc = (s.core c).loc ∧ (t.core c).ltags = (s.core c).ltags
  global : t.mem = s.mem ∧ t.mtags = s.mtags
  core   : t.curCore = s.curCore
  slot   : t.curSlot = s.curSlot
  me     : t.me = s.me

/-- What is kept after a write leaves the write. -/
theorem WroteLocal.keeps {s t u : State} {core a : Nat} {bytes : List Byte} (h : WroteLocal s t core a bytes)
    (k : KeepsMe t u) : WroteLocal s u core a bytes :=
  ⟨(k.storage.locals _).1.trans h.loc, (k.storage.locals _).2.trans h.ltags,
    fun c e => ⟨(k.storage.locals c).1.trans (h.others c e).1, (k.storage.locals c).2.trans (h.others c e).2⟩,
    ⟨k.storage.global.trans h.global.1, k.storage.tags.trans h.global.2⟩, k.core.trans h.core, k.slot.trans h.slot,
    k.me.trans h.me⟩

/-- A core's local memory written. -/
theorem State.putLocal_wrote (s : State) (c a : Nat) (bytes : List Byte) (own : Option (Nat × BitVec 16)) :
    WroteLocal s (s.putLocal c a bytes own) c a bytes ∧ (s.putLocal c a bytes own).monitors = s.monitors := by
  unfold State.putLocal
  dsimp only
  generalize hu : s.updCore c _ = u
  have hs : ∀ d m, u.slot d m = s.slot d m := fun d m => by

    rw [← hu, State.updCore_eq, State.slot_setCore_slots]; rfl
  have k : KeepsMe u (u.breakHolds ⟨spLOCAL, c, a, a, 0⟩ bytes.length own) :=
    ⟨.breakHolds .., by rw [u.breakHolds_rest], by rw [u.breakHolds_rest], u.me_breakHolds ..⟩
  refine ⟨WroteLocal.keeps (t := u) ⟨?_, ?_, fun d e => ?_, ?_, ?_, ?_, ?_⟩ k, ?_⟩
  · rw [← hu]; simp [State.updCore_eq]
  · rw [← hu]; simp [State.updCore_eq]
  · rw [← hu]; simp [State.updCore_eq, State.core_setCore_ne _ _ e]
  · rw [← hu]; exact ⟨rfl, rfl⟩
  · rw [← hu]; rfl
  · rw [← hu]; rfl
  · rw [State.me, hs, ← hu]; rfl
  · rw [u.breakHolds_rest, ← hu]; rfl

/-- An admitted write of LOCAL space before monitors look at it. -/
theorem State.LocalAt.placeAt {s : State} {c : Cap} {off : Int} {z align a va dom : Nat} {need : BitVec 7}
    (h : s.LocalAt c off z align need a) (need' : BitVec 7) (bytes : List Byte) :
    s.placeAt ⟨0, s.home, a, va, dom⟩ bytes need' = .ok (s.putLocal s.home a bytes none) := by
  have hc : s.checkWords s.home [] = .ok () := by
    simp only [State.checkWords, h.alive, h.present, Core.poisonFault, List.find?_nil, Bool.or_self, Option.map_none]
    rfl
  simp [State.placeAt, State.checkLocal, State.checkWindow, spLOCAL, spWINDOW, hc, h.outside]

/-- An admitted write of LOCAL space by a thread that watches nothing. -/
theorem State.LocalAt.writeAt {s : State} {c : Cap} {off : Int} {z align a va dom : Nat} {need : BitVec 7}
    (h : s.LocalAt c off z align need a) (need' : BitVec 7) (bytes : List Byte) (hw : s.notWatching) :
    ∃ t, s.writeAt ⟨0, s.home, a, va, dom⟩ bytes need' = .ok t ∧ WroteLocal s t s.home a bytes := by
  obtain ⟨w, hm⟩ := s.putLocal_wrote s.home a bytes none
  refine ⟨_, by rw [State.writeAt, h.placeAt]; rfl, w.keeps (.fireMonitors _ ?_)⟩
  intro m hm'
  rw [w.core, w.slot]
  exact hw m (hm ▸ hm')

/-! ### GLOBAL accesses that are admitted -/

/-- A core changed in its lookaside buffer alone keeps the issuing thread. -/
theorem KeepsMe.plb (s : State) (c : Nat) (f : List PlbEntry → List PlbEntry) :
    KeepsMe s (s.updCore c fun k => { k with plb := f k.plb }) := by
  refine ⟨.updCore _ _ _ rfl rfl, rfl, rfl, ?_⟩
  rw [State.me, State.updCore_eq, State.slot_setCore_slots]
  · rfl
  · rfl

/-- The rights of an admitted access are held: its entry becomes the most recently used (R267). -/
theorem State.Granted.checkRights {s : State} {c : Cap} {z a space core va : Nat} {need : BitVec 7} {host : Bool}
    (h : s.Granted c z need a host) (hs : (space == spHOST) = host) :
    ∃ f : List PlbEntry → List PlbEntry, s.checkRights s.curCore ⟨space, core, a, va, c.dom⟩ z need =
      .ok (s.updCore s.curCore fun k => { k with plb := f k.plb }) := by
  obtain ⟨e, he, hr⟩ := h.rights
  refine ⟨fun l => e :: l.erase e, ?_⟩
  have hz := h.some
  have hl := h.region
  have e1 : (a + z - 1) / 2 ^ 21 - a / 2 ^ 21 = 0 := by omega
  have e2 : max a (a / 2 ^ 21 * 2 ^ 21) = a := by omega
  have e3 : (Core.plbFind { s.core s.curCore with plb := e :: (s.core s.curCore).plb.erase e } c.dom (a / 2 ^ 21) host) =
      .some e := by
    have := List.find?_some he
    simp only [Core.plbFind, List.find?_cons, this]
  have e4 : s.checkRegion s.curCore c.dom host need a =
      .ok (s.updCore s.curCore fun k => { k with plb := e :: k.plb.erase e }) := by
    simp only [State.checkRegion, State.plbTouch, he, State.updCore_eq, State.core_setCore, e3, hr, if_true]
  simp only [State.checkRights, e1, Nat.zero_add, List.range_one, List.foldlM_cons, List.foldlM_nil, Nat.add_zero, e2]
  rw [hs, e4]
  rfl

/-- The one line of an admitted GLOBAL access. -/
theorem State.LineServes.lines {s : State} {z a : Nat} (h : s.LineServes z a) (hz : 0 < z) : linesOf a z = [a / 128] := by
  have hl := h.oneLine
  have e : (a + z - 1) / 128 - a / 128 = 0 := by omega
  have : z ≠ 0 := by omega
  simp [linesOf, this, e]

/-- The home of the line of an admitted GLOBAL access is the thread's own package. -/
theorem State.LineServes.home {s : State} {z a : Nat} (h : s.LineServes z a) : homePkg (a / 128 * 128) = pkgOf s.curCore := by
  have := h.ours
  unfold homePkg at *
  omega

/-- The line of an admitted GLOBAL access is reached, in any state with the same packages. -/
theorem State.LineServes.reachAll {s t : State} {z a : Nat} (h : s.LineServes z a) (hz : 0 < z) (hp : t.pkgs = s.pkgs)
    (hk : ∀ p, t.pkg p = s.pkg p) (hq : t.podSize = s.podSize) :
    t.reachAll (pkgOf s.curCore) s.curCore a (linesOf a z) = .ok t := by
  have e2 : max a (a / 128 * 128) = a := by omega
  have hsv : t.lineServed (pkgOf s.curCore) s.curCore a = true := by
    have hs : ∀ ch l, t.serves ch l = s.serves ch l := fun ch l => by cases l <;> simp [State.serves, hk]
    have hl : ∀ ch, t.lineLinks (pkgOf s.curCore) s.curCore a ch = s.lineLinks (pkgOf s.curCore) s.curCore a ch :=
      fun ch => by simp only [State.lineLinks, State.stackLinks, State.moduleLink, State.sliceAt, hk]
    have := h.served
    simpa only [State.lineServed, hl, funext (hs _)] using this
  have hlk : t.locked (lineOf a) = false := by
    have := h.free
    simpa only [State.locked, hp] using this
  have h1 := h.inPod
  have h2 := h.alive
  have h3 := h.whole
  have h4 := h.held
  have h6 := h.steady
  have h5 : ¬(s.podSize ≤ homePkg a) := by omega
  have e3 : pkgOf s.curCore = homePkg a := h.ours.symm
  rw [e3] at hsv ⊢
  simp only [h.lines hz, State.reachAll, e2, State.reachLine, hq, hk, hlk, h3, h4, h5, h6, if_false, State.routed,
    Package.routed, Package.sliceFenced, h2, hsv]
  simp

/-- The line of an admitted GLOBAL access is not poisoned, nor is the version that a chain of views reads of it. -/
theorem State.LineServes.poisonAll {s t : State} {z a : Nat} (h : s.LineServes z a) (hz : 0 < z)
    (hp : ∀ p, (t.pkg p).poison = (s.pkg p).poison) {own : Nat} {chain : List Nat}
    (hv : (t.pkg own).versionPoisoned chain (lineOf a) = false) : t.poisonAll own chain (linesOf a z) = .ok () := by
  have e1 : homePkg (a / 128 * 128) = homePkg a := by unfold homePkg; omega
  have e2 : lineOf (a / 128 * 128) = lineOf a := by unfold lineOf; omega
  have h1 := h.clean
  simp only [h.lines hz, State.poisonAll, State.checkPoison, e1, e2, hp, h1, hv]
  rfl

/-- A line of the own package has no read copy to refresh. -/
theorem State.refreshCopy_own (s : State) {own line : Nat} (h : homePkg (line * 128) = own) :
    s.refreshCopy own line = s := by simp [State.refreshCopy, State.refreshAt, h]

/-- A thread outside every view has no version to use. -/
theorem State.touchViews_nil (s : State) (own : Nat) (lines : List Nat) : s.touchViews own [] lines = s := rfl

/-- No proxy answers for a line of the own package. -/
theorem State.answering_own (s : State) {a : Nat} (h : homePkg (a / 128 * 128) = pkgOf s.curCore) (b : Bool) :
    s.answering b (lineOf a) = none := by
  have : lineOf a = a / 128 := rfl
  simp [State.answering, State.validCopy, this, h]

/-- An admitted write of GLOBAL space leaves its bytes in memory, the tags of its granules cleared, and no local memory and
nothing of the issuing thread changed. -/
structure WroteGlobal (s t : State) (a : Nat) (bytes : List Byte) : Prop where
  mem    : t.mem = s.mem.writeN a bytes
  mtags  : t.mtags = s.mtags.clear (granules a bytes.length)
  locals : ∀ c, (t.core c).loc = (s.core c).loc ∧ (t.core c).ltags = (s.core c).ltags
  core   : t.curCore = s.curCore
  slot   : t.curSlot = s.curSlot
  me     : t.me = s.me

/-- What is kept after a write leaves the write. -/
theorem WroteGlobal.keeps {s t u : State} {a : Nat} {bytes : List Byte} (h : WroteGlobal s t a bytes) (k : KeepsMe t u) :
    WroteGlobal s u a bytes :=
  ⟨k.storage.global.trans h.mem, k.storage.tags.trans h.mtags,
    fun c => ⟨(k.storage.locals c).1.trans (h.locals c).1, (k.storage.locals c).2.trans (h.locals c).2⟩,
    k.core.trans h.core, k.slot.trans h.slot, k.me.trans h.me⟩

/-- What was kept before a write. -/
theorem WroteGlobal.after {s t u : State} {a : Nat} {bytes : List Byte} (k : KeepsMe s t) (h : WroteGlobal t u a bytes) :
    WroteGlobal s u a bytes :=
  ⟨by rw [h.mem, k.storage.global], by rw [h.mtags, k.storage.tags],
    fun c => ⟨(h.locals c).1.trans (k.storage.locals c).1, (h.locals c).2.trans (k.storage.locals c).2⟩,
    h.core.trans k.core, h.slot.trans k.slot, h.me.trans k.me⟩

/-- GLOBAL memory written. -/
theorem State.putGlobal_wrote (s : State) (a : Nat) (bytes : List Byte) (own : Option (Nat × BitVec 16)) :
    WroteGlobal s (s.putGlobal a bytes own) a bytes ∧ (s.putGlobal a bytes own).monitors = s.monitors := by
  unfold State.putGlobal
  dsimp only
  have k := OnlyPkgs.foldl (f := fun s l => (s.l2Fill l).updPkg (homePkg (l * 128)) fun p =>
    if p.dirty.any (·.line == l) then p
    else { p with dirty := ⟨l, s.lineBytes l, s.mtags.filter (· / 8 == l)⟩ :: p.dirty })
    (fun s l => (OnlyPkgs.l2Fill s l).trans (.updPkg ..)) (linesOf a bytes.length) s
  generalize List.foldl _ s (linesOf a bytes.length) = u at *
  generalize hv : ({ u with mem := u.mem.writeN a bytes, mtags := u.mtags.clear (granules a bytes.length) } : State) = v
  have kw := OnlyPkgs.foldl (f := fun s l => s.keepRoom (homePkg (l * 128)) l) (fun s l => .keepRoom s _ l)
    (linesOf a bytes.length) v
  generalize List.foldl _ v (linesOf a bytes.length) = w at *
  have k' : KeepsMe w (w.breakHolds ⟨spGLOBAL, 0, a, a, 0⟩ bytes.length own) :=
    ⟨.breakHolds .., by rw [w.breakHolds_rest], by rw [w.breakHolds_rest], w.me_breakHolds ..⟩
  refine ⟨WroteGlobal.keeps (t := v) (.after (.of_pkgs k) ?_) ((KeepsMe.of_pkgs kw).trans k'), ?_⟩
  · rw [← hv]; exact ⟨rfl, rfl, fun _ => ⟨rfl, rfl⟩, rfl, rfl, rfl⟩
  · rw [w.breakHolds_rest, kw, ← hv, k]

/-- The issuing thread of a state that keeps it watches nothing when it watched nothing. -/
theorem KeepsMe.notWatching {s t : State} (k : KeepsMe s t) (hm : t.monitors = s.monitors) (h : s.notWatching) :
    t.notWatching := fun m hm' => by rw [k.core, k.slot]; exact h m (hm ▸ hm')

end Sys2Proof.Machine
end

