-- ==== Sys2Proof/Laws/Places.lean ====
section
/-!
SUPPORT. What an admitted access does at each of its places (LOCAL, WINDOW, GLOBAL, HOST and CTRL space, views and window
copies): its checks pass, a read answers the bytes of the place and leaves storage, and a write leaves exactly its bytes.
-/

namespace Sys2Proof.Machine

/-! ### Checks -/

/-- The target of an admitted access. -/
def Place.target (p : Place) (s : State) (c : Cap) (off : Int) : Target :=
  let va := c.base + off.toNat
  match p with
  | .own a | .rival a => ⟨0, s.home, a, va, c.dom⟩
  | .window k a => ⟨1, k, a, va, c.dom⟩
  | .global a | .version _ a => ⟨2, s.home, a, va, c.dom⟩
  | .host a => ⟨3, s.home, a, va, c.dom⟩
  | .ctrl a => ⟨4, s.home, a, va, c.dom⟩

/-- The checks of R248 pass for a capability that admits the access. -/
theorem State.Admits.targeted {s : State} {c : Cap} {off : Int} {z align space : Nat} {need : BitVec 7} {spaces : List Nat}
    (h : s.Admits c off z align need space) (hs : space ∈ spaces) :
    let a := c.base + off.toNat
    let k := if space = 1 then a / 2 ^ 16 % 2 ^ 26 else s.home
    let addr := if space = 1 ∨ space = 0 then a % 2 ^ 16 else a
    (space = 1 → s.goodName k = true) → (space = 0 ∨ space = 1 → s.inPartition k c.dom addr z = true) →
      s.target c off z spaces need = .ok ⟨space, k, addr, a, c.dom⟩ := by
  intro a k addr hn hp
  have e : (((c.base : Int) + off) % 2 ^ 64).toNat = a := c.at_of_bounds h.low h.high
  have hb : ¬(off < 0 ∨ (c.len : Int) < off + z) := by have := h.low; have := h.high; omega
  have hd : ¬c.dom ≠ s.me.tenant := by simp [h.owner]
  have hsp : spaces.contains c.space = true := by simpa [h.space] using hs
  have ek : (if c.space = spWINDOW then a / 2 ^ 16 % 2 ^ 26 else s.me.home) = k := by simp [h.space, spWINDOW, k, State.home]
  have ea : (if (c.space = spWINDOW || c.space = spLOCAL) = true then a % 2 ^ 16 else a) = addr := by
    simp [h.space, spWINDOW, spLOCAL, addr]
  have h1 : (c.space = spWINDOW && !s.goodName (a / 2 ^ 16 % 2 ^ 26)) = false := by
    by_cases hw : space = 1
    · have := hn hw; simp only [k, hw, if_true] at this; rw [this]; simp
    · simp [h.space, spWINDOW, hw]
  have h2 : ((c.space = spLOCAL || c.space = spWINDOW) && !s.inPartition k c.dom addr z) = false := by
    by_cases hw : space = 0 ∨ space = 1
    · simp [hp hw]
    · simp only [not_or] at hw; simp [h.space, spLOCAL, spWINDOW, hw.1, hw.2]
  simp only [State.target, State.targetFor, e, h.tagged, hd, hsp, h.perms, hb, h1, ek, ea, h2]
  simp [h.space]

/-- The checks of R157 pass for an admitted access. -/
theorem State.At.checked {s : State} {c : Cap} {off : Int} {z align : Nat} {need : BitVec 7} {spaces : List Nat}
    {k : AccKind} {p : Place} (h : s.At c off z align need p) (hs : p.space ∈ spaces) (hk : p.takes k)
    (hl : need = pRD → k = .load) :
    s.checked c off z align spaces need k = .ok (p.target s c off) := by
  have go {space core addr : Nat} (g : s.Admits c off z align need space)
      (ht : s.target c off z spaces need = .ok ⟨space, core, addr, c.base + off.toNat, c.dom⟩)
      (hv : s.me.viewAllows k ⟨space, core, addr, c.base + off.toNat, c.dom⟩ z = true) :
      s.checked c off z align spaces need k = .ok ⟨space, core, addr, c.base + off.toNat, c.dom⟩ := by
    have ha := g.aligned
    simp only [State.checked, ht, State.viewCheck]
    simp only [run_ok_bind, checkAlign, ha, if_true]
    simp [hv]
  cases p with
  | own a =>
    have g : s.LocalAt c off z align need a := h
    have t := g.toAdmits.targeted (spaces := spaces) hs (by simp) (fun _ => by simpa [g.address] using g.owned)
    refine (go g.toAdmits t ?_).trans (by simp [Place.target, g.address])
    simp [Slot.viewAllows, Slot.rivalView_none g.outside, spLOCAL]
  | rival a =>
    have g : s.RivalAt c off z align need a := h
    have t := g.toAdmits.targeted (spaces := spaces) hs (by simp) (fun _ => by simpa [g.address] using g.owned)
    refine (go g.toAdmits t ?_).trans (by simp [Place.target, g.address])
    obtain ⟨v, hv, hw⟩ := g.inside
    have := g.address
    subst this
    simp [Slot.viewAllows, hv, spLOCAL]
    exact .inr hw
  | window m a =>
    have g : s.WindowAt c off z align need m a := h
    have em : (c.base + off.toNat) / 65536 % 67108864 = m := by simpa using g.named.symm
    have t := g.toAdmits.targeted (spaces := spaces) hs (by simpa [em] using g.inPod)
      (fun _ => by simpa [g.address, em] using g.owned)
    refine (go g.toAdmits t ?_).trans (by simp [Place.target, g.address, em])
    rcases g.admits with e | e <;> simp [Slot.viewAllows, e, hl]
  | global a =>
    have g : s.GlobalAt c off z align need a := h
    have t := g.toAdmits.targeted (spaces := spaces) hs (by simp) (by simp)
    refine (go g.toAdmits t ?_).trans (by simp [Place.target, g.address])
    simp [Slot.viewAllows, g.noView]
  | version v a =>
    have g : s.VersionAt c off z align need v a := h
    have t := g.toAdmits.targeted (spaces := spaces) hs (by simp) (by simp)
    refine (go g.toAdmits t ?_).trans (by simp [Place.target, g.address])
    have : k ≠ .atomic := hk
    cases k <;> simp_all [Slot.viewAllows, spLOCAL, spGLOBAL]
  | host a =>
    have g : s.HostAt c off z align need a := h
    have t := g.toAdmits.targeted (spaces := spaces) hs (by simp) (by simp)
    refine (go g.toAdmits t ?_).trans (by simp [Place.target, g.address])
    rcases g.admits with e | e <;> simp [Slot.viewAllows, e, hl]
  | ctrl a =>
    have g : s.CtrlAt c off z align need a := h
    have t := g.toAdmits.targeted (spaces := spaces) hs (by simp) (by simp)
    refine (go g.toAdmits t ?_).trans (by simp [Place.target, g.address])
    rcases g.admits with e | e <;> simp [Slot.viewAllows, e, hl]

/-! ### Reads -/

/-- Words of a local memory that serve and of which none is poisoned pass their check. -/
theorem State.LocalServes.checkWords {s : State} {core : Nat} {words : List Nat} (h : s.LocalServes core)
    (hc : ∀ g ∈ words, (s.core core).lpoison.contains g = false) : s.checkWords core words = .ok () := by
  have hf : words.find? (fun g => (s.core core).lpoison.contains g) = none := by simpa using hc
  simp only [State.checkWords, h.alive, h.present, Core.poisonFault, hf, Bool.or_self, Option.map_none]
  rfl

/-- The way to another core's local memory is open. -/
theorem State.WindowAt.checkWindow {s : State} {c : Cap} {off : Int} {z align core a va : Nat} {need : BitVec 7}
    (h : s.WindowAt c off z align need core a) : s.checkWindow s.curCore ⟨1, core, a, va, c.dom⟩ = .ok () := by
  simp [State.checkWindow, spWINDOW, h.routed, h.served]

/-- A HOST access that is admitted passes its checks; a read does where the host answers it. -/
theorem State.HostAt.checkHost {s t : State} {c : Cap} {off : Int} {z align a : Nat} {need : BitVec 7}
    (h : s.HostAt c off z align need a) (hk : ∀ p, t.pkg p = s.pkg p) (ht : t.ticks = s.ticks) (x : Target) (write : Bool)
    (hr : write = false → Config.hostReply s.ticks = 0) : t.checkHost (pkgOf s.curCore) s.curCore x write = .ok () := by
  have hsv : t.pairServed s.curCore (hostAgent (pkgOf s.curCore)) = true := by
    have hs : ∀ ch l, t.serves ch l = s.serves ch l := fun ch l => by cases l <;> simp [State.serves, hk]
    have hl : ∀ ch, t.route s.curCore (hostAgent (pkgOf s.curCore)) ch = s.route s.curCore (hostAgent (pkgOf s.curCore)) ch :=
      fun ch => by simp only [State.route, State.moduleLink, hk]
    have := h.served
    simpa only [State.pairServed, State.carries, hl, funext (hs _)] using this
  have he := h.enabled
  cases write
  · simp [State.checkHost, hk, hsv, he, ht, hr rfl]
  · simp [State.checkHost, hk, hsv, he]

/-- The innermost rival view is the first one whose window holds what it holds. -/
theorem Slot.rivalView_window {t : Slot} {v : View} (h : t.rivalView = some v) {a : Nat} (hw : v.inWindow a 1 = true) :
    t.views.find? (fun v => v.rival && v.inWindow a 1) = some v := by
  unfold Slot.rivalView at h
  generalize t.views = l at h
  induction l with
  | nil => simp at h
  | cons u l ih =>
    simp only [List.find?_cons] at h ⊢
    cases hu : u.rival
    · simp only [hu] at h; simpa [hu] using ih h
    · simp only [hu, Option.some.injEq] at h; simp [h, hw]

/-- What is in a window holds each of its bytes. -/
theorem View.inWindow_byte {v : View} {a z i : Nat} (h : v.inWindow a z = true) (hi : i < z) :
    v.inWindow (a + i) 1 = true := by
  simp only [View.inWindow, Bool.and_eq_true, decide_eq_true_eq] at *
  omega

/-- A read through views changes storage nowhere. -/
theorem OnlyPkgs.touchViews (s : State) (own : Nat) (chain lines : List Nat) : OnlyPkgs s (s.touchViews own chain lines) := by
  unfold State.touchViews
  split <;> rfl

/-- An aligned part of a CTRL word pair, byte by byte. -/
theorem leBytes_byte (n x : Nat) : leBytes n x = (List.range n).map fun i => BitVec.ofNat 8 (x / 256 ^ i) := by
  induction n generalizing x with
  | zero => rfl
  | succ n ih =>
    rw [leBytes, ih, List.range_succ_eq_map]
    simp only [List.map_cons, List.map_map, pow_zero, Nat.div_one]
    congr 1
    apply List.map_congr_left
    intro i _
    simp only [Function.comp, Nat.succ_eq_add_one, pow_succ', Nat.div_div_eq_div_mul]

/-- A read at a place that admits it answers the bytes of the place; storage and the issuing thread stay. -/
theorem State.At.readAt {s : State} {c : Cap} {off : Int} {z align : Nat} {need : BitVec 7} {p : Place}
    (h : s.At c off z align need p) (ha : s.answersAt p) (plain : Bool) (hz : (p.space = 4 → align = z)) :
    ∃ t, s.readAt (p.target s c off) z plain need = .ok (s.placeBytes z p, t) ∧ KeepsMe s t := by
  cases p with
  | own a =>
    have g : s.LocalAt c off z align need a := h
    refine ⟨s, ?_, .refl s⟩
    have := g.readAt (va := c.base + off.toNat) (dom := c.dom) plain need
    simpa [Place.target, State.placeBytes, State.placeByte, Place.addr, Memory.readN_eq] using this
  | rival a =>
    have g : s.RivalAt c off z align need a := h
    obtain ⟨v, hv, hw⟩ := g.inside
    have hc := g.toLocalServes.checkWords g.clean
    refine ⟨s, ?_, .refl s⟩
    have hb : (List.range z).map (fun i => s.localByte s.me.views s.home (a + i)) = s.placeBytes z (.rival a) := by
      refine List.map_congr_left fun i hi => ?_
      simp [State.localByte, Slot.rivalView_window hv (View.inWindow_byte hw (List.mem_range.mp hi)), State.placeByte, hv,
        Place.addr]
    simp [Place.target, State.readAt, State.checkLocal, State.checkWindow, spLOCAL, spWINDOW, hc, hb]
  | window m a =>
    have g : s.WindowAt c off z align need m a := h
    refine ⟨s, ?_, .refl s⟩
    simp [Place.target, State.readAt, State.checkLocal, spLOCAL, spWINDOW, g.checkWindow, g.toLocalServes.checkWords g.clean,
      State.placeBytes, State.placeByte, Place.addr, State.localByte]
  | global a =>
    have g : s.GlobalAt c off z align need a := h
    obtain ⟨f, hf⟩ := g.toGranted.checkRights (space := 2) (core := s.home) (va := c.base + off.toNat) rfl
    generalize hu : (s.updCore s.curCore fun k => { k with plb := f k.plb }) = u at *
    have k : KeepsMe s u := hu ▸ KeepsMe.plb s _ f
    have hk : ∀ p, u.pkg p = s.pkg p := fun p => hu ▸ rfl
    have e1 := g.toLineServes.home
    have hr := g.toLineServes.reachAll g.some (t := u) (hu ▸ rfl) hk (hu ▸ rfl)
    have hq := g.toLineServes.poisonAll g.some (t := u) (own := pkgOf s.curCore) (chain := []) (fun p => by rw [hk]) rfl
    have han : ∀ b, u.answering b (lineOf a) = none := u.answering_own (by rw [k.core]; exact e1)
    have e2 : u.refreshCopy (pkgOf s.curCore) (a / 128) = u := u.refreshCopy_own e1
    rw [g.toLineServes.lines g.some] at hr hq
    refine ⟨u, ?_, k⟩
    simp only [Place.target, State.readAt, spLOCAL, spWINDOW, spGLOBAL, hf, han, run_ok_bind]
    simp [k.core, hr, hq, g.toLineServes.lines g.some, e2, u.touchViews_nil, Slot.chain, g.noView, State.globalByte,
      Package.viewByte, State.placeBytes, State.placeByte, Place.addr, k.storage.global]
  | version v a =>
    have g : s.VersionAt c off z align need v a := h
    obtain ⟨f, hf⟩ := g.toGranted.checkRights (space := 2) (core := s.home) (va := c.base + off.toNat) rfl
    generalize hu : (s.updCore s.curCore fun k => { k with plb := f k.plb }) = u at *
    have k : KeepsMe s u := hu ▸ KeepsMe.plb s _ f
    have hk : ∀ p, u.pkg p = s.pkg p := fun p => hu ▸ rfl
    have e1 := g.toLineServes.home
    have hr := g.toLineServes.reachAll g.some (t := u) (hu ▸ rfl) hk (hu ▸ rfl)
    have hq := g.toLineServes.poisonAll g.some (t := u) (own := pkgOf s.curCore) (chain := s.me.chain) (fun p => by rw [hk])
      (by rw [hk]; exact g.sound)
    have han : ∀ b, u.answering b (lineOf a) = none := u.answering_own (by rw [k.core]; exact e1)
    have e2 : u.refreshCopy (pkgOf s.curCore) (a / 128) = u := u.refreshCopy_own e1
    have kt := OnlyPkgs.touchViews u (pkgOf s.curCore) s.me.chain [a / 128]
    rw [g.toLineServes.lines g.some] at hr hq
    refine ⟨u.touchViews (pkgOf s.curCore) s.me.chain [a / 128], ?_, k.trans (.of_pkgs kt)⟩
    have hb : ∀ x, (u.touchViews (pkgOf s.curCore) s.me.chain [a / 128]).globalByte (pkgOf s.curCore) s.me.chain x =
        ((s.pkg (pkgOf s.curCore)).viewByte s.me.chain x).getD (s.mem.read x) := fun x => by
      have hv : ((u.touchViews (pkgOf s.curCore) s.me.chain [a / 128]).pkg (pkgOf s.curCore)).views =
          (s.pkg (pkgOf s.curCore)).views := by
        rw [← hk]
        unfold State.touchViews
        split
        · rfl
        · rw [State.updPkg, State.pkg_setPkg]
          simp only [List.foldl_cons, List.foldl_nil, Package.touchVersion]
          split <;> rfl
      have hm : (u.touchViews (pkgOf s.curCore) s.me.chain [a / 128]).mem = s.mem := by rw [kt]; exact k.storage.global
      simp only [State.globalByte, Package.viewByte, Package.view, hv, hm]
      generalize List.findSome? _ s.me.chain = o
      cases o <;> rfl
    simp only [Place.target, State.readAt, spLOCAL, spWINDOW, spGLOBAL, hf, han, run_ok_bind]
    simp [k.core, hr, hq, g.toLineServes.lines g.some, e2, State.placeBytes, State.placeByte, Place.addr, hb]
  | host a =>
    have g : s.HostAt c off z align need a := h
    obtain ⟨f, hf⟩ := g.toGranted.checkRights (space := 3) (core := s.home) (va := c.base + off.toNat) rfl
    generalize hu : (s.updCore s.curCore fun k => { k with plb := f k.plb }) = u at *
    have k : KeepsMe s u := hu ▸ KeepsMe.plb s _ f
    have hk : ∀ p, u.pkg p = s.pkg p := fun p => hu ▸ rfl
    have hh := g.checkHost (t := u) hk (hu ▸ rfl) ⟨3, s.home, a, c.base + off.toNat, c.dom⟩ false fun _ => ha
    refine ⟨u, ?_, k⟩
    simp only [Place.target, State.readAt, spLOCAL, spWINDOW, spGLOBAL, spHOST, hf, run_ok_bind]
    simp [k.core, hh, hk, State.placeBytes, State.placeByte, Place.addr, Memory.readN_eq]
  | ctrl a =>
    have g : s.CtrlAt c off z align need a := h
    refine ⟨s, ?_, .refl s⟩
    have hal : a % z = 0 := by have := g.aligned; rw [hz rfl, ← g.address] at this; exact this
    have ea : a / 4 * 4 = a := by rcases g.size with e | e <;> rw [e] at hal <;> omega
    have hw : ∀ x, (((s.pkg (pkgOf s.curCore)).tenant s.me.tenant).map (·.ctrl x)).getD 0 = s.ctrlWord x := fun _ => rfl
    simp only [Place.target, State.readAt, spLOCAL, spWINDOW, spGLOBAL, spHOST, hw, ea]
    have hb : leBytes z ((s.ctrlWord a).toNat + 2 ^ 32 * (s.ctrlWord (a + 4)).toNat) = s.placeBytes z (.ctrl a) := by
      rw [leBytes_byte]
      refine List.map_congr_left fun i hi => ?_
      have hi := List.mem_range.mp hi
      simp only [State.placeByte, Place.addr]
      apply BitVec.eq_of_toNat_eq
      simp only [BitVec.toNat_ofNat]
      rcases Nat.lt_or_ge i 4 with h4 | h4
      · have e1 : (a + i) / 4 * 4 = a := by omega
        have e2 : (a + i) % 4 = i := by omega
        rw [e1, e2]
        interval_cases i <;> omega
      · have e1 : (a + i) / 4 * 4 = a + 4 := by rcases g.size with e | e <;> omega
        have e2 : (a + i) % 4 = i - 4 := by rcases g.size with e | e <;> omega
        have hl : (s.ctrlWord a).toNat < 2 ^ 32 := (s.ctrlWord a).isLt
        rw [e1, e2]
        have : i < 8 := by rcases g.size with e | e <;> omega
        interval_cases i <;> omega
    rw [← hb]
    simp

/-! ### What packages keep -/

/-- What a package holds of views, tenants and host memory. -/
def Package.kept (p : Package) : List ViewRec × List Tenant × Memory := (p.views, p.tenants, p.host.mem)

/-- Every package keeps its views, its tenants and its host memory. -/
structure KeepsPkgs (s t : State) : Prop where
  pkg : ∀ p, (t.pkg p).kept = (s.pkg p).kept

theorem KeepsPkgs.refl (s : State) : KeepsPkgs s s := ⟨fun _ => rfl⟩

theorem KeepsPkgs.trans {s t u : State} (h : KeepsPkgs s t) (g : KeepsPkgs t u) : KeepsPkgs s u :=
  ⟨fun p => (g.pkg p).trans (h.pkg p)⟩

/-- A package replaced by one that holds the same. -/
theorem KeepsPkgs.setPkg (s : State) (q : Nat) (x : Package) (h : x.kept = (s.pkg q).kept) : KeepsPkgs s (s.setPkg q x) :=
  ⟨fun p => by
    by_cases e : p = q
    · rw [e, State.pkg_setPkg, h]
    · rw [State.pkg_setPkg_ne _ _ e]⟩

/-- A package changed in what it does not hold here. -/
theorem KeepsPkgs.updPkg (s : State) (q : Nat) (f : Package → Package) (h : ∀ x, (f x).kept = x.kept) :
    KeepsPkgs s (s.updPkg q f) := .setPkg s q _ (h _)

theorem KeepsPkgs.foldl {α : Type} {f : State → α → State} (h : ∀ s x, KeepsPkgs s (f s x)) (l : List α) :
    ∀ s, KeepsPkgs s (l.foldl f s) := by
  induction l with
  | nil => exact fun s => .refl s
  | cons x l ih => exact fun s => (h s x).trans (ih _)

/-- What is outside the packages. -/
theorem KeepsPkgs.of_eq {s t : State} (h : t.pkgs = s.pkgs) : KeepsPkgs s t := ⟨fun p => by
  simp only [State.pkg, h]
  cases look s.pkgs p <;> rfl⟩

theorem KeepsPkgs.startWriteback (s : State) (l : Nat) : KeepsPkgs s (s.startWriteback l) := by
  unfold State.startWriteback
  dsimp only
  repeat' split
  all_goals first
    | exact .refl s
    | exact .setPkg _ _ _ rfl

theorem KeepsPkgs.evict (s : State) (l : Nat) : KeepsPkgs s (s.evict l) := by
  unfold State.evict
  dsimp only
  split
  · exact .startWriteback s l
  · exact KeepsPkgs.trans (t := s.cleanLine l) (.updPkg _ _ _ fun _ => rfl) (.updPkg _ _ _ fun _ => rfl)

theorem KeepsPkgs.l2Room (s : State) (own l : Nat) : KeepsPkgs s (s.l2Room own l) := by
  unfold State.l2Room
  dsimp only
  exact KeepsPkgs.trans (.updPkg s own _ (by intro x; rfl)) (.foldl .evict _ _)

theorem KeepsPkgs.keepRoom (s : State) (own l : Nat) : KeepsPkgs s (s.keepRoom own l) := by
  unfold State.keepRoom
  split
  · exact .refl s
  · split
    · exact .startWriteback ..
    · exact .refl s

theorem KeepsPkgs.l2Fill (s : State) (l : Nat) : KeepsPkgs s (s.l2Fill l) := by
  unfold State.l2Fill
  dsimp only
  split
  · exact .refl s
  · exact (KeepsPkgs.trans (.l2Room s _ l) (.updPkg _ _ _ (by intro x; rfl))).trans (.keepRoom ..)

theorem KeepsPkgs.refreshAt (s : State) (own : Nat) (stamp : Word) (l : Nat) : KeepsPkgs s (s.refreshAt own stamp l) := by
  unfold State.refreshAt
  dsimp only
  split
  · exact .refl s
  · refine KeepsPkgs.trans (KeepsPkgs.trans ?_ (.updPkg _ _ _ (by intro x; rfl))) (.keepRoom ..)
    split
    · exact .refl s
    · exact .l2Room ..

theorem KeepsPkgs.acquire (s : State) (k : BitVec 3) : KeepsPkgs s (s.acquire k) := by
  unfold State.acquire
  split
  · exact .updPkg _ _ _ fun _ => rfl
  · exact .refl s

theorem KeepsPkgs.pushQueue (s : State) (c q kind : Nat) (e : Entry) (resv pair : Bool) :
    KeepsPkgs s (s.pushQueue c q kind e resv pair) := by
  have h : KeepsPkgs s (if q = 7 then (s, none) else s.scribeAppend c q kind e 0 pair).1 := by
    split
    · exact .refl s
    · unfold State.scribeAppend
      dsimp only
      repeat' split
      all_goals first
        | exact .refl s
        | exact .setPkg _ _ _ rfl
  unfold State.pushQueue
  exact h.trans (.of_eq rfl)

theorem KeepsPkgs.pushDown (s : State) : KeepsPkgs s s.pushDown := by
  unfold State.pushDown
  dsimp only
  repeat' split
  all_goals first
    | exact .refl s
    | exact .of_eq rfl
    | (refine KeepsPkgs.trans ?_ (.pushQueue ..); exact .of_eq rfl)

theorem KeepsPkgs.replyTail (u : State) (f g : Slot → Slot) (b : Bool) (own l : Nat) :
    KeepsPkgs u ((if b then (u.updMe f).refreshCopy own l else u.updMe f).updMe g).pushDown := by
  refine KeepsPkgs.trans ?_ (.pushDown _)
  cases b
  · exact .of_eq rfl
  · exact KeepsPkgs.trans (.of_eq (t := u.updMe f) rfl)
      (KeepsPkgs.trans (.refreshAt (u.updMe f) own _ l) (.of_eq rfl))

theorem KeepsPkgs.monitorReply (s : State) (m : Monitor) (x : DWord) : KeepsPkgs s (s.monitorReply m x) := by
  have h : ∀ (c : Nat) (n : Fin 8) (f : State → State), (∀ t, KeepsPkgs t (f t)) → KeepsPkgs s (s.as c n f) :=
    fun c n f h => ⟨(h { s with curCore := c, curSlot := n }).pkg⟩
  unfold State.monitorReply
  exact h _ _ _ fun t => (KeepsPkgs.acquire t _).trans (.replyTail ..)

/-- Monitors that fire leave what packages hold here. -/
theorem KeepsPkgs.fireMonitors (s : State) : KeepsPkgs s s.fireMonitors := by
  unfold State.fireMonitors
  dsimp only
  split
  · exact .refl s
  · refine KeepsPkgs.trans (t := { s with monitors := s.monitors.filter (fun m => s.monitored m == m.value) }) (.of_eq rfl) ?_
    exact .foldl (fun s m => .monitorReply s m _) _ _

/-! ### Writes -/

/-- Tags after some have been cleared. -/
theorem Tags.mem_clear (t : Tags) (gs : List Nat) (g : Nat) : g ∈ t.clear gs ↔ g ∈ t ∧ g ∉ gs := by
  simp [Tags.clear]

/-- A local write, in the terms that claims use. -/
theorem WroteLocal.stored {s t u : State} {core a : Nat} {bytes : List Byte} (h : WroteLocal s t core a bytes)
    (k : SameStorage t u) : StoredLocal s u core a bytes :=
  ⟨fun b => by rw [(k.locals core).1, h.loc, Memory.read_writeN],
   fun g => by rw [(k.locals core).2, h.ltags, Tags.mem_clear]; split <;> simp [*],
   fun c e => ⟨(k.locals c).1.trans (h.others c e).1, (k.locals c).2.trans (h.others c e).2⟩,
   ⟨k.global.trans h.global.1, k.tags.trans h.global.2⟩⟩

/-- A GLOBAL write, in the terms that claims use. -/
theorem WroteGlobal.stored {s t u : State} {a : Nat} {bytes : List Byte} (h : WroteGlobal s t a bytes)
    (k : SameStorage t u) : StoredGlobal s u a bytes :=
  ⟨fun b => by rw [k.global, h.mem, Memory.read_writeN], fun g => by rw [k.tags, h.mtags, Tags.mem_clear]; split <;> simp [*],
   fun c => ⟨(k.locals c).1.trans (h.locals c).1, (k.locals c).2.trans (h.locals c).2⟩⟩

/-- What is kept is left. -/
theorem KeepsMe.leavesMe {s t : State} (k : KeepsMe s t) : LeavesMe s t := ⟨k.core, k.slot, by rw [k.me]⟩

theorem LeavesMe.keeps {s t u : State} (h : LeavesMe s t) (k : KeepsMe t u) : LeavesMe s u :=
  ⟨k.core.trans h.core, k.slot.trans h.slot, by rw [k.me, h.me]⟩

/-- The registers stay. -/
theorem LeavesMe.regs {s t : State} (h : LeavesMe s t) : t.regs = s.regs := by rw [State.regs, h.me]; rfl

/-! ### Writes at a place -/

/-- The issuing thread's slot changed. -/
@[simp] theorem State.me_updMe (s : State) (f : Slot → Slot) : (s.updMe f).me = f s.me := by
  rw [State.updMe_eq, State.me, State.setSlot_curCore, State.setSlot_curSlot, State.slot_setSlot]

/-- What a step leaves that changes no storage, nothing that packages keep, and of the issuing thread its registers alone. -/
structure KeepsPlaces (t u : State) : Prop where
  storage : SameStorage t u
  core    : u.curCore = t.curCore
  me      : ∃ r, u.me = { t.me with regs := r }
  pkgs    : KeepsPkgs t u

theorem KeepsMe.places {t u : State} (k : KeepsMe t u) (g : KeepsPkgs t u) : KeepsPlaces t u :=
  ⟨k.storage, k.core, ⟨t.me.regs, by rw [k.me]⟩, g⟩

/-- Registers written. -/
theorem KeepsPlaces.setRegs (t : State) (r : Regs) : KeepsPlaces t (t.setRegs r) :=
  ⟨.updMe .., rfl, ⟨r, State.me_updMe ..⟩, .of_eq rfl⟩

/-- A byte of a place is read as before. -/
theorem State.placeByte_keeps {t u : State} (k : KeepsPlaces t u) (p : Place) (b : Nat) :
    u.placeByte b p = t.placeByte b p := by
  obtain ⟨r, hr⟩ := k.me
  have hv : (u.pkg (pkgOf t.curCore)).views = (t.pkg (pkgOf t.curCore)).views := congrArg Prod.fst (k.pkgs.pkg _)
  have ht : (u.pkg (pkgOf t.curCore)).tenants = (t.pkg (pkgOf t.curCore)).tenants :=
    congrArg (fun x => x.2.1) (k.pkgs.pkg (pkgOf t.curCore))
  have hh : (u.pkg (pkgOf t.curCore)).host.mem = (t.pkg (pkgOf t.curCore)).host.mem :=
    congrArg (fun x => x.2.2) (k.pkgs.pkg (pkgOf t.curCore))
  cases p <;> simp [State.placeByte, State.home, hr, k.core, k.storage.global, (k.storage.locals _).1, Package.viewByte,
    Package.view, hv, hh, State.ctrlWord, Package.tenant, ht, Slot.chain, Slot.rivalView]

/-- So is a tag. -/
theorem State.placeTag_keeps {t u : State} (k : KeepsPlaces t u) (p : Place) (b : Nat) :
    u.placeTag b p = t.placeTag b p := by
  obtain ⟨r, hr⟩ := k.me
  have hv : (u.pkg (pkgOf t.curCore)).views = (t.pkg (pkgOf t.curCore)).views := congrArg Prod.fst (k.pkgs.pkg _)
  cases p <;> simp [State.placeTag, State.home, hr, k.core, k.storage.tags, (k.storage.locals _).2, Package.viewTag,
    Package.view, hv, Slot.chain, Slot.rivalView]

/-- What a store leaves of storage stays where storage is kept. -/
theorem StoredLocal.keeps {s t u : State} {core a : Nat} {bytes : List Byte} {tag : Bool}
    (h : StoredLocal s t core a bytes tag) (k : SameStorage t u) : StoredLocal s u core a bytes tag :=
  ⟨fun b => by rw [(k.locals core).1, h.stored], fun g => by rw [(k.locals core).2, h.tags],
   fun c e => ⟨(k.locals c).1.trans (h.others c e).1, (k.locals c).2.trans (h.others c e).2⟩,
   ⟨k.global.trans h.global.1, k.tags.trans h.global.2⟩⟩

theorem StoredGlobal.keeps {s t u : State} {a : Nat} {bytes : List Byte} {tag : Bool}
    (h : StoredGlobal s t a bytes tag) (k : SameStorage t u) : StoredGlobal s u a bytes tag :=
  ⟨fun b => by rw [k.global, h.stored], fun g => by rw [k.tags, h.tags],
   fun c => ⟨(k.locals c).1.trans (h.locals c).1, (k.locals c).2.trans (h.locals c).2⟩⟩

/-- What a store at a place leaves stays. -/
theorem Stored.keeps {s t u : State} {bytes : List Byte} {p : Place} {tag : Bool} (h : Stored s t bytes p tag)
    (k : KeepsPlaces t u) : Stored s u bytes p tag := by
  cases p with
  | own a => exact StoredLocal.keeps h k.storage
  | window m a => exact StoredLocal.keeps h k.storage
  | global a => exact StoredGlobal.keeps h k.storage
  | rival a =>
    exact ⟨h.1.trans k.storage, fun b => by rw [State.placeByte_keeps k, h.2.1], fun b => by rw [State.placeTag_keeps k, h.2.2]⟩
  | version v a =>
    exact ⟨h.1.trans k.storage, fun b => by rw [State.placeByte_keeps k, h.2.1], fun b => by rw [State.placeTag_keeps k, h.2.2]⟩
  | host a => exact ⟨h.1.trans k.storage, (congrArg (fun x => x.2.2) (k.pkgs.pkg _)).trans h.2⟩
  | ctrl a =>
    refine ⟨h.1.trans k.storage, Eq.trans ?_ h.2⟩
    simp only [Package.tenant, show (u.pkg (pkgOf s.curCore)).tenants =
      (t.pkg (pkgOf s.curCore)).tenants from congrArg (fun x => x.2.1) (k.pkgs.pkg (pkgOf s.curCore))]

/-- A list of pieces put under their addresses, one by one. -/
theorem look_put_zip (bytes : List Byte) (a : Nat) (w : List (Nat × Byte)) (b : Nat) :
    look ((bytes.zipIdx).foldl (fun w x => put w (a + x.2) x.1) w) b =
      if a ≤ b ∧ b < a + bytes.length then some (bytes.getD (b - a) 0) else look w b := by
  suffices h : ∀ k w, look ((bytes.zipIdx k).foldl (fun w x => put w (a + x.2) x.1) w) b =
      if a + k ≤ b ∧ b < a + k + bytes.length then some (bytes.getD (b - (a + k)) 0) else look w b by simpa using h 0 w
  induction bytes with
  | nil => intro k w; simp only [List.zipIdx_nil, List.foldl_nil, List.length_nil]; rw [if_neg (by omega)]
  | cons x rest ih =>
    intro k w
    simp only [List.zipIdx_cons, List.foldl_cons, ih, List.length_cons]
    by_cases e : b = a + k
    · subst e
      rw [if_neg (by omega), if_pos (by omega)]
      simp
    · by_cases g : a + (k + 1) ≤ b ∧ b < a + (k + 1) + rest.length
      · rw [if_pos g, if_pos (by omega)]
        have : b - (a + k) = b - (a + (k + 1)) + 1 := by omega
        rw [this]; rfl
      · rw [if_neg g, if_neg (by omega), look_put_ne _ _ e]

/-- Tags put under their granules. -/
theorem look_put_all (gs : List Nat) (x : Bool) (w : List (Nat × Bool)) (g : Nat) :
    look (gs.foldl (fun w g => put w g x) w) g = if g ∈ gs then some x else look w g := by
  induction gs generalizing w with
  | nil => simp
  | cons h gs ih =>
    simp only [List.foldl_cons, ih, List.mem_cons]
    by_cases e : g = h
    · subst e; by_cases i : g ∈ gs <;> simp [i]
    · by_cases i : g ∈ gs
      · simp [i]
      · simp [i, e, look_put_ne _ _ e]

/-- Holds broken change no package. -/
theorem State.pkg_breakHolds (s : State) (x : Target) (n : Nat) (own : Option (Nat × BitVec 16)) (p : Nat) :
    (s.breakHolds x n own).pkg p = s.pkg p := by rw [s.breakHolds_rest]; rfl

/-- The record of a view after one of the package's views has been changed. -/
theorem Package.view_updView (p : Package) (v n : Nat) {f : ViewRec → ViewRec} (hf : ∀ x, (f x).num = x.num) :
    (p.updView v f).view n = if n = v then (p.view n).map f else p.view n := by
  unfold Package.updView Package.view
  generalize p.views = l
  dsimp only
  induction l with
  | nil => simp
  | cons x l ih =>
    have hx : (if x.num == v then f x else x).num = x.num := by split <;> simp [hf]
    rw [List.map_cons, List.find?_cons, List.find?_cons, hx]
    cases g : x.num == n
    · exact ih
    · have : x.num = n := by simpa using g
      by_cases e : n = v <;> simp [this, e]

/-- The innermost rival view after a write of its window copy. -/
theorem updRival_find {l : List View} {v : View} (h : l.find? (·.rival) = some v) (a : Nat) (bytes : List Byte) :
    (State.placeAt.updRival l a bytes).find? (·.rival) =
      some { v with win := v.win.writeN a bytes, winTags := v.winTags.clear (granules a bytes.length) } := by
  induction l with
  | nil => simp at h
  | cons u l ih =>
    unfold State.placeAt.updRival
    cases hu : u.rival
    · simp only [List.find?_cons, hu] at h
      simpa [List.find?_cons, hu] using ih h
    · simp only [List.find?_cons, hu, Option.some.injEq] at h
      subst h
      simp [hu]

/-- A local write leaves its bytes in the core's memory. -/
theorem State.putLocal_stored (s : State) (core a : Nat) (bytes : List Byte) :
    StoredLocal s (s.putLocal core a bytes none) core a bytes ∧ LeavesMe s (s.putLocal core a bytes none) ∧
      (s.putLocal core a bytes none).monitors = s.monitors := by
  obtain ⟨w, hm⟩ := s.putLocal_wrote core a bytes none
  exact ⟨w.stored (.refl _), ⟨w.core, w.slot, by rw [w.me]⟩, hm⟩

/-- A version for a line that has one, or whose set has a way: the package's versions alone change. -/
theorem State.VersionAt.versionsFor {s u : State} {c : Cap} {off : Int} {z align v a : Nat} {need : BitVec 7}
    (h : s.VersionAt c off z align need v a) (hn : need.getLsbD 1 = true) (hu : ∀ p, u.pkg p = s.pkg p) (x : Nat) :
    ∃ q, u.versionsFor (pkgOf s.curCore) v x (linesOf a z) = .ok (u.setPkg (pkgOf s.curCore) q) ∧
      q.views = (s.pkg (pkgOf s.curCore)).views ∧ q.poison = (s.pkg (pkgOf s.curCore)).poison ∧
      q.versions.any (fun y => y.1 == v && y.2.1 == lineOf a) = true := by
  obtain ⟨q, hq, hr⟩ := h.room hn
  refine ⟨q, ?_, ?_⟩
  · have e : lineOf a = a / 128 := rfl
    rw [e] at hq hr
    simp [h.toLineServes.lines h.some, State.versionsFor, State.versionFor, hu, hq, hr]
  · unfold Package.needVersion at hq
    dsimp only at hq
    repeat' split at hq
    all_goals first
      | (simp only [Option.some.injEq] at hq; subst hq)
      | simp at hq
    · rename_i hf
      have := List.find?_some hf
      exact ⟨rfl, rfl, by simp only [List.any_cons, this, Bool.true_or]⟩
    all_goals exact ⟨rfl, rfl, by simp⟩

/-- A write at a place that admits it leaves exactly its bytes there. -/
theorem State.At.placeAt {s : State} {c : Cap} {off : Int} {z align : Nat} {need : BitVec 7} {p : Place}
    (h : s.At c off z align need p) (bytes : List Byte) (hz : bytes.length = z)
    (hr : ∀ v a, p = .version v a → need.getLsbD 1 = true) (hal : p.space = 4 → align = z) :
    ∃ t, s.placeAt (p.target s c off) bytes need = .ok t ∧ Stored s t bytes p ∧ LeavesMe s t ∧ t.monitors = s.monitors := by
  subst hz
  cases p with
  | own a =>
    have g : s.LocalAt c off bytes.length align need a := h
    exact ⟨_, g.placeAt need bytes, s.putLocal_stored ..⟩
  | rival a =>
    have g : s.RivalAt c off bytes.length align need a := h
    obtain ⟨v, hv, hw⟩ := g.inside
    have hc := g.toLocalServes.checkWords (words := []) (by simp)
    have hi : s.me.inWorld = true := by
      have := List.find?_some hv
      exact List.any_eq_true.mpr ⟨v, List.mem_of_find?_eq_some hv, this⟩
    refine ⟨s.updMe fun t => { t with views := State.placeAt.updRival t.views a bytes }, ?_, ⟨.updMe .., fun b => ?_, fun b => ?_⟩,
      ⟨rfl, rfl, by simp only [State.me_updMe]⟩, rfl⟩
    · simp [Place.target, State.placeAt, State.checkLocal, State.checkWindow, spLOCAL, spWINDOW, hc, hi]
    · have := updRival_find hv a bytes
      simp only [State.placeByte, State.me_updMe, Slot.rivalView, this, Option.map_some, Option.getD_some,
        Memory.read_writeN]
      rw [show s.me.views.find? (fun x => x.rival) = some v from hv]
      simp
    · have := updRival_find hv a bytes
      simp only [State.placeTag, State.me_updMe, Slot.rivalView, this, Option.map_some, Option.getD_some]
      rw [show s.me.views.find? (fun x => x.rival) = some v from hv]
      by_cases e : b ∈ granules a bytes.length <;> simp [Tags.clear, e]
  | window m a =>
    have g : s.WindowAt c off bytes.length align need m a := h
    have hc := g.toLocalServes.checkWords (words := []) (by simp)
    refine ⟨_, ?_, s.putLocal_stored m a bytes⟩
    simp [Place.target, State.placeAt, State.checkLocal, spLOCAL, spWINDOW, g.checkWindow, hc]
  | global a =>
    have g : s.GlobalAt c off bytes.length align need a := h
    obtain ⟨f, hf⟩ := g.toGranted.checkRights (space := 2) (core := s.home) (va := c.base + off.toNat) rfl
    generalize hu : (s.updCore s.curCore fun k => { k with plb := f k.plb }) = u at *
    have k : KeepsMe s u := hu ▸ KeepsMe.plb s _ f
    have hk : ∀ p, u.pkg p = s.pkg p := fun p => hu ▸ rfl
    have hr := g.toLineServes.reachAll g.some (t := u) (hu ▸ rfl) hk (hu ▸ rfl)
    have hq := g.toLineServes.poisonAll g.some (t := u) (own := pkgOf s.curCore) (chain := []) (fun p => by rw [hk]) rfl
    obtain ⟨w, hm⟩ := u.putGlobal_wrote a bytes none
    have e2 := (u.putGlobal a bytes none).refreshCopy_own g.toLineServes.home
    rw [g.toLineServes.lines g.some] at hr hq
    have w' := WroteGlobal.after k w
    refine ⟨u.putGlobal a bytes none, ?_, w'.stored (.refl _), ⟨w'.core, w'.slot, by rw [w'.me]⟩, hm.trans (hu ▸ rfl)⟩
    simp only [Place.target, State.placeAt, spLOCAL, spWINDOW, spGLOBAL, hf, run_ok_bind]
    simp [k.core, hr, hq, g.toLineServes.lines g.some, e2, Slot.chain, g.noView]
  | version v a =>
    have g : s.VersionAt c off bytes.length align need v a := h
    obtain ⟨f, hf⟩ := g.toGranted.checkRights (space := 2) (core := s.home) (va := c.base + off.toNat) rfl
    generalize hu : (s.updCore s.curCore fun k => { k with plb := f k.plb }) = u at *
    have k : KeepsMe s u := hu ▸ KeepsMe.plb s _ f
    have hk : ∀ p, u.pkg p = s.pkg p := fun p => hu ▸ rfl
    have hre := g.toLineServes.reachAll g.some (t := u) (hu ▸ rfl) hk (hu ▸ rfl)
    obtain ⟨q, hq, hqv, hqp, hqx⟩ := g.versionsFor (hr v a rfl) hk a
    obtain ⟨r, hrv, hrp⟩ := g.known
    generalize hw : (u.setPkg (pkgOf s.curCore) q).updPkg (pkgOf s.curCore) (fun p => p.updView v (·.write a bytes)) = w
    have hwp : (w.pkg (pkgOf s.curCore)) = q.updView v (·.write a bytes) := by
      rw [← hw]; simp [State.updPkg]
    have hvw : ∀ n, (w.pkg (pkgOf s.curCore)).view n = if n = v then ((s.pkg (pkgOf s.curCore)).view n).map (·.write a bytes)
        else (s.pkg (pkgOf s.curCore)).view n := fun n => by
      rw [hwp, Package.view_updView q v n (f := fun x => x.write a bytes) (fun _ => rfl)]; simp only [Package.view, hqv]
    obtain ⟨rest, hch⟩ : ∃ rest, s.me.chain = v :: rest := by
      have := g.chain
      cases hc : s.me.chain with
      | nil => simp [hc] at this
      | cons x l => simp only [hc, List.head?_cons, Option.some.injEq] at this; exact ⟨l, by rw [this]⟩
    have hp : w.poisonAll (pkgOf s.curCore) s.me.chain (linesOf a bytes.length) = .ok () := by
      refine g.toLineServes.poisonAll g.some (fun p => ?_) ?_
      · by_cases e : p = pkgOf s.curCore
        · subst e; rw [hwp]; exact hqp
        · rw [← hw, State.updPkg, State.pkg_setPkg_ne _ _ e, State.pkg_setPkg_ne _ _ e, hk]
      · have hx : (w.pkg (pkgOf s.curCore)).versions = q.versions := by rw [hwp]; rfl
        simp only [Package.versionPoisoned, hch, List.find?_cons, hx, hqx, hvw, if_true, hrv, Option.map_some]
        simpa [ViewRec.write] using hrp
    have hm : w.me = s.me := by rw [← hw, ← k.me]; rfl
    have hcc : w.curCore = s.curCore := by rw [← hw, ← k.core]; rfl
    have hst : SameStorage s w := by
      refine k.storage.trans ?_
      rw [← hw]
      exact (SameStorage.setPkg u _ q).trans (.setPkg _ _ _)
    refine ⟨w, ?_, ⟨hst, fun b => ?_, fun b => ?_⟩, ⟨hcc, ?_, by rw [hm]⟩, ?_⟩
    · simp only [Place.target, State.placeAt, spLOCAL, spWINDOW, spGLOBAL, hf, run_ok_bind]
      simp [k.core, hre, g.chain, State.writeView, hq, hw, hp]
    · have e : w.mem = s.mem := hst.global
      simp only [State.placeByte, hcc, hm, e, Package.viewByte]
      by_cases i : a ≤ b ∧ b < a + bytes.length
      · simp only [hch, List.findSome?_cons, hvw, if_true, hrv, Option.map_some, Option.bind_some, ViewRec.write, look_put_zip,
          i]
        simp
      · have hx : ∀ n, ((w.pkg (pkgOf s.curCore)).view n).bind (fun x => look x.writes b) =
            ((s.pkg (pkgOf s.curCore)).view n).bind (fun x => look x.writes b) := fun n => by
          rw [hvw]
          split
          · cases (s.pkg (pkgOf s.curCore)).view n
            · rfl
            · simp only [Option.map_some, Option.bind_some, ViewRec.write, look_put_zip, i, if_false]
          · rfl
        simp only [hx, i, if_false]
    · have e : w.mtags = s.mtags := hst.tags
      simp only [State.placeTag, hcc, hm, e, Package.viewTag]
      by_cases i : b ∈ granules a bytes.length
      · simp only [hch, List.findSome?_cons, hvw, if_true, hrv, Option.map_some, Option.bind_some, ViewRec.write, look_put_all,
          i]
        simp
      · have hx : ∀ n, ((w.pkg (pkgOf s.curCore)).view n).bind (fun x => look x.tags b) =
            ((s.pkg (pkgOf s.curCore)).view n).bind (fun x => look x.tags b) := fun n => by
          rw [hvw]
          split
          · cases (s.pkg (pkgOf s.curCore)).view n
            · rfl
            · simp only [Option.map_some, Option.bind_some, ViewRec.write, look_put_all, i, if_false]
          · rfl
        simp only [hx, i, if_false]
    · rw [← hw, ← k.slot]; rfl
    · rw [← hw, ← hu]; rfl
  | host a =>
    have g : s.HostAt c off bytes.length align need a := h
    obtain ⟨f, hf⟩ := g.toGranted.checkRights (space := 3) (core := s.home) (va := c.base + off.toNat) rfl
    generalize hu : (s.updCore s.curCore fun k => { k with plb := f k.plb }) = u at *
    have k : KeepsMe s u := hu ▸ KeepsMe.plb s _ f
    have hk : ∀ p, u.pkg p = s.pkg p := fun p => hu ▸ rfl
    have hh := g.checkHost (t := u) hk (hu ▸ rfl) ⟨3, s.home, a, c.base + off.toNat, c.dom⟩ true (by simp)
    refine ⟨u.putHost (pkgOf s.curCore) a bytes none, ?_, ?_, ?_, ?_⟩
    · simp only [Place.target, State.placeAt, spLOCAL, spWINDOW, spGLOBAL, spHOST, hf, run_ok_bind]
      simp [k.core, hh]
    · refine ⟨k.storage.trans ?_, ?_⟩
      · exact SameStorage.trans (.setPkg u _ _) (.breakHolds ..)
      · rw [State.putHost, State.pkg_breakHolds]; simp [State.updPkg, hk]
    · refine LeavesMe.keeps (t := u) k.leavesMe ?_
      have : KeepsMe u (u.updPkg (pkgOf s.curCore) fun k => { k with host := { k.host with mem := k.host.mem.writeN a bytes } }) :=
        .setPkg ..
      refine this.trans ⟨.breakHolds .., by rw [State.putHost, State.breakHolds_rest], by rw [State.putHost, State.breakHolds_rest], State.me_breakHolds ..⟩
    · rw [State.putHost, State.breakHolds_rest, ← hu]; rfl
  | ctrl a =>
    have g : s.CtrlAt c off bytes.length align need a := h
    have hal := hal rfl
    have h4 : a / 4 * 4 = a := by
      have := g.aligned; rw [hal, ← g.address] at this
      rcases g.size with e | e <;> rw [e] at this <;> omega
    generalize ht : (s.updPkg (pkgOf s.curCore) fun p => p.updTenant s.me.tenant fun t =>
      (List.range (bytes.length / 4)).foldl (fun t k => t.setCtrl (a + 4 * k)
        (BitVec.ofNat 32 (leValue ((bytes.drop (4 * k)).take 4)))) t) = t
    have kt : KeepsMe s t := ht ▸ KeepsMe.setPkg ..
    refine ⟨t, ?_, ⟨kt.storage, ?_⟩, kt.leavesMe, ht ▸ rfl⟩
    · rw [← ht]
      simp [Place.target, State.placeAt, spLOCAL, spWINDOW, spGLOBAL, spHOST, h4]
    · have hc : ∀ (x : Tenant) (a : Nat) (w : Word), x.setCtrl a w = ctrlWritten x a w := fun x a w => by
        unfold Tenant.setCtrl ctrlWritten
        cases hi : x.injection
        · simp
        · simp only [Bool.not_true, Bool.false_eq_true, if_false, Bool.true_eq_false]
          repeat' split
          all_goals first
            | (simp_all; done)
            | (cases x; simp_all)
      have hid : ∀ (l : List Nat) (x : Tenant) (f : Nat → Nat) (w : Nat → Word),
          (l.foldl (fun t k => ctrlWritten t (f k) (w k)) x).id = x.id := fun l => by
        induction l with
        | nil => exact fun _ _ _ => rfl
        | cons y l ih => 
          have e : ∀ (x : Tenant) (a : Nat) (w : Word), (ctrlWritten x a w).id = x.id := fun x a w => by
            unfold ctrlWritten; split <;> rfl
          exact fun x f w => (ih _ f w).trans (e ..)
      rw [← ht]
      simp only [State.updPkg, State.pkg_setPkg, Package.tenant, Package.updTenant, hc]
      generalize (s.pkg (pkgOf s.curCore)).tenants = l
      induction l with
      | nil => rfl
      | cons x l ih =>
        cases e : x.id == s.me.tenant
        · simp only [List.map_cons, List.find?_cons, e, Bool.false_eq_true, if_false]
          exact ih
        · simp only [List.map_cons, List.find?_cons, e, if_true, hid, Option.map_some]

/-- A write at a place, and the replies of the monitors of other threads after it. -/
theorem State.At.writeAt {s : State} {c : Cap} {off : Int} {z align : Nat} {need : BitVec 7} {p : Place}
    (h : s.At c off z align need p) (bytes : List Byte) (hz : bytes.length = z)
    (hr : ∀ v a, p = .version v a → need.getLsbD 1 = true) (hal : p.space = 4 → align = z) (hw : s.notWatching) :
    ∃ t, s.writeAt (p.target s c off) bytes need = .ok t ∧ Stored s t bytes p ∧ LeavesMe s t := by
  obtain ⟨t, ht, hs, hl, hm⟩ := h.placeAt bytes hz hr hal
  have hw' : t.notWatching := fun m hm' => by rw [hl.core, hl.slot]; exact hw m (hm ▸ hm')
  have k := KeepsMe.fireMonitors t hw'
  exact ⟨_, by rw [State.writeAt, ht]; rfl, hs.keeps (k.places (.fireMonitors t)), hl.keeps k⟩

/-! ### Scalar loads and stores -/

/-- A load from a place that admits it completes with the bytes of the place. -/
theorem State.load_at {s : State} {i : Instr} {len : Nat} {srcs : List (BitVec 5)} {ty d : BitVec 5} {c : BitVec 3}
    {off : Regs → Int} {acq : Bool} {scope : BitVec 3} {p : Place}
    (h : s.At (s.regs.cap c) (off s.regs) (tyBytes ty) (tyBytes ty) pRD p) (ha : s.answersAt p)
    (hp : s.portsReady srcs [d]) :
    ∃ t, s.load i len srcs ty d c off acq scope = .next ((if acq then t.acquire scope else t).completed srcs [d]
      ((s.regs.setElem ty d (BitVec.ofNat 64 (leValue (s.placeBytes (tyBytes ty) p))) 0).advance len)) ∧ KeepsMe s t := by
  obtain ⟨t, ht, k⟩ := h.readAt ha (!acq) fun _ => rfl
  have hk : ∀ u : State, KeepsMe s u → u.regs = s.regs := fun u k => by rw [State.regs, k.me]; rfl
  have hsp : p.space ∈ scalarSpaces (tyBytes ty) := by
    unfold scalarSpaces
    cases p with
    | ctrl a => have g : s.CtrlAt _ _ _ _ _ a := h; rcases g.size with e | e <;> simp [e, Place.space, spAll]
    | _ => split <;> simp [Place.space, spAll, spNoCtrl]
  refine ⟨t, ?_, k⟩
  unfold State.load
  rw [State.memory_of_ok s (if acq then t.acquire scope else t) hp (r := s.regs.setElem ty d (BitVec.ofNat 64 (leValue (s.placeBytes (tyBytes ty) p))) 0)]
  dsimp only
  rw [h.checked (k := .load) hsp (by cases p <;> simp [Place.takes]) (fun _ => rfl)]
  simp only [liftFault, run_ok_bind, ht]
  split
  · rw [hk _ (k.trans (KeepsMe.acquire t scope))]
  · rw [hk _ k]

/-- A store at a place that admits it leaves its bytes there and raises its flags. -/
theorem State.store_at {s : State} {i : Instr} {len : Nat} {srcs : List (BitVec 5)} {ty d : BitVec 5} {c : BitVec 3}
    {off : Regs → Int} {sp : List Nat} {v : Regs → FElem → FRes} {p : Place}
    (h : s.At (s.regs.cap c) (off s.regs) (tyBytes ty) (tyBytes ty) pWR p) (hs : p.space ∈ sp)
    (hp : s.portsReady srcs []) (hw : s.notWatching) :
    ∃ t, s.store i len srcs ty d c off sp v = .next t ∧
      Stored s t (leBytes (tyBytes ty) (v s.regs (s.regs.elem ty d)).bits.toNat) p ∧
      t.regs = ((s.regs.raise (v s.regs (s.regs.elem ty d)).flags).advance len).consume srcs := by
  obtain ⟨t, ht, hst, hl⟩ := h.writeAt (leBytes (tyBytes ty) (v s.regs (s.regs.elem ty d)).bits.toNat) (by simp)
    (fun _ _ _ => by decide) (fun _ => rfl) hw
  refine ⟨t.setRegs (((s.regs.raise (v s.regs (s.regs.elem ty d)).flags).advance len).consume srcs), ?_,
    hst.keeps (.setRegs ..), by simp⟩
  unfold State.store
  rw [State.memory_of_ok s t hp (r := s.regs.raise (v s.regs (s.regs.elem ty d)).flags)]
  · simp [State.completed]
  · dsimp only
    rw [h.checked (k := .store) hs (by cases p <;> simp [Place.takes]) (by decide)]
    simp only [liftFault, run_ok_bind, ht, hl.regs]

end Sys2Proof.Machine
end

