-- ==== Sys2Proof/Tests/Slice0.lean ====
section
/-!
SUPPORT. Tests: words that the spec's encodings write out, single steps whose results come from the spec's worked examples
or from its rules by hand, and a witness for the hypotheses of each statement.
-/

namespace Sys2Proof.Tests

open Sys2Proof.Machine

/-! ### Decoding (R45 to R60) -/

/-- Each word, of `n` bits, decodes to the instruction beside it. -/
def decodes (n : Nat) (l : List (Nat × Instr)) : Bool := l.all fun x => decodeTableWord n x.1 == some x.2

/-- Each word decodes to nothing, for the reason given. -/
def refuses (e : Illegal) (l : List (BitVec 32)) : Bool :=
  l.all fun w => match decode (w.extractLsb' 16 16) (w.extractLsb' 0 16) with
    | .error x => x == e
    | .ok _ => false

-- Words that the spec's worked examples write out.
theorem test_words_spec : decodes 32 [
    (0x81298E00, .add 5 6 7 0), (0xA810C895, .faddV 2 3 4 9 5), (0xC0298A66, .ld 5 6 1 1 6 3),
    (0xE9298058, .waitne 5 6 0 1 1 4 0), (0x98188C40, .cinc 3 2 6), (0x9F010080, .fretry 4), (0x9F010040, .fkill 4),
    (0x86000111, .eli 0 0x111), (0xBD014000, .vloop 0 5), (0xA8400890, .faddV 8 0 4 9 0),
    (0xAF120090, .fcmpV 0 2 8 0 9 0), (0xE02194A6, .mxacc 4 6 10 2 19 0), (0xF8000000, .hint 0 0)] = true := by decide

/-! One word of every encoded instruction: its pattern with its operand fields at the places that
spec/opcode_table.json gives them. -/

theorem test_words_scalar_1 : decodes 32 [
    (0x81310500, .add 6 4 2 1),
    (0x81310501, .sub 6 4 2 1),
    (0x81310502, .mul 6 4 2 1),
    (0x81310503, .mulh 6 4 2 1),
    (0x81310504, .mulhn 6 4 2 1),
    (0x81310505, .div 6 4 2 1),
    (0x81310506, .divn 6 4 2 1),
    (0x81310507, .rem 6 4 2 1),
    (0x81310508, .remn 6 4 2 1),
    (0x81310509, .and 6 4 2 1),
    (0x8131050A, .or 6 4 2 1),
    (0x8131050B, .xor 6 4 2 1),
    (0x8131050C, .andn 6 4 2 1),
    (0x813105CD, .shl 6 4 2 1 1 1),
    (0x813105CE, .shr 6 4 2 1 1 1),
    (0x813105CF, .sar 6 4 2 1 1 1),
    (0x813105D0, .rol 6 4 2 1 1 1),
    (0x81310511, .min 6 4 2 1),
    (0x81310512, .max 6 4 2 1),
    (0x81310513, .minn 6 4 2 1),
    (0x81310514, .maxn 6 4 2 1),
    (0x81310515, .slt 6 4 2 1),
    (0x81310516, .sltn 6 4 2 1),
    (0x81310117, .clz 6 4 1)] = true := by decide

theorem test_words_scalar_2 : decodes 32 [
    (0x81310118, .ctz 6 4 1),
    (0x81310119, .popc 6 4 1),
    (0xFDABCDE5, .hint 5 11259365),
    (0x82310401, .sel 6 4 2 1),
    (0x83312A35, .addi 6 4 10805),
    (0x84352A35, .li 6 338485),
    (0x85312A35, .lih 6 76341),
    (0x86352A35, .eli 6 338485),
    (0x87310000, .emovToE 6 4),
    (0x87310040, .emovFromE 6 4),
    (0x88ABCDE5, .b 11259365),
    (0x89ABCDE5, .j 11259365),
    (0x8AABCDE5, .jl 11259365),
    (0x8B010000, .jr 4),
    (0x8B010040, .jlr 4),
    (0x8C312A35, .beq 6 4 10805),
    (0x8D312A35, .bne 6 4 10805),
    (0x8E312A35, .blt 6 4 10805),
    (0x8F312A35, .bge 6 4 10805),
    (0x90312A35, .bltn 6 4 10805),
    (0x91312A35, .bgen 6 4 10805),
    (0x92302A35, .bz 6 10805),
    (0x93302A35, .bnz 6 10805),
    (0x94302A35, .loop 6 10805)] = true := by decide

theorem test_words_scalar_3 : decodes 32 [
    (0x98310400, .csetb 6 4 2),
    (0x98310440, .cinc 6 4 2),
    (0x98310480, .cand 6 4 2),
    (0x983100C0, .cbase 6 4),
    (0x98310100, .clen 6 4),
    (0x98310140, .cperm 6 4),
    (0x9B300155, .getc 6 341),
    (0x9C010155, .setc 4 341),
    (0x9D300000, .time 6),
    (0x9D010040, .twait 4),
    (0x9E002A35, .trap 10805),
    (0x9F010000, .fresume 4),
    (0x9F010040, .fkill 4),
    (0x9F010080, .fretry 4)] = true := by decide

theorem test_words_short : decodes 16 [
    (0x0482, .addShort 4 2),
    (0x0882, .subShort 4 2),
    (0x0C82, .andShort 4 2),
    (0x1082, .orShort 4 2),
    (0x1482, .xorShort 4 2),
    (0x1895, .shlShort 4 21),
    (0x1C95, .shrShort 4 21),
    (0x2095, .sarShort 4 21),
    (0x2495, .addiShort 4 21),
    (0x2895, .liShort 4 21),
    (0x2C82, .minShort 4 2),
    (0x3082, .maxShort 4 2),
    (0x3495, .bzShort 4 21),
    (0x3895, .bnzShort 4 21),
    (0x3C96, .ldShort 4 5 2),
    (0x4096, .stShort 4 5 2),
    (0x4400, .nop),
    (0x4800, .quitShort),
    (0x4C80, .jrShort 4),
    (0x4C81, .jlrShort 4),
    (0x5082, .faddShort 4 2),
    (0x5482, .fmulShort 4 2),
    (0x5882, .emovShort 4 2),
    (0x7882, .hintShort 2 4 2)] = true := by decide

theorem test_words_float : decodes 32 [
    (0xA03104A0, .fadd 6 4 2 10),
    (0xA03104A1, .fsub 6 4 2 10),
    (0xA03104A2, .fmul 6 4 2 10),
    (0xA03104A3, .fmin 6 4 2 10),
    (0xA03104A4, .fmax 6 4 2 10),
    (0xA03104A5, .fdiv 6 4 2 10),
    (0xA03100A6, .fabs 6 4 10),
    (0xA03100A7, .fneg 6 4 10),
    (0xA03100A8, .fsqrt 6 4 10),
    (0xA03100A9, .fclass 6 4 10),
    (0xA03104AA, .fcmp 6 4 2 10),
    (0xA03104AB, .ffma 6 4 2 10),
    (0xA13100A0, .frcp 6 4 10),
    (0xA13100A1, .frsq 6 4 10),
    (0xA13100A2, .fexp2 6 4 10),
    (0xA13100A3, .flog2 6 4 10),
    (0xA13100A4, .fsin 6 4 10),
    (0xA13100A5, .fcos 6 4 10),
    (0xA23112A0, .cvt 6 4 9 10),
    (0xA23112A1, .cvtf 6 4 9 10),
    (0xA23114A2, .frnd 6 4 10 10),
    (0xA3310000, .tailget 6 4),
    (0xA3310440, .tailset 6 4 2)] = true := by decide

theorem test_words_vector_1 : decodes 32 [
    (0xA3310083, .tailgetV 6 4 3),
    (0xA33104C3, .tailsetV 6 4 2 3),
    (0xA83104A3, .faddV 6 4 2 10 3),
    (0xA93104A3, .fsubV 6 4 2 10 3),
    (0xAA3104A3, .fmulV 6 4 2 10 3),
    (0xAB3104A3, .fminV 6 4 2 10 3),
    (0xAC3104A3, .fmaxV 6 4 2 10 3),
    (0xAD3104A3, .fdivV 6 4 2 10 3),
    (0xAE3104A3, .ffmaV 6 4 2 10 3),
    (0xAFA904A3, .fcmpV 2 5 4 2 10 3),
    (0xB03100A3, .fabsV 6 4 10 3),
    (0xB03102A3, .fnegV 6 4 10 3),
    (0xB03104A3, .fsqrtV 6 4 10 3),
    (0xB03106A3, .fclassV 6 4 10 3),
    (0xB03108A3, .frcpV 6 4 10 3),
    (0xB0310AA3, .frsqV 6 4 10 3),
    (0xB0310CA3, .fexp2V 6 4 10 3),
    (0xB0310EA3, .flog2V 6 4 10 3),
    (0xB03110A3, .fsinV 6 4 10 3),
    (0xB03112A3, .fcosV 6 4 10 3),
    (0xB13112A3, .cvtV 6 4 9 10 3),
    (0xB23112A3, .cvtfV 6 4 9 10 3),
    (0xB33114A3, .frndV 6 4 10 10 3),
    (0xB8310403, .vshuf 6 4 2 3)] = true := by decide

theorem test_words_vector_2 : decodes 32 [
    (0xB8310443, .vrot 6 4 2 3),
    (0xB8310083, .vbcast 6 4 3),
    (0xB83104C3, .vsel 6 4 2 3),
    (0xB8310103, .vidx 6 4 3),
    (0xB9310073, .vredAdd 6 4 7 3),
    (0xB9310273, .vredMin 6 4 7 3),
    (0xB9310473, .vredMax 6 4 7 3),
    (0xB9310673, .vredAnd 6 4 7 3),
    (0xB9310873, .vredOr 6 4 7 3),
    (0xB9310A73, .vredXor 6 4 7 3),
    (0xBA3104A3, .pack 6 4 2 10 3),
    (0xBB310123, .vlut 6 4 18 3),
    (0xBC310400, .rndk 6 4 2),
    (0xBC310443, .rndkV 6 4 2 3),
    (0xBD310000, .vloop 6 4),
    (0xBE000003, .gang 3),
    (0xBE000040, .split)] = true := by decide

theorem test_words_memory_1 : decodes 32 [
    (0xC0312AA8, .ld 6 4 5 1 10 4),
    (0xC1355535, .ldImm 6 5 10 1333),
    (0xC2312CA8, .st 6 4 5 2 10 4),
    (0xC3355535, .stImm 6 5 10 1333),
    (0xC4312CA8, .fst 6 4 5 2 10 4),
    (0xC5355535, .fstImm 6 5 10 1333),
    (0xC6312B50, .vld 6 4 5 3 10),
    (0xC7355535, .vldImm 6 5 10 1333),
    (0xC8312B50, .vst 6 4 5 3 10),
    (0xC9355535, .vstImm 6 5 10 1333),
    (0xCA312B55, .vlds 6 4 5 3 10 5),
    (0xCB312B50, .vgath 6 4 5 3 10),
    (0xCC312B50, .vscat 6 4 5 3 10),
    (0xCD312A08, .ldc 6 4 5 1 4),
    (0xCE312C08, .stc 6 4 5 2 4),
    (0xCF312802, .spill 6 4 5 1),
    (0xCF312A02, .fill 6 4 5 1),
    (0xD0310579, .aadd 6 4 2 5 3 4 1),
    (0xD1310579, .aand 6 4 2 5 3 4 1),
    (0xD2310579, .aor 6 4 2 5 3 4 1),
    (0xD3310579, .axor 6 4 2 5 3 4 1),
    (0xD4310579, .aswap 6 4 2 5 3 4 1),
    (0xD5310579, .acas 6 4 2 5 3 4 1),
    (0xD6310579, .aminSigned 6 4 2 5 3 4 1)] = true := by decide

theorem test_words_memory_2 : decodes 32 [
    (0xD7310579, .aminUnsigned 6 4 2 5 3 4 1),
    (0xD8310579, .amaxSigned 6 4 2 5 3 4 1),
    (0xD9310579, .amaxUnsigned 6 4 2 5 3 4 1),
    (0xDA310579, .afadd 6 4 2 5 3 4 1),
    (0xE031056F, .mxacc 6 4 2 5 23 1),
    (0xE131056E, .mxld 6 4 2 5 23),
    (0xE231056E, .mxst 6 4 2 5 23),
    (0xE331056A, .mxres 6 4 2 5 21),
    (0xE401016E, .mxnorm 4 5 23),
    (0xE8000020, .fence 4),
    (0xE8000060, .fenceAcq 4),
    (0xE80000A0, .fenceRel 4),
    (0xE9310559, .waitne 6 4 2 5 1 4 1),
    (0xEA000020, .bar 4),
    (0xEA300060, .barw 6 4),
    (0xEA3000A0, .barq 6 4),
    (0xEB300003, .qpoll 6 3),
    (0xEB010443, .qsend 4 2 3),
    (0xEB010483, .qsendd 4 2 3),
    (0xEC310543, .spawn 6 4 2 5 3),
    (0xED310409, .callat 6 4 2 9),
    (0xEE000000, .quit),
    (0xEF010000, .slott 4)] = true := by decide

theorem test_words_matrix : decodes 32 [
    (0xF001056A, .mlda 4 2 5 21),
    (0xF009056A, .mldb 4 2 5 21),
    (0xF0110154, .mtbl 4 5 10),
    (0xF1310554, .mma 6 4 2 5 10),
    (0xF2000000, .mpass),
    (0xF2010040, .mwait 4),
    (0xF2310080, .mpoll 6 4),
    (0xF20000C2, .mzero 2),
    (0xF3010554, .mstacc 4 2 5 10),
    (0xF4310540, .mcmd 6 4 2 5),
    (0xF5300020, .cpy 6 4),
    (0xF5310060, .cpyc 6 4 4),
    (0xF5010080, .cpyw 4),
    (0xF53100C0, .cpyq 6 4),
    (0xF6010029, .gcon 4 41),
    (0xF6300069, .gres 6 41),
    (0xF63100A9, .barmax 6 4 41),
    (0xF7310400, .fork 6 4 2),
    (0xF7000040, .choose),
    (0xF7000080, .abandon),
    (0xF73100E0, .dopen 6 4 4),
    (0xF7000100, .dclose),
    (0xF7300140, .vstat 6)] = true := by decide


/-! ### What R52 refuses: a word for each check -/

-- 0x06: the first halfword is 0x0000 or 0xFFFF.
theorem test_zero_halfword : refuses .halfword [0x00001234, 0xFFFF1234] = true := by decide

-- 0x01: h-opcodes 0x00 and 0x17, majors 0x15, 0x5B, 0x00 and 0x7F, fn 31 of major 0x01, fn 7 of major 0x18.
theorem test_ill_unassigned : refuses .unassigned
    [0x00010000, 0x5C000000, 0x95000000, 0xDB000000, 0x80000000, 0xFF000000, 0x8100001F, 0x980001C0] = true := by decide

-- 0x02: RES bits of ADD, SEL, NOP, JR, TRAP and QUIT.
theorem test_ill_reserved : refuses .operand
    [0x81310520, 0x82310421, 0x44010000, 0x4C820000, 0x9E040000, 0xEE000001] = true := by decide

/-- R52 refuses each instruction with the condition beside it. -/
def illFormed (l : List (Instr × Illegal)) : Bool := l.all fun x => illegalOf x.1 == some x.2 && !x.1.wellFormed

-- 0x02: `h` of a 32-bit shift; VLOOP n = 16; GANG codes 0 and 4; LD releasing, ST acquiring; a scope without an ordering;
-- SPILL class 6; scope 0 of BAR and DOPEN; QSEND to queues 5 and 7; QSENDD to 5; SPAWN bound to 7; MLDA.bf16 with `b`.
theorem test_ill_operand : illFormed ([.shl 1 2 3 0 1 1, .shl 1 2 3 1 0 1, .vloop 16 1, .gang 0, .gang 4, .ld 1 2 1 2 9 1,
    .st 1 2 1 1 9 1, .ldc 1 2 1 3 1, .stc 1 2 1 1 1, .ld 1 2 1 0 9 1, .aadd 1 2 3 1 0 1 0, .waitne 1 2 3 1 2 1 0,
    .spill 1 2 1 6, .fill 1 2 1 7, .bar 0, .barw 1 0, .barq 1 0, .qsend 1 2 5, .qsend 1 2 7, .qsendd 1 2 5,
    .spawn 1 2 3 0 7, .mlda 1 2 1 10, .mldb 1 2 1 10].map (·, .operand)) = true := by decide

-- 0x03: a type outside each type group.
theorem test_ill_type : illFormed ([.fadd 1 2 3 7, .fadd 1 2 3 12, .frcp 2 4 8, .cvt 1 2 9 18, .cvtf 1 2 18 9, .frnd 1 2 9 10,
    .frnd 1 2 2 2, .faddV 1 2 3 17 0, .fexp2V 1 2 8 0, .fcmpV 0 1 2 3 2 0, .cvtV 1 2 19 9 0, .frndV 1 2 9 11 0, .vredAdd 2 1 10 0,
    .vredXor 2 1 9 0, .pack 1 2 3 2 0, .vlut 1 2 9 0, .ld 1 2 1 0 14 0, .ldImm 1 1 18 0, .stImm 1 1 31 0, .fst 1 2 1 0 2 0,
    .fstImm 1 1 0 0, .vld 1 2 1 0 16, .vgath 1 2 1 0 14, .mxld 1 2 4 1 20, .mxres 1 2 4 1 18, .mxnorm 1 1 21,
    .mlda 1 0 1 2, .mtbl 1 1 9, .mma 1 2 0 1 14, .mstacc 1 0 1 12].map (·, .type)) = true := by decide

-- 0x04: scope codes 6 and 7.
theorem test_ill_scope : illFormed ([.fence 6, .fenceAcq 7, .fenceRel 6, .bar 6, .barw 1 7, .barq 1 6, .ld 1 2 1 1 9 6,
    .st 1 2 1 2 9 7, .ldc 1 2 1 1 6, .aadd 1 2 3 1 3 7 0, .waitne 1 2 3 1 1 6 0, .cpy 1 6, .cpyc 1 2 7,
    .dopen 1 2 6].map (·, .scope)) = true := by decide

-- 0x05: a source `s30`; a destination `s28` or `s29`; an odd pair and `d28`; `v16`; `k8`, `c8` and `e8` in five bits; a port in a
-- field that is read and written; message registers from `s0` or `s25`; an odd accumulator of a 64-bit type.
theorem test_ill_register : illFormed ([.add 28 1 2 0, .add 29 1 2 0, .add 1 30 2 0, .add 1 2 30 0, .add 3 4 6 1, .add 28 4 6 1,
    .clz 2 3 1, .shl 1 2 30 0 0 0, .addShort 28 1, .addShort 30 1, .liShort 29 0, .bzShort 30 0, .emovShort 8 1, .sel 1 2 3 30,
    .lih 30 0, .eli 8 0, .emovFromE 1 8, .loop 28 0, .cinc 8 1 2, .cbase 1 8, .time 3, .twait 28, .fadd 1 2 4 8, .ffma 28 1 2 9,
    .cvt 3 4 9 8, .tailset 30 1 2, .faddV 16 1 2 9 0, .vrot 1 2 30 0, .vredAdd 3 1 3 0, .ldImm 28 1 9 0, .stImm 30 1 9 0,
    .vldImm 16 1 9 0, .spill 28 1 1 0, .spill 3 1 1 1, .spill 8 1 1 4, .acas 28 1 2 1 0 0 0, .mxld 1 2 3 1 19, .barw 30 1,
    .qpoll 28 0, .qsend 1 0 0, .qsend 1 25 0, .qsendd 1 16 0, .slott 16, .mma 1 2 1 1 8].map (·, .register)) = true := by decide

-- 0x01 once more: the hint space has no `h` of 7.
theorem test_ill_hint : illFormed [(.hint 7 0, .unassigned)] = true := by decide

/-! ### Single steps -/

/-- Registers with scalars set. -/
def regsOf (l : List (BitVec 5 × Word)) : Regs := l.foldl (fun r x => r.setVal x.1 x.2) Regs.initial

/-- A thread of tenant 7, READY in slot 2 of core 5, with the given registers. The tenant owns the lower half of the core's
local memory and every right in the GLOBAL region at 0, whose line 32 is held. -/
def thread (r : Regs) : Slot := { Slot.initial with home := 5, state := .ready, tenant := 7, regs := r }

/-- The core of that thread. -/
def core5 (t : Slot) : Core :=
  { (Core.initial 5).setSlot 2 t with parts := [⟨7, 0, 0x8000, 0⟩], plb := [⟨false, 7, 0, 0xF⟩] }

/-- The machine with that core, its package and the core's slot 2 as the issuing thread. -/
def machine (k : Core) (p : Package) : State :=
  { State.reset with curCore := 5, curSlot := 2, cores := [(5, k)], pkgs := [(0, p)] }

/-- The machine with a thread's registers. -/
def running (r : Regs) : State := machine (core5 (thread r)) { Package.initial with l2 := [32] }

/-- The state after an instruction. -/
def ran (i : Instr) (s : State) : State :=
  match exec i s with
  | .next t => t
  | _ => State.reset

/-- A capability to the first 4 KiB of local memory, with every permission of data. -/
def localCap : Cap := Cap.make true 7 0 0x1F 0x1000 0

/-- A capability to the GLOBAL line 32. -/
def lineCap : Cap := Cap.make true 7 2 0x1F 0x80 0x1000

-- R13, R14, R16: the worked example of core 2 of row 9, column 14, die 5, package 1,027, slot 6, generation 0xA3.
theorem test_names : chainPos 0x0201D4BA = 1222 ∧ threadName 0x0201D4BA 6 0xA3 = 0x0000051E0201D4BA := by decide

-- R250, R255, R256: the worked example of the address 0x0000_0802_0000_1A80.
theorem test_home : homePkg 0x0000080200001A80 = 4 ∧ homePos 0x0000080200001A80 = 3 ∧ homeSlice 0x0000080200001A80 = 104 := by
  decide

-- R98.
theorem test_kg : kg 0 0 0 = 0x5993E771 ∧ kg 0 1 0 = 0xC5F31C5E ∧ kg 0x123456 7 3 = 0xBB071012 := by decide

-- R107: wrap-around sums, the high product of the most negative word, and INT_MIN / -1.
theorem test_add_wraps : (ran (.add 3 1 2 0) (running (regsOf [(1, 0xFFFFFFFF), (2, 2)]))).regs.val 3 = 1 := by decide
theorem test_add_pair : (ran (.add 4 2 6 1) (running (regsOf [(2, 0xFFFFFFFF), (6, 1)]))).regs.pair 4 = 0x100000000 := by decide
theorem test_mulh : (ran (.mulh 3 1 1 0) (running (regsOf [(1, 0x80000000)]))).regs.val 3 = 0x40000000 := by decide
theorem test_div_overflow : (ran (.div 3 1 2 0) (running (regsOf [(1, 0x80000000), (2, 0xFFFFFFFF)]))).regs.val 3 = 0x80000000 := by
  decide
theorem test_div_zero :
    let r := (ran (.div 3 1 2 0) (running (regsOf [(1, 5)]))).regs
    r.val 3 = 0xFFFFFFFF ∧ r.tst = 8 := by decide
theorem test_rem_sign : (ran (.rem 3 1 2 0) (running (regsOf [(1, 0xFFFFFFF9), (2, 2)]))).regs.val 3 = 0xFFFFFFFF := by decide
theorem test_sar : (ran (.sar 3 1 2 0 0 0) (running (regsOf [(1, 0x80000000), (2, 33)]))).regs.val 3 = 0xC0000000 := by decide
theorem test_rol_pair : (ran (.rol 4 2 1 1 1 1) (running (regsOf [(2, 0x80000000)]))).regs.pair 4 = 1 := by decide
theorem test_clz_zero : (ran (.clz 3 1 0) (running (regsOf []))).regs.val 3 = 32 := by decide
theorem test_lih : (ran (.lih 3 0x3FFFF) (running (regsOf [(3, 0x1234)]))).regs.val 3 = 0xFFFFD234 := by decide

-- R20: `s0` takes no write; R26: a long instruction is 4 bytes.
theorem test_zero_register :
    let r := (ran (.addi 0 0 5) (running (regsOf []))).regs
    r.val 0 = 0 ∧ r.pc = 4 := by decide

-- R62, R113, R115: a backward branch from its own address, and a `LOOP` that ends.
theorem test_branch_back : (ran (.blt 1 2 0x3FFF) (running { regsOf [(1, 0xFFFFFFFF)] with pc := 100 })).regs.pc = 98 := by decide
theorem test_loop_ends :
    let r := (ran (.loop 1 0x3FFF) (running { regsOf [(1, 1)] with pc := 100 })).regs
    r.pc = 104 ∧ r.val 1 = 0 := by decide

-- R112, R291, R292: an odd jump target faults at the jump.
theorem test_odd_jump :
    let t := (ran (.jlr 1) (running { regsOf [(1, 0x33)] with pc := 0x10 })).me
    t.state = .parked ∧ t.faultPc = 0x10 ∧ t.faultCause = 0x02020000 ∧ t.faultAddr = 0x33 ∧ t.regs.val 31 = 0 := by decide

-- R117, R246, R247: the worked example of `CINC`, `CSETB`, `CAND`, `CPERM`, `CLEN` and `CBASE`.
def exampleCap : Cap := ⟨true, 0x000747C0000000100000004000000000⟩

theorem test_cap_fields : exampleCap.base = 0x4000000000 ∧ exampleCap.len = 0x10000 ∧ exampleCap.perm = 0x1F ∧
    exampleCap.space = 2 ∧ exampleCap.dom = 7 := by decide

theorem test_cinc :
    let c := (ran (.cinc 3 2 6) (running ((regsOf [(6, 0x400)]).setCap 2 exampleCap))).regs.cap 3
    c.base = 0x4000000400 ∧ c.len = 0xFC00 ∧ c.tag = true := by decide

theorem test_cperm : (ran (.cperm 9 3) (running (Regs.initial.setCap 3 (Cap.make true 7 2 0x1D 0x100 0x4000000400)))).regs.val 9 =
    0x00070A1D := by decide

theorem test_widen :
    let t := (ran (.csetb 4 3 6) (running ((regsOf [(6, 0x400)]).setCap 3 (Cap.make true 7 2 0x1D 0x100 0x4000000400)))).me
    t.faultCause = 0x03050000 ∧ t.faultAddr = 0 ∧ t.regs.cap 4 = nullCap := by decide

-- R157, R248: the worked example of `LD.n32` through the derived capability: bounds before alignment, and a foreign domain.
theorem test_bounds :
    let t := (ran (.ld 5 6 3 0 6 0) (running ((regsOf [(6, 0xFE)]).setCap 3 (Cap.make true 7 2 0x1D 0x100 0x4000000400)))).me
    t.faultCause = 0x03040000 ∧ t.faultAddr = 0x00000040000004FE := by decide

theorem test_domain :
    let t := (ran (.ld 5 6 3 0 6 0) (running ((regsOf [(6, 0xFC)]).setCap 3 (Cap.make true 9 2 0x1D 0x100 0x4000000400)))).me
    t.faultCause = 0x03080000 := by decide

-- R124, R34, R37, R121, R122.
theorem test_trap :
    let t := (ran (.trap 0x123) (running (regsOf []))).me
    t.faultCause = 0x10000000 ∧ t.faultAddr = 0x123 ∧ t.state = .parked := by decide
theorem test_getc_tslot :
    (ran (.getc 3 3) (machine (core5 { thread (regsOf []) with gen := 0xA3, stage := 9, bound := 4 }) Package.initial)).regs.val 3 =
      0x0009251A := by decide
theorem test_setc_reserved : (ran (.setc 1 0) (running (regsOf [(1, 0xFFFFFFF5)]))).regs.fcr = 0xFFFFFF15 := by decide
theorem test_setc_mode7 : (ran (.setc 1 0) (running (regsOf [(1, 7)]))).me.faultCause = 0x0D000000 := by decide

-- R123: one nanosecond too late, and asleep until the time.
theorem test_twait_late :
    (ran (.twait 4) (machine (core5 (thread (regsOf [(4, 100)]))) { Package.initial with ptc := 4197 })).me.faultCause =
      0x0A000000 := by decide
theorem test_twait_sleeps :
    (ran (.twait 4) (machine (core5 (thread (regsOf [(4, 100)]))) { Package.initial with ptc := 99 })).me.wait = .deadline 100 := by
  decide

/-- The worked example of R125: slot 3, generation 0x41, PARKED, beside a thread that holds 0x20B in `s4`. -/
def parked (hcl : Bool) : State :=
  machine ((core5 { thread (regsOf [(4, 0x20B)]) with hcl := hcl }).setSlot 3
    { thread (regsOf []) with state := .parked, gen := 0x41, faultPc := 0x80 }) Package.initial

theorem test_fretry :
    let t := (ran (.fretry 4) (parked true)).slot 5 3
    t.state = .ready ∧ t.regs.pc = 0x80 ∧ t.gen = 0x41 := by decide
theorem test_fkill :
    let t := (ran (.fkill 4) (parked true)).slot 5 3
    t.state = .free ∧ t.gen = 0x42 := by decide
theorem test_fretry_class :
    let t := (ran (.fretry 4) (parked false)).me
    t.faultCause = 0x0C000000 ∧ t.faultAddr = 0x130 := by decide

/-! ### Numbers -/

-- R79, R82: 1 + 2^-24 + 2^-50 in `.f32`, then by RNE; and 1 + 2^-24 itself.
theorem test_round_odd :
    fmtF32.ro (.fin false (2 ^ 50 + 2 ^ 26 + 1) (-50)) 0 = ⟨0x3F800000, 3, 0⟩ ∧
    fmtF32.ro (.fin false (2 ^ 24 + 1) (-24)) 0 = ⟨0x3F800000, 2, 0⟩ := by decide
theorem test_final :
    (finalTo (.flt fmtF32) (.flt fmtF32) 9 0 0 ⟨0x3F800000, 3⟩).bits = 0x3F800001 ∧
    (finalTo (.flt fmtF32) (.flt fmtF32) 9 0 0 ⟨0x3F800000, 2⟩).bits = 0x3F800000 := by decide

-- The chain example: CVT.bf16.f32 of 1 + 2^-8 with tail 01, then CVTF.bf16.bf16 under RNE.
theorem test_cvt_chain :
    cvtTo (.flt fmtF32) (.flt fmtBf16) ⟨0x3F808000, 1⟩ = ⟨0x3F80, 3, 0⟩ ∧
    finalTo (.flt fmtBf16) (.flt fmtBf16) 10 0 0 ⟨0x3F80, 3⟩ = ⟨0x3F81, 0, fNX⟩ := by decide

-- R99: the stochastic CVTF.i8.f64.
theorem test_cvtf_sr : finalTo (.flt fmtF64) (.int true 8) 0 5 0 ⟨0x4005FFFF4005FFFF, 0⟩ = ⟨3, 0, fNX⟩ := by decide

-- R101: CVTF.bf16.f32 under RTZ and under RNE, with `fcr` 1 and 0.
theorem test_cvtf_rtz :
    (ran (.cvtf 5 6 9 10) (running { (Regs.initial.put 6 ⟨0x3F808000, 1⟩) with fcr := 1 })).regs.val 5 = 0x3F80 := by decide
theorem test_cvtf_rne :
    let r := (ran (.cvtf 5 6 9 10) (running (Regs.initial.put 6 ⟨0x3F808000, 1⟩))).regs
    r.val 5 = 0x3F81 ∧ r.tst = 1 := by decide

-- R80, R107 and R133: infinity less infinity; one divided by zero; the root of four.
theorem test_fsub_infinities :
    let r := (ran (.fsub 3 1 1 9) (running (regsOf [(1, 0x7F800000)]))).regs
    r.val 3 = 0x7FC00000 ∧ r.tst = 0x10 := by decide
theorem test_fdiv_zero :
    let r := (ran (.fdiv 3 1 2 9) (running (regsOf [(1, 0xBF800000)]))).regs
    r.val 3 = 0xFF800000 ∧ r.tst = 8 := by decide
theorem test_fsqrt :
    (ran (.fsqrt 3 1 9) (running (regsOf [(1, 0x40800000)]))).regs.get 3 = ⟨0x40000000, 0⟩ := by decide +kernel

-- R138: the exact cases 1 / 2, 2^-3, log2 8, sin π/2 and 1 / √4.
theorem test_frcp : (ran (.frcp 3 1 9) (running (regsOf [(1, 0x40000000)]))).regs.get 3 = ⟨0x3F000000, 0⟩ := by decide
theorem test_fexp2 : (ran (.fexp2 3 1 9) (running (regsOf [(1, 0xC0400000)]))).regs.get 3 = ⟨0x3E000000, 0⟩ := by decide
theorem test_flog2 :
    (ran (.flog2 3 1 9) (running (regsOf [(1, 0x41000000)]))).regs.get 3 = ⟨0x40400000, 0⟩ := by decide
theorem test_fsin : (ran (.fsin 3 1 9) (running (regsOf [(1, 0x3F000000)]))).regs.get 3 = ⟨0x3F800000, 0⟩ := by decide
theorem test_frsq : (ran (.frsq 3 1 9) (running (regsOf [(1, 0x40800000)]))).regs.get 3 = ⟨0x3F000000, 0⟩ := by decide

-- R135, R137.
theorem test_fcmp_tail :
    (ran (.fcmp 3 1 2 9) (running ((Regs.initial.put 1 ⟨0x3F800000, 2⟩).put 2 ⟨0x3F800000, 0⟩))).regs.val 3 = 4 := by decide
theorem test_fclass : (ran (.fclass 3 1 9) (running (regsOf [(1, 0x80000001)]))).regs.val 3 = 4 := by decide

/-- A vector register of one element. -/
def lanes (x : Elem) : Vector Elem 8 := Vector.replicate 8 x

-- The worked examples: a masked sum of ones, and the sum of 1 and 2^-24 compared with 1.
theorem test_faddV_mask :
    let r := (ran (.faddV 2 3 4 9 5) (running (((Regs.initial.setVec 3 (lanes ⟨0x3F800000, 0⟩)).setVec 4
      (lanes ⟨0x3F800000, 0⟩)).setMask 5 5))).regs
    r.lane 2 0 = ⟨0x40000000, 0⟩ ∧ r.lane 2 1 = Elem.zero ∧ r.lane 2 2 = ⟨0x40000000, 0⟩ ∧ r.lane 2 7 = Elem.zero := by decide
theorem test_faddV_tail :
    (ran (.faddV 8 0 4 9 0) (running ((Regs.initial.setVec 0 (lanes ⟨0x3F800000, 0⟩)).setVec 4
      (lanes ⟨0x33800000, 0⟩)))).regs.lane 8 7 = ⟨0x3F800000, 2⟩ := by decide
theorem test_fcmpV :
    (ran (.fcmpV 0 2 8 0 9 0) (running ((Regs.initial.setVec 8 (lanes ⟨0x3F800000, 2⟩)).setVec 0
      (lanes ⟨0x3F800000, 0⟩)))).regs.mask 2 = 0 := by decide
theorem test_vrot :
    (ran (.vrot 1 2 3 0) (running ((regsOf [(3, 9)]).setVec 2 (Vector.ofFn fun i => ⟨BitVec.ofNat 32 i.val, 0⟩)))).regs.lane 1 0 =
      ⟨7, 0⟩ := by decide
theorem test_vred_empty : (ran (.vredMin 3 1 2 1) (running Regs.initial)).regs.val 3 = 0x7FFFFFFF := by decide
theorem test_rndkV :
    (ran (.rndkV 1 2 0 0) (running (Regs.initial.setVec 2 (lanes ⟨1, 0⟩)))).regs.lane 1 5 = ⟨0xC5F31C5E, 0⟩ := by decide

/-! ### Storage, atomics and blocks -/

/-- A thread whose `c1` is local and whose `c2` is line 32, with bytes written to the local memory and to GLOBAL memory. -/
def holding (r : Regs) (loc glob : List (Nat × List Byte)) : State :=
  let k := core5 (thread ((r.setCap 1 localCap).setCap 2 lineCap))
  { machine { k with loc := loc.foldl (fun m x => m.writeN x.1 x.2) k.loc } { Package.initial with l2 := [32] } with
    mem := glob.foldl (fun m x => m.writeN x.1 x.2) ([] : Memory) }

-- R162, R76, R5: a signed byte and an unsigned halfword, little-endian; the last word of the capability.
theorem test_ld_signed :
    (ran (.ldImm 3 1 0 1) (holding Regs.initial [(1, [0x80])] [])).regs.get 3 = ⟨0xFFFFFF80, 0⟩ := by decide
theorem test_ld_unsigned :
    (ran (.ld 3 4 1 0 5 0) (holding (regsOf [(4, 0xFFE)]) [(0xFFE, [0x34, 0xF2])] [])).regs.val 3 = 0xF234 := by decide
-- R163: a store drops the tail and raises `td`.
theorem test_st_tail :
    let t := ran (.stImm 3 1 9 0) (holding (Regs.initial.put 3 ⟨0x11223344, 3⟩) [] [])
    (t.core 5).loc.readN 0 4 = [0x44, 0x33, 0x22, 0x11] ∧ t.regs.tst = 0x20 := by decide
-- R157: 4 bytes at offset 0xFFE run past the end.
theorem test_ld_bounds : (ran (.ld 3 4 1 0 6 0) (holding (regsOf [(4, 0xFFE)]) [] [])).me.faultCause = 0x03040000 := by decide
-- R162: the same through the GLOBAL line.
theorem test_st_global :
    let t := ran (.stImm 3 2 5 1) (holding (regsOf [(3, 0xABCD1234)]) [] [])
    t.mem.readN 0x1000 6 = [0, 0, 0x34, 0x12, 0, 0] := by decide
-- R165, R246: a capability goes to memory with its tag and comes back with it.
theorem test_stc :
    let t := ran (.stc 1 0 1 0 0) (holding Regs.initial [] [])
    (t.core 5).ltags = [0] ∧ (ran (.ldc 3 0 1 0 0) { t with curSlot := 2, curCore := 5 }).regs.cap 3 = localCap := by decide
-- R164: a masked vector load of words at stride -4.
theorem test_vls :
    let r := (((regsOf [(4, 8)]).setExt 1 0xFFFFFFFC).setMask 1 0x05)
    let t := (ran (.vlds 2 4 1 1 6 1) (holding r [(0, [1]), (8, [2])] [])).regs
    t.lane 2 0 = ⟨2, 0⟩ ∧ t.lane 2 1 = Elem.zero ∧ t.lane 2 2 = ⟨1, 0⟩ := by decide
-- R166, R60: the image of a pair holds both values and then both tails.
theorem test_spill_fill :
    let t := ran (.spill 2 0 1 1) (holding ((Regs.initial.put 2 ⟨7, 1⟩).put 3 ⟨9, 2⟩) [] [])
    let u := ran (.fill 4 0 1 1) { t with curSlot := 2, curCore := 5 }
    u.regs.get 4 = ⟨7, 1⟩ ∧ u.regs.get 5 = ⟨9, 2⟩ := by decide

-- R168: the old value and the new one; a failed compare writes nothing.
theorem test_aadd :
    let t := ran (.aadd 3 0 4 1 0 0 0) (holding (regsOf [(4, 2)]) [(0, [0xFF, 0xFF, 0xFF, 0xFF])] [])
    t.regs.val 3 = 0xFFFFFFFF ∧ (t.core 5).loc.readN 0 5 = [1, 0, 0, 0, 0] := by decide
theorem test_acas :
    let t := ran (.acas 3 0 4 1 0 0 0) (holding (regsOf [(3, 6), (4, 2)]) [(0, [5])] [])
    t.regs.val 3 = 5 ∧ (t.core 5).loc.readN 0 1 = [5] := by decide
theorem test_amax_signed :
    let t := ran (.amaxSigned 3 0 4 1 0 0 0) (holding (regsOf [(4, 1)]) [(0, [0, 0, 0, 0x80])] [])
    (t.core 5).loc.readN 0 4 = [1, 0, 0, 0] := by decide

-- R177: `WAITNE` of the example completes on 1 and sleeps on 0 with a monitor at the word.
theorem test_waitne_completes :
    (ran (.waitne 5 6 0 1 1 4 0) (holding (regsOf [(6, 0x100)]) [(0x100, [1])] [])).regs.val 5 = 1 := by decide
theorem test_waitne_sleeps :
    let t := ran (.waitne 5 6 0 1 1 4 0) (holding (regsOf [(6, 0x100)]) [] [])
    t.me.wait = .monitor ∧ t.monitors.map (·.addr) = [0x100] := by decide

/-- The block of the worked example of R172: `v4` and `d5` beside the joined line. -/
def blockState : State :=
  holding ((regsOf [(11, 0x7F)]).setVec 4 ((Vector.replicate 8 Elem.zero).set 0 ⟨0x186C, 0⟩)) []
    [(0x1000, [0x7C, 0x38, 0x80]), (0x1060, [0x7F]), (0x107E, [0x13])]

theorem test_mxacc :
    let m := (ran (.mxacc 4 6 10 2 19 0) blockState).mem
    m.readN 0x1000 3 = [0x77, 0x31, 0x00] ∧ m.read 0x1060 = 0x80 ∧ m.read 0x1066 = 0x02 := by decide
-- R169: another format tag.
theorem test_mx_tag :
    (ran (.mxld 4 6 10 2 19) { blockState with mem := blockState.mem.write 0x107E 0x12 }).me.state = .parked := by decide

/-! ### Barriers, threads and coding -/

/-- Core 5 with a stage 3 of tenant 7, whose input queue is 2 and whose entry is at 0x40, and a keep area of 4 KiB. -/
def stageCore (t : Slot) : Core :=
  { core5 t with stages := (core5 t).stages.set 3 { Stage.empty with bits := 0x4080400000, tenant := 7 }, kc := 1 }

-- R180: `BARW` with a phase already past.
theorem test_barw :
    (ran (.barw 5 3) ((running (regsOf [(5, 7)])).setBarrier { ((running (regsOf [])).barrier 7 3 (instanceOf 3 5)) with
      phase := 9 })).regs.val 5 = 9 := by decide
-- R183: two entries into a queue of the thread's own core.
theorem test_qsendd :
    let t := ran (.qsendd 3 0 1) (machine (stageCore (thread (regsOf [(3, 5)]))) Package.initial)
    ((t.core 5).queue 1).entries.length = 2 := by decide
-- R41, R187: `QUIT` frees the slot under its next generation.
theorem test_quit :
    let t := (ran .quit (machine (core5 { thread Regs.initial with gen := 0xFF }) Package.initial)).slot 5 2
    t.state = .free ∧ t.gen = 0 ∧ t.tenant = 0 := by decide
-- R185: `CALLAT` of a stage that the tenant holds, and of one that it does not.
theorem test_callat_queue :
    let t := ran (.callat 5 3 8 3) (machine (stageCore (thread (regsOf [(3, 5)]))) Package.initial)
    t.regs.val 5 = 0 ∧ ((t.core 5).queue 2).entries.length = 1 := by decide
theorem test_callat : (ran (.callat 5 3 8 3) (running (regsOf [(3, 5)]))).regs.val 5 = 3 := by decide
-- R199: `MCMD` with a capability without tag.
theorem test_mcmd : (ran (.mcmd 5 3 0 1) (running (regsOf [(3, 5)]))).regs.val 5 = 0x80000001 := by decide
-- R217: `FORK` of the worked example: two rivals in the quad's FREE slots, each with its number in `s5`.
theorem test_fork :
    let t := ran (.fork 5 6 7) (machine (stageCore (thread (regsOf [(6, 0x10002), (7, 0x200)]))) Package.initial)
    t.me.state = .sleep ∧ ((t.slot 4 0).regs.val 5, (t.slot 4 0).inWorld, (t.slot 4 1).regs.val 5) = (0, true, 1) := by decide

-- R268, R271: the worked example of the check bytes of d0 = 0x11 and d3 = 0x80, and of their rebuilding.
theorem test_checks :
    gfMul 0x08 0x80 = 0x74 ∧ checkShare true 3 [0x80] = [0x74] ∧ checkShare false 3 [0x80] = [0x80] ∧
      gfMul (gfInv (gfShift 0 1 ^^^ gfShift 3 1)) 0xF4 = 0x80 := by decide

/-! ### Steps -/

-- R26, R57: the first step after a load runs the word it placed; the same for a halfword.
theorem test_first_step :
    (match step (State.reset.withFetchWord 32 0x84401388) with
     | .next t => some ((t.slot 0 0).regs.val 8)
     | _ => none) = some 5000 := by decide
theorem test_first_step_short :
    (match step (State.reset.withFetchWord 16 0x4400) with
     | .next t => some (t.slot 0 0).regs.pc
     | _ => none) = some 2 := by decide

-- R280, R281: the stage with one entry fires into slot 0 with its peg in `s1` to `s4`.
theorem test_firing :
    let s := machine ((stageCore (thread Regs.initial)).setQueue 2 ⟨[⟨entryOf 1 2 3 4, none⟩], 0⟩) Package.initial
    let t := ran (.stageFiring 5 3) s
    (t.slot 5 0).state = .ready ∧ (t.slot 5 0).regs.pc = 0x40 ∧ (t.slot 5 0).regs.val 4 = 4 ∧
      ((t.core 5).queue 2).entries = [] := by decide

/-! ### Witnesses

For each statement with hypotheses, states and operands that meet them, clause by clause, at the edges of their ranges. -/

/-- The machine with a thread's slot record. -/
def atSlot (t : Slot) : State := machine (core5 t) { Package.initial with l2 := [32] }

/-- A view: a rival's, of world 3 with a window at 0x200, or a domain's. -/
def viewOf (n : Nat) (rival : Bool) : View :=
  ⟨n, rival, 5, 0, 0, 0, Regs.initial, [], none, [], none, false, none, 3, 0, 0x200, if rival then 16 else 0, [], []⟩

/-- Registers whose read ports hold a word each and whose `qdn` holds three. -/
def ported : Regs := { regsOf [(1, 0xFFFFFFFF), (2, 0x80000000), (3, 1), (5, 1)] with qrx := [1], qup := [2], qdn := [3, 4, 5] }

/-- The only hypothesis of IntegerArithmeticAndComparisons, IntegerDivision, IntegerShiftsAndCounts, ShortFormsAndImmediates,
and of the branches of ControlTransfers and most vector statements, is that the ports named are ready: here all are,
whatever the operands, and `qdn` is about to fill. -/
theorem witness_ports : ∀ srcs dsts, (running ported).portsReady srcs dsts := fun _ _ =>
  ⟨fun _ => by decide, fun _ => by decide, fun _ => by decide⟩

/-- The edge of a rival's `qdn`: two words in it. -/
theorem witness_ports_rival : (atSlot { thread { Regs.initial with qdn := [1, 2] } with
    views := [viewOf 1 true] }).portsReady [] [30] := ⟨by decide, by decide, by decide⟩

/-- ControlTransfers: an even target, and an odd one in a thread that does not follow and in one that follows; branches in the
former. -/
theorem witness_targets :
    ((running ported).regs.val 2).toNat % 2 = 0 ∧ ((running ported).regs.val 1).toNat % 2 = 1 ∧ (running ported).me.state ≠ .follow ∧
    ((atSlot { thread ported with state := .follow }).regs.val 1).toNat % 2 = 1 ∧
    (atSlot { thread ported with state := .follow }).me.state = .follow := by decide

/-- CapabilityDerivation, CapabilitiesOnlyNarrow: the whole length, one byte more, and capabilities that end below the top. -/
theorem witness_derivation :
    let s := running ((regsOf [(1, 0x1000), (2, 0x1001)]).setCap 1 localCap)
    (s.regs.val 1).toNat ≤ (s.regs.cap 1).len ∧ (s.regs.cap 1).len < (s.regs.val 2).toNat ∧
    ∀ n, (s.regs.cap n).base + (s.regs.cap n).len < 2 ^ 52 := by decide
theorem witness_narrow :
    let s := running ((regsOf [(1, 0x1000)]).setCap 1 localCap)
    let top := running ((regsOf [(1, 0x1000)]).setCap 1 (Cap.make true 7 2 0x1F 0x1000 (2 ^ 52 - 0x1000)))
    (∀ n, (top.regs.cap n).base + (top.regs.cap n).len ≤ 2 ^ 52) ∧ (top.regs.cap 1).base + (top.regs.cap 1).len = 2 ^ 52 ∧
    (∃ t, exec (.csetb 2 1 1) s = .next t) ∧ ∃ t, exec (.cinc 2 1 1) top = .next t := ⟨by decide, by decide, ⟨_, rfl⟩, ⟨_, rfl⟩⟩

/-- ControlRegisters: a handler that reads its own record, a compute thread's and an empty slot's; the numbers at the edges of
what R34 lists; a mode of 7 and one of 6. -/
theorem witness_control :
    let s := (atSlot { thread (regsOf [(1, 7), (2, 6)]) with hcl := true }).setSlot 5 3
      { Slot.initial with state := .parked, tenant := 7 }
    s.me.hcl = true ∧ (∀ n, (s.core s.home).seqBusy n = false) ∧
    (s.slot s.home 3).state = .parked ∧ (s.slot s.home 3).tenant = s.me.tenant ∧ ¬(s.home = s.curCore ∧ (3 : Fin 8) = s.curSlot) ∧
    ¬((s.slot s.home 0).state = .parked ∧ (s.slot s.home 0).tenant = s.me.tenant) ∧
    (∀ n ∈ [(4#9).toNat, (0xFF#9).toNat, (0x106#9).toNat, (0x180#9).toNat], n ∉ [0, 1, 2, 3, 8, 0x10, 0x11, 0x12, 0x13] ∧
      (n < 0x100 ∨ 0x180 ≤ n ∨ 5 < n % 16)) ∧
    (∀ n ∈ [(0x100#9).toNat, (0x175#9).toNat], 0x100 ≤ n ∧ n < 0x180 ∧ n % 16 ≤ 5) ∧ (running ported).me.hcl = false ∧
    (s.regs.val 1).toNat % 8 = 7 ∧ (s.regs.val 2).toNat % 8 ≠ 7 := by decide

/-- TimeAndTrap: at the time, 4,096 after it, 4,097 after it, and 1 before it. -/
theorem witness_time :
    let s := machine (core5 (thread (regsOf [(2, 5000), (4, 904), (6, 903), (8, 5001)]))) { Package.initial with ptc := 5000 }
    let now := (s.pkg (s.curCore / 2 ^ 15)).ptc.toNat
    let T (d : BitVec 5) : Nat := (s.regs.pair d).toNat
    (T 2 ≤ now ∧ now ≤ T 2 + 4096) ∧ (T 4 ≤ now ∧ now ≤ T 4 + 4096) ∧ T 6 + 4096 < now ∧ now < T 8 ∧ s.me.state ≠ .follow := by
  decide

/-- A core that binds handler stages of tenant 7, with `n` entries in queue 7. -/
def handlerCore (n : Nat) (t : Slot) : Core :=
  { core5 t with
    stages := (core5 t).stages.set 1 { Stage.empty with bits := 0xC0E00000, tenant := 7 } }.setQueue 7
    ⟨List.replicate n ⟨0, none⟩, 0⟩

/-- TakingAFault: each reason for the service OS alone, and none with queue 7 short of full, full, and open behind the peg
of a lower slot. -/
theorem witness_fault :
    let s (n : Nat) (t : Slot) : State := machine (handlerCore n t) Package.initial
    let service (s : State) (cls : BitVec 8) : Prop :=
      cls = 0x04 ∨ cls = 0x0F ∨ (s.core s.curCore).handlerTenant ≠ some s.me.tenant ∨ s.me.hcl = true
    let fill (s : State) : Nat := ((s.core s.curCore).queue 7).entries.length + ((s.core s.curCore).queue 7).reserved
    (∀ n ∈ [15, 16], ((s n (thread ported)).core 5).seqBusy 2 = false) ∧
    service (s 0 (thread ported)) 0x04 ∧ service (s 0 (thread ported)) 0x0F ∧
    service (s 0 { thread ported with tenant := 8 }) 1 ∧ service (s 0 { thread ported with hcl := true }) 1 ∧
    ¬service (s 15 (thread ported)) 1 ∧ fill (s 15 (thread ported)) < 16 ∧
    ¬service (s 16 (thread ported)) 1 ∧ 16 ≤ fill (s 16 (thread ported)) ∧
    (let p : FaultPeg := ⟨0, 0, 0x0B, 0, false, 0, 0, 1⟩
     let k := ((s 0 (thread ported)).setSlot 5 1 { thread Regs.initial with peg := some (.slot p) }).core 5
     (1 : Fin 8) < (s 0 (thread ported)).curSlot ∧ (k.slot 1).peg = some (.slot p) ∧ k.handlerTenant = some 7 ∧
       ∀ m : Fin 8, m < 2 → ((s 0 (thread ported)).slot 5 m).peg = none) := by decide

/-- HandlerInstructions: a thread that is no handler; a handler whose operand names another state, generation or tenant; and
one whose operand names a PARKED thread, with its code in the image. -/
theorem witness_handlers :
    let code : Package := { Package.initial with tenants := [Tenant.ofCode 7 [0x4400, 0x8129, 0x8E00]] }
    let s (o : Slot) : State := machine ((core5 { thread (regsOf [(4, 0x20B)]) with hcl := true }).setSlot 3 o) code
    let p : Slot := { thread Regs.initial with state := .parked, gen := 0x41 }
    let named (s : State) : Slot := s.slot s.home (Fin.ofNat 8 (s.regs.val 4).toNat)
    let gen (s : State) : BitVec 8 := BitVec.ofNat 8 ((s.regs.val 4).toNat / 8)
    (parked false).me.hcl = false ∧ (s p).me.hcl = true ∧
    (named (s { p with state := .ready })).state ≠ .parked ∧ (named (s { p with gen := 0x42 })).gen ≠ gen (s p) ∧
    (named (s { p with tenant := 8 })).tenant ≠ (s p).me.tenant ∧
    (named (s p)).state = .parked ∧ (named (s p)).gen = gen (s p) ∧ (named (s p)).tenant = (s p).me.tenant ∧
    (s p).codeHalf 0 (named (s p)) (named (s p)).faultPc = some 0x4400 ∧ (named (s p)).faultCause.toNat / 2 ^ 16 ≠ 0x0306 ∧
    (named (s { p with faultCause := 0x03060000 })).faultCause.toNat / 2 ^ 16 = 0x0306 := by decide

/-- FloatArithmeticAndSelection and FloatConversions: the first and last types that they cover; operands of each clause of
the special functions' table. RoundingToOdd: the overflow point of each format, and the magnitude just below it. -/
theorem witness_floats :
    tg1 8 = true ∧ tg1 11 = true ∧ tg2 9 = true ∧ tg2 11 = true ∧ tg3 0 = true ∧ tg3 17 = true ∧
    extendedValue 9 ⟨0x7FC00000, 0⟩ = .nan ∧ extendedValue 9 ⟨0xFF800000, 1⟩ = .inf true true ∧
    extendedValue 11 ⟨0x8000, 0⟩ = .fin true 0 (-26) ∧ extendedValue 10 ⟨0x3FC0, 0⟩ = .fin false 768 (-9) ∧
    ∀ f ∈ [fmtF64, fmtF32, fmtBf16, fmtF16], 0 < f.ov.1 - 1 ∧ magLe f.ov.1 f.ov.2 f.ov.1 f.ov.2 = true ∧
      magLe f.ov.1 f.ov.2 (f.ov.1 - 1) f.ov.2 = false := by decide

/-- VectorConversionsAndMoves, LoopsAndGangs: a thread outside a gang. VectorReductions: integer and floating-point types.
VectorElementsUnderMasks: a disabled and an enabled element, of a narrow and of a wide type. -/
theorem witness_vectors :
    (running ported).me.gang = 0 ∧ tyOf 2 = .int true 32 ∧ tyOf 7 = .int false 64 ∧ tyOf 8 = .flt fmtF64 ∧
    tyOf 13 = .flt (fmtOf 13) ∧ wide 8 = true ∧ wide 9 = false ∧ (0x81#8).getLsbD 7 = true ∧ (0x81#8).getLsbD 6 = false ∧
    (0x08#8).getLsbD (7 / 2) = true ∧ (5#5).toNat % 16 ≠ (20#5).toNat % 16 := by decide

/-- Four threads, each in slot 2 of a core of the group 4 to 7; those of the others wait at `GANG` of `g` members. -/
def ganging (g : Nat) (me : Slot) : State :=
  { machine (core5 me) Package.initial with cores := [4, 5, 6, 7].map fun c =>
      (c, if c = 5 then core5 me else (Core.initial c).setSlot 2 { thread Regs.initial with home := c, gangWait := g }) }

/-- LoopsAndGangs: sizes 2 and 8, a thread that is the last to issue `GANG`, one that is not, and a member. -/
theorem witness_gangs :
    let others (s : State) (g : Nat) : Prop := ∀ m ∈ List.range 8, m / g = s.curCore / g → m ≠ s.curCore →
      (s.slot m s.curSlot).state = .ready ∧ (s.slot m s.curSlot).gangWait = g ∧ (s.slot m s.curSlot).gang = 0 ∧
      (s.slot m s.curSlot).tenant = s.me.tenant
    1 ≤ (1#3).toNat ∧ (3#3).toNat ≤ 3 ∧ (ganging 2 (thread ported)).me.gang = 0 ∧ others (ganging 2 (thread ported)) 2 ∧
    others (ganging 4 (thread ported)) 4 ∧ ¬others (ganging 8 (thread ported)) 8 ∧
    (ganging 0 { thread ported with gang := 8 }).me.gang ≠ 0 := by decide

/-! #### Loads, stores and atomics -/

/-- The checks of an access that its capability decides, and those of LOCAL and GLOBAL memory, as tests. -/
def admitsOk (s : State) (c : Cap) (off : Int) (z align : Nat) (need : BitVec 7) (space : Nat) : Bool :=
  decide (c.tag = true ∧ c.dom = s.me.tenant ∧ c.space = space ∧ c.perm &&& need = need ∧ 0 ≤ off ∧ off + z ≤ c.len ∧
    (c.base + off.toNat) % align = 0)
def localOk (s : State) (core : Nat) : Bool :=
  decide ((s.pkg (pkgOf core)).fenced.contains (false, (s.pkg (pkgOf core)).coreDie (dieOf core)) = false ∧ s.saved core = false)
def grantOk (s : State) (c : Cap) (z : Nat) (need : BitVec 7) (a : Nat) (host : Bool) : Bool :=
  decide (0 < z ∧ a / 2 ^ 21 = (a + z - 1) / 2 ^ 21) &&
    ((s.core s.curCore).plbFind c.dom (a / 2 ^ 21) host).any fun e => e.rights &&& rightsFor need == rightsFor need
def lineOk (s : State) (z a : Nat) : Bool :=
  let p := s.pkg (homePkg a)
  decide (a / 128 = (a + z - 1) / 128 ∧ homePkg a = pkgOf s.curCore ∧ homePkg a < s.podSize ∧ p.l2.contains (lineOf a) = true ∧
    p.fenced.contains (true, p.baseDie (homePos a)) = false ∧ s.locked (lineOf a) = false ∧ p.inTransit (lineOf a) = false ∧
    p.rebuild.contains (lineOf a) = false ∧ look p.poison (lineOf a) = none ∧ s.lineServed (pkgOf s.curCore) s.curCore a = true)
def roomOk (s : State) (v a : Nat) : Bool :=
  ((s.pkg (pkgOf s.curCore)).needVersion v (lineOf a)).any fun p => p.setUsed (lineOf a) ≤ p.waysOf (lineOf a * 128)

theorem admits_of {s : State} {c : Cap} {off : Int} {z align space : Nat} {need : BitVec 7}
    (h : admitsOk s c off z align need space = true) : s.Admits c off z align need space :=
  have ⟨a, b, c, d, e, f, g⟩ := of_decide_eq_true h
  ⟨a, b, c, d, e, f, g⟩
theorem localServes_of {s : State} {core : Nat} (h : localOk s core = true) : s.LocalServes core :=
  have ⟨a, b⟩ := of_decide_eq_true h
  ⟨a, b⟩
theorem granted_of {s : State} {c : Cap} {z a : Nat} {need : BitVec 7} {host : Bool} (h : grantOk s c z need a host = true) :
    s.Granted c z need a host :=
  have ⟨x, y⟩ := Bool.and_eq_true_iff.mp h
  have ⟨e, he, hr⟩ := (Option.any_eq_true _ _).mp y
  ⟨(of_decide_eq_true x).1, (of_decide_eq_true x).2, e, he, beq_iff_eq.mp hr⟩
theorem lineServes_of {s : State} {z a : Nat} (h : lineOk s z a = true) : s.LineServes z a :=
  have ⟨a, b, c, d, e, f, g, h, i, j⟩ := of_decide_eq_true h
  ⟨a, b, c, d, e, f, g, h, i, j⟩
theorem room_of {s : State} {v a : Nat} (h : roomOk s v a = true) : s.VersionRoom v a :=
  have ⟨p, hp, hr⟩ := (Option.any_eq_true _ _).mp h
  ⟨p, hp, of_decide_eq_true hr⟩

/-- Whether an access is admitted at a place. -/
def atOk (s : State) (c : Cap) (off : Int) (z align : Nat) (need : BitVec 7) (p : Place) : Bool :=
  admitsOk s c off z align need p.space &&
  match p with
  | .own a => localOk s s.home && decide (a = (c.base + off.toNat) % 2 ^ 16 ∧ s.inPartition s.home c.dom a z = true ∧
      (∀ g ∈ granules a z, (s.core s.home).lpoison.contains g = false) ∧ s.me.inWorld = false)
  | .rival a => localOk s s.home && decide (a = (c.base + off.toNat) % 2 ^ 16 ∧ s.inPartition s.home c.dom a z = true ∧
      (∀ g ∈ s.keptWords s.me a z, (s.core s.home).lpoison.contains g = false)) && s.me.rivalView.any fun v => v.inWindow a z
  | .window k a => localOk s k && decide (a = (c.base + off.toNat) % 2 ^ 16 ∧ k = (c.base + off.toNat) / 2 ^ 16 % 2 ^ 26 ∧
      s.goodName k = true ∧ s.inPartition k c.dom a z = true ∧ (∀ g ∈ granules a z, (s.core k).lpoison.contains g = false) ∧
      s.routed (pkgOf s.curCore) (pkgOf k) = true ∧ s.pairServed s.curCore k = true ∧ (s.me.views = [] ∨ need = pRD))
  | .global a => grantOk s c z need a false && lineOk s z a && decide (a = c.base + off.toNat ∧ s.me.views = [])
  | .version v a => grantOk s c z need a false && lineOk s z a && decide (a = c.base + off.toNat ∧ s.me.chain.head? = some v ∧
      ((s.pkg (pkgOf s.curCore)).view v).any (fun r => !r.pz.contains (lineOf a)) = true ∧
      (s.pkg (pkgOf s.curCore)).versionPoisoned s.me.chain (lineOf a) = false ∧ (need.getLsbD 1 = true → roomOk s v a = true))
  | .host a => grantOk s c z need a true && decide (a = c.base + off.toNat ∧
      (s.pkg (pkgOf s.curCore)).host.state = .enabled ∧ s.pairServed s.curCore (hostAgent (pkgOf s.curCore)) = true ∧
      (s.me.views = [] ∨ need = pRD))
  | .ctrl a => decide (a = c.base + off.toNat ∧ (z = 4 ∨ z = 8) ∧ (s.me.views = [] ∨ need = pRD))

theorem at_of {s : State} {c : Cap} {off : Int} {z align : Nat} {need : BitVec 7} {p : Place}
    (h : atOk s c off z align need p = true) : s.At c off z align need p := by
  obtain ⟨adm, h⟩ := Bool.and_eq_true_iff.mp h
  have adm := admits_of adm
  cases p with
  | own a =>
    obtain ⟨l, h⟩ := Bool.and_eq_true_iff.mp h
    obtain ⟨a, b, c, d⟩ := of_decide_eq_true h
    exact ⟨adm, localServes_of l, a, b, c, d⟩
  | rival a =>
    obtain ⟨h, v⟩ := Bool.and_eq_true_iff.mp h
    obtain ⟨l, h⟩ := Bool.and_eq_true_iff.mp h
    obtain ⟨a, b, c⟩ := of_decide_eq_true h
    obtain ⟨v, hv, hw⟩ := (Option.any_eq_true _ _).mp v
    exact ⟨adm, localServes_of l, a, b, c, v, hv, hw⟩
  | window k a =>
    obtain ⟨l, h⟩ := Bool.and_eq_true_iff.mp h
    obtain ⟨a, b, c, d, e, f, g, h⟩ := of_decide_eq_true h
    exact ⟨adm, localServes_of l, a, b, c, d, e, f, g, h⟩
  | global a =>
    obtain ⟨h, d⟩ := Bool.and_eq_true_iff.mp h
    obtain ⟨g, l⟩ := Bool.and_eq_true_iff.mp h
    obtain ⟨a, b⟩ := of_decide_eq_true d
    exact ⟨adm, granted_of g, lineServes_of l, a, b⟩
  | version v a =>
    obtain ⟨h, d⟩ := Bool.and_eq_true_iff.mp h
    obtain ⟨g, l⟩ := Bool.and_eq_true_iff.mp h
    obtain ⟨a, b, c, d, e⟩ := of_decide_eq_true d
    obtain ⟨r, hr, hp⟩ := (Option.any_eq_true _ _).mp c
    exact ⟨adm, granted_of g, lineServes_of l, a, b, ⟨r, hr, by simpa using hp⟩, d, fun x => room_of (e x)⟩
  | host a =>
    obtain ⟨g, h⟩ := Bool.and_eq_true_iff.mp h
    obtain ⟨a, b, c, d⟩ := of_decide_eq_true h
    exact ⟨adm, granted_of g, a, b, c, d⟩
  | ctrl a =>
    obtain ⟨a, b, c⟩ := of_decide_eq_true h
    exact ⟨adm, a, b, c⟩

/-- The thread of the witnesses below: `c1` local, `c2` line 32, and registers given. -/
def accessing (r : Regs) : State := holding r [(0xFF0, [1, 2, 3, 4])] [(0x1000, [5])]

/-- Capabilities to the first 4 KiB of core 6's local memory, to a line of host memory, and to the CTRL registers. -/
def windowCap : Cap := Cap.make true 7 1 0x1F 0x1000 0x60000
def hostCap : Cap := Cap.make true 7 3 0x1F 0x80 0x1000
def ctrlCap : Cap := Cap.make true 7 4 0x1F 0x10 0x800

/-- The thread that holds them too, in the given views, which its package holds. -/
def placed (r : Regs) (l : List View) : State :=
  let r := ((((r.setCap 1 localCap).setCap 2 lineCap).setCap 3 windowCap).setCap 4 hostCap).setCap 5 ctrlCap
  let k := core5 { thread r with views := l }
  let half : Core := { Core.initial 6 with parts := [⟨7, 0, 0x8000, 0⟩] }
  { machine { k with plb := [⟨false, 7, 0, 0xF⟩, ⟨true, 7, 0, 0xF⟩] } { Package.initial with
      l2 := [32], host := { HostPort.initial with state := .enabled }
      tenants := [{ Tenant.ofCode 7 [] with injection := true }]
      views := l.map fun v => ⟨v.num, 0, v.rival, 7, .live, [], [], []⟩ } with
    cores := [(5, { k with plb := [⟨false, 7, 0, 0xF⟩, ⟨true, 7, 0, 0xF⟩] }), (6, half)] }

/-- The ports of an instruction that names none are ready. -/
theorem ports_none (s : State) (srcs dsts : List (BitVec 5)) (h : 28#5 ∉ srcs ∧ 29#5 ∉ srcs ∧ 30#5 ∉ dsts) :
    s.portsReady srcs dsts := ⟨fun x => (h.1 x).elim, fun x => (h.2.1 x).elim, fun x => (h.2.2 x).elim⟩

/-- LocalLoadsAndStores, CapabilityAccesses: the last eight bytes of the local capability, the last sixteen, its last byte at
an immediate index, and the word of a short form's last index. -/
theorem witness_local (need : BitVec 7) (h : need ∈ [pRD, pWR, pAT, 0x0A#7]) :
    (accessing (regsOf [(1, 0xFF8)])).At localCap ((accessing (regsOf [(1, 0xFF8)])).regs.val 1).toInt 8 8 need (.own 0xFF8) ∧
    (accessing (regsOf [(1, 0xFF0)])).At localCap ((accessing (regsOf [(1, 0xFF0)])).regs.val 1).toInt 16 16 need (.own 0xFF0) ∧
    (accessing Regs.initial).At localCap ((1023#11).toInt * 1) 1 1 need (.own 1023) ∧
    (accessing Regs.initial).At localCap (4 * (3#2).toNat) 4 4 need (.own 12) := by
  fin_cases h <;> exact ⟨at_of (by decide), at_of (by decide), at_of (by decide), at_of (by decide)⟩

/-- With that, the registers hold the capability, no monitor is the thread's, the types are covered, and the ports that the
operands name are ready. -/
theorem witness_local_rest :
    let s := accessing (regsOf [(1, 0xFF8)])
    s.regs.cap 1 = localCap ∧ s.portsReady [1, 2] [3] ∧ s.notWatching ∧
    (∀ ty ∈ [0#5, 13#5, 17#5], tg4 ty = true) ∧ (∀ ty ∈ [8#5, 13#5, 17#5], tg5 ty = true) ∧ tyBytes 8 = 8 ∧ tyBytes 4 = 1 ∧
    (∀ cls : BitVec 3, cls ∈ [0, 1, 2, 4, 5] → cls ≠ 3) :=
  ⟨by decide, ports_none _ _ _ (by decide), by unfold State.notWatching; decide, by decide, by decide, by decide, by decide, by decide⟩

/-- LoadsAndStoresEverywhere: loads and stores of a word at every place: the window copy's first and last word, the last word
of a line in the base view and in a domain's, and the last of the CTRL registers. -/
theorem witness_places (need : BitVec 7) (h : need ∈ [pRD, pWR]) :
    let s := placed (regsOf [(1, 0x7C)]) []
    let w := placed (regsOf [(1, 0x200)]) [viewOf 1 true]
    let d := placed (regsOf [(1, 0x7C)]) [viewOf 1 false]
    w.At (w.regs.cap 1) (w.regs.val 1).toInt 4 4 need (.rival 0x200) ∧ w.At (w.regs.cap 1) 0x20C 4 4 need (.rival 0x20C) ∧
    d.At (d.regs.cap 1) (d.regs.val 1).toInt 4 4 need (.own 0x7C) ∧ s.At (s.regs.cap 3) (s.regs.val 1).toInt 4 4 need (.window 6 0x7C) ∧
    s.At (s.regs.cap 2) (s.regs.val 1).toInt 4 4 need (.global 0x107C) ∧
    d.At (d.regs.cap 2) (d.regs.val 1).toInt 4 4 need (.version 1 0x107C) ∧
    s.At (s.regs.cap 4) (s.regs.val 1).toInt 4 4 need (.host 0x107C) ∧ s.At (s.regs.cap 5) ((3#11).toInt * 4) 4 4 need (.ctrl 0x80C) ∧
    s.At (s.regs.cap 5) 0 8 8 need (.ctrl 0x800) := by
  fin_cases h <;> exact ⟨at_of (by decide), at_of (by decide), at_of (by decide), at_of (by decide), at_of (by decide),
    at_of (by decide), at_of (by decide), at_of (by decide), at_of (by decide)⟩

/-- And, in a domain, loads of the places outside it. That the host answers at once is a hypothesis on the free value of entry
25 alone; every other place answers. -/
theorem witness_places_in_a_domain :
    let d := placed (regsOf [(1, 0x7C)]) [viewOf 1 false]
    d.At (d.regs.cap 3) (d.regs.val 1).toInt 4 4 pRD (.window 6 0x7C) ∧ d.At (d.regs.cap 4) (d.regs.val 1).toInt 4 4 pRD (.host 0x107C) ∧
    d.At (d.regs.cap 5) 0 8 8 pRD (.ctrl 0x800) ∧ d.answersAt (.version 1 0x107C) ∧
    (∀ s : State, Config.hostReply s.ticks = 0 → s.answersAt (.host 0x107C)) ∧ (Place.global 0x107C).space ≠ 4 ∧
    (Place.version 1 0x107C).takes .store ∧ (Place.global 0x107C).takes .atomic :=
  ⟨at_of (by decide), at_of (by decide), at_of (by decide), trivial, fun _ h => h, by decide, (nofun : AccKind.store ≠ .atomic), trivial⟩

/-- CapabilityAccesses, SpillsAndFills: sixteen bytes at each place, and the spill classes at their own sizes and alignments. -/
theorem witness_capability_places (need : BitVec 7) (h : need ∈ [pRD, 0x02#7, 0x0A#7]) :
    let s := placed (regsOf [(1, 0x70)]) []
    let w := placed (regsOf [(1, 0x200)]) [viewOf 1 true]
    let d := placed (regsOf [(1, 0x70)]) [viewOf 1 false]
    s.At (s.regs.cap 1) (s.regs.val 1).toInt 16 16 need (.own 0x70) ∧ w.At (w.regs.cap 1) (w.regs.val 1).toInt 16 16 need (.rival 0x200) ∧
    s.At (s.regs.cap 3) (s.regs.val 1).toInt 16 16 need (.window 6 0x70) ∧ s.At (s.regs.cap 2) (s.regs.val 1).toInt 16 16 need (.global 0x1070) ∧
    d.At (d.regs.cap 2) (d.regs.val 1).toInt 16 16 need (.version 1 0x1070) ∧
    s.At (s.regs.cap 4) (s.regs.val 1).toInt 16 16 need (.host 0x1070) := by
  fin_cases h <;> exact ⟨at_of (by decide), at_of (by decide), at_of (by decide), at_of (by decide), at_of (by decide), at_of (by decide)⟩
theorem witness_spills :
    let s := accessing (regsOf [(1, 0xFD0)])
    (∀ x ∈ [(8, 8), (16, 16), (48, 16), (4, 4)], s.At localCap (s.regs.val 1).toInt x.1 x.2 pWR (.own 0xFD0)) ∧
    s.At localCap (s.regs.val 1).toInt 48 16 pRD (.own 0xFD0) := by
  intro s
  refine ⟨fun x h => ?_, at_of (by decide)⟩
  fin_cases h <;> exact at_of (by decide)

/-- The accesses of the forms, of a type and a spill class, with operands 1, 2 and 3 and `c1`. -/
def formsOf (r : Regs) (ty : BitVec 5) (cls : BitVec 3) : List AccessForm := accessForms r 1 2 3 1 1 1 cls ty 0 0 0 0 1

/-- AccessFaults: every form is among those of some operands, each with ports that are ready; and for a load, a store and an
atomic, a capability that fails each check alone, in the order of the checks. -/
theorem witness_access_forms :
    let r := Regs.initial.setMask 1 0x04
    (formsOf r 9 0).length = 33 ∧ (formsOf r 1 3).length = 29 ∧
    (∀ f ∈ formsOf r 9 0 ++ formsOf r 1 3, 28#5 ∉ f.srcs ∧ 29#5 ∉ f.srcs ∧ 30#5 ∉ f.dsts) ∧
    (∀ k ∈ [AccKind.load, .store, .atomic], ∃ f ∈ formsOf r 9 0, f.kind = k ∧ f.single = true ∧ f.off = 0 ∧ f.base = 0 ∧ f.size = 4) := by
  decide
theorem witness_access_faults :
    let with_ (c : Cap) : State := running (Regs.initial.setCap 1 c)
    let need (w : BitVec 7) (c : Cap) : Bool := c.perm &&& w == w
    ((with_ { localCap with tag := false }).regs.cap 1).tag = false ∧
    ((with_ (Cap.make true 8 0 1 4 0)).regs.cap 1).dom ≠ (running Regs.initial).me.tenant ∧
    (∀ most ∈ [2, 3, 4], most < ((with_ (Cap.make true 7 5 1 4 0)).regs.cap 1).space) ∧
    (∀ w ∈ [pRD, pWR, pAT], need w ((with_ (Cap.make true 7 0 0x08 4 0)).regs.cap 1) = false) ∧
    (let k := (with_ (Cap.make true 7 0 0x1F 4 0)).regs.cap 1
     k.tag = true ∧ k.dom = 7 ∧ k.space < 2 ∧ (∀ w ∈ [pRD, pWR, pAT], need w k = true) ∧ (-1 : Int) < 0 ∧ (k.len : Int) < 1 + 4 ∧
       (0 : Int) ≤ 0 ∧ (0 : Int) + 4 ≤ k.len) ∧
    (let s := with_ (Cap.make true 7 0 0x1F 4 0x7FFE)
     (s.regs.cap 1).space = 0 ∧ s.inPartition s.home 7 0x7FFE 4 = false) ∧
    (let s := { with_ (Cap.make true 7 1 0x1F 4 (2 ^ 31)) with podSize := 1 }
     (s.regs.cap 1).space = 1 ∧ s.podSize ≤ 2 ^ 31 / 2 ^ 16 % 2 ^ 26 / 2 ^ 15) ∧
    (let s := with_ (Cap.make true 7 0 0x1F 4 2)
     s.inPartition s.home 7 2 4 = true ∧ (s.regs.cap 1).base % 4 ≠ 0) ∧
    (let s := with_ (Cap.make true 7 2 0x1F 4 0x1002)
     (s.regs.cap 1).space = 2 ∧ (s.regs.cap 1).base % 4 ≠ 0) := by decide
/-- The escapes of a view, and a capability that the checks admit at each space. -/
theorem witness_access_escapes :
    let d := placed Regs.initial [viewOf 1 false]
    let w := placed Regs.initial [viewOf 1 true]
    d.me.views ≠ [] ∧ (d.regs.cap 3).space = 1 ∧ (d.regs.cap 4).space = 3 ∧ (d.regs.cap 2).space = 2 ∧ (w.regs.cap 1).space = 0 ∧
    (∃ v, w.me.rivalView = some v ∧ v.inWindow 0 4 = false) ∧
    (∀ c ∈ [1#3, 2, 3, 4], admitsOk d (d.regs.cap c) 0 4 4 pRD (d.regs.cap c).space = true) ∧
    d.inPartition d.home 7 0 4 = true ∧ d.inPartition 6 7 0 4 = true := by
  refine ⟨by decide, by decide, by decide, by decide, by decide, ⟨viewOf 1 true, by decide, by decide⟩, by decide, by decide, by decide⟩
/-- And what memory refuses of an access that they admit: a region without an entry in the buffer and the package's rows, one
with rights that lack the write, a home outside the pod and one without a route, a host that is absent, and a poisoned word. -/
theorem witness_memory_faults :
    let s := placed Regs.initial []
    let row (g : BitVec 4) (s : State) : State := s.updPkg 0 fun p => { p with rights := [⟨7, false, 1, g⟩] }
    let far := placed (Regs.initial.setCap 2 (Cap.make true 7 2 0x1F 0x80 (2 ^ 21))) []
    let find (s : State) (region : Nat) : Option (BitVec 4) :=
      (((s.core s.curCore).plbFind 7 region false).map (·.rights)).or
        (((s.pkg 0).rights.find? fun r => r.dom == 7 && r.region == region && r.host == false).map (·.rights))
    let away := { s with podSize := 2 }.updPkg 0 fun p => { p with routes := [(1, 0, false)] }
    let bad := s.updCore 5 fun k => { k with lpoison := [0] }
    find far 1 = none ∧ find (row 1 s) 1 = some 1 ∧ (1#4) &&& rightsFor pWR ≠ rightsFor pWR ∧
    find s 0 = some 0xF ∧ (0xF#4) &&& rightsFor pAT = rightsFor pAT ∧ 0x1000 / 2 ^ 21 = (0x1000 + 4 - 1) / 2 ^ 21 ∧
    ({ s with podSize := 1 } : State).podSize ≤ homePkg (2 ^ 41) ∧ away.routed 0 1 = false ∧ (s.pkg 0).copies = [] ∧
    s.pairServed s.curCore (hostAgent 0) = true ∧ { HostPort.initial with state := .reset }.state ≠ .enabled ∧
    bad.me.inWorld = false ∧ localOk bad bad.home = true ∧
    (granules 0 4).find? ((bad.core bad.home).lpoison.contains ·) = some 0 := by decide

/-- VectorLoadsAndStores: the last 32 bytes of the capability, by every lane of `.n32`, under a mask, strided by 4 and
indexed; the places of the lanes are those from 0xFE0, and in a domain those of the line's last quarter. -/
theorem witness_vector_access (need : BitVec 7) (h : need ∈ [pRD, pWR]) (i : Nat) (hi : i < 8) :
    let r := (((regsOf [(4, 0xFE0)]).setExt 1 4).setMask 1 0x81).setVec 3 (Vector.ofFn fun i => ⟨BitVec.ofNat 32 (0xFE0 + 4 * i.val), 0⟩)
    let s := accessing r
    let d := placed (regsOf [(4, 0x60)]) [viewOf 1 false]
    s.At localCap ((s.regs.val 4).toInt + i * 4) 4 4 need (.own (0xFE0 + 4 * i)) ∧
    s.At localCap ((127#11).toInt * 32 + i * 4) 4 4 need (.own (0xFE0 + 4 * i)) ∧
    s.At localCap ((s.regs.val 4).toInt + i * (s.regs.ext 1).toInt) 4 4 need (.own (0xFE0 + 4 * i)) ∧
    s.At localCap ((s.regs.lane 3 (Fin.ofNat 8 i)).val.toInt) 4 4 need (.own (0xFE0 + 4 * i)) ∧
    d.At (d.regs.cap 2) ((d.regs.val 4).toInt + i * 4) 4 4 need (.version 1 (0x1060 + 4 * i)) := by
  fin_cases h <;> interval_cases i <;>
    exact ⟨at_of (by decide), at_of (by decide), at_of (by decide), at_of (by decide), at_of (by decide)⟩
theorem witness_vector_whole :
    lanesOf 6 = 8 ∧ tyBytes 6 = 4 ∧ tg4 6 = true ∧ wide 6 = false ∧ ((localCap.base : Int) + 0xFE0) % 2 ^ 64 % (lanesOf 6 * tyBytes 6 : Nat) = 0 ∧
    (accessing ((regsOf [(4, 0xFE0)]).setMask 1 0x81)).regs.mask 1 = 0x81 ∧
    (∀ i < 8, ∀ j < 8, lineOf (Place.version 1 (0x1060 + 4 * i)).addr = lineOf (0x1060 + 4 * j)) ∧
    (placed Regs.initial [viewOf 1 false]).monitors = [] ∧
    (∀ p ∈ [Place.own 0, .version 1 0], p.space ≠ 4) := by decide

/-- AtomicsAndWaits: an atomic's word at each width with an old value below the operand and one above it; a `WAITNE` on
a word that differs and on one that is equal, with the home's table empty and full; and both at the places of a rival, of
another core and of the line. -/
theorem witness_atomics :
    let r := regsOf [(1, 0xFF0), (3, 0xFF8), (2, 0), (4, 0x05030201), (6, 0x04030201)]
    let s := accessing r
    let full : State := { s with monitors := List.replicate 64 ⟨0, 5, 0, 4, 0, none, 5, 3⟩ }
    let x : DWord := BitVec.ofNat 64 (leValue (s.placeBytes 4 (.own 0xFF0)))
    let held (s : State) : Nat := (s.monitors.filter fun m => m.table == (0, s.home)).length
    (∀ t ∈ [s, full], t.At localCap (t.regs.val 1).toInt 4 4 pAT (.own 0xFF0) ∧ t.At localCap (t.regs.val 3).toInt 8 8 pAT (.own 0xFF8)) ∧
    s.portsReady [1, 2] [5] ∧ s.notWatching ∧ full.notWatching ∧
    ((x.setWidth 32).toInt < ((s.regs.atomVal 0 4).setWidth 32).toInt ∧
      ((s.regs.atomVal 0 2).setWidth 32).toInt < (x.setWidth 32).toInt) ∧
    x ≠ s.regs.atomVal 0 2 ∧ x = s.regs.atomVal 0 6 ∧ held s < s.monitorRoom ∧ full.monitorRoom ≤ held full := by
  intro r s full x held
  refine ⟨fun t h => ?_, ports_none _ _ _ (by decide), by unfold State.notWatching; decide,
    by unfold State.notWatching; decide, by decide⟩
  fin_cases h <;> exact ⟨at_of (by decide), at_of (by decide)⟩
theorem witness_atomic_places :
    let s := placed (regsOf [(1, 0x78)]) []
    let w := placed (regsOf [(1, 0x208)]) [viewOf 1 true]
    w.At (w.regs.cap 1) (w.regs.val 1).toInt 8 8 pAT (.rival 0x208) ∧ s.At (s.regs.cap 3) (s.regs.val 1).toInt 8 8 pAT (.window 6 0x78) ∧
    s.At (s.regs.cap 2) (s.regs.val 1).toInt 8 8 pAT (.global 0x1078) :=
  ⟨at_of (by decide), at_of (by decide), at_of (by decide)⟩

/-- BlockInstructions: the first block of a joined line and its last, of `.mx8` and of `.mx4`, in the base view and in a
domain's; blocks that `MXNORM` lowers and that it leaves; blocks with a NaN scale and without. -/
theorem witness_blocks (need : BitVec 7) (h : need ∈ [pRD, pWR, pAT]) (write : Bool) :
    let line4 : State := { blockState with mem := blockState.mem.write 0x107E 0x17 }
    let inView : State := { placed (regsOf [(11, 0x7F)]) [viewOf 1 false] with mem := blockState.mem }
    blockState.BlockAt lineCap ((running Regs.initial).regs.val 1).toInt 19 need write [0x13] (.global 0x1000) 0 ∧
    blockState.BlockAt lineCap 64 19 need write [0x13, 0x17] (.global 0x1000) 64 ∧
    line4.BlockAt lineCap 80 23 need write [0x13, 0x17] (.global 0x1000) 80 ∧
    inView.BlockAt (inView.regs.cap 2) 64 19 need write [0x13] (.version 1 0x1000) 64 ∧ 80 % mxBytes 23 = 0 ∧
    (blockState.placeByte 0x107E (.global 0x1000) ≠ 0x17 ∧ line4.placeByte 0x107E (.global 0x1000) = 0x17) := by
  have room : ({ placed (regsOf [(11, 0x7F)]) [viewOf 1 false] with mem := blockState.mem } : State).VersionRoom 1 0x1000 := room_of (by decide)
  fin_cases h <;> exact ⟨⟨at_of (by decide), rfl, nofun, by decide, by decide, by decide⟩,
    ⟨at_of (by decide), rfl, nofun, by decide, by decide, by decide⟩, ⟨at_of (by decide), rfl, nofun, by decide, by decide, by decide⟩,
    ⟨at_of (by decide), rfl, fun _ _ _ e => by cases e; exact room, by decide, by decide, by decide⟩, by decide, by decide⟩
theorem witness_norm :
    let line (l : List Byte) (s : Byte) : Block :=
      blockOf 19 ((({ blockState with mem := (blockState.mem.writeN 0x1000 l).write 0x1060 s } : State)).placeBytes 128 (.global 0x1000)) 0
    let value (b : Block) (i : Nat) : XVal := (fmtOf (mxElem 19)).xval (b.elems.getD i 0) 0
    (line [0, 1, 0] 0x7F).scale = 0x7F ∧ (line [0, 1, 0] 0xFF).scale = 0xFF ∧ (∀ i < 32, value (line [0, 1, 0] 0x7F) i ≠ .nan) ∧
    value (line [0, 0x7F, 0] 0x7F) 1 = .nan ∧ (∀ i < 32, value (line [0, 0, 0] 0x7F) i = .fin false 0 (-11)) ∧
    value (line [0, 1, 0] 0x7F) 1 = .fin false 4 (-11) := by decide
theorem witness_values (e : Int) : exactValue (.fin false 0 e) = some 0 ∧ exactValue (.fin false 4 e) ≠ some 0 := by
  simp [exactValue, zpow_ne_zero]

/-- FencesAndBarriers: an arrival that is not the last and one that is, at core scope and at die scope; a phase that has gone
and one that stands; a thread inside a view and one outside; pod scope and another. -/
theorem witness_barriers :
    let bar (n expect : Nat) (phase : BitVec 16) : State := (running (regsOf [(1, 7)])).setBarrier
      { (running Regs.initial).barrier 7 n (instanceOf n 5) with expect := expect, phase := phase }
    let get (s : State) (n : Nat) : Barrier := s.barrier s.me.tenant n (instanceOf n s.home)
    let last (s : State) (n : Nat) : Prop := n ≤ 3 ∧ max 1 (get s n).expect ≤ (get s n).arrived.length + 1 + (get s n).lost
    last (bar 1 0 0) 1 ∧ last (bar 3 1 0) 3 ∧ ¬last (bar 3 2 0) 3 ∧ ¬last (bar 4 1 0) 4 ∧
    (bar 3 1 7).me.views = [] ∧ (bar 3 1 7).me.wait = .none ∧
    ((bar 3 1 7).regs.val 1).setWidth 16 = (get (bar 3 1 7) 3).phase ∧
    ((bar 3 1 8).regs.val 1).setWidth 16 ≠ (get (bar 3 1 8) 3).phase ∧
    (atSlot { thread Regs.initial with views := [viewOf 1 false] }).me.views ≠ [] ∧ (4#3 : BitVec 3) ≠ 5 := by decide

/-! #### Messages, threads and the matrix unit -/

/-- The thread of the witnesses below on a core that binds a stage of its tenant. -/
def staged (t : Slot) : State := machine (stageCore t) Package.initial

/-- Its thread in a domain and in a world. -/
def inDomainOf (r : Regs) : State := staged { thread r with views := [viewOf 1 false] }
def inWorldOf (r : Regs) : State := staged { thread r with views := [viewOf 1 true] }

/-- QueueMessages: a bad name, the last good one and the thread's own core; a world, a domain and no view; a queue with
space for exactly the two entries; queue 6 with a return of the thread's own, with none, and with words left in `qrx`. -/
theorem witness_queues :
    let r := regsOf [(1, 0x04000000), (2, 5), (3, 0x03FFFFFF)]
    let s := staged (thread r)
    let s14 : State := machine ((stageCore (thread r)).setQueue 1 ⟨List.replicate 14 ⟨0, none⟩, 0⟩) Package.initial
    s.portsReady [1] [4] ∧ s.goodName (r.val 1).toNat = false ∧ s.goodName (r.val 3).toNat = true ∧ (inWorldOf r).goodName 5 = true ∧
    (inWorldOf r).me.inWorld = true ∧ (inDomainOf r).me.inWorld = false ∧ (inDomainOf r).me.views.length = 1 ∧
    s14.me.views = [] ∧ s14.releasing = false ∧ s14.path s14.home 5 = .near ∧
    (s14.core 5).discards 1 s14.me.tenant [1, 2] = false ∧ s14.me.resv = 0 ∧ (s14.pkg (pkgOf 5)).waits s14.home 5 = false ∧
    ((s14.core 5).queue 1).free = 2 ∧ s.regs.qrx = [] ∧ (s.takeEntry 6).isNone = true ∧
    ((staged { thread r with replay := [(6, 9)] }).takeEntry 6).isSome = true ∧
    ((inWorldOf r).updMe fun t => { t with replay := [(6, 9)] }).me.inWorld = true ∧
    (staged (thread { r with qrx := [1] })).regs.qrx ≠ [] := ⟨ports_none _ _ _ (by decide), by decide⟩

/-- A thread of the core at a given name, alone. -/
def onCore (c : Nat) (t : Slot) (q5 : List QEntry) : State :=
  { State.reset with
    curCore := c, curSlot := 2
    cores := [(c, ((Core.initial c).setSlot 2 { t with home := c }).setQueue 5 ⟨q5, 0⟩)], pkgs := [(0, Package.initial)] }

/-- Ports: the first and last cores of the chain (core 3,971 of a die is at position 4,095); empty buffers with queue 5 empty
and not; a rival; a `qdn` of three words with space downstream and without. -/
theorem witness_refills :
    sDst 27 = true ∧ (27#5 : BitVec 5) ≠ 30 ∧ (27#5).toNat < 28 ∧ chainPos (onCore 0 (thread Regs.initial) []).home = 0 ∧
    chainPos (onCore 5 (thread Regs.initial) []).home ≠ 0 ∧ (onCore 5 (thread Regs.initial) []).regs.qup = [] ∧
    (onCore 5 { thread Regs.initial with views := [viewOf 1 true] } []).me.inWorld = true ∧
    (onCore 5 (thread Regs.initial) []).me.inWorld = false ∧
    ((onCore 5 (thread Regs.initial) []).me.replay.find? fun x => x.1 == 5) = none ∧
    (((onCore 5 (thread Regs.initial) []).core 5).queue 5).entries = [] ∧
    (((onCore 5 (thread Regs.initial) [⟨7, none⟩]).core 5).queue 5).entries = [⟨7, none⟩] := by decide
theorem witness_pushes :
    let r : Regs := { Regs.initial with qdn := [1, 2, 3] }
    let room : State := (onCore 5 { thread r with lch := true } []).updCore (downstream 5) fun k =>
      { k with stages := k.stages.set 3 { Stage.empty with bits := 0x4080400000, tenant := 7 } }
    let full : State := room.updCore (downstream 5) fun k => k.setQueue 5 ⟨List.replicate 16 ⟨0, none⟩, 0⟩
    chainPos (onCore 3971 (thread r) []).home = 4095 ∧ chainPos full.home ≠ 4095 ∧ full.regs.qdn = [1, 2, 3] ∧
    (onCore 5 { thread r with views := [viewOf 1 true] } []).me.inWorld = true ∧
    full.me.inWorld = false ∧ full.me.lch = true ∧ ((full.core (downstream full.home)).queue 5).free = 0 ∧
    (full.core (downstream full.home)).holdsStage full.me.tenant = true ∧ full.releasing = false ∧
    0 < ((room.core (downstream 5)).queue 5).free := by decide

/-- StartsAndEnds: a core whose tenant holds no stage, one with no FREE slot and one with slots FREE; a stage held with a
queue of one free place; a thread in a view. -/
theorem witness_starts :
    let r := regsOf [(1, 5)]
    let busy (k : Core) : Core := { k with slots := Vector.replicate 8 (thread r) }
    let s := staged (thread r)
    let near (s : State) : Prop := s.me.views = [] ∧ s.goodName 5 = true ∧ s.path s.home 5 = .near ∧
      (s.regs.ext 3).getLsbD 0 = false ∧ s.startsFirst 5 = false ∧ s.releasing = false ∧ s.me.state = .ready
    s.portsReady [1] [4] ∧ near s ∧ near (running r) ∧ ((running r).core 5).holdsStage 7 = false ∧ (s.core 5).holdsStage 7 = true ∧
    (s.core 5).startSlot = some 0 ∧ (busy (s.core 5)).startSlot = none ∧ (busy (s.core 5)).holdsStage 7 = true ∧
    ((s.core 5).stageOf 7 4).isNone = true ∧ (((s.core 5).stageOf 7 3).map (·.inq)) = some 2 ∧
    ((s.pkg (pkgOf 5)).pool 7).pooled 5 3 = 0 ∧ 1 ≤ ((s.core 5).queue 2).free ∧
    (inDomainOf r).me.views ≠ [] ∧ ((inDomainOf r).regs.ext 3).getLsbD 0 = false :=
  ⟨ports_none _ _ _ (by decide), by decide⟩

/-- A matrix unit with `n` jobs on accumulator 1 and `l` panels in its latch. -/
def unitOf (n l : Nat) : Matrix :=
  { Matrix.initial with
    latch := List.replicate l ⟨0, [], [], false⟩
    jobs := List.replicate n ⟨4, 12, 1, none, 0, 0, 5, none, 0, 7, [], [], none, false, false⟩ }

/-- The thread with that unit. -/
def working (n l : Nat) (r : Regs) : State := (accessing r).updMatrix 5 fun _ => unitOf n l

/-- MatrixInstructions: unscaled and scaled types; the last panel, table and mailbox of the capability; a latch with one
panel and with two; three jobs and four; a job of the named identifier and accumulator, and none; a core whose
neighbour has space. -/
theorem witness_matrix :
    let r := regsOf [(1, 0xC00), (2, 0xFE0), (3, 0xFFC), (4, 4), (5, 0xBC0)]
    (∀ n ∈ [0, 3, 4], ∀ l ∈ [0, 1, 2], (working n l r).At localCap ((working n l r).regs.val 1).toInt 1024 64 pRD (.own 0xC00) ∧
      (working n l r).At localCap ((working n l r).regs.val 2).toInt 32 32 pRD (.own 0xFE0) ∧
      (working n l r).At localCap ((working n l r).regs.val 3).toInt 4 4 pWR (.own 0xFFC) ∧
      (working n l r).At localCap ((working n l r).regs.val 1).toInt 1024 16 pWR (.own 0xC00)) := by
  intro r n hn l hl
  fin_cases hn <;> fin_cases hl <;> exact ⟨at_of (by decide), at_of (by decide), at_of (by decide), at_of (by decide)⟩
theorem witness_matrix_rest :
    let r := regsOf [(1, 0xC00), (2, 0xFE0), (3, 0xFFC), (4, 4), (5, 0xBC0)]
    let k (n l : Nat) : Core := (working n l r).core (working n l r).home
    let m (n l : Nat) : Matrix := (k n l).matrix
    let waiting (op : BitVec 4) : Matrix := { unitOf 0 0 with held := [⟨4, 7, ⟨nullCap, op, 0, 0, 0, 0, 0⟩, none⟩] }
    (working 1 0 r).notWatching ∧ (working 1 0 r).portsReady [1, 2] [4] ∧
    isScaled 12 = false ∧ isScaled 19 = true ∧ (m 3 1).held = [] ∧ (m 3 1).latch.length + (k 3 1).loading < 2 ∧
    2 ≤ (m 0 2).latch.length + (k 0 2).loading ∧ (∀ op ∈ [1, 2, 3], ∃ h ∈ (waiting op).held, h.cmd.op = op) ∧ (m 3 0).jobs.length < 4 ∧
    4 ≤ (m 4 0).jobCount ∧ (∀ j ∈ (m 3 0).jobs, j.type ≠ 18) ∧ (working 3 0 r).me.inWorld = false ∧
    (∀ j ∈ (m 0 0).jobs, j.id ≠ (r.val 4).setWidth 16) ∧ (∃ j ∈ (m 1 0).jobs, j.id = (r.val 4).setWidth 16) ∧
    (m 1 0).names [1] = true ∧ (m 1 0).names [0] = false ∧ (m 1 0).names (accsOf 9 0) = false ∧ (m 1 0).isBad 9 0 = false ∧
    (m 1 0).parityError 9 0 = false :=
  ⟨by unfold State.notWatching; decide, ports_none _ _ _ (by decide), by decide⟩

/-- MatrixInstructions: `MPASS` alone, with jobs and without, with a panel and with none, before a core of the tenant whose latch
has room and whose latch is full, and before another; the leader of a gang of two and its follower. -/
theorem witness_panels :
    let s (n l : Nat) (k : Core) : State := ((working n l (regsOf [])).updCore 6 fun _ => k)
    let next (l : Nat) : Core := { stageCore (thread (regsOf [])) with matrix := unitOf 0 l }
    let gang (c : Nat) (st : SlotState) : State := { (ganging 2 (thread ported)) with curCore := c }.updMe fun t =>
      { t with gang := 2, state := st }
    let count (s : State) : List Nat := (s.me.members s.curCore).map fun c => (s.core c).matrix.jobCount
    (s 0 1 (next 1)).home / 4 * 4 + ((s 0 1 (next 1)).home + 1) % 4 = 6 ∧ (s 0 1 (next 1)).me.inWorld = false ∧
    count (s 1 1 (next 1)) = [1] ∧ count (s 0 1 (next 1)) = [0] ∧ (s 0 1 (next 1)).me.gang = 0 ∧ (s 0 1 (next 1)).me.state ≠ .follow ∧
    ((s 0 0 (next 1)).core 5).matrix.latch = [] ∧ ((s 0 1 (next 1)).core 5).matrix.latch ≠ [] ∧
    ((s 0 1 (next 1)).core 6).holdsStage 7 = true ∧ ((s 0 1 (Core.initial 6)).core 6).holdsStage 7 = false ∧
    (next 1).latchFull = false ∧ (next 2).latchFull = true ∧
    (gang 4 .ready).me.gang = 2 ∧ (gang 4 .ready).me.state ≠ .follow ∧ (gang 5 .follow).me.state = .follow ∧
    count (gang 4 .ready) = [0, 0] ∧ count (gang 5 .follow) = [0, 0] ∧ (gang 4 .ready).me.members 4 = [4, 5] := by decide

/-- VectorConversionsAndMoves: an entry of the gang's rotation in each member's sequencer, the leader's with the amount captured. -/
theorem witness_gang_rotation :
    let e : SeqEntry := ⟨2, [.vrot 1 2 3 0], [], 1, 0, 0, [(3, ⟨9, 0⟩)], 0, 2, false⟩
    let s : State := { machine (core5 (thread Regs.initial)) Package.initial with
      cores := [4, 5].map fun c => (c, { Core.initial c with seq := [e] }) }
    (s.core 5).seqHead 2 = some e ∧ (s.core (5 / e.gang * e.gang)).seqHead 2 = some e ∧ e.gang ≠ 0 ∧ e.body = [.vrot 1 2 3 0] ∧
    e.pos = 0 ∧ e.iter = 0 ∧ e.strides = [] ∧ e.captured 3 = some ⟨9, 0⟩ ∧
    (s.slot 4 2).regs = (s.slot 5 2).regs ∧ tg10 2 = false ∧ tg10 0 = true ∧ tg10 16 = true := by decide

/-- RemoteCommands: a command that is not owned, one that is not formed, and a clear of an accumulator that no job names; a
domain. -/
theorem witness_commands :
    let win (perm : BitVec 7) : Cap := Cap.make true 7 1 perm 0x1000 0x50000
    let s (w : Word) (perm : BitVec 7) : State := staged (thread (((regsOf [(1, 5)]).setCap 3 (win perm)).setVec 4
      ((Vector.replicate 8 Elem.zero).set 0 ⟨w, 0⟩)))
    let x (s : State) : MatrixCommand := s.commandOf 4 3
    let ranged (s : State) : Bool := (x s).ranges.all fun g =>
      decide (Cap.at (x s).cap g.1 / 2 ^ 16 % 2 ^ 26 = 5) && s.inPartition 5 (x s).cap.dom (Cap.at (x s).cap g.1 % 2 ^ 16) g.2.1
    let owned (s : State) : Bool := (x s).cap.tag && (x s).cap.perm.getLsbD 6 && decide ((x s).cap.space = 1) &&
      decide ((x s).cap.base / 2 ^ 16 % 2 ^ 26 = 5) && decide ((x s).cap.dom = s.me.tenant) &&
      (s.core 5).holdsStage s.me.tenant && ranged s
    let u := s 4 0x5F
    owned (s 4 0x1F) = false ∧ owned (s 15 0x5F) = true ∧ (x (s 15 0x5F)).formed = false ∧
    owned u = true ∧ (x u).formed = true ∧ (x u).op = 4 ∧ (u.core 5).matrix.names [(x u).acc] = false ∧ u.me.views = [] ∧
    u.releasing = false ∧ u.path u.home 5 = .near ∧ u.goodName 5 = true ∧
    (inDomainOf (regsOf [(1, 5)])).me.inWorld = false := by decide

/-! #### Copies, collectives and views -/

/-- Registers with the descriptor of a copy of 16 bytes from local memory to line 32, its record at local offset 0x20; the
chain goes on. -/
def copyRegs : Regs :=
  let r := ((regsOf [(1, 3), (2, 0xFFFFFFFF), (3, 4), (4, 5)]).setCap 1 (Cap.make true 7 0 0x3F 0x1000 0)).setCap 2
    (Cap.make true 7 2 0x3F 0x80 0x1000)
  ((r.setExt 0 0x451).setExt 5 16).setExt 6 0x20

/-- The thread with a copy table and views; `c1` is local and `c2` line 32. -/
def copying (l : List Copy) (views : List View) : State :=
  machine { core5 { thread copyRegs with views := views } with copies := l } { Package.initial with l2 := [32] }

/-- An entry of the copy table: chained or not, posted or not. -/
def entry (id : BitVec 16) (cont posted : Bool) : Copy :=
  { Copy.make id { (copyRegs.copyDesc false 0) with cont := cont } 2 0 7 none none with posted := posted }

/-- Copies: a descriptor that passes its checks with a table of 0 and of 7 entries; a named predecessor that runs, one that is
posted and one that was not issued with `cont`; a record posted and one not; a domain with each name, and a world. -/
theorem witness_copies :
    let s := copying [entry 3 true false, entry 4 true true, entry 5 false false] []
    let k := s.core s.home
    let found (x : Word) : Option Copy := k.copyRoom.copy (x.setWidth 16)
    let fullTable : State := copying ((List.range 7).map fun i => entry (BitVec.ofNat 16 i) true false) []
    s.portsReady [1] [4] ∧ s.me.views = [] ∧ s.releasing = false ∧ k.copyFull = false ∧ (fullTable.core 5).copyFull = false ∧
    s.checkCopy (s.regs.copyDesc false 0) = .ok () ∧ s.checkCopy (s.regs.copyDesc true 0) = .ok () ∧
    (found (s.regs.val 1)).map (fun q => (q.desc.cont, q.posted)) = some (true, false) ∧
    (found (s.regs.val 3)).map (fun q => (q.desc.cont, q.posted)) = some (true, true) ∧
    (found (s.regs.val 4)).all (fun q => !q.desc.cont) = true ∧ (found 9).all (fun q => !q.desc.cont) = true ∧
    k.copyComplete 4 = true ∧ k.copyComplete 9 = true ∧ k.copyComplete 3 = false ∧
    (let u := copying [] [viewOf 1 false]
     u.me.inWorld = false ∧ u.me.views = [viewOf 1 false] ∧ u.checkCopy (u.regs.copyDesc true 0) = .ok () ∧
       u.checkCopy (u.regs.copyDesc false 0) = .ok () ∧ u.regs.val 2 = 0xFFFFFFFF ∧ u.regs.val 1 ≠ 0xFFFFFFFF) :=
  ⟨ports_none _ _ _ (by decide), by decide⟩

/-- Core 5 with a group 9 of an operator bound at its stop router, of which port 1 is the core's and port 2 another's. -/
def grouped (op : BitVec 3) (cmask : BitVec 40) (c : CollState) (views : List View) : State :=
  machine { core5 { thread (regsOf [(3, 6)]) with views := views } with colls := [c] }
    { Package.initial with truss := [⟨1, 9, trussBits 7 1 cmask 0x3F op 3, [], none, []⟩] }

/-- Collectives: no group, each operator's fields good and bad, a core that is no member, and a member between rounds, in a
round, with its result and without. -/
theorem witness_collectives :
    let idle := grouped 0 6 ⟨9, 0, 0, none⟩ []
    let busy := grouped 3 6 ⟨9, 1, 0, none⟩ []
    let done := grouped 1 6 ⟨9, 1, 1, some (⟨Elem.zero, 0, [], 0, 0, 0, 0, 0⟩, 1)⟩ []
    let out := grouped 0 4 ⟨9, 0, 0, none⟩ []
    idle.portsReady [3] [4] ∧ (grouped 0 6 ⟨9, 0, 0, none⟩ [viewOf 1 false]).me.views ≠ [] ∧ idle.me.views = [] ∧
    (idle.groupOf 7 8).isNone = true ∧ idle.memberOf 7 8 5 = false ∧
    (idle.groupOf 7 9).map (·.op) = some 0 ∧ (busy.groupOf 7 9).map (·.op) = some 3 ∧ (done.groupOf 7 9).map (·.op) = some 1 ∧
    (sSrc 28 && sDst 28) = false ∧ sSrc 3 = true ∧ sDst 4 = true ∧ conField 1 3 = false ∧ conField 1 26 = true ∧
    conField 0 3 = true ∧ resField 0 26 = true ∧ resField 0 27 = false ∧ resField 1 24 = true ∧
    idle.memberOf 7 9 5 = true ∧ out.memberOf 7 9 5 = false ∧ (out.groupOf 7 9).isSome = true ∧
    (busy.core 5).pending 9 = true ∧ (idle.core 5).pending 9 = false ∧
    ((done.core 5).resultFor 9 ((done.core 5).coll 9).contributed).isSome = true ∧
    ((busy.core 5).resultFor 9 ((busy.core 5).coll 9).contributed).isNone = true := ⟨ports_none _ _ _ (by decide), by decide⟩

/-- A thread in `l` views of a package whose worlds and views are given. -/
def viewing (l : List View) (worlds : List World) (views : List ViewRec) : State :=
  machine (stageCore { thread (regsOf [(6, 0x10002), (7, 0x200), (8, 0x00000009)]) with views := l })
    { Package.initial with worlds := worlds, views := views }

/-- A world, decided or not. -/
def worldOf (decided : Bool) : World := ⟨3, 5, 2, 0, 0, 0, [], 0, decided, 5, (0, 0)⟩

/-- Views: `DOPEN` with eight views, with none left in the pool, without space and with space; `DCLOSE` of no view, of a
rival's, of an outermost domain and of an inner one. -/
theorem witness_domains :
    let s := viewing [] [] []
    let small : State := machine (core5 (thread Regs.initial)) Package.initial
    s.portsReady [1] [4] ∧ (s.regs.ext 0).extractLsb' 8 8 = 0 ∧ (s.regs.ext 0).getLsbD 3 = false ∧
    8 ≤ (viewing (List.replicate 8 (viewOf 1 false)) [] []).me.views.length ∧
    (viewing (List.replicate 7 (viewOf 1 false)) [] []).me.views.length < 8 ∧ (s.pkg (pkgOf s.home)).freeView = some 1 ∧
    (small.roomFor 0 1024).isNone = true ∧ (s.roomFor 2 1024).isSome = true ∧ (small.pkg 0).freeView = some 1 ∧ s.me.views = [] ∧
    (∀ l ∈ [[viewOf 1 true], [viewOf 1 false], [viewOf 2 false, viewOf 1 true]], (viewing l [] []).me.views.map (·.rival) =
      l.map (·.rival)) :=
  ⟨ports_none _ _ _ (by decide), by decide⟩
theorem witness_pool_empty (v : ViewRec) (h : v.state = .live) :
    ({ Package.initial with views := List.replicate 16384 v } : Package).freeView = none := by
  unfold Package.freeView
  exact if_pos (by rw [List.filter_replicate_of_pos (by simp [h]), List.length_replicate])

theorem witness_pool_short (v : ViewRec) (h : v.state = .live) (parent ten count : Nat) :
    ({ Package.initial with views := List.replicate 16384 v } : Package).openViews parent ten true (count + 1) = none := by
  unfold Package.openViews
  rw [witness_pool_empty v h]

/-- `FORK` in a gang, with an odd failure target, with counts of 1 and 9 and good ones of 2, with too few slots and with
enough; `CHOOSE` and `ABANDON` outside views, in a decided world, and in an open outermost and an open nested one. -/
theorem witness_worlds :
    let s := viewing [] [] []
    let busy : State := { s with cores := [4, 5, 6, 7].map fun c =>
      (c, { stageCore (thread (regsOf [(6, 0x10002), (7, 0x200)])) with slots := Vector.replicate 8 (thread (regsOf [(6, 0x10002)])) }) }
    let count : Nat := (s.regs.val 6).toNat % 16
    s.portsReady [6, 7] [4] ∧ (s.updMe fun t => { t with gang := 2 }).me.gang ≠ 0 ∧ s.me.gang = 0 ∧
    ((staged (thread (Regs.initial.setExt 7 1))).regs.ext 7).getLsbD 0 = true ∧ (s.regs.ext 7).getLsbD 0 = false ∧
    s.badFork 1 0x200 = true ∧ s.badFork 9 0x200 = true ∧ s.badFork (s.regs.val 6) (s.regs.val 7) = false ∧
    s.me.views.length < 8 ∧ (busy.quadSlots 5).length < count ∧ count ≤ (s.quadSlots s.home).length ∧
    ((s.pkg (pkgOf s.home)).openViews (s.me.chain.headD 0) 7 true count).isSome = true ∧
    ((s.core s.home).keepAlloc (count * (16 * ((s.regs.val 6).toNat / 2 ^ 16)))).isSome = true ∧
    ((core5 (thread Regs.initial)).keepAlloc (count * (16 * ((s.regs.val 6).toNat / 2 ^ 16)))).isNone = true ∧
    (s.core s.home).poisonFault s.home (s.keptWords s.me (s.regs.val 7).toNat 16) = none ∧
    ({ s.core s.home with lpoison := [0x20] } : Core).poisonFault s.home (s.keptWords s.me (s.regs.val 7).toNat 16) =
      some ⟨0x0F, 0x06, 0x50200, 0⟩ ∧
    (let outer := viewing [viewOf 1 true] [worldOf false] []
     let nested := viewing [viewOf 2 true, viewOf 1 false] [worldOf false] []
     let late := viewing [viewOf 1 true] [worldOf true] []
     outer.me.inWorld = true ∧ (outer.pkg 0).world (viewOf 1 true).world = some (worldOf false) ∧
       (late.pkg 0).world (viewOf 1 true).world = some (worldOf true) ∧ nested.me.views.length = 2 ∧
       (nested.pkg 0).world (viewOf 2 true).world = some (worldOf false)) := by
  exact ⟨ports_none _ _ _ (by decide), by decide⟩

/-! #### Events -/

/-- A package's state beside the thread of the witnesses. -/
def inPackage (p : Package) : State := machine (stageCore (thread (regsOf [(1, 5)]))) p

/-- A message to core 5 from core 4, of its incarnation. -/
def msgOf (x : Payload) : Msg := ⟨4, 5, 7, x, false, 0, 0⟩

/-- The right of tenant 7 to start threads on every die, at entries below 0x100. -/
def rightOf : LaunchRight := ⟨BitVec.ofNat 128 (0x100 * 2 ^ 64 + 7 * 2 ^ 48 + 7 * 2 ^ 45 + 0xFF * 2 ^ 37), []⟩

/-- MessageArrivals: each kind of message from core 4, alone in the fabric, one that names an older incarnation, and refused
ones from another package. -/
theorem witness_messages :
    let s (m : Msg) : State := { inPackage { Package.initial with launch := [rightOf] } with fabric := [m] }
    let goes (m : Msg) : Prop := (s m).edgeHolds m.src m.dst = false ∧ (s m).admitted m = true ∧
      (s m).scribeHolds m.src m.dst = false ∧ (s m).heldBehind m.src m.dst = false ∧ (s m).carries m.src m.dst 2 = true ∧
      m.dinc = ((s m).pkg (pkgOf m.dst)).mapInc false (dieOf m.dst) ∧ (s m).startsFirst m.dst = false
    let q := Payload.queue 1 [1, 2] 0
    let c := Payload.callat 3 9 2 0
    let r := Payload.spawn ⟨7, 0x40, 9, 1, 0, 4, 2, 0⟩
    let l := Payload.launch 0xFE 1 9
    let k := Payload.command ⟨nullCap, 0, 0, 0, 0, 0, 0⟩ (some (2, 0))
    let far (x : Payload) : Msg := { msgOf x with src := 2 ^ 15 }
    (s (msgOf q)).fabric = [msgOf q] ∧ (∀ x ∈ [q, c, r, k, l], goes (msgOf x)) ∧
    (msgOf c).payload.asks = true ∧ ({ msgOf c with dinc := 1 }).dinc ≠ ((s (msgOf c)).pkg (pkgOf 5)).mapInc false (dieOf 5) ∧
    ((s (msgOf q)).core 5).nextHeld.isNone = true ∧ (s (msgOf k)).portBusy 4 5 = false ∧
    ((s (msgOf q)).core 5).discards 1 7 [1, 2] = false ∧ ((s (msgOf q)).core 5).discards 1 8 [1] = true ∧
    ((s (msgOf q)).pkg 0).waits 4 5 = false ∧ [1, 2].length ≤ (((s (msgOf q)).core 5).queue 1).free ∧
    (∀ x ∈ [q, c, r, l], (s (far x)).edgeHolds (2 ^ 15) 5 = false ∧ (s (far x)).admitted (far x) = false) ∧ (6 : Nat) ≠ 5 := by
  decide
/-- The route of a message from another package: it passes whatever module its sender takes, since none pauses. -/
theorem witness_far_route :
    let p := { Package.initial with routes := [(0, 0, true)] }
    ({ State.reset with pkgs := [(1, p)] }).carries (2 ^ 15) 5 2 = true := by
  intro p
  have serves (q d n : Nat) : ({ State.reset with pkgs := [(1, p)] } : State).serves 2 (.module q d n) = true := by
    have modules : (({ State.reset with pkgs := [(1, p)] } : State).pkg q).modules = [] := by
      by_cases h : q = 1
      · subst h; rfl
      · simp [State.pkg, look, Ne.symm h, State.reset, Package.initial]
    simp [State.serves, Package.module, modules]
  show (_ && (_ && (_ && true))) = true
  rw [serves, serves]
  decide

/-- A stage with a reservation of two entries on its own core's queue 4, its standing and its pooled entries given. -/
def reserving (standing resv : Nat) (granted : Bool) : Core :=
  { (core5 (thread Regs.initial)) with
    stages := (core5 (thread Regs.initial)).stages.set 3 ⟨0x804A8000, 7, 0, standing, granted, resv, 0⟩ }.setQueue 2
      ⟨[⟨9, none⟩], 0⟩

/-- WaitingDeliveries: a parked message whose queue has space; a held delivery that the log still holds back and one that
proceeds, of an entry, of a launch and of a command; a pooled peg; a reservation that is needed and can be held, one that the
queue has no space for and one whose core is saved; one granted, and none. -/
theorem witness_waiting :
    let d : Msg := { msgOf (.queue 1 [9] 0) with src := 4096 }
    let k : State := machine (reserving 0 1 false) { Package.initial with
      parked := [⟨4, 5, 1, 7, [9], 0, false⟩], scribeHeld := [d], pools := [⟨7, 4, [.peg 5 3 9]⟩] }
    let g := (k.core 5).stages[3]
    let full := k.updCore 5 fun k => k.setQueue 4 ⟨List.replicate 16 ⟨0, none⟩, 0⟩
    let away := k.saveCore 5
    (k.pkg 0).parked = [⟨4, 5, 1, 7, [9], 0, false⟩] ∧ (k.core 5).stopped = false ∧ ((k.core 5).queue 1).admits 1 0 = true ∧
    (k.core 5).discards 1 7 [9] = false ∧ (k.pkg 0).scribeHeld = [d] ∧ dieOf 5 = 0 ∧ d.payload.starts = false ∧
    (Payload.launch 0 1 9).starts = true ∧ k.startsFirst 5 = false ∧
    (Payload.command ⟨nullCap, 0, 0, 0, 0, 0, 0⟩ (some (2, 0))).isCommand = true ∧ k.portBusy 4096 5 = false ∧
    k.scribeHolds 4096 5 = false ∧ 0 < g.poolResv ∧ k.saved 5 = false ∧ ((k.pkg 0).scribe 0).entries.length < 64512 ∧
    ((k.pkg 0).pool 7).items.find? (·.isPeg 5 3) = some (.peg 5 3 9) ∧
    (k.core 5).needsReservation 3 = true ∧ stageOutput 5 g.bits = some (5, 4) ∧ g.rout ≤ ((k.core 5).queue 4).free ∧
    k.carries 5 5 4 = true ∧ k.routed 0 0 = true ∧ ((full.core 5).queue 4).free < g.rout ∧ (full.core 5).needsReservation 3 = true ∧
    away.saved 5 = true ∧ (away.core 5).needsReservation 3 = true ∧
    g.granted = false ∧ ((machine (reserving 0 1 true) Package.initial).core 5).stages[3].granted = true := by decide
theorem log_full (l : List Scribe) (full : 64512 ≤ l.length) :
    (inPackage { Package.initial with scribes := [(0, ⟨0, l, false, []⟩)] }).scribeHolds 4096 5 = true := by
  show (true && (true && decide (64512 ≤ l.length))) = true
  rw [decide_eq_true full]; rfl
theorem witness_log_full (e : Scribe) :
    (inPackage { Package.initial with scribes := [(0, ⟨0, List.replicate 64512 e, false, []⟩)] }).scribeHolds 4096 5 = true :=
  log_full _ (List.length_replicate ▸ Nat.le_refl _)

/-- A core whose sequencer holds an entry of slot 2 for the vector pipe. -/
def sequencing (t : Slot) : State :=
  machine { core5 t with seq := [⟨2, [.faddV 1 2 3 9 0], [], 1, 0, 0, [], 0, 0, false⟩] } Package.initial

/-- ThreadStartsAndWakes: a stage that is chosen and one that is not; a held launch with a FREE slot; each thing a thread waits
for, come and not come, at the edge of its time; a losing rival; a reply; a pipe with work; a stopped core. -/
theorem witness_wakes :
    let firing := machine ((stageCore (thread Regs.initial)).setQueue 2 ⟨[⟨entryOf 1 2 3 4, none⟩], 0⟩) Package.initial
    let launches := inPackage { Package.initial with pools := [⟨7, 0, [.launch 5 0x40 1 9 0]⟩] }
    let waits (w : Wait) : State := (machine (stageCore { thread { Regs.initial with qdn := [1, 2, 3, 4] } with
      wait := w, lch := true }) { Package.initial with ptc := 100 }).updCore (downstream 5) fun k =>
        { k with stages := k.stages.set 3 { Stage.empty with bits := 0x4080400000, tenant := 7 } }
    let bar (l : List Nat) : State := (running Regs.initial).setBarrier
      { (running Regs.initial).barrier 7 4 0 with signals := l }
    let replied := atSlot { thread Regs.initial with reply := some ⟨Regs.initial, 0, false, 0, 3, 0⟩ }
    let late : Msg := msgOf (.status 2 0 9)
    let told (m : Msg) : State := { running Regs.initial with fabric := [m] }
    firing.firingChoice 5 = some 3 ∧ (firing.core 5).freeSlots = [0, 1, 3, 4, 5, 6, 7] ∧
    (inPackage Package.initial).firingChoice 5 ≠ some 3 ∧
    (∀ i : Fin 16, ((launches.core 5).eligible i && (launches.core 5).stages[i].hcl) = false) ∧
    launches.heldLaunches 5 = [(7, .launch 5 0x40 1 9 0)] ∧ (launches.core 5).startSlot = some 0 ∧
    (launches.core 5).stopped = false ∧
    ((waits (.port .qrx)).slot 5 2).wait = .port .qrx ∧ Port.qrx ≠ .qdn ∧
    ((waits (.port .qdn)).slot 5 2).wait = .port .qdn ∧ ((waits (.port .qdn)).slot 5 2).lch = true ∧
    ((waits (.port .qdn)).slot 5 2).regs.qdn.length = 4 ∧ ((waits .none).core (downstream 5)).holdsStage 7 = true ∧
    ((waits .none).core 5).releases = [] ∧ 0 < (((waits .none).core (downstream 5)).queue 5).free ∧
    ((waits (.deadline 100)).slot 5 2).wait = .deadline 100 ∧ ((waits (.deadline 101)).slot 5 2).wait = .deadline 101 ∧
    ((waits .none).pkg (pkgOf 5)).ptc.toNat = 100 ∧ ((bar [5]).barrier 7 4 0).signals = [5] ∧ ((bar []).barrier 7 4 0).signals = [] ∧
    ((viewing [viewOf 1 true] [worldOf true] []).slot 5 2).state = .ready ∧
    (replied.slot 5 2).reply = some ⟨Regs.initial, 0, false, 0, 3, 0⟩ ∧ replied.replyCarried 5 ⟨Regs.initial, 0, false, 0, 3, 0⟩ = true ∧
    (bar [5]).carries 5 (controlAgent ((bar [5]).barrierHub 4 5)) 4 = true ∧ ((told late).slot 5 2).reply = none ∧
    (told late).statusFor 5 2 = some late ∧ late.sinc = ((told late).pkg (pkgOf late.src)).mapInc false (dieOf late.src) ∧
    (told { late with sinc := 1 }).statusFor 5 2 = some { late with sinc := 1 } ∧
    ({ late with sinc := 1 }).sinc ≠ ((told late).pkg (pkgOf late.src)).mapInc false (dieOf late.src) := by decide

/-- A package whose modules of base die 0 all pause. -/
def pausedPackage : Package := { Package.initial with modules := (List.range 16).map fun n => ⟨0, n, true, 64, false⟩ }

/-- ThreadStartsAndWakes, WaitingDeliveries: a link that does not serve, whichever module a triple takes: it holds back a
barrier's arrival. -/
theorem witness_held_link :
    let s : State := machine (core5 (thread Regs.initial)) pausedPackage
    s.carries 5 (controlAgent (s.barrierHub 4 5)) 4 = false := by
  have paused : ∀ n < 16, (pausedPackage.module 0 n).paused = true := by decide
  have first : ∀ n, (machine (core5 (thread Regs.initial)) pausedPackage).serves 4 (.module 0 0 (n % 16)) = false := fun n => by
    show (!(pausedPackage.module 0 (n % 16)).paused && _) = false
    rw [paused _ (Nat.mod_lt n (by decide))]; rfl
  show (_ && _) = false
  exact Bool.and_eq_false_imp.mpr fun h => absurd ((first _).symm.trans h) (by decide)

/-- ThreadStartsAndWakes: a pipe that takes an entry of the slot table's thread, of a handler's and of the next in rotation, in
the core's cycle and after it; a thread's oldest entry, an older one of the other pipe, and one that a later entry waits
for; a core that is stopped. -/
theorem witness_pipes :
    let e (l : List Instr) : SeqEntry := ⟨2, l, [], 1, 0, 0, [], 0, 0, false⟩
    let s (l : List SeqEntry) (f : Core → Core) : State :=
      machine (f { core5 (thread Regs.initial) with seq := l }) Package.initial
    let add := e [.faddV 1 2 3 9 0]
    let special := e [.fexp2V 4 5 9 0]
    let meets := e [.fexp2V 1 5 9 0]
    let seq := s [add] id
    let both := s [special, add] id
    let table (cycle : Nat) := s [add] fun k => { k with cycle := cycle, turns := k.turns.set 27 0x82 }
    let handler := s [add] fun k => { k with cycle := 28 }.setSlot 2 { thread Regs.initial with hcl := true }
    seq.pipeReady 5 false 2 = true ∧ seq.pipeChoice 5 false 0 = some 2 ∧ (seq.core 5).stopped = false ∧
    (27 % 32 < 28 ∧ ((table 27).core 5).turns[Fin.ofNat 32 27].getLsbD 7 = true ∧
      ((table 27).core 5).turns[Fin.ofNat 32 27].toNat % 8 = (2 : Fin 8).val ∧ (table 27).pipeReady 5 false 2 = true) ∧
    (28 ≤ 28 % 32 ∧ ((handler.core 5).slot 2).hcl = true ∧ handler.pipeReady 5 false 2 = true ∧
      ∀ i < (2 : Fin 8), ((handler.core 5).slot i).hcl = false) ∧
    (both.core 5).seq.filter (·.slot == 2) = [special] ++ add :: [] ∧ add.form.map (·.specialPipe) = some false ∧
    special.form.map (·.specialPipe) = some true ∧ both.pipeReady 5 false 2 = true ∧ both.seqReady 5 2 = true ∧
    (s [meets, { add with body := [.faddV 2 1 3 9 0] }] id).pipeReady 5 false 2 = false ∧
    max (seq.core 5).cycle (seq.core 5).turn.1 = (seq.core 5).cycle ∧
    ((seq.updCore 5 fun k => { k with stopped := true }).core 5).stopped = true := by decide

/-- A peg of the thread in slot 2, of a class, that has come to the service OS or not. -/
def faultPegOf (cls : BitVec 8) (svc : BitVec 2) : FaultPeg := ⟨0, 0, cls, 0, false, svc, 0, 2⟩

/-- FaultEvents: a pending fault of a thread with entries in the sequencer and of one without; a peg that waits for the last
place of queue 7 and a full queue; pegs of each class that the service OS keeps and hands on; a PARKED thread with a code fault,
and one with its code in the image. -/
theorem witness_fault_events :
    let pend : Slot := { thread Regs.initial with pendFault := some ⟨0x0B, 1, 0, 0, false⟩ }
    let wait (n : Nat) : State := machine (handlerCore n { thread Regs.initial with peg := some (.slot (faultPegOf 0x0B 0)) }) Package.initial
    let gone (n : Nat) : State := machine (handlerCore n (thread Regs.initial)) { Package.initial with
      service := { Service.initial with pegs := [(5, 9)] } }
    let held (cls : BitVec 8) (hcl : Bool) (cause : Word) : State :=
      machine (handlerCore 15 { thread Regs.initial with
        peg := some (.service (faultPegOf cls 0)), state := .parked, hcl := hcl, faultCause := cause })
        { Package.initial with tenants := [Tenant.ofCode 7 [0x4400]] }
    let t (hcl : Bool) (cause : Word) : Slot := (held 0x03 hcl cause).slot 5 2
    ((sequencing pend).slot 5 2).pendFault = some ⟨0x0B, 1, 0, 0, false⟩ ∧ ((sequencing pend).core 5).seqBusy 2 = true ∧
    ((atSlot pend).core 5).seqBusy 2 = false ∧ ((atSlot pend).slot 5 2).peg = none ∧ ((atSlot pend).slot 5 2).views = [] ∧
    (((wait 15).core 5).queue 7).free = 1 ∧ (wait 15).saved 5 = false ∧
    ((wait 15).core 5).waitingPeg = some (2, faultPegOf 0x0B 0) ∧ (((wait 16).core 5).queue 7).free = 0 ∧
    (∀ cls ∈ [(0x04 : BitVec 8), 0x0F], ((held cls false 0).slot 5 2).peg = some (.service (faultPegOf cls 0)) ∧
      (held cls false 0).serviceKeeps 5 2 = false ∧ (held cls true 0).serviceKeeps 5 2 = true) ∧ (faultPegOf 0x04 0).svc = 0 ∧
    ((wait 15).saveCore 5).saved 5 = true ∧ ((held 0x0F false 0).saveCore 5).saved 5 = true ∧ ((gone 15).core 5).waitingPeg = none ∧
    ((gone 15).pkg (pkgOf 5)).service.pegs.find? (·.1 == 5) = some (5, 9) ∧ (((gone 15).core 5).queue 7).free = 1 ∧
    (((held 0x0F false 0).core 5).queue 7).free = 1 ∧ ((held 0x0F false 0).core 5).pegWaits 2 = false ∧
    (held 0x03 true 0).saved 5 = false ∧ (t true 0x03060000).state = .parked ∧ (t true 0x03060000).gen = (faultPegOf 0x03 0).gen ∧
    (t true 0x03060000).faultCause.extractLsb' 16 16 = 0x0306 ∧ (t true 0).faultCause.extractLsb' 16 16 ≠ 0x0306 ∧
    (held 0x03 true 0).codeHalf (pkgOf 5) (t true 0) (t true 0).faultPc = some 0x4400 ∧
    (t true 0).views = [] ∧ (t true 0).gang = 0 ∧ ((held 0x03 true 0).pkg 0).worlds = [] := by decide

/-- HomeActions: a thread that waits with each kind of action; a refused `WAITNE`; a lookaside buffer and a table with a row; a
leaf at level 1 that no cache holds, and none. -/
theorem witness_home :
    let w (i : Instr) (x : Wait) : State := atSlot { thread Regs.initial with wait := x, held := some i }
    let kind (i : Instr) : Option HomeAction := (homeMeaning i).map (·.1)
    let p : Package := { Package.initial with rights := [⟨7, false, 1, 5⟩], tables := [(0, 0x8000000000000000 ||| BitVec.twoPow 64 62)] }
    kind (.ldImm 3 1 6 0) = some .read ∧ plainRead (.ldImm 3 1 6 0) = true ∧ kind (.stImm 3 1 6 0) = some .write ∧
    kind (.aadd 3 0 4 1 0 0 0) = some .rmw ∧ kind (.mxld 4 6 10 2 19) = some .block ∧
    kind (.waitne 5 6 0 1 1 4 0) = some .compare ∧
    ((w (.ldImm 3 1 6 0) .request).slot 5 2).wait = .request ∧ ((w (.ldImm 3 1 6 0) .request).slot 5 2).held = some (.ldImm 3 1 6 0) ∧
    ((w (.ldImm 3 1 6 0) .request).slot 5 2).reply = none ∧ ((w (.ldImm 3 1 6 0) .request).slot 5 2).gone = false ∧
    ((w (.waitne 5 6 0 1 1 4 0) .monitorRetry).slot 5 2).wait = .monitorRetry ∧
    ((w (.waitne 5 6 0 1 1 4 0) .monitorRetry).core 5).stopped = false ∧
    ((inPackage p).core 5).plbFind 7 1 false = none ∧
    ((inPackage p).pkg (pkgOf 5)).rights.find? (fun r => r.dom == 7 && r.region == 1 && r.host == false) = some ⟨7, false, 1, 5⟩ ∧
    homePkg 0x1000 = 0 ∧ p.walk 0x1000 = .ok 0x1000 ∧ p.cachedLeaf 0x1000 = none ∧ Package.initial.walk 0x1000 = .error 1 ∧
    (inPackage p).podSize > 0 ∧ ((inPackage p).pkg 0).rebuild.contains (lineOf 0x1000) = false ∧
    p.l2.contains (lineOf 0x1000) = false ∧ p.hasRoom (lineOf 0x1000) = true := by decide
/-- And a set all of whose ways are disabled. -/
theorem witness_full_set :
    let p : Package := Package.initial
    let q : Package := { p with ways := (List.range 16).map fun w => (p.baseDie (homePos 0x1000) * 128 + homeSlice 0x1000) * 16 + w }
    q.hasRoom (lineOf 0x1000) = false := by decide

/-- EngineEvents: a job at the head of the queue with a panel in the latch, one that has started with a good binding and
with none, in LOCAL space; and an `MPASS` of the core before that waits, with a panel and with none, of a tenant that the core holds a
stage of, with room and without, and of another. -/
theorem witness_matrix_events :
    let panel : Panel := ⟨12, [], [], false⟩
    let job (started : Bool) (bind : Option ABinding) : Job :=
      ⟨1, 12, 1, bind, 0, 0, 5, none, 0, 7, [], [], if started then some panel else none, started, false⟩
    let s (j : Job) : State := (running Regs.initial).updMatrix 5 fun m => { m with jobs := [j], latch := [panel] }
    let bound := s (job true (some ⟨0, 0, 12⟩))
    let pass (ten n l : Nat) : State := (machine ({ stageCore (thread Regs.initial) with matrix := unitOf 0 l }) Package.initial).updCore 4
      fun k => { k.setSlot 1 { Slot.initial with wait := .panel, tenant := ten } with matrix := unitOf 0 n }
    let src := 5 / 4 * 4 + (5 + 3) % 4
    let held (s : State) : Bool := (s.core 5).holdsStage (s.slot src 1).tenant
    ((s (job false none)).core 5).matrix.jobs = [job false none] ∧ ((s (job false none)).core 5).matrix.latch = [panel] ∧
    (job false none).started = false ∧ (job true none).started = true ∧ (job true none).space = 0 ∧ bound.saved 5 = false ∧
    (bound.core 5).jobStatus (job true (some ⟨0, 0, 12⟩)) .none = 0x01 ∧ ((s (job true none)).core 5).jobStatus (job true none) .none ≠ 0x01 ∧
    ((s (job true none)).core 5).jobStatus (job true none) .none ≠ 0x04 ∧ bound.pairServed 5 5 = true ∧ bound.routed 0 0 = true ∧
    (bound.pkg (pkgOf 5)).fenced.contains (false, (bound.pkg (pkgOf 5)).coreDie (dieOf 5)) = false ∧
    (∀ n : Fin 8, (bound.slot src n).wait ≠ .panel) ∧
    (∀ l ∈ [1, 2], ((List.finRange 8).find? fun n => ((pass 7 1 l).slot src n).wait == .panel) = some 1) ∧
    ((pass 7 0 1).core src).matrix.latch = [] ∧ ((pass 7 1 1).core src).matrix.latch ≠ [] ∧
    held (pass 8 1 1) = false ∧ held (pass 7 1 1) = true ∧ ((pass 7 1 1).core 5).latchFull = false ∧
    ((pass 7 1 2).core 5).latchFull = true := by decide

/-- A copy of the table with its progress. -/
def copyAt (f : Copy → Copy) : State := copying [f (entry 3 true false)] []

/-- The thread's copy 3 with one unit, and that entry. -/
def unitAt (st ack broken : Bool) (n : Nat) : CopyUnit := ⟨0, 16, List.replicate 16 0, st, ack, broken, n⟩
def copyWith (u : CopyUnit) : State := copyAt fun x => { x with started := true, units := [u], next := 16 }
def copyStarted : State := copyAt fun x => { x with started := true, sliceEnd := 4096 }

/-- EngineEvents: a copy that may start; a first unit that is read; one that is staged, one that is acknowledged and one
that is released, broken twice and whole; a copy that has ended and one that has not; and one that a page fault stalls. -/
theorem witness_copy_starts :
    (((copyAt id).enterQueue 5).nextStart 5).map (·.1) = some 5 ∧ (entry 3 true false).pred = none ∧
    (((copyAt id).enterQueue 5).nextStart 5).all (fun x => x.2.id == 3 && x.2.pred == none) = true ∧
    ((copyAt id).enterQueue 5).engineLoad 5 < 4 := by decide
theorem witness_copy_reads :
    let desc := (entry 3 true false).desc
    ((copyStarted.core 5).copy 3).all (fun x =>
      x.started && !x.posted && x.stalled == none && copyStarted.nextRead 5 x == some (0, 16)) = true ∧
    ((State.readPiecesOf 5 desc.src desc.soff.toInt (linePieces desc.src desc.soff.toInt 0 66 16) copyStarted).toOption).isSome = true ∧
    ((State.reachPieces 5 desc.dst desc.doff.toInt (linePieces desc.dst desc.doff.toInt 0 66 16) copyStarted).toOption).isSome = true := by
  decide
theorem witness_copy_units :
    let has (s : State) (f : Copy → Bool) : Prop := ((s.core 5).copy 3).any f = true
    let read := copyWith (unitAt false false false 0)
    (∀ u ∈ [unitAt false false false 0, unitAt true false false 0, unitAt true true true 2, unitAt true true false 0],
      has (copyWith u) fun x => x.unit 0 == some u && x.units == [u] && x.stalled == none) ∧
    (has read fun x => read.stageRoom 5 x (unitAt false false false 0)) ∧
    (has (copyAt fun x => { x with started := true, next := 16 }) (·.ended)) ∧ (has copyStarted fun x => !x.ended) ∧
    has (copyAt fun x => { x with stalled := some (0, 0x1000, true) }) fun x => x.stalled == some (0, 0x1000, true) := by decide
theorem witness_copy_record :
    let s := copyAt fun x => { x with started := true, next := 16 }
    let x : Copy := { entry 3 true false with started := true, next := 16 }
    let b := placeOf 5 x.desc.mbox x.desc.moff.toInt
    s.saved 5 = false ∧ (s.saveCore 5).saved 5 = true ∧ homePkg 0x1000 < s.podSize ∧
    (s.engineWrite 5 b.space b.core b.addr 0 x.record (some (5, 3))).isSome = true := by decide

/-- CommitEvents: a commit whose floor this package has still to raise, one that waits for an acknowledgement, one ready to be
recorded; a release that is ready and one whose line is still written back. -/
theorem witness_commits :
    let c (raise acks : List Nat) : Commit := ⟨1, 5, 2, [32], raise, acks, false⟩
    let p (raise acks : List Nat) : State := inPackage { Package.initial with commits := [c raise acks] }
    let r (lines : List (Nat × BitVec 16)) : Release := ⟨2, 0, 7, .send 5 1 [9], lines⟩
    let rel (lines : List (Nat × BitVec 16)) : State := machine { core5 (thread Regs.initial) with releases := [r lines] } Package.initial
    ((p [0] []).pkg 0).commits = [c [0] []] ∧ (c [0] []).raise.contains 0 = true ∧ ((p [] [0]).pkg 0).commits = [c [] [0]] ∧
    (c [] [0]).acks.contains 0 = true ∧ (c [0] []).raise ≠ [] ∧ (c [] [0]).acks ≠ [] ∧ (c [] []).raise = [] ∧ (c [] []).acks = [] ∧
    ((rel []).core 5).nextRelease 2 = some (r []) ∧ ((rel []).core 5).stopped = false ∧ (r []).lines = [] ∧
    ((rel [(32, 1)]).core 5).nextRelease 2 = some (r [(32, 1)]) ∧ (r [(32, 1)]).lines ≠ [] := by decide

/-- A stripe of ten packages. -/
def stripe : List Nat := List.range 10

/-- CodingEvents: a write-back with no check done and with both; a page in transit; a stripe that repeats a package and a good
one of a mapped page; a page in no stripe and one in a stripe; a lost line in none. -/
theorem witness_coding :
    let w (p q : Bool) : Writeback := ⟨32, 0, stripe, List.replicate 128 0, 0, p, q, none⟩
    let s (p q : Bool) : State := inPackage { Package.initial with wbacks := [w p q] }
    let tr : Transit := ⟨[0], stripe, true, [(32, true, true)]⟩
    let first : Transit := ⟨[0], stripe, true, [(32, false, false), (33, false, false)]⟩
    let begun := inPackage { Package.initial with transits := [first] }
    let moving := inPackage { Package.initial with transits := [tr] }
    let mapped := inPackage { Package.initial with tables := [(0, 0x8000000000000000 ||| BitVec.twoPow 64 62)] }
    let coded := inPackage { Package.initial with coded := [(0, stripe)] }
    let lost := inPackage { Package.initial with rebuild := [32] }
    homePkg (32 * 128) = 0 ∧ ((s false false).pkg 0).wbacks = [w false false] ∧ (w false false).line = 32 ∧
    ((s false false).pkg 0).transits = [] ∧ (moving.pkg 0).transits = [tr] ∧ 32 / 512 ∈ tr.pages ∧ (begun.pkg 0).transits = [first] ∧
    32 / 512 ∈ first.pages ∧ first.lines = (32, false, false) :: [(33, false, false)] ∧ begun.checkLost 32 first.stripe true = false ∧
    (s false false).checkLost 32 stripe true = false ∧ (s false false).checkLost 32 stripe false = false ∧
    ((s true true).pkg 0).wbacks = [w true true] ∧
    mapped.goodStripe (0 :: 0 :: List.range 8) = false ∧ mapped.goodStripe stripe = true ∧ stripe.findIdx (· == homePkg 0) < 8 ∧
    (mapped.pkg 0).dirty = [] ∧ (coded.pkg 0).dirty = [] ∧ (coded.pkg 0).transits = [] ∧ (mapped.pkg 0).transits = [] ∧
    (∀ g ∈ (mapped.pkg 0).leafPages 0, look (mapped.pkg 0).coded g = none) ∧ ((mapped.pkg 0).leaf 0).getLsbD 63 = true ∧
    look (mapped.pkg 0).coded 0 = none ∧ look (coded.pkg 0).coded 0 = some stripe ∧ (coded.pkg 0).rebuild = [] ∧
    (lost.pkg 0).nextRebuild = some 32 ∧ (lost.pkg 0).stripeOf 32 = none ∧ 0 < mapped.podSize := by decide

/-- CollectiveEvents: an item at a router whose other port has none yet and has one; an item of a port that is no child; a result;
nothing under way; rewrites that add a port, keep them, and bring one back between rounds and in one. -/
theorem witness_rounds :
    let t (items : List (Nat × Item)) : Truss := ⟨1, 9, trussBits 7 1 6 0x3F 0 3, items, none, []⟩
    let item : Item := ⟨Elem.zero, 0, [], 0, 0, 0, 1, 0⟩
    let s (items : List (Nat × Item)) (m : List CollMsg) : State :=
      { inPackage { Package.initial with truss := [t items] } with collMsgs := m }
    let m (port : Nat) (down : Bool) : CollMsg := ⟨7, 0, 0, .core 4, false, 1, port, 9, item, 1, down, false⟩
    (s [] [m 1 false]).trussAt 1 9 = some (t []) ∧ (s [(2, item)] []).trussAt 1 9 = some (t [(2, item)]) ∧
    (s [] [m 1 false]).collMsgs = [m 1 false] ∧ (s [] [m 1 false]).collComes (m 1 false) = true ∧
    (s [] [m 1 true]).collComes (m 1 true) = true ∧ 1 ∈ (t []).children ∧ 3 ∉ (t []).children ∧ look (t []).items 1 = none ∧
    (2 ∈ (t []).children ∧ look (t []).items 2 = none) ∧ look (t [(2, item)]).items 1 = none ∧ (m 1 true).down = true ∧
    (7#40) ≠ 0 ∧ 40 ≤ (0x3F#6).toNat ∧ (t []).items = [] ∧ (t []).kept = none ∧ (t []).cmask &&& ~~~(7#40) = 0 ∧
    (s [] []).roundOver 7 9 = true ∧ (t []).dom = 7 ∧ (t [(2, item)]).items ≠ [] := by decide

/-- A router belongs to the tree that it is asked of. -/
theorem witness_tree (s : State) (g : Nat) : ∀ (n : Nat) (l : List Nat), 1 ∈ l → 1 ∈ s.treeOf g n l
  | 0, _, h => h
  | n + 1, l, h => witness_tree s g n _ (by
      rw [List.mem_eraseDups]; exact List.mem_append_left _ h)

/-- LinkEvents: a die-map entry that fits and one that does not; markers that have arrived, of a die and of a route; a module that
serves and one that pauses, with 31, 32 and 64 lanes; the last port, up; the last destination, with a route and without; a counter
ahead and behind; synchronisation in time and a millisecond late. -/
theorem witness_links :
    let p := Package.initial
    let paused := p.setModule { p.module 8 15 with paused := true }
    let s := inPackage p
    let mark : DrainMark := .die false 3 0
    let marked : Package := { p with drains := [mark, .route 2047], newRoutes := [(2047, 5, true)] }
    let routed : Package := { p with routes := [(2047, 31, true)] }
    let down : Package := (routed.setPort { routed.port 31 with down := true })
    let closed : Package := { p with routes := [(2047, 31, false)] }
    let late (t : BitVec 64) : Package := { p with ptc := t, syncAt := 1000 }
    let two : State := { inPackage p with pkgs := [(0, p), (1, p)] }
    let lent : State := { State.reset with pkgs := [(0, p), (1, { p with spare := true })] }
    s.entryFits 0 false 7 (cleanEntry false 0x80040001) = true ∧ s.entryFits 0 false 7 (cleanEntry false 0x00040001) = false ∧
    s.entryFits 0 true 8 (cleanEntry true 0x8001) = true ∧ s.entryFits 0 true 8 (cleanEntry true 0x9001) = false ∧
    marked.drains.contains mark = true ∧ (∀ d ∈ List.range 8, mark ≠ .route d) ∧ marked.drains.contains (.route 2047) = true ∧
    look marked.newRoutes 2047 = some (5, true) ∧ look p.routes 2047 = none ∧ look routed.routes 2047 = some (31, true) ∧
    (routed.port 31).down = false ∧ routed.drains.contains (.route 2047) = false ∧ (p.port 0).down = false ∧ (down.port 31).down = true ∧
    (look closed.routes 2047).map (·.2) = some false ∧ marked.drains.contains (.route 2047) = true ∧ s.keeper = some 0 ∧
    (p.parent.or (s.chooseParent 0 none)) = none ∧ (p.parent.or (two.chooseParent 1 none)) = some 0 ∧ two.keeper ≠ some 1 ∧ p.alive = true ∧
    lent.entryFits 0 false 7 (cleanEntry false (braceEntry 0 1 3)) = true ∧ (placeOfEntry 0 false (cleanEntry false (braceEntry 0 1 3))) = (1, 3) ∧
    p.coreDie 3 = 3 ∧ ¬(p.alive = true ∧ s.keeper ≠ some 0) ∧
    (p.module 8 15).lost = false ∧ (paused.module 8 15).paused = true ∧
    (p.port 31).down = false ∧ (31 : Nat) < 32 ∧ (2047 : Nat) < 2048 ∧ (0 : Int) < ((5 : Int) - 3 + (7 - 4)) / 2 ∧
    ((3 : Int) - 5 + (4 - 7)) / 2 ≤ 0 ∧ p.syncLost = false ∧ (late 1001000).syncAt.toNat + 10 ^ 6 ≤ (late 1001000).ptc.toNat ∧
    (late 1000999).ptc.toNat < (late 1000999).syncAt.toNat + 10 ^ 6 := by
  decide +kernel

/-- A core of a package that stops its die 0 at 1000, at a package time, that stands still or not, with its cut closed or not,
messages sent, and a resume time. -/
def pausing (ptc : BitVec 64) (stopped cut : Bool) (sent : Nat) (resume : Option Nat) : State :=
  { machine { stageCore (thread Regs.initial) with stopped := stopped, sent := sent } { Package.initial with ptc := ptc } with
    stops := [⟨[0], [0], 1000, resume, cut⟩] }

/-- Preemption: a partition that shares no die and one that does, packages that have lost their synchronisation or not; a core
before its stop time and at it; counts that agree and that do not; a closed cut and an open one; a core saved, restored and at its
resume time and before it. -/
theorem witness_preemption :
    let s := inPackage Package.initial
    let open_ (sent : Nat) := pausing 1000 true false sent none
    let back (ptc : BitVec 64) := pausing ptc true true 0 (some 2000)
    let h : Machine.Preemption := ⟨[0], [0], 1000, none, false⟩
    let sum (s : State) (f : Core → Nat) : Nat := (s.cutCores h).foldl (fun n k => n + f k.2) 0
    goodPartition [0] [0, 7] = true ∧ s.overlaps [0] [0, 7] = false ∧ [0].length = 1 ∧ goodPartition [0, 1] (List.range 8) = true ∧
    (s.pkg 0).syncLost = false ∧ (s.pkg 1).syncLost = false ∧ (open_ 0).overlaps [0] [0, 7] = true ∧
    ((pausing 1000 false false 0 none).core 5).stopped = false ∧ (pausing 1000 false false 0 none).mustStop 5 = true ∧
    (pausing 999 false false 0 none).mustStop 5 = false ∧ (open_ 0).stops = [h] ∧ 0 ∈ h.pkgs ∧ h.cutClosed = false ∧
    (∀ k ∈ (open_ 0).cutCores h, k.2.stopped = true ∧ k.2.working = false) ∧ ((open_ 0).cutCores h).length = 1 ∧
    (open_ 0).treeBusy h = false ∧ ((open_ 0).pkg 0).modules = [] ∧
    sum (open_ 0) (·.sent) = sum (open_ 0) (·.received) + (open_ 0).leaving h + (open_ 0).parkedItems h ∧
    sum (open_ 1) (·.sent) ≠ sum (open_ 1) (·.received) + (open_ 1).leaving h + (open_ 1).parkedItems h ∧
    ((back 1000).core 5).stopped = true ∧ (back 1000).saved 5 = false ∧ (back 1000).stopFailed 5 = false ∧
    (∀ a : Fin 4, ((back 1000).core 5).matrix.flipped[a] = false) ∧ ((back 1000).stopping 5).any (·.cutClosed) = true ∧
    (∀ m ∈ ((open_ 0).pkg 0).modules, m.paused = false) ∧
    ((open_ 0).stopping 5).any (!·.cutClosed) = true ∧
    (look (((back 1000).saveCore 5).pkg (pkgOf 5)).contexts 5).isSome = true ∧
    ((back 2000).stopping 5).bind (·.resumeTime) = some 2000 ∧ 2000 ≤ ((back 2000).pkg (pkgOf 5)).ptc.toNat ∧
    (back 2000).caughtUp 5 = true ∧ ((back 1999).pkg (pkgOf 5)).ptc.toNat < 2000 := by decide

/-- A package whose host port is changed. -/
def hosting (f : HostPort → HostPort) : State := inPackage { Package.initial with host := f HostPort.initial }

/-- A queue pair of 16 entries each, enabled and ready, with `n` entries in use and completions waiting. -/
def pairOf (q n : Nat) (w : List HostCompletion) : QueuePair :=
  { QueuePair.initial q with qsz := 0x00100010, enable := true, ready := true, quiesced := false, used := n, waiting := w }

/-- HostPort: pairs that are not enabled, with rings that pass their checks and that do not; enabled ones at the last entry of
their ring; an entry that is well formed; a completion with one place free and with none; an event with pair 0 enabled and
not; a host that hosts itself and one that does not; each state of the function. -/
theorem witness_pairs :
    let c : HostCompletion := ⟨0, 1, 0, 0, 7⟩
    let h := HostPort.initial
    let good := h.setPair { QueuePair.initial 63 with qsz := 0x00100010 }
    let up (n : Nat) : HostPort := h.setPair (pairOf 63 n [c])
    let entry : List Byte := [2, 0, 1, 0, 7, 0] ++ List.replicate 58 0
    let rung := hosting fun h => { h.setPair (pairOf 63 0 []) with mem := h.mem.writeN 0 entry }
    h.state ≠ .reset ∧ (63 : Nat) < 64 ∧ (good.pair 63).enable = false ∧ ringSizeOk (good.pair 63).sqSize = true ∧
    ringSizeOk (good.pair 63).cqSize = true ∧ (good.pair 63).sqb.extractLsb' 0 12 = 0 ∧ (good.pair 63).cqb.extractLsb' 0 12 = 0 ∧
    ringSizeOk (h.pair 63).sqSize = false ∧ ((up 0).pair 63).enable = true ∧ 15 < ((up 0).pair 63).cqSize ∧
    ((up 0).pair 63).serves = true ∧ ((up 0).pair 63).sqh = 0 ∧ 1 < ((up 0).pair 63).sqSize ∧
    (0 + 1) % ((up 0).pair 63).sqSize = 1 ∧ (rung.pkg 0).host.commands = [] ∧ ((rung.pkg 0).host.pair 63).serves = true ∧
    rung.entryOk ((rung.pkg 0).host.mem.readN (((rung.pkg 0).host.pair 63).sqb.toNat + 64 * 0) 64) = true ∧
    (up 15).canPost 63 = true ∧ ((up 15).pair 63).waiting = [c] ∧ (up 16).canPost 63 = false ∧
    (h.pair 0).enable = false ∧ ((h.setPair (pairOf 0 0 [])).pair 0).enable = true ∧
    ((hosting fun h => { h with events := [(7, 2)] }).pkg 0).host.events = [(7, 2)] ∧
    h.hosted = false ∧ ((hosting fun h => { h with hosted := true }).pkg 0).host.hosted = true ∧
    ((hosting fun h => { h with state := .reset }).pkg 0).host.state = .reset ∧
    ((hosting fun h => { h with state := .enumerated }).pkg 0).host.state = .enumerated := by decide
theorem witness_host_read :
    let i : Instr := .ldImm 3 1 6 0
    let s := atSlot { thread (Regs.initial.setCap 1 (Cap.make true 7 3 1 4 0x1000)) with wait := .request, held := some i }
    (s.slot 5 2).wait = .request ∧ (s.slot 5 2).held = some i ∧ (s.slot 5 2).reply = none ∧ s.heldHost 5 2 i = some 0x1000 := by decide

/-- A command of the host port: its number, tenant 7, core 5 at byte 16 and an entry at byte 20. -/
def commandOf (n e : Byte) : HostCommand :=
  ⟨63, 0, [n, 0, 1, 0, 7, 0] ++ List.replicate 10 0 ++ [5, 0, 0, 0, e] ++ List.replicate 43 0, false, false⟩

/-- A package with that command, the launch right of tenant 7 for the host or not, and a fenced die or none. -/
def commanding (k : HostCommand) (right fenced : Bool) : State :=
  inPackage { Package.initial with
    host := { HostPort.initial with commands := [k] }, launch := if right then [rightOf] else []
    fenced := if fenced then [(false, 0)] else [] }

/-- Each command, in a package that has raised and with no context image about; its launches refused and allowed, at the last entry and past it, held back by a
fenced die and not; a binding request that is malformed. -/
theorem witness_host_commands :
    (∀ n : Fin 5, cmdByte (commandOf (BitVec.ofNat 8 (n.val + 1)) 0xFF).bytes = n.val + 1 ∧
      ((commanding (commandOf (BitVec.ofNat 8 (n.val + 1)) 0xFF) true false).pkg 0).host.commands =
        [commandOf (BitVec.ofNat 8 (n.val + 1)) 0xFF]) ∧
    ((commanding (commandOf 3 0) true false).pkg 0).alive = true ∧
    ((inPackage { Package.initial with raised := false }).pkg 0).alive = false ∧
    (commanding (commandOf 1 0) true false).bindWaits 0 (fieldAt (commandOf 1 0).bytes 16 8) (fieldAt (commandOf 1 0).bytes 24 4) =
      false ∧ (commanding (commandOf 2 0) true false).savesPending 0 = false ∧
    (commanding (commandOf 3 0) false false).launchAllowed 0 7 5 none = false ∧
    (commanding (commandOf 3 0) true false).launchAllowed 0 7 5 none = true ∧
    (commanding (commandOf 4 0xFF) true false).launchAllowed 0 7 5 (some 0xFF) = true ∧
    (commanding (commandOf 4 0xFF) true false).launchAllowed 0 7 5 (some 0x100) = false ∧
    (commanding (commandOf 3 0) true false).launchWaits 0 5 = false ∧
    (commanding (commandOf 3 0) true true).launchAllowed 0 7 5 none = true ∧
    (commanding (commandOf 3 0) true true).launchWaits 0 5 = true ∧
    (readRequest HostPort.initial.mem 0x1000 0).isNone = true ∧ HostPort.initial.commands = [] ∧
    HostPort.initial.cxl = true ∧ HostPort.initial.accesses = [] ∧ HostPort.initial.state ≠ .reset := by decide

/-- HostCommands: launches to a core of another package, reached and not, in its rights; a start that comes first, and a host that
is absent. -/
theorem witness_far_launch :
    let k : HostCommand := ⟨63, 0, [3, 0, 1, 0, 7, 0] ++ List.replicate 10 0 ++ [5, 0x80, 0, 0, 0xFF] ++ List.replicate 43 0, false, false⟩
    let r : LaunchRight := { rightOf with pods := [0] }
    let p (valid : Bool) : Package := { Package.initial with launch := [r], routes := [(1, 0, valid)] }
    let s (valid : Bool) : State := { State.reset with pkgs := [(0, p valid), (1, p true)] }
    let busy := inPackage { Package.initial with launch := [rightOf], pools := [⟨7, 0, [.launch 5 0x40 1 9 0]⟩] }
    fieldAt k.bytes 16 4 = 2 ^ 15 + 5 ∧ (s true).routed 0 1 = true ∧ (s false).routed 0 1 = false ∧
    (s false).launchAllowed 0 7 (2 ^ 15 + 5) none = true ∧ (s false).launchAllowed 0 7 (2 ^ 15 + 5) (some 0xFF) = true ∧
    busy.launchAllowed 0 7 5 (some 0xFF) = true ∧ busy.routed 0 0 = true ∧ busy.startsFirst 5 = true ∧
    (commanding (commandOf 4 0xFF) true false).startsFirst 5 = false ∧ { HostPort.initial with state := .reset }.state ≠ .enabled := by
  decide +kernel

/-- HostCommands: a CXL.mem access of the whole of the last line of a package's range, one past it, and one whose line waits for
its rebuild. -/
theorem witness_cxl :
    let a := 2 ^ 39 - 128
    let p : Package := { Package.initial with l2 := [lineOf a] }
    let s := inPackage p
    a + (List.replicate 128 (0 : BitVec 8)).length ≤ 2 ^ 39 ∧ 2 ^ 39 < a + 1 + 128 ∧ 0 < s.podSize ∧
    (s.reachAll 0 (hostAgent 0) (0 * 2 ^ 41 + a) (linesOf (0 * 2 ^ 41 + a) 128)).toOption.isSome = true ∧
    (s.poisonAll 0 [] (linesOf (0 * 2 ^ 41 + a) 128)).toOption.isSome = true ∧
    (match (inPackage { p with rebuild := [lineOf a] }).reachAll 0 (hostAgent 0) (0 * 2 ^ 41 + a) (linesOf (0 * 2 ^ 41 + a) 128) with
      | .error (.wait _) => true
      | _ => false) = true := by decide +kernel

/-- ErrorEvents: a thread that runs and one that does not; the last word of a partition and the first that is out of it; the last of
local memory and the first past it; a queue entry of no log, one that a log holds, and none; a stop that serves, with no message
about and parked messages of its own; a line in L2, dirty and clean, and one in HBM alone; a die and a stack that serve, with
the diagnosis that asks for the remap and without; a package that serves. -/
theorem witness_errors :
    let s := inPackage Package.initial
    let parked := inPackage { Package.initial with parked := [⟨4, 5, 1, 7, [9], 0, false⟩] }
    let line (dirty : Bool) : State := inPackage { Package.initial with
      l2 := [32], dirty := if dirty then [{ line := 32, image := List.replicate 128 0, tags := [] }] else [] }
    let logged := machine ((stageCore (thread Regs.initial)).setQueue 2 ⟨[⟨8, some 4⟩], 0⟩) { Package.initial with
      scribes := [(0, ⟨5, [⟨4, 9, 5, 2, 0, 0, false, false, false, 0, 0⟩], false, []⟩)] }
    let asked : Package := { Package.initial with
      service := { Service.initial with taken := [⟨.stack 0 8, .die, .stackRemap⟩] } }
    (s.slot 5 2).state = .ready ∧ (s.core 5).seq = [] ∧ (s.slot 5 3).state = .free ∧ (3839 : Nat) * 16 < 65536 - 4096 * (s.core 5).kc ∧
    ¬(3840 : Nat) * 16 < 65536 - 4096 * (s.core 5).kc ∧ (4095 : Nat) < 4096 ∧
    (((reserving 0 0 false).queue 2).entries[0]?) = some ⟨9, none⟩ ∧ ((reserving 0 0 false).queue 2).entries[1]? = none ∧
    ((logged.core 5).queue 2).entries[0]? = some ⟨8, some 4⟩ ∧
    ((logged.pkg (pkgOf 5)).scribe (dieOf 5)).entries.any (·.seq == 4) = true ∧ s.fabric = [] ∧ s.collMsgs = [] ∧
    (∀ m ∈ (parked.pkg 0).parked, m.spilled = false ∧ stopOf m.core = 0 * 8192 + 0 * 1024 + 1 ∧ m.resv = 0) ∧
    homePkg 0x1000 < s.podSize ∧ lineOf 0x1000 = 32 ∧
    (∀ d ∈ [true, false], ((line d).pkg 0).l2.contains 32 = true ∧ ((line d).pkg 0).dirty.any (·.line == 32) = d) ∧
    (s.pkg 0).l2.contains 32 = false ∧ (s.pkg 0).fenced.contains (false, 8) = false ∧ (s.pkg 0).lostStacks = [] ∧
    (s.pkg 0).decided (asksStack 0 8) = false ∧ asked.decided (asksStack 0 8) = true ∧ asked.lostStacks = [] ∧ (0 : Nat) ≠ 8 ∧
    (s.pkg 0).failed = false ∧ ({ Package.initial with failed := true } : Package).failed = true ∧
    s.saved 5 = false ∧ (s.saveCore 5).saved 5 = true ∧
    (s.pkg 0).ways.contains (((s.pkg 0).baseDie (homePos 0x1000) * 128 + homeSlice 0x1000) * 16 + 15) = false := by decide
/-- And a read copy of a line of another home, and versions of a view in L2 and in its overflow space. -/
theorem witness_versions :
    let a := 2 ^ 41
    let p : Package := { Package.initial with
      copies := [⟨lineOf a, [], [], 0⟩], versions := [(3, lineOf a, false), (4, lineOf a, true)] }
    homePkg a = 1 ∧ 1 < (inPackage p).podSize ∧ 0 < (inPackage p).podSize ∧ (0 : Nat) ≠ homePkg a ∧ (3 : Nat) ≠ 0 ∧
    p.copies.any (·.line == lineOf a) = true ∧ p.versions.contains (3, lineOf a, false) = true ∧
    p.versions.contains (4, lineOf a, true) = true ∧ p.ways = [] := by decide

/-- A package with a council. -/
def council (c : Council) : State := inPackage { Package.initial with service := { Service.initial with council := some c } }

/-- ServiceEvents: the last notify register; processors that serve and no council; each ballot of a council; a trial that runs, at
120 s and before, and none; seven and eight serving dies; tenants with injection and without. -/
theorem witness_service :
    let d0 : Diagnosis := ⟨.coreDie 0 3, .die, .dieSparing⟩
    let d1 : Diagnosis := ⟨.stop 0 3 0 0, .stop, .stopSparing⟩
    let c (members : List Nat) (b : List (Nat × Nat)) (v0 : Nat) : Council := ⟨d0, d1, members, b, v0, 0⟩
    let trial (ptc : BitVec 64) : Package := { Package.initial with
      ptc := ptc, firmware := { Firmware.initial with trial := true, running := true } }
    let tn (i : Bool) : Package := { Package.initial with tenants := [{ Tenant.ofCode 7 [] with injection := i }] }
    (127 : Nat) < 128 ∧ Service.initial.alive0 = true ∧ Service.initial.alive1 = true ∧ Service.initial.council = none ∧ d0 ≠ d1 ∧
    d0.action ≠ .wayDisable ∧ d0.action ≠ .rollback ∧ d0.action ≠ .none ∧
    ((council (c [1] [] 0)).pkg 0).service.council = some (c [1] [] 0) ∧ (c [1] [] 0).members.contains 1 = true ∧
    (c [1] [(1, 0)] 1).votes0 = 1 ∧ delNum (c [1, 2] [(1, 2)] 0).members 1 ≠ [] ∧
    (trial 120000000000).firmware.trial = true ∧ (trial 120000000000).firmware.running = true ∧
    (trial 120000000000).ptc.toNat ≤ (trial 0).firmware.bootAt + 120 * 10 ^ 9 ∧
    (trial 0).firmware.bootAt + 120 * 10 ^ 9 ≤ (trial 120000000000).ptc.toNat ∧
    (trial 119999999999).ptc.toNat < (trial 0).firmware.bootAt + 120 * 10 ^ 9 ∧ Firmware.initial.trial = false ∧
    (servingDies (List.range 7) []).length < 8 ∧ 8 ≤ (servingDies (List.range 8) []).length ∧
    ((tn true).tenants.map (·.injection)) = [true] ∧ ((tn false).tenants.map (·.injection)) = [false] := by decide

/-- A package with diagnoses taken, and one stop of row 0 of dies 3 and 8 bypassed already. -/
def diagnosed (d : List Diagnosis) : State := inPackage { Package.initial with
  service := { Service.initial with taken := d }, stopMap := [(3 * 32, 1), (8 * 32, 1)] }

/-- Sparing: no diagnosis taken; one that asks for a stop of the brace, with two bypassed and with one, and of a die that serves,
before and after its pre-emption; one that asks for the die, with a brace. -/
theorem witness_sparing :
    let die := diagnosed [⟨.coreDie 0 3, .die, .dieSparing⟩]
    let stop (d : Nat) := diagnosed [⟨.stop 0 d 0 32, .stop, .stopSparing⟩]
    let lentDie : State := { die with pkgs := [(0, { die.pkg 0 with brace := none }), (1, { Package.initial with spare := true })] }
    let mask := ((stop 3).pkg 0).stopMask 3 0
    let cores := (List.range 4).map ((3 * 1024 + 31) * 4 + ·)
    let ready : State := { stop 3 with stops := [⟨[0], [3], 0, none, true⟩] }
    ((diagnosed []).pkg 0).service.taken = [] ∧ (diagnosed []).identity 0 8 = none ∧ (stop 8).identity 0 8 = none ∧
    ((stop 8).pkg 0).decided (asksStop (0, 8, 0, 32)) = true ∧ disabledStops (((stop 8).pkg 0).stopMask 8 0) < 2 ∧
    2 ≤ disabledStops (3#34) ∧ physDie 0 ((lentDie.pkg 0).coreDie 3) = (0, 3) ∧ lentDie.braceFor 0 = some (1, 0) ∧
    lentDie.entryFits 0 false 3 (braceEntry 0 1 0) = true ∧ (lentDie.pkg 1).coreDie 0 = 0 ∧ mask.getLsbD 32 = false ∧ logColumn mask 32 = 31 ∧ (stop 3).identity 0 3 = some (0, 3) ∧
    ((stop 3).pkg 0).decided (asksStop (0, 3, 0, 32)) = true ∧ disabledStops mask < 2 ∧
    (stop 3).readyToSpare 0 3 cores = false ∧ ready.readyToSpare 0 3 cores = true ∧ ready.identity 0 3 = some (0, 3) ∧
    (die.pkg 0).decided (fun d => d.action == .dieSparing && d.unit == .coreDie 0 3) = true ∧
    physDie 0 ((die.pkg 0).coreDie 3) = (0, 3) ∧ die.braceFor 0 = some (0, 8) ∧
    die.entryFits 0 false 3 (braceEntry 0 0 8) = true := by decide

/-- Sparing: a failed package and a spare one, which serves and has eight good dies; a third package with a route to the spare and
none to the failed one; a coded page and an uncoded one of the failed package. -/
theorem witness_spare_package :
    let page (i : Nat) : BitVec 64 := 0x8000000000000000 ||| BitVec.twoPow 64 62 ||| BitVec.ofNat 64 (i * 2 ^ 16)
    let failed : Package := { Package.initial with
      failed := true, tables := [(0, page 0), (2 ^ 5, page 1)], coded := [(0, List.range 10)] }
    let s : State := { State.reset with pkgs := [(0, failed), (1, { Package.initial with spare := true }),
      (2, { Package.initial with routes := [(1, 0, true)] })] }
    (s.pkg 0).failed = true ∧ (0 : Nat) ≠ 1 ∧ (s.pkg 1).spare = true ∧ (s.pkg 1).alive = true ∧ (s.pkg 1).tenants = [] ∧
    8 ≤ (s.goodDies 1).length ∧ s.cores = [] ∧ (s.pkg 0).tenants = [] ∧ (s.pkg 0).scribes = [] ∧ (s.pkg 0).transits = [] ∧
    (look (s.pkg 0).coded 0).isSome = true ∧ (look (s.pkg 0).coded 512).isSome = false ∧
    look (s.pkg 2).routes 1 = some (0, true) ∧ look (s.pkg 2).routes 0 = none := by decide

/-! #### Encodings, steps and registers -/

/-- EncodingRoundTrip, WrittenWords, NopAndHints: an encoded instruction that R52 lets through, a word that decodes, and the
first and last halfwords of the hint spaces. -/
theorem witness_encoding :
    encode (.add 26 26 24 1) ≠ .none ∧ illegalOf (.add 26 26 24 1) = none ∧ decode 0x8440 0x1388 = .ok (.li 8 5000) ∧
    0xF8 ≤ (0xF800#16).toNat / 2 ^ 8 ∧ (0xFEFF#16).toNat / 2 ^ 8 ≤ 0xFE ∧ 0x1C ≤ (0x7000#16).toNat / 2 ^ 10 ∧
    (0x7FFF#16).toNat / 2 ^ 10 ≤ 0x1F := by decide

/-- The state after a load of a word, and one whose code region ends in a first half. -/
def loaded (nbits w : Nat) : State := (State.reset.withFetchWord nbits w).elapse
def issuing (u : State) : State := { u.barrelTurn 0 0 with curCore := 0, curSlot := 0 }

/-- A thread with an instruction of its own in the sequencer. -/
def seqBefore (i : Instr) : State :=
  machine { core5 (thread Regs.initial) with seq := [⟨2, [i], [], 1, 0, 0, [], 0, 0, false⟩] } Package.initial

/-- StepRunsDecoded: a state whose turn is slot 0 of core 0, with a long and a short instruction, with an illegal one, with
`pc` past the code region, and with the region's end between two halves. -/
theorem witness_step :
    let half (v : State) (a : Word) : Option (BitVec 16) := v.codeHalf (pkgOf 0) v.me a
    let ready (u : State) : Prop := u.agenda = [] ∧ u.issueTurn = true ∧ u.turn = some (0, 0) ∧
      (issuing u).loser (issuing u).me = false ∧ (issuing u).me.gang = 0 ∧ (issuing u).me.loop = none
    let v := issuing (loaded 32 0x84401388)
    ready (loaded 32 0x84401388) ∧ ready (loaded 16 0x4400) ∧ ready (loaded 16 0) ∧
    half v v.regs.pc = some 0x8440 ∧ half v (v.regs.pc + 2) = some 0x1388 ∧ isLong 0x8440 = true ∧
    v.seqTurn (.li 8 5000) = .perform ∧ v.injects (.li 8 5000) = false ∧ v.seqTurn (.faddV 1 2 3 9 0) = .perform ∧
    (seqBefore (.faddV 2 1 3 9 0)).seqTurn (.faddV 1 2 3 9 0) = .enter ∧
    (seqBefore (.faddV 2 1 3 9 0)).injects (.faddV 1 2 3 9 0) = false ∧ (seqBefore (.vredAdd 4 1 2 2)).seqTurn (.add 1 4 2 0) = .wait ∧
    half (issuing (loaded 16 0x4400)) 0 = some 0x4400 ∧ isLong 0x4400 = false ∧ decode 0 0 = .error .halfword ∧
    half v 0x00100000 = none := by decide
theorem witness_exec (s : State) : ∃ t, exec .nop s = .next t := ⟨_, rfl⟩
theorem witness_code_end :
    let s : State := inPackage { Package.initial with tenants := [Tenant.ofCode 7 [0x8440]] }
    let t : Slot := { thread Regs.initial with tenant := 7 }
    s.codeHalf 0 t 0 = some 0x8440 ∧ isLong 0x8440 = true ∧ s.codeHalf 0 t 2 = none := by decide

/-- StorageFormKept: memories with entries in their form, and a step from such a state. -/
theorem witness_storage : StorageForm (accessing Regs.initial) ∧ ∃ t, step State.reset = .next t :=
  ⟨⟨by decide, by decide, by decide, by decide⟩, ⟨_, rfl⟩⟩

/-- ComputingFrame: a family's instruction, which `exec` completes. -/
theorem witness_computes (s : State) : computes (.fadd 3 1 2 9) = true ∧ ∃ t, exec (.fadd 3 1 2 9) s = .next t := ⟨by decide, ⟨_, rfl⟩⟩

/-- RegisterFile, ShortFormsAndImmediates: the first and last register that a write changes; the first and last even one. ChainOrder:
an even and an odd row, the last position of a die and the one before. -/
theorem witness_registers :
    (∀ n ∈ [1#5, 27#5, 31#5], n ∉ [0, 28, 29, 30]) ∧ (∀ n ∈ [2#5, 26#5], n.toNat % 2 = 0 ∧ n ∉ [0, 28, 30]) ∧
    (1#3 : BitVec 3) ≠ 0 ∧ (15#5).toNat < 16 ∧ (127 : Nat) / 128 % 2 = 0 ∧ (128 : Nat) / 128 % 2 = 1 ∧ chainPos 3971 = 4095 ∧
    chainPos 3970 < 4095 ∧ (4095 : Nat) < 4096 := by decide

end Sys2Proof.Tests
end

section
/-!
PROOFS. Map writes and the links (R335 to R342): what a remap leaves of every package, and the events of the links.
-/

namespace Sys2Proof.Machine

/-! ### A package after a change of another -/

/-- A package reads as changed where it is the one that was changed. -/
theorem State.pkg_updPkg (s : State) (p : Nat) (f : Package → Package) (q : Nat) :
    (s.updPkg p f).pkg q = if q = p then f (s.pkg q) else s.pkg q := by
  by_cases h : q = p
  · subst h; simp [State.updPkg_eq]
  · simp [State.updPkg_eq, State.pkg_setPkg_ne _ _ h, h]

/-- What a change keeps of a package is read as before in every package. -/
theorem State.reads_updPkg {α : Type} (g : Package → α) (s : State) (p : Nat) (f : Package → Package)
    (h : ∀ x, g (f x) = g x) (q : Nat) : g ((s.updPkg p f).pkg q) = g (s.pkg q) := by
  rw [State.pkg_updPkg]
  split
  · exact h _
  · rfl

/-- A package with other logs: scribe logs, host port and service records. -/
def Package.withLogs (p : Package) (l : List (Nat × ScribeLog)) (h : HostPort) (v : Service) : Package :=
  { p with scribes := l, host := h, service := v }

/-- Of the packages only their logs change. -/
structure OnlyLogs (s t : State) : Prop where
  pkg : ∀ q, ∃ l h v, t.pkg q = (s.pkg q).withLogs l h v

/-- What logs are no part of is read as before. -/
theorem OnlyLogs.reads {s t : State} {α : Type} (k : OnlyLogs s t) (g : Package → α)
    (h : ∀ x l y v, g (x.withLogs l y v) = g x) (q : Nat) : g (t.pkg q) = g (s.pkg q) := by
  obtain ⟨l, y, v, e⟩ := k.pkg q
  rw [e, h]

theorem OnlyLogs.of_pkg {s t : State} (h : ∀ q, t.pkg q = s.pkg q) : OnlyLogs s t := ⟨fun q => ⟨_, _, _, h q⟩⟩

theorem OnlyLogs.refl (s : State) : OnlyLogs s s := .of_pkg fun _ => rfl

theorem OnlyLogs.trans {s t u : State} (h : OnlyLogs s t) (g : OnlyLogs t u) : OnlyLogs s u := ⟨fun q => by
  obtain ⟨_, _, _, e⟩ := h.pkg q
  obtain ⟨l, x, v, e'⟩ := g.pkg q
  exact ⟨l, x, v, by rw [e', e]; rfl⟩⟩

theorem OnlyLogs.foldl {α : Type} {f : State → α → State} (l : List α) (h : ∀ a ∈ l, ∀ s, OnlyLogs s (f s a)) :
    ∀ s, OnlyLogs s (l.foldl f s) := by
  induction l with
  | nil => exact .refl
  | cons a l ih =>
    intro s
    exact (h a (List.mem_cons_self ..) s).trans (ih (fun b hb => h b (List.mem_cons_of_mem _ hb)) _)

/-- A change of something else before. -/
theorem OnlyLogs.after {s t u : State} (g : OnlyLogs t u) (h : ∀ q, t.pkg q = s.pkg q) : OnlyLogs s u :=
  (OnlyLogs.of_pkg h).trans g

/-- A package replaced by one that differs in its logs. -/
theorem OnlyLogs.setPkg (s : State) (p : Nat) (x : Package)
    (h : ∃ l y v, x = (s.pkg p).withLogs l y v) : OnlyLogs s (s.setPkg p x) := ⟨fun q => by
  by_cases e : q = p
  · subst e; simpa using h
  · exact ⟨_, _, _, State.pkg_setPkg_ne _ _ e⟩⟩

theorem OnlyLogs.scribeAppend (s : State) (c q kind : Nat) (pay : Entry) (ent : Word) (pair : Bool) :
    OnlyLogs s (s.scribeAppend c q kind pay ent pair).1 := by
  unfold State.scribeAppend
  dsimp only
  split
  · exact .refl s
  · split <;> exact .setPkg _ _ _ ⟨_, _, _, rfl⟩

theorem OnlyLogs.pushQueue (s : State) (c q kind : Nat) (e : Entry) (resv pair : Bool) :
    OnlyLogs s (s.pushQueue c q kind e resv pair) := by
  have logged : OnlyLogs s (if q = 7 then (s, none) else s.scribeAppend c q kind e 0 pair).1 := by
    split
    · exact .refl s
    · exact .scribeAppend ..
  exact logged.trans (.of_pkg fun _ => rfl)

theorem State.pkg_unreserve (s : State) (c q n p : Nat) : (s.unreserve c q n).pkg p = s.pkg p := by
  unfold State.unreserve
  split <;> rfl

theorem State.pkg_countArrived (s : State) (m : Msg) (p : Nat) : (s.countArrived m).pkg p = s.pkg p := by
  unfold State.countArrived
  split <;> rfl

theorem OnlyLogs.pushDown (s : State) : OnlyLogs s s.pushDown := by
  unfold State.pushDown
  dsimp only
  repeat' split
  all_goals first
    | exact .of_pkg fun _ => rfl
    | exact .of_pkg fun _ => State.pkg_unreserve ..
    | exact (OnlyLogs.pushQueue ..).after fun _ => rfl

/-- A step made for another thread changes what it changes. -/
theorem OnlyLogs.as (s : State) (c : Nat) (n : Fin 8) {f : State → State} (h : ∀ t, OnlyLogs t (f t)) :
    OnlyLogs s (s.as c n f) := ⟨(h { s with curCore := c, curSlot := n }).pkg⟩

theorem OnlyLogs.answerStatus (s : State) (c : Nat) (n : Fin 8) (gen : BitVec 8) (v : Word) :
    OnlyLogs s (s.answerStatus c n gen v) := by
  unfold State.answerStatus
  dsimp only
  split
  · exact .refl s
  split
  · split
    · exact .as _ _ _ fun t => (OnlyLogs.pushDown _).after fun _ => rfl
    · exact .refl s
  · exact .refl s

/-- A status that is served changes logs alone (R185). -/
theorem OnlyLogs.serve_status (s : State) {m : Msg} (h : m.onMessage = false) : OnlyLogs s (s.serve m) := by
  unfold Msg.onMessage at h
  unfold State.serve
  split <;> simp_all [OnlyLogs.answerStatus]

/-! ### What a remap leaves (R335 to R337) -/

theorem OnlyLogs.earlyStatuses (s : State) (pkg die : Nat) : OnlyLogs s (s.earlyStatuses pkg die) := by
  unfold State.earlyStatuses
  refine (OnlyLogs.foldl (f := State.serve) _ (fun m hm t => .serve_status t ?_) _).after fun _ => rfl
  have early := (List.mem_filter.mp hm).2
  simp only [Bool.and_eq_true, Bool.not_eq_true'] at early
  exact early.2

theorem OnlyLogs.fenceReplies (s : State) (pkg : Nat) (base : Bool) (index : Nat) (lost : Bool) :
    OnlyLogs s (s.fenceReplies pkg base index lost) := by
  unfold State.fenceReplies
  dsimp only
  split
  · exact .of_pkg fun _ => rfl
  · exact (OnlyLogs.earlyStatuses ..).after fun _ => rfl

/-- The replies of a memory position have no statuses among them. -/
theorem State.pkg_fenceReplies_base (s : State) (pkg index : Nat) (lost : Bool) (q : Nat) :
    (s.fenceReplies pkg true index lost).pkg q = s.pkg q := rfl

theorem OnlyLogs.fence (s : State) (pkg : Nat) (base : Bool) (index : Nat) (lost : Bool) :
    OnlyLogs s (s.fence pkg base index lost) := by
  unfold State.fence
  refine (OnlyLogs.fenceReplies s pkg base index lost).trans ?_
  generalize s.fenceReplies pkg base index lost = u
  refine (OnlyLogs.foldl _ (fun m _ t => .of_pkg fun p => ?_) _).after fun _ => rfl
  rw [State.pkg_countArrived]
  split
  · exact State.pkg_unreserve ..
  · rfl

/-- Requests that issue again change no package. -/
theorem State.pkg_reissue (s : State) (pkg : Nat) (base : Bool) (index q : Nat) :
    (s.reissue pkg base index).pkg q = s.pkg q := by
  unfold State.reissue
  cases base <;> rfl

/-- The other positions of a base die that follow its incarnation change base maps alone, and not at the position itself. -/
theorem State.pkg_followBase (s : State) (pkg : Nat) {index : Nat} (inc : BitVec 8) (hi : index < 9) (q : Nat) :
    ∃ v, (s.followBase pkg index inc).pkg q = { s.pkg q with baseMap := v } ∧ v[index] = (s.pkg q).baseMap[index] := by
  unfold State.followBase
  dsimp only
  have others : ∀ m ∈ (List.range 9).filter (fun m => m != index && (s.pkg pkg).baseDie m == (s.pkg pkg).baseDie index),
      m < 9 ∧ m ≠ index := by
    intro m hm
    simp only [List.mem_filter, List.mem_range, Bool.and_eq_true, bne_iff_ne] at hm
    exact ⟨hm.1, hm.2.1⟩
  generalize (List.range 9).filter _ = l at others
  induction l generalizing s with
  | nil => exact ⟨_, rfl, rfl⟩
  | cons m l ih =>
    rw [List.foldl_cons]
    obtain ⟨hm, ne⟩ := others m (List.mem_cons_self ..)
    obtain ⟨v, e, at_⟩ := ih _ fun x hx => others x (List.mem_cons_of_mem _ hx)
    refine ⟨v, ?_, at_.trans ?_⟩
    · rw [e, State.pkg_reissue, State.pkg_updPkg]
      split <;> rfl
    · rw [State.pkg_reissue, State.pkg_updPkg]
      have : m % 9 ≠ index := by omega
      split
      · simp [Package.setMap, State.pkg_fenceReplies_base, Vector.getElem_set_ne, this]
      · rfl

/-- A remap up to the entry: the fence, the die's incarnation, the entry and the marker. -/
def State.entryWritten (s : State) (pkg : Nat) (base : Bool) (index : Nat) (entry : BitVec 32) (lost : Bool) : State :=
  let p := s.pkg pkg
  let entry := s.renewedEntry pkg base index entry
  let new := placeOfEntry pkg base entry
  let was := p.placeAt pkg base index
  (((s.fence pkg base index lost).updPkg new.1 (·.setInc base new.2 (entry.extractLsb' 0 8))).updPkg pkg fun q =>
    { q.setMap base index entry with fenced := q.fenced.filter (· != (base, p.physical base index)) }).updPkg
      was.1 fun q => { q with drains := q.drains ++ [.die base was.2 (p.mapInc base index)] }

/-- After the entry, requests issue again, and other positions of a base die follow it. -/
theorem State.remap_eq (s : State) (pkg : Nat) (base : Bool) (index : Nat) (entry : BitVec 32) (lost : Bool) :
    s.remap pkg base index entry lost =
      let u := (s.entryWritten pkg base index entry lost).reissue pkg base index
      if base then u.followBase pkg index ((s.renewedEntry pkg base index entry).extractLsb' 0 8) else u := rfl

/-- After the entry nothing of a package changes but base maps, at other positions. -/
theorem State.pkg_remap (s : State) (pkg : Nat) (base : Bool) {index : Nat} (entry : BitVec 32) (lost : Bool)
    (hi : base = true → index < 9) (q : Nat) :
    ∃ v, (s.remap pkg base index entry lost).pkg q =
      { (s.entryWritten pkg base index entry lost).pkg q with baseMap := v } ∧
        (base = true → v[index]? = ((s.entryWritten pkg base index entry lost).pkg q).baseMap[index]?) := by
  rw [State.remap_eq]
  cases base with
  | false => exact ⟨_, State.pkg_reissue .., nofun⟩
  | true =>
    have hi := hi rfl
    obtain ⟨v, e, at_⟩ := State.pkg_followBase ((s.entryWritten pkg true index entry lost).reissue pkg true index) pkg
      ((s.renewedEntry pkg true index entry).extractLsb' 0 8) hi q
    rw [State.pkg_reissue] at e at_
    exact ⟨v, e, fun _ => by simp [hi, at_]⟩

/-- An incarnation written is no part of maps, fences and markers. -/
theorem Package.setInc_reads (p : Package) (base : Bool) (phys : Nat) (inc : BitVec 8) :
    (p.setInc base phys inc).dieMap = p.dieMap ∧ (p.setInc base phys inc).fenced = p.fenced ∧
      (p.setInc base phys inc).drains = p.drains := by
  cases base <;> exact ⟨rfl, rfl, rfl⟩

/-- Nor is a map entry written part of fences and markers. -/
theorem Package.setMap_reads (p : Package) (base : Bool) (index : Nat) (entry : BitVec 32) :
    (p.setMap base index entry).fenced = p.fenced ∧ (p.setMap base index entry).drains = p.drains := by
  cases base <;> exact ⟨rfl, rfl⟩

section
variable (s : State) (pkg : Nat) (base : Bool) (index : Nat) (entry : BitVec 32) (lost : Bool)

/-- The die maps after a die-map entry was written. -/
theorem State.dieMap_remap (q : Nat) : ((s.remap pkg false index entry lost).pkg q).dieMap =
    if q = pkg then (s.pkg q).dieMap.set (index % 8) (s.renewedEntry pkg false index entry) (Nat.mod_lt _ (by decide))
    else (s.pkg q).dieMap := by
  obtain ⟨v, e, -⟩ := s.pkg_remap pkg false entry lost (index := index) nofun q
  have before : ∀ x phys inc, (((s.fence pkg false index lost).updPkg x (·.setInc false phys inc)).pkg q).dieMap =
      (s.pkg q).dieMap := by
    intro x phys inc
    rw [State.reads_updPkg Package.dieMap, (OnlyLogs.fence ..).reads Package.dieMap fun _ _ _ _ => rfl]
    exact fun _ => (Package.setInc_reads ..).1
  refine (congrArg Package.dieMap e).trans ?_
  dsimp only [State.entryWritten]
  rw [State.reads_updPkg Package.dieMap _ _ _ (by exact fun _ => rfl), State.pkg_updPkg]
  split
  · exact congrArg (fun m : Vector (BitVec 32) 8 => m.set _ _ _) (before ..)
  · exact before ..

/-- The base map's entry after it was written. -/
theorem State.baseMap_remap (hi : index < 9) : ((s.remap pkg true index entry lost).pkg pkg).baseMap[index]? =
    some ((s.renewedEntry pkg true index entry).setWidth 16) := by
  obtain ⟨v, e, at_⟩ := s.pkg_remap pkg true entry lost (fun _ => hi) pkg
  have e' : ((s.remap pkg true index entry lost).pkg pkg).baseMap = v := congrArg Package.baseMap e
  rw [e', at_ rfl, State.entryWritten, State.reads_updPkg Package.baseMap _ _ _ (by exact fun _ => rfl), State.pkg_updPkg,
    if_pos rfl]
  simp [Package.setMap, Nat.mod_eq_of_lt hi, hi]

/-- The fence of the old die ends. -/
theorem State.fenced_remap (hi : base = true → index < 9) :
    (base, (s.pkg pkg).physical base index) ∉ ((s.remap pkg base index entry lost).pkg pkg).fenced := by
  obtain ⟨v, e, -⟩ := s.pkg_remap pkg base entry lost hi pkg
  have e' := congrArg Package.fenced e
  rw [e']
  dsimp only [State.entryWritten]
  rw [State.reads_updPkg Package.fenced _ _ _ (by exact fun _ => rfl), State.pkg_updPkg, if_pos rfl]
  simp

/-- The old incarnation is left to drain where the old die stands. -/
theorem State.drains_remap (hi : base = true → index < 9) :
    let was := (s.pkg pkg).placeAt pkg base index
    ((s.remap pkg base index entry lost).pkg was.1).drains =
      (s.pkg was.1).drains ++ [.die base was.2 ((s.pkg pkg).mapInc base index)] := by
  intro was
  obtain ⟨v, e, -⟩ := s.pkg_remap pkg base entry lost hi was.1
  refine (congrArg Package.drains e).trans ?_
  dsimp only [State.entryWritten]
  rw [State.pkg_updPkg, if_pos rfl]
  refine congrArg (· ++ _) ?_
  rw [State.reads_updPkg Package.drains _ _ _ (by exact fun _ => (Package.setMap_reads ..).2),
    State.reads_updPkg Package.drains _ _ _ (by exact fun _ => (Package.setInc_reads ..).2.2),
    (OnlyLogs.fence ..).reads Package.drains fun _ _ _ _ => rfl]

end

/-! ### `REMAP` (R2, R335 to R337) -/

/-- A die that is taken changes die maps and braces alone. -/
theorem State.reads_takeBrace {α : Type} (g : Package → α) (s : State) (pkg q b x : Nat)
    (h : ∀ p m r, g { p with dieMap := m, brace := r } = g p) : g ((s.takeBrace pkg q b).pkg x) = g (s.pkg x) :=
  State.reads_updPkg g s q _ (fun p => by
    split
    · exact h p p.dieMap _
    · exact h p _ _) x

/-- The package that takes the die keeps its die map. -/
theorem State.reads_takeBrace_self {α : Type} (g : Package → α) (s : State) (pkg q b : Nat)
    (h : ∀ p r, g { p with brace := r } = g p) : g ((s.takeBrace pkg q b).pkg pkg) = g (s.pkg pkg) := by
  rw [State.takeBrace, State.pkg_updPkg]
  split
  · next e => subst e; simpa using h _ _
  · rfl

/-- A die that another package takes answers to no number of its own package. -/
theorem State.dieMap_takeBrace_lent (s : State) {pkg q b : Nat} (h : q ≠ pkg) (d : Fin 8)
    (hd : (s.pkg q).coreDie d.val = b) : (((s.takeBrace pkg q b).pkg q).dieMap[d]).getLsbD 31 = false := by
  simp [State.takeBrace, State.pkg_updPkg, h, Package.lend, hd]

/-- The entry that a remap writes does not depend on who answers to the die. -/
theorem State.renewedEntry_takeBrace (s : State) (pkg q b index : Nat) (entry : BitVec 32) :
    (s.takeBrace pkg q b).renewedEntry pkg false index entry = s.renewedEntry pkg false index entry := by
  simp only [State.renewedEntry]
  rw [State.reads_takeBrace (fun p => p.incOf false _) _ _ _ _ _ fun _ _ _ => rfl,
    State.reads_takeBrace_self (fun p => p.physical false index) _ _ _ _ fun _ _ => rfl]

/-- An entry that fits has an index of its map. -/
theorem State.index_of_entryFits {s : State} {pkg : Nat} {base : Bool} {index : Nat} {entry : BitVec 32}
    (h : s.entryFits pkg base index entry = true) : index < if base then 9 else 8 := by
  cases base <;> simp_all [State.entryFits]

section
variable {s : State} {pkg index : Nat} {entry : BitVec 32}

theorem exec_remap_unfit {base : Bool} (h : s.entryFits pkg base index (cleanEntry base entry) = false) :
    exec (.remap pkg base index entry) s = .next s := by
  show execRemap pkg base index entry s = _
  simp [execRemap, h]

/-- An entry of the base map that fits is written. -/
theorem exec_remap_base (h : s.entryFits pkg true index (cleanEntry true entry) = true) :
    exec (.remap pkg true index entry) s = .next (s.remap pkg true index (cleanEntry true entry) false) := by
  show execRemap pkg true index entry s = _
  simp [execRemap, h]

/-- An entry of the die map that fits is written once its die answers to nothing else. -/
theorem exec_remap_die (h : s.entryFits pkg false index (cleanEntry false entry) = true) :
    let new := placeOfEntry pkg false (cleanEntry false entry)
    exec (.remap pkg false index entry) s =
      .next ((s.takeBrace pkg new.1 new.2).remap pkg false index (cleanEntry false entry) false) := by
  show execRemap pkg false index entry s = _
  simp [execRemap, h]

/-- The die maps after a `REMAP` of a core die: the new entry at its index, and nothing that the die's own package still
answers to. -/
theorem State.dieMaps_remapped (hi : index < 8) :
    let new := s.renewedEntry pkg false index entry
    let onto := placeOfEntry pkg false entry
    let t := (s.takeBrace pkg onto.1 onto.2).remap pkg false index entry false
    ((t.pkg pkg).dieMap[index]? = some new ∧ ∀ d, d ≠ index → (t.pkg pkg).dieMap[d]? = (s.pkg pkg).dieMap[d]?) ∧
      (onto.1 ≠ pkg → ∀ d : Fin 8, (s.pkg onto.1).coreDie d.val = onto.2 →
        ((t.pkg onto.1).dieMap[d]).getLsbD 31 = false) := by
  intro new onto t
  have own : (t.pkg pkg).dieMap = (s.pkg pkg).dieMap.set index new := by
    have kept := s.reads_takeBrace_self Package.dieMap pkg onto.1 onto.2 fun _ _ => rfl
    simp only [t, State.dieMap_remap, if_true, kept, State.renewedEntry_takeBrace, Nat.mod_eq_of_lt hi, new]
  refine ⟨⟨by simp [own], fun d hd => by simp [own, hd.symm]⟩, fun other d hd => ?_⟩
  have lent := s.dieMap_takeBrace_lent other d hd
  have same := State.dieMap_remap (s.takeBrace pkg onto.1 onto.2) pkg index entry false onto.1
  rw [if_neg other] at same
  simpa only [t, same] using lent

/-- The old die after a `REMAP` of a core die. -/
theorem State.old_remapped :
    let onto := placeOfEntry pkg false entry
    let was := (s.pkg pkg).placeAt pkg false index
    let t := (s.takeBrace pkg onto.1 onto.2).remap pkg false index entry false
    (false, (s.pkg pkg).physical false index) ∉ (t.pkg pkg).fenced ∧
      (t.pkg was.1).drains = (s.pkg was.1).drains ++ [.die false was.2 ((s.pkg pkg).mapInc false index)] := by
  intro onto was t
  have place := s.reads_takeBrace_self (fun p => p.placeAt pkg false index) pkg onto.1 onto.2 fun _ _ => rfl
  have phys := s.reads_takeBrace_self (fun p => p.physical false index) pkg onto.1 onto.2 fun _ _ => rfl
  have inc := s.reads_takeBrace_self (fun p => p.mapInc false index) pkg onto.1 onto.2 fun _ _ => rfl
  have left := State.drains_remap (s.takeBrace pkg onto.1 onto.2) pkg false index entry false nofun
  dsimp only at place phys inc left
  rw [place, inc, s.reads_takeBrace Package.drains _ _ _ _ fun _ _ _ => rfl] at left
  exact ⟨phys ▸ State.fenced_remap _ _ _ _ _ _ nofun, left⟩

end

/-! ### Markers, modules, frames and routes (R337 to R341) -/

section
variable (s : State) (pkg : Nat)

/-- A marker of an incarnation that has arrived ends its path. -/
theorem exec_drainMarker_die {base : Bool} {phys : Nat} {inc : BitVec 8}
    (h : (s.pkg pkg).drains.contains (.die base phys inc) = true) : exec (.drainMarker pkg (some base) phys inc) s =
      .next (s.setPkg pkg { s.pkg pkg with drains := (s.pkg pkg).drains.erase (.die base phys inc) }) := by
  show execDrainMarker pkg (some base) phys inc s = _
  unfold execDrainMarker
  dsimp only [markOf]
  rw [h]
  rfl

/-- A marker of an old route that has arrived lets the new route serve. -/
theorem exec_drainMarker_route {dest : Nat} {route : Nat × Bool} (h : (s.pkg pkg).drains.contains (.route dest) = true)
    (hr : look (s.pkg pkg).newRoutes dest = some route) : exec (.drainMarker pkg none dest 0) s =
      .next (s.setPkg pkg { s.pkg pkg with
        drains := (s.pkg pkg).drains.erase (.route dest), routes := put (s.pkg pkg).routes dest route
        newRoutes := drop (s.pkg pkg).newRoutes dest }) := by
  show execDrainMarker pkg none dest 0 s = _
  unfold execDrainMarker
  dsimp only [markOf, State.updPkg_eq]
  rw [h, hr]
  rfl

/-- A module that trains at x32 or better serves again. -/
theorem exec_ucieRetrainDone_serves {index unit lanes : Nat} (h : ((s.pkg pkg).module index unit).paused = true)
    (hl : 32 ≤ lanes) : exec (.ucieRetrainDone pkg index unit lanes) s =
      .next (s.setPkg pkg ((s.pkg pkg).setModule
        { (s.pkg pkg).module index unit with paused := false, lanes := if 64 ≤ lanes then 64 else 32 })) := by
  show execUcieRetrainDone pkg index unit lanes s = _
  simp [execUcieRetrainDone, h, hl, State.updPkg_eq]

/-- A report changes no module. -/
theorem State.modules_report (s : State) (pkg : Nat) (u : UnitName) (corrected again : Bool) (q : Nat) :
    ((s.report pkg u corrected again).pkg q).modules = (s.pkg q).modules := by
  unfold State.report
  rw [State.reads_updPkg Package.modules]
  exact fun _ => rfl

/-- A module that trains at less is lost. -/
theorem exec_ucieRetrainDone_lost {index unit lanes : Nat} (h : ((s.pkg pkg).module index unit).paused = true)
    (hl : lanes < 32) : ∃ t : State, exec (.ucieRetrainDone pkg index unit lanes) s = .next t ∧
      (t.pkg pkg).modules = ((s.pkg pkg).setModule
        { (s.pkg pkg).module index unit with paused := false, lanes := 0, lost := true }).modules := by
  refine ⟨_, ?_, (State.modules_report (s.updPkg pkg (·.setModule
    { (s.pkg pkg).module index unit with paused := false, lanes := 0, lost := true })) pkg
      (.module pkg index unit) false true pkg).trans ?_⟩
  · show execUcieRetrainDone pkg index unit lanes s = _
    simp [execUcieRetrainDone, h, hl]
  · rw [State.pkg_updPkg, if_pos rfl]

theorem exec_podFrame {port seq ack : Nat} {ok : Bool} {stop : BitVec 5} (hp : port < 32)
    (hd : ((s.pkg pkg).port port).down = false) : exec (.podFrame pkg port ok ⟨seq, ack, stop⟩) s =
      .next (s.setPkg pkg ((s.pkg pkg).setPort
        (if ok = true ∧ seq = ((s.pkg pkg).port port).received then
          { (s.pkg pkg).port port with
            received := ((s.pkg pkg).port port).received + 1, acked := max ((s.pkg pkg).port port).acked ack, stop := stop }
         else { (s.pkg pkg).port port with replays := ((s.pkg pkg).port port).replays + 1 }))) := by
  show execPodFrame pkg port ok ⟨seq, ack, stop⟩ s = _
  simp [execPodFrame, hp, hd, State.updPkg_eq]

theorem exec_podPortRetrain {port lanes : Nat} (hp : port < 32) : exec (.podPortRetrain pkg port lanes) s =
    .next (s.setPkg pkg ((s.pkg pkg).setPort { (s.pkg pkg).port port with
      lanes := if 4 ≤ lanes then 4 else if 2 ≤ lanes then 2 else 0, down := decide (lanes < 2) })) := by
  show execPodPortRetrain pkg port lanes s = _
  simp only [execPodPortRetrain, Nat.not_le.mpr hp, if_false, State.updPkg_eq]
  split_ifs with h4 h2
  · rw [decide_eq_false (show ¬lanes < 2 by omega)]
  · rw [decide_eq_false (show ¬lanes < 2 by omega)]
  · rw [decide_eq_true (show lanes < 2 by omega)]

/-- A written route goes to the rule of R341. -/
theorem exec_podRouteWrite {dest port : Nat} {valid : Bool} (hd : dest < 2048) (hp : port < 32) :
    exec (.podRouteWrite pkg dest port valid) s = .next (s.setPkg pkg ((s.pkg pkg).newRoute dest port valid)) := by
  show execPodRouteWrite pkg dest port valid s = _
  simp [execPodRouteWrite, hd, hp, State.updPkg_eq]

end

/-- A new route serves at once where no old one serves by a port that is up. -/
theorem Package.newRoute_at_once (p : Package) (dest port : Nat) (valid : Bool)
    (h : ((look p.routes dest).getD (0, true)).2 = false ∨ (p.port ((look p.routes dest).getD (0, true)).1).down = true) :
    p.newRoute dest port valid = { p with routes := put p.routes dest (port, valid) } := by
  unfold Package.newRoute
  split
  · next old e => simp_all
  · rfl

/-- Behind an old route that serves it waits for the marker. -/
theorem Package.newRoute_behind (p : Package) (dest port : Nat) (valid : Bool)
    (h : ((look p.routes dest).getD (0, true)).2 = true)
    (hd : (p.port ((look p.routes dest).getD (0, true)).1).down = false) :
    p.newRoute dest port valid = { p with
      newRoutes := put p.newRoutes dest (port, valid)
      drains := if p.drains.contains (.route dest) then p.drains else p.drains ++ [.route dest] } := by
  unfold Package.newRoute
  split
  · next old e => simp_all
  · next old e => exact (e ((look p.routes dest).getD (0, true)).1 (Prod.ext rfl h)).elim

/-! ### Time (R342) -/

/-- A parent that is chosen is another alive package, reached by a valid route, and not the one that serves no longer. -/
theorem State.chooseParent_some {s : State} {pkg : Nat} {but : Option Nat} {q : Nat} (h : s.chooseParent pkg but = some q) :
    q ≠ pkg ∧ but ≠ some q ∧ (s.pkg q).alive = true ∧ s.routed pkg q = true := by
  unfold State.chooseParent at h
  split at h
  · simp at h
  split at h
  · simp at h
  obtain ⟨d, -, found⟩ := List.exists_of_findSome?_eq_some h
  have picked := List.find?_some found
  simp only [Bool.and_eq_true, bne_iff_ne] at picked
  obtain ⟨⟨⟨⟨other, notBut⟩, alive⟩, routed⟩, -⟩ := picked
  exact ⟨other, notBut.symm, alive, routed⟩

section
variable {s : State} {pkg : Nat}

/-- A package without a parent, and the timekeeper, exchange nothing. -/
theorem exec_ptcSyncExchange_none {times : SyncTimes}
    (h : (s.pkg pkg).parent.or (s.chooseParent pkg none) = none ∨ s.keeper = some pkg) :
    exec (.ptcSyncExchange pkg times) s = .next s := by
  show execPtcSyncExchange pkg times s = _
  rcases h with h | h <;> simp [execPtcSyncExchange, h]

/-- A package's counter and what it is ahead, after an exchange that measured `ahead`. -/
def Package.slewed (p : Package) (ahead : Int) : Package :=
  if 0 < ahead then { p with ahead := ahead.toNat }
  else { p with ptc := p.ptc + BitVec.ofNat 64 (min (-ahead).toNat 2), ahead := 0 }

/-- Any other package is synchronised with its parent. -/
theorem exec_ptcSyncExchange {times : SyncTimes} (hp : (s.pkg pkg).parent.or (s.chooseParent pkg none) ≠ none)
    (hk : s.keeper ≠ some pkg) : exec (.ptcSyncExchange pkg times) s =
      .next (s.setPkg pkg { (s.pkg pkg).slewed (measured times).1 with
        parent := (s.pkg pkg).parent.or (s.chooseParent pkg none), delay := (measured times).2
        syncAt := ((s.pkg pkg).slewed (measured times).1).ptc, syncLost := false }) := by
  show execPtcSyncExchange pkg times s = _
  have some_ : ((s.pkg pkg).parent.or (s.chooseParent pkg none)).isNone = false := by
    rw [← Bool.not_eq_true, Option.isNone_iff_eq_none]
    exact hp
  simp [execPtcSyncExchange, some_, hk, State.updPkg_eq, Package.slewed, slewLimit]

/-- A millisecond without synchronisation is reported, and another parent is chosen. -/
theorem exec_ptcSyncLoss (hl : (s.pkg pkg).syncLost = false) (ha : (s.pkg pkg).alive = true) (hk : s.keeper ≠ some pkg)
    (ht : (s.pkg pkg).syncAt.toNat + 10 ^ 6 ≤ (s.pkg pkg).ptc.toNat) : exec (.ptcSyncLoss pkg) s =
      .next (s.setPkg pkg { s.pkg pkg with
        syncLost := true, parent := s.chooseParent pkg (s.pkg pkg).parent
        service := { (s.pkg pkg).service with
          reports := (s.pkg pkg).service.reports ++ ["loss of synchronisation"] } }) := by
  show execPtcSyncLoss pkg s = _
  simp only [execPtcSyncLoss, hl, ha, hk, syncLimit, Nat.not_lt.mpr ht]
  rfl

/-- Sooner, and of a package that needs none, nothing is reported. -/
theorem exec_ptcSyncLoss_none (h : ¬((s.pkg pkg).alive = true ∧ s.keeper ≠ some pkg) ∨
    (s.pkg pkg).ptc.toNat < (s.pkg pkg).syncAt.toNat + 10 ^ 6) : exec (.ptcSyncLoss pkg) s = .next s := by
  show execPtcSyncLoss pkg s = _
  unfold execPtcSyncLoss
  refine congrArg _ (if_pos ?_)
  rcases h with h | h
  · rw [not_and_or, not_ne_iff, Bool.not_eq_true] at h
    rcases h with h | h <;> simp [h]
  · rw [decide_eq_true (show (s.pkg pkg).ptc.toNat < (s.pkg pkg).syncAt.toNat + syncLimit from h), Bool.or_true]

end

/-- Settles O45: each clause is what its event's lemma says. -/
theorem linkEvents : Obligations.LinkEvents := by
  unfold Obligations.LinkEvents
  intro s pkg index dest unit lanes port seq ack sent got answered back base ok valid entry mark stop route
  refine ⟨exec_remap_unfit, fun fits => ?_, fun arrived ofDie => ?_, exec_drainMarker_route s pkg, fun hi hu hl => ?_,
    exec_ucieRetrainDone_serves s pkg, exec_ucieRetrainDone_lost s pkg, exec_podFrame s pkg, exec_podPortRetrain s pkg,
    fun hd hp => ⟨fun h => ?_, fun h up fresh => ?_, fun h up waits => ?_⟩, exec_ptcSyncExchange_none, fun hp hk ha => ?_,
    fun hp hk ha => ?_, fun hl child ht => ⟨_, exec_ptcSyncLoss hl child.1 child.2 ht, ?_⟩, exec_ptcSyncLoss_none⟩
  case refine_1 =>
    have hi := State.index_of_entryFits fits
    cases base with
    | true =>
      exact ⟨_, exec_remap_base fits, nofun, fun _ => State.baseMap_remap _ _ _ _ _ hi,
        State.fenced_remap _ _ _ _ _ _ fun _ => hi, State.drains_remap _ _ _ _ _ _ fun _ => hi, nofun⟩
    | false =>
      obtain ⟨written, lent⟩ := State.dieMaps_remapped (s := s) (pkg := pkg) (entry := cleanEntry false entry) hi
      exact ⟨_, exec_remap_die fits, fun _ => written, nofun, State.old_remapped.1, State.old_remapped.2, fun _ => lent⟩
  case refine_2 =>
    cases mark with
    | die b phys inc => exact exec_drainMarker_die s pkg arrived
    | route d => exact absurd rfl (ofDie d)
  case refine_3 =>
    show execUcieModuleService pkg index unit s = _
    simp [execUcieModuleService, hi, hu, hl, State.updPkg_eq]
  case refine_4 => show exec _ s = _; rw [exec_podRouteWrite s pkg hd hp, Package.newRoute_at_once _ _ _ _ h]
  case refine_5 => show exec _ s = _; rw [exec_podRouteWrite s pkg hd hp, Package.newRoute_behind _ _ _ _ h up, fresh]; rfl
  case refine_6 => show exec _ s = _; rw [exec_podRouteWrite s pkg hd hp, Package.newRoute_behind _ _ _ _ h up, waits]; rfl
  case refine_7 => show exec _ s = _; rw [exec_ptcSyncExchange hp hk, Package.slewed, if_pos (by exact ha)]; rfl
  case refine_8 => show exec _ s = _; rw [exec_ptcSyncExchange hp hk, Package.slewed, if_neg (by exact not_lt.mpr ha)]; rfl
  case refine_9 =>
    rw [State.pkg_setPkg]
    exact ⟨rfl, rfl, by simp, fun q => State.chooseParent_some⟩

end Sys2Proof.Machine
end

section
/-!
PROOFS. Copies (R202 to R207): what a command that issues leaves of its core's table, and the copy instructions.
-/

namespace Sys2Proof.Machine

/-! ### Instructions with a scope, and instructions that hold (R38, R193, R202) -/

/-- An instruction with a scope field whose body completes. -/
theorem State.scoped_of_ok (s t : State) {i : Instr} {srcs dsts : List (BitVec 5)} {body : State → Run}
    (h : s.portsReady srcs dsts) (hb : body s = .ok t) : s.scoped i srcs dsts body = t.completed srcs dsts t.regs := by
  simp [State.scoped, s.preparePorts_of_ready h, hb, atScope, State.finish, State.completed, usesPort]

/-- Its faults carry the scope. -/
theorem State.scoped_of_trap (s t : State) {i : Instr} {srcs dsts : List (BitVec 5)} {body : State → Run} {f : FaultInfo}
    (h : s.portsReady srcs dsts) (hb : body s = .error (.trap t f)) :
    s.scoped i srcs dsts body = t.trapMe { f with scope := scopeOf i } := by
  simp [State.scoped, s.preparePorts_of_ready h, hb, atScope, State.finish]

/-- An instruction goes on where its condition does not hold. -/
theorem State.hold_of_not {s : State} {waits : State → Bool} (h : waits s = false) (k : State → Out) :
    s.hold waits k = k s := by simp [State.hold, h]

/-- An instruction that holds leaves the state. -/
theorem State.hold_of {s : State} {waits : State → Bool} (h : waits s = true) (k : State → Out) :
    s.hold waits k = .next s := by simp [State.hold, h]

/-! ### A thread's views -/

/-- A thread in views of its own alone has an open domain. -/
theorem Slot.inDomain_of_views {t : Slot} (hw : t.inWorld = false) (hv : t.views ≠ []) : t.inDomain = true := by
  obtain ⟨v, hv⟩ := List.exists_mem_of_ne_nil _ hv
  simpa [Slot.inDomain] using ⟨v, hv, t.no_rival hw v hv⟩

/-! ### The copy table (R202, R204) -/

/-- Room made for a copy changes no identifier. -/
@[simp] theorem Core.copyRoom_copyNext (k : Core) : k.copyRoom.copyNext = k.copyNext := by
  unfold Core.copyRoom
  split
  · rfl
  · split <;> rfl

/-- Room made for a copy changes no slot. -/
@[simp] theorem Core.copyRoom_slots (k : Core) : k.copyRoom.slots = k.slots := by
  unfold Core.copyRoom
  split
  · rfl
  · split <;> rfl

/-- A predecessor that passes its register on changes no identifier. -/
@[simp] theorem Copy.follow_id (x p : Copy) : (x.follow p).id = x.id := by
  unfold Copy.follow
  split <;> rfl

/-- An entry found by an identifier has it. -/
theorem Core.copy_id {k : Core} {id : BitVec 16} {q : Copy} (h : k.copy id = some q) : q.id = id := by
  simpa using List.find?_some h

/-- A copy enters its core's table; its thread remembers it as its last (R202). -/
def State.enterCopy (s : State) (c : Nat) (slot : Fin 8) (gen : BitVec 8) (x : Copy) : State :=
  (s.updCore c fun k => { k with copies := k.copies ++ [x], copyNext := k.copyNext + 1 }).updSlot c slot fun t =>
    if t.gen = gen then { t with lastCopy := some x.id } else t

/-- The table with the new entry. -/
theorem State.copies_enterCopy (s : State) (c : Nat) (slot : Fin 8) (gen : BitVec 8) (x : Copy) :
    ((s.enterCopy c slot gen x).core c).copies = (s.core c).copies ++ [x] ∧
      ((s.enterCopy c slot gen x).core c).copyNext = (s.core c).copyNext + 1 := by
  simp [State.enterCopy, State.updSlot_eq, State.core_setSlot, State.updCore_eq, Core.setSlot]

/-- A slot changed but for its registers leaves the issuing thread's. -/
theorem State.regs_updSlot (s : State) (c : Nat) (n : Fin 8) (f : Slot → Slot) (h : ∀ t, (f t).regs = t.regs) :
    (s.updSlot c n f).regs = s.regs := by
  rw [State.updSlot_eq]
  by_cases e : s.curCore = c ∧ s.curSlot = n
  · obtain ⟨rfl, rfl⟩ := e
    simp only [State.regs, State.me, State.setSlot_curCore, State.setSlot_curSlot, State.slot_setSlot, h]
  · simp only [State.regs, State.me, State.setSlot_curCore, State.setSlot_curSlot, State.slot_setSlot_ne s _ e]

/-- A core changed but for its slots leaves the issuing thread's registers. -/
theorem State.regs_updCore (s : State) (c : Nat) (f : Core → Core) (h : (f (s.core c)).slots = (s.core c).slots) :
    (s.updCore c f).regs = s.regs := congrArg Slot.regs (s.slot_updCore c f h _ _)

/-- No register changes. -/
theorem State.regs_enterCopy (s : State) (c : Nat) (slot : Fin 8) (gen : BitVec 8) (x : Copy) :
    (s.enterCopy c slot gen x).regs = s.regs := by
  rw [State.enterCopy, State.regs_updSlot, State.regs_updCore _ _ _ rfl]
  intro t
  split <;> rfl

/-- Room made in a core's table, and the tenant's injection disarmed where it strikes the command (R392). -/
def State.copyRoomFor (s : State) (c tenant : Nat) (d : CopyDesc) : State :=
  let t := s.updCore c Core.copyRoom
  if (((s.pkg (pkgOf c)).tenant tenant).bind (·.strikes d)).isSome then
    t.updPkg (pkgOf c) fun q => (q.updTenant tenant Tenant.struck).reportInjected
  else t

/-- The core with room made. -/
theorem State.core_copyRoomFor (s : State) (c tenant : Nat) (d : CopyDesc) :
    (s.copyRoomFor c tenant d).core c = (s.core c).copyRoom := by
  have room : (s.updCore c Core.copyRoom).core c = (s.core c).copyRoom := by simp [State.updCore_eq]
  unfold State.copyRoomFor
  dsimp only
  split <;> exact room

/-- No register changes. -/
theorem State.regs_copyRoomFor (s : State) (c tenant : Nat) (d : CopyDesc) : (s.copyRoomFor c tenant d).regs = s.regs := by
  have room : (s.updCore c Core.copyRoom).regs = s.regs := s.regs_updCore _ _ (Core.copyRoom_slots _)
  unfold State.copyRoomFor
  dsimp only
  split <;> exact room

section
variable (s : State) (c : Nat) (slot : Fin 8) (gen : BitVec 8) (tenant : Nat) (d : CopyDesc)

/-- The entry that a command makes in its core's table (R202). -/
def State.newCopy (pred : Option (BitVec 16)) : Copy :=
  Copy.make (s.core c).copyNext d slot gen tenant pred (((s.pkg (pkgOf c)).tenant tenant).bind (·.strikes d))

/-- The entry with what a predecessor that has posted its record passes on (R204). -/
def Copy.after (x q : Copy) : Copy := if q.posted then x.follow q else x

theorem Copy.after_id (x q : Copy) : (x.after q).id = x.id := by
  unfold Copy.after
  split
  · exact x.follow_id q
  · rfl

/-- A command without a predecessor issues. -/
theorem State.issueCopy_unchained : s.issueCopy c slot gen tenant d none false =
    ((s.copyRoomFor c tenant d).enterCopy c slot gen (s.newCopy c slot gen tenant d none), some (s.core c).copyNext) := by
  have next : ((s.updCore c Core.copyRoom).core c).copyNext = (s.core c).copyNext := by simp [State.updCore_eq]
  simp only [State.newCopy, ← next]
  rfl

/-- A command chained to an entry of its tenant that was issued with `cont` issues behind it. -/
theorem State.issueCopy_chained {name : Option (BitVec 16)} {q : Copy}
    (h : (name.bind (s.core c).copyRoom.copy).filter (·.tenant == tenant) = some q) (hc : q.desc.cont = true) :
    s.issueCopy c slot gen tenant d (some name) false =
      ((s.copyRoomFor c tenant d).enterCopy c slot gen ((s.newCopy c slot gen tenant d (some q.id)).after q),
        some (s.core c).copyNext) := by
  have room : (s.updCore c Core.copyRoom).core c = (s.core c).copyRoom := by simp [State.updCore_eq]
  have next : ((s.updCore c Core.copyRoom).core c).copyNext = (s.core c).copyNext := by simp [room]
  obtain ⟨id, rfl, found⟩ : ∃ id, name = some id ∧ ((s.core c).copyRoom.copy id).filter (·.tenant == tenant) = some q := by
    cases name with
    | none => simp at h
    | some id => exact ⟨id, rfl, h⟩
  have listed : ((s.core c).copyRoom.copy q.id).isSome = true := by
    have at_ := (Option.filter_eq_some_iff.mp found).1
    rw [Core.copy_id at_, at_]
    rfl
  simp only [State.newCopy, ← next]
  simp only [State.issueCopy, room, Option.bind_some, Bool.false_eq_true, if_false, found, hc, if_true, Option.map_some,
    Option.filter_some, listed]
  exact congrArg (Prod.mk _) (congrArg some (Copy.after_id _ q))

/-- A command whose predecessor is not in the table, or was issued without `cont`, only makes room. -/
theorem State.issueCopy_refused {name : Option (BitVec 16)}
    (h : ((name.bind (s.core c).copyRoom.copy).filter (·.tenant == tenant)).all (fun q => !q.desc.cont) = true) :
    s.issueCopy c slot gen tenant d (some name) false = (s.updCore c Core.copyRoom, none) := by
  have room : (s.updCore c Core.copyRoom).core c = (s.core c).copyRoom := by simp [State.updCore_eq]
  cases name with
  | none => rfl
  | some id =>
    simp only [State.issueCopy, room, Option.bind_some, Bool.false_eq_true, if_false]
    cases found : ((s.core c).copyRoom.copy id).filter (·.tenant == tenant) with
    | none => rfl
    | some q =>
      have cont : q.desc.cont = false := by simpa [found] using h
      simp [cont]

end

/-! ### The instructions (R202, R206, R207) -/

section
variable {s : State} {d : BitVec 5} {scope : BitVec 3}

/-- The table has an entry to give, or is not asked for one. -/
theorem State.tableFull_false (h : s.me.views ≠ [] ∨ (s.core s.home).copyFull = false) : s.tableFull = false := by
  rcases h with h | h
  · simp [State.tableFull, h]
  · rw [State.tableFull, show (s.core s.me.home).copyFull = false from h, Bool.and_false]

/-- A copy command that has passed its checks, outside every view, issues or is refused. -/
theorem State.copyBody_issues {chain : Option Word} {b : Bool} (hb : chain.isSome = b) (hv : s.me.views = []) (hr : s.releasing = false)
    (hf : (s.core s.home).copyFull = false) (hc : s.checkCopy (s.regs.copyDesc b scope) = .ok ())
    {t : State} {id : Option (BitVec 16)}
    (hi : s.issueCopy s.home s.curSlot s.me.gen s.me.tenant (s.regs.copyDesc b scope)
      (chain.map fun w => if w = 0xFFFFFFFF then s.me.lastCopy else some (w.setWidth 16)) false = (t, id)) :
    s.copyBody d chain scope = .ok (t.setRegs ((t.regs.setVal d (copyStatus id)).advance 4)) := by
  subst hb
  have free := State.tableFull_false (.inr hf)
  have world : s.me.inWorld = false := by simp [Slot.inWorld, hv]
  have domain : s.me.inDomain = false := by simp [Slot.inDomain, hv]
  unfold State.copyBody
  simp only [hc, world, domain, hr, free, Bool.or_self, Bool.false_eq_true, if_false]
  rw [← State.home, hi]

/-- Inside a domain it joins the outbox. -/
theorem State.copyBody_joins {chain : Option Word} {v : View} {rest : List View} (hw : s.me.inWorld = false)
    (hv : s.me.views = v :: rest) (hn : chain.any (· != 0xFFFFFFFF) = false)
    (hc : s.checkCopy (s.regs.copyDesc chain.isSome scope) = .ok ()) :
    let t := s.updMe fun t => { t with
      views := { v with outbox := v.outbox ++ [.copy (s.regs.copyDesc chain.isSome scope) chain.isSome] } :: rest }
    s.copyBody d chain scope = .ok (t.setRegs ((t.regs.setVal d 0x40000000).advance 4)) := by
  have domain : s.me.inDomain = true := Slot.inDomain_of_views hw (by simp [hv])
  simp only [State.copyBody, hc, hw, domain, hn, State.updMe_eq, hv]
  rfl

/-- Inside a domain a chained name escapes. -/
theorem State.copyBody_escapes {chain : Option Word} (hw : s.me.inWorld = false) (hv : s.me.views ≠ [])
    (hn : chain.any (· != 0xFFFFFFFF) = true) (hc : s.checkCopy (s.regs.copyDesc chain.isSome scope) = .ok ()) :
    s.copyBody d chain scope = .error (.trap s escape) := by
  simp only [State.copyBody, hc, hw, Slot.inDomain_of_views hw hv, hn, Bool.false_eq_true, if_false, if_true]

/-- `CPY` whose body completes. -/
theorem exec_cpy_of_ok {t : State} (hf : s.tableFull = false) (hp : s.portsReady [] [d])
    (hb : s.copyBody d none scope = .ok t) : exec (.cpy d scope) s = .next (t.completed [] [d] t.regs) := by
  show execCpy d scope s = _
  rw [execCpy, State.hold_of_not hf, s.scoped_of_ok t hp hb]

/-- `CPYC` whose body completes. -/
theorem exec_cpyc_of_ok {a : BitVec 5} {t : State} (hf : s.tableFull = false) (hp : s.portsReady [a] [d])
    (hb : s.copyBody d (some (s.regs.val a)) scope = .ok t) :
    exec (.cpyc d a scope) s = .next (t.completed [a] [d] t.regs) := by
  show execCpyc d a scope s = _
  rw [execCpyc, State.hold_of_not hf, s.scoped_of_ok t hp hb]

/-- `CPYC` whose body faults. -/
theorem exec_cpyc_of_trap {a : BitVec 5} {f : FaultInfo} (hf : s.tableFull = false) (hp : s.portsReady [a] [d])
    (hb : s.copyBody d (some (s.regs.val a)) scope = .error (.trap s f)) :
    exec (.cpyc d a scope) s = .next (s.trapMe { f with scope := scope }) := by
  show execCpyc d a scope s = _
  rw [execCpyc, State.hold_of_not hf, s.scoped_of_trap s hp hb]
  rfl

/-- The state in which a copy has entered its core's table. -/
theorem State.copy_entered (s : State) (c : Nat) (slot : Fin 8) (gen : BitVec 8) (tenant : Nat) (d : CopyDesc) (x : Copy) :
    let t := (s.copyRoomFor c tenant d).enterCopy c slot gen x
    t.regs = s.regs ∧ (t.core c).copies = (s.core c).copyRoom.copies ++ [x] ∧
      (t.core c).copyNext = (s.core c).copyNext + 1 := by
  obtain ⟨table, next⟩ := (s.copyRoomFor c tenant d).copies_enterCopy c slot gen x
  rw [State.core_copyRoomFor] at table next
  exact ⟨by rw [State.regs_enterCopy, State.regs_copyRoomFor], table, by rw [next, Core.copyRoom_copyNext]⟩

/-- A copy has issued: its identifier is the answer, and it stands last in its core's table, where room was made. -/
def State.Issued (s : State) (i : Instr) (srcs : List (BitVec 5)) (d : BitVec 5) (x : Copy) : Prop :=
  ∃ t : State, exec i s = .next (t.completed srcs [d] (s.wrote d ((s.core s.home).copyNext.zeroExtend 32) 4)) ∧
    (t.core s.home).copies = (s.core s.home).copyRoom.copies ++ [x] ∧
    (t.core s.home).copyNext = (s.core s.home).copyNext + 1

/-- `CPY` outside every view issues. -/
theorem exec_cpy_issues (hv : s.me.views = []) (hr : s.releasing = false) (hf : (s.core s.home).copyFull = false)
    (hc : s.checkCopy (s.regs.copyDesc false scope) = .ok ()) (hp : s.portsReady [] [d]) :
    s.Issued (.cpy d scope) [] d
      (s.newCopy s.home s.curSlot s.me.gen s.me.tenant (s.regs.copyDesc false scope) none) := by
  have body := State.copyBody_issues (d := d) (chain := none) (b := false) rfl hv hr hf hc (s.issueCopy_unchained ..)
  obtain ⟨regs, entered⟩ := s.copy_entered s.home s.curSlot s.me.gen s.me.tenant (s.regs.copyDesc false scope)
    (s.newCopy s.home s.curSlot s.me.gen s.me.tenant (s.regs.copyDesc false scope) none)
  refine ⟨_, ?_, entered⟩
  rw [exec_cpy_of_ok (State.tableFull_false (.inr hf)) hp body, State.regs_setRegs, State.completed_setRegs, regs]
  rfl

/-- The entry that the name of a `CPYC` finds among its tenant's (R202; entry 90). -/
def State.chained (s : State) (a : BitVec 5) : Option Copy :=
  ((if s.regs.val a = 0xFFFFFFFF then s.me.lastCopy else some ((s.regs.val a).setWidth 16)).bind
    (s.core s.home).copyRoom.copy).filter (·.tenant == s.me.tenant)

/-- `CPYC` outside every view issues behind an entry that was issued with `cont`. -/
theorem exec_cpyc_issues {a : BitVec 5} {q : Copy} (hv : s.me.views = []) (hr : s.releasing = false)
    (hf : (s.core s.home).copyFull = false) (hc : s.checkCopy (s.regs.copyDesc true scope) = .ok ())
    (hq : s.chained a = some q) (cont : q.desc.cont = true) (hp : s.portsReady [a] [d]) :
    s.Issued (.cpyc d a scope) [a] d
      ((s.newCopy s.home s.curSlot s.me.gen s.me.tenant (s.regs.copyDesc true scope) (some q.id)).after q) := by
  have body := State.copyBody_issues (d := d) (chain := some (s.regs.val a)) (b := true) rfl hv hr hf hc (s.issueCopy_chained _ _ _ _ _ hq cont)
  obtain ⟨regs, entered⟩ := s.copy_entered s.home s.curSlot s.me.gen s.me.tenant (s.regs.copyDesc true scope)
    ((s.newCopy s.home s.curSlot s.me.gen s.me.tenant (s.regs.copyDesc true scope) (some q.id)).after q)
  refine ⟨_, ?_, entered⟩
  rw [exec_cpyc_of_ok (State.tableFull_false (.inr hf)) hp body, State.regs_setRegs, State.completed_setRegs, regs]
  rfl

/-- `CPYC` outside every view is refused where its name finds no entry that was issued with `cont`. -/
theorem exec_cpyc_refused {a : BitVec 5} (hv : s.me.views = []) (hr : s.releasing = false)
    (hf : (s.core s.home).copyFull = false) (hc : s.checkCopy (s.regs.copyDesc true scope) = .ok ())
    (hq : (s.chained a).all (fun q => !q.desc.cont) = true) (hp : s.portsReady [a] [d]) :
    ∃ t : State, exec (.cpyc d a scope) s = .next (t.completed [a] [d] (s.wrote d 0x80000002 4)) ∧
      (t.core s.home).copies = (s.core s.home).copyRoom.copies := by
  have body := State.copyBody_issues (d := d) (chain := some (s.regs.val a)) (b := true) rfl hv hr hf hc (s.issueCopy_refused _ _ _ _ _ hq)
  refine ⟨s.updCore s.home Core.copyRoom, ?_, by simp [State.updCore_eq]⟩
  rw [exec_cpyc_of_ok (State.tableFull_false (.inr hf)) hp body, State.regs_setRegs, State.completed_setRegs,
    s.regs_updCore _ _ (Core.copyRoom_slots _)]
  rfl

/-- `CPYW` of a complete copy acquires. -/
theorem exec_cpyw_complete {a : BitVec 5} (hp : s.portsReady [a] [])
    (h : (s.core s.home).copyComplete ((s.regs.val a).setWidth 16) = true) :
    exec (.cpyw a) s = .next ((s.acquire 5).completed [a] [] (s.regs.advance 4)) := by
  show execCpyw a s = _
  have regs : (s.acquire 5).regs = s.regs := congrArg Slot.regs (KeepsMe.acquire s 5).me
  have h : (s.core s.me.home).copyComplete ((s.regs.val a).setWidth 16) = true := h
  rw [execCpyw, s.issue_of_ok ((s.acquire 5).setRegs (s.regs.advance 4)) hp (by simp only [h, if_true, regs])]
  simp

/-- `CPYW` of another waits for its record. -/
theorem exec_cpyw_waits {a : BitVec 5} (hp : s.portsReady [a] [])
    (h : (s.core s.home).copyComplete ((s.regs.val a).setWidth 16) = false) :
    exec (.cpyw a) s = .next (s.updMe fun t =>
      { t.block .sleep (.copy ((s.regs.val a).setWidth 16)) with held := some (.cpyw a) }) := by
  show execCpyw a s = _
  have h : (s.core s.me.home).copyComplete ((s.regs.val a).setWidth 16) = false := h
  rw [execCpyw, s.issue_of_wait _ hp (by simp only [h, Bool.false_eq_true, if_false]; rfl)]

/-- `CPYQ` answers the bytes left. -/
theorem exec_cpyq {a : BitVec 5} : Completes (.cpyq d a) s [a] [d]
    (s.wrote d (BitVec.ofNat 32 ((s.core s.home).copyLeft ((s.regs.val a).setWidth 16))) 4) := by
  intro hp
  show execCpyq d a s = _
  have body := s.issue_of_ok (s.setRegs (s.wrote d (BitVec.ofNat 32 ((s.core s.home).copyLeft ((s.regs.val a).setWidth 16))) 4))
    hp (body := fun s => .ok (s.setRegs (s.wrote d
      (BitVec.ofNat 32 ((s.core s.home).copyLeft ((s.regs.val a).setWidth 16))) 4))) rfl
  rw [State.regs_setRegs, State.completed_setRegs] at body
  exact congrArg _ body

end

/-- Settles O33: outside every view a command issues or is refused, inside a domain it joins the outbox or escapes, and
`CPYW` and `CPYQ` look at the table. -/
theorem copies : Obligations.Copies := by
  unfold Obligations.Copies
  intro s d a scope
  refine ⟨fun hv hr hf => ⟨fun hc => exec_cpy_issues hv hr hf hc, fun hc => ⟨fun q hq cont posted hp => ?_,
    fun q hq cont posted hp => ?_, exec_cpyc_refused hv hr hf hc⟩⟩, fun v rest hw hv => ⟨fun hc hp => ?_, fun hc hn hp => ?_⟩,
    fun hw hv hc hn hp => ?_, exec_cpyw_complete, exec_cpyw_waits, exec_cpyq⟩
  case refine_1 =>
    have issued := exec_cpyc_issues hv hr hf hc hq cont hp
    rwa [Copy.after, posted, if_neg Bool.false_ne_true] at issued
  case refine_2 =>
    have issued := exec_cpyc_issues hv hr hf hc hq cont hp
    rwa [Copy.after, if_pos posted] at issued
  case refine_3 =>
    rw [exec_cpy_of_ok (State.tableFull_false (.inl (by simp [hv]))) hp (State.copyBody_joins hw hv rfl hc)]
    simp [State.wrote, State.regs, State.me_updMe]
  case refine_4 =>
    have named : (some (s.regs.val a)).any (· != 0xFFFFFFFF) = false := by simp [hn]
    rw [exec_cpyc_of_ok (State.tableFull_false (.inl (by simp [hv]))) hp (State.copyBody_joins hw hv named hc)]
    simp [State.wrote, State.regs, State.me_updMe]
  case refine_5 =>
    have named : (some (s.regs.val a)).any (· != 0xFFFFFFFF) = true := by simpa using hn
    rw [exec_cpyc_of_trap (State.tableFull_false (.inl hv)) hp (State.copyBody_escapes hw hv named hc)]
    rfl

end Sys2Proof.Machine
end

section
/-!
PROOFS. The matrix instructions (R189 to R198) on operands in LOCAL space, and `MPASS`.
-/

namespace Sys2Proof.Machine

/-! ### Local memory in pieces -/

/-- Bytes are read part by part. -/
theorem Memory.readN_add (m : Memory) (a n k : Nat) : m.readN a (n + k) = m.readN a n ++ m.readN (a + n) k := by
  induction n generalizing a with
  | zero => simp [Memory.readN]
  | succ n ih => rw [Nat.succ_add, Memory.readN, Memory.readN, ih, List.cons_append, Nat.add_assoc, Nat.add_comm 1 n]

/-- Bytes are written part by part. -/
theorem Memory.writeN_append (l k : List Byte) (m : Memory) (a : Nat) :
    m.writeN a (l ++ k) = (m.writeN a l).writeN (a + l.length) k := by
  induction l generalizing m a with
  | nil => rfl
  | cons x l ih =>
    rw [List.cons_append, Memory.writeN, Memory.writeN, ih, List.length_cons, Nat.add_assoc, Nat.add_comm 1 l.length]

/-- The granules that bytes touch, from the first's to the last's. -/
theorem mem_granules {a n g : Nat} : g ∈ granules a n ↔ 0 < n ∧ a / 16 ≤ g ∧ g ≤ (a + n - 1) / 16 := by
  unfold granules
  split
  · simp; omega
  · simp only [List.mem_map, List.mem_range]
    constructor
    · rintro ⟨i, hi, rfl⟩; omega
    · rintro ⟨hn, lo, hi⟩; exact ⟨g - a / 16, by omega, by omega⟩

/-- A part of a range touches granules of the range. -/
theorem granules_part {a z i n g : Nat} (h : i + n ≤ z) (hg : g ∈ granules (a + i) n) : g ∈ granules a z := by
  rw [mem_granules] at *
  omega

/-- The granules of two adjacent ranges are those of the whole. -/
theorem mem_granules_add {a n k g : Nat} : g ∈ granules a (n + k) ↔ g ∈ granules a n ∨ g ∈ granules (a + n) k := by
  simp only [mem_granules]
  omega

/-- Tags cleared twice are cleared at both. -/
theorem Tags.clear_clear (t : Tags) {l k r : List Nat} (h : ∀ g, g ∈ r ↔ g ∈ l ∨ g ∈ k) :
    (t.clear l).clear k = t.clear r := by
  unfold Tags.clear
  rw [List.filter_filter]
  refine List.filter_congr fun g _ => ?_
  rw [Bool.eq_iff_iff]
  simp [h, and_comm]

/-- Adjacent writes are one. -/
theorem WroteLocal.append {s t u : State} {core a : Nat} {l k : List Byte} (h : WroteLocal s t core a l)
    (g : WroteLocal t u core (a + l.length) k) : WroteLocal s u core a (l ++ k) where
  loc := by rw [g.loc, h.loc, Memory.writeN_append]
  ltags := by
    rw [g.ltags, h.ltags]
    exact Tags.clear_clear _ fun _ => by rw [List.length_append, mem_granules_add]
  others c e := ⟨(g.others c e).1.trans (h.others c e).1, (g.others c e).2.trans (h.others c e).2⟩
  global := ⟨g.global.1.trans h.global.1, g.global.2.trans h.global.2⟩
  core := g.core.trans h.core
  slot := g.slot.trans h.slot
  me := g.me.trans h.me

/-- Nothing is written by writing no byte. -/
theorem WroteLocal.nil (s : State) (core a : Nat) : WroteLocal s s core a [] where
  loc := rfl
  ltags := by simp [granules, Tags.clear]
  others _ _ := ⟨rfl, rfl⟩
  global := ⟨rfl, rfl⟩
  core := rfl
  slot := rfl
  me := rfl

/-- The issuing thread, outside every world, reaches `z` bytes of its core's local memory, none of them in a poisoned
granule. -/
structure State.OwnAt (s : State) (a z : Nat) : Prop extends s.LocalServes s.home where
  clean   : ∀ g ∈ granules a z, (s.core s.home).lpoison.contains g = false
  outside : s.me.inWorld = false

/-- What an admitted LOCAL access reaches. -/
theorem State.LocalAt.own {s : State} {c : Cap} {off : Int} {z align a : Nat} {need : BitVec 7}
    (h : s.LocalAt c off z align need a) : s.OwnAt a z :=
  ⟨h.toLocalServes, h.clean, h.outside⟩

/-- A part of what is reached is reached. -/
theorem State.OwnAt.part {s : State} {a z : Nat} (h : s.OwnAt a z) {i n : Nat} (hi : i + n ≤ z) : s.OwnAt (a + i) n :=
  ⟨h.toLocalServes, fun g hg => h.clean g (granules_part hi hg), h.outside⟩

/-- The words that hold the bytes pass their checks. -/
theorem State.OwnAt.checkWords {s : State} {a z : Nat} (h : s.OwnAt a z) :
    s.checkWords s.home (granules a z) = .ok () := by
  have none_ : (granules a z).find? (fun g => (s.core s.home).lpoison.contains g) = none := by simpa using h.clean
  simp only [State.checkWords, h.alive, h.present, Core.poisonFault, none_, Bool.or_self, Option.map_none]
  rfl

/-- A read of them answers them and changes nothing. -/
theorem State.OwnAt.readAt {s : State} {a z : Nat} (h : s.OwnAt a z) (va dom : Nat) (plain : Bool) (need : BitVec 7) :
    s.readAt ⟨0, s.home, a, va, dom⟩ z plain need = .ok ((s.core s.home).loc.readN a z, s) := by
  have plainWords : s.keptWords s.me a z = granules a z := by
    have rivals : s.me.views.any (·.rival) = false := h.outside
    simp [State.keptWords, rivals]
  simp [State.readAt, State.checkLocal, State.checkWindow, spLOCAL, spWINDOW, plainWords, h.checkWords,
    Slot.find_rival h.outside, State.localByte, Memory.readN_eq]

/-- A read in pieces answers the bytes of them all. -/
theorem State.OwnAt.readPieces {s : State} {z n a : Nat} (h : s.OwnAt a (z * n)) (va dom : Nat) :
    State.readPieces z ⟨0, s.home, a, va, dom⟩ n s = .ok ((s.core s.home).loc.readN a (z * n), s) := by
  induction n generalizing a va with
  | zero => rfl
  | succ n ih =>
    rw [Nat.mul_succ, Nat.add_comm (z * n)] at h ⊢
    have first : s.OwnAt a z := h.part (i := 0) (by omega)
    have others : s.OwnAt (a + z) (z * n) := h.part (le_refl _)
    simp only [State.readPieces, first.readAt, run_ok_bind, ih others, Memory.readN_add]

/-- A write of local memory without its monitors. -/
theorem State.OwnAt.placeAt {s : State} {a : Nat} (h : s.OwnAt a 0) (b va dom : Nat) (need : BitVec 7) (bytes : List Byte) :
    s.placeAt ⟨0, s.home, b, va, dom⟩ bytes need = .ok (s.putLocal s.home b bytes none) := by
  have words : s.checkWords s.home [] = .ok () := h.checkWords
  simp [State.placeAt, State.checkLocal, State.checkWindow, spLOCAL, spWINDOW, words, h.outside]

/-- A write of local memory changes no package. -/
theorem State.pkg_putLocal (s : State) (c a : Nat) (bytes : List Byte) (own : Option (Nat × BitVec 16)) (p : Nat) :
    (s.putLocal c a bytes own).pkg p = s.pkg p := by
  unfold State.putLocal
  exact State.pkg_breakHolds ..

/-- What is reached after a write of local memory. -/
theorem State.OwnAt.after_putLocal {s : State} {a : Nat} (h : s.OwnAt a 0) (b : Nat) (bytes : List Byte) :
    (s.putLocal s.home b bytes none).OwnAt a 0 ∧ (s.putLocal s.home b bytes none).home = s.home := by
  obtain ⟨wrote, -⟩ := s.putLocal_wrote s.home b bytes none
  have home : (s.putLocal s.home b bytes none).home = s.home := congrArg Slot.home wrote.me
  refine ⟨⟨⟨?_, ?_⟩, by simp [granules], by rw [wrote.me]; exact h.outside⟩, home⟩
  · rw [home, State.pkg_putLocal]; exact h.alive
  · rw [home, State.saved, State.pkg_putLocal]; exact h.present

/-- Pieces placed in local memory, one behind the other, are one write; their monitors look last (R177, R198). -/
theorem State.OwnAt.placePieces {a : Nat} (b : Nat) (bytes : List Byte) : ∀ {s : State} (_ : s.OwnAt a 0) {x : Target}
    (_ : x.space = 0) (_ : x.core = s.home), ∃ t, State.placePieces x (pieces16 b bytes) s = .ok t.fireMonitors ∧
      WroteLocal s t s.home b bytes ∧ t.monitors = s.monitors := by
  have step : ∀ {s : State} {x : Target} {b : Nat} (l : List Byte) (ps : List (Nat × List Byte)), s.OwnAt a 0 → x.space = 0 →
      x.core = s.home → State.placePieces x ((b, l) :: ps) s = State.placePieces x ps (s.putLocal s.home b l none) := by
    intro s x b l ps h hs hc
    obtain ⟨space, core, addr, va, dom⟩ := x
    obtain rfl : space = 0 := hs
    obtain rfl : core = s.home := hc
    rw [State.placePieces, h.placeAt, run_ok_bind]
  fun_induction pieces16 b bytes with
  | case1 b b0 b1 b2 b3 b4 b5 b6 b7 b8 b9 b10 b11 b12 b13 b14 b15 rest ih =>
    intro s h x hs hc
    obtain ⟨wrote, monitors⟩ := s.putLocal_wrote s.home b
      [b0, b1, b2, b3, b4, b5, b6, b7, b8, b9, b10, b11, b12, b13, b14, b15] none
    obtain ⟨reached, home⟩ := h.after_putLocal b [b0, b1, b2, b3, b4, b5, b6, b7, b8, b9, b10, b11, b12, b13, b14, b15]
    obtain ⟨t, placed, others, same⟩ := ih reached hs (hc.trans home.symm)
    rw [home] at others
    exact ⟨t, by rw [step _ _ h hs hc, placed], wrote.append others, same.trans monitors⟩
  | case2 b => exact fun {s} _ {x} _ _ => ⟨s, rfl, .nil .., rfl⟩
  | case3 b l =>
    intro s h x hs hc
    obtain ⟨wrote, monitors⟩ := s.putLocal_wrote s.home b l none
    exact ⟨_, by rw [step _ _ h hs hc]; rfl, wrote, monitors⟩

/-! ### The unit (R189, R193) -/

/-- The unit changed leaves every slot. -/
theorem State.slot_updMatrix (s : State) (c : Nat) (f : Matrix → Matrix) (d : Nat) (n : Fin 8) :
    (s.updMatrix c f).slot d n = s.slot d n := s.slot_updCore c _ rfl d n

/-- The unit changed leaves the issuing thread. -/
@[simp] theorem State.me_updMatrix (s : State) (c : Nat) (f : Matrix → Matrix) : (s.updMatrix c f).me = s.me :=
  s.slot_updMatrix c f _ _

@[simp] theorem State.regs_updMatrix (s : State) (c : Nat) (f : Matrix → Matrix) : (s.updMatrix c f).regs = s.regs :=
  congrArg Slot.regs (s.me_updMatrix c f)

/-- The unit changed keeps the issuing thread and storage. -/
theorem KeepsMe.updMatrix (s : State) (c : Nat) (f : Matrix → Matrix) : KeepsMe s (s.updMatrix c f) :=
  ⟨.updCore _ _ _ rfl rfl, rfl, rfl, s.me_updMatrix c f⟩

/-- A core after a unit changed: its own unit, and nothing else. -/
theorem State.core_updMatrix (s : State) (c : Nat) (f : Matrix → Matrix) (d : Nat) :
    (s.updMatrix c f).core d =
      if d = c then { s.core c with matrix := { f (s.core c).matrix with used := true } } else s.core d := by
  by_cases h : d = c
  · subst h; simp [State.updMatrix, State.updCore_eq]
  · simp [State.updMatrix, State.updCore_eq, State.core_setCore_ne _ _ h, h]

/-- Without an accepted command that waits, none comes first, and the queued jobs alone count. -/
theorem Matrix.holdsBack_of_nil {m : Matrix} (h : m.held = []) (op : BitVec 4) (ty : BitVec 5) (n : BitVec 2) :
    m.holdsBack op ty n = false := by simp [Matrix.holdsBack, h]

theorem Matrix.jobCount_of_nil {m : Matrix} (h : m.held = []) : m.jobCount = m.jobs.length := by simp [Matrix.jobCount, h]

/-- An accepted command that waits comes before one of its own operation that loads the latch, the table or the queue. -/
theorem Matrix.holdsBack_same {m : Matrix} {op : BitVec 4} (ho : op = 1 ∨ op = 2 ∨ op = 3)
    (h : ∃ x ∈ m.held, x.cmd.op = op) (ty : BitVec 5) (n : BitVec 2) : m.holdsBack op ty n = true := by
  obtain ⟨x, hx, e⟩ := h
  simp only [Matrix.holdsBack, List.any_eq_true]
  refine ⟨x, hx, ?_⟩
  rcases ho with rfl | rfl | rfl <;> simp [MatrixCommand.behind, e]

/-- A job is complete where no queued job and no command that waits has its identifier. -/
theorem Matrix.complete_of_none {m : Matrix} {id : BitVec 16} (hh : m.held = []) (hj : ∀ j ∈ m.jobs, j.id ≠ id) :
    m.complete id = true := by
  simpa [Matrix.complete, hh] using hj

/-- It is not while one has. -/
theorem Matrix.not_complete {m : Matrix} {id : BitVec 16}
    (h : (∃ j ∈ m.jobs, j.id = id) ∨ ∃ x ∈ m.held, ∃ j, x.job = some j ∧ j.id = id) : m.complete id = false := by
  rcases h with ⟨j, hj, e⟩ | ⟨x, hx, j, hj, e⟩
  · rw [Matrix.complete, show m.jobs.any (·.id == id) = true from List.any_eq_true.mpr ⟨j, hj, by simp [e]⟩]
    rfl
  · rw [Matrix.complete, show m.held.any (·.job.any (·.id == id)) = true from
      List.any_eq_true.mpr ⟨x, hx, by simp [hj, e]⟩]
    exact Bool.and_false _

/-- The scales of a panel are read in pieces of 32 bytes. -/
theorem scaleBytes_pieces : ∀ ty : BitVec 5, 32 * (scaleBytes ty / 32) = scaleBytes ty := by decide

/-! ### Operands -/

section
variable {s : State} {d a b : BitVec 5} {c : BitVec 3} {ty : BitVec 5} {n : BitVec 2} {x y : Nat}

/-- The operand of an instruction lies in LOCAL space: the offset register `o`, with what is needed of it. -/
abbrev State.operandAt (s : State) (c : BitVec 3) (o : BitVec 5) (z align : Nat) (need : BitVec 7) (x : Nat) : Prop :=
  s.LocalAt (s.regs.cap c) (s.regs.val o).toInt z align need x

/-- The address by which faults and rights name an operand. -/
def State.operand (s : State) (c : BitVec 3) (o : BitVec 5) (x : Nat) : Target :=
  ⟨0, s.home, x, (s.regs.cap c).base + (s.regs.val o).toInt.toNat, (s.regs.cap c).dom⟩

/-- A thread outside every world does not escape. -/
theorem State.noWorld_ok (h : s.me.inWorld = false) (a : Nat) : s.noWorld a = .ok () := by simp [State.noWorld, h]

/-- A panel without scales. -/
theorem State.panelTargets_plain (hs : isScaled ty = false) (h : s.operandAt c a 1024 64 pRD x) {spaces : List Nat}
    (h0 : spaces.contains 0 = true) : s.panelTargets a b c ty spaces = .ok (s.operand c a x, none) := by
  have checked := h.checked h0 (k := .load)
  simp only [State.panelTargets, Regs.offset, panelBytes, checked, hs, Bool.false_eq_true, if_false, run_ok_bind,
    State.noWorld_ok h.outside]
  rfl

/-- A panel with its scales. -/
theorem State.panelTargets_scaled (hs : isScaled ty = true) (h : s.operandAt c a 1024 64 pRD x)
    (h' : s.operandAt c b (scaleBytes ty) 32 pRD y) {spaces : List Nat} (h0 : spaces.contains 0 = true) :
    s.panelTargets a b c ty spaces = .ok (s.operand c a x, some (s.operand c b y)) := by
  have checked := h.checked h0 (k := .load)
  have scales := h'.checked h0 (k := .load)
  simp only [State.panelTargets, Regs.offset, panelBytes, checked, scales, hs, if_true, run_ok_bind,
    State.noWorld_ok h.outside, Except.map]
  rfl

/-! ### Bindings, panels, tables and jobs (R191, R193) -/

/-- `MLDA` whose operands pass their checks binds them. -/
theorem exec_mlda {y? : Option Target} (ht : s.panelTargets a b c ty [spLOCAL] = .ok (s.operand c a x, y?))
    (hp : s.portsReady (panelSrcs ty a b) []) : exec (.mlda a b c ty) s =
      .next ((s.updMatrix s.home fun m => { m with abind := some ⟨x, (y?.map (·.addr)).getD 0, ty⟩ }).completed
        (panelSrcs ty a b) [] (s.regs.advance 4)) := by
  show execMlda a b c ty s = _
  rw [execMlda, s.issue_of_ok _ hp (by simp only [ht]; rfl)]
  simp only [State.regs_setRegs, State.completed_setRegs, State.regs_updMatrix]
  rfl

/-- The latch has an EMPTY buffer for an `MLDB`. -/
theorem State.latchFull_false (hh : (s.core s.home).matrix.held = [])
    (hl : (s.core s.home).matrix.latch.length + (s.core s.home).loading < 2) : s.latchFull = false := by
  have room : (s.core s.me.home).latchFull = false := decide_eq_false (Nat.not_le.mpr hl)
  have first : s.unit.holdsBack 1 0 0 = false := Matrix.holdsBack_of_nil hh ..
  rw [State.latchFull, room, first]
  rfl

/-- `MLDB` of a panel without scales. -/
theorem exec_mldb_plain (hs : isScaled ty = false) (h : s.operandAt c a 1024 64 pRD x) (hf : s.latchFull = false)
    (hp : s.portsReady [a] []) : exec (.mldb a b c ty) s =
      .next ((s.updMatrix s.home (·.arrive (latchPanel ty ((s.core s.home).loc.readN x 1024) []))).completed [a] []
        (s.regs.advance 4)) := by
  show execMldb a b c ty s = _
  have targets := State.panelTargets_plain (b := b) hs h (spaces := spMem) (by decide)
  have srcs : panelSrcs ty a b = [a] := by simp [panelSrcs, hs]
  have panel := State.OwnAt.readPieces (z := 64) (n := 16) h.own
  rw [execMldb, State.hold_of_not hf, srcs, s.memory_of_ok _ hp]
  simp only [targets, liftFault, run_ok_bind, State.operand, panel]
  rfl

/-- `MLDB` of a panel with its scales. -/
theorem exec_mldb_scaled (hs : isScaled ty = true) (h : s.operandAt c a 1024 64 pRD x)
    (h' : s.operandAt c b (scaleBytes ty) 32 pRD y) (hf : s.latchFull = false)
    (hp : s.portsReady [a, b] []) : exec (.mldb a b c ty) s =
      .next ((s.updMatrix s.home (·.arrive (latchPanel ty ((s.core s.home).loc.readN x 1024)
        ((s.core s.home).loc.readN y (scaleBytes ty))))).completed [a, b] [] (s.regs.advance 4)) := by
  show execMldb a b c ty s = _
  have targets := State.panelTargets_scaled hs h h' (spaces := spMem) (by decide)
  have srcs : panelSrcs ty a b = [a, b] := by simp [panelSrcs, hs]
  have panel := State.OwnAt.readPieces (z := 64) (n := 16) h.own
  have scales := State.OwnAt.readPieces (z := 32) (n := scaleBytes ty / 32) (by rw [scaleBytes_pieces]; exact h'.own)
  rw [scaleBytes_pieces] at scales
  rw [execMldb, State.hold_of_not hf, srcs, s.memory_of_ok _ hp]
  simp only [targets, liftFault, run_ok_bind, State.operand, panel, scales]
  rfl

/-- `MTBL` loads the table once no `.cb4` job is queued. -/
theorem exec_mtbl (h : s.operandAt c a 32 32 pRD x) (hh : (s.core s.home).matrix.held = [])
    (hj : ∀ j ∈ (s.core s.home).matrix.jobs, j.type ≠ 18) (hp : s.portsReady [a] []) : exec (.mtbl a c ty) s =
      .next ((s.updMatrix s.home fun m => { m with tbl := tableOf ((s.core s.home).loc.readN x 32) }).completed [a] []
        (s.regs.advance 4)) := by
  show execMtbl a c ty s = _
  have busy : s.tableBusy = false := by
    have jobs : (s.core s.home).matrix.jobs.any (·.type == 18) = false := by simpa using hj
    have first : s.unit.holdsBack 2 0 0 = false := Matrix.holdsBack_of_nil hh ..
    rw [State.tableBusy, show s.unit.jobs.any (·.type == 18) = false from jobs, first]
    rfl
  have checked := h.checked (spaces := spMem) (by decide) (k := .load)
  rw [execMtbl, State.hold_of_not busy, s.memory_of_ok _ hp]
  simp only [Regs.offset, checked, liftFault, run_ok_bind, State.noWorld_ok h.outside, h.own.readAt]
  rfl

/-- `MMA` queues a job under the next identifier. -/
theorem exec_mma (h : s.operandAt c a 4 4 pWR x) (hh : (s.core s.home).matrix.held = [])
    (hj : (s.core s.home).matrix.jobs.length < 4) (hp : s.portsReady [a] [d]) (va dom : Nat) :
    let m := (s.core s.home).matrix
    let job := m.jobFor ty n ⟨0, s.home, x, va, dom⟩ (some s.curSlot) s.me.gen s.me.tenant [] s.me.chain
    exec (.mma d a n c ty) s = .next ((s.updMatrix s.home (·.queue job)).completed [a] [d]
      ((s.regs.setVal d (m.next.zeroExtend 32)).advance 4)) := by
  intro m job
  show execMma d a n c ty s = _
  have busy : s.jobsFull ty n = false := by
    have room : decide (4 ≤ s.unit.jobCount) = false := by
      rw [show s.unit.jobCount = _ from Matrix.jobCount_of_nil hh]
      exact decide_eq_false (Nat.not_le.mpr hj)
    have first : s.unit.holdsBack 3 ty n = false := Matrix.holdsBack_of_nil hh ..
    rw [State.jobsFull, room, first]
    rfl
  have checked := h.checked (spaces := spMem) (by decide) (k := .store)
  rw [execMma, State.hold_of_not busy, s.memory_of_ok _ hp]
  simp only [Regs.offset, checked, liftFault, run_ok_bind, State.noWorld_ok h.outside]
  rfl

/-- `MLDB` waits for an EMPTY buffer, and for an accepted one that came before. -/
theorem exec_mldb_waits (hw : s.me.inWorld = false)
    (h : 2 ≤ (s.core s.home).matrix.latch.length + (s.core s.home).loading ∨
      ∃ x ∈ (s.core s.home).matrix.held, x.cmd.op = 1) : exec (.mldb a b c ty) s = .next s := by
  show execMldb a b c ty s = _
  refine State.hold_of ?_ _
  rw [State.latchFull, hw]
  rcases h with h | h
  · rw [show (s.core s.me.home).latchFull = true from decide_eq_true h]
    rfl
  · rw [show s.unit.holdsBack 1 0 0 = true from Matrix.holdsBack_same (.inl rfl) h .., Bool.or_true]
    rfl

/-- `MTBL` waits for an accepted one that came before. -/
theorem exec_mtbl_waits (hw : s.me.inWorld = false) (h : ∃ x ∈ (s.core s.home).matrix.held, x.cmd.op = 2) :
    exec (.mtbl a c ty) s = .next s := by
  show execMtbl a c ty s = _
  refine State.hold_of ?_ _
  rw [State.tableBusy, hw, show s.unit.holdsBack 2 0 0 = true from Matrix.holdsBack_same (.inr (.inl rfl)) h .., Bool.or_true]
  rfl

/-- `MMA` waits for a place in the queue, and for an accepted one that came before. -/
theorem exec_mma_waits (hw : s.me.inWorld = false)
    (h : 4 ≤ (s.core s.home).matrix.jobCount ∨ ∃ x ∈ (s.core s.home).matrix.held, x.cmd.op = 3) :
    exec (.mma d a n c ty) s = .next s := by
  show execMma d a n c ty s = _
  refine State.hold_of ?_ _
  rw [State.jobsFull, hw]
  rcases h with h | h
  · rw [show decide (4 ≤ s.unit.jobCount) = true from decide_eq_true h]
    rfl
  · rw [show s.unit.holdsBack 3 ty n = true from Matrix.holdsBack_same (.inr (.inr rfl)) h .., Bool.or_true]
    rfl

/-! ### Waits, polls and accumulators (R197, R198) -/

/-- `MWAIT` of a complete job acquires. -/
theorem exec_mwait_complete (hw : s.me.inWorld = false)
    (h : (s.core s.home).matrix.complete ((s.regs.val a).setWidth 16) = true) (hp : s.portsReady [a] []) :
    exec (.mwait a) s = .next ((s.acquire 5).completed [a] [] (s.regs.advance 4)) := by
  show execMwait a s = _
  have regs : (s.acquire 5).regs = s.regs := congrArg Slot.regs (KeepsMe.acquire s 5).me
  have h : s.unit.complete ((s.regs.val a).setWidth 16) = true := h
  rw [execMwait, s.issue_of_ok ((s.acquire 5).setRegs (s.regs.advance 4)) hp (by
    simp only [hw, h, if_true, regs, Bool.false_eq_true, if_false])]
  simp

/-- `MWAIT` of another sleeps. -/
theorem exec_mwait_waits (hw : s.me.inWorld = false)
    (h : (s.core s.home).matrix.complete ((s.regs.val a).setWidth 16) = false) (hp : s.portsReady [a] []) :
    exec (.mwait a) s = .next (s.updMe fun t =>
      { t.block .sleep (.job ((s.regs.val a).setWidth 16)) with held := some (.mwait a) }) := by
  show execMwait a s = _
  have h : s.unit.complete ((s.regs.val a).setWidth 16) = false := h
  rw [execMwait, s.issue_of_wait _ hp (by simp only [hw, h, Bool.false_eq_true, if_false]; rfl)]

/-- `MPOLL` answers whether a job is complete. -/
theorem exec_mpoll (hw : s.me.inWorld = false) {v : Word}
    (h : (if (s.core s.home).matrix.complete ((s.regs.val a).setWidth 16) then 1 else 0) = v) (hp : s.portsReady [a] [d]) :
    exec (.mpoll d a) s = .next (s.completed [a] [d] ((s.regs.setVal d v).advance 4)) := by
  show execMpoll d a s = _
  have h : (if s.unit.complete ((s.regs.val a).setWidth 16) then 1 else 0) = v := h
  rw [execMpoll, s.issue_of_ok (s.setRegs ((s.regs.setVal d v).advance 4)) hp (by
    simp only [hw, h, Bool.false_eq_true, if_false])]
  simp

/-- Whether `MZERO` or `MSTACC` waits. -/
theorem State.accBusy_eq (hw : s.me.inWorld = false) (op : BitVec 4) : s.accBusy op ty n =
    ((s.core s.home).matrix.names (if op = 4 then [n] else accsOf ty n) || (s.core s.home).matrix.holdsBack op ty n) := by
  rw [State.accBusy, hw]
  exact Bool.and_true _

/-- `MZERO` clears an accumulator that no job names. -/
theorem exec_mzero (hw : s.me.inWorld = false) (hh : (s.core s.home).matrix.held = [])
    (hn : (s.core s.home).matrix.names [n] = false) :
    exec (.mzero n) s = .next ((s.updMatrix s.home (·.zero n)).completed [] [] (s.regs.advance 4)) := by
  show execMzero n s = _
  have free : s.accBusy 4 9 n = false := by
    rw [State.accBusy_eq hw, if_pos rfl, hn, Matrix.holdsBack_of_nil hh]
    rfl
  rw [execMzero, State.hold_of_not free, s.issue_of_ok ((s.updMatrix s.home (·.zero n)).setRegs (s.regs.advance 4))
    s.portsReady_nil (by simp only [hw, Bool.false_eq_true, if_false, State.regs_updMatrix]; rfl)]
  simp

/-- `MZERO` waits for a job that names it. -/
theorem exec_mzero_waits (hw : s.me.inWorld = false) (hn : (s.core s.home).matrix.names [n] = true) :
    exec (.mzero n) s = .next s := by
  show execMzero n s = _
  refine State.hold_of ?_ _
  rw [State.accBusy_eq hw, if_pos rfl, hn]
  rfl

/-- `MSTACC` stores an accumulator that no job names and that is sound. -/
theorem exec_mstacc (h : s.operandAt c a (256 * tyBytes ty) 16 pWR x) (hh : (s.core s.home).matrix.held = [])
    (hn : (s.core s.home).matrix.names (accsOf ty n) = false) (hb : (s.core s.home).matrix.isBad ty n = false)
    (he : (s.core s.home).matrix.parityError ty n = false) (hw : s.notWatching) (hp : s.portsReady [a] []) :
    let l := (s.core s.home).matrix.stored ty n s.regs.fcr
    ∃ t : State, exec (.mstacc a n c ty) s = .next (t.completed [a] [] ((s.regs.raise (unionFlags l)).advance 4)) ∧
      StoredLocal s t s.home x (storedBytes ty l) := by
  intro l
  have free : s.accBusy 5 ty n = false := by
    rw [State.accBusy_eq h.outside, if_neg (by decide), hn, Matrix.holdsBack_of_nil hh]
    rfl
  have sound : ((s.unit.isBad ty n || s.unit.parityError ty n) && !s.me.inWorld) = false := by
    rw [show s.unit.isBad ty n = false from hb, show s.unit.parityError ty n = false from he]
    rfl
  have checked : s.checked (s.regs.cap c) (s.regs.val a).toInt (256 * tyBytes ty) 16 spMem pWR .store =
    .ok (s.operand c a x) := h.checked (by decide)
  obtain ⟨t, placed, wrote, monitors⟩ := State.OwnAt.placePieces x (storedBytes ty l) (h.own.part (i := 0) (n := 0) (by omega))
    (x := s.operand c a x) rfl rfl
  have wrote := wrote.keeps (.fireMonitors t fun m hm => by rw [wrote.core, wrote.slot]; exact hw m (monitors ▸ hm))
  have regs : t.fireMonitors.regs = s.regs := congrArg Slot.regs wrote.me
  refine ⟨t.fireMonitors, ?_, wrote.stored (.refl _)⟩
  show execMstacc a n c ty s = _
  rw [execMstacc, State.hold_of_not free, sound, if_neg Bool.false_ne_true, s.memory_of_ok t.fireMonitors hp]
  have placed : State.placePieces (s.operand c a x) (pieces16 (s.operand c a x).addr (storedBytes ty
    (s.unit.stored ty n s.regs.fcr))) s = .ok t.fireMonitors := placed
  simp only [State.storeAcc, Regs.offset, checked, liftFault, run_ok_bind, State.noWorld_ok h.outside, placed, regs]
  rfl

end

/-! ### `MPASS` (R9, R196) -/

/-- An instruction without ports leaves its registers as they are written. -/
theorem State.completed_nil (s : State) (r : Regs) : s.completed [] [] r = s.setRegs r := by
  simp [State.completed, Regs.consume, usesPort]

/-- Each step of a fold keeps the issuing thread, so the fold does. -/
theorem KeepsMe.foldl {α : Type} (f : State → α → State) (h : ∀ s x, KeepsMe s (f s x)) (l : List α) :
    ∀ s, KeepsMe s (l.foldl f s) := by
  induction l with
  | nil => exact .refl
  | cons x l ih => exact fun s => (h s x).trans (ih _)

/-- The units of different cores changed one after the other: each reads as its own change leaves it. -/
theorem State.core_foldl_updMatrix {α : Type} (g : α → Matrix → Matrix) (l : List (Nat × α)) : ∀ s : State,
    (l.map (·.1)).Nodup →
      (∀ x ∈ l, ((l.foldl (fun s x => s.updMatrix x.1 (g x.2)) s).core x.1).matrix =
        { g x.2 (s.core x.1).matrix with used := true }) ∧
      ∀ c, c ∉ l.map (·.1) → (l.foldl (fun s x => s.updMatrix x.1 (g x.2)) s).core c = s.core c := by
  induction l with
  | nil => exact fun s _ => ⟨nofun, fun _ _ => rfl⟩
  | cons y l ih =>
    intro s distinct
    rw [List.map_cons, List.nodup_cons] at distinct
    obtain ⟨changed, others⟩ := ih (s.updMatrix y.1 (g y.2)) distinct.2
    simp only [List.foldl_cons]
    refine ⟨fun x hx => ?_, fun c hc => ?_⟩
    · rcases List.mem_cons.mp hx with rfl | hx
      · rw [others _ distinct.1, State.core_updMatrix, if_pos rfl]
      · have ne : x.1 ≠ y.1 := fun e => distinct.1 (e ▸ List.mem_map_of_mem hx)
        rw [changed x hx, State.core_updMatrix, if_neg ne]
    · rw [List.map_cons, List.mem_cons, not_or] at hc
      rw [others c hc.2, State.core_updMatrix, if_neg hc.1]

/-- The cores of a gang are as many as its size, and different. -/
theorem gangCores_nodup (c n : Nat) : (gangCores c n).length = n ∧ (gangCores c n).Nodup :=
  ⟨by simp [gangCores], List.Nodup.map (add_right_injective _) List.nodup_range⟩

/-- After the pass of a gang each core has lost its front and got that of its predecessor in the ring. -/
theorem State.latch_passGang (s : State) {ring : List Nat} (distinct : ring.Nodup) {i : Nat} (hi : i < ring.length) :
    ((s.passGang ring).core (ring.getD i 0)).matrix.latch =
      (s.core (ring.getD i 0)).matrix.latch.drop 1 ++
        (s.core (ring.getD ((i + ring.length - 1) % ring.length) 0)).matrix.latch.head?.toList := by
  have prev : (i + ring.length - 1) % ring.length < ring.length := Nat.mod_lt _ (by omega)
  have listed : (ring.getD i 0, i) ∈ ring.zipIdx := by
    rw [List.getD_eq_getElem _ _ hi, List.mk_mem_zipIdx_iff_getElem?, List.getElem?_eq_getElem hi]
  have keys : (ring.zipIdx.map (·.1)).Nodup := by simpa using distinct
  have changed := (State.core_foldl_updMatrix (fun j m => { m with
    latch := m.latch.drop 1 ++ (((ring.map fun c => (s.core c).matrix.latch.head?).getD
      ((j + ring.length - 1) % ring.length) none).toList) }) ring.zipIdx s keys).1 _ listed
  refine (congrArg Matrix.latch changed).trans ?_
  simp only [List.getD_eq_getElem _ _ prev, List.getD_eq_getElem _ _ (show _ < (ring.map _).length by simpa using prev),
    List.getElem_map]

/-- The next core of a quad is another core. -/
theorem nextInQuad_ne (c : Nat) : nextInQuad c ≠ c := by unfold nextInQuad; omega

section
variable {s : State}

/-- `MPASS` waits for the jobs of its members. -/
theorem exec_mpass_busy (hw : s.me.inWorld = false)
    (hj : ∃ c ∈ s.me.members s.curCore, (s.core c).matrix.jobCount ≠ 0) : exec .mpass s = .next s := by
  show execMpass s = _
  have busy : (s.me.members s.curCore).any (fun c => (s.core c).matrix.passBusy) = true := by
    simpa [Matrix.passBusy] using hj
  rw [execMpass, s.issue_of_wait s s.portsReady_nil (by simp only [hw, busy, Bool.false_eq_true, if_false, if_true])]

/-- No member's unit has a job. -/
theorem State.members_idle (hj : ∀ c ∈ s.me.members s.curCore, (s.core c).matrix.jobCount = 0) :
    (s.me.members s.curCore).any (fun c => (s.core c).matrix.passBusy) = false := by
  simpa [Matrix.passBusy] using hj

variable (hw : s.me.inWorld = false) (hj : ∀ c ∈ s.me.members s.curCore, (s.core c).matrix.jobCount = 0)
include hw hj

/-- A follower goes on. -/
theorem exec_mpass_follow (hf : s.me.state = .follow) : exec .mpass s = .next (s.setRegs (s.regs.advance 4)) := by
  show execMpass s = _
  have idle := State.members_idle hj
  rw [execMpass, s.issue_of_ok (s.setRegs (s.regs.advance 4)) s.portsReady_nil (by
    simp only [hw, idle, hf, Bool.false_eq_true, if_false, if_true])]
  simp [State.completed_nil]

/-- The leader of a gang moves every front. -/
theorem exec_mpass_gang (hf : s.me.state ≠ .follow) (hg : s.me.gang ≠ 0) :
    exec .mpass s = .next ((s.passGang (s.me.members s.curCore)).setRegs (s.regs.advance 4)) ∧
      KeepsMe s (s.passGang (s.me.members s.curCore)) := by
  have idle := State.members_idle hj
  have keeps : KeepsMe s (s.passGang (s.me.members s.curCore)) := .foldl _ (fun s _ => .updMatrix s _ _) _ s
  have regs : (s.passGang (s.me.members s.curCore)).regs = s.regs := congrArg Slot.regs keeps.me
  refine ⟨?_, keeps⟩
  show execMpass s = _
  rw [execMpass, s.issue_of_ok ((s.passGang (s.me.members s.curCore)).setRegs (s.regs.advance 4)) s.portsReady_nil (by
    simp only [hw, idle, hf, hg, Bool.false_eq_true, if_false, ne_eq, not_false_eq_true, if_true, regs])]
  simp [State.completed_nil]

/-- A thread alone moves its core's front where it can go. -/
theorem exec_mpass_alone (hf : s.me.state ≠ .follow) (hg : s.me.gang = 0) {t : State}
    (hp : s.passGoes s.home (nextInQuad s.home) s.me.tenant = true)
    (ht : s.passFront s.home (nextInQuad s.home) s.me.tenant = t) (hr : t.regs = s.regs) :
    exec .mpass s = .next (t.setRegs (s.regs.advance 4)) := by
  show execMpass s = _
  have idle := State.members_idle hj
  have goes : s.passGoes s.me.home (nextInQuad s.me.home) s.me.tenant = true := hp
  have moved : s.passFront s.me.home (nextInQuad s.me.home) s.me.tenant = t := ht
  rw [execMpass, s.issue_of_ok (t.setRegs (s.regs.advance 4)) s.portsReady_nil (by
    simp only [hw, idle, hf, hg, Bool.false_eq_true, if_false, ne_eq, not_true_eq_false, goes, moved, if_true, hr])]
  simp [State.completed_nil]

/-- And waits where it cannot. -/
theorem exec_mpass_waits (hf : s.me.state ≠ .follow) (hg : s.me.gang = 0)
    (hp : s.passGoes s.home (nextInQuad s.home) s.me.tenant = false) :
    exec .mpass s = .next (s.updMe fun t => { t.block .memory .panel with held := some .mpass }) := by
  show execMpass s = _
  have idle := State.members_idle hj
  have stays : s.passGoes s.me.home (nextInQuad s.me.home) s.me.tenant = false := hp
  rw [execMpass, s.issue_of_wait _ s.portsReady_nil (by
    simp only [hw, idle, hf, hg, Bool.false_eq_true, if_false, ne_eq, not_true_eq_false, stays]
    rfl)]

end

section
variable {s : State}

/-- The front of a core without a full buffer has nowhere to go, so `MPASS` changes nothing. -/
theorem State.pass_empty {c : Nat} (hl : (s.core c).matrix.latch = []) (dst ten : Nat) :
    s.passGoes c dst ten = true ∧ s.passFront c dst ten = s := by
  simp [State.passGoes, State.passFront, hl]

/-- Whether a full buffer moves: its core's successor discards it, or has an EMPTY buffer for it. -/
theorem State.passGoes_eq {c : Nat} {p : Panel} {rest : List Panel} (hl : (s.core c).matrix.latch = p :: rest) (dst ten : Nat) :
    s.passGoes c dst ten = (!(s.core dst).holdsStage ten || !(s.core dst).latchFull) := by
  simp [State.passGoes, hl]

/-- Where the front of a core goes: to another core that holds a stage of the tenant, and nowhere otherwise. -/
theorem State.passFront_eq {c dst : Nat} (ne : dst ≠ c) {p : Panel} {rest : List Panel}
    (hl : (s.core c).matrix.latch = p :: rest) (ten : Nat) :
    s.passFront c dst ten = if (s.core dst).holdsStage ten then
        (s.updMatrix c fun m => { m with latch := rest }).updMatrix dst (·.arrive p)
      else s.updMatrix c fun m => { m with latch := rest } := by
  simp only [State.passFront, hl, State.core_updMatrix, if_neg ne]

end

/-- The matrix instructions outside a world, on operands in LOCAL space. -/
theorem matrixUnit : MatrixUnit := by
  unfold MatrixUnit
  intro s d a b c ty n x y r k m unit at_ also done id job waits
  refine ⟨?plain, ?scaled, ?latch, ?first1, ?first2, ?first3, ?table, ?job, ?queue, ?idle, ?named, ?store⟩
  case plain =>
    intro plain h
    have srcs : panelSrcs ty a b = [a] := by simp [panelSrcs, plain]
    refine ⟨fun hp => ?_, fun hh hl hp => exec_mldb_plain plain h (State.latchFull_false hh hl) hp⟩
    have bound := exec_mlda (State.panelTargets_plain (b := b) plain h (by decide)) (by rwa [srcs])
    rwa [srcs] at bound
  case scaled =>
    intro scaled h h'
    have srcs : panelSrcs ty a b = [a, b] := by simp [panelSrcs, scaled]
    refine ⟨fun hp => ?_, fun hh hl hp => exec_mldb_scaled scaled h h' (State.latchFull_false hh hl) hp⟩
    have bound := exec_mlda (State.panelTargets_scaled scaled h h' (by decide)) (by rwa [srcs])
    rwa [srcs] at bound
  case latch => exact fun hw hl => exec_mldb_waits hw (.inl hl)
  case first1 => exact fun hw h => exec_mldb_waits hw (.inr h)
  case first2 => exact fun hw h => exec_mtbl_waits hw h
  case first3 => exact fun hw h => exec_mma_waits hw (.inr h)
  case table => exact fun h hh hj hp => exec_mtbl h hh hj hp
  case job => exact fun h hh hj hp => exec_mma h hh hj hp _ _
  case queue => exact fun hw hj => exec_mma_waits hw (.inl hj)
  case idle =>
    refine fun hw hh => ⟨fun hj => ?_, fun hn hp => exec_mzero hw hh hn⟩
    have complete := Matrix.complete_of_none hh hj
    exact ⟨fun hp => exec_mwait_complete hw complete hp, fun hp => exec_mpoll hw (if_pos complete) hp⟩
  case named =>
    refine fun hw => ⟨fun hj => ?_, fun hn => exec_mzero_waits hw hn⟩
    have waits := Matrix.not_complete hj
    exact ⟨fun hp => exec_mpoll hw (by rw [waits, if_neg Bool.false_ne_true]) hp, fun hp => exec_mwait_waits hw waits hp⟩
  case store => exact fun h hh hn hb he hw hp => exec_mstacc h hh hn hb he hw hp

/-- `MPASS` outside a world. -/
theorem panelPassing : PanelPassing := by
  unfold PanelPassing
  intro s me m next q take ring front hw
  refine ⟨fun hj => exec_mpass_busy hw hj, fun hj => ⟨fun hf => exec_mpass_follow hw hj hf,
    fun hf hg => ⟨fun hl => ?empty, fun p rest hl => ⟨fun hs => ?gone, fun hs hroom => ?moved, fun hs hfull => ?full⟩⟩,
    fun hf hg => ?gang⟩⟩
  case empty =>
    obtain ⟨goes, stays⟩ := State.pass_empty hl (nextInQuad s.home) s.me.tenant
    exact exec_mpass_alone hw hj hf hg goes stays rfl
  case gone =>
    have hs : (s.core (nextInQuad s.home)).holdsStage s.me.tenant = false := hs
    exact exec_mpass_alone hw hj hf hg (by rw [State.passGoes_eq hl, hs]; rfl)
      (by rw [State.passFront_eq (nextInQuad_ne _) hl, hs, if_neg Bool.false_ne_true]) (State.regs_updMatrix ..)
  case moved =>
    have hs : (s.core (nextInQuad s.home)).holdsStage s.me.tenant = true := hs
    have hroom : (s.core (nextInQuad s.home)).latchFull = false := hroom
    exact exec_mpass_alone hw hj hf hg (by rw [State.passGoes_eq hl, hroom, Bool.not_false, Bool.or_true])
      (by rw [State.passFront_eq (nextInQuad_ne _) hl, hs, if_pos rfl]; rfl)
      ((State.regs_updMatrix ..).trans (State.regs_updMatrix ..))
  case full =>
    have hs : (s.core (nextInQuad s.home)).holdsStage s.me.tenant = true := hs
    have hfull : (s.core (nextInQuad s.home)).latchFull = true := hfull
    exact exec_mpass_waits hw hj hf hg (by rw [State.passGoes_eq hl, hs, hfull]; rfl)
  case gang =>
    have cores : s.me.members s.curCore = gangCores s.curCore s.me.gang := if_neg hg
    obtain ⟨length, distinct⟩ := gangCores_nodup s.curCore s.me.gang
    rw [← cores] at length distinct
    obtain ⟨passed, keeps⟩ := exec_mpass_gang hw hj hf hg
    refine ⟨_, passed, keeps, fun i hi => ?_⟩
    have latch := State.latch_passGang s distinct (i := i) (by rwa [length])
    rwa [length] at latch

/-- Settles O31: each instruction's lemma on the cases of its operands and of the unit, and the pass of the panels. -/
theorem matrixInstructions : Obligations.MatrixInstructions := ⟨matrixUnit, panelPassing⟩

end Sys2Proof.Machine
end

section
/-!
PROOFS. Sparing: the number that a package holds for its brace is not bounded, and the die map has four bits for it.
-/

namespace Sys2Proof.Machine

/-- A physical die that a map entry names has a number of four bits (R335). -/
theorem placeOfEntry_die_lt (pkg : Nat) (base : Bool) (entry : BitVec 32) : (placeOfEntry pkg base entry).2 < 16 := by
  unfold placeOfEntry
  cases base <;> exact BitVec.isLt _

/-- A pod after reset whose package 0 holds a number for its brace, and has taken the diagnosis that its die 0 is lost. -/
def bracedBy (b : Nat) : State :=
  State.reset.setPkg 0 { Package.initial with
    brace := some b
    service := { Service.initial with taken := [⟨.coreDie 0 0, .die, .dieSparing⟩] } }

/-- With 16 for its brace, a number that no physical die has, the package still spares its die 0: the entry that it writes
fits, as it names die 0 again. -/
theorem bracedBy_16_spares :
    let s := bracedBy 16
    let old := physDie 0 ((s.pkg 0).coreDie 0)
    (s.pkg 0).decided (fun d => d.action == .dieSparing && d.unit == .coreDie old.1 old.2) = true ∧
      s.braceFor 0 = some (0, 16) ∧ s.entryFits 0 false 0 (braceEntry 0 0 16) = true ∧ old ≠ (0, 16) := by
  decide

/-- Refutes O50: nothing bounds the number of the brace that a state holds. Where it is 16, the die-map entry written for the
brace has no place for it (R335) and names die 0, so the failed die's identity does not go to the brace. -/
theorem not_sparing : ¬ Obligations.Sparing := by
  unfold Obligations.Sparing
  intro h
  obtain ⟨-, -, -, -, spared, -⟩ := h (bracedBy 16) 0 0 0 0 0 0 0 16
  obtain ⟨taken, brace, fits, moved⟩ := bracedBy_16_spares
  obtain ⟨t, -, place, -⟩ := spared (by decide) taken brace fits moved
  have below := placeOfEntry_die_lt 0 false (t.pkg 0).dieMap[0 % 8]
  rw [place] at below
  exact absurd below (by decide)

end Sys2Proof.Machine
end

section
/-!
PROOFS. Every step answers (R44): an instruction always answers a next state, and so does a step but for one case.
-/

namespace Sys2Proof.Machine

/-- An outcome that is a next state. -/
def Answers (x : Out) : Prop := ∃ t, x = .next t

theorem Answers.next (t : State) : Answers (.next t) := ⟨t, rfl⟩

theorem Answers.ite {p : Prop} [Decidable p] {x y : Out} (hx : Answers x) (hy : Answers y) :
    Answers (if p then x else y) := by
  split
  · exact hx
  · exact hy

/-- An instruction that may be held back answers where the rest of it does. -/
theorem Answers.hold {s : State} {k : State → Out} (w : State → Bool) (h : Answers (k s)) : Answers (State.hold w s k) := by
  unfold State.hold
  split
  · exact .next s
  · exact h

/-- A change of the next state answers where the outcome does. -/
theorem Answers.onNext {x : Out} (h : Answers x) (f : State → State) : Answers (onNext x f) := by
  obtain ⟨t, rfl⟩ := h
  exact .next _

/-- R44: every instruction and every event answers; only the matrix, copy and collective instructions that may be held back
do so in two ways. -/
theorem exec_answers (i : Instr) (s : State) : Answers (exec i s) := by
  cases i with
  | mldb a b c ty => exact show Answers (execMldb a b c ty s) from .hold _ ⟨_, rfl⟩
  | mtbl a c ty => exact show Answers (execMtbl a c ty s) from .hold _ ⟨_, rfl⟩
  | mma d a acc c ty => exact show Answers (execMma d a acc c ty s) from .hold _ ⟨_, rfl⟩
  | mzero acc => exact show Answers (execMzero acc s) from .hold _ ⟨_, rfl⟩
  | cpy d scope => exact show Answers (execCpy d scope s) from .hold _ ⟨_, rfl⟩
  | cpyc d a scope => exact show Answers (execCpyc d a scope s) from .hold _ ⟨_, rfl⟩
  | mstacc a acc c ty => exact show Answers (execMstacc a acc c ty s) from .hold _ (.ite ⟨_, rfl⟩ ⟨_, rfl⟩)
  | gcon a grp =>
    show Answers (execGcon a grp s)
    rw [execGcon]
    exact .hold _ ⟨_, rfl⟩
  | barmax d a grp =>
    show Answers (execBarmax d a grp s)
    rw [execBarmax]
    exact .hold _ ⟨_, rfl⟩
  | _ => exact .next _

/-- A turn of a thread outside a gang answers. -/
theorem State.issueAlone_answers (s : State) : Answers s.issueAlone := by
  unfold State.issueAlone
  split
  · exact .next _
  · split
    · exact .next _
    · split
      · exact .next _
      · split
        · exact .next _
        · exact .next _
        · split
          · exact .next _
          · exact (exec_answers _ s).onNext _

/-- A turn of a slot answers. -/
theorem State.issueStep_answers (s : State) (c : Nat) (n : Fin 8) : Answers (s.issueStep c n) := by
  refine .onNext (.onNext ?_ _) _
  split
  · exact .next _
  · split
    · exact .next _
    · exact State.issueAlone_answers _

/-- A step without an event on the agenda answers. -/
theorem step_answers {s : State} (h : s.agenda = []) : Answers (step s) := by
  have none_due : s.elapse.agenda = [] := h
  unfold step
  simp only [none_due]
  split
  · split
    · exact State.issueStep_answers ..
    · exact .next _
  · split
    · exact .next _
    · split
      · exact State.issueStep_answers ..
      · exact .next _

/-- A step with an event on the agenda performs it; an encoded instruction there stops the machine. -/
theorem step_of_agenda {s : State} {e : Instr} {rest : List Instr} (h : s.agenda = e :: rest) :
    Answers (step s) ∨ step s = .fault .notAnEvent ∧ encode e ≠ .none := by
  have due : s.elapse.agenda = e :: rest := h
  unfold step State.perform
  simp only [due]
  split
  · exact .inl ((exec_answers e _).onNext _)
  · exact .inr ⟨rfl, ‹_›⟩

/-- Settles O54: every arm of `exec` is a next state, and a step passes that on. -/
theorem everyStepAnswers : Obligations.EveryStepAnswers := by
  unfold Obligations.EveryStepAnswers
  refine ⟨exec_answers, fun s => ?_⟩
  cases h : s.agenda with
  | nil => exact .inl (step_answers h)
  | cons e rest => exact (step_of_agenda h).imp_right fun ⟨stops, encoded⟩ => ⟨stops, e, rest, rfl, encoded⟩

end Sys2Proof.Machine
end

section
/-!
PROOFS. The state after reset (R18, R43, R290, R400), and the register file (R19 to R25).
-/

namespace Sys2Proof.Machine

/-! ### After reset -/

/-- No core is listed after reset: each is a core at core reset. -/
@[simp] theorem State.core_reset (c : Nat) : State.reset.core c = Core.initial c := rfl

/-- No package is listed after reset: each has been raised. -/
@[simp] theorem State.pkg_reset (p : Nat) : State.reset.pkg p = { Package.initial with ptc := 0 } := rfl

/-- An empty memory reads zero. -/
theorem Memory.read_nil (a : Nat) : Memory.read [] a = 0 := rfl

theorem Core.slot_initial (c : Nat) (n : Fin 8) : (Core.initial c).slot n = { Slot.initial with home := c } := by
  simp [Core.slot, Core.initial]

theorem Core.queue_initial (c q : Nat) : (Core.initial c).queue q = Queue.empty := by
  simp [Core.queue, Core.initial]

theorem Core.stage_initial (c : Nat) (i : Fin 16) : (Core.initial c).stages[i] = Stage.empty := by
  simp [Core.initial]

/-- Entry i of the slot table names slot i mod 8 (R290). -/
theorem initialTurns_get (i : Fin 28) : initialTurns[i.val]? = some (BitVec.ofNat 8 (0x80 + i.val % 8)) := by
  revert i
  decide

/-- The accumulators are zero and none is bad (R43). -/
theorem Matrix.acc_initial (a : Fin 4) (e : Fin 256) :
    Matrix.initial.acc[a][e] = Elem.zero ∧ Matrix.initial.bad[a] = false := by
  simp [Matrix.initial]

theorem Matrix.tbl_initial (e : Fin 16) : Matrix.initial.tbl[e] = 0 := by
  simp [Matrix.initial]

/-- Logical die i is at position i with incarnation 0 (R335, R336; entry 9). -/
theorem Package.dies_initial (d : Nat) (h : d < 8) :
    Package.initial.coreDie d = d ∧ Package.initial.dieInc[d]? = some 0 := by
  interval_cases d <;> decide

/-- Settles O56: what is not listed is at reset, part by part. -/
theorem resetState : Obligations.ResetState := by
  unfold Obligations.ResetState
  refine ⟨Memory.read_nil, rfl, rfl, fun c n => ?_, fun c => ?_, fun p => ?_⟩
  · rw [State.slot, State.core_reset, Core.slot_initial]
    exact ⟨rfl, rfl, rfl⟩
  · rw [State.core_reset]
    refine ⟨Memory.read_nil, rfl, fun q => ?_, rfl, rfl, fun i => ?_, initialTurns_get, Matrix.acc_initial,
      Matrix.tbl_initial, rfl, rfl, rfl, rfl⟩
    · rw [Core.queue_initial]
      rfl
    · rw [Core.stage_initial]
      decide
  · exact ⟨rfl, rfl, Package.dies_initial⟩

/-! ### The register file -/

/-- A scalar outside the ports reads as written, and every other one as before (R19, R20). -/
theorem Regs.get_put_eq (r : Regs) (x : Elem) (m : BitVec 5) {n : BitVec 5} (h : n ∉ [0, 28, 29, 30]) :
    (r.put n x).get m = if m = n then x else r.get m := by
  simp only [List.mem_cons, List.not_mem_nil, or_false, not_or] at h
  obtain ⟨h0, h1, h2, h3⟩ := h
  split
  · subst_vars
    exact r.get_put x h0 h1 h2 h3
  · exact r.get_put_ne x ‹_›

/-- The numbers of a pair that is neither `d0` nor one with a port are those of two plain registers (R21). -/
theorem pair_plain {n : BitVec 5} (even : n.toNat % 2 = 0) (h : n ∉ [0, 28, 30]) :
    n ∉ [0, 28, 29, 30] ∧ n + 1 ∉ [0, 28, 29, 30] ∧ n ≠ n + 1 := by
  revert n
  decide

theorem halves_append (w : DWord) : w.extractLsb' 32 32 ++ w.setWidth 32 = w := by
  ext i hi
  simp only [BitVec.getElem_append, BitVec.getElem_extractLsb', BitVec.getElem_setWidth]
  split
  · exact BitVec.getLsbD_eq_getElem hi
  · rw [show 32 + (i - 32) = i by omega]
    exact BitVec.getLsbD_eq_getElem hi

/-- A pair reads as written, and its write leaves every register but its two (R21). -/
theorem Regs.pair_setPair (r : Regs) (w : DWord) {n : BitVec 5} (even : n.toNat % 2 = 0) (h : n ∉ [0, 28, 30]) :
    (r.setPair n w).pair n = w := by
  obtain ⟨low, high, ne⟩ := pair_plain even h
  rw [Regs.pair, Regs.val, Regs.val, Regs.setPair, Regs.setVal, Regs.setVal, Regs.get_put_eq _ _ _ high, if_pos rfl,
    Regs.get_put_eq _ _ _ high, if_neg ne, Regs.get_put_eq _ _ _ low, if_pos rfl]
  exact halves_append w

theorem Regs.get_setPair_ne (r : Regs) (w : DWord) {n m : BitVec 5} (h0 : m ≠ n) (h1 : m ≠ n + 1) :
    (r.setPair n w).get m = r.get m := by
  simp only [Regs.setPair, Regs.setVal, Regs.get_put_ne _ _ h0, Regs.get_put_ne _ _ h1]

/-- A write of `d0` writes `s1` alone (R21). -/
theorem Regs.setPair_zero (r : Regs) (w : DWord) : r.setPair 0 w = r.setVal 1 (w.extractLsb' 32 32) := rfl

/-- `d0` reads zero in its low word (R21). -/
theorem Regs.pair_zero_low (r : Regs) : (r.pair 0).setWidth 32 = 0#32 := by
  rw [Regs.pair, BitVec.setWidth_append]
  rfl

theorem Regs.ext_setExt (r : Regs) (i j : BitVec 3) (y : Word) :
    (r.setExt i y).ext j = if j = i then y else r.ext j := by
  simp [Regs.ext, Regs.setExt, Vector.getElem_set, ← BitVec.toNat_inj, eq_comm]

theorem Regs.mask_setMask (r : Regs) {i : BitVec 3} (j : BitVec 3) (b : BitVec 8) (h : i ≠ 0) :
    (r.setMask i b).mask j = if j = i then b else r.mask j := by
  rw [Regs.setMask, if_neg h]
  by_cases e : j = i
  · subst e
    rw [Regs.mask, if_neg h, if_pos rfl]
    exact Vector.getElem_set_self ..
  · have ne : i.toNat ≠ j.toNat := fun x => e (BitVec.eq_of_toNat_eq x.symm)
    simp only [Regs.mask, Vector.getElem_set_ne _ _ ne, if_neg e]

theorem Regs.cap_setCap (r : Regs) {i : BitVec 3} (j : BitVec 3) (c : Cap) (h : i ≠ 0) :
    (r.setCap i c).cap j = if j = i then c else r.cap j := by
  rw [Regs.setCap, if_neg h]
  by_cases e : j = i
  · subst e
    rw [Regs.cap, if_neg h, if_pos rfl]
    exact Vector.getElem_set_self ..
  · have ne : i.toNat ≠ j.toNat := fun x => e (BitVec.eq_of_toNat_eq x.symm)
    simp only [Regs.cap, Vector.getElem_set_ne _ _ ne, if_neg e]

/-- The sixteen vector registers are apart (R22). -/
theorem Regs.vec_setVec (r : Regs) {m n : BitVec 5} (v : Vector Elem 8) (hm : m.toNat < 16) (hn : n.toNat < 16) :
    (r.setVec n v).vec m = if m = n then v else r.vec m := by
  by_cases e : m = n
  · subst e
    simp [Regs.vec, Regs.setVec]
  · have ne : (n.setWidth 4).toNat ≠ (m.setWidth 4).toNat := by
      rw [ne_eq, BitVec.toNat_inj]
      bv_omega
    simp only [Regs.vec, Regs.setVec, Vector.getElem_set_ne _ _ ne, e, if_false]

/-- Settles O58, class by class. -/
theorem registerFile : Obligations.RegisterFile := by
  unfold Obligations.RegisterFile
  intro r x w m n b c i j v y
  exact ⟨rfl, rfl, rfl, rfl, rfl, rfl, r.pair_zero_low, r.setPair_zero w, r.get_put_eq x m,
    fun even h => ⟨r.pair_setPair w even h, r.get_setPair_ne w⟩, r.ext_setExt i j y, r.mask_setMask j b, r.cap_setCap j c,
    r.vec_setVec v⟩

end Sys2Proof.Machine
end

section
/-!
PROOFS. The chain of a logical die (R14): cores and chain positions name each other, and the chain follows the mesh.
-/

namespace Sys2Proof.Machine

/-- The column of a chain position, or the place in its row of a column: an odd row runs backward (R14). -/
def snake (row x : Nat) : Nat := if row % 2 = 0 then x else 31 - x

theorem snake_lt (row : Nat) {x : Nat} (h : x < 32) : snake row x < 32 := by
  unfold snake
  split <;> omega

/-- A row that runs back and forth is its own inverse. -/
theorem snake_snake (row : Nat) {x : Nat} (h : x < 32) : snake row (snake row x) = x := by
  unfold snake
  split <;> omega

theorem chainPos_eq (c : Nat) : chainPos c = 4 * (c / 128 % 32 * 32 + snake (c / 128 % 32) (c / 4 % 32)) + c % 4 := rfl

theorem chainPos_lt (c : Nat) : chainPos c < 4096 := by
  have := snake_lt (c / 128 % 32) (x := c / 4 % 32) (by omega)
  rw [chainPos_eq]
  omega

/-- Die, row, column and number in its quad of the core at a chain position. -/
theorem chainCore_fields (c : Nat) {p : Nat} (h : p < 4096) :
    chainCore c p / 4096 = c / 4096 ∧ chainCore c p / 128 % 32 = p / 128 ∧
      chainCore c p / 4 % 32 = snake (p / 128) (p / 4 % 32) ∧ chainCore c p % 4 = p % 4 := by
  have := snake_lt (p / 128) (x := p / 4 % 32) (by omega)
  have eq : chainCore c p = c / 4096 * 4096 + p / 128 * 128 + snake (p / 128) (p / 4 % 32) * 4 + p % 4 := by
    rw [show p / 128 = p / 4 / 32 by omega]
    rfl
  omega

/-- The core at a position has that position. -/
theorem chainPos_chainCore (c : Nat) {p : Nat} (h : p < 4096) : chainPos (chainCore c p) = p := by
  obtain ⟨-, row, col, low⟩ := chainCore_fields c h
  rw [chainPos_eq, row, col, low, snake_snake _ (by omega)]
  omega

/-- A core of the die is the core at its position. -/
theorem chainCore_chainPos {c d : Nat} (h : d / 4096 = c / 4096) : chainCore c (chainPos d) = d := by
  obtain ⟨die, row, col, low⟩ := chainCore_fields c (chainPos_lt d)
  have place := snake_lt (d / 128 % 32) (x := d / 4 % 32) (by omega)
  have at_row : chainPos d / 128 = d / 128 % 32 := by rw [chainPos_eq]; omega
  have at_col : chainPos d / 4 % 32 = snake (d / 128 % 32) (d / 4 % 32) := by rw [chainPos_eq]; omega
  have at_low : chainPos d % 4 = d % 4 := by rw [chainPos_eq]; omega
  rw [at_row] at row
  rw [at_row, at_col, snake_snake _ (by omega)] at col
  omega

/-- A position of a die is that of one core. -/
theorem chainPos_inj {c d : Nat} (h : d / 4096 = c / 4096) (e : chainPos d = chainPos c) : d = c := by
  rw [← chainCore_chainPos h, e, chainCore_chainPos rfl]

/-- The downstream neighbour is on the same die at the next position. -/
theorem downstream_pos {c : Nat} (h : chainPos c < 4095) :
    downstream c / 4096 = c / 4096 ∧ chainPos (downstream c) = chainPos c + 1 :=
  ⟨(chainCore_fields c (by omega)).1, chainPos_chainCore c (by omega)⟩

/-- The core at the previous position is the one whose downstream neighbour a core is. -/
theorem upstream_pos {c : Nat} (h : 0 < chainPos c) :
    chainCore c (chainPos c - 1) / 4096 = c / 4096 ∧ chainPos (chainCore c (chainPos c - 1)) + 1 = chainPos c ∧
      downstream (chainCore c (chainPos c - 1)) = c := by
  have below := chainPos_lt c
  have die := (chainCore_fields c (p := chainPos c - 1) (by omega)).1
  have pos := chainPos_chainCore c (p := chainPos c - 1) (by omega)
  have next : chainPos (chainCore c (chainPos c - 1)) < 4095 := by omega
  obtain ⟨die', pos'⟩ := downstream_pos next
  exact ⟨die, by omega, chainPos_inj (die'.trans die) (by omega)⟩

/-- The stop of the downstream neighbour is the core's own, the next one in its row, or the one in the same column of the
next row. -/
theorem downstream_stop {c : Nat} (h : chainPos c < 4095) :
    downstream c / 4 = c / 4 ∨
      downstream c / 128 % 32 = c / 128 % 32 ∧
        (downstream c / 4 % 32 = c / 4 % 32 + 1 ∨ c / 4 % 32 = downstream c / 4 % 32 + 1) ∨
      downstream c / 128 % 32 = c / 128 % 32 + 1 ∧ downstream c / 4 % 32 = c / 4 % 32 := by
  obtain ⟨die, row, col, -⟩ := chainCore_fields c (p := chainPos c + 1) (by omega)
  have own := chainCore_fields c (chainPos_lt c)
  rw [chainCore_chainPos rfl] at own
  obtain ⟨-, row', col', -⟩ := own
  rw [← downstream] at die row col
  generalize chainPos c = p at *
  by_cases within : p % 4 < 3
  · rw [show (p + 1) / 128 = p / 128 by omega] at row col
    rw [show (p + 1) / 4 = p / 4 by omega] at col
    omega
  · refine .inr ?_
    by_cases turn : p / 4 % 32 < 31
    · rw [show (p + 1) / 128 = p / 128 by omega] at row col
      rw [show (p + 1) / 4 % 32 = p / 4 % 32 + 1 by omega] at col
      unfold snake at col col'
      split at col <;> split at col' <;> omega
    · rw [show (p + 1) / 128 = p / 128 + 1 by omega] at row col
      rw [show (p + 1) / 4 % 32 = 0 by omega] at col
      rw [show p / 4 % 32 = 31 by omega] at col'
      unfold snake at col col'
      split at col <;> split at col' <;> omega

/-- The chain ends at position 4,095: a chain binding has no queue there (R32). -/
theorem stageOutput_chain_end {c : Nat} {bits : BitVec 128} (h : chainPos c = 4095) (chained : bits.extractLsb' 16 2 = 1#2) :
    stageOutput c bits = none := by
  rw [stageOutput, chained]
  exact if_neg (by omega)

/-- Settles O60: a core and its chain position determine each other. -/
theorem chainOrder : Obligations.ChainOrder := by
  unfold Obligations.ChainOrder
  intro c row col
  refine ⟨fun even => ?_, fun odd => ?_, chainPos_lt c, fun p hp => ⟨(chainCore_fields c hp).1, chainPos_chainCore c hp⟩,
    fun d => chainPos_inj, fun h => ?_, upstream_pos, fun first u _ hu e => ?_, fun bits => stageOutput_chain_end⟩
  · rw [chainPos_eq, snake, if_pos (by omega)]
    simp only [row, col]
    omega
  · rw [chainPos_eq, snake, if_neg (by omega)]
    simp only [row, col]
    omega
  · obtain ⟨die, pos⟩ := downstream_pos h
    refine ⟨die, pos, (downstream_stop h).imp_right fun adjacent => ?_⟩
    simp only [row, col]
    rcases adjacent with ⟨same, right | left⟩ | ⟨down, same⟩
    · rw [show ((downstream c : Int) / 128 % 32 - c / 128 % 32) = 0 by omega,
        show ((downstream c : Int) / 4 % 32 - c / 4 % 32) = 1 by omega]
      rfl
    · rw [show ((downstream c : Int) / 128 % 32 - c / 128 % 32) = 0 by omega,
        show ((downstream c : Int) / 4 % 32 - c / 4 % 32) = -1 by omega]
      rfl
    · rw [show ((downstream c : Int) / 128 % 32 - c / 128 % 32) = 1 by omega,
        show ((downstream c : Int) / 4 % 32 - c / 4 % 32) = 0 by omega]
      rfl
  · have next := (downstream_pos hu).2
    rw [e] at next
    omega

end Sys2Proof.Machine
end

section
/-!
PROOFS. The frame of the instructions that compute on registers (R44), on every path they take, and what capability
instructions derive (R117).
-/

namespace Sys2Proof.Machine

/-! ### What ports, waits and faults leave -/

/-- The register files that are neither scalars nor ports, and the rounding control (R22 to R25, R35). -/
def Regs.files (r : Regs) : Word × Vector Cap 8 × Vector Word 8 × Vector (Vector Elem 8) 16 × Vector (BitVec 8) 8 :=
  (r.fcr, r.c, r.e, r.v, r.k)

/-- What a step of the issuing thread leaves that changes, of registers, only its own: storage, barriers, monitors and the
registers of other slots. -/
structure Elsewhere (s t : State) : Prop extends OwnRegs s t where
  storage  : SameStorage s t
  barriers : t.barriers = s.barriers
  monitors : t.monitors = s.monitors

theorem Elsewhere.trans {s t u : State} (h : Elsewhere s t) (g : Elsewhere t u) : Elsewhere s u :=
  ⟨h.toOwnRegs.trans g.toOwnRegs, h.storage.trans g.storage, g.barriers.trans h.barriers, g.monitors.trans h.monitors⟩

theorem Elsewhere.setRegs (s : State) (r : Regs) : Elsewhere s (s.setRegs r) :=
  ⟨.setRegs s r, .setRegs s r, rfl, rfl⟩

/-- What making ports ready, waiting, taking a fault and pushing leave: of the issuing thread's registers the scalars, the
port buffers and the program counter alone change. -/
structure Framed (s t : State) : Prop extends Elsewhere s t where
  files : t.regs.files = s.regs.files

theorem Framed.refl (s : State) : Framed s s := ⟨⟨.refl s, .refl s, rfl, rfl⟩, rfl⟩

theorem Framed.trans {s t u : State} (h : Framed s t) (g : Framed t u) : Framed s u :=
  ⟨h.toElsewhere.trans g.toElsewhere, g.files.trans h.files⟩

theorem Framed.ite {p : Prop} [Decidable p] {s t u : State} (h : Framed s t) (g : Framed s u) :
    Framed s (if p then t else u) := by
  split
  · exact h
  · exact g

/-- A package changed. -/
theorem Framed.updPkg (s : State) (p : Nat) (f : Package → Package) : Framed s (s.updPkg p f) :=
  ⟨⟨.setPkg s p _, .updPkg s p f, rfl, rfl⟩, rfl⟩

/-- A core changed but for its local memory and the registers of its slots. -/
theorem Framed.setCore (s : State) (c : Nat) (x : Core) (hl : x.loc = (s.core c).loc) (ht : x.ltags = (s.core c).ltags)
    (hr : ∀ n, (x.slot n).regs = ((s.core c).slot n).regs) : Framed s (s.setCore c x) := by
  refine ⟨⟨.setCore s c x hr, .setCore s c x hl ht, rfl, rfl⟩, congrArg Regs.files ?_⟩
  by_cases e : s.curCore = c
  · subst e
    simp [State.regs, State.me, State.slot, hr]
  · simp [State.regs, State.me, State.slot, State.core_setCore_ne s x e]

/-- The queues of a core changed. -/
theorem Framed.setQueue (s : State) (c q : Nat) (x : Queue) : Framed s (s.setCore c ((s.core c).setQueue q x)) :=
  .setCore s c _ rfl rfl fun _ => rfl

/-- A slot changed but for its registers. -/
theorem Framed.setSlot (s : State) (c : Nat) (n : Fin 8) (x : Slot) (h : x.regs = (s.slot c n).regs) :
    Framed s (s.setSlot c n x) := by
  refine .setCore s c _ rfl rfl fun m => ?_
  by_cases e : m = n
  · subst e
    rw [Core.slot_setSlot]
    exact h
  · rw [Core.slot_setSlot_ne _ _ e]

/-- A slot changed but for its registers. -/
theorem Framed.updSlot (s : State) (c : Nat) (n : Fin 8) {f : Slot → Slot} (h : ∀ t, (f t).regs = t.regs) :
    Framed s (s.updSlot c n f) := .setSlot s c n _ (h _)

/-- The issuing thread's slot changed but for the files. -/
theorem Framed.updMe (s : State) {f : Slot → Slot} (h : (f s.me).regs.files = s.me.regs.files) : Framed s (s.updMe f) :=
  ⟨⟨.updMe s f, .updMe s f, rfl, rfl⟩, by rw [State.regs, State.me_updMe, h, State.regs]⟩

/-- The issuing thread's registers changed but for the files. -/
theorem Framed.setRegs (s : State) {r : Regs} (h : r.files = s.regs.files) : Framed s (s.setRegs r) := .updMe s h

/-! #### Queues -/

theorem Framed.scribeAppend (s : State) (c q kind : Nat) (pay : Entry) (ent : Word) (pair : Bool) :
    Framed s (s.scribeAppend c q kind pay ent pair).1 := by
  unfold State.scribeAppend
  dsimp only
  split
  · exact .refl s
  · split <;> exact .updPkg s _ fun _ => _

theorem Framed.pushQueue (s : State) (c q kind : Nat) (e : Entry) (resv pair : Bool) :
    Framed s (s.pushQueue c q kind e resv pair) := by
  have logged : Framed s (if q = 7 then (s, none) else s.scribeAppend c q kind e 0 pair).1 := by
    split
    · exact .refl s
    · exact .scribeAppend ..
  unfold State.pushQueue
  exact logged.trans (.setQueue ..)

theorem Framed.unreserve (s : State) (c q n : Nat) : Framed s (s.unreserve c q n) := by
  unfold State.unreserve
  split
  · exact .refl s
  · exact .setQueue ..

theorem Framed.scribePop (s : State) (c : Nat) (seq : Option Nat) (owner : Option (Fin 8 × BitVec 8)) :
    Framed s (s.scribePop c seq owner) := by
  unfold State.scribePop
  split
  · exact .refl s
  · exact .updPkg ..

theorem Framed.entryLeft (s : State) (c q : Nat) : Framed s (s.entryLeft c q) := by
  unfold State.entryLeft
  split
  · exact .refl s
  · exact .setCore _ _ _ rfl rfl fun _ => rfl

theorem Framed.popQueue {s t : State} {c q : Nat} {e : QEntry} (h : s.popQueue c q = some (e, t)) : Framed s t := by
  unfold State.popQueue at h
  dsimp only at h
  split at h
  · cases h
  · cases h
    exact (Framed.setQueue ..).trans (.entryLeft ..)

theorem Framed.popReturn {s t : State} {c : Nat} {n : Fin 8} {gen : BitVec 8} {e : QEntry}
    (h : s.popReturn c n gen = some (e, t)) : Framed s t := by
  unfold State.popReturn at h
  dsimp only at h
  split at h
  · cases h
  · cases h
    exact .setQueue ..

theorem Framed.takeEntry {s t : State} {q : Nat} {e : Entry} (h : s.takeEntry q = some (e, t)) : Framed s t := by
  unfold State.takeEntry at h
  dsimp only at h
  split at h
  · cases h
    exact .updMe s rfl
  · split at h
    · cases h
    next e u got =>
      cases h
      refine Framed.trans ?_ (.scribePop ..)
      split at got
      · exact .popReturn got
      · exact .popQueue got

/-! #### Faults -/

theorem Framed.routePeg (s : State) (c : Nat) (n : Fin 8) (p : FaultPeg) : Framed s (s.routePeg c n p) := by
  unfold State.routePeg State.deliverPeg
  dsimp only
  split
  · exact .updSlot s c n fun _ => rfl
  · split
    · exact .updSlot s c n fun _ => rfl
    · exact (Framed.setQueue ..).trans (.updSlot _ _ _ fun _ => rfl)

theorem Framed.recordFault (s : State) (c : Nat) (n : Fin 8) (f : FaultInfo) (gang : Bool) :
    Framed s (s.recordFault c n f gang) := by
  unfold State.recordFault
  refine .trans ?_ (.routePeg _ _ _ _)
  exact .setSlot s c n _ rfl

theorem Framed.trap (s : State) (c : Nat) (n : Fin 8) (f : FaultInfo) : Framed s (s.trap c n f) := by
  unfold State.trap
  exact .ite (.updSlot s c n fun _ => rfl) (.recordFault ..)

theorem Framed.trapMe (s : State) (f : FaultInfo) : Framed s (s.trapMe f) := .trap ..

/-! #### Ports -/

theorem Framed.pushDown (s : State) : Framed s s.pushDown := by
  have emptied (x : Slot → Nat) : Framed s
      (s.updMe fun t => { t with regs := { t.regs with qdn := [] }, resv := x t }) := .updMe s rfl
  unfold State.pushDown
  dsimp only
  exact .ite (.refl s) (.ite (.updMe s rfl)
    (.ite (((emptied _).trans (.unreserve ..)).trans (.setCore _ _ _ rfl rfl fun _ => rfl))
      (.ite ((emptied _).trans (.pushQueue ..)) (.updMe s rfl))))

/-- A run ends, faults or waits in a state that a state leaves framed. -/
def Run.FramedFrom (s : State) : Run → Prop
  | .ok t => Framed s t
  | .error (.trap t _) => Framed s t
  | .error (.wait t) => Framed s t

theorem Run.FramedFrom.bind {s : State} {x : Run} {f : State → Run} (h : Run.FramedFrom s x)
    (g : ∀ t, Framed s t → Run.FramedFrom s (f t)) : Run.FramedFrom s (x >>= f) := by
  match x with
  | .ok t => exact g t h
  | .error (.trap _ _) => exact h
  | .error (.wait _) => exact h

theorem Regs.files_setBuffer (r : Regs) (p : Port) (l : List Word) : (r.setBuffer p l).files = r.files := by
  cases p <;> rfl

theorem State.fillPort_framed {s t : State} (h : Framed s t) (p : Port) : Run.FramedFrom s (t.fillPort p) := by
  unfold State.fillPort
  dsimp only
  split
  · exact h
  · split
    · exact h
    · split
      · exact h
      · split
        · exact h.trans (.updMe t rfl)
        · exact (h.trans (.takeEntry ‹_›)).trans (.setRegs _ (Regs.files_setBuffer ..))

theorem State.fillPorts_framed {s : State} (srcs : List (BitVec 5)) :
    ∀ {t : State}, Framed s t → Run.FramedFrom s (t.fillPorts srcs) := by
  induction srcs with
  | nil => exact id
  | cons n rest ih =>
    intro t h
    rw [State.fillPorts]
    split
    · exact (State.fillPort_framed h .qrx).bind fun u hu => ih hu
    · split
      · exact (State.fillPort_framed h .qup).bind fun u hu => ih hu
      · exact ih h

theorem State.preparePorts_framed (s : State) (srcs dsts : List (BitVec 5)) :
    Run.FramedFrom s (s.preparePorts srcs dsts) := by
  refine (State.fillPorts_framed srcs (.refl s)).bind fun t h => ?_
  unfold State.checkPush
  dsimp only
  split
  · split
    · exact h
    · split <;> exact h
  · exact h

/-! ### What a register instruction does -/

/-- On every path a register instruction either changes no file, as where it waits or faults, or writes registers that its
body makes of those it reads. -/
def State.Rewrites (s t : State) (Q : Regs → Regs → Prop) : Prop :=
  Framed s t ∨ ∃ u r, Framed s u ∧ Q u.regs r ∧ Framed (u.setRegs r) t

theorem Framed.completed (s : State) (srcs dsts : List (BitVec 5)) (r : Regs) :
    Framed (s.setRegs r) (s.completed srcs dsts r) := by
  have consumed : Framed (s.setRegs r) (s.setRegs (r.consume srcs)) := by
    have := Framed.setRegs (s.setRegs r) (r := r.consume srcs) (by rw [State.regs_setRegs]; rfl)
    rwa [State.setRegs_setRegs] at this
  unfold State.completed
  split
  · exact consumed.trans (.pushDown _)
  · exact consumed

/-- What an issued instruction does whose body replaces the registers or faults. -/
theorem State.issue_rewrites (s : State) (srcs dsts : List (BitVec 5)) {body : State → Run} {Q : Regs → Regs → Prop}
    (h : ∀ u, (∃ r, body u = .ok (u.setRegs r) ∧ Q u.regs r) ∨ ∃ f, body u = .error (.trap u f)) :
    s.Rewrites (s.issue srcs dsts body) Q := by
  have ports := s.preparePorts_framed srcs dsts
  unfold State.issue
  match hp : s.preparePorts srcs dsts, ports with
  | .error (.trap u f), ports => exact .inl (ports.trans (.trapMe u f))
  | .error (.wait u), ports => exact .inl ports
  | .ok u, ports =>
    rw [run_ok_bind]
    rcases h u with ⟨r, hb, hq⟩ | ⟨f, hb⟩
    · refine .inr ⟨u, r, ports, hq, ?_⟩
      have done := Framed.completed u srcs dsts r
      rw [hb]
      unfold State.completed at done
      simpa [State.finish, usesPort] using done
    · rw [hb]
      exact .inl (ports.trans (.trapMe u f))

/-- What an instruction does that changes registers only, or faults. -/
theorem State.plain_rewrites (s : State) (len : Nat) (srcs dsts : List (BitVec 5)) {f : Regs → Except FaultInfo Regs}
    {Q : Regs → Regs → Prop} (h : ∀ r q, f r = .ok q → Q r (q.advance len)) : s.Rewrites (s.plain len srcs dsts f) Q := by
  refine s.issue_rewrites srcs dsts fun u => ?_
  cases hf : f u.regs with
  | ok r => exact .inl ⟨_, rfl, h _ r hf⟩
  | error e => exact .inr ⟨e, rfl⟩

/-- What a control transfer does. -/
theorem State.transfer_rewrites (s : State) (srcs dsts : List (BitVec 5)) {f : Regs → Except FaultInfo Regs}
    {Q : Regs → Regs → Prop} (h : ∀ r q, f r = .ok q → Q r q) : s.Rewrites (s.transfer srcs dsts f) Q := by
  refine s.issue_rewrites srcs dsts fun u => ?_
  cases hf : f u.regs with
  | ok r => exact .inl ⟨_, rfl, h _ r hf⟩
  | error e => exact .inr ⟨e, rfl⟩

/-! ### Writes that leave the files -/

@[simp] theorem Regs.files_put (r : Regs) (n : BitVec 5) (x : Elem) : (r.put n x).files = r.files := by
  unfold Regs.put
  split
  · rfl
  · split <;> rfl

@[simp] theorem Regs.files_setVal (r : Regs) (n : BitVec 5) (x : Word) : (r.setVal n x).files = r.files := r.files_put ..

@[simp] theorem Regs.files_setPair (r : Regs) (n : BitVec 5) (x : DWord) : (r.setPair n x).files = r.files := by
  simp [Regs.setPair]

@[simp] theorem Regs.files_raise (r : Regs) (f : BitVec 6) : (r.raise f).files = r.files := rfl

@[simp] theorem Regs.files_advance (r : Regs) (n : Nat) : (r.advance n).files = r.files := rfl

@[simp] theorem Regs.files_branchTo (r : Regs) (b : Bool) (x : Word) (n : Nat) : (r.branchTo b x n).files = r.files := rfl

@[simp] theorem Regs.files_setPc (r : Regs) (x : Word) : ({ r with pc := x } : Regs).files = r.files := rfl

@[simp] theorem Regs.files_setRes (r : Regs) (ty n : BitVec 5) (x : FRes) : (r.setRes ty n x).files = r.files := by
  unfold Regs.setRes Regs.setElem
  split <;> simp [Regs.setPairElem]

@[simp] theorem Regs.files_intOp (r : Regs) (d a b : BitVec 5) (w : BitVec 1) (f : Word → Word → Word)
    (g : DWord → DWord → DWord) (division : Bool) : (r.intOp d a b w f g division).files = r.files := by
  unfold Regs.intOp
  split <;> simp

/-! ### The instructions -/

/-- The rounding control, capability and extension registers, which no vector instruction writes. -/
def Regs.scalarFiles (r : Regs) : Word × Vector Cap 8 × Vector Word 8 := (r.fcr, r.c, r.e)

/-- An instruction that writes scalars, flags and the program counter. -/
def KeepsFiles (r q : Regs) : Prop := q.files = r.files

/-- An outcome is a next state that rewrites registers. -/
def Rewriting (s : State) (Q : Regs → Regs → Prop) (x : Out) : Prop := ∃ t, x = .next t ∧ s.Rewrites t Q

section
variable (s : State)

theorem Rewriting.plain (len : Nat) (srcs dsts : List (BitVec 5)) {f : Regs → Regs} (h : ∀ r, (f r).files = r.files) :
    Rewriting s KeepsFiles (.next (s.plain len srcs dsts fun r => .ok (f r))) :=
  ⟨_, rfl, s.plain_rewrites len srcs dsts fun r q e => by cases e; exact h r⟩

theorem Rewriting.int2 (d a b : BitVec 5) (w : BitVec 1) (f : Word → Word → Word) (g : DWord → DWord → DWord) :
    Rewriting s KeepsFiles (s.int2 d a b w f g) := .plain s _ _ _ fun _ => by simp

theorem Rewriting.intDiv (d a b : BitVec 5) (w : BitVec 1) (f : Word → Word → Word) (g : DWord → DWord → DWord) :
    Rewriting s KeepsFiles (s.intDiv d a b w f g) := .plain s _ _ _ fun _ => by simp

theorem Rewriting.intShift (d a b : BitVec 5) (w i h : BitVec 1) (f : Word → Nat → Word) (g : DWord → Nat → DWord) :
    Rewriting s KeepsFiles (s.intShift d a b w i h f g) := .plain s _ _ _ fun _ => by split <;> simp

theorem Rewriting.int1 (d a : BitVec 5) (w : BitVec 1) (f : Word → Word) (g : DWord → DWord) :
    Rewriting s KeepsFiles (s.int1 d a w f g) := .plain s _ _ _ fun _ => by split <;> simp

theorem Rewriting.short2 (a b : BitVec 5) (f : Word → Word → Word) : Rewriting s KeepsFiles (s.short2 a b f) :=
  .plain s _ _ _ fun _ => by simp

theorem Rewriting.float1 (d a sty ty : BitVec 5) (f : Regs → FElem → FRes) :
    Rewriting s KeepsFiles (s.float1 d a sty ty f) := .plain s _ _ _ fun _ => by simp

theorem Rewriting.float2 (len : Nat) (d a b ty : BitVec 5) (f : FElem → FElem → FRes) :
    Rewriting s KeepsFiles (s.float2 len d a b ty f) := .plain s _ _ _ fun _ => by simp

theorem Rewriting.transfer (srcs dsts : List (BitVec 5)) {f : Regs → Except FaultInfo Regs}
    (h : ∀ r q, f r = .ok q → q.files = r.files) : Rewriting s KeepsFiles (.next (s.transfer srcs dsts f)) :=
  ⟨_, rfl, s.transfer_rewrites srcs dsts h⟩

theorem Rewriting.cmpBranch (d a : BitVec 5) (off : BitVec 14) (cond : Word → Word → Bool) :
    Rewriting s KeepsFiles (s.cmpBranch d a off cond) := .transfer s _ _ fun _ _ e => by cases e; simp

theorem Rewriting.zeroBranch {n : Nat} (d : BitVec 5) (off : BitVec n) (len : Nat) (onZero : Bool) :
    Rewriting s KeepsFiles (s.zeroBranch d off len onZero) := .transfer s _ _ fun _ _ e => by cases e; simp

theorem Rewriting.jumpReg (a : BitVec 5) (len : Nat) (link : Bool) :
    Rewriting s KeepsFiles (s.jumpReg a len link) := by
  refine .transfer s _ _ fun r q e => ?_
  dsimp only at e
  split at e
  · cases e
  · cases e
    split <;> simp

end

/-! #### Vector instructions -/

@[simp] theorem Regs.scalarFiles_setVec (r : Regs) (n : BitVec 5) (x : Vector Elem 8) :
    (r.setVec n x).scalarFiles = r.scalarFiles := rfl

@[simp] theorem Regs.scalarFiles_raise (r : Regs) (f : BitVec 6) : (r.raise f).scalarFiles = r.scalarFiles := rfl

@[simp] theorem Regs.scalarFiles_setMask (r : Regs) (n : BitVec 3) (x : BitVec 8) :
    (r.setMask n x).scalarFiles = r.scalarFiles := by
  unfold Regs.setMask
  split <;> rfl

theorem Regs.scalarFiles_of_files {r q : Regs} (h : q.files = r.files) : q.scalarFiles = r.scalarFiles := by
  simp only [Regs.files, Prod.mk.injEq] at h
  obtain ⟨fcr, c, e, -, -⟩ := h
  simp [Regs.scalarFiles, fcr, c, e]

@[simp] theorem Regs.scalarFiles_vred (r : Regs) (v : VForm) : (r.vred v).scalarFiles = r.scalarFiles := by
  refine Regs.scalarFiles_of_files ?_
  unfold Regs.vred
  dsimp only
  split
  · simp
  · split <;> simp
  · rfl

/-- A sequencer form writes a vector, a mask or a scalar. -/
theorem VForm.scalarFiles_perform (v : VForm) (c : VCtx) (r : Regs) : (v.perform c r).scalarFiles = r.scalarFiles := by
  unfold VForm.perform
  split <;> simp [Regs.vlanes, Regs.vmap1, Regs.vmap2, Regs.setVecRes, Regs.vcmp, Regs.vconv, Regs.vrot, Regs.vpack, Regs.vlut]

theorem State.scalarFiles_performed (s : State) (v : VForm) (fcr : Word) (x : Elem) (amt : Nat) (r : Regs) :
    (s.performed v fcr x amt r).scalarFiles = r.scalarFiles := by
  unfold State.performed
  split
  · simp [Regs.vrot, Regs.vlanes]
  · exact v.scalarFiles_perform _ r

section
variable (s : State)

/-! #### What each instruction keeps -/

/-- The register files that an instruction leaves as they were (R24, R25, R29, R35): capabilities but for capability instructions,
extension registers but for `ELI` and `EMOV`, vectors and masks but for vector instructions, and always the rounding
control. -/
def Keeps (i : Instr) (r q : Regs) : Prop :=
  q.fcr = r.fcr ∧
  ((∀ d a b, i ≠ .csetb d a b ∧ i ≠ .cinc d a b ∧ i ≠ .cand d a b) → q.c = r.c) ∧
  ((∀ d x, i ≠ .eli d x) → (∀ d a, i ≠ .emovToE d a ∧ i ≠ .emovShort d a) → q.e = r.e) ∧
  (vform i = none → q.v = r.v ∧ q.k = r.k)

theorem Regs.files_eq {r q : Regs} (h : q.files = r.files) : q.fcr = r.fcr ∧ q.c = r.c ∧ q.e = r.e ∧ q.v = r.v ∧ q.k = r.k := by
  simpa [Regs.files] using h

theorem Keeps.of_files {i : Instr} {r q : Regs} (h : q.files = r.files) : Keeps i r q := by
  obtain ⟨fcr, c, e, v, k⟩ := Regs.files_eq h
  exact ⟨fcr, fun _ => c, fun _ _ => e, fun _ => ⟨v, k⟩⟩

theorem State.Rewrites.mono {s t : State} {P Q : Regs → Regs → Prop} (h : s.Rewrites t P) (hq : ∀ r q, P r q → Q r q) :
    s.Rewrites t Q :=
  h.imp_right fun ⟨u, r, before, made, after⟩ => ⟨u, r, before, hq _ _ made, after⟩

theorem Rewriting.mono {P Q : Regs → Regs → Prop} {x : Out} (h : Rewriting s P x) (hq : ∀ r q, P r q → Q r q) :
    Rewriting s Q x :=
  let ⟨t, e, h⟩ := h
  ⟨t, e, h.mono hq⟩

theorem Rewriting.scalar {i : Instr} {x : Out} (h : Rewriting s KeepsFiles x) : Rewriting s (Keeps i) x :=
  h.mono s fun _ _ => Keeps.of_files

/-- A capability register is written with what was derived from the source (R117). -/
theorem State.derive_rewrites (d a b : BitVec 5) (f : Cap → Word → Option Cap) : Rewriting s
    (fun r q => ∃ k, f (r.cap (a.setWidth 3)) (r.val b) = some k ∧ q = (r.setCap (d.setWidth 3) k).advance 4)
    (s.derive d a b f) := by
  refine ⟨_, rfl, s.plain_rewrites _ _ _ fun r q e => ?_⟩
  split at e
  · cases e
  · cases e
    exact ⟨_, ‹_›, rfl⟩

theorem Regs.rest_setCap (r : Regs) (n : BitVec 3) (x : Cap) : (r.setCap n x).fcr = r.fcr ∧ (r.setCap n x).e = r.e ∧
    (r.setCap n x).v = r.v ∧ (r.setCap n x).k = r.k := by
  unfold Regs.setCap
  split <;> exact ⟨rfl, rfl, rfl, rfl⟩

/-- A capability instruction writes a capability register alone. -/
theorem Rewriting.derive {i : Instr} (h : ∃ d a b, i = .csetb d a b ∨ i = .cinc d a b ∨ i = .cand d a b) (d a b : BitVec 5)
    (f : Cap → Word → Option Cap) : Rewriting s (Keeps i) (s.derive d a b f) := by
  refine (State.derive_rewrites s d a b f).mono s fun r q ⟨k, _, made⟩ => ?_
  obtain ⟨fcr, ext, vec, mask⟩ := r.rest_setCap (d.setWidth 3) k
  subst made
  refine ⟨fcr, fun no => ?_, fun _ _ => ext, fun _ => ⟨vec, mask⟩⟩
  obtain ⟨d, a, b, h⟩ := h
  obtain ⟨csetb, cinc, cand⟩ := no d a b
  exact absurd h (by simp [csetb, cinc, cand])

/-- `ELI` and `EMOV` write an extension register. -/
theorem Rewriting.setExt {i : Instr} (h : (∃ d x, i = .eli d x) ∨ ∃ d a, i = .emovToE d a ∨ i = .emovShort d a) (len : Nat)
    (srcs : List (BitVec 5)) (n : BitVec 3) (f : Regs → Word) :
    Rewriting s (Keeps i) (.next (s.plain len srcs [] fun r => .ok (r.setExt n (f r)))) := by
  refine ⟨_, rfl, s.plain_rewrites _ _ _ fun r q e => ?_⟩
  cases e
  refine ⟨rfl, fun _ => rfl, fun eli emov => ?_, fun _ => ⟨rfl, rfl⟩⟩
  rcases h with ⟨d, x, h⟩ | ⟨d, a, h⟩
  · exact absurd h (eli d x)
  · exact absurd h (by simp [emov d a])

/-- The instructions on scalars, capability and extension registers, and the hints. -/
theorem exec_scalar_rewrites (i : Instr) (h : (computes i && (vform i).isNone) = true) : Rewriting s (Keeps i) (exec i s) := by
  cases i with
  | add | sub | mul | mulh | mulhn | and | or | xor | andn | min | max | minn | maxn | slt | sltn => exact .scalar s (.int2 ..)
  | div | divn | rem | remn => exact .scalar s (.intDiv ..)
  | shl | shr | sar | rol => exact .scalar s (.intShift ..)
  | clz | ctz | popc => exact .scalar s (.int1 ..)
  | addShort | subShort | andShort | orShort | xorShort | minShort | maxShort => exact .scalar s (.short2 ..)
  | shlShort | shrShort | sarShort | addiShort | liShort | sel | addi | li | lih | emovFromE | cbase | clen | cperm | time
  | ffma | tailget | tailset | rndk =>
    exact .scalar s (.plain s _ _ _ fun _ => by simp)
  | fclass | fcmp => exact .scalar s (.plain s _ _ _ fun _ => by split <;> simp)
  | nop | hintShort | hint => exact .scalar s (.plain s _ _ _ fun _ => rfl)
  | faddShort | fmulShort | fadd | fsub | fmul | fmin | fmax | fdiv => exact .scalar s (.float2 ..)
  | fabs | fneg | fsqrt | frcp | frsq | fexp2 | flog2 | fsin | fcos | cvt | cvtf | frnd => exact .scalar s (.float1 ..)
  | beq | bne | blt | bltn => exact .scalar s (.cmpBranch ..)
  | bge d a x => exact .scalar s (show Rewriting s KeepsFiles (execBge d a x s) from .cmpBranch ..)
  | bgen d a x => exact .scalar s (show Rewriting s KeepsFiles (execBgen d a x s) from .cmpBranch ..)
  | bz | bnz | bzShort | bnzShort => exact .scalar s (.zeroBranch ..)
  | jr | jlr | jrShort | jlrShort => exact .scalar s (.jumpReg ..)
  | b | j | jl | loop => exact .scalar s (.transfer s _ _ fun _ _ e => by cases e; simp)
  | csetb d a b =>
    exact show Rewriting s (Keeps (.csetb d a b)) (execCsetb d a b s) from .derive s ⟨d, a, b, .inl rfl⟩ ..
  | cinc d a b =>
    exact show Rewriting s (Keeps (.cinc d a b)) (execCinc d a b s) from .derive s ⟨d, a, b, .inr (.inl rfl)⟩ ..
  | cand d a b =>
    exact show Rewriting s (Keeps (.cand d a b)) (execCand d a b s) from .derive s ⟨d, a, b, .inr (.inr rfl)⟩ ..
  | eli d x => exact .setExt s (.inl ⟨d, x, rfl⟩) ..
  | emovToE d a => exact .setExt s (.inr ⟨d, a, .inl rfl⟩) ..
  | emovShort d a => exact .setExt s (.inr ⟨d, a, .inr rfl⟩) ..
  | _ => cases h

/-- A sequencer instruction is carried out by its form (R147). -/
theorem exec_vector {i : Instr} {v : VForm} (h : vform i = some v) : exec i s = s.vector v := by
  cases i with
  | tailgetV | tailsetV | faddV | fsubV | fmulV | fminV | fmaxV | fdivV | ffmaV | fcmpV | fabsV | fnegV | fsqrtV | fclassV | frcpV
  | frsqV | fexp2V | flog2V | fsinV | fcosV | cvtV | cvtfV | frndV | vshuf | vrot | vbcast | vsel | vidx | vredAdd | vredMin
  | vredMax | vredAnd | vredOr | vredXor | pack | vlut | rndkV =>
    cases h
    rfl
  | _ => cases h

theorem exec_vector_rewrites {i : Instr} {v : VForm} (h : vform i = some v) : Rewriting s (Keeps i) (exec i s) := by
  rw [exec_vector s h]
  refine ⟨_, rfl, s.issue_rewrites _ _ fun u => .inl ⟨_, rfl, ?_⟩⟩
  have kept := u.scalarFiles_performed v
  simp only [Regs.scalarFiles, Prod.mk.injEq] at kept
  obtain ⟨fcr, c, e⟩ := kept _ _ _ u.regs
  exact ⟨fcr, fun _ => c, fun _ _ => e, fun none => by simp [h] at none⟩

/-- What a computing instruction does on every path. -/
theorem exec_computing {i : Instr} {t : State} (hc : computes i = true) (h : exec i s = .next t) : s.Rewrites t (Keeps i) := by
  have rewriting : Rewriting s (Keeps i) (exec i s) := by
    cases hv : vform i with
    | none => exact exec_scalar_rewrites s i (by simp [hc, hv])
    | some v => exact exec_vector_rewrites s hv
  obtain ⟨u, e, h'⟩ := rewriting
  rw [h] at e
  cases e
  exact h'

end

theorem State.Rewrites.elsewhere {s t : State} {Q : Regs → Regs → Prop} (h : s.Rewrites t Q) : Elsewhere s t := by
  rcases h with h | ⟨u, r, before, -, after⟩
  · exact h.toElsewhere
  · exact (before.toElsewhere.trans (.setRegs u r)).trans after.toElsewhere

theorem Keeps.after {i : Instr} {r q p : Regs} (h : Keeps i r q) (e : p.files = q.files) : Keeps i r p := by
  obtain ⟨fcr, c, x, v, k⟩ := Regs.files_eq e
  obtain ⟨fcr', c', x', vk'⟩ := h
  exact ⟨fcr.trans fcr', fun no => c.trans (c' no), fun eli emov => x.trans (x' eli emov),
    fun none => ⟨v.trans (vk' none).1, k.trans (vk' none).2⟩⟩

theorem Keeps.before {i : Instr} {r q p : Regs} (h : Keeps i q p) (e : q.files = r.files) : Keeps i r p := by
  obtain ⟨fcr, c, x, v, k⟩ := Regs.files_eq e
  obtain ⟨fcr', c', x', vk'⟩ := h
  exact ⟨fcr'.trans fcr, fun no => (c' no).trans c, fun eli emov => (x' eli emov).trans x,
    fun none => ⟨(vk' none).1.trans v, (vk' none).2.trans k⟩⟩

theorem State.Rewrites.keeps {s t : State} {i : Instr} (h : s.Rewrites t (Keeps i)) : Keeps i s.regs t.regs := by
  rcases h with h | ⟨u, r, before, made, after⟩
  · exact .of_files h.files
  · exact (made.before before.files).after (after.files.trans (by rw [State.regs_setRegs]))

/-- Settles O55: a computing instruction changes registers of its own thread, of the files only those it writes. -/
theorem computingFrame : Obligations.ComputingFrame := by
  unfold Obligations.ComputingFrame
  intro i s t hc h
  have done := exec_computing s hc h
  obtain ⟨own, storage, barriers, monitors⟩ := done.elsewhere
  exact ⟨storage, barriers, monitors, own.others, done.keeps⟩

end Sys2Proof.Machine
end

section
/-!
PROOFS. Capability instructions only narrow (R25, R117).
-/

namespace Sys2Proof

/-! ### The fields of a capability that is made (R246) -/

section
variable (tag : Bool) (dom space : Nat) (perm : BitVec 7) (len base : Nat)

@[simp] theorem Cap.tag_make : (Cap.make tag dom space perm len base).tag = tag := rfl

@[simp] theorem Cap.base_make : (Cap.make tag dom space perm len base).base = base % 2 ^ 52 := by
  rw [Cap.base, Cap.make, BitVec.extractLsb'_append_eq_right, BitVec.toNat_ofNat]

@[simp] theorem Cap.len_make : (Cap.make tag dom space perm len base).len = len % 2 ^ 50 := by
  rw [Cap.len, Cap.make, BitVec.extractLsb'_append_eq_of_le (by decide), BitVec.extractLsb'_append_eq_right,
    BitVec.toNat_ofNat]

@[simp] theorem Cap.perm_make : (Cap.make tag dom space perm len base).perm = perm := by
  rw [Cap.perm, Cap.make, BitVec.extractLsb'_append_eq_of_le (by decide), BitVec.extractLsb'_append_eq_of_le (by decide),
    BitVec.extractLsb'_append_eq_right]

@[simp] theorem Cap.space_make : (Cap.make tag dom space perm len base).space = space % 2 ^ 3 := by
  rw [Cap.space, Cap.make, BitVec.extractLsb'_append_eq_of_le (by decide), BitVec.extractLsb'_append_eq_of_le (by decide),
    BitVec.extractLsb'_append_eq_of_le (by decide), BitVec.extractLsb'_append_eq_right, BitVec.toNat_ofNat]

@[simp] theorem Cap.dom_make : (Cap.make tag dom space perm len base).dom = dom % 2 ^ 16 := by
  rw [Cap.dom, Cap.make, BitVec.extractLsb'_append_eq_of_le (by decide), BitVec.extractLsb'_append_eq_of_le (by decide),
    BitVec.extractLsb'_append_eq_of_le (by decide), BitVec.extractLsb'_append_eq_left, BitVec.toNat_ofNat]

end

theorem Cap.space_lt (c : Cap) : c.space < 2 ^ 3 := BitVec.isLt _

theorem Cap.dom_lt (c : Cap) : c.dom < 2 ^ 16 := BitVec.isLt _

end Sys2Proof

namespace Sys2Proof.Machine

/-! ### What is derived -/

/-- A capability that may be derived from another: same tag, space and domain, no permission more, and a range within the
source's, or no bytes at base 0 where the source's range ends at the top of the address space (R117; entry 53). -/
structure Narrows (c k : Cap) : Prop where
  tag   : k.tag = c.tag
  space : k.space = c.space
  dom   : k.dom = c.dom
  perm  : k.perm &&& ~~~c.perm = 0
  range : c.base ≤ k.base ∧ k.base + k.len ≤ c.base + c.len ∨ k.base = 0 ∧ k.len = 0 ∧ c.base + c.len = 2 ^ 52

/-- A capability made with fields that a source bounds is narrower. -/
theorem Narrows.make {c : Cap} {perm : BitVec 7} {len base : Nat} (hp : perm &&& ~~~c.perm = 0) (hl : len ≤ c.len)
    (hr : c.base ≤ base % 2 ^ 52 ∧ base % 2 ^ 52 + len ≤ c.base + c.len ∨
      base % 2 ^ 52 = 0 ∧ len = 0 ∧ c.base + c.len = 2 ^ 52) : Narrows c (Cap.make c.tag c.dom c.space perm len base) := by
  have bound : len % 2 ^ 50 = len := Nat.mod_eq_of_lt (hl.trans_lt c.len_lt)
  exact ⟨Cap.tag_make .., by rw [Cap.space_make, Nat.mod_eq_of_lt c.space_lt], by rw [Cap.dom_make, Nat.mod_eq_of_lt c.dom_lt],
    by rwa [Cap.perm_make], by rwa [Cap.base_make, Cap.len_make, bound]⟩

/-- `CSETB` shortens. -/
theorem Narrows.setLen {c k : Cap} {x : Word} (h : capSetLen c x = some k) : Narrows c k := by
  unfold capSetLen at h
  split at h
  · cases h
  · cases h
    have := c.base_lt
    exact .make (by simp) (by omega) (.inl (by omega))

/-- `CINC` moves the base up; a base that reaches 2^52 wraps to 0, and the length is then 0 (entry 53). -/
theorem Narrows.move {c k : Cap} {x : Word} (top : c.base + c.len ≤ 2 ^ 52) (h : capMove c x = some k) : Narrows c k := by
  unfold capMove at h
  split at h
  · cases h
  · cases h
    exact .make (by simp) (by omega) (by omega)

/-- `CAND` removes permissions. -/
theorem Narrows.mask {c k : Cap} {x : Word} (h : capMask c x = some k) : Narrows c k := by
  cases h
  have := c.base_lt
  refine .make ?_ le_rfl (.inl (by omega))
  rw [BitVec.and_comm c.perm, BitVec.and_assoc]
  simp

/-- What a capability instruction derives is narrower than its source. -/
theorem State.derive_narrows {s t : State} {d a b : BitVec 5} {f : Cap → Word → Option Cap}
    (hf : ∀ c x k, c.base + c.len ≤ 2 ^ 52 → f c x = some k → Narrows c k) (h : s.derive d a b f = .next t)
    (top : ∀ n, (s.regs.cap n).base + (s.regs.cap n).len ≤ 2 ^ 52) (n : BitVec 3) :
    t.regs.cap n = s.regs.cap n ∨ ∃ m, Narrows (s.regs.cap m) (t.regs.cap n) := by
  have cap_eq {r q : Regs} (e : q.files = r.files) (n : BitVec 3) : q.cap n = r.cap n := by
    rw [Regs.cap, Regs.cap, (Regs.files_eq e).2.1]
  obtain ⟨_, e, done⟩ := s.derive_rewrites d a b f
  rw [h] at e
  cases e
  rcases done with kept | ⟨u, r, before, ⟨k, derived, rfl⟩, after⟩
  · exact .inl (cap_eq kept.files n)
  · have written : t.regs.cap n = (u.regs.setCap (d.setWidth 3) k).cap n := by
      rw [cap_eq after.files, State.regs_setRegs]
      rfl
    by_cases zero : d.setWidth 3 = 0
    · rw [written, zero, Regs.setCap_zero]
      exact .inl (cap_eq before.files n)
    · rw [written, Regs.cap_setCap _ _ _ zero]
      split
      · rw [cap_eq before.files] at derived
        exact .inr ⟨_, hf _ _ _ (top _) derived⟩
      · exact .inl (cap_eq before.files n)

/-- Settles O7: each of the three derives a narrower capability or leaves the registers. -/
theorem capabilitiesOnlyNarrow : Obligations.CapabilitiesOnlyNarrow := by
  unfold Obligations.CapabilitiesOnlyNarrow
  intro s t d a b i hi h top n
  have narrowed : t.regs.cap n = s.regs.cap n ∨ ∃ m, Narrows (s.regs.cap m) (t.regs.cap n) := by
    rcases hi with rfl | rfl | rfl
    · exact State.derive_narrows (f := capSetLen) (fun _ _ _ _ => .setLen) h top n
    · exact State.derive_narrows (f := capMove) (fun _ _ _ => .move) h top n
    · exact State.derive_narrows (f := capMask) (fun _ _ _ _ => .mask) h top n
  exact narrowed.imp_right fun ⟨m, tag, space, dom, perm, range⟩ => ⟨m, tag, space, dom, perm, range⟩

end Sys2Proof.Machine
end

section
/-!
PROOFS. The control registers (R34 to R37, R40, R119 to R121): what `GETC` and `SETC` answer, refuse and write.
-/

namespace Sys2Proof.Machine

/-- The number of bits put side by side. -/
theorem toNat_append_eq {m n : Nat} (x : BitVec m) (y : BitVec n) : (x ++ y).toNat = x.toNat * 2 ^ n + y.toNat := by
  rw [BitVec.toNat_append, ← Nat.shiftLeft_add_eq_or_of_lt y.isLt, Nat.shiftLeft_eq]

theorem bit_toNat (b : Bool) : (if b then 1#1 else 0#1).toNat = if b then 1 else 0 := by cases b <;> rfl

/-- The `tslot` word by its fields (R37). -/
theorem Slot.tslot_eq (t : Slot) (n : Fin 8) : t.tslot n =
    BitVec.ofNat 32 (n.val + 2 ^ 3 * t.gen.toNat + 2 ^ 11 * t.bound.toNat + 2 ^ 14 * t.prio.toNat +
      (if t.lch then 2 ^ 21 else 2 ^ 16 * t.stage.toNat + if t.hcl then 2 ^ 20 else 0)) := by
  refine BitVec.eq_of_toNat_eq ?_
  have := t.gen.isLt; have := t.bound.isLt; have := t.prio.isLt; have := t.stage.isLt
  unfold Slot.tslot
  simp only [toNat_append_eq, bit_toNat, BitVec.toNat_ofNat]
  cases t.lch <;> cases t.hcl <;> simp <;> omega

/-! ### Numbers (R34, R40) -/

/-- The number of record k of slot n (R40). -/
def recordNum (n : Fin 8) (k : Nat) : BitVec 9 := BitVec.ofNat 9 (0x100 + 16 * n.val + k)

/-- A record number names its slot and record, and is admitted in a handler. -/
theorem recordNum_names (n : Fin 8) {k : Nat} (h : k < 6) : accessSlot (recordNum n k) = n ∧ accessK (recordNum n k) = k ∧
    0x100 ≤ (recordNum n k).toNat ∧ checkNumber (recordNum n k) true = .ok () := by
  have each : ∀ (n : Fin 8) (k : Fin 6), accessSlot (recordNum n k) = n ∧ accessK (recordNum n k) = k ∧
      0x100 ≤ (recordNum n k).toNat ∧ checkNumber (recordNum n k) true = .ok () := by decide
  exact each n ⟨k, h⟩

theorem accessK_eq (num : BitVec 9) : accessK num = num.toNat % 16 := by
  simp [accessK, BitVec.extractLsb'_toNat]

/-- A number that R34 does not list, or one of a record above 5, is illegal. -/
theorem checkNumber_illegal {num : BitVec 9} (own : num.toNat ∉ [0, 1, 2, 3, 8, 0x10, 0x11, 0x12, 0x13])
    (h : num.toNat < 0x100 ∨ 0x180 ≤ num.toNat ∨ 5 < num.toNat % 16) (hcl : Bool) :
    checkNumber num hcl = .error ⟨0x01, 0x07, 0, 0⟩ := by
  unfold checkNumber
  split
  · rfl
  next isListed =>
    have inRange : 0x100 ≤ num.toNat ∧ num.toNat < 0x180 := by simpa [listed, own] using isListed
    rw [if_pos (by simp only [accessK_eq, Bool.and_eq_true, decide_eq_true_eq]; omega)]
    rfl

/-- A record number in a thread that is no handler is refused. -/
theorem checkNumber_denied {num : BitVec 9} (low : 0x100 ≤ num.toNat) (high : num.toNat < 0x180) (h : num.toNat % 16 ≤ 5) :
    checkNumber num false = .error ⟨0x0C, 0, num.zeroExtend 64, 0⟩ := by
  unfold checkNumber
  rw [if_neg (by simp [listed, low, high]), if_neg (by simp [accessK_eq]; omega), if_pos (by simp [low])]
  rfl

/-! ### Values -/

/-- A record of another slot as a handler sees it. -/
theorem State.controlValue_record (s : State) (n : Fin 8) {k : Nat} (h : k < 6) :
    s.controlValue (recordNum n k) = (s.slot s.home n).accessRead s.me.tenant n k := by
  obtain ⟨slot, record, high, -⟩ := recordNum_names n h
  unfold State.controlValue
  rw [slot, record]
  split
  iterate 9 · omega
  rfl

/-- A record is hidden where the slot holds a thread of another tenant (R294). -/
theorem Slot.accessRead_eq (t : Slot) (ten : Nat) (n : Fin 8) (k : Nat) : t.accessRead ten n k =
    if t.state ≠ .free ∧ t.tenant ≠ ten then 0 else t.accessRead t.tenant n k := by
  unfold Slot.accessRead
  by_cases h : t.state ≠ .free ∧ t.tenant ≠ ten <;> simp [h]

/-- The records of a slot as a thread of its own tenant sees them (R38, R40). -/
theorem Slot.accessRead_own (t : Slot) (n : Fin 8) : t.accessRead t.tenant n 0 = t.faultPc ∧
    t.accessRead t.tenant n 1 = t.faultCause ∧ t.accessRead t.tenant n 2 = t.faultAddr.setWidth 32 ∧
    t.accessRead t.tenant n 3 = t.faultAddr.extractLsb' 32 32 ∧ t.accessRead t.tenant n 4 = t.tslot n ∧
    t.accessRead t.tenant n 5 = t.regs.tst := by
  simp [Slot.accessRead]

theorem low_word (x : DWord) : x.setWidth 32 = BitVec.ofNat 32 x.toNat := BitVec.eq_of_toNat_eq (by simp)

theorem high_word (x : DWord) : x.extractLsb' 32 32 = BitVec.ofNat 32 (x.toNat / 2 ^ 32) :=
  BitVec.eq_of_toNat_eq (by simp [BitVec.extractLsb'_toNat, Nat.shiftRight_eq_div_pow])

/-! ### The instructions -/

section
variable {s : State} {d a : BitVec 5} {num : BitVec 9}

/-- `GETC` of a number that is admitted. -/
theorem exec_getc (hc : checkNumber num s.me.hcl = .ok ()) (hb : s.tstBusy num = false) {x : Word}
    (hx : s.controlValue num = x) : Completes (.getc d num) s [] [d] (s.wrote d x 4) := by
  intro hp
  subst hx
  show execGetc d num s = _
  rw [execGetc, s.issue_of_ok _ hp (by simp only [hc, hb]; rfl)]
  simp [State.wrote]

theorem exec_getc_refused {f : FaultInfo} (hc : checkNumber num s.me.hcl = .error f) : Faults (.getc d num) s [] [d] f := by
  intro hp
  show execGetc d num s = _
  rw [execGetc, s.issue_of_trap s hp (by simp only [hc]; rfl)]

/-- `SETC` of a number that is admitted. -/
theorem exec_setc (hc : checkNumber num s.me.hcl = .ok ()) {t : State} (hw : s.controlWrite num (s.regs.val a) = .ok t)
    (hp : s.portsReady [a] []) : exec (.setc a num) s = .next (t.completed [a] [] (t.regs.advance 4)) := by
  show execSetc a num s = _
  rw [execSetc, s.issue_of_ok _ hp (by simp only [hc, hw]; rfl)]
  simp

theorem exec_setc_refused {f : FaultInfo} (hc : checkNumber num s.me.hcl = .error f) : Faults (.setc a num) s [a] [] f := by
  intro hp
  show execSetc a num s = _
  rw [execSetc, s.issue_of_trap s hp (by simp only [hc]; rfl)]

/-- `SETC` of a value or by a thread that the register refuses. -/
theorem exec_setc_faults {f : FaultInfo} (hc : checkNumber num s.me.hcl = .ok ())
    (hw : s.controlWrite num (s.regs.val a) = .error f) : Faults (.setc a num) s [a] [] f := by
  intro hp
  show execSetc a num s = _
  rw [execSetc, s.issue_of_trap s hp (by simp only [hc, hw]; rfl)]

end

/-- `GETC` of a record of another slot by a handler. -/
theorem exec_getc_record {s : State} {d : BitVec 5} {n : Fin 8} {k : Nat} (hcl : s.me.hcl = true) (h : k < 6)
    (hb : k = 5 → (s.core s.home).seqBusy n = false) {x : Word}
    (hx : (s.slot s.home n).accessRead (s.slot s.home n).tenant n k = x) : Completes (.getc d (recordNum n k)) s [] [d]
      (s.wrote d (if (s.slot s.home n).state ≠ .free ∧ (s.slot s.home n).tenant ≠ s.me.tenant then 0 else x) 4) := by
  obtain ⟨slot, record, -, admitted⟩ := recordNum_names n h
  refine exec_getc (by rw [hcl, admitted]) ?_ ?_
  · rw [State.tstBusy, slot, record]
    by_cases e : k = 5
    · rw [show (s.core s.me.home).seqBusy n = false from hb e, Bool.and_false]
    · simp [e]
  · rw [s.controlValue_record n h, Slot.accessRead_eq, hx]

/-- Of the numbers of a thread's own and of its core, each reads its register. -/
theorem controlReads : ControlReads := by
  intro s d get slotWord
  refine ⟨exec_getc rfl rfl rfl, exec_getc rfl rfl rfl, exec_getc rfl rfl rfl, exec_getc rfl rfl (Slot.tslot_eq ..),
    exec_getc rfl rfl rfl, exec_getc rfl rfl rfl, exec_getc rfl rfl rfl, exec_getc rfl rfl (low_word _),
    exec_getc rfl rfl (high_word _), ?_⟩
  intro n hcl o see num
  obtain ⟨pc, cause, low, high, word, tst⟩ := o.accessRead_own n
  exact ⟨exec_getc_record (k := 0) hcl (by decide) nofun pc, exec_getc_record (k := 1) hcl (by decide) nofun cause,
    exec_getc_record (k := 2) hcl (by decide) nofun (low.trans (low_word _)),
    exec_getc_record (k := 3) hcl (by decide) nofun (high.trans (high_word _)),
    exec_getc_record (k := 4) hcl (by decide) nofun (word.trans (Slot.tslot_eq ..)),
    fun idle => exec_getc_record (k := 5) hcl (by decide) (fun _ => idle) tst⟩

/-! ### Writes -/

section
variable {s : State} {num : BitVec 9} {x : Word}

/-- `fcr` takes a value whose mode is not 7, its reserved bits zero (R35). -/
theorem State.controlWrite_fcr (h : x.toNat % 8 ≠ 7) :
    s.controlWrite 0 x = .ok (s.setRegs { s.regs with fcr := x &&& 0xFFFFFF17#32 }) := by
  have mode : x.extractLsb' 0 3 ≠ 7 := fun e => h (by simpa [BitVec.extractLsb'_toNat] using congrArg BitVec.toNat e)
  exact if_neg mode

theorem State.controlWrite_fcr_mode (h : x.toNat % 8 = 7) : s.controlWrite 0 x = .error ⟨0x0D, 0, 0, 0⟩ := by
  have mode : x.extractLsb' 0 3 = 7 := BitVec.eq_of_toNat_eq (by simpa [BitVec.extractLsb'_toNat] using h)
  exact if_pos mode

/-- A number without a register that `SETC` writes is ignored (R121). -/
theorem State.controlWrite_ignored (h0 : num.toNat ≠ 0) (h1 : num.toNat ≠ 1) (h8 : num.toNat ≠ 8)
    (h : ¬(0x100 ≤ num.toNat ∧ accessK num = 5 ∧ (s.slot s.home (accessSlot num)).state = .parked ∧
      (s.slot s.home (accessSlot num)).tenant = s.me.tenant)) : s.controlWrite num x = .ok s := by
  unfold State.controlWrite
  split
  · contradiction
  · contradiction
  · contradiction
  · refine if_neg fun e => h ?_
    simp only [Bool.and_eq_true, decide_eq_true_eq, and_assoc] at e
    exact e

/-- The `tst` of a PARKED slot of the handler's tenant (R121). -/
theorem State.controlWrite_tst {n : Fin 8} (parked : (s.slot s.home n).state = .parked)
    (ten : (s.slot s.home n).tenant = s.me.tenant) : s.controlWrite (recordNum n 5) x =
      .ok (s.setSlot s.home n { s.slot s.home n with regs := { (s.slot s.home n).regs with
        tst := clearFlags (s.slot s.home n).regs.tst x } }) := by
  obtain ⟨slot, record, high, -⟩ := recordNum_names n (k := 5) (by decide)
  unfold State.controlWrite
  split
  iterate 3 · omega
  · rw [slot, record]
    refine if_pos ?_
    simp only [Bool.and_eq_true, decide_eq_true_eq]
    exact ⟨⟨⟨high, trivial⟩, parked⟩, ten⟩

/-- Another slot replaced leaves the issuing thread's registers. -/
theorem State.regs_setSlot_ne (s : State) {c : Nat} {n : Fin 8} (x : Slot) (h : ¬(c = s.curCore ∧ n = s.curSlot)) :
    (s.setSlot c n x).regs = s.regs := by
  have apart : ¬(s.curCore = c ∧ s.curSlot = n) := fun ⟨e, e'⟩ => h ⟨e.symm, e'.symm⟩
  exact congrArg Slot.regs (State.slot_setSlot_ne s x apart)

/-- `SETC` of a record that takes nothing. -/
theorem exec_setc_record_ignored {a : BitVec 5} {n : Fin 8} {k : Nat} (hcl : s.me.hcl = true) (h : k < 6)
    (other : ¬(k = 5 ∧ (s.slot s.home n).state = .parked ∧ (s.slot s.home n).tenant = s.me.tenant))
    (hp : s.portsReady [a] []) : exec (.setc a (recordNum n k)) s = .next (s.completed [a] [] (s.regs.advance 4)) := by
  obtain ⟨slot, record, high, admitted⟩ := recordNum_names n h
  refine exec_setc (by rw [hcl, admitted]) (State.controlWrite_ignored ?_ ?_ ?_ ?_) hp
  · omega
  · omega
  · omega
  · rw [slot, record]
    exact fun e => other e.2

/-- `SETC` of the `tst` of a PARKED slot by a handler. -/
theorem exec_setc_record_tst {a : BitVec 5} {n : Fin 8} (hcl : s.me.hcl = true) (parked : (s.slot s.home n).state = .parked)
    (ten : (s.slot s.home n).tenant = s.me.tenant) (apart : ¬(s.home = s.curCore ∧ n = s.curSlot))
    (hp : s.portsReady [a] []) : exec (.setc a (recordNum n 5)) s =
      .next ((s.setSlot s.home n { s.slot s.home n with regs := { (s.slot s.home n).regs with
        tst := clearFlags (s.slot s.home n).regs.tst (s.regs.val a) } }).completed [a] [] (s.regs.advance 4)) := by
  obtain ⟨-, -, -, admitted⟩ := recordNum_names n (k := 5) (by decide)
  rw [exec_setc (by rw [hcl, admitted]) (State.controlWrite_tst parked ten) hp, State.regs_setSlot_ne s _ apart]

end

theorem controlFaults : ControlFaults := by
  intro s d a num illegal access k
  refine ⟨fun own h => ?_, fun low high h hcl => ?_, fun mode => ?_, fun hcl => ?_⟩
  · have refused := checkNumber_illegal own h s.me.hcl
    exact ⟨exec_getc_refused refused, exec_setc_refused refused⟩
  · have refused : checkNumber num s.me.hcl = .error access := by rw [hcl]; exact checkNumber_denied low high h
    exact ⟨exec_getc_refused refused, exec_setc_refused refused⟩
  · exact exec_setc_faults rfl (State.controlWrite_fcr_mode mode)
  · refine exec_setc_faults rfl (if_pos ?_)
    rw [hcl]
    rfl

theorem controlWrites : ControlWrites := by
  intro s a x r tst set
  have ignored {num : BitVec 9} (hc : checkNumber num s.me.hcl = .ok ()) (h : s.controlWrite num x = .ok s) : set num s r :=
    exec_setc hc h
  refine ⟨fun mode hp => ?_, fun hp => ?_, ignored rfl rfl, ignored rfl rfl, ignored rfl rfl, ignored rfl rfl, ignored rfl rfl,
    ignored rfl rfl, fun hcl => ⟨fun hp => ?_, ?_⟩⟩
  · have done := exec_setc rfl (State.controlWrite_fcr mode) hp
    rwa [State.completed_setRegs, State.regs_setRegs] at done
  · have done := exec_setc (num := 1) rfl rfl hp
    rwa [State.completed_setRegs, State.regs_setRegs] at done
  · rw [exec_setc (num := 8) rfl (if_neg (by simp [hcl])) hp, State.regs_updCore _ _ _ rfl]
    rfl
  · intro n o num
    exact ⟨fun k h => exec_setc_record_ignored hcl (by omega) fun e => by omega,
      fun other => exec_setc_record_ignored hcl (by decide) fun e => other e.2,
      fun parked ten apart => exec_setc_record_tst hcl parked ten apart⟩

/-- Settles O8. -/
theorem controlRegisters : Obligations.ControlRegisters := ⟨controlReads, controlFaults, controlWrites⟩

end Sys2Proof.Machine
end

section
/-!
PROOFS. Taking a fault (R38, R44, R291 to R294): the records, the PARKED slot and the way of the peg.
-/

namespace Sys2Proof.Machine

/-! ### The way of a peg -/

section
variable (s : State) {c : Nat} {n : Fin 8} (p : FaultPeg)

/-- Whether a peg goes to the service OS (R293). -/
def State.toService (s : State) (c : Nat) (n : Fin 8) (p : FaultPeg) : Prop :=
  p.cls = 0x04 ∨ p.cls = 0x0F ∨ (s.core c).handlerTenant ≠ some (s.slot c n).tenant ∨ (s.slot c n).hcl = true

/-- Whether a peg stays in its slot: queue 7 is full, or the peg of a lower slot waits (R294). -/
def State.pegStays (s : State) (c : Nat) (n : Fin 8) : Prop :=
  16 ≤ ((s.core c).queue 7).entries.length + ((s.core c).queue 7).reserved ∨
    ∃ m : Fin 8, m < n ∧ ∃ p, ((s.core c).slot m).peg = some (.slot p)

theorem Core.pegWaits_iff (k : Core) (n : Fin 8) :
    k.pegWaits n = true ↔ ∃ m : Fin 8, m < n ∧ ∃ p, (k.slot m).peg = some (.slot p) := by
  simp only [Core.pegWaits, List.any_eq_true, List.mem_finRange, true_and, Bool.and_eq_true, decide_eq_true_eq]
  refine exists_congr fun m => and_congr_right fun _ => ?_
  rcases (k.slot m).peg with _ | (_ | _) <;> simp

/-- A peg for the service OS is noted in its slot. -/
theorem State.routePeg_service (h : s.toService c n p) :
    s.routePeg c n p = s.updSlot c n fun t => { t with peg := some (.service p) } := by
  unfold State.routePeg
  exact if_pos (by simpa [State.toService, or_assoc] using h)

theorem State.routePeg_deliver (h : ¬s.toService c n p) : s.routePeg c n p = s.deliverPeg c n p := by
  unfold State.routePeg
  exact if_neg (by simpa [State.toService, or_assoc] using h)

theorem State.pegStays_iff : s.pegStays c n ↔
    (((s.core c).queue 7).free = 0 || (s.core c).pegWaits n) = true := by
  rw [State.pegStays, Bool.or_eq_true, Core.pegWaits_iff, decide_eq_true_eq, Queue.free]
  exact or_congr_left (by omega)

theorem State.deliverPeg_stays (h : s.pegStays c n) :
    s.deliverPeg c n p = s.updSlot c n fun t => { t with peg := some (.slot p) } := by
  unfold State.deliverPeg
  exact if_pos (s.pegStays_iff.mp h)

theorem State.deliverPeg_enters (h : ¬s.pegStays c n) : s.deliverPeg c n p =
    (s.updCore c fun k => k.setQueue 7 { k.queue 7 with entries := (k.queue 7).entries ++ [⟨p.words, none⟩] }).updSlot c n
      fun t => { t with peg := none } := by
  unfold State.deliverPeg
  exact if_neg (mt s.pegStays_iff.mpr h)

/-- The way of a peg, by what its slot holds of it and what enters queue 7 (R293, R294). -/
def State.PegGoes (s : State) (c : Nat) (n : Fin 8) (p : FaultPeg) (w : Option PegPlace) (l : List QEntry) : Prop :=
  s.toService c n p ∧ w = some (.service p) ∧ l = [] ∨
  ¬s.toService c n p ∧ s.pegStays c n ∧ w = some (.slot p) ∧ l = [] ∨
  ¬s.toService c n p ∧ ¬s.pegStays c n ∧ w = none ∧ l = [⟨p.words, none⟩]

/-- What a slot and queue 7 of its core hold after its peg has gone its way. -/
theorem State.routePeg_leaves : ∃ w l, (s.routePeg c n p).slot c n = { s.slot c n with peg := w } ∧
    (((s.routePeg c n p).core c).queue 7).entries = ((s.core c).queue 7).entries ++ l ∧ s.PegGoes c n p w l := by
  have noted (f : Slot → Slot) : (s.updSlot c n f).slot c n = f (s.slot c n) ∧
      (((s.updSlot c n f).core c).queue 7).entries = ((s.core c).queue 7).entries ++ [] := by
    rw [State.updSlot_eq, State.slot_setSlot, State.core_setSlot, if_pos rfl, List.append_nil]
    exact ⟨rfl, rfl⟩
  by_cases service : s.toService c n p
  · rw [s.routePeg_service p service]
    exact ⟨_, [], (noted _).1, (noted _).2, .inl ⟨service, rfl, rfl⟩⟩
  · rw [s.routePeg_deliver p service]
    by_cases stays : s.pegStays c n
    · rw [s.deliverPeg_stays p stays]
      exact ⟨_, [], (noted _).1, (noted _).2, .inr (.inl ⟨service, stays, rfl, rfl⟩)⟩
    · rw [s.deliverPeg_enters p stays]
      refine ⟨none, _, ?_, ?_, .inr (.inr ⟨service, stays, rfl, rfl⟩)⟩
      · rw [State.updSlot_eq, State.slot_setSlot, State.slot_updCore _ _ _ rfl]
      · rw [State.updSlot_eq, State.core_setSlot, if_pos rfl, State.updCore_eq, State.core_setCore]
        simp [Core.queue, Core.setQueue, Core.setSlot]

theorem State.slot_routePeg_ne {d : Nat} {m : Fin 8} (h : ¬(d = c ∧ m = n)) : (s.routePeg c n p).slot d m = s.slot d m := by
  by_cases service : s.toService c n p
  · rw [s.routePeg_service p service, State.updSlot_eq, State.slot_setSlot_ne _ _ h]
  · rw [s.routePeg_deliver p service]
    by_cases stays : s.pegStays c n
    · rw [s.deliverPeg_stays p stays, State.updSlot_eq, State.slot_setSlot_ne _ _ h]
    · rw [s.deliverPeg_enters p stays, State.updSlot_eq, State.slot_setSlot_ne _ _ h, State.slot_updCore _ _ _ rfl]

end

/-! ### A fault of the issuing thread -/

section
variable (s : State) (f : FaultInfo)

/-- The slot of the issuing thread, PARKED with the records of a fault (R38, R291). -/
def State.parkedFor : Slot :=
  { s.me.idle with
    state := .parked, pendFault := none, faultPc := s.regs.pc
    faultCause := causeWord f.cls f.detail (decide (s.me.gang ≠ 0)) f.scope, faultAddr := f.addr }

/-- The peg of a fault of the issuing thread (R292). -/
def State.pegFor : FaultPeg :=
  ⟨f.addr, s.regs.pc, f.cls, f.detail, decide (s.me.gang ≠ 0), 0, s.me.gen, s.curSlot⟩

/-- The state in which the issuing thread's slot is PARKED and its peg has not gone yet. -/
def State.parkMe : State := s.setSlot s.curCore s.curSlot (s.parkedFor f)

theorem State.trapMe_eq (h : (s.core s.curCore).seqBusy s.curSlot = false) :
    s.trapMe f = (s.parkMe f).routePeg s.curCore s.curSlot (s.pegFor f) := by
  unfold State.trapMe State.trap
  exact if_neg (by simp [h])

theorem State.cur_routePeg (c : Nat) (n : Fin 8) (p : FaultPeg) :
    (s.routePeg c n p).curCore = s.curCore ∧ (s.routePeg c n p).curSlot = s.curSlot := by
  unfold State.routePeg State.deliverPeg
  dsimp only
  split
  · exact ⟨rfl, rfl⟩
  · split <;> exact ⟨rfl, rfl⟩

theorem causeWord_eq (cls detail : BitVec 8) (gang : Bool) (scope : BitVec 3) : causeWord cls detail gang scope =
    BitVec.ofNat 32 (cls.toNat * 2 ^ 24 + detail.toNat * 2 ^ 16 + (if gang then 8 else 0) + scope.toNat) := by
  refine BitVec.eq_of_toNat_eq ?_
  have := cls.isLt; have := detail.isLt; have := scope.isLt
  unfold causeWord
  simp only [toNat_append_eq, bit_toNat, BitVec.toNat_ofNat]
  cases gang <;> simp <;> omega

/-- What is read of the thread's core where its peg goes is as before its slot was PARKED. -/
theorem State.parkMe_reads : (s.parkMe f).slot s.curCore s.curSlot = s.parkedFor f ∧
    ((s.parkMe f).core s.curCore).queue 7 = (s.core s.curCore).queue 7 ∧
    ((s.parkMe f).toService s.curCore s.curSlot (s.pegFor f) ↔ s.toService s.curCore s.curSlot (s.pegFor f)) ∧
    ((s.parkMe f).pegStays s.curCore s.curSlot ↔ s.pegStays s.curCore s.curSlot) := by
  have core : (s.parkMe f).core s.curCore = (s.core s.curCore).setSlot s.curSlot (s.parkedFor f) := by
    rw [State.parkMe, State.core_setSlot, if_pos rfl]
  have mine : (s.parkMe f).slot s.curCore s.curSlot = s.parkedFor f := State.slot_setSlot ..
  refine ⟨mine, by rw [core]; rfl, ?_, ?_⟩
  · rw [State.toService, State.toService, mine, core]
    rfl
  · rw [State.pegStays, State.pegStays, core]
    refine or_congr Iff.rfl (exists_congr fun m => and_congr_right fun lower => ?_)
    rw [Core.slot_setSlot_ne _ _ lower.ne]

/-- The thread's slot and queue 7 after a fault. -/
theorem State.trapMe_leaves (h : (s.core s.curCore).seqBusy s.curSlot = false) :
    ∃ w l, (s.trapMe f).me = { s.parkedFor f with peg := w } ∧
      (((s.trapMe f).core s.curCore).queue 7).entries = ((s.core s.curCore).queue 7).entries ++ l ∧
      s.PegGoes s.curCore s.curSlot (s.pegFor f) w l := by
  obtain ⟨mine, queue, service, stays⟩ := s.parkMe_reads f
  obtain ⟨w, l, slot, entries, way⟩ := (s.parkMe f).routePeg_leaves (c := s.curCore) (n := s.curSlot) (s.pegFor f)
  obtain ⟨core, num⟩ := (s.parkMe f).cur_routePeg s.curCore s.curSlot (s.pegFor f)
  rw [← s.trapMe_eq f h] at slot entries core num
  rw [mine] at slot
  rw [queue] at entries
  rw [State.PegGoes, service, stays] at way
  exact ⟨w, l, by rw [State.me, core, num]; exact slot, entries, way⟩

theorem State.slot_trapMe_ne (h : (s.core s.curCore).seqBusy s.curSlot = false) {c : Nat} {n : Fin 8}
    (other : ¬(c = s.curCore ∧ n = s.curSlot)) : (s.trapMe f).slot c n = s.slot c n := by
  rw [s.trapMe_eq f h, State.slot_routePeg_ne _ _ other, State.parkMe, State.slot_setSlot_ne _ _ other]

end

/-- A fault parks its thread with its registers and views, and changes no other slot and no storage. -/
theorem faultEntry : FaultEntry := by
  intro s f idle t u
  obtain ⟨w, _, me, -, -⟩ := s.trapMe_leaves f idle
  have storage := SameStorage.trapMe s f
  rw [show u = { s.parkedFor f with peg := w } from me]
  refine ⟨rfl, rfl, rfl, ?_, rfl, rfl, rfl, rfl, rfl, fun c n => s.slot_trapMe_ne f idle, storage.global, storage.tags,
    storage.locals⟩
  refine (causeWord_eq ..).trans ?_
  by_cases g : s.me.gang = 0 <;> simp [g]

/-- The peg goes to the service OS, waits in its slot, or enters queue 7. -/
theorem faultPegRouting : FaultPegRouting := by
  intro s f idle t k peg service queue7 full behind
  obtain ⟨w, l, me, entries, way⟩ := s.trapMe_leaves f idle
  have pegged : t.me.peg = w := congrArg Slot.peg me
  have queued : queue7 t = queue7 s ++ l := entries
  have toService : s.toService s.curCore s.curSlot (s.pegFor f) ↔ service := Iff.rfl
  have stays : s.pegStays s.curCore s.curSlot ↔ full ∨ behind := Iff.rfl
  rw [State.PegGoes, toService, stays] at way
  rw [pegged, queued]
  rcases way with ⟨h, rfl, rfl⟩ | ⟨h, h', rfl, rfl⟩ | ⟨h, h', rfl, rfl⟩
  · exact ⟨fun _ => ⟨rfl, List.append_nil _⟩, fun n => absurd h n, fun n => absurd h n⟩
  · exact ⟨fun y => absurd y h, fun _ nf nb => absurd h' (not_or.mpr ⟨nf, nb⟩), fun _ _ => ⟨rfl, List.append_nil _⟩⟩
  · exact ⟨fun y => absurd y h, fun _ _ _ => ⟨rfl, rfl⟩, fun _ y => absurd y h'⟩

/-- Settles O10. -/
theorem takingAFault : Obligations.TakingAFault := ⟨faultEntry, faultPegRouting⟩

end Sys2Proof.Machine
end

section
/-!
PROOFS. Starts and ends of threads (R41, R185 to R187): `SPAWN`, `CALLAT` and `QUIT`.
-/

namespace Sys2Proof.Machine

/-! ### What a start and a deposit leave -/

/-- What changes packages only changes no core. -/
theorem OnlyPkgs.core {s t : State} (h : OnlyPkgs s t) (c : Nat) : t.core c = s.core c := by rw [h]; rfl

theorem OnlyPkgs.slot {s t : State} (h : OnlyPkgs s t) (c : Nat) (n : Fin 8) : t.slot c n = s.slot c n :=
  congrArg (Core.slot · n) (h.core c)

theorem OnlyPkgs.scribeAppend (s : State) (c q kind : Nat) (pay : Entry) (ent : Word) (pair : Bool) :
    OnlyPkgs s (s.scribeAppend c q kind pay ent pair).1 := by
  unfold State.scribeAppend
  dsimp only
  split
  · rfl
  · split <;> rfl

/-- What the scribe logs of a pushed entry: queue 7 has no log. -/
theorem OnlyPkgs.pushLogged (s : State) (c q kind : Nat) (e : Entry) (pair : Bool) :
    OnlyPkgs s (if q = 7 then (s, none) else s.scribeAppend c q kind e 0 pair).1 := by
  split
  · rfl
  · exact .scribeAppend ..

theorem OnlyPkgs.scribePop (s : State) (c : Nat) (seq : Option Nat) (owner : Option (Fin 8 × BitVec 8)) :
    OnlyPkgs s (s.scribePop c seq owner) := by
  unfold State.scribePop
  split
  · rfl
  · exact .updPkg ..

/-- The thread that a `SPAWN` or a launch starts in a slot (R41, R185, R287). -/
def Core.launched (k : Core) (c : Nat) (n : Fin 8) (ten : Nat) (entry : Word) (bound : BitVec 3) (prio : BitVec 2)
    (peg : Entry) : Slot :=
  { Slot.initial with
    home := c, gen := (k.slot n).gen, issued := (k.slot n).issued, state := .ready, tenant := ten, code := k.codeOf ten
    bound := bound, prio := prio, lch := true, regs := k.startRegs [peg] (k.partBase ten) entry }

/-- A start puts its thread into the slot and else changes packages only. -/
theorem State.startLaunched_eq (s : State) (c : Nat) (n : Fin 8) (ten : Nat) (entry : Word) (bound : BitVec 3)
    (prio : BitVec 2) (peg : Entry) : ∃ t, OnlyPkgs s t ∧
      s.startLaunched c n ten entry bound prio peg = t.setSlot c n ((s.core c).launched c n ten entry bound prio peg) := by
  have logged : OnlyPkgs s ((s.scribeAppend c bound.toNat 4 peg entry false).1.scribePop c
      (s.scribeAppend c bound.toNat 4 peg entry false).2 none) :=
    (OnlyPkgs.scribeAppend ..).trans (.scribePop ..)
  exact ⟨_, logged, by rw [← logged.core c]; rfl⟩

/-- A start of class compute takes a FREE slot. -/
theorem Core.free_of_startSlot {k : Core} {n : Fin 8} (h : k.startSlot = some n) : (k.slot n).state = .free := by
  have mem : n ∈ k.freeSlots := by
    unfold Core.startSlot at h
    split at h
    · cases h
    · split at h <;> cases h
      simp [*]
    · cases h
      simp [*]
  simpa [Core.freeSlots] using mem

/-- The registers of the issuing thread where its slot is as before. -/
theorem State.regs_eq_of_slot {s t : State} (core : t.curCore = s.curCore) (num : t.curSlot = s.curSlot)
    (slot : t.slot s.curCore s.curSlot = s.slot s.curCore s.curSlot) : t.regs = s.regs := by
  rw [State.regs, State.me, core, num, slot, State.regs, State.me]

/-- A start in a slot that is FREE leaves the registers of a thread that is READY. -/
theorem State.regs_startLaunched (s : State) {c : Nat} {n : Fin 8} (ten : Nat) (entry : Word) (bound : BitVec 3)
    (prio : BitVec 2) (peg : Entry) (ready : s.me.state = .ready) (free : (s.slot c n).state = .free) :
    (s.startLaunched c n ten entry bound prio peg).regs = s.regs := by
  obtain ⟨t, h, e⟩ := s.startLaunched_eq c n ten entry bound prio peg
  have other : ¬(s.curCore = c ∧ s.curSlot = n) := by
    rintro ⟨rfl, rfl⟩
    exact absurd (ready.symm.trans free) (by decide)
  have here : t.curCore = s.curCore ∧ t.curSlot = s.curSlot := by rw [h]; exact ⟨rfl, rfl⟩
  rw [e]
  refine State.regs_eq_of_slot here.1 here.2 ?_
  rw [State.slot_setSlot_ne _ _ other, h.slot]

/-! #### Deposits -/

section
variable (s : State) (c ten idx : Nat) (peg : Entry)

/-- The pegs pooled for a stage by its index. -/
def State.pooledAt (s : State) (c ten idx : Nat) : Nat := ((s.pkg (pkgOf c)).pool ten).pooled c (Fin.ofNat 16 idx)

theorem State.deposit_none (h : (s.core c).stageOf ten idx = none) : s.deposit c ten idx peg = (s, 3) := by
  simp [State.deposit, h]

variable {g : Stage} (h : (s.core c).stageOf ten idx = some g)
include h

theorem State.deposit_enters (empty : s.pooledAt c ten idx = 0) (room : 1 ≤ ((s.core c).queue g.inq).free) :
    s.deposit c ten idx peg = (s.pushQueue c g.inq 1 peg false false, 0) := by
  rw [State.pooledAt] at empty
  have enters : ((s.pkg (pkgOf c)).pool ten).pooled c (Fin.ofNat 16 idx) = 0 ∧ 1 ≤ ((s.core c).queue g.inq).free := ⟨empty, room⟩
  simp only [State.deposit, h, Bool.and_eq_true, decide_eq_true_eq, enters, and_self, if_true]

theorem State.deposit_pooled (held : s.pooledAt c ten idx ≠ 0 ∨ ((s.core c).queue g.inq).free = 0)
    (space : s.pooledAt c ten idx < g.quota ∨ 1 ≤ s.sharedFree (pkgOf c) ten) : s.deposit c ten idx peg =
      (s.updPkg (pkgOf c) (·.updPool ten (· ++ [.peg c (Fin.ofNat 16 idx) peg])), 1) := by
  rw [State.pooledAt] at held space
  have waits : ¬(((s.pkg (pkgOf c)).pool ten).pooled c (Fin.ofNat 16 idx) = 0 ∧ 1 ≤ ((s.core c).queue g.inq).free) := by omega
  simp only [State.deposit, h, Bool.and_eq_true, Bool.or_eq_true, decide_eq_true_eq, waits, space, if_true, if_false]

theorem State.deposit_refused (held : s.pooledAt c ten idx ≠ 0 ∨ ((s.core c).queue g.inq).free = 0)
    (quota : g.quota ≤ s.pooledAt c ten idx) (full : s.sharedFree (pkgOf c) ten = 0) :
    s.deposit c ten idx peg = (s, 2) := by
  rw [State.pooledAt] at held quota
  have waits : ¬(((s.pkg (pkgOf c)).pool ten).pooled c (Fin.ofNat 16 idx) = 0 ∧ 1 ≤ ((s.core c).queue g.inq).free) := by omega
  have space : ¬(((s.pkg (pkgOf c)).pool ten).pooled c (Fin.ofNat 16 idx) < g.quota ∨ 1 ≤ s.sharedFree (pkgOf c) ten) := by omega
  simp only [State.deposit, h, Bool.and_eq_true, Bool.or_eq_true, decide_eq_true_eq, waits, space, if_false]

end

/-- A push changes no register. -/
theorem State.regs_pushQueue (s : State) (c q kind : Nat) (e : Entry) (resv pair : Bool) :
    (s.pushQueue c q kind e resv pair).regs = s.regs := by
  have logged := OnlyPkgs.pushLogged s c q kind e pair
  have here : (s.pushQueue c q kind e resv pair).curCore = s.curCore ∧
      (s.pushQueue c q kind e resv pair).curSlot = s.curSlot := by
    unfold State.pushQueue
    dsimp only
    rw [logged]
    exact ⟨rfl, rfl⟩
  exact State.regs_eq_of_slot here.1 here.2 (s.slot_pushQueue ..)

/-- A pushed entry stands last in its queue. -/
theorem State.words_pushQueue (s : State) (c q kind : Nat) (e : Entry) (resv pair : Bool) :
    (((s.pushQueue c q kind e resv pair).core c).queue q).entries.map (·.words) =
      ((s.core c).queue q).entries.map (·.words) ++ [e] := by
  have logged := OnlyPkgs.pushLogged s c q kind e pair
  unfold State.pushQueue
  dsimp only
  rw [State.updCore_eq, State.core_setCore, logged.core]
  simp [Core.queue, Core.setQueue]

/-- A deposit changes no register. -/
theorem State.regs_deposit (s : State) (c ten idx : Nat) (peg : Entry) : (s.deposit c ten idx peg).1.regs = s.regs := by
  unfold State.deposit
  dsimp only
  split
  · rfl
  · split
    · exact s.regs_pushQueue ..
    · split
      · exact State.regs_eq_of_slot rfl rfl rfl
      · rfl

/-! ### Requests served at once -/

theorem State.checkName_of_good {s : State} {x : Word} (h : s.goodName x.toNat = true) : s.checkName x = .ok x.toNat := by
  simp [State.checkName, h]

/-- A request near its thread that nothing comes before is answered in the step. -/
theorem State.request_near (s : State) {i : Instr} {d : BitVec 5} {dst : Nat} {x : Payload} {after : Bool}
    {near : State → State × Word} (free : s.releasing = false) (path : s.path s.home dst = .near) (first : after = false) :
    s.request i d dst x after near =
      .ok ((near s).1.setRegs (((near s).1.regs.setVal d (near s).2).advance 4)) := by
  rw [State.home] at path
  simp [State.request, free, path, first]

/-- An instruction whose body leaves the registers and answers a word is completed with the word in its destination. -/
theorem State.issue_answers (s t : State) {a d : BitVec 5} {v : Word} {body : State → Run} (ports : s.portsReady [a] [d])
    (same : t.regs = s.regs) (h : body s = .ok (t.setRegs ((t.regs.setVal d v).advance 4))) :
    s.issue [a] [d] body = t.completed [a] [d] (s.wrote d v 4) := by
  rw [s.issue_of_ok _ ports h, State.regs_setRegs, State.completed_setRegs, same]
  rfl

section
variable {s : State} {d a b : BitVec 5} {e q : BitVec 3} {stage : BitVec 4} {dst : Nat}

/-- `SPAWN` served in the step. -/
theorem State.spawn_near (views : s.me.views = []) (dest : (s.regs.val a).toNat = dst) (name : s.goodName dst = true)
    (path : s.path s.home dst = .near) (free : s.releasing = false) (ports : s.portsReady [a] [d])
    (even : (s.regs.ext e).getLsbD 0 = false) (first : s.startsFirst dst = false) {t : State} {v : Word}
    (served : s.serveSpawn dst s.me.tenant (s.regs.ext e) q s.me.prio (s.regs.peg b) = (t, v)) (same : t.regs = s.regs) :
    exec (.spawn d a b e q) s = .next (t.completed [a] [d] (s.wrote d v 4)) := by
  show execSpawn d a b e q s = _
  rw [execSpawn, s.issue_answers t ports same]
  subst dest
  have even' : (s.me.regs.ext e).getLsbD 0 = false := even
  have named : s.checkName (s.me.regs.val a) = .ok (s.me.regs.val a).toNat := State.checkName_of_good name
  dsimp only
  rw [even', named]
  simp only [Bool.false_eq_true, if_false, views, ne_eq, not_true]
  refine (s.request_near free path first).trans ?_
  exact congrArg (fun x : State × Word => Except.ok (x.1.setRegs ((x.1.regs.setVal d x.2).advance 4))) served

/-- `CALLAT` served in the step. -/
theorem State.callat_near (views : s.me.views = []) (dest : (s.regs.val a).toNat = dst) (name : s.goodName dst = true)
    (path : s.path s.home dst = .near) (free : s.releasing = false) (ports : s.portsReady [a] [d]) {u : State × Word}
    (served : s.deposit dst s.me.tenant stage.toNat (s.regs.peg b) = u) :
    exec (.callat d a b stage) s = .next (u.1.completed [a] [d] (s.wrote d u.2 4)) := by
  show execCallat d a b stage s = _
  subst dest served
  rw [execCallat, s.issue_answers _ ports (s.regs_deposit ..)]
  have named : s.checkName (s.me.regs.val a) = .ok (s.me.regs.val a).toNat := State.checkName_of_good name
  dsimp only
  rw [named]
  simp only [if_false, views, ne_eq, not_true]
  exact s.request_near free path rfl

theorem State.serveSpawn_no_stage {c ten : Nat} (entry : Word) (bound : BitVec 3) (prio : BitVec 2) (peg : Entry)
    (h : (s.core c).holdsStage ten = false) : s.serveSpawn c ten entry bound prio peg = (s, 0x80000003) := by
  simp [State.serveSpawn, h]

theorem State.serveSpawn_full {c ten : Nat} (entry : Word) (bound : BitVec 3) (prio : BitVec 2) (peg : Entry)
    (h : (s.core c).holdsStage ten = true) (none : (s.core c).startSlot = none) :
    s.serveSpawn c ten entry bound prio peg = (s, 0x80000001) := by
  simp [State.serveSpawn, h, none]

theorem State.serveSpawn_starts {c ten : Nat} {n : Fin 8} (entry : Word) (bound : BitVec 3) (prio : BitVec 2) (peg : Entry)
    (h : (s.core c).holdsStage ten = true) (slot : (s.core c).startSlot = some n) :
    s.serveSpawn c ten entry bound prio peg = (s.startLaunched c n ten entry bound prio peg,
      (returnTag n ((s.core c).slot n).gen).zeroExtend 32) := by
  simp [State.serveSpawn, h, slot]

/-- Inside a view `SPAWN` and `CALLAT` escape. -/
theorem State.spawn_escapes (views : s.me.views ≠ []) (name : s.goodName (s.regs.val a).toNat = true)
    (even : (s.regs.ext e).getLsbD 0 = false) (ports : s.portsReady [a] [d]) :
    exec (.spawn d a b e q) s = .next (s.trapMe escape) := by
  show execSpawn d a b e q s = _
  rw [execSpawn, s.issue_of_trap s ports]
  have even' : (s.me.regs.ext e).getLsbD 0 = false := even
  have named : s.checkName (s.me.regs.val a) = .ok (s.me.regs.val a).toNat := State.checkName_of_good name
  dsimp only
  rw [even', named]
  simp [views]

theorem State.callat_escapes (views : s.me.views ≠ []) (name : s.goodName (s.regs.val a).toNat = true)
    (ports : s.portsReady [a] [d]) : exec (.callat d a b stage) s = .next (s.trapMe escape) := by
  show execCallat d a b stage s = _
  rw [execCallat, s.issue_of_trap s ports]
  have named : s.checkName (s.me.regs.val a) = .ok (s.me.regs.val a).toNat := State.checkName_of_good name
  dsimp only
  rw [named]
  simp [views]

end

/-! ### Ends -/

/-- The two forms of `QUIT` share one body. -/
theorem exec_quit (s : State) {i : Instr} (h : i ∈ [Instr.quit, .quitShort]) :
    exec i s = .next (s.issue [] [] State.quitBody) := by
  simp only [List.mem_cons, List.not_mem_nil, or_false] at h
  rcases h with rfl | rfl <;> rfl

/-- A slot that becomes FREE has its next generation and every register at zero (R18). -/
theorem State.slot_freeSlot (s : State) (c : Nat) (n : Fin 8) : (s.freeSlot c n).slot c n =
    { Slot.initial with home := c, gen := (s.slot c n).gen + 1, issued := (s.slot c n).issued } := by
  have retired (t : State) (g : BitVec 8) : (t.scribeRetire c n g).slot c n = t.slot c n := rfl
  unfold State.freeSlot
  dsimp only
  split
  · rw [retired]
    exact State.slot_setSlot ..
  · rw [State.slot_unreserve, retired]
    exact State.slot_setSlot ..

theorem State.cur_freeSlot (s : State) (c : Nat) (n : Fin 8) :
    (s.freeSlot c n).curCore = s.curCore ∧ (s.freeSlot c n).curSlot = s.curSlot := by
  have given (t : State) (c q n : Nat) : (t.unreserve c q n).curCore = t.curCore ∧ (t.unreserve c q n).curSlot = t.curSlot := by
    unfold State.unreserve
    split <;> exact ⟨rfl, rfl⟩
  unfold State.freeSlot
  dsimp only
  split
  · exact ⟨rfl, rfl⟩
  · exact given ..

/-- Outside a view `QUIT` frees the thread's slot. -/
theorem exec_quit_frees (s : State) {i : Instr} (h : i ∈ [Instr.quit, .quitShort]) (views : s.me.views = []) :
    ∃ t : State, exec i s = .next t ∧ t.slot s.curCore s.curSlot =
      { Slot.initial with home := s.curCore, gen := s.me.gen + 1, issued := s.me.issued } := by
  have body : s.quitBody = .ok (s.freeSlot s.curCore s.curSlot) := if_neg (not_not_intro views)
  refine ⟨_, (exec_quit s h).trans (congrArg _ (s.issue_of_ok _ s.portsReady_nil body)), ?_⟩
  have here : (s.freeSlot s.curCore s.curSlot).curCore = s.curCore ∧
      (s.freeSlot s.curCore s.curSlot).curSlot = s.curSlot := s.cur_freeSlot ..
  have freed := s.slot_freeSlot s.curCore s.curSlot
  rw [State.completed, if_neg List.not_mem_nil, State.setRegs_eq, here.1, here.2, State.slot_setSlot, State.regs, State.me,
    here.1, here.2, freed]
  rfl

/-- Inside a view `QUIT` escapes. -/
theorem exec_quit_escapes (s : State) {i : Instr} (h : i ∈ [Instr.quit, .quitShort]) (views : s.me.views ≠ []) :
    exec i s = .next (s.trapMe escape) := by
  have body : s.quitBody = .error (.trap s escape) := if_pos views
  exact (exec_quit s h).trans (congrArg _ (s.issue_of_trap s s.portsReady_nil body))

/-- Settles O30. -/
theorem startsAndEnds : Obligations.StartsAndEnds := by
  intro s d a b e q stage r me dst k peg spawn call answers u
  refine ⟨fun views name path free ports => ⟨fun even first ready => ⟨fun none => ?_, fun holds full => ?_,
    fun n holds slot => ?_⟩, ?_, fun none => s.deposit_none _ _ _ _ none, fun g stageOf => ?_⟩, fun views i h =>
    exec_quit_frees s h views, fun views name even ports i h => ?_⟩
  · exact State.spawn_near views rfl name path free ports even first (s.serveSpawn_no_stage _ _ _ _ none) rfl
  · exact State.spawn_near views rfl name path free ports even first (s.serveSpawn_full _ _ _ _ holds full) rfl
  · obtain ⟨t, -, started⟩ := s.startLaunched_eq dst n me.tenant (r.ext e) q me.prio peg
    refine ⟨s.startLaunched dst n me.tenant (r.ext e) q me.prio peg, ?_, by rw [started, State.slot_setSlot]; rfl⟩
    exact State.spawn_near views rfl name path free ports even first (s.serveSpawn_starts _ _ _ _ holds slot)
      (s.regs_startLaunched _ _ _ _ _ ready (Core.free_of_startSlot slot))
  · exact State.callat_near views rfl name path free ports rfl
  · intro pooled
    have index : Fin.ofNat 16 stage.toNat = stage.toFin := Fin.ext (Nat.mod_eq_of_lt stage.isLt)
    have at_ : s.pooledAt dst me.tenant stage.toNat = pooled := by rw [State.pooledAt, index]
    refine ⟨fun empty room => ?_, fun held => ⟨fun space => ?_, fun quota full => ?_⟩⟩
    · have enters : u = _ := s.deposit_enters _ _ _ peg stageOf (at_.trans empty) room
      rw [enters]
      exact ⟨rfl, s.words_pushQueue ..⟩
    · rw [← index]
      exact s.deposit_pooled _ _ _ peg stageOf (by rwa [at_]) (by rwa [at_])
    · exact s.deposit_refused _ _ _ peg stageOf (by rwa [at_]) (by rwa [at_]) full
  · simp only [List.mem_cons, List.not_mem_nil, or_false] at h
    rcases h with rfl | rfl | quit
    · exact State.spawn_escapes views name even ports
    · exact State.callat_escapes views name ports
    · exact exec_quit_escapes s (by simpa using quit) views

end Sys2Proof.Machine
end

section
/-!
PROOFS. The pipes of the sequencer (R147, R148, R290): the slot a pipe serves in a cycle, the entry it takes, and when.
-/

namespace Sys2Proof.Machine

/-- Whether an entry's next form is one for a pipe (R290). -/
def SeqEntry.forPipe (special : Bool) (x : SeqEntry) : Bool := x.form.any (·.specialPipe == special)

theorem SeqEntry.forPipe_iff {special : Bool} {x : SeqEntry} :
    x.forPipe special = true ↔ ∃ f, x.form = some f ∧ f.specialPipe = special := by
  simp [SeqEntry.forPipe, Option.any_eq_true]

/-! ### The entry that a pipe can take of a slot -/

/-- The oldest entry of a slot for a pipe, and those before it. -/
theorem Core.pipeEntry_eq {k : Core} {special : Bool} {n : Fin 8} {before after : List SeqEntry} {e : SeqEntry}
    (mine : k.seq.filter (·.slot == n) = before ++ e :: after) (others : ∀ x ∈ before, x.forPipe special = false)
    (first : e.forPipe special = true) : k.pipeEntry special n = some (before, e) := by
  have found : (before ++ e :: after).find? (SeqEntry.forPipe special) = some e := by
    rw [List.find?_append, List.find?_eq_none.mpr (by simpa using others), List.find?_cons_of_pos first]
    rfl
  have passed : (before ++ e :: after).takeWhile (fun x => !x.forPipe special) = before := by
    rw [List.takeWhile_append_of_pos (by simpa using others), List.takeWhile_cons_of_neg (by simpa using first),
      List.append_nil]
  show ((k.seq.filter (·.slot == n)).find? (SeqEntry.forPipe special)).map
    (fun e => ((k.seq.filter (·.slot == n)).takeWhile (fun x => !x.forPipe special), e)) = _
  rw [mine, found, Option.map_some, passed]

section
variable {s : State} {c : Nat} {special : Bool} {n : Fin 8} {e : SeqEntry}

/-- A thread's oldest entry is ready for its pipe when the sequencer may perform it. -/
theorem State.pipeReady_of_oldest (h : (s.core c).pipeEntry special n = some ([], e)) :
    s.pipeReady c special n = s.seqReady c n := by
  simp [State.pipeReady, h]

/-- An entry behind others is ready for its pipe when it is not taken, is no gang's, and waits for none of them. -/
theorem State.pipeReady_of_behind {before : List SeqEntry} {v : VForm} (h : (s.core c).pipeEntry special n = some (before, e))
    (form : e.form = some v) (behind : before ≠ []) : s.pipeReady c special n = true ↔
      e.taken = false ∧ e.gang = 0 ∧ ∀ x ∈ before, x.written.meets v.used = false := by
  cases before with
  | nil => exact absurd rfl behind
  | cons x l => simp [State.pipeReady, h, form, and_assoc]

/-- A pipe's turn taken leaves the entries. -/
theorem State.seqTake_pipeTakes {at_ : Nat} {before : List SeqEntry} (h : (s.core c).pipeEntry special n = some (before, e)) :
    (s.updCore c (·.pipeTakes special n at_)).seqTake c special n =
      if before = [] then (s.updCore c (·.pipeTakes special n at_)).seqPerform c n
      else (s.updCore c (·.pipeTakes special n at_)).updCore c (·.seqMark special n) := by
  have entry : ((s.updCore c (·.pipeTakes special n at_)).core c).pipeEntry special n = some (before, e) := by
    rw [State.updCore_eq, State.core_setCore]
    exact h
  unfold State.seqTake
  rw [entry]
  cases before <;> rfl

/-! ### The slot that a pipe serves -/

variable (cycle : Nat)

/-- The turns that the slot table leaves to handler threads, and the slot that it names in the others (R290). -/
theorem State.tableSlot_handlers (turn : 28 ≤ cycle % 32) : s.tableSlot c special cycle =
    (List.finRange 8).find? fun n => ((s.core c).slot n).hcl && s.pipeReady c special n := if_pos turn

theorem State.tableSlot_row (turn : cycle % 32 < 28) : s.tableSlot c special cycle =
    if (s.core c).turns[Fin.ofNat 32 cycle].getLsbD 7 &&
      s.pipeReady c special (Fin.ofNat 8 ((s.core c).turns[Fin.ofNat 32 cycle].toNat % 8))
    then some (Fin.ofNat 8 ((s.core c).turns[Fin.ofNat 32 cycle].toNat % 8)) else none := if_neg (by simpa using turn)

theorem State.pipeChoice_of_table (h : s.tableSlot c special cycle = some n) :
    s.pipeChoice c special cycle = some n := by simp [State.pipeChoice, h]

theorem State.pipeChoice_of_rotation (h : s.tableSlot c special cycle = none) : s.pipeChoice c special cycle =
    (slotsAfter (if special then (s.core c).served.2 else (s.core c).served.1)).find? (s.pipeReady c special) := by
  simp [State.pipeChoice, h]

end

/-- The slot that the table's row names, where it names one that is ready. -/
theorem State.tableSlot_named {s : State} {c : Nat} {special : Bool} {cycle : Nat} {n : Fin 8} (turn : cycle % 32 < 28)
    (used : (s.core c).turns[Fin.ofNat 32 cycle].getLsbD 7 = true)
    (name : (s.core c).turns[Fin.ofNat 32 cycle].toNat % 8 = n.val) (ready : s.pipeReady c special n = true) :
    s.tableSlot c special cycle = some n := by
  have slot : Fin.ofNat 8 n.val = n := Fin.ext (Nat.mod_eq_of_lt n.isLt)
  rw [State.tableSlot_row _ turn, name, slot, used, ready]
  rfl

/-- A row that names no slot which is ready gives the turn to none. -/
theorem State.tableSlot_unnamed {s : State} {c : Nat} {special : Bool} {cycle : Nat} (turn : cycle % 32 < 28)
    (none_ : ∀ i : Fin 8, ¬((s.core c).turns[Fin.ofNat 32 cycle].getLsbD 7 = true ∧
      (s.core c).turns[Fin.ofNat 32 cycle].toNat % 8 = i.val ∧ s.pipeReady c special i = true)) :
    s.tableSlot c special cycle = none := by
  rw [State.tableSlot_row _ turn, if_neg]
  rw [Bool.and_eq_true]
  rintro ⟨used, ready⟩
  exact none_ _ ⟨used, (Nat.mod_eq_of_lt (Nat.mod_lt _ (by decide))).symm, ready⟩

/-! ### The pipe's step -/

/-- Whether a pipe takes an entry now: its cycle is the core's, or no slot of the core can issue before (entry 2). -/
def Core.pipeOpen (k : Core) (special : Bool) : Prop :=
  k.pipeCycle special = k.cycle ∨ ∀ i, (k.slot i).state ≠ .ready

theorem Core.pipeOpen_iff {k : Core} {special : Bool} : k.pipeOpen special ↔
    ¬(k.pipeCycle special != k.cycle && k.slots.toList.any (·.state == .ready)) = true := by
  have idle : (∀ i, (k.slot i).state ≠ .ready) ↔ k.slots.toList.any (·.state == .ready) = false := by
    simp only [List.any_eq_false, Vector.mem_toList_iff, beq_iff_eq]
    exact ⟨fun h x hx => by obtain ⟨i, hi, rfl⟩ := Vector.getElem_of_mem hx; exact h ⟨i, hi⟩,
      fun h i => h _ (Vector.getElem_mem i.isLt)⟩
  rw [Core.pipeOpen, idle, Bool.and_eq_true, not_and_or, bne_iff_ne, not_not, Bool.not_eq_true]

section
variable {s : State} {core : Nat} {special : Bool}

/-- A pipe takes an entry of the slot that it serves. -/
theorem exec_sequencerEntry_takes {n : Fin 8} (running : (s.core core).stopped = false) (now : (s.core core).pipeOpen special)
    (chosen : s.pipeChoice core special ((s.core core).pipeCycle special) = some n) :
    exec (.sequencerEntry core special) s = .next ((s.updCore core
      (·.pipeTakes special n ((s.core core).pipeCycle special))).seqTake core special n) := by
  show execSequencerEntry core special s = _
  simp only [execSequencerEntry, running, Core.pipeOpen_iff.mp now, chosen, Bool.false_or, Bool.false_eq_true,
    if_false]

/-- A pipe of a stopped core, one that waits for the core to issue, and one that finds no entry do nothing. -/
theorem exec_sequencerEntry_idle (h : (s.core core).stopped = true ∨ ¬(s.core core).pipeOpen special ∨
    s.pipeChoice core special ((s.core core).pipeCycle special) = none) :
    exec (.sequencerEntry core special) s = .next s := by
  show execSequencerEntry core special s = _
  rw [execSequencerEntry]
  split
  · rfl
  next open_ =>
    rw [Bool.or_eq_true, not_or, ← Core.pipeOpen_iff] at open_
    obtain ⟨running, now⟩ := open_
    rw [(h.resolve_left running).resolve_left (not_not_intro now)]

end

theorem sequencerPipes : SequencerPipes := by
  intro s core special n before after e v k cycle now row ready handler named chosen mine ours
  have isOurs (x : SeqEntry) : ours x ↔ x.forPipe special = true := SeqEntry.forPipe_iff.symm
  refine ⟨fun turn first lower => ?_, fun turn first => ?_, fun noHandler noName => ?_,
    fun split others form pipe => ?_, fun idle => ?_⟩
  · refine State.pipeChoice_of_table _ (?_)
    rw [State.tableSlot_handlers _ turn, ← Fin.find?_eq_find?_finRange, Fin.find?_eq_some_iff]
    exact ⟨Bool.and_eq_true_iff.mpr first, fun i lt => Bool.eq_false_iff.mpr fun h =>
      lower i lt (Bool.and_eq_true_iff.mp h)⟩
  · obtain ⟨used, name, isReady⟩ := first
    exact State.pipeChoice_of_table _ (State.tableSlot_named turn used name isReady)
  · refine State.pipeChoice_of_rotation _ ?_
    rcases Nat.lt_or_ge (cycle % 32) 28 with turn | turn
    · exact State.tableSlot_unnamed turn (noName turn)
    · rw [State.tableSlot_handlers _ turn, ← Fin.find?_eq_find?_finRange, Fin.find?_eq_none_iff]
      exact fun i => Bool.eq_false_iff.mpr fun h => noHandler turn i (Bool.and_eq_true_iff.mp h)
  · have entry : k.pipeEntry special n = some (before, e) := Core.pipeEntry_eq split
      (fun x hx => Bool.eq_false_iff.mpr (mt (isOurs x).mpr (others x hx))) ((isOurs e).mp ⟨v, form, pipe⟩)
    refine ⟨?_, fun behind => State.pipeReady_of_behind entry form behind, fun running open_ choice => ?_⟩
    · rintro rfl
      exact Bool.eq_iff_iff.mp (State.pipeReady_of_oldest entry)
    · exact (exec_sequencerEntry_takes running open_ choice).trans (congrArg _ (State.seqTake_pipeTakes entry))
  · exact exec_sequencerEntry_idle idle

end Sys2Proof.Machine
end

section
/-!
PROOFS. Threads start and wake (R31, R123, R159, R178, R218, R279 to R287, R336).
-/

namespace Sys2Proof.Machine

/-! ### Firing a stage (R281, R282) -/

/-- What popping the entries of a firing keeps of a core: its slots, and the threads that live of each stage. -/
structure KeepsStarts (c : Nat) (s t : State) : Prop where
  slot : ∀ n, t.slot c n = s.slot c n
  live : ∀ i : Fin 16, (t.core c).stages[i].live = (s.core c).stages[i].live

theorem KeepsStarts.refl (c : Nat) (s : State) : KeepsStarts c s s := ⟨fun _ => rfl, fun _ => rfl⟩

theorem KeepsStarts.trans {c : Nat} {s t u : State} (h : KeepsStarts c s t) (g : KeepsStarts c t u) : KeepsStarts c s u :=
  ⟨fun n => (g.slot n).trans (h.slot n), fun i => (g.live i).trans (h.live i)⟩

theorem OnlyPkgs.keepsStarts {s t : State} (h : OnlyPkgs s t) (c : Nat) : KeepsStarts c s t :=
  ⟨h.slot c, fun i => by rw [h.core c]⟩

theorem KeepsStarts.entryLeft (s : State) (c q : Nat) : KeepsStarts c s (s.entryLeft c q) := by
  unfold State.entryLeft
  split
  · exact .refl c s
  next i _ =>
    refine ⟨fun n => s.slot_updCore _ _ (by rfl) c n, fun j => ?_⟩
    rw [State.updCore_eq, State.core_setCore]
    by_cases same : i = j
    · subst same
      simp
    · simp [Fin.val_ne_of_ne same]

theorem KeepsStarts.popQueue {s t : State} {c q : Nat} {e : QEntry} (h : s.popQueue c q = some (e, t)) :
    KeepsStarts c s t := by
  unfold State.popQueue at h
  dsimp only at h
  split at h
  · cases h
  · cases h
    refine KeepsStarts.trans ⟨fun n => s.slot_setCore_slots c _ (by rfl) c n, fun i => ?_⟩ (.entryLeft ..)
    rw [State.core_setCore]
    rfl

theorem KeepsStarts.popPegs (c q n : Nat) : ∀ s : State, KeepsStarts c s (s.popPegs c q n).2 := by
  induction n with
  | zero => exact .refl c
  | succ n ih =>
    intro s
    unfold State.popPegs
    split
    · exact .refl c s
    next e t popped =>
      exact (KeepsStarts.popQueue popped).trans (((OnlyPkgs.scribePop ..).keepsStarts c).trans (ih _))

/-- A stage that fires starts its thread in the lowest FREE slot. -/
theorem State.fire_starts {s : State} {c : Nat} {i : Fin 16} {n : Fin 8} {l : List (Fin 8)}
    (free : (s.core c).freeSlots = n :: l) :
    let g := (s.core c).stages[i]
    let u := s.fire c i
    (u.slot c n).state = .ready ∧ (u.slot c n).tenant = g.tenant ∧ (u.slot c n).gen = (s.slot c n).gen ∧
      (u.slot c n).issued = (s.slot c n).issued ∧ (u.slot c n).regs.pc = g.bits.extractLsb' 32 32 ∧
      (u.slot c n).bound = BitVec.ofNat 3 g.inq ∧ (u.core c).stages[i].live = g.live + 1 ∧
      (u.core c).stages[i].standing = 0 := by
  intro g u
  have kept : KeepsStarts c s (s.popPegs c g.inq g.pops).2 := .popPegs ..
  have gen := congrArg Slot.gen (kept.slot n)
  have issued := congrArg Slot.issued (kept.slot n)
  have stage (v : Vector Stage 16) (h : Stage) : (v.set i h)[i] = h := Vector.getElem_set_self _
  have fires : u = s.fire c i := rfl
  unfold State.fire at fires
  rw [free] at fires
  dsimp only at fires
  rw [fires, State.slot_setSlot, State.core_setSlot, if_pos rfl, State.core_setCore]
  refine ⟨rfl, rfl, gen, issued, rfl, rfl, ?_, ?_⟩
  · exact (congrArg Stage.live (stage ..)).trans (congrArg (· + 1) (kept.live i))
  · exact congrArg Stage.standing (stage ..)

/-! ### Held launches (R280, R287) -/

/-- A core whose eligible stages are of class compute has no handler stage to fire. -/
theorem Core.handlerChoice_none {k : Core} (h : ∀ i : Fin 16, (k.eligible i && k.stages[i].hcl) = false) :
    k.handlerChoice = none := by
  unfold Core.handlerChoice
  split
  · rfl
  · exact List.find?_eq_none.mpr fun i _ => Bool.eq_false_iff.mp (h i)

/-- The one launch held for a core starts. -/
theorem State.startHeld_starts {s : State} {c ten at_ : Nat} {entry : Word} {bound : BitVec 3} {peg : Entry} {n : Fin 8}
    (handlers : (s.core c).handlerChoice = none) (running : (s.core c).stopped = false)
    (held : s.heldLaunches c = [(ten, .launch c entry bound peg at_)]) (slot : (s.core c).startSlot = some n) :
    (s.startHeld c).slot c n = (s.core c).launched c n ten entry bound 0 peg := by
  unfold State.startHeld
  rw [handlers, running, held, slot]
  simp only [oldestLaunch, Option.isSome_none, Bool.or_self, Bool.false_eq_true, if_false]
  obtain ⟨t, -, starts⟩ := State.startLaunched_eq (s.updPkg (pkgOf c) fun p => { p with pools := p.pools.map (fun x =>
    if x.tenant == ten then { x with items := x.items.erase (.launch c entry bound peg at_) } else x) })
    c n ten entry bound 0 peg
  rw [starts, State.slot_setSlot]
  rfl

/-! ### Wakes (R31, R123) -/

section
variable {s : State} {core : Nat} {slot : Fin 8}

theorem exec_portWake {p : Port} (wait : (s.slot core slot).wait = .port p) (read : p ≠ .qdn)
    (running : (s.core core).stopped = false) : exec (.portWake core slot) s =
      .next (if s.portHas core slot p then s.setSlot core slot (s.slot core slot).unblock else s) := by
  show execPortWake core slot s = _
  rw [execPortWake]
  simp only [wait, read, running, decide_false, Bool.false_or]
  cases s.portHas core slot p <;> rfl

theorem exec_twaitWake {at_ : Nat} (wait : (s.slot core slot).wait = .deadline at_) (running : (s.core core).stopped = false) :
    exec (.twaitWake core slot) s = .next (if (s.pkg (pkgOf core)).ptc.toNat < at_ then s
      else s.setSlot core slot { (s.slot core slot).unblock with regs := (s.slot core slot).regs.advance 4 }) := by
  show execTwaitWake core slot s = _
  rw [execTwaitWake]
  simp only [wait, running, Bool.false_or, decide_eq_true_eq]

theorem exec_losingRivalKill (ready : (s.slot core slot).state = .ready) (running : (s.core core).stopped = false) :
    exec (.losingRivalKill core slot) s =
      .next (if s.loser (s.slot core slot) then s.killThread core slot else s) := by
  show execLosingRivalKill core slot s = _
  rw [execLosingRivalKill]
  simp only [ready, running, decide_true, Bool.not_false, Bool.true_and]

/-! #### A held push (R31) -/

/-- The push of a thread of no stage enters the downstream queue once it has room. -/
theorem State.pushDown_enters {s : State} (full : s.me.regs.qdn.length = 4) (stray : s.me.lch = true)
    (free : s.releasing = false) (bound : (s.core (downstream s.me.home)).holdsStage s.me.tenant = true)
    (room : 0 < ((s.core (downstream s.me.home)).queue 5).free) : s.pushDown =
      (s.updMe fun t => { t with regs := { t.regs with qdn := [] } }).pushQueue (downstream s.me.home) 5 2
        (entryOfList s.me.regs.qdn) false false := by
  unfold State.pushDown Slot.ownStage
  simp [full, stray, free, bound, room]

theorem exec_chainPushAccept (wait : (s.slot core slot).wait = .port .qdn) (running : (s.core core).stopped = false) :
    exec (.chainPushAccept core slot) s = .next (s.as core slot fun s => (s.updMe Slot.unblock).pushDown) := by
  show execChainPushAccept core slot s = _
  rw [execChainPushAccept, if_neg (by simp [wait, running])]

/-- What the issuing thread's slot changed leaves of a core. -/
theorem State.core_updMe (s : State) (f : Slot → Slot) (c : Nat) :
    ((s.updMe f).core c).queues = (s.core c).queues ∧ ((s.updMe f).core c).stages = (s.core c).stages ∧
      ((s.updMe f).core c).releases = (s.core c).releases := by
  rw [State.updMe_eq, State.core_setSlot]
  split
  next here => subst here; exact ⟨rfl, rfl, rfl⟩
  · exact ⟨rfl, rfl, rfl⟩

theorem State.queue_updMe (s : State) (f : Slot → Slot) (c q : Nat) :
    ((s.updMe f).core c).queue q = (s.core c).queue q := by rw [Core.queue, (s.core_updMe f c).1, Core.queue]

theorem State.holdsStage_updMe (s : State) (f : Slot → Slot) (c ten : Nat) :
    ((s.updMe f).core c).holdsStage ten = (s.core c).holdsStage ten := by
  rw [Core.holdsStage, (s.core_updMe f c).2.1, Core.holdsStage]

/-- A thread of whose slot no request releases anything holds nothing back. -/
theorem State.releasing_updMe (s : State) (f : Slot → Slot) (free : ∀ r ∈ (s.core s.curCore).releases, r.slot ≠ s.curSlot) :
    (s.updMe f).releasing = false := by
  show ((s.updMe f).core s.curCore).releases.any _ = false
  rw [(s.core_updMe f _).2.2, List.any_eq_false]
  exact fun r h e => free r h (beq_iff_eq.mp (Bool.and_eq_true_iff.mp e).1)

/-- A held push of a thread of no stage enters the downstream queue, and the thread goes on. -/
theorem State.heldPush_enters {x : State} {d : Nat} (full : x.regs.qdn.length = 4) (stray : x.me.lch = true)
    (free : ∀ r ∈ (x.core x.curCore).releases, r.slot ≠ x.curSlot) (down : downstream x.me.home = d)
    (bound : (x.core d).holdsStage x.me.tenant = true) (room : 0 < ((x.core d).queue 5).free) :
    let u := (x.updMe Slot.unblock).pushDown
    u.slot x.curCore x.curSlot = { x.me.unblock with regs := { x.regs with qdn := [] } } ∧
      ((u.core d).queue 5).entries.map (·.words) = ((x.core d).queue 5).entries.map (·.words) ++ [entryOfList x.regs.qdn] := by
  subst down
  have me : (x.updMe Slot.unblock).me = x.me.unblock := x.me_updMe _
  have pushed := State.pushDown_enters (s := x.updMe Slot.unblock) (by rw [me]; exact full) (by rw [me]; exact stray)
    (x.releasing_updMe _ free) (by rw [me, State.holdsStage_updMe]; exact bound) (by rw [me, State.queue_updMe]; exact room)
  rw [me] at pushed
  dsimp only
  rw [pushed]
  constructor
  · rw [State.slot_pushQueue]
    exact (State.me_updMe ..).trans (congrArg (fun t : Slot => { t with regs := { t.regs with qdn := [] } }) me)
  · refine (State.words_pushQueue ..).trans ?_
    rw [State.queue_updMe, State.queue_updMe]
    rfl

end

/-! ### Barrier signals (R178) -/

section
variable {s : State} {ten level inst : Nat}

/-- The first arrival on its way goes on where its links serve. -/
theorem exec_barrierSignal {c : Nat} {rest : List Nat} (signals : (s.barrier ten level inst).signals = c :: rest)
    (carried : s.carries c (controlAgent (s.barrierHub level c)) 4 = true) :
    exec (.barrierSignal ten level inst) s = .next (
      if s.routed (pkgOf c) (s.barrierHub level c)
      then (s.setBarrier { s.barrier ten level inst with signals := rest }).arriveAt ten level inst c
      else (s.setBarrier { s.barrier ten level inst with signals := rest }).updPkg (pkgOf c)
        fun p => { p with errors := p.errors + 1 }) := by
  have first : (s.barrier ten level inst).signals.find?
      (fun c => s.carries c (controlAgent (s.barrierHub level c)) 4) = some c := by
    rw [signals]
    exact List.find?_cons_of_pos carried
  show execBarrierSignal ten level inst s = _
  rw [execBarrierSignal]
  dsimp only
  rw [first, signals]
  dsimp only
  rw [List.erase_cons_head]

/-- Arrivals whose links do not serve stay. -/
theorem exec_barrierSignal_idle
    (held : ∀ x ∈ (s.barrier ten level inst).signals, s.carries x (controlAgent (s.barrierHub level x)) 4 = false) :
    exec (.barrierSignal ten level inst) s = .next s := by
  have none_ : (s.barrier ten level inst).signals.find?
      (fun c => s.carries c (controlAgent (s.barrierHub level c)) 4) = none :=
    List.find?_eq_none.mpr fun x hx => Bool.eq_false_iff.mp (held x hx)
  show execBarrierSignal ten level inst s = _
  rw [execBarrierSignal]
  dsimp only
  rw [none_]

end

/-! ### Replies and statuses (R159, R336) -/

section
variable {s : State} {core : Nat} {slot : Fin 8}

/-- A reply of the present incarnation completes its request; a late one is dropped. -/
theorem exec_memoryReply {r : Reply} (reply : (s.slot core slot).reply = some r) (carried : s.replyCarried core r = true) :
    exec (.memoryReply core slot) s = .next (
      if (s.pkg r.pkg).mapInc r.base r.index = r.inc
      then s.setSlot core slot { (s.slot core slot).unblock with regs := r.regs }
      else s.setSlot core slot { s.slot core slot with reply := none }) := by
  show execMemoryReply core slot s = _
  rw [execMemoryReply]
  dsimp only
  rw [reply]
  simp only [carried, Bool.not_true, Bool.false_eq_true, if_false, ne_eq, ite_not]

/-- A status of the present incarnation answers its request; a late one lets it issue again. -/
theorem exec_memoryReply_status {m : Msg} {gen : BitVec 8} {v : Word} (reply : (s.slot core slot).reply = none)
    (status : s.statusFor core slot = some m) (payload : m.payload = .status slot gen v) (dst : m.dst = core) :
    let u : State := { s with fabric := s.fabric.erase m }
    exec (.memoryReply core slot) s = .next (
      if m.sinc = (s.pkg (pkgOf m.src)).mapInc false (dieOf m.src) ∨ 2 ^ 26 ≤ m.src
      then u.answerStatus core slot gen v else u.askAgain core slot gen) := by
  intro u
  have late : u.late m = true ↔ ¬(m.sinc = (s.pkg (pkgOf m.src)).mapInc false (dieOf m.src) ∨ 2 ^ 26 ≤ m.src) := by
    have incarnation : (u.pkg (pkgOf m.src)).mapInc false (dieOf m.src) = (s.pkg (pkgOf m.src)).mapInc false (dieOf m.src) := rfl
    rw [State.late, incarnation, Bool.and_eq_true, decide_eq_true_eq, bne_iff_ne, not_or, Nat.not_le, and_comm]
  show execMemoryReply core slot s = _
  rw [execMemoryReply]
  dsimp only
  rw [reply, status]
  show Host.Outcome.next (s.takeStatus m) = _
  rw [State.takeStatus]
  by_cases h : m.sinc = (s.pkg (pkgOf m.src)).mapInc false (dieOf m.src) ∨ 2 ^ 26 ≤ m.src
  · rw [if_pos h, if_pos (by simpa using mt late.mp (not_not_intro h)), State.serve, payload, dst]
  · rw [if_neg h, if_neg (by simpa using late.mpr h), payload, dst]

end

theorem threadSteps : ThreadSteps := by
  intro s core slot n stage special p at_ r m gen v ten level inst c rest launch k t g time b set
  refine ⟨fun choice l free => ?_, fun other => ?_, fun handlers running held start => ?_,
    fun wait read running => exec_portWake wait read running, fun wait running stray full bound free room => ?_,
    fun wait running => exec_twaitWake wait running, fun signals carried => exec_barrierSignal signals carried,
    fun held => exec_barrierSignal_idle held, fun none_ => exec_barrierSignal_idle fun x hx => ?_,
    fun ready running => exec_losingRivalKill ready running, fun reply carried => exec_memoryReply reply carried,
    fun reply status payload dst => exec_memoryReply_status reply status payload dst⟩
  · exact ⟨s.fire core stage, congrArg _ (if_pos choice), State.fire_starts free⟩
  · exact congrArg _ (if_neg other)
  · have thread := State.startHeld_starts (Core.handlerChoice_none handlers) running held start
    exact ⟨s.startHeld core, rfl, by rw [thread]; exact ⟨rfl, rfl, rfl, rfl⟩⟩
  · obtain ⟨pushed, entered⟩ := State.heldPush_enters (x := { s with curCore := core, curSlot := slot }) full stray free rfl
      bound room
    refine ⟨_, exec_chainPushAccept wait running, ?_, ?_, entered⟩
    · exact congrArg Slot.wait pushed
    · exact congrArg (·.regs.qdn) pushed
  · exact absurd (none_ ▸ hx) List.not_mem_nil

/-- Settles O38. -/
theorem threadStartsAndWakes : Obligations.ThreadStartsAndWakes := ⟨threadSteps, sequencerPipes⟩

end Sys2Proof.Machine
end

section
/-!
PROOFS. A step that issues at a slot (R26, R45, R52, R57, R147, R290): the fetch, and what the slot's turn makes of it.
-/

namespace Sys2Proof.Machine

/-! ### The fetch (R26, R45, R57) -/

/-- The decoder does not look at the second halfword of a 16-bit instruction. -/
theorem decode_short {h0 : BitVec 16} (h1 h1' : BitVec 16) (short : isLong h0 = false) : decode h0 h1 = decode h0 h1' := by
  simp only [decode, short, Bool.false_eq_true, if_false]

section
variable (s : State)

/-- The halfword of the issuing thread's code at an address. -/
def State.halfAt (a : Word) : Option (BitVec 16) := s.codeHalf (pkgOf s.curCore) s.me a

/-- What a fetch finds of the halfwords of an instruction: the second counts for a 32-bit instruction alone. -/
def State.Fetched (h0 h1 : BitVec 16) : Prop :=
  s.halfAt s.regs.pc = some h0 ∧ (isLong h0 = true → s.halfAt (s.regs.pc + 2) = some h1)

/-- Whether a halfword of the instruction at `pc` lies outside the code region. -/
def State.FetchOutside : Prop :=
  s.halfAt s.regs.pc = none ∨ ∃ h0, s.halfAt s.regs.pc = some h0 ∧ isLong h0 = true ∧ s.halfAt (s.regs.pc + 2) = none

variable {s}

theorem State.fetch_of_halfwords {h0 h1 : BitVec 16} (h : s.Fetched h0 h1) : s.fetch = decoded (decode h0 h1) := by
  obtain ⟨first, second⟩ := h
  rw [State.halfAt, State.regs] at first
  unfold State.fetch
  dsimp only
  rw [first]
  dsimp only
  split
  next long =>
    have second := second long
    rw [State.halfAt, State.regs] at second
    rw [second]
  next short => exact congrArg decoded (decode_short _ _ (Bool.not_eq_true _ ▸ short))

theorem State.fetch_outside (h : s.FetchOutside) : s.fetch = .error (capFault 0x06 s.regs.pc.toNat) := by
  unfold State.fetch
  dsimp only
  rcases h with missing | ⟨h0, first, long, second⟩
  · rw [State.halfAt, State.regs] at missing
    rw [missing]
    rfl
  · rw [State.halfAt, State.regs] at first second
    rw [first]
    dsimp only
    rw [if_pos long, second]
    rfl

end

/-! ### The turn of a slot -/

section
variable {s : State} (loop : s.me.loop = none)
include loop

/-- A fetch that fails faults. -/
theorem State.issueAlone_fault {f : FaultInfo} (fetch : s.fetch = .error f) : s.issueAlone = .next (s.trapMe f) := by
  simp [State.issueAlone, fetch, loop]

/-- Outside a capture, an instruction that waits for earlier entries does nothing. -/
theorem State.issueAlone_waits {i : Instr} (fetch : s.fetch = .ok i) (turn : s.seqTurn i = .wait) :
    s.issueAlone = .next s := by
  simp [State.issueAlone, fetch, Slot.captures, loop, turn]

/-- One that goes to the sequencer enters it. -/
theorem State.issueAlone_enters {i : Instr} (fetch : s.fetch = .ok i) (turn : s.seqTurn i = .enter)
    (free : s.injects i = false) : s.issueAlone = .next (s.enterSeq i) := by
  simp [State.issueAlone, fetch, Slot.captures, loop, turn, free]

/-- Any other is carried out. -/
theorem State.issueAlone_carries {i : Instr} (fetch : s.fetch = .ok i) (turn : s.seqTurn i = .perform)
    (free : s.injects i = false) : s.issueAlone = s.carry i := by
  simp [State.issueAlone, fetch, Slot.captures, loop, turn, free]

end

/-- What a slot's turn leaves at the end of the step. -/
def State.turnDone (c : Nat) (t : State) : State := { ({ t with curCore := c + 1 }).settleGangs with issueTurn := false }

/-- The turn of a slot whose thread is in no gang and no losing rival. -/
theorem step_of_turn {s : State} {c : Nat} {n : Fin 8} (agenda : s.elapse.agenda = []) (due : s.elapse.issueTurn = true)
    (turn : s.elapse.turn = some (c, n)) {v : State}
    (at_ : v = { s.elapse.barrelTurn c n with curCore := c, curSlot := n }) (rival : v.loser v.me = false)
    (alone : v.me.gang = 0) {t : State} (h : v.issueAlone = .next t) : step s = .next (t.turnDone c) := by
  have issue : s.elapse.issueAt c n = .next { t with curCore := c + 1 } := by
    unfold State.issueAt
    dsimp only
    rw [← at_, rival, alone, h]
    rfl
  have stepped : s.elapse.issueStep c n = .next (t.turnDone c) := by
    rw [State.issueStep, issue]
    rfl
  unfold step
  simp only [agenda, due, turn, if_true, stepped]

/-- Settles O53. -/
theorem stepRunsDecoded : Obligations.StepRunsDecoded := by
  intro s c n u v half pc after agenda due turn rival alone loop
  have done {t : State} (h : v.issueAlone = .next t) : step s = .next (after t) :=
    step_of_turn agenda due turn rfl rival alone h
  have fetched {h0 h1 : BitVec 16} {i : Instr} (first : half pc = some h0)
      (second : isLong h0 = true → half (pc + 2) = some h1) (decodes : decode h0 h1 = .ok i) : v.fetch = .ok i := by
    rw [State.fetch_of_halfwords ⟨first, second⟩, decodes]
    rfl
  refine ⟨fun h0 h1 i t first second decodes perform free runs => done ?_, fun h0 h1 i first second decodes =>
    ⟨fun wait => done ?_, fun enter free => done ?_⟩, fun h0 h1 e first second illegal => done ?_, fun outside => done ?_⟩
  · rw [State.issueAlone_carries loop (fetched first second decodes) perform free, State.carry, runs]
    rfl
  · exact State.issueAlone_waits loop (fetched first second decodes) wait
  · exact State.issueAlone_enters loop (fetched first second decodes) enter free
  · refine State.issueAlone_fault loop ?_
    rw [State.fetch_of_halfwords ⟨first, second⟩, illegal]
    rfl
  · exact State.issueAlone_fault loop (State.fetch_outside outside)

end Sys2Proof.Machine
end

section
/-!
PROOFS. Encodings (R45 to R48, R52, R54, R58 to R60): a word is its fields, so the encoder and the decoder agree row by row;
the words that the spec writes out, and `NOP` and the hints.
-/

namespace Sys2Proof

/-! ### A word is its fields (R46 to R48) -/

/-- A word holds the field `x` from bit `s` up. -/
def Holds {n k : Nat} (w : BitVec n) (s : Nat) (x : BitVec k) : Prop := w.extractLsb' s k = x

theorem holds_iff {n k s : Nat} {w : BitVec n} {x : BitVec k} : Holds w s x ↔ w.extractLsb' s k = x := Iff.rfl

/-- A field of two parts is held where both parts are, the low one first. -/
theorem holds_append {n v k s : Nat} {w : BitVec n} {hi : BitVec v} {lo : BitVec k} :
    Holds w s (hi ++ lo) ↔ Holds w (s + k) hi ∧ Holds w s lo := by
  simp only [holds_iff]
  rw [← BitVec.extractLsb'_append_extractLsb'_eq_extractLsb' rfl]
  constructor
  · intro h
    have high := congrArg (BitVec.extractLsb' k v) h
    have low := congrArg (BitVec.extractLsb' 0 k) h
    simp only [BitVec.extractLsb'_append_eq_left, BitVec.extractLsb'_append_eq_right] at high low
    exact ⟨high, low⟩
  · rintro ⟨rfl, rfl⟩
    rfl

theorem long_eq_iff {w x : BitVec 32} : Code.long x = .long w ↔ Holds w 0 x := by simp [holds_iff, eq_comm]

theorem short_eq_iff {w x : BitVec 16} : Code.short x = .short w ↔ Holds w 0 x := by simp [holds_iff, eq_comm]

/-! ### The 32-bit map (R59) -/

section
variable {w : BitVec 32}

theorem major_of_byte {b : BitVec 8} (h : w.extractLsb' 24 8 = b) : w.extractLsb' 24 7 = b.setWidth 7 := by
  subst h
  ext i hi
  simp [show i < 8 by omega]

theorem long_of_byte {b : BitVec 8} (h : w.extractLsb' 24 8 = b) (high : b.getLsbD 7 = true) : w.getLsbD 31 = true := by
  subst h
  simpa using high

/-- The top byte of a 32-bit word is its major with bit 31 set (R45, R46). -/
theorem byte_toNat (long : w.getLsbD 31 = true) :
    (w.extractLsb' 24 8).toNat = 128 + (w.extractLsb' 24 7).toNat := by
  have high : 2 ^ 31 ≤ w.toNat := BitVec.toNat_ge_of_msb_true ((BitVec.msb_eq_getLsbD_last w).trans long)
  simp only [BitVec.extractLsb'_toNat, Nat.shiftRight_eq_div_pow]
  omega

/-- The top five bits, which are all ones in a hint (R54). -/
theorem topFive_toNat (long : w.getLsbD 31 = true) :
    (w.extractLsb' 27 5).toNat = 16 + (w.extractLsb' 24 7).toNat / 8 := by
  have byte := byte_toNat long
  simp only [BitVec.extractLsb'_toNat, Nat.shiftRight_eq_div_pow] at *
  omega

/-- The kind of a hint is the low part of its major. -/
theorem kind_toNat : (w.extractLsb' 24 3).toNat = (w.extractLsb' 24 7).toNat % 8 := by
  simp only [BitVec.extractLsb'_toNat, Nat.shiftRight_eq_div_pow]
  omega

theorem illegalOf_hint {k : BitVec 3} {x : BitVec 24} : illegalOf (.hint k x) = none ↔ k.toNat ≠ 7 := by
  show (if k = 7 then _ else none) = none ↔ _
  split
  next last => simp [last]
  next other => exact iff_of_true rfl fun e => other (BitVec.eq_of_toNat_eq e)

/-- The last major is unassigned. -/
theorem decode32_lastMajor (h : w.extractLsb' 24 7 = 0x7F#7) : decode32 w = .error .unassigned := by
  rw [decode32, h]
  rfl

/-- Every word of the hint majors is a hint (R54). -/
theorem decode32_hint (lo : 0x78 ≤ (w.extractLsb' 24 7).toNat) (hi : (w.extractLsb' 24 7).toNat ≤ 0x7E) :
    decode32 w = .ok (.hint (w.extractLsb' 24 3) (w.extractLsb' 0 24)) := by
  rw [decode32]
  generalize (w.extractLsb' 24 7).toNat = major at *
  interval_cases major <;> rfl

/-- The word of a row that decodes holds the row's fields: the fixed ones by the match and the RES checks, and the
instruction's own because they are read from the word. -/
theorem encode_of_decode32 {i : Instr} (long : w.getLsbD 31 = true) (h : decode32 w = .ok i) : encode i = .long w := by
  unfold decode32 decodeMajor01 decodeMajor07 decodeMajor0B decodeMajor18 decodeMajor1D decodeMajor1F decodeMajor20
    decodeMajor21 decodeMajor22 decodeMajor23 decodeMajor30 decodeMajor38 decodeMajor39 decodeMajor3C decodeMajor3E
    decodeMajor4F decodeMajor68 decodeMajor6A decodeMajor6B decodeMajor70 decodeMajor72 decodeMajor75 decodeMajor76
    decodeMajor77 at h
  repeat' split at h
  all_goals cases h
  all_goals
    refine long_eq_iff.2 ?_
    simp only [↓holds_append, holds_iff, Nat.reduceAdd, ← BitVec.toNat_inj, byte_toNat long, topFive_toNat long, *]
    decide

end

/-- The majors that hold several instructions each. -/
theorem decode32_group (w : BitVec 32) :
    (w.extractLsb' 24 8 = 0x81#8 → decode32 w = decodeMajor01 w) ∧
    (w.extractLsb' 24 8 = 0x87#8 → decode32 w = decodeMajor07 w) ∧
    (w.extractLsb' 24 8 = 0x8B#8 → decode32 w = decodeMajor0B w) ∧
    (w.extractLsb' 24 8 = 0x98#8 → decode32 w = decodeMajor18 w) ∧
    (w.extractLsb' 24 8 = 0x9D#8 → decode32 w = decodeMajor1D w) ∧
    (w.extractLsb' 24 8 = 0x9F#8 → decode32 w = decodeMajor1F w) ∧
    (w.extractLsb' 24 8 = 0xA0#8 → decode32 w = decodeMajor20 w) ∧
    (w.extractLsb' 24 8 = 0xA1#8 → decode32 w = decodeMajor21 w) ∧
    (w.extractLsb' 24 8 = 0xA2#8 → decode32 w = decodeMajor22 w) ∧
    (w.extractLsb' 24 8 = 0xA3#8 → decode32 w = decodeMajor23 w) ∧
    (w.extractLsb' 24 8 = 0xB0#8 → decode32 w = decodeMajor30 w) ∧
    (w.extractLsb' 24 8 = 0xB8#8 → decode32 w = decodeMajor38 w) ∧
    (w.extractLsb' 24 8 = 0xB9#8 → decode32 w = decodeMajor39 w) ∧
    (w.extractLsb' 24 8 = 0xBC#8 → decode32 w = decodeMajor3C w) ∧
    (w.extractLsb' 24 8 = 0xBE#8 → decode32 w = decodeMajor3E w) ∧
    (w.extractLsb' 24 8 = 0xCF#8 → decode32 w = decodeMajor4F w) ∧
    (w.extractLsb' 24 8 = 0xE8#8 → decode32 w = decodeMajor68 w) ∧
    (w.extractLsb' 24 8 = 0xEA#8 → decode32 w = decodeMajor6A w) ∧
    (w.extractLsb' 24 8 = 0xEB#8 → decode32 w = decodeMajor6B w) ∧
    (w.extractLsb' 24 8 = 0xF0#8 → decode32 w = decodeMajor70 w) ∧
    (w.extractLsb' 24 8 = 0xF2#8 → decode32 w = decodeMajor72 w) ∧
    (w.extractLsb' 24 8 = 0xF5#8 → decode32 w = decodeMajor75 w) ∧
    (w.extractLsb' 24 8 = 0xF6#8 → decode32 w = decodeMajor76 w) ∧
    (w.extractLsb' 24 8 = 0xF7#8 → decode32 w = decodeMajor77 w) := by
  refine ⟨?_, ?_, ?_, ?_, ?_, ?_, ?_, ?_, ?_, ?_, ?_, ?_, ?_, ?_, ?_, ?_, ?_, ?_, ?_, ?_, ?_, ?_, ?_, ?_⟩
  all_goals
    intro byte
    rw [decode32, major_of_byte byte]
    rfl

/-- An encoded instruction's word is read by its row: by one without RES fields, by one that checks them, or by one of a
group, whose selector stands at the end of the word in the integer group and before other fields elsewhere. -/
theorem decode32_of_encode {w : BitVec 32} {i : Instr} (h : encode i = .long w) (legal : illegalOf i = none) :
    w.getLsbD 31 = true ∧ decode32 w = .ok i := by
  cases i with
  | addi | li | eli | b | j | jl | beq | bne | blt | bge | bltn | bgen | ldImm | stImm | fstImm | vldImm | vstImm | vlds |
  aadd | aand | aor | axor | aswap | acas | aminSigned | aminUnsigned | amaxSigned | amaxUnsigned | afadd | mxacc | waitne =>
    have fields := long_eq_iff.1 h
    simp only [↓holds_append, holds_iff, and_assoc, Nat.reduceAdd] at fields
    refine ⟨long_of_byte fields.1 rfl, ?_⟩
    rw [decode32, major_of_byte fields.1]
    show Except.ok _ = _
    simp only [fields]
  | sel | lih | bz | bnz | loop | getc | setc | trap | faddV | fsubV | fmulV | fminV | fmaxV | fdivV | ffmaV | fcmpV |
  cvtV | cvtfV | frndV | pack | vlut | vloop | ld | st | fst | vld | vst | vgath | vscat | ldc | stc | mxld | mxst | mxres
  | mxnorm | spawn | callat | quit | slott | mma | mstacc | mcmd =>
    have fields := long_eq_iff.1 h
    simp only [↓holds_append, holds_iff, and_assoc, Nat.reduceAdd] at fields
    refine ⟨long_of_byte fields.1 rfl, ?_⟩
    rw [decode32, major_of_byte fields.1]
    show (if _ then _ else _) = _
    simp only [fields]
    rfl
  | add | sub | mul | mulh | mulhn | div | divn | rem | remn | and | or | xor | andn | shl | shr | sar | rol | min | max |
  minn | maxn | slt | sltn | clz | ctz | popc =>
    have fields := long_eq_iff.1 h
    simp only [↓holds_append, holds_iff, and_assoc, Nat.reduceAdd] at fields
    refine ⟨long_of_byte fields.1 rfl, ?_⟩
    have selector : w.extractLsb' 0 5 = _ := (holds_append.1 (long_eq_iff.1 h)).2
    simp only [decode32_group, fields]
    rw [decodeMajor01, selector]
    show (if _ then _ else _) = _
    simp only [fields]
    rfl
  | emovToE | emovFromE | jr | jlr | csetb | cinc | cand | cbase | clen | cperm | time | twait | fresume | fkill | fretry
  | fadd | fsub | fmul | fmin | fmax | fdiv | fabs | fneg | fsqrt | fclass | fcmp | ffma | frcp | frsq | fexp2 | flog2 |
  fsin | fcos | cvt | cvtf | frnd | tailget | tailset | tailgetV | tailsetV | fabsV | fnegV | fsqrtV | fclassV | frcpV |
  frsqV | fexp2V | flog2V | fsinV | fcosV | vshuf | vrot | vbcast | vsel | vidx | vredAdd | vredMin | vredMax | vredAnd |
  vredOr | vredXor | rndk | rndkV | gang | split | spill | fill | fence | fenceAcq | fenceRel | bar | barw | barq | qpoll
  | qsend | qsendd | mlda | mldb | mtbl | mpass | mwait | mpoll | mzero | cpy | cpyc | cpyw | cpyq | gcon | gres | barmax
  | fork | choose | abandon | dopen | dclose | vstat =>
    have fields := long_eq_iff.1 h
    simp only [↓holds_append, holds_iff, and_assoc, Nat.reduceAdd] at fields
    refine ⟨long_of_byte fields.1 rfl, ?_⟩
    simp only [decode32_group, fields]
    simp only [fields,
      decodeMajor07, decodeMajor0B, decodeMajor18, decodeMajor1D, decodeMajor1F, decodeMajor20, decodeMajor21,
      decodeMajor22, decodeMajor23, decodeMajor30, decodeMajor38, decodeMajor39, decodeMajor3C, decodeMajor3E,
      decodeMajor4F, decodeMajor68, decodeMajor6A, decodeMajor6B, decodeMajor70, decodeMajor72, decodeMajor75,
      decodeMajor76, decodeMajor77]
    rfl
  | hint k x =>
    have fields := long_eq_iff.1 h
    simp only [↓holds_append, holds_iff, and_assoc, Nat.reduceAdd] at fields
    obtain ⟨five, rfl, rfl⟩ := fields
    have long : w.getLsbD 31 = true := by simpa using congrArg (·.getLsbD 4) five
    have top := topFive_toNat long
    have kind := kind_toNat (w := w)
    have legal := illegalOf_hint.1 legal
    simp only [five, BitVec.reduceToNat] at top
    exact ⟨long, decode32_hint (by omega) (by omega)⟩
  | _ => cases h

/-! ### The 16-bit map (R58) -/

section
variable {w : BitVec 16}

/-- The top four bits, which are 7 in a hint (R54). -/
theorem topFour_toNat : (w.extractLsb' 12 4).toNat = (w.extractLsb' 10 6).toNat / 4 := by
  simp only [BitVec.extractLsb'_toNat, Nat.shiftRight_eq_div_pow]
  omega

/-- The opcodes of the 16-bit map are below 32, so bit 15 of its halfwords is 0 (R45). -/
theorem opcode_lt_of_decode16 {i : Instr} (h : decode16 w = .ok i) : (w.extractLsb' 10 6).toNat < 32 := by
  unfold decode16 at h
  split at h
  any_goals omega
  cases h

theorem encode_of_decode16 {i : Instr} (h : decode16 w = .ok i) : encode i = .short w := by
  unfold decode16 at h
  repeat' split at h
  all_goals cases h
  all_goals
    refine short_eq_iff.2 ?_
    simp only [↓holds_append, holds_iff, Nat.reduceAdd, ← BitVec.toNat_inj, topFour_toNat, *]
    decide

theorem decode16_hint (lo : 0x1C ≤ (w.extractLsb' 10 6).toNat) (hi : (w.extractLsb' 10 6).toNat ≤ 0x1F) :
    decode16 w = .ok (.hintShort (w.extractLsb' 10 2) (w.extractLsb' 5 5) (w.extractLsb' 0 5)) := by
  rw [decode16]
  generalize (w.extractLsb' 10 6).toNat = opcode at *
  interval_cases opcode <;> rfl

theorem decode16_of_encode {i : Instr} (h : encode i = .short w) : decode16 w = .ok i := by
  cases i with
  | addShort | subShort | andShort | orShort | xorShort | shlShort | shrShort | sarShort | addiShort | liShort | minShort
  | maxShort | bzShort | bnzShort | ldShort | stShort | faddShort | fmulShort | emovShort =>
    have fields := short_eq_iff.1 h
    simp only [↓holds_append, holds_iff, and_assoc, Nat.reduceAdd] at fields
    rw [decode16, fields.1]
    show Except.ok _ = _
    simp only [fields]
  | nop | quitShort | jrShort | jlrShort =>
    have fields := short_eq_iff.1 h
    simp only [↓holds_append, holds_iff, and_assoc, Nat.reduceAdd] at fields
    rw [decode16, fields.1]
    show (if _ then _ else _) = _
    simp only [fields]
    rfl
  | hintShort k a b =>
    have fields := short_eq_iff.1 h
    simp only [↓holds_append, holds_iff, and_assoc, Nat.reduceAdd] at fields
    obtain ⟨four, rfl, rfl, rfl⟩ := fields
    have top := topFour_toNat (w := w)
    rw [four] at top
    exact decode16_hint (by bv_omega) (by bv_omega)
  | _ => cases h

end

/-! ### Halfwords in fetch order (R45, R52) -/

/-- What decodes is what a row answers, where the checks of R52 let it through. -/
theorem checked_eq_ok {r : Except Illegal Instr} {i : Instr} : checked r = .ok i ↔ r = .ok i ∧ illegalOf i = none := by
  cases r with
  | error e => simp [checked]
  | ok j =>
    simp only [checked]
    split
    next e illegal =>
      simp only [reduceCtorEq, Except.ok.injEq, false_iff, not_and]
      rintro rfl
      simp [illegal]
    next legal =>
      simp only [Except.ok.injEq, iff_self_and]
      rintro rfl
      exact legal

theorem isLong_wordOf (h0 h1 : BitVec 16) : (wordOf h0 h1).getLsbD 31 = isLong h0 := by
  rw [wordOf, isLong, BitVec.getLsbD_append]
  rfl

theorem wordOf_halves (w : BitVec 32) : wordOf (w.extractLsb' 16 16) (w.extractLsb' 0 16) = w :=
  BitVec.extractLsb'_append_extractLsb' (w := 16) (len := 16)

/-- The major of a word stands in the halfword at `pc` (R45). -/
theorem major_wordOf (h0 h1 : BitVec 16) : ((wordOf h0 h1).extractLsb' 24 7).toNat = h0.toNat / 2 ^ 8 % 2 ^ 7 := by
  rw [wordOf, BitVec.extractLsb'_append_eq_of_le (by decide)]
  simp only [BitVec.extractLsb'_toNat, Nat.shiftRight_eq_div_pow, Nat.reduceSub]

/-- Bit 15 is the highest of the opcode (R45). -/
theorem isLong_eq (h : BitVec 16) : isLong h = decide (2 ^ 15 ≤ h.toNat) := by
  rw [isLong]
  have := BitVec.msb_eq_decide h
  simpa [BitVec.msb_eq_getLsbD_last] using this

/-- The two illegal halfwords decode to nothing in either map (R52). -/
theorem decode_eq_ok {h0 h1 : BitVec 16} {i : Instr} : decode h0 h1 = .ok i ↔
    (if isLong h0 then decode32 (wordOf h0 h1) = .ok i else decode16 h0 = .ok i) ∧ illegalOf i = none := by
  unfold decode
  split
  next never =>
    refine iff_of_false nofun fun ⟨row, _⟩ => ?_
    rcases never with rfl | rfl
    · have zero : decode16 0 = .ok i := row
      cases zero
    · have ones : decode32 (wordOf 0xFFFF h1) = .ok i := row
      rw [decode32_lastMajor (BitVec.eq_of_toNat_eq (major_wordOf 0xFFFF h1))] at ones
      cases ones
  · split <;> exact checked_eq_ok

/-- Settles O51: a row's word decodes to its instruction, and a word that decodes is that of the instruction's row. -/
theorem encodingRoundTrip : Obligations.EncodingRoundTrip := by
  unfold Obligations.EncodingRoundTrip
  refine ⟨fun i encoded legal => ?_, fun h0 h1 i h => ?_⟩
  · cases code : encode i with
    | none => exact absurd code encoded
    | short w =>
      have row := decode16_of_encode code
      have opcode := opcode_lt_of_decode16 row
      have short : isLong w = false := by
        rw [isLong_eq, decide_eq_false_iff_not]
        simp only [BitVec.extractLsb'_toNat, Nat.shiftRight_eq_div_pow] at opcode
        omega
      show decode w 0 = _
      rw [decode_eq_ok, short]
      exact ⟨row, legal⟩
    | long w =>
      obtain ⟨top, row⟩ := decode32_of_encode code legal
      show decode (w.extractLsb' 16 16) (w.extractLsb' 0 16) = _
      rw [decode_eq_ok, ← isLong_wordOf _ (w.extractLsb' 0 16), wordOf_halves, top]
      exact ⟨row, legal⟩
  · obtain ⟨row, legal⟩ := decode_eq_ok.1 h
    refine ⟨legal, ?_⟩
    split
    next long =>
      rw [if_pos long] at row
      exact encode_of_decode32 ((isLong_wordOf h0 h1).trans long) row
    next short =>
      rw [if_neg short] at row
      exact encode_of_decode16 row

/-- Settles O52: each word by evaluation; the two illegal halfwords come first in the decoder. -/
theorem writtenWords : Obligations.WrittenWords := by
  unfold Obligations.WrittenWords
  refine ⟨?_, ?_, ?_, ?_, ?_, ?_, ?_, ?_, ?_, ?_, ?_, ?_, ?_, ?_, ?_, ?_, fun h => ⟨rfl, rfl⟩⟩
  all_goals rfl

end Sys2Proof

namespace Sys2Proof.Machine

/-! ### `NOP` and the hints (R54, R116) -/

/-- An instruction without ports that leaves the registers only advances. -/
theorem State.plain_ok (s : State) (len : Nat) : s.plain len [] [] .ok = s.setRegs (s.regs.advance len) := by
  rw [s.plain_of_ready s.portsReady_nil]
  rfl

/-- `NOP` is the halfword 0x4400 alone: a word that decodes is its instruction's encoding (R116). -/
theorem decode_eq_nop (h0 h1 : BitVec 16) : decode h0 h1 = .ok .nop ↔ h0 = 0x4400 := by
  constructor
  · intro h
    have code := (encodingRoundTrip.2 h0 h1 .nop h).2
    split at code
    · cases code
    · exact (Code.short.inj code).symm
  · rintro rfl
    rfl

theorem decode_hint {h0 : BitVec 16} (h1 : BitVec 16) (lo : 0xF8 ≤ h0.toNat / 2 ^ 8) (hi : h0.toNat / 2 ^ 8 ≤ 0xFE) :
    ∃ k x, decode h0 h1 = .ok (.hint k x) := by
  have major := major_wordOf h0 h1
  have long : isLong h0 = true := by
    rw [isLong_eq, decide_eq_true_iff]
    omega
  have row := decode32_hint (w := wordOf h0 h1) (by omega) (by omega)
  have kind := kind_toNat (w := wordOf h0 h1)
  exact ⟨_, _, decode_eq_ok.2 ⟨by rw [if_pos long]; exact row, illegalOf_hint.2 (by omega)⟩⟩

theorem decode_hintShort {h0 : BitVec 16} (h1 : BitVec 16) (lo : 0x1C ≤ h0.toNat / 2 ^ 10)
    (hi : h0.toNat / 2 ^ 10 ≤ 0x1F) : ∃ k a b, decode h0 h1 = .ok (.hintShort k a b) := by
  have opcode : (h0.extractLsb' 10 6).toNat = h0.toNat / 2 ^ 10 := by
    simp only [BitVec.extractLsb'_toNat, Nat.shiftRight_eq_div_pow]
    omega
  have short : isLong h0 = false := by
    rw [isLong_eq, decide_eq_false_iff_not]
    omega
  have row := decode16_hint (w := h0) (by omega) (by omega)
  exact ⟨_, _, _, decode_eq_ok.2 ⟨by rw [short]; exact row, rfl⟩⟩

/-- Settles O59: the decoder's rows of `NOP` and of the hints, and an instruction that only advances. -/
theorem nopAndHints : Obligations.NopAndHints := by
  unfold Obligations.NopAndHints
  refine ⟨decode_eq_nop, fun _ => decode_hint, fun _ => decode_hintShort, fun s k x h a b =>
    ⟨congrArg _ (s.plain_ok 2), congrArg _ (s.plain_ok 2), congrArg _ (s.plain_ok 4), fun i hi => ?_⟩⟩
  simp only [List.mem_cons, List.not_mem_nil, or_false] at hi
  rcases hi with rfl | rfl <;> exact ⟨rfl, rfl, rfl, rfl⟩

end Sys2Proof.Machine
end

section
/-!
PROOFS. Short forms, selection, immediates and extension registers (R58, R108 to R110).
-/

namespace Sys2Proof.Machine

section
variable {s : State} {i : Instr} {len : Nat} {srcs dsts : List (BitVec 5)}

/-- An instruction that changes registers only completes with its registers changed, once its ports are ready. -/
theorem Completes.of_plain {f : Regs → Regs} {r : Regs} (h : exec i s = .next (s.plain len srcs dsts fun r => .ok (f r)))
    (e : (f s.regs).advance len = r) : Completes i s srcs dsts r := by
  subst e
  exact fun ports => h.trans (congrArg _ (s.plain_of_ready ports))

/-- One that writes a scalar register. -/
theorem Completes.of_wrote {d : BitVec 5} {f : Regs → Word} {x : Word}
    (h : exec i s = .next (s.plain len srcs dsts fun r => .ok (r.setVal d (f r)))) (e : f s.regs = x) :
    Completes i s srcs dsts (s.wrote d x len) := .of_plain h (by rw [e]; rfl)

end

/-! ### The functions of R107 as arithmetic -/

section
variable {n : Nat} (x y : BitVec n)

theorem aluMin_eq : aluMin x y = if y.toInt < x.toInt then y else x := by simp [aluMin, BitVec.slt]

theorem aluMax_eq : aluMax x y = if x.toInt < y.toInt then y else x := by simp [aluMax, BitVec.slt]

theorem shiftLeft_eq_mul (k : Nat) : x <<< k = BitVec.ofNat n (x.toNat * 2 ^ k) := by
  apply BitVec.eq_of_toNat_eq
  simp [Nat.shiftLeft_eq]

theorem ushiftRight_eq_div (k : Nat) : x >>> k = BitVec.ofNat n (x.toNat / 2 ^ k) := by
  apply BitVec.eq_of_toNat_eq
  have : x.toNat / 2 ^ k < 2 ^ n := (Nat.div_le_self ..).trans_lt x.isLt
  simp [Nat.shiftRight_eq_div_pow, Nat.mod_eq_of_lt this]

theorem sshiftRight_eq_div (k : Nat) : x.sshiftRight k = BitVec.ofInt n (x.toInt / 2 ^ k) := by
  rw [BitVec.sshiftRight, Int.shiftRight_eq_div_pow]
  norm_cast

end

theorem add_sx32_eq {n : Nat} (x : Word) (imm : BitVec n) : x + sx32 imm = BitVec.ofInt 32 (x.toInt + imm.toInt) := by
  rw [BitVec.ofInt_add, BitVec.ofInt_toInt]
  rfl

/-- The upper 18 bits written over the lower 14 (R109). -/
theorem append_low14_eq (imm : BitVec 18) (x : Word) :
    imm ++ x.extractLsb' 0 14 = BitVec.ofNat 32 (imm.toNat * 2 ^ 14 + x.toNat % 2 ^ 14) := by
  have := imm.isLt
  apply BitVec.eq_of_toNat_eq
  rw [toNat_append_eq, BitVec.toNat_ofNat, BitVec.extractLsb'_toNat, Nat.shiftRight_zero]
  omega

theorem shortIntegerForms : ShortIntegerForms := by
  intro s a b x y n
  exact ⟨.of_wrote rfl rfl, .of_wrote rfl rfl, .of_wrote rfl rfl, .of_wrote rfl rfl, .of_wrote rfl rfl,
    .of_wrote rfl (aluMin_eq x y), .of_wrote rfl (aluMax_eq x y), .of_wrote rfl (shiftLeft_eq_mul x n),
    .of_wrote rfl (ushiftRight_eq_div x n), .of_wrote rfl (sshiftRight_eq_div x n), .of_wrote rfl (add_sx32_eq x b),
    .of_wrote rfl rfl⟩

theorem selectAndImmediates : SelectAndImmediates := by
  intro s d a b c i14 i19 i18
  exact ⟨.of_wrote rfl rfl, .of_wrote rfl (add_sx32_eq _ i14), .of_wrote rfl rfl, .of_wrote rfl (append_low14_eq i18 _)⟩

theorem extensionRegisters : ExtensionRegisters := by
  intro s d a i19
  exact ⟨.of_plain rfl rfl, .of_plain rfl rfl, .of_plain rfl rfl, .of_wrote rfl rfl, fun r m n x => r.ext_setExt n m x⟩

/-- Settles O4: each form is one of a function of R107 or R108 to R110, written to a register. -/
theorem shortFormsAndImmediates : Obligations.ShortFormsAndImmediates :=
  ⟨shortIntegerForms, selectAndImmediates, extensionRegisters⟩

end Sys2Proof.Machine
end

section
/-!
PROOFS. Control transfers (R62, R105, R111 to R115): branches, jumps and their links, and targets with bit 0 set.
-/

namespace Sys2Proof.Machine

/-- A transfer completes with the registers it makes, once its ports are ready. -/
theorem Completes.of_transfer {s : State} {i : Instr} {srcs dsts : List (BitVec 5)} {f : Regs → Regs} {r : Regs}
    (h : exec i s = .next (s.transfer srcs dsts fun r => .ok (f r))) (e : f s.regs = r) : Completes i s srcs dsts r := by
  subst e
  exact fun ports => h.trans (congrArg _ (s.transfer_of_ready ports))

/-! ### Targets (R62, R111, R112) -/

theorem shl_one_eq (x : Word) : x <<< 1 = 2 * x := by
  rw [BitVec.shiftLeft_eq_mul_twoPow, BitVec.mul_comm]
  rfl

theorem relTarget_eq {n : Nat} (pc : Word) (off : BitVec n) :
    relTarget pc off = pc + BitVec.ofInt 32 (2 * off.toInt) := by
  rw [relTarget, shl_one_eq, BitVec.ofInt_mul]
  rfl

theorem absTarget_eq (off : BitVec 24) : zx32 off <<< 1 = BitVec.ofNat 32 (2 * off.toNat) := by
  rw [shl_one_eq, BitVec.ofNat_mul, BitVec.ofNat_toNat]
  rfl

/-- No scalar register is the program counter. -/
theorem Regs.pc_setVal (r : Regs) (d : BitVec 5) (x : Word) : (r.setVal d x).pc = r.pc := by
  unfold Regs.setVal Regs.put
  split
  · rfl
  · split <;> rfl

/-- A branch goes to its target where its condition holds, and on by its length where it does not (R111). -/
theorem Regs.branchTo_eq {n : Nat} (r : Regs) (off : BitVec n) (len : Nat) {taken : Bool} {c : Prop} [Decidable c]
    (h : taken = true ↔ c) : r.branchTo taken (relTarget r.pc off) len =
      { r with pc := if c then r.pc + BitVec.ofInt 32 (2 * off.toInt) else r.pc + BitVec.ofNat 32 len } := by
  rw [Regs.branchTo, relTarget_eq, if_congr h rfl rfl]

section
variable {s : State} {i : Instr} {d a : BitVec 5} {c : Prop} [Decidable c]

/-- A branch on two registers (R113). -/
theorem Completes.of_cmpBranch {o : BitVec 14} {cond : Word → Word → Bool} (e : exec i s = s.cmpBranch d a o cond)
    (h : cond (s.regs.val d) (s.regs.val a) = true ↔ c) : Completes i s [d, a] []
      { s.regs with pc := if c then s.regs.pc + BitVec.ofInt 32 (2 * o.toInt) else s.regs.pc + 4 } :=
  .of_transfer e (s.regs.branchTo_eq o 4 h)

/-- A branch on a register's being zero, or not (R114). -/
theorem Completes.of_zeroBranch {n len : Nat} {o : BitVec n} {onZero : Bool} (e : exec i s = s.zeroBranch d o len onZero)
    (h : ((s.regs.val d == 0) == onZero) = true ↔ c) : Completes i s [d] []
      { s.regs with pc := if c then s.regs.pc + BitVec.ofInt 32 (2 * o.toInt) else s.regs.pc + BitVec.ofNat 32 len } :=
  .of_transfer e (s.regs.branchTo_eq o len h)

end

theorem branches : Branches := by
  intro s d a o p _ x y pc go
  refine ⟨.of_cmpBranch rfl beq_iff_eq, .of_cmpBranch rfl bne_iff_ne, .of_cmpBranch rfl BitVec.slt_iff_toInt_lt,
    .of_cmpBranch (cond := fun x y => !x.slt y) rfl ?_, .of_cmpBranch rfl BitVec.ult_iff_toNat_lt,
    .of_cmpBranch (cond := fun x y => !x.ult y) rfl ?_, .of_zeroBranch (len := 4) (onZero := true) rfl ?_,
    .of_zeroBranch (len := 4) (onZero := false) rfl ?_, .of_zeroBranch (len := 2) (onZero := true) rfl ?_,
    .of_zeroBranch (len := 2) (onZero := false) rfl ?_, .of_transfer rfl ?_⟩
  case refine_1 => simp [BitVec.slt, x, y]
  case refine_2 => simp [BitVec.ult, x, y]
  case refine_3 | refine_5 => simp [x]
  case refine_4 | refine_6 => simp [x]
  case refine_7 =>
    have taken : (x - 1 != 0) = true ↔ x - 1 ≠ 0 := bne_iff_ne
    have done := (s.regs.setVal d (x - 1)).branchTo_eq o 4 taken
    rwa [Regs.pc_setVal] at done

/-! ### Jumps through a register (R105, R112) -/

section
variable {s : State} {i : Instr} {a : BitVec 5} {len : Nat} {link : Bool}

theorem getLsbD_zero_iff_odd (t : Word) : t.getLsbD 0 = true ↔ t.toNat % 2 = 1 := by
  simp [BitVec.getLsbD, Nat.testBit_zero]

/-- A jump through a register completes on an even target, and in a follower on any. -/
theorem Completes.of_jumpReg (e : exec i s = s.jumpReg a len link)
    (h : s.me.state = .follow ∨ (s.regs.val a).toNat % 2 = 0) : Completes i s [a] (if link then [31] else [])
      { (if link then s.regs.setVal 31 (s.regs.pc + BitVec.ofNat 32 len) else s.regs) with pc := s.regs.val a } := by
  intro ports
  have even : ((s.regs.val a).getLsbD 0 && !(s.me.state == .follow)) = false := by
    rw [← Bool.not_eq_true, Bool.and_eq_true, getLsbD_zero_iff_odd]
    rcases h with h | h <;> simp [h]
  rw [e, State.jumpReg, s.transfer_of_ready ports]
  dsimp only
  rw [even]
  rfl

/-- On an odd one it faults with "branch target", in a thread that does not follow. -/
theorem Faults.of_jumpReg (e : exec i s = s.jumpReg a len link) (h : s.me.state ≠ .follow)
    (odd : (s.regs.val a).toNat % 2 = 1) :
    Faults i s [a] (if link then [31] else []) ⟨0x02, 0x02, (s.regs.val a).zeroExtend 64, 0⟩ := by
  intro ports
  have faults : ((s.regs.val a).getLsbD 0 && !(s.me.state == .follow)) = true := by
    rw [Bool.and_eq_true, getLsbD_zero_iff_odd]
    simp [h, odd]
  rw [e, State.jumpReg, s.transfer_of_ready ports]
  dsimp only
  rw [faults]
  rfl

end

theorem jumps : Jumps := by
  intro s a o _ r t
  refine ⟨.of_transfer rfl (by rw [relTarget_eq]), .of_transfer rfl (by rw [absTarget_eq]),
    .of_transfer rfl (by rw [absTarget_eq]), fun even => ?_⟩
  exact ⟨.of_jumpReg (link := false) rfl (.inr even), .of_jumpReg (link := false) rfl (.inr even),
    .of_jumpReg (link := true) rfl (.inr even), .of_jumpReg (link := true) rfl (.inr even)⟩

/-- Taking a fault changes no register (R44, R291). -/
theorem State.regs_trapMe (s : State) (f : FaultInfo) : (s.trapMe f).regs = s.regs := by
  cases busy : (s.core s.curCore).seqBusy s.curSlot with
  | false =>
    obtain ⟨w, l, me, -⟩ := s.trapMe_leaves f busy
    rw [State.regs, me]
    rfl
  | true =>
    have waits : s.trapMe f = s.updMe fun t => { t.idle with
        state := .sleep
        pendFault := some ⟨f.cls, f.detail, f.addr, f.scope, decide (s.me.gang ≠ 0)⟩ } := if_pos busy
    rw [waits, State.regs, State.me_updMe]
    rfl

/-- A follower that completes without a push follows on. -/
theorem State.completed_follows {s : State} {srcs dsts : List (BitVec 5)} {r : Regs} (h : s.me.state = .follow)
    (noPush : 30#5 ∉ dsts) : (s.completed srcs dsts r).me.state = .follow := by
  rw [State.completed, if_neg noPush, State.me_setRegs]
  exact h

theorem oddTargets : OddTargets := by
  intro s a odd
  refine ⟨fun leads => ⟨.of_jumpReg (link := false) rfl leads odd, .of_jumpReg (link := false) rfl leads odd,
    .of_jumpReg (link := true) rfl leads odd, .of_jumpReg (link := true) rfl leads odd,
    by rw [State.regs_trapMe], by rw [State.regs_trapMe]⟩, fun follows ports i hi => ?_⟩
  have goes {i : Instr} {len : Nat} {link : Bool} (e : exec i s = s.jumpReg a len link) :
      ∃ t : State, exec i s = .next t ∧ t.me.state = .follow := by
    have ready : s.portsReady [a] (if link then [31] else []) :=
      ⟨ports.1, ports.2.1, by cases link <;> simp⟩
    exact ⟨_, Completes.of_jumpReg e (.inl follows) ready, State.completed_follows follows (by cases link <;> simp)⟩
  simp only [List.mem_cons, List.not_mem_nil, or_false] at hi
  rcases hi with rfl | rfl | rfl | rfl
  · exact goes (link := false) rfl
  · exact goes (link := false) rfl
  · exact goes (link := true) rfl
  · exact goes (link := true) rfl

/-- Settles O5: branches by the rule of their form, jumps by their targets, and no register changes in a fault. -/
theorem controlTransfers : Obligations.ControlTransfers := ⟨branches, jumps, oddTargets⟩

end Sys2Proof.Machine
end

section
/-!
PROOFS. Magnitudes and their grids (R77, R79, R82): what the model's comparisons, floors and encodings are as rational
numbers.
-/

namespace Sys2Proof.Machine

/-! ### Powers of two -/

section
variable {K : Type} [Field K] [LinearOrder K] [IsStrictOrderedRing K]

theorem two_zpow_split {q e : Int} (h : q ≤ e) : (2 : K) ^ e = ((2 ^ (e - q).toNat : Nat) : K) * 2 ^ q := by
  push_cast
  rw [← zpow_natCast, ← zpow_add₀ two_ne_zero]
  congr 1
  omega

/-- The binade of a magnitude. -/
theorem log_eq_of_mem_binade {x : K} {k : Int} [FloorSemiring K] (lo : 2 ^ k ≤ x) (hi : x < 2 ^ (k + 1)) : Int.log 2 x = k := by
  have pos : 0 < x := (zpow_pos two_pos k).trans_le lo
  have lo' := (Int.zpow_le_iff_le_log (b := 2) one_lt_two pos).1 (by exact_mod_cast lo)
  have hi' := (Int.lt_zpow_iff_log_lt (b := 2) one_lt_two pos).1 (by exact_mod_cast hi)
  omega

theorem zpow_le_iff_le_log_two {x : K} [FloorSemiring K] (pos : 0 < x) {k : Int} : 2 ^ k ≤ x ↔ k ≤ Int.log 2 x := by
  simpa using Int.zpow_le_iff_le_log (b := 2) one_lt_two pos (x := k)

theorem log_cast_rat {x : ℚ} : Int.log 2 (x : ℝ) = Int.log 2 x := by
  rcases le_or_gt x 0 with h | h
  · rw [Int.log_of_right_le_zero _ h, Int.log_of_right_le_zero _ (by exact_mod_cast h)]
  · have lo := (Rat.cast_le (K := ℝ)).2 ((zpow_le_iff_le_log_two h).2 le_rfl)
    have hi := (Rat.cast_lt (K := ℝ)).2 (Int.lt_zpow_succ_log_self (b := 2) one_lt_two x)
    exact log_eq_of_mem_binade (by simpa using lo) (by simpa using hi)

end

theorem log_natCast_mul_zpow {m : Nat} (h : 0 < m) (e : Int) : Int.log 2 ((m : ℚ) * 2 ^ e) = Nat.log2 m + e := by
  have lo : (2 : ℚ) ^ Nat.log2 m ≤ m := by exact_mod_cast Nat.log2_self_le h.ne'
  have hi : (m : ℚ) < 2 ^ (Nat.log2 m + 1) := by exact_mod_cast Nat.lt_log2_self
  have pos : (0 : ℚ) < 2 ^ e := by positivity
  refine log_eq_of_mem_binade ?_ ?_
  · rw [zpow_add₀ two_ne_zero, zpow_natCast]
    gcongr
  · rw [show (Nat.log2 m : Int) + e + 1 = ((Nat.log2 m + 1 : Nat) : Int) + e by push_cast; ring, zpow_add₀ two_ne_zero,
      zpow_natCast]
    gcongr

theorem magLog2_eq {m : Nat} (h : 0 < m) (e : Int) : magLog2 m e = Int.log 2 ((m : ℚ) * 2 ^ e) :=
  (log_natCast_mul_zpow h e).symm

theorem magLog2_lt_iff {m : Nat} (h : 0 < m) {e k : Int} : magLog2 m e < k ↔ (m : ℚ) * 2 ^ e < 2 ^ k := by
  rw [magLog2_eq h, ← not_le, ← zpow_le_iff_le_log_two (by positivity), not_le]

theorem le_magLog2_iff {m : Nat} (h : 0 < m) {e k : Int} : k ≤ magLog2 m e ↔ (2 : ℚ) ^ k ≤ m * 2 ^ e := by
  rw [magLog2_eq h, ← zpow_le_iff_le_log_two (by positivity)]

theorem magLe_iff {m n : Nat} {e f : Int} : magLe m e n f = true ↔ (m : ℚ) * 2 ^ e ≤ n * 2 ^ f := by
  unfold magLe
  split
  next h =>
    rw [two_zpow_split h, ← mul_assoc, mul_le_mul_iff_of_pos_right (by positivity), decide_eq_true_eq]
    exact_mod_cast Iff.rfl
  next h =>
    rw [two_zpow_split (not_le.1 h).le, ← mul_assoc, mul_le_mul_iff_of_pos_right (by positivity), decide_eq_true_eq]
    exact_mod_cast Iff.rfl

/-! ### Units of a grid -/

/-- The units of a grid below a magnitude, with the remainder as parts of a unit. -/
theorem splitUnits_spec (m : Nat) (e q : Int) : ∃ n r u, splitUnits m e q = (n, r, u) ∧ r < u ∧
    (m : ℚ) * 2 ^ e / 2 ^ q = n + r / u := by
  have unit : (2 : ℚ) ^ q ≠ 0 := by positivity
  unfold splitUnits
  split
  next h =>
    refine ⟨_, _, _, rfl, one_pos, ?_⟩
    rw [two_zpow_split h]
    field_simp
    push_cast
    ring
  next h =>
    refine ⟨_, _, _, rfl, Nat.mod_lt _ (by positivity), ?_⟩
    set u := 2 ^ (q - e).toNat with hu
    have pos : (u : ℚ) ≠ 0 := by rw [hu]; positivity
    have parts : (m : ℚ) = u * (m / u : Nat) + (m % u : Nat) := by exact_mod_cast (Nat.div_add_mod m u).symm
    rw [two_zpow_split (not_le.1 h).le, ← hu, mul_div_mul_right _ _ (by positivity), div_eq_iff pos, add_mul,
      div_mul_cancel₀ _ pos, mul_comm _ (u : ℚ)]
    exact parts

/-- What splits as units and a remainder has the units as its floor. -/
theorem floor_units {n r u : Nat} (h : r < u) : ⌊(n : ℚ) + r / u⌋ = n := by
  have below : (r : Int) / u = 0 := by exact_mod_cast Nat.div_eq_of_lt h
  rw [Int.floor_natCast_add, Rat.floor_natCast_div_natCast, below, add_zero]

theorem units_exact_iff {n r u : Nat} (h : r < u) : (n : ℚ) = n + r / u ↔ r = 0 := by
  have : (u : ℚ) ≠ 0 := by exact_mod_cast (Nat.zero_le r |>.trans_lt h).ne'
  simp [this]

theorem unitsFloor_eq (m : Nat) (e q : Int) :
    unitsFloor m e q = ((splitUnits m e q).1, decide ((splitUnits m e q).2.1 = 0)) := by
  unfold unitsFloor splitUnits
  split
  next => simp
  next =>
    have parts := Nat.div_add_mod m (2 ^ (q - e).toNat)
    simp only [Nat.shiftRight_eq_div_pow, Nat.shiftLeft_eq, Prod.mk.injEq, true_and]
    rw [Bool.beq_eq_decide_eq, decide_eq_decide, mul_comm]
    omega

/-- The units of a grid below a magnitude, made odd where something is left (R79). -/
def oddUnits (m : Nat) (e q : Int) : Nat := if (unitsFloor m e q).2 then (unitsFloor m e q).1 else (unitsFloor m e q).1 ||| 1

theorem or_one_eq (n : Nat) : n ||| 1 = if n % 2 = 1 then n else n + 1 := by
  have low : (n ||| 1) % 2 = 1 := by simp
  have high : (n ||| 1) / 2 = n / 2 := by simp [Nat.or_div_two]
  split <;> omega

theorem oddUnits_eq (m : Nat) (e q : Int) : (oddUnits m e q : Int) = toOdd ((m : ℚ) * 2 ^ e / 2 ^ q) := by
  obtain ⟨n, r, u, split, lt, value⟩ := splitUnits_spec m e q
  have exact := units_exact_iff (n := n) lt
  rw [oddUnits, unitsFloor_eq, split, toOdd, value, floor_units lt, Int.cast_natCast]
  simp only [exact, decide_eq_true_eq, or_one_eq]
  by_cases h : r = 0
  · simp [h]
  · by_cases p : n % 2 = 1
    · simp [h, p, show (n : Int) % 2 = 1 by omega]
    · simp [h, p, show ¬(n : Int) % 2 = 1 by omega]

/-- Units of a grid rounded to a point of it: the units below, or the next ones. -/
def roundedUnits (mode : Mode) (neg odd : Bool) (n r u draw : Nat) : Nat :=
  if r = 0 then n else if roundsUp mode neg odd r u draw then n + 1 else n

/-- Final rounding as the model computes it is R82's. -/
theorem picked_eq {mode : Mode} {neg odd : Bool} {n r u draw : Nat} (lt : r < u) (parity : odd = decide (n % 2 = 1)) :
    picked mode neg draw (n + r / u) = roundedUnits mode neg odd n r u draw := by
  have pos : (0 : ℚ) < u := by exact_mod_cast Nat.zero_le r |>.trans_lt lt
  have even : ((n : Int) % 2 = 0) ↔ odd = false := by rw [parity]; simp; omega
  have odd_iff : ((n : Int) % 2 = 1) ↔ odd = true := by rw [parity]; simp; omega
  have frac : ⌊(r : ℚ) / u * 2 ^ 16⌋ = (r * 2 ^ 16 / u : Nat) := by
    have e := Rat.floor_natCast_div_natCast (r * 2 ^ 16) u
    rw [div_mul_eq_mul_div]
    exact_mod_cast e
  have whole : ((r * 2 ^ 16 / u : Nat) : ℚ) = r / u * 2 ^ 16 ↔ r * 2 ^ 16 / u * u = r * 2 ^ 16 := by
    rw [div_mul_eq_mul_div, eq_div_iff pos.ne']
    exact_mod_cast Iff.rfl
  have half : (r : ℚ) / u < 1 / 2 ↔ 2 * r < u := by
    rw [div_lt_div_iff₀ pos two_pos]
    norm_cast
    omega
  have tie : (r : ℚ) / u = 1 / 2 ↔ 2 * r = u := by
    rw [div_eq_div_iff pos.ne' two_ne_zero]
    norm_cast
    omega
  have zero : (r : ℚ) / u = 0 ↔ r = 0 := by simp [pos.ne']
  have sticky : (if ((r * 2 ^ 16 / u : Nat) : ℚ) = r / u * 2 ^ 16 ∨ ((r * 2 ^ 16 / u : Nat) : Int) % 2 = 1
      then ((r * 2 ^ 16 / u : Nat) : Int) else (r * 2 ^ 16 / u : Nat) + 1) = frac16 r u := by
    simp only [frac16, whole, or_one_eq]
    split_ifs <;> omega
  unfold picked roundedUnits
  simp only [floor_units lt, Int.cast_natCast, add_sub_cancel_left, zero, frac, half, tie, sticky]
  by_cases h : r = 0
  · simp [h]
  · simp only [h, if_false]
    cases mode with
    | rne =>
      simp only [roundsUp, even]
      by_cases lo : 2 * r < u
      · simp [lo, show ¬u < 2 * r by omega, show ¬2 * r = u by omega]
      · by_cases mid : 2 * r = u
        · cases odd <;> simp [mid]
        · simp [lo, mid, show u < 2 * r by omega]
    | rna =>
      simp only [roundsUp, decide_eq_true_eq]
      split_ifs <;> omega
    | rtz => rfl
    | rup => cases neg <;> rfl
    | rdn => cases neg <;> rfl
    | sr =>
      simp only [roundsUp, decide_eq_true_eq]
      split_ifs <;> omega
    | keepOdd =>
      simp only [roundsUp, odd_iff]
      cases odd <;> rfl

theorem roundedUnits_le (mode : Mode) (neg odd : Bool) (n r u draw : Nat) :
    n ≤ roundedUnits mode neg odd n r u draw ∧ roundedUnits mode neg odd n r u draw ≤ n + 1 := by
  unfold roundedUnits
  split_ifs <;> omega

/-- A rounded number of units is the number itself exactly where no part of a unit is left. -/
theorem roundedUnits_exact_iff {mode : Mode} {neg odd : Bool} {n r u draw : Nat} (lt : r < u) :
    (roundedUnits mode neg odd n r u draw : ℚ) = n + r / u ↔ r = 0 := by
  have pos : (0 : ℚ) < u := by exact_mod_cast Nat.zero_le r |>.trans_lt lt
  have part : (r : ℚ) / u < 1 := (div_lt_one pos).2 (by exact_mod_cast lt)
  unfold roundedUnits
  split_ifs with zero up
  · exact ⟨fun _ => zero, fun _ => (units_exact_iff lt).2 zero⟩
  · push_cast
    exact ⟨fun same => by linarith, fun z => absurd z zero⟩
  · exact units_exact_iff lt

/-- Rounding to odd keeps an integer, and takes any other number to an odd one beside it. -/
theorem toOdd_spec (x : ℚ) : (toOdd x : ℚ) = x ∨ (toOdd x % 2 = 1 ∧ |(toOdd x : ℚ) - x| < 1) := by
  have lo := Int.floor_le x
  have hi := Int.lt_floor_add_one x
  unfold toOdd
  by_cases exact : (⌊x⌋ : ℚ) = x
  · simp [exact]
  · have below : (⌊x⌋ : ℚ) < x := lt_of_le_of_ne lo exact
    right
    split
    next h => exact ⟨h.resolve_left exact, by rw [abs_lt]; constructor <;> linarith⟩
    next h =>
      refine ⟨by omega, ?_⟩
      push_cast
      rw [abs_lt]
      constructor <;> linarith

theorem oddUnits_cast (m : Nat) (e q : Int) : (oddUnits m e q : ℚ) = (toOdd ((m : ℚ) * 2 ^ e / 2 ^ q) : Int) := by
  exact_mod_cast congrArg (Int.cast (R := ℚ)) (oddUnits_eq m e q)

end Sys2Proof.Machine
end

section
/-!
PROOFS. Encodings (R72, R73, R77): the value of an encoding, which grows with it, and what an encoding with a sign and a
tail reads as.
-/

namespace Sys2Proof.Machine

/-- What the formats of R72 have in common. -/
structure Fmt.Sound (f : Fmt) : Prop where
  frac   : 1 ≤ f.fbits
  fits   : f.width ≤ 64
  normal : 2 ^ f.fbits ≤ f.maxEnc
  top    : f.maxEnc < f.signBit
  inf    : f.hasInf = true → f.maxEnc < f.infEnc ∧ f.infEnc < f.signBit
  nans   : f.hasNan = false → f.signBit ≤ f.maxEnc + 1
  units  : f.emin ≤ 0

theorem fmt_sound_of_mem {f : Fmt}
    (h : f ∈ [fmtF64, fmtF32, fmtBf16, fmtF16, fmtE4m3, fmtE5m2, fmtE3m2, fmtE2m3, fmtE2m1]) : f.Sound := by
  have all : ∀ f ∈ [fmtF64, fmtF32, fmtBf16, fmtF16, fmtE4m3, fmtE5m2, fmtE3m2, fmtE2m3, fmtE2m1],
      1 ≤ f.fbits ∧ f.width ≤ 64 ∧ 2 ^ f.fbits ≤ f.maxEnc ∧ f.maxEnc < f.signBit ∧
      (f.hasInf = true → f.maxEnc < f.infEnc ∧ f.infEnc < f.signBit) ∧
      (f.hasNan = false → f.signBit ≤ f.maxEnc + 1) ∧ f.emin ≤ 0 := by decide
  obtain ⟨frac, fits, normal, top, inf, nans, units⟩ := all f h
  exact ⟨frac, fits, normal, top, inf, nans, units⟩

theorem tyOf_flt_sound {ty : BitVec 5} {f : Fmt} (h : tyOf ty = .flt f) : f.Sound := by
  have all : ∀ ty : BitVec 5, ∀ g ∈ (match tyOf ty with | .flt f => [f] | _ => []),
      g ∈ [fmtF64, fmtF32, fmtBf16, fmtF16, fmtE4m3, fmtE5m2, fmtE3m2, fmtE2m3, fmtE2m1] := by decide
  exact fmt_sound_of_mem (all ty f (by simp [h]))

/-! ### Points of a format's grid -/

/-- An encoding without a sign: `n` units of a binade from the smallest normal one up. -/
def Fmt.enc (f : Fmt) (ex : Int) (n : Nat) : Nat := (ex - f.emin).toNat * 2 ^ f.fbits + n

/-- `n` units of the binade `ex` are a point of the format's grid, in the lowest binade a subnormal one too. -/
structure Fmt.Point (f : Fmt) (ex : Int) (n : Nat) : Prop where
  low  : f.emin ≤ ex
  unit : n < 2 ^ (f.fbits + 1)
  lead : 2 ^ f.fbits ≤ n ∨ ex = f.emin

/-- The magnitude of an encoding without a sign (R73). -/
def Fmt.encVal (f : Fmt) (mag : Nat) : ℚ :=
  if mag < 2 ^ f.fbits then mag * 2 ^ (f.emin - f.fbits)
  else (2 ^ f.fbits + mag % 2 ^ f.fbits : Nat) * 2 ^ ((mag / 2 ^ f.fbits : Nat) - f.bias - f.fbits : Int)

section
variable {f : Fmt} {ex : Int} {n : Nat}

theorem Fmt.enc_succ : f.enc ex (n + 1) = f.enc ex n + 1 := rfl

theorem Fmt.exists_point (mag : Nat) : ∃ ex n, f.Point ex n ∧ mag = f.enc ex n := by
  have parts := Nat.div_add_mod mag (2 ^ f.fbits)
  have lt := Nat.mod_lt mag (Nat.two_pow_pos f.fbits)
  by_cases h : mag < 2 ^ f.fbits
  · exact ⟨f.emin, mag, ⟨le_rfl, by omega, .inr rfl⟩, by simp [Fmt.enc]⟩
  · have k : 1 ≤ mag / 2 ^ f.fbits := (Nat.one_le_div_iff (Nat.two_pow_pos _)).2 (not_lt.1 h)
    refine ⟨f.emin + (mag / 2 ^ f.fbits - 1 : Nat), 2 ^ f.fbits + mag % 2 ^ f.fbits, ⟨by omega, by omega, .inl (by omega)⟩, ?_⟩
    obtain ⟨j, hj⟩ := Nat.exists_eq_add_of_le k
    rw [hj] at parts ⊢
    simp only [Fmt.enc, add_sub_cancel_left, Int.toNat_natCast, Nat.add_sub_cancel_left]
    linarith

theorem Fmt.encVal_of_subnormal (h : n < 2 ^ f.fbits) : f.encVal n = n * 2 ^ (f.emin - f.fbits) := if_pos h

/-- A normal encoding: `k` binades above the lowest, with `n` below the leading bit. -/
theorem Fmt.encVal_of_normal {k : Nat} (h : n < 2 ^ f.fbits) :
    f.encVal ((k + 1) * 2 ^ f.fbits + n) = (2 ^ f.fbits + n : Nat) * 2 ^ (f.emin + k - f.fbits) := by
  have pos := Nat.two_pow_pos f.fbits
  have div : ((k + 1) * 2 ^ f.fbits + n) / 2 ^ f.fbits = k + 1 := by
    rw [mul_comm, Nat.mul_add_div pos, Nat.div_eq_of_lt h, add_zero]
  have mod : ((k + 1) * 2 ^ f.fbits + n) % 2 ^ f.fbits = n := by
    rw [mul_comm, Nat.mul_add_mod, Nat.mod_eq_of_lt h]
  have big : ¬(k + 1) * 2 ^ f.fbits + n < 2 ^ f.fbits := by nlinarith
  rw [Fmt.encVal, if_neg big, div, mod]
  congr 2
  simp only [Fmt.emin]
  push_cast
  ring

/-- A point of the grid has its magnitude, and so has the point after the last one of a binade. -/
theorem Fmt.encVal_enc (low : f.emin ≤ ex) (unit : n ≤ 2 ^ (f.fbits + 1)) (lead : 2 ^ f.fbits ≤ n ∨ ex = f.emin) :
    f.encVal (f.enc ex n) = n * 2 ^ (ex - f.fbits) := by
  obtain ⟨k, rfl⟩ : ∃ k : Nat, ex = f.emin + k := ⟨(ex - f.emin).toNat, by omega⟩
  have shift : f.enc (f.emin + k) n = k * 2 ^ f.fbits + n := by simp [Fmt.enc]
  rw [shift]
  rcases lt_or_ge n (2 ^ f.fbits) with h | h
  · obtain rfl : k = 0 := by rcases lead with l | l <;> omega
    simpa using f.encVal_of_subnormal h
  · obtain ⟨j, rfl⟩ := Nat.exists_eq_add_of_le h
    rcases lt_or_ge j (2 ^ f.fbits) with g | g
    · rw [show k * 2 ^ f.fbits + (2 ^ f.fbits + j) = (k + 1) * 2 ^ f.fbits + j by ring, f.encVal_of_normal g]
    · obtain rfl : j = 2 ^ f.fbits := by omega
      rw [show k * 2 ^ f.fbits + (2 ^ f.fbits + 2 ^ f.fbits) = (k + 1 + 1) * 2 ^ f.fbits + 0 by ring,
        f.encVal_of_normal (Nat.two_pow_pos _), show f.emin + (k + 1 : Nat) - f.fbits = f.emin + k - f.fbits + 1 by push_cast; ring,
        zpow_add_one₀ two_ne_zero]
      push_cast
      ring

theorem Fmt.Point.encVal (p : f.Point ex n) : f.encVal (f.enc ex n) = n * 2 ^ (ex - f.fbits) :=
  f.encVal_enc p.low p.unit.le p.lead

theorem Fmt.Point.encVal_succ (p : f.Point ex n) : f.encVal (f.enc ex n + 1) = (n + 1 : Nat) * 2 ^ (ex - f.fbits) :=
  f.encVal_enc p.low p.unit (by rcases p.lead with l | l <;> omega)

theorem Fmt.encVal_strictMono (f : Fmt) : StrictMono f.encVal := strictMono_nat_of_lt_succ fun mag => by
  obtain ⟨ex, n, p, rfl⟩ := f.exists_point mag
  rw [p.encVal, p.encVal_succ]
  gcongr
  exact n.lt_succ_self

theorem Fmt.encVal_zero (f : Fmt) : f.encVal 0 = 0 := by
  rw [f.encVal_of_subnormal (Nat.two_pow_pos _)]
  simp

theorem Fmt.encVal_pos {mag : Nat} : 0 < f.encVal mag ↔ 0 < mag := by
  rw [← f.encVal_strictMono.lt_iff_lt, f.encVal_zero]

/-- The smallest normal magnitude. -/
theorem Fmt.encVal_leastNormal (f : Fmt) : f.encVal (2 ^ f.fbits) = 2 ^ f.emin := by
  have e := f.encVal_enc le_rfl (Nat.pow_le_pow_right two_pos (Nat.le_succ f.fbits)) (.inr rfl)
  simp only [Fmt.enc, sub_self, Int.toNat_zero, zero_mul, zero_add] at e
  rw [e, zpow_sub₀ two_ne_zero]
  push_cast
  rw [zpow_natCast, mul_div_cancel₀ _ (by positivity)]

/-- The overflow point is where the encoding after the largest finite one would lie (R79). -/
theorem Fmt.Sound.encVal_overflow (h : f.Sound) : f.encVal (f.maxEnc + 1) = overflowOf f := by
  have parts := Nat.div_add_mod f.maxEnc (2 ^ f.fbits)
  have k : 1 ≤ f.maxEnc / 2 ^ f.fbits := (Nat.one_le_div_iff (Nat.two_pow_pos _)).2 h.normal
  obtain ⟨j, hj⟩ := Nat.exists_eq_add_of_le k
  have lt := Nat.mod_lt f.maxEnc (Nat.two_pow_pos f.fbits)
  have e := f.encVal_enc (ex := f.emin + j) (n := 2 ^ f.fbits + f.maxEnc % 2 ^ f.fbits + 1) (by omega) (by omega)
    (.inl (by omega))
  have place : f.enc (f.emin + j) (2 ^ f.fbits + f.maxEnc % 2 ^ f.fbits + 1) = f.maxEnc + 1 := by
    simp only [Fmt.enc, add_sub_cancel_left, Int.toNat_natCast]
    rw [hj] at parts
    linarith
  rw [← place, e]
  simp only [overflowOf, Fmt.ov, Fmt.emin, hj]
  congr 2
  push_cast
  ring

theorem Fmt.Sound.lt_overflow_iff (h : f.Sound) {mag : Nat} : f.encVal mag < overflowOf f ↔ mag ≤ f.maxEnc := by
  rw [← h.encVal_overflow, f.encVal_strictMono.lt_iff_lt, Nat.lt_succ_iff]

end

/-! ### Reading an encoding with its sign and tail -/

section
variable {f : Fmt}

theorem Fmt.Sound.signBit_lt (h : f.Sound) : 2 * f.signBit = 2 ^ f.width ∧ 2 ^ f.width ≤ 2 ^ 64 := by
  refine ⟨?_, Nat.pow_le_pow_right two_pos h.fits⟩
  rw [Fmt.signBit, Fmt.width, add_assoc, pow_add 2 1, pow_one]

theorem Fmt.Sound.signed_toNat (h : f.Sound) {mag : Nat} (lt : mag < f.signBit) (neg : Bool) :
    (f.signed neg mag).toNat = mag + if neg then f.signBit else 0 := by
  obtain ⟨twice, fits⟩ := h.signBit_lt
  rw [Fmt.signed, BitVec.toNat_ofNat, Nat.mod_eq_of_lt]
  split <;> omega

theorem Fmt.Sound.signed_lt (h : f.Sound) {mag : Nat} (lt : mag < f.signBit) (neg : Bool) :
    (f.signed neg mag).toNat < 2 ^ f.width := by
  obtain ⟨twice, fits⟩ := h.signBit_lt
  rw [h.signed_toNat lt]
  split <;> omega

/-- The sign and the magnitude of what is written with a sign. -/
theorem Fmt.Sound.signed_parts (h : f.Sound) {mag : Nat} (lt : mag < f.signBit) (neg : Bool) :
    decide (f.signBit ≤ (f.signed neg mag).toNat % 2 ^ f.width) = neg ∧
    (f.signed neg mag).toNat % 2 ^ f.width % f.signBit = mag := by
  rw [Nat.mod_eq_of_lt (h.signed_lt lt neg), h.signed_toNat lt]
  cases neg with
  | false => simp [lt, Nat.mod_eq_of_lt lt]
  | true => simp [Nat.mod_eq_of_lt lt]

/-- A finite encoding reads as its units in quarters, the tail in the two lowest bits (R77). -/
theorem Fmt.xval_of_point {bits ex : _} {n : Nat} {t : BitVec 2} (p : f.Point ex n)
    (mag : bits % 2 ^ f.width % f.signBit = f.enc ex n) (le : f.enc ex n ≤ f.maxEnc) :
    f.xval bits t = .fin (decide (f.signBit ≤ bits % 2 ^ f.width)) (4 * n + t.toNat) (ex - f.fbits - 2) := by
  obtain ⟨k, rfl⟩ : ∃ k : Nat, ex = f.emin + k := ⟨(ex - f.emin).toNat, by have := p.low; omega⟩
  have shift : f.enc (f.emin + k) n = k * 2 ^ f.fbits + n := by simp [Fmt.enc]
  have pos := Nat.two_pow_pos f.fbits
  rw [shift] at mag le
  simp only [Fmt.xval, mag, if_neg (not_lt.2 le)]
  rcases lt_or_ge n (2 ^ f.fbits) with h | h
  · obtain rfl : k = 0 := by rcases p.lead with l | l <;> omega
    simp [Nat.div_eq_of_lt h, Nat.mod_eq_of_lt h]
  · clear le
    obtain ⟨j, rfl⟩ := Nat.exists_eq_add_of_le h
    have lt : j < 2 ^ f.fbits := by have := p.unit; omega
    have regroup : k * 2 ^ f.fbits + (2 ^ f.fbits + j) = 2 ^ f.fbits * (k + 1) + j := by ring
    have div : (2 ^ f.fbits * (k + 1) + j) / 2 ^ f.fbits = k + 1 := by
      rw [Nat.mul_add_div pos, Nat.div_eq_of_lt lt, add_zero]
    have mod : (2 ^ f.fbits * (k + 1) + j) % 2 ^ f.fbits = j := by rw [Nat.mul_add_mod, Nat.mod_eq_of_lt lt]
    rw [regroup, div, mod, if_neg k.succ_ne_zero]
    congr 1
    simp only [Fmt.emin]
    push_cast
    ring

theorem Fmt.Sound.xval_signed (h : f.Sound) {ex : Int} {n : Nat} {t : BitVec 2} (p : f.Point ex n)
    (le : f.enc ex n ≤ f.maxEnc) (neg : Bool) :
    f.xval (f.signed neg (f.enc ex n)).toNat t = .fin neg (4 * n + t.toNat) (ex - f.fbits - 2) := by
  obtain ⟨sign, mag⟩ := h.signed_parts (le.trans_lt h.top) neg
  rw [f.xval_of_point p mag le, sign]

theorem Fmt.Sound.xval_infinite (h : f.Sound) (inf : f.hasInf = true) (neg : Bool) (t : BitVec 2) :
    f.xval (f.signed neg f.infEnc).toNat t = .inf neg (t ≠ 0) := by
  obtain ⟨beyond, lt⟩ := h.inf inf
  obtain ⟨sign, mag⟩ := h.signed_parts lt neg
  simp only [Fmt.xval, mag, if_pos beyond, inf, Bool.true_and, sign, decide_true, if_true]

/-- A finite encoding without a tail has its magnitude. -/
theorem Fmt.Sound.hasMagnitude_signed (h : f.Sound) {mag : Nat} (le : mag ≤ f.maxEnc) (neg : Bool) :
    hasMagnitude (f.xval (f.signed neg mag).toNat 0) neg (f.encVal mag) := by
  obtain ⟨ex, n, p, rfl⟩ := f.exists_point mag
  rw [h.xval_signed p le, p.encVal, hasMagnitude]
  refine ⟨rfl, ?_⟩
  rw [show ex - f.fbits - 2 = ex - f.fbits + (-2 : Int) by ring, zpow_add₀ two_ne_zero]
  push_cast
  norm_num
  ring

end

end Sys2Proof.Machine
end

section
/-!
PROOFS. Rounding to odd (R79 to R81): the odd form of a magnitude is the odd number of quarters of an ulp beside it, and so
it is the odd form of every real number that the magnitude stands for.
-/

namespace Sys2Proof.Machine

/-! ### The binade of a magnitude -/

/-- The binade in whose units a format rounds a magnitude: its own, or the lowest one (R77). -/
def Fmt.binade (f : Fmt) (x : ℚ) : Int := max (Int.log 2 x) f.emin

theorem ulpOf_eq (f : Fmt) (x : ℚ) : ulpOf f x = 2 ^ (f.binade x - f.fbits) := rfl

section
variable {f : Fmt} {x : ℚ} {n : Nat}

/-- The units of a magnitude in its binade are a point of the format's grid. -/
theorem Fmt.point_of_floor (pos : 0 < x) (units : (n : Int) = ⌊x / 2 ^ (f.binade x - f.fbits)⌋) : f.Point (f.binade x) n := by
  have ulp : (0 : ℚ) < 2 ^ (f.binade x - f.fbits) := by positivity
  refine ⟨le_max_right .., ?_, ?_⟩
  · have own := Int.lt_zpow_succ_log_self (b := 2) one_lt_two x
    have above : (2 : ℚ) ^ (Int.log 2 x + 1) ≤ 2 ^ (f.binade x + 1) :=
      zpow_le_zpow_right₀ one_le_two (by simp [Fmt.binade])
    have below : x / 2 ^ (f.binade x - f.fbits) < ((2 ^ (f.fbits + 1) : Nat) : Int) := by
      rw [div_lt_iff₀ ulp]
      push_cast at own ⊢
      rw [← zpow_natCast, ← zpow_add₀ two_ne_zero,
        show ((f.fbits + 1 : Nat) : Int) + (f.binade x - f.fbits) = f.binade x + 1 by push_cast; ring]
      exact own.trans_le above
    have := Int.floor_lt.2 below
    omega
  · rcases le_total f.emin (Int.log 2 x) with h | h
    · have own : f.binade x = Int.log 2 x := max_eq_left h
      have reach : ((2 ^ f.fbits : Nat) : Int) ≤ x / 2 ^ (f.binade x - f.fbits) := by
        rw [le_div_iff₀ ulp]
        push_cast
        rw [← zpow_natCast, ← zpow_add₀ two_ne_zero, own, add_sub_cancel]
        exact (zpow_le_iff_le_log_two pos).2 le_rfl
      have := Int.le_floor.2 reach
      exact .inl (by omega)
    · exact .inr (max_eq_right h)

/-- It does not lie beyond the magnitude. -/
theorem Fmt.encVal_floor_le (pos : 0 < x) (units : (n : Int) = ⌊x / 2 ^ (f.binade x - f.fbits)⌋) :
    f.encVal (f.enc (f.binade x) n) ≤ x := by
  rw [(f.point_of_floor pos units).encVal, ← le_div_iff₀ (by positivity)]
  exact_mod_cast (Int.cast_mono units.le).trans (Int.floor_le _)

theorem Fmt.Sound.enc_floor_le (h : f.Sound) (pos : 0 < x) (lt : x < overflowOf f)
    (units : (n : Int) = ⌊x / 2 ^ (f.binade x - f.fbits)⌋) : f.enc (f.binade x) n ≤ f.maxEnc :=
  h.lt_overflow_iff.1 ((f.encVal_floor_le pos units).trans_lt lt)

theorem toOdd_div_four (x : ℚ) : toOdd x / 4 = ⌊x / 4⌋ := by
  have quarter := Int.floor_div_natCast x 4
  unfold toOdd
  push_cast at quarter
  rw [quarter]
  split <;> omega

end

/-! ### The odd form -/

section
variable {f : Fmt} {m : Nat} {e : Int} (neg : Bool) (fl : BitVec 6)

/-- The quarters of an ulp that a magnitude becomes. -/
def Fmt.quarters (f : Fmt) (m : Nat) (e : Int) : Nat := oddUnits m e (f.binade (m * 2 ^ e) - f.fbits - 2)

theorem Fmt.quarters_eq (f : Fmt) (m : Nat) (e : Int) :
    (f.quarters m e : Int) = toOdd (m * 2 ^ e / 2 ^ (f.binade (m * 2 ^ e) - f.fbits - 2)) := oddUnits_eq ..

theorem Fmt.quarters_div_four (f : Fmt) (m : Nat) (e : Int) :
    ((f.quarters m e / 4 : Nat) : Int) = ⌊(m : ℚ) * 2 ^ e / 2 ^ (f.binade (m * 2 ^ e) - f.fbits)⌋ := by
  push_cast
  rw [quarters_eq, toOdd_div_four, zpow_sub₀ two_ne_zero _ 2]
  congr 1
  field_simp
  norm_num

theorem Fmt.ro_finite (pos : 0 < m) (lt : (m : ℚ) * 2 ^ e < overflowOf f) : f.ro (.fin neg m e) fl =
    ⟨f.signed neg (f.enc (f.binade (m * 2 ^ e)) (f.quarters m e / 4)), BitVec.ofNat 2 (f.quarters m e), fl⟩ := by
  have below : ¬magLe f.ov.1 f.ov.2 m e = true := fun le => (magLe_iff.1 le).not_gt lt
  simp only [Fmt.ro, if_neg pos.ne', if_neg below, magLog2_eq pos]
  rfl

theorem Fmt.ro_overflow (pos : 0 < m) (le : overflowOf f ≤ (m : ℚ) * 2 ^ e) : f.ro (.fin neg m e) fl =
    if f.hasInf then ⟨f.signed neg f.infEnc, 1, fl⟩ else ⟨f.signed neg f.maxEnc, 3, fl⟩ := by
  have above : magLe f.ov.1 f.ov.2 m e = true := magLe_iff.2 le
  simp only [Fmt.ro, if_neg pos.ne', if_pos above]

theorem Fmt.ro_flags (x : XVal) : (f.ro x fl).flags = fl := by
  unfold Fmt.ro
  cases x with
  | nan => rfl
  | inf neg ovf => dsimp only; split <;> rfl
  | fin neg m e => dsimp only; split_ifs <;> rfl

/-- What the odd form of a magnitude below the overflow point reads as. -/
theorem Fmt.Sound.xval_ro (h : f.Sound) (pos : 0 < m) (lt : (m : ℚ) * 2 ^ e < overflowOf f) :
    f.xval (f.ro (.fin neg m e) fl).bits.toNat (f.ro (.fin neg m e) fl).tail =
      .fin neg (f.quarters m e) (f.binade (m * 2 ^ e) - f.fbits - 2) := by
  have mag : (0 : ℚ) < m * 2 ^ e := by positivity
  have units := f.quarters_div_four m e
  rw [f.ro_finite neg fl pos lt, h.xval_signed (f.point_of_floor mag units) (h.enc_floor_le mag lt units)]
  congr 1
  rw [BitVec.toNat_ofNat]
  omega

theorem Fmt.quarters_spec (f : Fmt) (m : Nat) (e : Int) :
    let q := f.binade (m * 2 ^ e) - f.fbits - 2
    (f.quarters m e : ℚ) * 2 ^ q = m * 2 ^ e ∨
      ((f.quarters m e : Int) % 2 = 1 ∧ |(f.quarters m e : ℚ) * 2 ^ q - m * 2 ^ e| < 2 ^ q) := by
  intro q
  have unit : (0 : ℚ) < 2 ^ q := by positivity
  have value : (f.quarters m e : ℚ) = (toOdd (m * 2 ^ e / 2 ^ q) : Int) := oddUnits_cast ..
  rw [value, f.quarters_eq]
  rcases toOdd_spec (m * 2 ^ e / 2 ^ q) with exact | ⟨odd, near⟩
  · exact .inl (by rw [exact, div_mul_cancel₀ _ unit.ne'])
  · refine .inr ⟨odd, ?_⟩
    rwa [← mul_lt_mul_iff_left₀ unit, one_mul, ← abs_of_pos unit, ← abs_mul, abs_of_pos unit, sub_mul,
      div_mul_cancel₀ _ unit.ne'] at near

end

/-- Settles O14: the odd form reads as the quarters of an ulp that its magnitude becomes. -/
theorem roundingToOdd : Obligations.RoundingToOdd := by
  intro f mem neg m e fl pos x
  have h : f.Sound := fmt_sound_of_mem (by simp only [List.mem_cons, List.not_mem_nil, or_false] at mem ⊢; tauto)
  have inf : f.hasInf = true := by
    have all : ∀ f ∈ [fmtF64, fmtF32, fmtBf16, fmtF16], f.hasInf = true := by decide
    exact all f mem
  refine ⟨f.ro_flags fl _, fun le => ?_, fun lt => ?_⟩
  · have form := f.ro_overflow neg fl pos (magLe_iff.1 le)
    rw [if_pos inf] at form
    exact ⟨by rw [show x = _ from form, h.xval_infinite inf]; rfl, by rw [show x = _ from form]⟩
  · have lt : (m : ℚ) * 2 ^ e < overflowOf f := not_le.1 fun le => by simp [magLe_iff.2 le] at lt
    refine ⟨f.quarters m e, _, Int.natCast_nonneg _, h.xval_ro neg fl pos lt, ?_, f.quarters_spec m e⟩
    rw [Fmt.binade, log_natCast_mul_zpow pos]

end Sys2Proof.Machine
end

section
/-!
PROOFS. Quotients and roots (R79, R81, R133): what `finDiv` and `finSqrt` answer stands for the exact real number, so its
odd form is that of the number.
-/

namespace Sys2Proof.Machine

/-- The formats with infinities that arithmetic rounds to (R128): the overflow point is a power of two. -/
structure Fmt.Binary (f : Fmt) : Prop extends f.Sound where
  hasInf : f.hasInf = true
  fine   : f.fbits ≤ 52
  point  : f.ov.1 = 2 ^ (f.fbits + 1)
  reach  : -1100 ≤ f.emin

theorem tyOf_of_tg1 {ty : BitVec 5} (h : tg1 ty = true) : tyOf ty = .flt (fmtOf ty) := by
  have all : ∀ ty : BitVec 5, tg1 ty = true → tyOf ty = .flt (fmtOf ty) := by decide
  exact all ty h

theorem binary_of_tg1 {ty : BitVec 5} (h : tg1 ty = true) : (fmtOf ty).Binary := by
  have all : ∀ ty : BitVec 5, tg1 ty = true →
      (fmtOf ty).hasInf = true ∧ (fmtOf ty).fbits ≤ 52 ∧ (fmtOf ty).ov.1 = 2 ^ ((fmtOf ty).fbits + 1) ∧
      -1100 ≤ (fmtOf ty).emin := by decide
  obtain ⟨inf, fine, point, reach⟩ := all ty h
  exact ⟨tyOf_flt_sound (tyOf_of_tg1 h), inf, fine, point, reach⟩

theorem Fmt.Binary.overflow_eq {f : Fmt} (h : f.Binary) : overflowOf f = 2 ^ (f.fbits + 1 + f.ov.2 : Int) := by
  rw [overflowOf, h.point, zpow_add₀ two_ne_zero]
  norm_cast

/-! ### Standing for a real number -/

/-- A number of units and a sticky bit stand for a real number: the units are its floor, and the bit says that something is
left. They are more than any format distinguishes. -/
structure StandsFor (n : Nat) (exact : Bool) (e : Int) (a : ℝ) : Prop where
  many  : 2 ^ 70 ≤ n
  low   : (n : ℝ) * 2 ^ (e + 1) ≤ a
  high  : a < (n + 1) * 2 ^ (e + 1)
  whole : exact = true ↔ a = n * 2 ^ (e + 1)

theorem log_of_units {n : Nat} (pos : 0 < n) {k : Int} {a : ℝ} (low : (n : ℝ) * 2 ^ k ≤ a) (high : a < (n + 1) * 2 ^ k) :
    Int.log 2 a = Nat.log2 n + k := by
  have unit : (0 : ℝ) < 2 ^ k := by positivity
  have below : (2 : ℝ) ^ Nat.log2 n ≤ n := by exact_mod_cast Nat.log2_self_le pos.ne'
  have above : (n : ℝ) + 1 ≤ 2 ^ (Nat.log2 n + 1) := by exact_mod_cast Nat.succ_le_of_lt Nat.lt_log2_self
  refine log_eq_of_mem_binade ?_ ?_
  · calc (2 : ℝ) ^ ((Nat.log2 n : Int) + k) = 2 ^ Nat.log2 n * 2 ^ k := by rw [zpow_add₀ two_ne_zero, zpow_natCast]
      _ ≤ n * 2 ^ k := by gcongr
      _ ≤ a := low
  · calc a < (n + 1) * 2 ^ k := high
      _ ≤ 2 ^ (Nat.log2 n + 1) * 2 ^ k := by gcongr
      _ = 2 ^ ((Nat.log2 n : Int) + k + 1) := by
        rw [← zpow_natCast, ← zpow_add₀ two_ne_zero]
        congr 1
        push_cast
        ring

section
variable {n : Nat} {exact : Bool} {e : Int} {a : ℝ} (h : StandsFor n exact e a)
include h

theorem StandsFor.pos : 0 < n := (by norm_num : 0 < 2 ^ 70).trans_le h.many

theorem StandsFor.sticky_pos : 0 < sticky n exact := by
  have := h.pos
  rw [sticky]
  omega

theorem StandsFor.log_eq : Int.log 2 a = Nat.log2 n + (e + 1) := log_of_units h.pos h.low h.high

theorem StandsFor.of_exact (whole : exact = true) : (sticky n exact : ℝ) * 2 ^ e = a := by
  rw [h.whole.1 whole, zpow_add_one₀ two_ne_zero, sticky, if_pos whole]
  push_cast
  ring

theorem StandsFor.of_inexact (part : exact = false) : (n : ℝ) * 2 ^ (e + 1) < a ∧
    (sticky n exact : ℝ) * 2 ^ e = (n + 1 / 2) * 2 ^ (e + 1) := by
  refine ⟨lt_of_le_of_ne h.low fun same => ?_, ?_⟩
  · simp [h.whole.2 same.symm] at part
  · rw [zpow_add_one₀ two_ne_zero, sticky, part]
    push_cast
    norm_num
    ring

/-- The value that stands for the number lies in its binade. -/
theorem StandsFor.log_sticky : Int.log 2 ((sticky n exact : ℚ) * 2 ^ e) = Nat.log2 n + (e + 1) := by
  have unit : (0 : ℝ) < 2 ^ (e + 1) := by positivity
  rw [← log_cast_rat]
  push_cast
  cases part : exact with
  | true => rw [← part, h.of_exact part, h.log_eq]
  | false =>
    rw [← part, (h.of_inexact part).2]
    exact log_of_units h.pos (by nlinarith) (by nlinarith)

/-- On a grid of whole units, an odd point beside the value that stands for a number lies beside the number. -/
theorem StandsFor.near {k : Nat} {q : Int} (coarse : e + 1 ≤ q)
    (spec : (k : ℚ) * 2 ^ q = sticky n exact * 2 ^ e ∨
      ((k : Int) % 2 = 1 ∧ |(k : ℚ) * 2 ^ q - sticky n exact * 2 ^ e| < 2 ^ q)) :
    (k : ℝ) * 2 ^ q = a ∨ ((k : Int) % 2 = 1 ∧ |(k : ℝ) * 2 ^ q - a| < 2 ^ q) := by
  have real : (k : ℝ) * 2 ^ q = sticky n exact * 2 ^ e ∨
      ((k : Int) % 2 = 1 ∧ |(k : ℝ) * 2 ^ q - sticky n exact * 2 ^ e| < 2 ^ q) := by
    refine spec.imp (fun s => ?_) fun ⟨odd, s⟩ => ⟨odd, ?_⟩
    · simpa using congrArg (Rat.cast (K := ℝ)) s
    · simpa using (Rat.cast_lt (K := ℝ)).2 s
  cases part : exact with
  | true => rwa [h.of_exact part] at real
  | false =>
    obtain ⟨above, value⟩ := h.of_inexact part
    have unit : (0 : ℝ) < 2 ^ (e + 1) := by positivity
    have high := h.high
    rw [value, two_zpow_split coarse] at real
    rw [two_zpow_split coarse]
    set w := 2 ^ (q - (e + 1)).toNat with hw
    have whole : (k : ℝ) * (w * 2 ^ (e + 1)) = (k * w : Nat) * 2 ^ (e + 1) := by push_cast; ring
    rw [whole] at real ⊢
    rcases real with same | ⟨odd, near⟩
    · have twice : (2 * (k * w : Nat) : ℝ) = 2 * n + 1 := by
        have := mul_right_cancel₀ unit.ne' same
        linarith
      have : 2 * (k * w) = 2 * n + 1 := by exact_mod_cast twice
      omega
    · rw [← sub_mul, abs_mul, abs_of_pos unit, mul_lt_mul_iff_left₀ unit, abs_lt] at near
      have lo : n + 1 ≤ k * w + w := by
        have : (2 * n + 1 : ℝ) < 2 * ((k * w : Nat) + w) := by linarith
        have : 2 * n + 1 < 2 * (k * w + w) := by exact_mod_cast this
        omega
      have hi : k * w ≤ n + w := by
        have : (2 * (k * w : Nat) : ℝ) < 2 * (n + w) + 1 := by linarith
        have : 2 * (k * w) < 2 * (n + w) + 1 := by exact_mod_cast this
        omega
      have lo : (n : ℝ) + 1 ≤ (k * w : Nat) + w := by exact_mod_cast lo
      have hi : ((k * w : Nat) : ℝ) ≤ n + w := by exact_mod_cast hi
      refine .inr ⟨odd, ?_⟩
      rw [abs_lt]
      constructor <;> nlinarith

/-- The odd form of a value that stands for a real number is that of the number. -/
theorem StandsFor.roundedToOdd {f : Fmt} (b : f.Binary) (neg : Bool) (fl : BitVec 6) :
    RoundedToOdd f neg a (f.ro (.fin neg (sticky n exact) e) fl) := by
  have pos := h.sticky_pos
  have value : (0 : ℚ) < sticky n exact * 2 ^ e := by positivity
  have units : (0 : ℝ) < n * 2 ^ (e + 1) := mul_pos (Nat.cast_pos.2 h.pos) (by positivity)
  have apos : 0 < a := units.trans_le h.low
  have same : Int.log 2 a = Int.log 2 ((sticky n exact : ℚ) * 2 ^ e) := h.log_eq.trans h.log_sticky.symm
  have beyond : (overflowOf f : ℝ) ≤ a ↔ overflowOf f ≤ (sticky n exact : ℚ) * 2 ^ e := by
    rw [b.overflow_eq, zpow_le_iff_le_log_two value, ← same, ← zpow_le_iff_le_log_two apos]
    push_cast
    exact Iff.rfl
  refine ⟨fun le => ?_, fun lt => ?_⟩
  · rw [f.ro_overflow neg fl pos (beyond.1 le), if_pos b.hasInf]
    exact ⟨b.xval_infinite b.hasInf neg 1, rfl⟩
  · have lt := not_le.1 fun le => (beyond.2 le).not_gt lt
    have deep : 70 ≤ Nat.log2 n := (Nat.le_log2 h.pos.ne').2 h.many
    have fine := b.fine
    refine ⟨f.quarters (sticky n exact) e, _, Int.natCast_nonneg _, b.xval_ro neg fl pos lt, ?_, ?_⟩
    · rw [same, Fmt.binade]
    · refine h.near ?_ (f.quarters_spec (sticky n exact) e)
      have : Int.log 2 ((sticky n exact : ℚ) * 2 ^ e) ≤ f.binade (sticky n exact * 2 ^ e) := le_max_left ..
      rw [h.log_sticky] at this
      omega

end

/-! ### Quotients and roots -/

/-- The integer quotient of a magnitude shifted far enough. -/
theorem standsFor_quotient {m k j : Nat} (hm : 0 < m) (hk : 0 < k) (far : Nat.log2 k + 71 ≤ j) (e f : Int) :
    StandsFor (m * 2 ^ j / k) (m * 2 ^ j / k * k == m * 2 ^ j) (e - f - j - 1) (m * 2 ^ e / (k * 2 ^ f)) := by
  have unit : (0 : ℝ) < 2 ^ (e - f - j : Int) := by positivity
  have kpos : (0 : ℝ) < k := by exact_mod_cast hk
  have value : (m : ℝ) * 2 ^ e / (k * 2 ^ f) = (m * 2 ^ j : Nat) / k * 2 ^ (e - f - j - 1 + 1 : Int) := by
    rw [sub_add_cancel, zpow_sub₀ two_ne_zero, zpow_sub₀ two_ne_zero, zpow_natCast]
    push_cast
    field_simp
  refine ⟨?_, ?_, ?_, ?_⟩
  · rw [Nat.le_div_iff_mul_le hk]
    have : k < 2 ^ (Nat.log2 k + 1) := Nat.lt_log2_self
    calc 2 ^ 70 * k ≤ 2 ^ 70 * 2 ^ (Nat.log2 k + 1) := by gcongr
      _ = 2 ^ (Nat.log2 k + 71) := by ring
      _ ≤ 2 ^ j := Nat.pow_le_pow_right two_pos far
      _ ≤ m * 2 ^ j := Nat.le_mul_of_pos_left _ hm
  · rw [value]
    gcongr
    exact Nat.cast_div_le
  · have next : m * 2 ^ j < (m * 2 ^ j / k + 1) * k := by
      rw [mul_comm _ k]
      exact Nat.lt_mul_div_succ _ hk
    rw [value]
    gcongr
    rw [div_lt_iff₀ kpos]
    exact_mod_cast next
  · rw [value, mul_left_inj' (by positivity), div_eq_iff kpos.ne', beq_iff_eq]
    exact_mod_cast eq_comm

theorem finDiv_standsFor (neg : Bool) {m k : Nat} (hm : 0 < m) (hk : 0 < k) (e f : Int) : ∃ n exact g,
    finDiv neg m e k f = .fin neg (sticky n exact) g ∧ StandsFor n exact g (m * 2 ^ e / (k * 2 ^ f)) := by
  refine ⟨_, _, _, ?_, standsFor_quotient hm hk (Nat.le_succ (Nat.log2 k + 71)) e f⟩
  simp only [finDiv, Nat.shiftLeft_eq]

/-- One bit of the root at a time: the root so far is below it, and with the bits to come it is not. -/
theorem isqrtBits_spec (n : Nat) : ∀ (k r : Nat), r * r ≤ n → n < (r + 2 ^ k) * (r + 2 ^ k) →
    isqrtBits n k r * isqrtBits n k r ≤ n ∧ n < (isqrtBits n k r + 1) * (isqrtBits n k r + 1)
  | 0, r, lo, hi => ⟨lo, hi⟩
  | k + 1, r, lo, hi => by
    rw [isqrtBits]
    split
    next h =>
      refine isqrtBits_spec n k _ h ?_
      rwa [add_assoc, ← two_mul, ← pow_succ']
    next h => exact isqrtBits_spec n k r lo (not_le.1 h)

theorem isqrt_eq_sqrt (n : Nat) : isqrt n = Nat.sqrt n := by
  have fits : n < (0 + 2 ^ (Nat.log2 n / 2 + 1)) * (0 + 2 ^ (Nat.log2 n / 2 + 1)) := by
    rw [zero_add, ← pow_add]
    exact Nat.lt_log2_self.trans_le (Nat.pow_le_pow_right two_pos (by omega))
  obtain ⟨lo, hi⟩ := isqrtBits_spec n _ 0 (Nat.zero_le n) fits
  exact Nat.eq_sqrt.2 ⟨lo, hi⟩

/-- The integer root of a magnitude shifted far enough. -/
theorem standsFor_root {m k : Nat} (hm : 0 < m) (far : 140 ≤ k) {e g : Int} (twice : e = k + (g + g)) :
    StandsFor (Nat.sqrt (m * 2 ^ k)) (Nat.sqrt (m * 2 ^ k) * Nat.sqrt (m * 2 ^ k) == m * 2 ^ k) (g - 1)
      (Real.sqrt (m * 2 ^ e)) := by
  have value : Real.sqrt (m * 2 ^ e) = Real.sqrt (m * 2 ^ k : Nat) * 2 ^ (g - 1 + 1) := by
    have square : (m : ℝ) * 2 ^ e = (m * 2 ^ k : Nat) * (2 ^ g * 2 ^ g) := by
      conv_lhs => rw [twice, zpow_add₀ two_ne_zero, zpow_add₀ two_ne_zero, zpow_natCast]
      push_cast
      ring
    rw [sub_add_cancel, square, Real.sqrt_mul (Nat.cast_nonneg _), Real.sqrt_mul_self (by positivity)]
  refine ⟨?_, ?_, ?_, ?_⟩
  · rw [Nat.le_sqrt]
    calc 2 ^ 70 * 2 ^ 70 ≤ 2 ^ k := by rw [← pow_add]; exact Nat.pow_le_pow_right two_pos far
      _ ≤ m * 2 ^ k := Nat.le_mul_of_pos_left _ hm
  · rw [value]
    gcongr
    exact Real.nat_sqrt_le_real_sqrt
  · rw [value]
    gcongr
    exact Real.real_sqrt_lt_nat_sqrt_succ
  · rw [value, mul_left_inj' (by positivity), beq_iff_eq,
      Real.sqrt_eq_iff_mul_self_eq (Nat.cast_nonneg _) (Nat.cast_nonneg _)]
    exact_mod_cast eq_comm

theorem finSqrt_standsFor {m : Nat} (hm : 0 < m) (e : Int) : ∃ n exact g,
    finSqrt m e = .fin false (sticky n exact) g ∧ StandsFor n exact g (Real.sqrt (m * 2 ^ e)) := by
  refine ⟨_, _, _, ?_, standsFor_root hm (k := 150 + (e % 2).toNat) (g := (e - (150 + (e % 2).toNat : Nat)) / 2)
    (by omega) (by omega)⟩
  simp only [finSqrt, isqrt_eq_sqrt, Nat.shiftLeft_eq]

end Sys2Proof.Machine
end

section
/-!
PROOFS. Floating-point arithmetic and selection (R77 to R81, R133 to R137): exact arithmetic of extended values, special
operands, and what selects among operands.
-/

namespace Sys2Proof.Machine

/-! ### Exact arithmetic of finite values -/

/-- The value of a sign and a magnitude. -/
def signedValue (neg : Bool) (m : Nat) (e : Int) : ℚ := if neg then -(m * 2 ^ e) else m * 2 ^ e

theorem exactValue_fin (neg : Bool) (m : Nat) (e : Int) : exactValue (.fin neg m e) = some (signedValue neg m e) := rfl

theorem exists_fin_of_exactValue {x : XVal} {a : ℚ} (h : exactValue x = some a) :
    ∃ neg m e, x = .fin neg m e ∧ a = signedValue neg m e := by
  cases x with
  | fin neg m e => exact ⟨neg, m, e, rfl, (Option.some.inj h).symm⟩
  | nan | inf => simp [exactValue] at h

section
variable (n : Bool) (m : Nat) (e : Int)

theorem signedValue_eq_zero : signedValue n m e = 0 ↔ m = 0 := by
  have unit : (2 : ℚ) ^ e ≠ 0 := by positivity
  cases n <;> simp [signedValue, unit]

theorem signedValue_neg : signedValue n m e < 0 ↔ n = true ∧ m ≠ 0 := by
  have unit : (0 : ℚ) < 2 ^ e := by positivity
  have mag : (0 : ℚ) ≤ m * 2 ^ e := by positivity
  cases n <;> simp [signedValue, unit, mag, Nat.pos_iff_ne_zero]

theorem signedValue_pos : 0 < signedValue n m e ↔ n = false ∧ m ≠ 0 := by
  have unit : (0 : ℚ) < 2 ^ e := by positivity
  have mag : (0 : ℚ) ≤ m * 2 ^ e := by positivity
  cases n <;> simp [signedValue, unit, mag, Nat.pos_iff_ne_zero]

theorem signedValue_not : signedValue (!n) m e = -signedValue n m e := by cases n <;> simp [signedValue]

theorem abs_signedValue : |signedValue n m e| = m * 2 ^ e := by
  have : (0 : ℚ) ≤ m * 2 ^ e := by positivity
  cases n <;> simp [signedValue, abs_of_nonneg this]

theorem signedValue_mul (n' : Bool) (m' : Nat) (e' : Int) :
    signedValue (n != n') (m * m') (e + e') = signedValue n m e * signedValue n' m' e' := by
  cases n <;> cases n' <;> simp [signedValue, zpow_add₀] <;> ring

end

/-- An exact sum, and the sign of an exact zero (R80). -/
theorem finAdd_spec (n : Bool) (m : Nat) (e : Int) (n' : Bool) (m' : Nat) (e' : Int) : ∃ k l g,
    finAdd n m e n' m' e' = .fin k l g ∧ signedValue k l g = signedValue n m e + signedValue n' m' e' ∧
      (signedValue k l g = 0 → k = (n && n')) := by
  set g := min e e' with hg
  have own : (m : ℚ) * 2 ^ e = (m * 2 ^ (e - g).toNat : Nat) * 2 ^ g := by
    rw [two_zpow_split (min_le_left e e'), Nat.cast_mul, mul_assoc]
  have other : (m' : ℚ) * 2 ^ e' = (m' * 2 ^ (e' - g).toNat : Nat) * 2 ^ g := by
    rw [two_zpow_split (min_le_right e e'), Nat.cast_mul, mul_assoc]
  set a := m * 2 ^ (e - g).toNat with ha
  set b := m' * 2 ^ (e' - g).toNat with hb
  have form : finAdd n m e n' m' e' = if n = n' then .fin n (a + b) g else if a = b then .fin false 0 g
    else if b < a then .fin n (a - b) g else .fin n' (b - a) g := rfl
  clear_value a b g
  have here : signedValue n m e = signedValue n a g := by rw [signedValue, own]; rfl
  have there : signedValue n' m' e' = signedValue n' b g := by rw [signedValue, other]; rfl
  rw [form, here, there]
  by_cases same : n = n'
  · subst same
    refine ⟨n, a + b, g, if_pos rfl, ?_, fun _ => (Bool.and_self n).symm⟩
    cases n <;> simp [signedValue] <;> ring
  · obtain rfl : n' = !n := by cases n <;> cases n' <;> simp at same ⊢
    rw [if_neg same, Bool.and_not_self, signedValue_not]
    rcases lt_trichotomy a b with lt | rfl | gt
    · have rest : ((b - a : Nat) : ℚ) = b - a := Nat.cast_sub lt.le
      refine ⟨!n, b - a, g, by rw [if_neg lt.ne, if_neg lt.not_gt], ?_, fun zero => ?_⟩
      · cases n <;> simp [signedValue, rest] <;> ring
      · rw [signedValue_eq_zero] at zero
        omega
    · exact ⟨false, 0, g, if_pos rfl, by simp [signedValue], fun _ => rfl⟩
    · have rest : ((a - b : Nat) : ℚ) = a - b := Nat.cast_sub gt.le
      refine ⟨n, a - b, g, by rw [if_neg gt.ne', if_pos gt], ?_, fun zero => ?_⟩
      · cases n <;> simp [signedValue, rest] <;> ring
      · rw [signedValue_eq_zero] at zero
        omega

/-- An operation answers a finite value without a flag, an exact zero with the sign given. -/
def XRes.Gives (r : XRes) (zero : Bool) (v : ℚ) : Prop := r.flags = 0 ∧ exactValue r.val = some v ∧ (v = 0 → r.val.neg = zero)

section
variable (n n' k : Bool) (m m' l : Nat) (e e' g : Int)

theorem xAdd_gives : (xAdd (.fin n m e) (.fin n' m' e')).Gives (n && n') (signedValue n m e + signedValue n' m' e') := by
  obtain ⟨k, l, g, form, value, zero⟩ := finAdd_spec n m e n' m' e'
  rw [← value]
  refine ⟨rfl, ?_, fun h => ?_⟩
  · rw [xAdd, form, exactValue_fin]
  · rw [xAdd, form]
    exact zero h

theorem xMul_gives : (xMul (.fin n m e) (.fin n' m' e')).Gives (n != n') (signedValue n m e * signedValue n' m' e') :=
  ⟨rfl, congrArg some (signedValue_mul n m e n' m' e'), fun _ => rfl⟩

theorem xFma_gives : (xFma (.fin n m e) (.fin n' m' e') (.fin k l g)).Gives ((n != n') && k)
    (signedValue n m e * signedValue n' m' e' + signedValue k l g) := by
  rw [← signedValue_mul]
  obtain ⟨-, value, zero⟩ := xAdd_gives (n != n') k (m * m') l (e + e') g
  exact ⟨by simp [xFma, xMul, xAdd], value, zero⟩

theorem xDiv_eq (h : m' ≠ 0) : xDiv (.fin n m e) (.fin n' m' e') =
    if m = 0 then ⟨.fin (n != n') 0 0, 0⟩ else ⟨finDiv (n != n') m e m' e', 0⟩ := by simp only [xDiv, if_neg h]

end

/-- An operation answers the odd form of a magnitude without a flag. -/
def XRes.Once (ty : BitVec 5) (r : XRes) (neg : Bool) (m : ℝ) : Prop :=
  r.flags = 0 ∧ RoundedToOdd (fmtOf ty) neg m (roundedOnce ty r)

section
variable {ty : BitVec 5} (b : (fmtOf ty).Binary)
include b

theorem xDiv_once (n n' : Bool) {m m' : Nat} (e e' : Int) (hm : m ≠ 0) (hm' : m' ≠ 0) :
    (xDiv (.fin n m e) (.fin n' m' e')).Once ty (n != n') (|signedValue n m e / signedValue n' m' e'| : ℚ) := by
  obtain ⟨k, exact, g, form, stands⟩ := finDiv_standsFor (n != n') (Nat.pos_of_ne_zero hm) (Nat.pos_of_ne_zero hm') e e'
  rw [xDiv_eq _ _ _ _ _ _ hm', if_neg hm, form, abs_div, abs_signedValue, abs_signedValue]
  refine ⟨rfl, ?_⟩
  push_cast
  exact stands.roundedToOdd b _ _

theorem xSqrt_once {m : Nat} (e : Int) (hm : m ≠ 0) :
    (xSqrt (.fin false m e)).Once ty false (Real.sqrt ((m : ℚ) * 2 ^ e : ℚ)) := by
  obtain ⟨k, exact, g, form, stands⟩ := finSqrt_standsFor (Nat.pos_of_ne_zero hm) e
  have root : xSqrt (.fin false m e) = ⟨finSqrt m e, 0⟩ := by simp only [xSqrt, if_neg hm]; rfl
  rw [root, form]
  refine ⟨rfl, ?_⟩
  push_cast
  exact stands.roundedToOdd b _ _

end

theorem exactArithmetic : ExactArithmetic := by
  intro x y z a b c hx hy hz gives sign
  obtain ⟨n, m, e, rfl, rfl⟩ := exists_fin_of_exactValue hx
  obtain ⟨n', m', e', rfl, rfl⟩ := exists_fin_of_exactValue hy
  obtain ⟨k, l, g, rfl, rfl⟩ := exists_fin_of_exactValue hz
  simp only [signedValue_eq_zero, ne_eq]
  refine ⟨xAdd_gives .., ?_, xMul_gives .., xFma_gives .., fun zero => ?_, fun nonzero zero => ?_, fun zero => ?_,
    fun negative => ?_, fun ty tg => ⟨fun hm hm' => ?_, fun positive => ?_⟩⟩
  · rw [sub_eq_add_neg, ← signedValue_not]
    exact xAdd_gives ..
  · simp only [xDiv, if_pos zero]
    rfl
  · rw [xDiv_eq _ _ _ _ _ _ nonzero, if_pos zero]
    exact ⟨rfl, by simp [exactValue], fun _ => rfl⟩
  · simp only [xSqrt, if_pos zero]
    exact ⟨rfl, by simp [exactValue], fun _ => rfl⟩
  · obtain ⟨sign, nonzero⟩ := (signedValue_neg n m e).1 negative
    simp only [xSqrt, if_neg nonzero, if_pos sign]
  · exact xDiv_once (binary_of_tg1 tg) n n' e e' hm hm'
  · obtain ⟨rfl, nonzero⟩ := (signedValue_pos n m e).1 positive
    exact xSqrt_once (binary_of_tg1 tg) e nonzero

/-! ### Special operands -/

/-- What is below every quarter of an ulp becomes a zero with tail 01 (R79, R80). -/
theorem Fmt.Sound.ro_tiny {f : Fmt} (h : f.Sound) {m : Nat} {g : Int} (neg : Bool) (fl : BitVec 6) (pos : 0 < m)
    (small : (m : ℚ) * 2 ^ g < 2 ^ (f.emin - f.fbits - 2)) : f.ro (.fin neg m g) fl = ⟨f.signed neg 0, 1, fl⟩ := by
  have mag : (0 : ℚ) < m * 2 ^ g := by positivity
  have unit : (0 : ℚ) < 2 ^ (f.emin - f.fbits - 2) := by positivity
  have normal : (m : ℚ) * 2 ^ g < 2 ^ f.emin := small.trans_le (zpow_le_zpow_right₀ one_le_two (by omega))
  have below : Int.log 2 ((m : ℚ) * 2 ^ g) < f.emin := not_le.1 fun le => normal.not_ge ((zpow_le_iff_le_log_two mag).2 le)
  have binade : f.binade (m * 2 ^ g) = f.emin := max_eq_right below.le
  have least : f.encVal (2 ^ f.fbits) < overflowOf f := h.lt_overflow_iff.2 h.normal
  have floor : ⌊(m : ℚ) * 2 ^ g / 2 ^ (f.emin - f.fbits - 2)⌋ = 0 :=
    Int.floor_eq_zero_iff.2 ⟨by positivity, (div_lt_one unit).2 small⟩
  have quarters : f.quarters m g = 1 := by
    have e := f.quarters_eq m g
    have part : ¬(((0 : Int) : ℚ) = m * 2 ^ g / 2 ^ (f.emin - f.fbits - 2) ∨ (0 : Int) % 2 = 1) := by
      simpa using (div_pos mag unit).ne
    rw [binade, toOdd, floor, if_neg part] at e
    exact_mod_cast e
  rw [f.ro_finite neg fl pos (normal.trans (f.encVal_leastNormal ▸ least)), quarters, binade]
  simp [Fmt.enc]

theorem Fmt.Binary.tiny {f : Fmt} (h : f.Binary) : ((1 : Nat) : ℚ) * 2 ^ (-100000 : Int) < 2 ^ (f.emin - f.fbits - 2) := by
  have fine := h.fine
  have reach := h.reach
  rw [Nat.cast_one, one_mul]
  exact zpow_lt_zpow_right₀ one_lt_two (by omega)

theorem xMul_comm (x y : XVal) : xMul x y = xMul y x := by
  cases x <;> cases y <;> simp only [xMul, bne_comm, Bool.and_comm, mul_comm, add_comm]

theorem xAdd_nan (x : XVal) : xAdd x .nan = ⟨.nan, 0⟩ := by cases x <;> rfl

theorem xMul_nan (x : XVal) : xMul x .nan = ⟨.nan, 0⟩ := by cases x <;> rfl

theorem xDiv_nan (x : XVal) : xDiv x .nan = ⟨.nan, 0⟩ := by cases x <;> rfl

theorem xMul_inf_fin (n o n' : Bool) (m : Nat) (e : Int) :
    xMul (.inf n o) (.fin n' m e) = if m = 0 then ⟨.nan, fNV⟩ else ⟨.inf (n != n') o, 0⟩ := rfl

/-- A finite value added to an infinite or invalid product leaves it. -/
theorem xFma_inf (n o k : Bool) (y : XVal) (m : Nat) (e : Int) :
    xFma (.inf n o) y (.fin k m e) = ⟨(xMul (.inf n o) y).val, (xMul (.inf n o) y).flags⟩ := by
  cases y with
  | nan | inf => simp [xFma, xMul, xAdd]
  | fin n' m' e' => by_cases h : m' = 0 <;> simp [xFma, xMul_inf_fin, h, xAdd]

theorem specialOperands : SpecialOperands := by
  intro n n' o o' m e x y i j v sign invalid
  refine ⟨?_, rfl, rfl, rfl, rfl, xMul_comm v i, ?_, rfl, ?_, rfl, xAdd_nan x, rfl, xMul_nan x, rfl, xDiv_nan x, rfl, rfl, rfl,
    xFma_inf n o n' y m e, ?_, fun ty tg => ?_⟩
  · by_cases h : n = n' <;> cases o <;> cases o' <;> simp [xAdd, i, j, invalid, h]
  · cases o <;> cases o' <;> rfl
  · cases n <;> rfl
  · have same := xFma_inf n o n' y m e
    rw [show xFma y i v = xFma i y v by simp only [xFma, xMul_comm y i], xMul_comm y i]
    exact same
  · have b := binary_of_tg1 tg
    have tiny := b.ro_tiny (n' != n) 0 one_pos b.tiny
    have zero : (fmtOf ty).ro (.fin (n' != n) 0 0) 0 = ⟨(fmtOf ty).signed (n' != n) 0, 0, 0⟩ := rfl
    have order : sign = (n' != n) := bne_comm
    rw [order]
    cases o with
    | false => simpa [roundedOnce, xDiv, v, i] using zero
    | true =>
      by_cases h : m = 0
      · simpa [roundedOnce, xDiv, v, i, h] using zero
      · simpa [roundedOnce, xDiv, v, i, h] using tiny

/-! ### Selection and classes -/

section
variable {ty : BitVec 5} {f : Fmt} (h : tyOf ty = .flt f) (a b : FElem)
include h

theorem fmtOf_of_flt : fmtOf ty = f := by rw [fmtOf, h]

theorem extendedValue_of_flt : extendedValue ty a = f.xval a.bits.toNat a.tail := by rw [extendedValue, h]; rfl

theorem keep_of_flt (greater : Bool) (takeB : Bool)
    (e : takeB = if greater then xLt (f.xval a.bits.toNat a.tail) (f.xval b.bits.toNat b.tail)
      else xLt (f.xval b.bits.toNat b.tail) (f.xval a.bits.toNat a.tail)) : fMinMax f greater a b = oneOf ty a b takeB := by
  subst e
  simp only [fMinMax, oneOf, extendedValue_of_flt h, fmtOf_of_flt h, defaultNan, Fmt.nanRes]
  by_cases x : f.xval a.bits.toNat a.tail = .nan <;> by_cases y : f.xval b.bits.toNat b.tail = .nan
  · simp [x, y]
  · simp [x, y]
  · simp [x, y]
  · cases greater <;> simp [x, y]

theorem elMin_eq : elMin ty a b = oneOf ty a b (xLt (extendedValue ty b) (extendedValue ty a)) := by
  rw [elMin, fmtOf_of_flt h, extendedValue_of_flt h, extendedValue_of_flt h]
  exact keep_of_flt h a b false _ rfl

theorem elMax_eq : elMax ty a b = oneOf ty a b (xLt (extendedValue ty a) (extendedValue ty b)) := by
  rw [elMax, fmtOf_of_flt h, extendedValue_of_flt h, extendedValue_of_flt h]
  exact keep_of_flt h a b true _ rfl

omit h in
theorem Fmt.xval_mod (f : Fmt) (bits : Nat) (t : BitVec 2) : f.xval (bits % 2 ^ f.width) t = f.xval bits t := by
  simp only [Fmt.xval, Nat.mod_mod]

omit h in
theorem Fmt.Sound.mod_signBit {f : Fmt} (s : f.Sound) (bits : Nat) : bits % 2 ^ f.width % f.signBit = bits % f.signBit :=
  Nat.mod_mod_of_dvd bits (Dvd.intro_left 2 s.signBit_lt.1)

theorem fSign_eq (negate neg : Bool) (e : neg = (negate && decide (a.bits.toNat % 2 ^ f.width < f.signBit))) :
    fSign f negate a = withSign ty a neg := by
  subst e
  simp only [fSign, withSign, extendedValue_of_flt h, defaultNan, fmtOf_of_flt h, f.xval_mod, (tyOf_flt_sound h).mod_signBit,
    Fmt.nanRes, Fmt.signed]

theorem elAbs_eq : elAbs ty a = withSign ty a false := by
  rw [elAbs, fmtOf_of_flt h]
  exact fSign_eq h a false false rfl

theorem elNeg_eq : elNeg ty a = withSign ty a (otherSign ty a) := by
  rw [elNeg, fmtOf_of_flt h]
  exact fSign_eq h a true _ (by rw [otherSign, fmtOf_of_flt h, Bool.true_and])

/-- The class of a finite element is decided by its encoding as by its value (R137). -/
theorem fClass_eq : fClass f a = classOf ty a := by
  have s := tyOf_flt_sound h
  rw [fClass, classOf, extendedValue_of_flt h, fmtOf_of_flt h, f.xval_mod]
  set mag := a.bits.toNat % 2 ^ f.width % f.signBit with hm
  rcases le_or_gt mag f.maxEnc with le | gt
  · obtain ⟨ex, n, p, e⟩ := f.exists_point mag
    have low : (4 * n + a.tail.toNat) / 4 = n := by omega
    have value : ((n : Nat) : ℚ) * 2 ^ (ex - f.fbits - 2 + 2) = f.encVal mag := by rw [e, p.encVal]; ring_nf
    have zero : f.encVal mag = 0 ↔ mag = 0 := by rw [← f.encVal_zero, f.encVal_strictMono.injective.eq_iff]
    have small : f.encVal mag < 2 ^ f.emin ↔ mag < 2 ^ f.fbits := by
      rw [← f.encVal_leastNormal, f.encVal_strictMono.lt_iff_lt]
    rw [f.xval_of_point p (hm.symm.trans e) (e ▸ le)]
    simp only [low, value, zero, small, decide_eq_true_eq]
  · have form : f.xval a.bits.toNat a.tail = if f.hasInf && mag = f.infEnc
        then .inf (f.signBit ≤ a.bits.toNat % 2 ^ f.width) (a.tail ≠ 0) else .nan := by
      simp only [Fmt.xval, ← hm, if_pos gt]
    rw [form]
    by_cases inf : (f.hasInf && decide (mag = f.infEnc)) = true
    · simp only [if_pos inf]
      split_ifs <;> rfl
    · simp only [if_neg inf]

end

theorem fcmpCode_eq (x y : XVal) : fcmpCode x y =
    if x = .nan ∨ y = .nan then 8 else if x.isZero ∧ y.isZero then 1 else if xLt x y then 2 else if xLt y x then 4 else 1 := by
  simp only [fcmpCode, xCmpLt, Bool.or_eq_true, decide_eq_true_eq]
  by_cases zero : x.isZero = true ∧ y.isZero = true
  · simp [zero]
  · have other : ¬(y.isZero = true ∧ x.isZero = true) := fun z => zero z.symm
    simp [zero, other]

/-- An integer code as a result of a type (R135, R137). -/
theorem setCode_eq (r : Regs) (d ty : BitVec 5) (n : Nat) :
    (if wide ty then r.setPair d (BitVec.ofNat 64 n) else r.setVal d ((BitVec.ofNat 64 n).setWidth 32)) =
      if wide ty then r.setPair d (BitVec.ofNat 64 n) else r.setVal d (BitVec.ofNat 32 n) := by
  rw [BitVec.setWidth_ofNat_of_le (by norm_num)]

section
variable {s : State} {i : Instr} {d a b sty ty : BitVec 5} {len : Nat} {z : FRes}

/-- A scalar form with two sources completes with what its function makes of them. -/
theorem Completes.of_float2 {f : FElem → FElem → FRes} (e : exec i s = s.float2 len d a b ty f)
    (h : f (s.regs.elem ty a) (s.regs.elem ty b) = z) : Completes i s [a, b] [d] ((s.regs.setRes ty d z).advance len) :=
  .of_plain e (by rw [h])

/-- One with one source. -/
theorem Completes.of_float1 {f : Regs → FElem → FRes} (e : exec i s = s.float1 d a sty ty f)
    (h : f s.regs (s.regs.elem sty a) = z) : Completes i s [a] [d] ((s.regs.setRes ty d z).advance 4) :=
  .of_plain e (by rw [h])

end

theorem floatArithmetic : FloatArithmetic :=
  ⟨fun _ _ _ _ _ => .of_float2 rfl rfl, fun _ _ _ _ _ => .of_float2 rfl rfl, fun _ _ _ _ _ => .of_float2 rfl rfl,
    fun _ _ _ _ _ => .of_float2 rfl rfl, fun _ _ _ _ _ => .of_plain rfl rfl, fun _ _ _ _ => .of_float1 rfl rfl,
    fun _ _ _ => ⟨.of_float2 rfl rfl, .of_float2 rfl rfl⟩⟩

theorem floatSelection : FloatSelection := by
  refine ⟨fun s d a b ty tg => ?_, fun s d a ty tg => ?_⟩
  · have h := tyOf_of_tg1 tg
    exact ⟨.of_float2 rfl (elMin_eq h ..), .of_float2 rfl (elMax_eq h ..),
      .of_plain rfl (by rw [setCode_eq, elCmp, fcmpCode_eq]; rfl)⟩
  · have h := tyOf_of_tg1 tg
    exact ⟨.of_float1 rfl (elAbs_eq h _), .of_float1 rfl (elNeg_eq h _), .of_plain rfl (by rw [setCode_eq, fClass_eq h])⟩

/-- Settles O12: arithmetic is exact before its one rounding, quotients and roots stand for the exact real numbers, and what
selects gives one of its operands. -/
theorem floatArithmeticAndSelection : Obligations.FloatArithmeticAndSelection :=
  ⟨floatArithmetic, exactArithmetic, specialOperands, floatSelection⟩

end Sys2Proof.Machine
end

section
/-!
PROOFS. Final rounding (R82 to R86): the model's `FINAL` to each kind of type is the rounding of R82 on its grid.
-/

namespace Sys2Proof.Machine

/-! ### To a floating-point format (R82 to R84) -/

section
variable {f : Fmt} (h : f.Sound)
include h

theorem Fmt.Sound.overflow_pos : 0 < overflowOf f := by
  rw [← h.encVal_overflow, f.encVal_pos]
  exact Nat.succ_pos _

theorem Fmt.Sound.leastNormal_lt_overflow : 2 ^ f.emin < overflowOf f := by
  rw [← f.encVal_leastNormal, h.lt_overflow_iff]
  exact h.normal

theorem Fmt.Sound.enc_parity (ex : Int) (n : Nat) : f.enc ex n % 2 = n % 2 := by
  obtain ⟨k, hk⟩ := Nat.exists_eq_add_of_le h.frac
  have even : f.enc ex n = 2 * ((ex - f.emin).toNat * 2 ^ k) + n := by
    rw [Fmt.enc, hk]
    ring
  omega

omit h in
/-- A rounded encoding is the encoding of the rounded units. -/
theorem Fmt.Point.encVal_rounded {ex : Int} {n : Nat} (p : f.Point ex n) (mode : Mode) (neg odd : Bool) (r u draw : Nat) :
    f.encVal (roundedUnits mode neg odd (f.enc ex n) r u draw) =
      roundedUnits mode neg odd n r u draw * 2 ^ (ex - f.fbits) := by
  unfold roundedUnits
  split_ifs
  · exact p.encVal
  · exact p.encVal_succ
  · exact p.encVal

/-- The encoding that final rounding makes of a magnitude below the overflow point, and what it leaves. -/
theorem Fmt.Sound.exists_picked {m : Nat} {e : Int} (pos : 0 < m) (lt : (m : ℚ) * 2 ^ e < overflowOf f) (mode : Mode)
    (neg : Bool) (draw : Nat) : ∃ n r u,
    splitUnits m e (f.binade (m * 2 ^ e) - f.fbits) = (n, r, u) ∧
    let lo := f.enc (f.binade (m * 2 ^ e)) n
    let mag := roundedUnits mode neg (decide (lo % 2 = 1)) lo r u draw
    f.encVal mag = picked mode neg draw (m * 2 ^ e / ulpOf f (m * 2 ^ e)) * ulpOf f (m * 2 ^ e) ∧
    mag ≤ f.maxEnc + 1 ∧ (f.encVal mag = m * 2 ^ e ↔ r = 0) := by
  obtain ⟨n, r, u, split, part, value⟩ := splitUnits_spec m e (f.binade (m * 2 ^ e) - f.fbits)
  refine ⟨n, r, u, split, ?_⟩
  set x := (m : ℚ) * 2 ^ e with hx
  have xpos : 0 < x := by positivity
  have unit : (2 : ℚ) ^ (f.binade x - f.fbits) ≠ 0 := by positivity
  have units : (n : Int) = ⌊x / 2 ^ (f.binade x - f.fbits)⌋ := by rw [value, floor_units part]
  intro lo mag
  have encoded : f.encVal mag = roundedUnits mode neg (decide (lo % 2 = 1)) n r u draw * 2 ^ (f.binade x - f.fbits) :=
    (f.point_of_floor xpos units).encVal_rounded ..
  have choice := picked_eq (n := n) (mode := mode) (neg := neg) (draw := draw) (odd := decide (lo % 2 = 1)) part
    (by rw [h.enc_parity])
  refine ⟨?_, ?_, ?_⟩
  · rw [encoded, ulpOf_eq, value, choice]
    norm_cast
  · exact (roundedUnits_le ..).2.trans (Nat.succ_le_succ (h.enc_floor_le xpos lt units))
  · rw [encoded, ← eq_div_iff unit, value, roundedUnits_exact_iff part]

omit h in
/-- The model's test for a magnitude below the smallest normal one. -/
theorem Fmt.tiny_eq (f : Fmt) (m : Nat) (e : Int) :
    (!magLe (2 ^ f.fbits) (f.emin - f.fbits) m e) = decide ((m : ℚ) * 2 ^ e < 2 ^ f.emin) := by
  have least : ((2 ^ f.fbits : Nat) : ℚ) * 2 ^ (f.emin - f.fbits) = 2 ^ f.emin := by
    rw [Nat.cast_pow, Nat.cast_two, ← zpow_natCast, ← zpow_add₀ two_ne_zero, add_sub_cancel]
  rw [Bool.eq_iff_iff, Bool.not_eq_true', ← Bool.not_eq_true, magLe_iff, least, not_le, decide_eq_true_eq]

omit h in
/-- The model's `FINAL` of a magnitude below the overflow point. -/
theorem Fmt.final_finite {m : Nat} {e : Int} (pos : 0 < m) (lt : (m : ℚ) * 2 ^ e < overflowOf f) (c : FinalCtl) (neg dropped : Bool)
    {n r u : Nat} (split : splitUnits m e (f.binade (m * 2 ^ e) - f.fbits) = (n, r, u)) :
    let lo := f.enc (f.binade (m * 2 ^ e)) n
    let mag := roundedUnits c.mode neg (decide (lo % 2 = 1)) lo r u c.draw
    let flush := c.ftz && 0 < mag && mag < 2 ^ f.fbits
    let ovf : Bool := f.maxEnc < mag
    let inexact := r ≠ 0 || dropped || flush || ovf
    f.final c (.fin neg m e) dropped =
      ⟨f.signed neg (if flush then 0 else if ovf then (if f.hasInf then f.infEnc else f.maxEnc) else mag), 0,
        (if inexact then fNX else 0) ||| (if ovf then fOF else 0) |||
          (if ((m : ℚ) * 2 ^ e < 2 ^ f.emin && inexact) || flush then fUF else 0)⟩ := by
  have below : ¬magLe f.ov.1 f.ov.2 m e = true := fun le => (magLe_iff.1 le).not_gt lt
  have tiny := f.tiny_eq m e
  have own : max (magLog2 m e) f.emin = f.binade (m * 2 ^ e) := by rw [magLog2_eq pos]; rfl
  intro lo mag flush ovf inexact
  simp only [Fmt.final, if_neg pos.ne', if_neg below, own, split, tiny, inexact, ovf, flush, mag, lo,
    roundedUnits, Fmt.enc, decide_eq_true_eq]

theorem Fmt.Sound.floatFinal_overflow (c : FinalCtl) (neg dropped : Bool) {m : Nat} {e : Int}
    (le : overflowOf f ≤ (m : ℚ) * 2 ^ e) :
    FloatFinal f c.mode c.ftz c.draw dropped (.fin neg m e) (f.final c (.fin neg m e) dropped) := by
  have above : magLe f.ov.1 f.ov.2 m e = true := magLe_iff.2 le
  have normal := h.leastNormal_lt_overflow
  simp only [FloatFinal, Fmt.final, if_pos above, if_pos le]
  have flush : ¬(c.ftz = true ∧ 0 < overflowOf f ∧ overflowOf f < 2 ^ f.emin) := fun z => normal.not_gt z.2.2
  have tiny : ¬(m : ℚ) * 2 ^ e < 2 ^ f.emin := (normal.trans_le le).not_gt
  simp [le, flush, tiny, BitVec.or_comm]

theorem Fmt.Sound.floatFinal_zero (c : FinalCtl) (neg dropped : Bool) (e : Int) :
    FloatFinal f c.mode c.ftz c.draw dropped (.fin neg 0 e) (f.final c (.fin neg 0 e) dropped) := by
  have beyond := h.overflow_pos
  have below : ¬magLe f.ov.1 f.ov.2 0 e = true := fun le => by
    have := magLe_iff.1 le
    simp only [Nat.cast_zero, zero_mul] at this
    exact this.not_gt beyond
  have whole : picked c.mode neg c.draw 0 = 0 := by
    simpa [roundedUnits] using picked_eq (mode := c.mode) (neg := neg) (draw := c.draw) (n := 0) (odd := false) one_pos rfl
  have zero := h.hasMagnitude_signed (Nat.zero_le f.maxEnc) neg
  rw [f.encVal_zero] at zero
  simp only [FloatFinal, Fmt.final, below, Bool.false_eq_true, if_true, if_false, Nat.cast_zero, zero_mul, zero_div, whole, Int.cast_zero,
    beyond.not_ge, beyond.ne, ite_self, lt_self_iff_false, false_and, and_false, or_self, ne_eq, not_true_eq_false, false_or]
  exact ⟨trivial, ⟨h.signed_lt (Nat.two_pow_pos _) neg, zero⟩, by simp⟩

theorem Fmt.Sound.floatFinal_finite (c : FinalCtl) (neg dropped : Bool) {m : Nat} {e : Int} (pos : 0 < m)
    (lt : (m : ℚ) * 2 ^ e < overflowOf f) :
    FloatFinal f c.mode c.ftz c.draw dropped (.fin neg m e) (f.final c (.fin neg m e) dropped) := by
  obtain ⟨n, r, u, split, rounded, le, exact⟩ := h.exists_picked pos lt c.mode neg c.draw
  rw [f.final_finite pos lt c neg dropped split]
  set mag := roundedUnits c.mode neg (decide (f.enc (f.binade (m * 2 ^ e)) n % 2 = 1)) (f.enc (f.binade (m * 2 ^ e)) n) r u
    c.draw
  have ovf : f.encVal mag = overflowOf f ↔ f.maxEnc < mag := by
    rw [← h.encVal_overflow, f.encVal_strictMono.injective.eq_iff]
    omega
  have small : f.encVal mag < 2 ^ f.emin ↔ mag < 2 ^ f.fbits := by
    rw [← f.encVal_leastNormal, f.encVal_strictMono.lt_iff_lt]
  have apos : (0 : ℚ) < m * 2 ^ e := by positivity
  simp only [FloatFinal, lt.not_ge, if_false, ← rounded, ovf, small, f.encVal_pos, ne_eq, exact, apos]
  refine ⟨trivial, ?_, congrArg₂ (· ||| ·) (congrArg₂ (· ||| ·) (if_congr ?_ rfl rfl) (if_congr ?_ rfl rfl))
    (if_congr ?_ rfl rfl)⟩
  · have normal := h.normal
    by_cases big : f.maxEnc < mag
    · have steady : ¬mag < 2 ^ f.fbits := by omega
      cases f.hasInf <;> simp [big, steady]
    · have zero := h.hasMagnitude_signed (Nat.zero_le f.maxEnc) neg
      rw [f.encVal_zero] at zero
      simp only [big, if_false, decide_false, Bool.false_eq_true, Bool.and_eq_true, decide_eq_true_eq, and_assoc]
      split_ifs
      · exact ⟨h.signed_lt (Nat.two_pow_pos _) neg, zero⟩
      · exact ⟨h.signed_lt (lt_of_le_of_lt (not_lt.1 big) h.top) neg, h.hasMagnitude_signed (not_lt.1 big) neg⟩
  all_goals
    clear rounded exact ovf small
    simp only [Bool.or_eq_true, Bool.and_eq_true, decide_eq_true_eq, true_and, and_assoc]
  · tauto
  · tauto

/-- The model's `FINAL` is R82 to R84's. -/
theorem Fmt.Sound.floatFinal (c : FinalCtl) (v : XVal) (dropped : Bool) :
    FloatFinal f c.mode c.ftz c.draw dropped v (f.final c v dropped) := by
  cases v with
  | nan => rfl
  | inf neg ovf =>
    cases ovf with
    | false => cases inf : f.hasInf <;> simp [FloatFinal, Fmt.final, inf]
    | true => rfl
  | fin neg m e =>
    rcases le_or_gt (overflowOf f) ((m : ℚ) * 2 ^ e) with le | lt
    · exact h.floatFinal_overflow c neg dropped le
    rcases Nat.eq_zero_or_pos m with rfl | pos
    · exact h.floatFinal_zero c neg dropped e
    · exact h.floatFinal_finite c neg dropped pos lt

end

end Sys2Proof.Machine
end

section
/-!
PROOFS. Final rounding to integers and to `.e8m0` (R82, R85, R86).
-/

namespace Sys2Proof.Machine

/-! ### The bits of an integer of a width -/

theorem ofInt_emod_natCast {w k : Nat} (lt : k < 2 ^ w) : BitVec.ofInt 64 ((k : Int) % 2 ^ w) = BitVec.ofNat 64 k := by
  rw [Int.emod_eq_of_lt (Int.natCast_nonneg k) (by exact_mod_cast lt), BitVec.ofInt_natCast]

theorem ofInt_emod_neg {w k : Nat} (le : k ≤ 2 ^ w) :
    BitVec.ofInt 64 (-(k : Int) % 2 ^ w) = BitVec.ofNat 64 ((2 ^ w - k) % 2 ^ w) := by
  rw [← BitVec.ofInt_natCast]
  push_cast [le]
  rw [sub_eq_neg_add, Int.add_emod_right]

/-- The lowest and the greatest integer of a type, as magnitudes (R85). -/
theorem integerRange (sg : Bool) {w : Nat} (hw : 1 ≤ w) : ∃ lo hi : Nat,
    (if sg then 2 ^ (w - 1) else 0 : Nat) = lo ∧ (if sg then 2 ^ (w - 1) - 1 else 2 ^ w - 1 : Nat) = hi ∧
    (if sg then -(2 ^ (w - 1)) else 0 : Int) = -lo ∧ (if sg then 2 ^ (w - 1) - 1 else 2 ^ w - 1 : Int) = hi ∧
    lo ≤ 2 ^ w ∧ hi < 2 ^ w := by
  have half : 2 * 2 ^ (w - 1) = 2 ^ w := by rw [← pow_succ', Nat.sub_add_cancel hw]
  have pos := Nat.two_pow_pos (w - 1)
  refine ⟨_, _, rfl, rfl, ?_⟩
  cases sg
  · simp
  · simp
    omega

section
variable {sg : Bool} {w : Nat} (hw : 1 ≤ w) (c : FinalCtl) (dropped : Bool)
include hw

/-- The model's `FINAL` to an integer type is R85's; a zero has no tail to drop. -/
theorem integerFinal (v : XVal) (clean : ∀ neg e, v = .fin neg 0 e → dropped = false) :
    IntegerFinal sg w c.mode c.draw dropped v (intFinal sg w c v dropped) := by
  obtain ⟨lo, hi, natLo, natHi, intLo, intHi, loFits, hiFits⟩ := integerRange sg hw
  have least := ofInt_emod_neg loFits
  have greatest := ofInt_emod_natCast hiFits
  cases v with
  | nan => rfl
  | inf neg ovf =>
    simp only [IntegerFinal, intFinal, natLo, natHi, intLo, intHi]
    cases neg
    · simp [greatest]
    · simp [least]
  | fin neg m e =>
    obtain ⟨n, r, u, split, part, value⟩ := splitUnits_spec m e 0
    rw [zpow_zero, div_one] at value
    have rounded := picked_eq (mode := c.mode) (neg := neg) (draw := c.draw) (odd := decide (n % 2 = 1)) part rfl
    have exact := roundedUnits_exact_iff (mode := c.mode) (neg := neg) (draw := c.draw) (odd := decide (n % 2 = 1)) (n := n) part
    have form : intFinal sg w c (.fin neg m e) dropped =
        let k := roundedUnits c.mode neg (decide (n % 2 = 1)) n r u c.draw
        let nx := if r ≠ 0 || dropped then fNX else 0
        if neg then
          if m = 0 then ⟨0, 0, 0⟩
          else if k = 0 then ⟨0, 0, fUF ||| fNX⟩
          else if lo < k then ⟨BitVec.ofNat 64 ((2 ^ w - lo) % 2 ^ w), 0, fNV⟩
          else ⟨BitVec.ofNat 64 ((2 ^ w - k) % 2 ^ w), 0, nx⟩
        else if hi < k then ⟨BitVec.ofNat 64 hi, 0, fNV⟩
        else ⟨BitVec.ofNat 64 k, 0, nx⟩ := by
      simp only [intFinal, split, natLo, natHi]
      rfl
    have zero : (m : ℚ) * 2 ^ e = 0 ↔ m = 0 := by simp [(zpow_pos (two_pos (α := ℚ)) e).ne']
    have positive : 0 < (m : ℚ) * 2 ^ e ↔ m ≠ 0 := by
      rw [(show (0 : ℚ) ≤ m * 2 ^ e by positivity).lt_iff_ne', ne_eq, zero]
    have nothing : m = 0 → roundedUnits c.mode neg (decide (n % 2 = 1)) n r u c.draw = 0 ∧ r = 0 := fun none => by
      rw [zero.2 none] at value
      have left : (0 : ℚ) ≤ r / u := by positivity
      have units : (n : ℚ) = 0 := by linarith [(Nat.cast_nonneg n : (0 : ℚ) ≤ n)]
      obtain rfl : n = 0 := by exact_mod_cast units
      have rest : r = 0 := (units_exact_iff part).1 (by rw [← value, Nat.cast_zero])
      exact ⟨by rw [roundedUnits, if_pos rest], rest⟩
    rw [form]
    simp only [IntegerFinal, intLo, intHi, positive]
    rw [value, rounded]
    simp only [Int.cast_natCast, ne_eq, exact]
    generalize roundedUnits c.mode neg (decide (n % 2 = 1)) n r u c.draw = k at nothing ⊢
    cases neg with
    | true =>
      by_cases none : m = 0
      · subst none
        obtain ⟨rfl, rfl⟩ := nothing rfl
        simp [clean true e rfl, show ¬(lo : Int) < 0 by omega, show ¬(hi : Int) < 0 by omega]
      · by_cases vanished : k = 0
        · simp [none, vanished]
        · by_cases beyond : lo < k
          · simp [none, vanished, beyond, least]
          · have fits := ofInt_emod_neg (w := w) ((not_lt.1 beyond).trans loFits)
            simp [none, vanished, beyond, fits, show ¬(hi : Int) < -k by omega]
    | false =>
      by_cases beyond : hi < k
      · simp [beyond, greatest, show ¬(k : Int) < -lo by omega]
      · have fits := ofInt_emod_natCast (w := w) ((not_lt.1 beyond).trans_lt hiFits)
        simp [beyond, fits, show ¬(k : Int) < -lo by omega]

end

/-- A magnitude is one unit of its own binade and a part. -/
theorem floor_leading {x : ℚ} (pos : 0 < x) : ⌊x / 2 ^ Int.log 2 x⌋ = 1 := by
  have unit : (0 : ℚ) < 2 ^ Int.log 2 x := by positivity
  have above : (2 : ℚ) ^ Int.log 2 x ≤ x := (zpow_le_iff_le_log_two pos).2 le_rfl
  have below := Int.lt_zpow_succ_log_self (b := 2) one_lt_two x
  rw [Nat.cast_two, zpow_add_one₀ two_ne_zero, mul_comm _ (2 : ℚ), ← div_lt_iff₀ unit] at below
  rw [← one_le_div unit] at above
  exact Int.floor_eq_iff.2 ⟨by exact_mod_cast above, by rw [Int.cast_one, one_add_one_eq_two]; exact below⟩

/-- The model's `FINAL` to `.e8m0` is R86's. -/
theorem scaleFinal_spec (c : FinalCtl) (v : XVal) (dropped : Bool) :
    ScaleFinal c.mode c.draw dropped v (scaleFinal c v dropped) := by
  cases v with
  | nan => rfl
  | inf neg ovf => rfl
  | fin neg m e =>
    rcases Nat.eq_zero_or_pos m with rfl | pos
    · simp [ScaleFinal, scaleFinal]
    cases neg with
    | true => simp [ScaleFinal, scaleFinal]
    | false =>
      have mag : (0 : ℚ) < m * 2 ^ e := by positivity
      have log := magLog2_eq pos e
      have low := magLog2_lt_iff pos (e := e) (k := -127)
      have high := le_magLog2_iff pos (e := e) (k := 128)
      rw [zpow_ofNat] at high
      obtain ⟨n, r, u, split, part, value⟩ := splitUnits_spec m e (magLog2 m e)
      obtain rfl : n = 1 := by
        have floor := floor_leading mag
        rw [← log, value, floor_units part] at floor
        exact_mod_cast floor
      have exact : (m : ℚ) * 2 ^ e = 2 ^ magLog2 m e ↔ r = 0 := by
        rw [← units_exact_iff (n := 1) part, ← value, eq_div_iff (by positivity), Nat.cast_one, one_mul, eq_comm]
      simp only [ScaleFinal, scaleFinal, mag.ne', pos.ne', ← low, ← high, ← log, split, ne_eq, exact, value]
      by_cases tiny : magLog2 m e < -127
      · simp [tiny]
      by_cases huge : 128 ≤ magLog2 m e
      · simp [tiny, huge]
      obtain ⟨lo, place⟩ : ∃ lo : Nat, magLog2 m e + 127 = lo := ⟨(magLog2 m e + 127).toNat, by omega⟩
      have rounded := picked_eq (n := lo) (mode := c.mode) (neg := false) (draw := c.draw) (odd := decide (lo % 2 = 1)) part rfl
      have shift : ((1 : Nat) : ℚ) + r / u + (magLog2 m e + 126 : Int) = lo + r / u := by
        have : ((magLog2 m e + 127 : Int) : ℚ) = lo := by exact_mod_cast congrArg (Int.cast (R := ℚ)) place
        push_cast at this ⊢
        linarith
      rw [shift, rounded, place, Int.toNat_natCast]
      have fold : (if r = 0 then lo else if roundsUp c.mode false (decide (lo % 2 = 1)) r u c.draw then lo + 1 else lo) =
        roundedUnits c.mode false (decide (lo % 2 = 1)) lo r u c.draw := rfl
      simp only [fold]
      generalize roundedUnits c.mode false (decide (lo % 2 = 1)) lo r u c.draw = k
      by_cases top : 254 < k
      · simp [tiny, huge, top, show (254 : Int) < k by omega]
      · simp [tiny, huge, top, show ¬(254 : Int) < k by omega]

end Sys2Proof.Machine
end

section
/-!
PROOFS. Conversions (R87, R97, R99, R139): rounding to odd on the grid of each kind of type, `FRND`, and SR's draw.
-/

namespace Sys2Proof.Machine

/-! ### Rounding to odd on another type's grid (R87) -/

section
variable {f : Fmt} (h : f.Sound)
include h

/-- The odd form of a magnitude as a conversion's result (R87). -/
theorem Fmt.Sound.floatConversion_finite (neg : Bool) (m : Nat) (e : Int) :
    FloatConversion f (.fin neg m e) (f.ro (.fin neg m e) 0) := by
  rcases Nat.eq_zero_or_pos m with rfl | pos
  · have zero := h.hasMagnitude_signed (Nat.zero_le f.maxEnc) neg
    rw [f.encVal_zero] at zero
    have none : toOdd 0 = 0 := by simp [toOdd]
    simp only [FloatConversion, Nat.cast_zero, zero_mul, mul_zero, zero_div, none, Int.cast_zero, h.overflow_pos.not_ge, if_false]
    exact ⟨rfl, h.signed_lt (Nat.two_pow_pos _) neg, zero⟩
  · rcases le_or_gt (overflowOf f) ((m : ℚ) * 2 ^ e) with le | lt
    · simp only [FloatConversion, if_pos le]
      exact f.ro_overflow neg 0 pos le
    · have mag : (0 : ℚ) < m * 2 ^ e := by positivity
      have fits := h.enc_floor_le mag lt (f.quarters_div_four m e)
      have quarter : ulpOf f (m * 2 ^ e) / 4 = 2 ^ (f.binade (m * 2 ^ e) - f.fbits - 2) := by
        rw [ulpOf_eq, zpow_sub₀ two_ne_zero _ 2]
        norm_num
      have grid : 4 * ((m : ℚ) * 2 ^ e) / ulpOf f (m * 2 ^ e) = m * 2 ^ e / 2 ^ (f.binade (m * 2 ^ e) - f.fbits - 2) := by
        rw [← quarter]
        field_simp
      simp only [FloatConversion, if_neg lt.not_ge, grid, quarter, ← f.quarters_eq, h.xval_ro neg 0 pos lt]
      rw [f.ro_finite neg 0 pos lt]
      exact ⟨rfl, h.signed_lt (fits.trans_lt h.top) neg, rfl, by norm_cast⟩

theorem Fmt.Sound.floatConversion (v : XVal) : FloatConversion f v (cvtFlt f v) := by
  cases v with
  | nan => rfl
  | inf neg ovf => cases ovf <;> cases inf : f.hasInf <;> simp [FloatConversion, cvtFlt, Fmt.final, Fmt.ro, inf]
  | fin neg m e => exact h.floatConversion_finite neg m e

end

theorem intFinal_tail (sg : Bool) (w : Nat) (c : FinalCtl) (v : XVal) (dropped : Bool) :
    (intFinal sg w c v dropped).tail = 0 := by
  unfold intFinal
  cases v with
  | nan => rfl
  | inf neg ovf => cases neg <;> rfl
  | fin neg m e =>
    dsimp only
    split_ifs <;> rfl

/-- The quarters of an integer, as the model and as R87 counts them. -/
theorem integerQuarters (m : Nat) (e : Int) : toOdd (4 * ((m : ℚ) * 2 ^ e)) = oddUnits m e (-2) := by
  rw [oddUnits_eq]
  congr 1
  norm_num
  ring

theorem integerConversion {sg : Bool} {w : Nat} (hw : 1 ≤ w) (v : XVal) : IntegerConversion sg w v (cvtInt sg w v) := by
  cases v with
  | nan => exact integerFinal (sg := sg) hw rtzCtl false .nan nofun
  | inf neg ovf => exact integerFinal (sg := sg) hw rtzCtl false (.inf neg ovf) nofun
  | fin neg m e =>
    have final := integerFinal (sg := sg) hw rtzCtl false (.fin neg m e) fun _ _ _ => rfl
    have tailed : { intFinal sg w rtzCtl (.fin neg m e) false with tail := 0 } = intFinal sg w rtzCtl (.fin neg m e) false := by
      rw [← intFinal_tail sg w rtzCtl (.fin neg m e) false]
    have zero : (m : ℚ) * 2 ^ e = 0 ↔ m = 0 := by simp [(zpow_pos (two_pos (α := ℚ)) e).ne']
    obtain ⟨lo, hi, natLo, natHi, intLo, intHi, loFits, hiFits⟩ := integerRange sg hw
    have quarters := integerQuarters m e
    have form : cvtInt sg w (.fin neg m e) =
        if m = 0 then ⟨0, 0, 0⟩
        else if (if neg then oddUnits m e (-2) / 4 ≤ lo ∧ oddUnits m e (-2) / 4 ≠ 0 else oddUnits m e (-2) / 4 ≤ hi)
          then ⟨BitVec.ofNat 64 (if neg then 2 ^ w - oddUnits m e (-2) / 4 else oddUnits m e (-2) / 4),
            BitVec.ofNat 2 (oddUnits m e (-2)), 0⟩
          else intFinal sg w rtzCtl (.fin neg m e) false := by
      rcases units : unitsFloor m e (-2) with ⟨n, whole⟩
      have odd : (if whole then n else n ||| 1) = oddUnits m e (-2) := by rw [oddUnits, units]
      simp only [cvtInt, units, odd, tailed]
      refine ite_congr rfl (fun _ => rfl) fun none => if_congr ?_ rfl rfl
      have half := Nat.two_pow_pos (w - 1)
      have full := Nat.two_pow_pos w
      rw [← natLo, ← natHi]
      cases neg <;> cases sg <;> simp [none] <;> omega
    generalize oddUnits m e (-2) = q at quarters form
    by_cases none : m = 0
    · simp only [IntegerConversion, zero, form, if_pos none]
    simp only [IntegerConversion, zero, form, if_neg none, intLo, intHi, quarters]
    clear natLo natHi intLo intHi form quarters tailed
    cases neg with
    | true =>
      simp only [if_true, true_and]
      by_cases fits : q / 4 ≤ lo ∧ q / 4 ≠ 0
      · have held : ¬(-((q : Int) / 4) < -lo ∨ (hi : Int) < -((q : Int) / 4) ∨ -((q : Int) / 4) = 0) := by omega
        have bits := ofInt_emod_neg (w := w) (fits.1.trans loFits)
        rw [Nat.mod_eq_of_lt (by have := Nat.two_pow_pos w; omega)] at bits
        push_cast at bits
        rw [if_neg held, if_pos fits, bits, BitVec.ofInt_natCast]
      · have beyond : -((q : Int) / 4) < -lo ∨ (hi : Int) < -((q : Int) / 4) ∨ -((q : Int) / 4) = 0 := by omega
        rw [if_pos beyond, if_neg fits]
        exact final
    | false =>
      simp only [Bool.false_eq_true, if_false, false_and, or_false]
      by_cases fits : q / 4 ≤ hi
      · have held : ¬((q : Int) / 4 < -lo ∨ (hi : Int) < (q : Int) / 4) := by omega
        have bits := ofInt_emod_natCast (w := w) (fits.trans_lt hiFits)
        push_cast at bits
        rw [if_neg held, if_pos fits, bits, BitVec.ofInt_natCast]
      · have beyond : (q : Int) / 4 < -lo ∨ (hi : Int) < (q : Int) / 4 := by omega
        rw [if_pos beyond, if_neg fits]
        exact final

theorem scaleConversion (v : XVal) : ScaleConversion v (cvtScale v) := by
  cases v with
  | nan => rfl
  | inf neg ovf => cases neg <;> cases ovf <;> rfl
  | fin neg m e =>
    cases neg with
    | true => exact scaleFinal_spec rtzCtl (.fin true m e) false
    | false =>
      have final := scaleFinal_spec rtzCtl (.fin false m e) false
      rcases Nat.eq_zero_or_pos m with rfl | pos
      · have small : (0 : ℚ) < 2 ^ (-127 : Int) := by positivity
        simp only [ScaleConversion, cvtScale, Nat.cast_zero, zero_mul, if_pos small]
        exact final
      have low := magLog2_lt_iff pos (e := e) (k := -127)
      have high := le_magLog2_iff pos (e := e) (k := 128)
      rw [zpow_ofNat] at high
      have quarters : toOdd (4 * ((m : ℚ) * 2 ^ e) / 2 ^ magLog2 m e) = oddUnits m e (magLog2 m e - 2) := by
        rw [oddUnits_eq, zpow_sub₀ two_ne_zero _ 2]
        congr 1
        field_simp
        norm_num
      simp only [ScaleConversion, cvtScale, if_neg pos.ne', ← low, ← high, ← magLog2_eq pos]
      by_cases tiny : magLog2 m e < -127
      · simp only [if_pos tiny]
        exact final
      by_cases huge : 128 ≤ magLog2 m e
      · simp only [if_neg tiny, if_pos huge]
      · obtain ⟨k, place⟩ : ∃ k : Nat, magLog2 m e + 127 = k := ⟨(magLog2 m e + 127).toNat, by omega⟩
        simp only [if_neg tiny, if_neg huge, quarters, place, Int.toNat_natCast, BitVec.ofInt_natCast]
        rfl

end Sys2Proof.Machine
end

section
/-!
PROOFS. `FRND`, the keyed generator and the conversion instructions (R97, R99, R139, R141, R146).
-/

namespace Sys2Proof.Machine

/-! ### The integers of a format (R139) -/

theorem Fmt.maxInt_eq (f : Fmt) : (f.maxInt : Int) = ⌊overflowOf f - 2 ^ f.ov.2⌋ := by
  obtain ⟨n, r, u, split, part, value⟩ := splitUnits_spec (2 ^ f.fbits + f.maxEnc % 2 ^ f.fbits) f.ov.2 0
  have top : overflowOf f - 2 ^ f.ov.2 = (2 ^ f.fbits + f.maxEnc % 2 ^ f.fbits : Nat) * 2 ^ f.ov.2 := by
    simp only [overflowOf, Fmt.ov]
    push_cast
    ring
  rw [zpow_zero, div_one] at value
  rw [top, value, floor_units part]
  change ((unitsFloor (2 ^ f.fbits + f.maxEnc % 2 ^ f.fbits) f.ov.2 0).1 : Int) = n
  rw [unitsFloor_eq, split]

theorem Fmt.maxInt_lt (f : Fmt) : (f.maxInt : ℚ) < overflowOf f := by
  have floor := Int.floor_le (overflowOf f - 2 ^ f.ov.2)
  rw [← f.maxInt_eq] at floor
  have unit : (0 : ℚ) < 2 ^ f.ov.2 := by positivity
  push_cast at floor
  linarith

section
variable {f : Fmt} (h : f.Sound)
include h

/-- The encoding of an integer of a format has its magnitude. -/
theorem Fmt.Sound.encVal_ofInt {n : Nat} (le : n ≤ 2 ^ f.fbits) : f.encVal (f.ofInt n) = n := by
  rcases Nat.eq_zero_or_pos n with rfl | pos
  · simpa [Fmt.ofInt] using f.encVal_zero
  have mag : (0 : ℚ) < n := by exact_mod_cast pos
  have log : magLog2 n 0 = Int.log 2 (n : ℚ) := by rw [magLog2_eq pos, zpow_zero, mul_one]
  have binade : max (magLog2 n 0) f.emin = f.binade n := by rw [log]; rfl
  have upper : f.binade n ≤ f.fbits := by
    have own : Nat.log2 n ≤ f.fbits := (Nat.pow_le_pow_iff_right one_lt_two).1 ((Nat.log2_self_le pos.ne').trans le)
    rw [← binade, magLog2]
    have := h.units
    omega
  have units : (unitsFloor n 0 (f.binade n - f.fbits)).1 = n * 2 ^ (0 - (f.binade n - f.fbits)).toNat := by
    rw [unitsFloor, if_pos (by omega)]
  have whole : (n : ℚ) = (n * 2 ^ (0 - (f.binade n - f.fbits)).toNat : Nat) * 2 ^ (f.binade n - f.fbits) := by
    have := two_zpow_split (K := ℚ) (q := f.binade n - f.fbits) (e := 0) (by omega)
    rw [Nat.cast_mul, mul_assoc, ← this, zpow_zero, mul_one]
  have divided : (n : ℚ) / 2 ^ (f.binade n - f.fbits) = (n * 2 ^ (0 - (f.binade n - f.fbits)).toNat : Nat) := by
    rw [div_eq_iff (by positivity)]
    exact whole
  have floor : ((n * 2 ^ (0 - (f.binade n - f.fbits)).toNat : Nat) : Int) = ⌊(n : ℚ) / 2 ^ (f.binade n - f.fbits)⌋ := by
    rw [divided, Int.floor_natCast]
  have p := f.point_of_floor mag floor
  rw [Fmt.ofInt, if_neg pos.ne']
  simp only [binade, units]
  exact p.encVal.trans whole.symm

theorem Fmt.Sound.ofInt_le {n : Nat} (le : n ≤ 2 ^ f.fbits) (int : n ≤ f.maxInt) : f.ofInt n ≤ f.maxEnc := by
  rw [← h.lt_overflow_iff, h.encVal_ofInt le]
  exact lt_of_le_of_lt (by exact_mod_cast int) f.maxInt_lt

/-- `FRND` of a finite element below the greatest precision. -/
theorem Fmt.Sound.integralRounding_small (code : BitVec 5) (fcr : Word) (pos : Nat) (x : FElem) {neg : Bool} {m : Nat} {e : Int}
    (value : f.xval x.bits.toNat x.tail = .fin neg m e) (small : (m : ℚ) * 2 ^ e < 2 ^ (f.p - 1)) :
    IntegralRounding f (modeOf fcr) (srDraw fcr (srIndex (.flt f) x) (srSalt x.tail code pos)) x (frndTo f code fcr pos x) := by
  generalize draw : srDraw fcr (srIndex (.flt f) x) (srSalt x.tail code pos) = d
  obtain ⟨n, r, u, split, part, units⟩ := splitUnits_spec m e 0
  rw [zpow_zero, div_one] at units
  have rounded := picked_eq (mode := modeOf fcr) (neg := neg) (draw := d) (odd := decide (n % 2 = 1)) part rfl
  have exact := roundedUnits_exact_iff (mode := modeOf fcr) (neg := neg) (draw := d) (odd := decide (n % 2 = 1)) (n := n) part
  have below : ¬magLe (2 ^ (f.p - 1)) 0 m e = true := by
    rw [magLe_iff, zpow_zero, mul_one, not_le]
    exact_mod_cast small
  have fits : roundedUnits (modeOf fcr) neg (decide (n % 2 = 1)) n r u d ≤ 2 ^ f.fbits := by
    have floor : (n : ℚ) < (2 ^ f.fbits : Nat) := by
      have left : (0 : ℚ) ≤ r / u := by positivity
      push_cast
      exact lt_of_le_of_lt (by linarith) small
    exact (roundedUnits_le ..).2.trans (by exact_mod_cast floor)
  have form : let k := roundedUnits (modeOf fcr) neg (decide (n % 2 = 1)) n r u d
      let ovf : Bool := f.maxInt < k
      let inexact := r ≠ 0 || stkOf x.tail || ovf
      frndTo f code fcr pos x = ⟨f.signed neg (f.ofInt (min k f.maxInt)), 0,
        (if inexact then fNX else 0) ||| (if ovf then fOF else 0) |||
          (if (m ≠ 0 && (m : ℚ) * 2 ^ e < 2 ^ f.emin) && inexact then fUF else 0)⟩ := by
    intro k ovf inexact
    simp only [frndTo, value, if_neg below, split, f.tiny_eq, draw, inexact, ovf, k, roundedUnits, decide_eq_true_eq]
  have some : 0 < (m : ℚ) * 2 ^ e ↔ m ≠ 0 := by
    rw [(show (0 : ℚ) ≤ m * 2 ^ e by positivity).lt_iff_ne', ne_eq, mul_eq_zero, Nat.cast_eq_zero,
      or_iff_left (by positivity)]
  simp only [IntegralRounding, value, ← f.maxInt_eq, small.not_ge, if_false, some]
  rw [form]
  have picks : picked (modeOf fcr) neg d (m * 2 ^ e) = roundedUnits (modeOf fcr) neg (decide (n % 2 = 1)) n r u d := by
    rw [units, rounded]
  rw [← units] at exact
  simp only [picks, Int.cast_natCast, ne_eq, exact]
  clear rounded exact picks form
  generalize roundedUnits (modeOf fcr) neg (decide (n % 2 = 1)) n r u d = k at fits ⊢
  have least : min k f.maxInt ≤ 2 ^ f.fbits := (min_le_left ..).trans fits
  have enc := h.ofInt_le least (min_le_right ..)
  have mag := h.hasMagnitude_signed enc neg
  rw [h.encVal_ofInt least] at mag
  refine ⟨trivial, h.signed_lt (enc.trans_lt h.top) neg, by exact_mod_cast mag, ?_⟩
  simp only [Nat.cast_lt, Bool.or_eq_true, Bool.and_eq_true, decide_eq_true_eq, or_assoc, and_assoc]

theorem Fmt.Sound.integralRounding (code : BitVec 5) (fcr : Word) (pos : Nat) (x : FElem) :
    IntegralRounding f (modeOf fcr) (srDraw fcr (srIndex (.flt f) x) (srSalt x.tail code pos)) x (frndTo f code fcr pos x) := by
  cases value : f.xval x.bits.toNat x.tail with
  | nan =>
    have some : f.hasNan = true := by
      by_contra none
      have all := h.nans (Bool.eq_false_of_not_eq_true none)
      have lt := Nat.mod_lt (x.bits.toNat % 2 ^ f.width) (Nat.two_pow_pos (f.ebits + f.fbits))
      have finite : ¬f.maxEnc < x.bits.toNat % 2 ^ f.width % f.signBit := by
        have : x.bits.toNat % 2 ^ f.width % f.signBit < f.signBit := lt
        omega
      rw [Fmt.xval] at value
      simp only [if_neg finite] at value
      split at value <;> cases value
    simp only [IntegralRounding, frndTo, value, FloatFinal, if_pos some, Fmt.nanRes]
  | inf neg beyond =>
    simp only [IntegralRounding, frndTo, value]
    cases beyond <;>
      exact h.floatFinal ⟨modeOf fcr, false, srDraw fcr (srIndex (.flt f) x) (srSalt x.tail code pos)⟩ (.inf neg _)
        (stkOf x.tail)
  | fin neg m e =>
    rcases lt_or_ge ((m : ℚ) * 2 ^ e) (2 ^ (f.p - 1)) with small | large
    · exact h.integralRounding_small code fcr pos x value small
    · have above : magLe (2 ^ (f.p - 1)) 0 m e = true := by
        rw [magLe_iff, zpow_zero, mul_one]
        exact_mod_cast large
      simp only [IntegralRounding, frndTo, value, if_pos above, if_pos large, and_self]

end

end Sys2Proof.Machine
end

section
/-!
PROOFS. The conversion instructions, the tail instructions and `RNDK` (R97, R99, R139, R141, R146).
-/

namespace Sys2Proof.Machine

/-! ### SR's draw (R97, R99) -/

theorem seedOf_eq (fcr : Word) : seedOf fcr = BitVec.ofNat 32 (fcr.toNat / 2 ^ 8) := by
  apply BitVec.eq_of_toNat_eq
  have := fcr.isLt
  simp [seedOf, BitVec.extractLsb'_toNat, Nat.shiftRight_eq_div_pow]
  omega

theorem srIndex_eq (t : Ty) (x : FElem) : srIndex t x =
    if t.width = 64 then x.bits.setWidth 32 ^^^ x.bits.extractLsb' 32 32 else BitVec.ofNat 32 (x.bits.toNat % 2 ^ t.width) := by
  have high : (x.bits >>> 32).setWidth 32 = x.bits.extractLsb' 32 32 := by
    apply BitVec.eq_of_toNat_eq
    simp [BitVec.extractLsb'_toNat]
  rw [srIndex, high]

theorem elementDraw_eq (t ty : BitVec 5) (fcr : Word) (pos : Nat) (x : FElem) :
    elementDraw t ty fcr pos x = srDraw fcr (srIndex (tyOf t) x) (srSalt x.tail ty pos) := by
  simp only [elementDraw, drawOf, srDraw, srSalt, seedOf_eq, srIndex_eq]

/-! ### Types of R50 -/

theorem tyOf_injective {t ty : BitVec 5} (ht : tg3 t = true) (hty : tg3 ty = true) (h : tyOf t = tyOf ty) : t = ty := by
  have all : ∀ t ty : BitVec 5, tg3 t = true → tg3 ty = true → tyOf t = tyOf ty → t = ty := by decide
  exact all t ty ht hty h

theorem width_pos_of_int {ty : BitVec 5} {sg : Bool} {w : Nat} (h : tyOf ty = .int sg w) : 1 ≤ w := by
  have all : ∀ ty : BitVec 5, 1 ≤ (match tyOf ty with | .int _ w => w | _ => 1) := by decide
  simpa [h] using all ty

/-- A zero has no tail (R77). -/
theorem tail_of_zero {t : BitVec 5} {x : FElem} {neg : Bool} {e : Int} (h : extendedValue t x = .fin neg 0 e) :
    stkOf x.tail = false := by
  have tail : x.tail.toNat = 0 := by
    rw [extendedValue] at h
    cases ty : tyOf t with
    | int sg w =>
      rw [ty] at h
      simp only [Ty.xval, intXval] at h
      split at h <;> injection h <;> omega
    | flt f =>
      rw [ty] at h
      simp only [Ty.xval, Fmt.xval] at h
      split_ifs at h <;> injection h <;> omega
    | scale =>
      rw [ty] at h
      simp only [Ty.xval, scaleXval] at h
      split at h <;> injection h
      omega
    | none => rw [ty] at h; cases h
  rw [BitVec.eq_of_toNat_eq (x := x.tail) (y := 0) tail]
  rfl

theorem conversions : Conversions := by
  refine ⟨fun s d a t ty => ⟨.of_float1 rfl rfl, .of_float1 rfl rfl, fun same => ?_⟩, fun t ty fcr pos x ht hty => ?_⟩
  · subst same
    exact .of_float1 rfl rfl
  intro v draw dropped
  have drawn : draw = srDraw fcr (srIndex (tyOf t) x) (srSalt x.tail ty pos) := elementDraw_eq ..
  have own : t = ty → elCvt t ty x = ⟨BitVec.ofNat 64 (x.bits.toNat % 2 ^ (tyOf t).width), x.tail, 0⟩ := fun same => by
    rw [elCvt, cvtTo, if_pos (congrArg tyOf same)]
  have other : t ≠ ty → tyOf t ≠ tyOf ty := fun differ same => differ (tyOf_injective ht hty same)
  refine ⟨own, ?_⟩
  cases h : tyOf ty with
  | flt f =>
    have sound := tyOf_flt_sound h
    refine ⟨fun differ => ?_, ?_, fun same => ?_⟩
    · rw [elCvt, cvtTo, if_neg (other differ), h]
      exact sound.floatConversion v
    · rw [elCvtf, h, drawn]
      exact sound.floatFinal ⟨modeOf fcr, ftzOf fcr, _⟩ v dropped
    · subst same
      rw [elFrnd, fmtOf_of_flt h, drawn, h]
      exact sound.integralRounding ..
  | int sg n =>
    have width := width_pos_of_int h
    refine ⟨fun differ => ?_, ?_⟩
    · rw [elCvt, cvtTo, if_neg (other differ), h]
      exact integerConversion width v
    · rw [elCvtf, h, drawn]
      exact integerFinal width ⟨modeOf fcr, ftzOf fcr, _⟩ dropped v fun _ _ zero => tail_of_zero zero
  | scale =>
    refine ⟨fun differ => ?_, ?_⟩
    · rw [elCvt, cvtTo, if_neg (other differ), h]
      exact scaleConversion v
    · rw [elCvtf, h, drawn]
      exact scaleFinal_spec ⟨modeOf fcr, ftzOf fcr, _⟩ v dropped
  | none => trivial

theorem tailsAndKeys : TailsAndKeys := by
  intro s d a b
  refine ⟨.of_wrote rfl rfl, .of_plain rfl ?_, .of_wrote rfl ?_⟩
  · rw [BitVec.ofNat_toNat]
  · rw [seedOf_eq]
    rfl

end Sys2Proof.Machine
end

section
/-!
PROOFS. The special functions (R138): special operands, exact cases, and the bound of one ulp of `FRCP` and `FRSQ`.
-/

namespace Sys2Proof.Machine

/-! ### What the model's parts answer -/

theorem splitInt_spec (m : Nat) (e : Int) : ∃ i r u, splitInt m e = (i, r, u) ∧ r < u ∧ (m : ℚ) * 2 ^ e = i + r / u := by
  obtain ⟨i, r, u, split, part, value⟩ := splitUnits_spec m e 0
  have same : splitInt m e = splitUnits m e 0 := by simp only [splitInt, splitUnits, sub_zero, zero_sub]
  rw [zpow_zero, div_one] at value
  exact ⟨i, r, u, same.trans split, part, value⟩

/-- A sum of an integer and a part of a unit is an integer only without the part. -/
theorem units_eq_int {i r u : Nat} (part : r < u) {j : Int} (h : (i : ℚ) + r / u = j) : (i : Int) = j ∧ r = 0 := by
  have floor := floor_units (n := i) part
  rw [h, Int.floor_intCast] at floor
  refine ⟨floor.symm, (units_exact_iff (n := i) part).1 ?_⟩
  rw [h, floor, Int.cast_natCast]

theorem units_eq_half {i r u j : Nat} (part : r < u) (h : (i : ℚ) + r / u = j + 1 / 2) : i = j ∧ 2 * r = u := by
  have pos : (0 : ℚ) < u := by exact_mod_cast Nat.zero_le r |>.trans_lt part
  have floor := floor_units (n := i) part
  have half : ⌊(j : ℚ) + 1 / 2⌋ = j := by
    rw [Int.floor_natCast_add]
    norm_num
  rw [h, half] at floor
  obtain rfl : j = i := by exact_mod_cast floor
  refine ⟨rfl, ?_⟩
  have tie : (r : ℚ) / u = 1 / 2 := by linarith
  rw [div_eq_div_iff pos.ne' two_ne_zero] at tie
  have : r * 2 = 1 * u := by exact_mod_cast tie
  omega

theorem pow2_of_eq {m : Nat} {e j : Int} (pos : 0 < m) (h : (m : ℚ) * 2 ^ e = 2 ^ j) :
    isPow2 m = true ∧ j = e + Nat.log2 m := by
  have log := log_natCast_mul_zpow pos e
  have own : Int.log 2 ((2 : ℚ) ^ j) = j := by simpa using Int.log_zpow (R := ℚ) (b := 2) one_lt_two j
  rw [h, own] at log
  have whole : (m : ℚ) = 2 ^ Nat.log2 m := by
    rw [log, zpow_add₀ two_ne_zero, zpow_natCast] at h
    exact mul_right_cancel₀ (by positivity) h
  exact ⟨beq_iff_eq.2 (by exact_mod_cast whole), by rw [log]; ring⟩

theorem eq_pow_of_pow2 {m : Nat} {e : Int} (h : isPow2 m = true) : (m : ℚ) * 2 ^ e = 2 ^ (e + Nat.log2 m) := by
  have whole : (m : ℚ) = 2 ^ Nat.log2 m := by exact_mod_cast beq_iff_eq.1 h
  conv_lhs => rw [whole]
  rw [zpow_add₀ two_ne_zero, zpow_natCast, mul_comm]

section
variable {ty : BitVec 5} {fn : SpecialFn} {x : FElem}

/-- A function's value that the table gives exactly is rounded once. -/
theorem elSpecial_exact {y : XRes} (h : fn.val (extendedValue ty x) = .exact y) : elSpecial fn ty x = roundedOnce ty y := by
  rw [extendedValue] at h
  simp only [elSpecial, h]
  rfl

/-- One near an approximation is the approximation moved by the free place within the bound (entry 20). -/
theorem elSpecial_near {n : Bool} {m : Nat} {e : Int} (h : fn.val (extendedValue ty x) = .near (.fin n m e)) :
    elSpecial fn ty x = (fmtOf ty).ro (finAdd n m e (decide (slackOf fn ty x < 0)) (slackOf fn ty x).natAbs
      ((fmtOf ty).ulpBelow m e - 20)) 0 := by
  rw [extendedValue] at h
  simp only [elSpecial, h]

/-- Whatever the place, the result is the odd form of a finite value without a flag. -/
theorem elSpecial_odd {n : Bool} {m : Nat} {e : Int} (h : fn.val (extendedValue ty x) = .near (.fin n m e)) :
    ∃ neg k q, elSpecial fn ty x = (fmtOf ty).ro (.fin neg k q) 0 := by
  obtain ⟨k, l, g, form, -⟩ := finAdd_spec n m e (decide (slackOf fn ty x < 0)) (slackOf fn ty x).natAbs
    ((fmtOf ty).ulpBelow m e - 20)
  exact ⟨k, l, g, by rw [elSpecial_near h, form]⟩

theorem slackOf_natAbs_le (fn : SpecialFn) (ty : BitVec 5) (x : FElem) : (slackOf fn ty x).natAbs ≤ 2 ^ 20 - 1 := by
  rw [slackOf]
  omega

/-- A special function sees the bits of its type alone. -/
theorem elSpecial_mod {f : Fmt} (h : tyOf ty = .flt f) :
    elSpecial fn ty ⟨BitVec.ofNat 64 (x.bits.toNat % 2 ^ (fmtOf ty).width), x.tail⟩ = elSpecial fn ty x := by
  have fits := (tyOf_flt_sound h).signBit_lt.2
  have bits : (BitVec.ofNat 64 (x.bits.toNat % 2 ^ f.width)).toNat = x.bits.toNat % 2 ^ f.width := by
    rw [BitVec.toNat_ofNat]
    exact Nat.mod_eq_of_lt ((Nat.mod_lt _ (Nat.two_pow_pos _)).trans_le fits)
  simp only [elSpecial, slackOf, h, fmtOf_of_flt h, Ty.xval, Ty.width, bits, f.xval_mod, Nat.mod_mod]

end

/-- A finite element lies below the overflow point (R77, R79). -/
theorem Fmt.Sound.xval_lt_overflow {f : Fmt} (h : f.Sound) {bits : Nat} {t : BitVec 2} {neg : Bool} {m : Nat} {e : Int}
    (value : f.xval bits t = .fin neg m e) : (m : ℚ) * 2 ^ e < overflowOf f := by
  set mag := bits % 2 ^ f.width % f.signBit with hm
  rcases le_or_gt mag f.maxEnc with le | gt
  · obtain ⟨ex, n, p, place⟩ := f.exists_point mag
    rw [f.xval_of_point p (hm.symm.trans place) (place ▸ le)] at value
    injection value with _ units grid
    have tail := t.isLt
    calc (m : ℚ) * 2 ^ e < (4 * (n + 1) : Nat) * 2 ^ e := by gcongr; omega
      _ = (n + 1 : Nat) * 2 ^ (ex - f.fbits) := by
        rw [← grid, zpow_sub₀ two_ne_zero _ 2]
        push_cast
        ring
      _ = f.encVal (mag + 1) := by rw [place, p.encVal_succ]
      _ ≤ f.encVal (f.maxEnc + 1) := f.encVal_strictMono.monotone (by omega)
      _ = overflowOf f := h.encVal_overflow
  · rw [Fmt.xval] at value
    simp only [← hm, if_pos gt] at value
    split at value <;> cases value

/-! ### The bound of one ulp -/

/-- The formats of the special functions (R138). -/
structure Fmt.Special (f : Fmt) : Prop extends f.Binary where
  short : f.fbits ≤ 23
  room  : f.emin - f.fbits + 2 + (f.fbits + 1 + f.ov.2) ≤ 0
  upper : 0 ≤ f.fbits + 1 + f.ov.2
  wide  : f.fbits + 1 + f.ov.2 ≤ 100000

theorem special_of_tg2 {ty : BitVec 5} (h : tg2 ty = true) : tyOf ty = .flt (fmtOf ty) ∧ (fmtOf ty).Special := by
  have all : ∀ ty : BitVec 5, tg2 ty = true → tg1 ty = true ∧ (fmtOf ty).fbits ≤ 23 ∧
      (fmtOf ty).emin - (fmtOf ty).fbits + 2 + ((fmtOf ty).fbits + 1 + (fmtOf ty).ov.2) ≤ 0 ∧
      0 ≤ (fmtOf ty).fbits + 1 + (fmtOf ty).ov.2 ∧ (fmtOf ty).fbits + 1 + (fmtOf ty).ov.2 ≤ 100000 := by decide
  obtain ⟨tg, short, room, upper, wide⟩ := all ty h
  exact ⟨tyOf_of_tg1 tg, binary_of_tg1 tg, short, room, upper, wide⟩

/-- A value that stands for a real number lies far closer to it than any ulp. -/
theorem StandsFor.close {n : Nat} {exact : Bool} {e : Int} {a : ℝ} (h : StandsFor n exact e a) :
    |(sticky n exact : ℝ) * 2 ^ e - a| ≤ a / 2 ^ 70 := by
  have unit : (0 : ℝ) < 2 ^ (e + 1) := by positivity
  have many : (2 : ℝ) ^ 70 ≤ n := by exact_mod_cast h.many
  have low := h.low
  have high := h.high
  have below : (n : ℝ) * 2 ^ (e + 1) ≤ sticky n exact * 2 ^ e := by
    rw [zpow_add_one₀ two_ne_zero, sticky, mul_comm _ (2 : ℝ), ← mul_assoc]
    gcongr
    push_cast
    split <;> norm_num [mul_comm]
  have above : (sticky n exact : ℝ) * 2 ^ e ≤ (n + 1) * 2 ^ (e + 1) := by
    rw [zpow_add_one₀ two_ne_zero, sticky, mul_comm _ (2 : ℝ), ← mul_assoc]
    gcongr
    push_cast
    split <;> linarith
  rw [le_div_iff₀ (by positivity)]
  have gap : |(sticky n exact : ℝ) * 2 ^ e - a| ≤ 2 ^ (e + 1) := by
    rw [abs_le]
    constructor <;> linarith
  calc |(sticky n exact : ℝ) * 2 ^ e - a| * 2 ^ 70 ≤ 2 ^ (e + 1) * n := by gcongr
    _ = n * 2 ^ (e + 1) := mul_comm ..
    _ ≤ a := low

section
variable {f : Fmt} {n : Nat} {e : Int} {r : ℝ}

/-- The ulp that the free place is counted in is not above that of the exact value, and not below the approximation. -/
theorem Fmt.ulpBelow_spec (f : Fmt) (pos : 0 < n) (rpos : 0 < r) (close : |(n : ℝ) * 2 ^ e - r| ≤ r / 2 ^ 66)
    (room : (2 : ℝ) ^ (f.emin - f.fbits) ≤ r / 2) :
    (2 : ℝ) ^ f.ulpBelow n e ≤ 2 ^ (max (Int.log 2 r) f.emin - f.fbits) ∧ (2 : ℝ) ^ f.ulpBelow n e ≤ n * 2 ^ e := by
  have mag : 0 < n * (2 ^ 60 - 1) := Nat.mul_pos pos (by norm_num)
  have value : ((n * (2 ^ 60 - 1) : Nat) : ℚ) * 2 ^ (e - 60) = n * 2 ^ e * ((2 ^ 60 - 1) / 2 ^ 60) := by
    rw [zpow_sub₀ two_ne_zero]
    push_cast
    norm_num
    ring
  have log : magLog2 (n * (2 ^ 60 - 1)) (e - 60) = Int.log 2 ((n : ℝ) * 2 ^ e * ((2 ^ 60 - 1) / 2 ^ 60)) := by
    rw [magLog2_eq mag, value, ← log_cast_rat]
    push_cast
    rfl
  have vpos : (0 : ℝ) < n * 2 ^ e * ((2 ^ 60 - 1) / 2 ^ 60) := by
    have : (0 : ℝ) < n := by exact_mod_cast pos
    positivity
  rw [abs_le] at close
  obtain ⟨low, high⟩ := close
  have below : (n : ℝ) * 2 ^ e * ((2 ^ 60 - 1) / 2 ^ 60) ≤ r := by norm_num at low high ⊢; linarith
  have less : (n : ℝ) * 2 ^ e * ((2 ^ 60 - 1) / 2 ^ 60) ≤ n * 2 ^ e := by norm_num at vpos ⊢; linarith
  have grows := Int.log_mono_right (b := 2) vpos below
  rw [Fmt.ulpBelow, Fmt.ulpExp, log]
  refine ⟨zpow_le_zpow_right₀ one_le_two (by omega), ?_⟩
  rcases le_total f.emin (Int.log 2 ((n : ℝ) * 2 ^ e * ((2 ^ 60 - 1) / 2 ^ 60))) with h | h
  · rw [max_eq_left h]
    calc (2 : ℝ) ^ (Int.log 2 ((n : ℝ) * 2 ^ e * ((2 ^ 60 - 1) / 2 ^ 60)) - f.fbits)
        ≤ 2 ^ Int.log 2 ((n : ℝ) * 2 ^ e * ((2 ^ 60 - 1) / 2 ^ 60)) := zpow_le_zpow_right₀ one_le_two (by omega)
      _ ≤ n * 2 ^ e * ((2 ^ 60 - 1) / 2 ^ 60) := (zpow_le_iff_le_log_two vpos).2 le_rfl
      _ ≤ n * 2 ^ e := less
  · rw [max_eq_right h]
    norm_num at low
    linarith

/-- A value close to a real number, moved by less than an ulp, keeps its sign and lies within one ulp of the number. -/
theorem Fmt.Special.near_of_close (h : f.Special) (pos : 0 < n) (rpos : 0 < r) (close : |(n : ℝ) * 2 ^ e - r| ≤ r / 2 ^ 66)
    (room : (2 : ℝ) ^ (f.emin - f.fbits) ≤ r / 2) (neg : Bool) {k : Int} (slack : k.natAbs ≤ 2 ^ 20 - 1) : ∃ l g,
    finAdd neg n e (decide (k < 0)) k.natAbs (f.ulpBelow n e - 20) = .fin neg l g ∧
    |(l : ℝ) * 2 ^ g - r| ≤ 2 ^ (max (Int.log 2 r) f.emin - f.fbits) := by
  obtain ⟨small, inside⟩ := f.ulpBelow_spec pos rpos close room
  obtain ⟨sign, l, g, form, value, -⟩ := finAdd_spec neg n e (decide (k < 0)) k.natAbs (f.ulpBelow n e - 20)
  set ulp := (2 : ℝ) ^ (max (Int.log 2 r) f.emin - f.fbits) with hulp
  have unit : (0 : ℝ) < 2 ^ f.ulpBelow n e := by positivity
  have count : ((k.natAbs : Nat) : ℝ) ≤ 2 ^ 20 - 1 := by
    have : ((k.natAbs : Nat) : ℝ) ≤ (2 ^ 20 - 1 : Nat) := by exact_mod_cast slack
    norm_num at this ⊢
    exact this
  have moved : ((k.natAbs : Nat) : ℝ) * 2 ^ (f.ulpBelow n e - 20) ≤ (2 ^ 20 - 1) / 2 ^ 20 * 2 ^ f.ulpBelow n e := by
    rw [zpow_sub₀ two_ne_zero]
    calc ((k.natAbs : Nat) : ℝ) * (2 ^ f.ulpBelow n e / 2 ^ (20 : Int))
        ≤ (2 ^ 20 - 1) * (2 ^ f.ulpBelow n e / 2 ^ (20 : Int)) := by gcongr
      _ = (2 ^ 20 - 1) / 2 ^ 20 * 2 ^ f.ulpBelow n e := by norm_num; ring
  have far : r ≤ 2 ^ 24 * ulp := by
    have top := (Int.lt_zpow_succ_log_self (b := 2) one_lt_two r).le
    have short := h.short
    rw [Nat.cast_two] at top
    calc r ≤ 2 ^ (Int.log 2 r + 1) := top
      _ ≤ 2 ^ ((24 : Int) + (max (Int.log 2 r) f.emin - f.fbits)) := zpow_le_zpow_right₀ one_le_two (by omega)
      _ = 2 ^ 24 * ulp := by rw [zpow_add₀ two_ne_zero, hulp]; norm_num
  have real : ((signedValue sign l g : ℚ) : ℝ) = (signedValue neg n e : ℚ) + (signedValue (decide (k < 0)) k.natAbs
    (f.ulpBelow n e - 20) : ℚ) := by exact_mod_cast congrArg (Rat.cast (K := ℝ)) value
  have size : |((signedValue (decide (k < 0)) k.natAbs (f.ulpBelow n e - 20) : ℚ) : ℝ)| =
      (k.natAbs : Nat) * 2 ^ (f.ulpBelow n e - 20) := by
    rw [← Rat.cast_abs, abs_signedValue]
    push_cast
    rfl
  generalize ((signedValue (decide (k < 0)) k.natAbs (f.ulpBelow n e - 20) : ℚ) : ℝ) = d at real size
  rw [← size] at moved
  obtain ⟨dlow, dhigh⟩ := abs_le.1 (le_refl |d|)
  obtain ⟨low, high⟩ := abs_le.1 close
  rw [form]
  cases neg with
  | false =>
    have sum : ((signedValue sign l g : ℚ) : ℝ) = n * 2 ^ e + d := by simpa [signedValue] using real
    have positive : (0 : ℝ) < (signedValue sign l g : ℚ) := by
      rw [sum]
      norm_num at moved
      linarith
    obtain ⟨rfl, -⟩ := (signedValue_pos sign l g).1 (by exact_mod_cast positive)
    have mag : (l : ℝ) * 2 ^ g = n * 2 ^ e + d := by simpa [signedValue] using sum
    refine ⟨l, g, rfl, ?_⟩
    rw [mag, abs_le]
    norm_num at moved low high
    constructor <;> linarith
  | true =>
    have sum : ((signedValue sign l g : ℚ) : ℝ) = -(n * 2 ^ e) + d := by simpa [signedValue] using real
    have negative : ((signedValue sign l g : ℚ) : ℝ) < 0 := by
      rw [sum]
      norm_num at moved
      linarith
    obtain ⟨rfl, -⟩ := (signedValue_neg sign l g).1 (by exact_mod_cast negative)
    have mag : (l : ℝ) * 2 ^ g = n * 2 ^ e - d := by
      have : -((l : ℝ) * 2 ^ g) = -(n * 2 ^ e) + d := by simpa [signedValue] using sum
      linarith
    refine ⟨l, g, rfl, ?_⟩
    rw [mag, abs_le]
    norm_num at moved low high
    constructor <;> linarith

end

end Sys2Proof.Machine
end

section
/-!
PROOFS. The table of R138, function by function.
-/

namespace Sys2Proof.Machine

theorem Fmt.Special.tiny_lt {f : Fmt} (h : f.Special) : (2 : ℚ) ^ (-100000 : Int) < 2 ^ (f.emin - f.fbits - 2) := by
  simpa using h.toBinary.tiny

/-- An exponent beyond every format rounds as the clamped one. -/
theorem Fmt.Special.ro_pow2Val {f : Fmt} (h : f.Special) (i : Int) : f.ro (pow2Val i) 0 = f.ro (.fin false 1 i) 0 := by
  have wide := h.wide
  have beyond : ∀ j : Int, 100000 ≤ j → overflowOf f ≤ ((1 : Nat) : ℚ) * 2 ^ j := fun j hj => by
    rw [Nat.cast_one, one_mul, h.overflow_eq]
    exact zpow_le_zpow_right₀ one_le_two (by omega)
  have below : ∀ j : Int, j ≤ -100000 → ((1 : Nat) : ℚ) * 2 ^ j < 2 ^ (f.emin - f.fbits - 2) := fun j hj => by
    rw [Nat.cast_one, one_mul]
    exact (zpow_le_zpow_right₀ one_le_two hj).trans_lt h.tiny_lt
  rw [pow2Val]
  rcases le_or_gt 100000 i with hi | hi
  · rw [show max (-100000) (min i 100000) = 100000 by omega, f.ro_overflow false 0 one_pos (beyond _ le_rfl),
      f.ro_overflow false 0 one_pos (beyond i hi)]
  · rcases le_or_gt i (-100000) with lo | lo
    · rw [show max (-100000) (min i 100000) = -100000 by omega, h.ro_tiny false 0 one_pos (below _ le_rfl),
        h.ro_tiny false 0 one_pos (below i lo)]
    · rw [show max (-100000) (min i 100000) = i by omega]

/-- A result that is not below the reciprocal of the overflow point is far above the lowest ulp. -/
theorem Fmt.Special.room_of_le {f : Fmt} (h : f.Special) {r : ℝ} (le : ((overflowOf f : ℚ) : ℝ)⁻¹ ≤ r) :
    (2 : ℝ) ^ (f.emin - f.fbits) ≤ r / 2 := by
  have room := h.room
  rw [le_div_iff₀ two_pos, ← zpow_add_one₀ two_ne_zero]
  refine le_trans ?_ le
  rw [h.overflow_eq]
  push_cast
  rw [← zpow_neg]
  exact zpow_le_zpow_right₀ one_le_two (by omega)

section
variable {ty : BitVec 5} (h : (fmtOf ty).Special) (flt : tyOf ty = .flt (fmtOf ty))
include h

theorem once_zero (n o : Bool) : roundedOnce ty ⟨if o then tinyVal n else .fin n 0 0, 0⟩ =
    ⟨(fmtOf ty).signed n 0, if o then 1 else 0, 0⟩ := by
  cases o with
  | false => rfl
  | true => exact h.ro_tiny n 0 one_pos h.toBinary.tiny

theorem once_inf (n o : Bool) (fl : BitVec 6) : roundedOnce ty ⟨.inf n o, fl⟩ =
    ⟨(fmtOf ty).signed n (fmtOf ty).infEnc, if o then 1 else 0, fl⟩ := by
  simp only [roundedOnce, Fmt.ro, h.hasInf, if_true]

variable (x : FElem)
include flt

theorem finite_lt_overflow {n : Bool} {m : Nat} {e : Int} (value : extendedValue ty x = .fin n m e) :
    (m : ℚ) * 2 ^ e < overflowOf (fmtOf ty) := by
  rw [extendedValue_of_flt flt] at value
  exact h.xval_lt_overflow value

omit flt in
/-- A value that is close to a function's value, moved by the free place, rounds as the table asks (R138). -/
theorem special_near {fn : SpecialFn} {n : Bool} {k : Nat} {g : Int} {r : ℝ}
    (near : fn.val (extendedValue ty x) = .near (.fin n k g)) (pos : 0 < k) (rpos : 0 < r)
    (close : |(k : ℝ) * 2 ^ g - r| ≤ r / 2 ^ 66) (room : ((overflowOf (fmtOf ty) : ℚ) : ℝ)⁻¹ ≤ r) :
    ∃ l q, elSpecial fn ty x = (fmtOf ty).ro (.fin n l q) 0 ∧
      |(l : ℝ) * 2 ^ q - r| ≤ 2 ^ (max (Int.log 2 r) (fmtOf ty).emin - (fmtOf ty).fbits) := by
  obtain ⟨l, q, form, bound⟩ := h.near_of_close pos rpos close (h.room_of_le room) n (slackOf_natAbs_le fn ty x)
  exact ⟨l, q, by rw [elSpecial_near near, form], bound⟩

/-- A reciprocal near which the free place is taken lies within one ulp (R138). -/
theorem rcp_near {n : Bool} {m : Nat} {e : Int} (value : extendedValue ty x = .fin n m e) (pos : 0 < m)
    (other : isPow2 m = false) : ∃ k q, elSpecial .rcp ty x = (fmtOf ty).ro (.fin n k q) 0 ∧
      |(k : ℝ) * 2 ^ q - (((m : ℚ) * 2 ^ e)⁻¹ : ℚ)| ≤
        2 ^ (max (Int.log 2 ((((m : ℚ) * 2 ^ e)⁻¹ : ℚ) : ℝ)) (fmtOf ty).emin - (fmtOf ty).fbits) := by
  obtain ⟨k, exact, g, form, stands⟩ := finDiv_standsFor n one_pos pos 0 e
  have apos : (0 : ℚ) < m * 2 ^ e := by positivity
  have real : ((((m : ℚ) * 2 ^ e)⁻¹ : ℚ) : ℝ) = (1 : Nat) * 2 ^ (0 : Int) / (m * 2 ^ e) := by
    push_cast
    simp
  have small := finite_lt_overflow h flt x value
  rw [← real] at stands
  refine special_near h x (fn := .rcp) ?_ stands.sticky_pos (by exact_mod_cast inv_pos.2 apos)
    (stands.close.trans ?_) (by exact_mod_cast inv_anti₀ apos small.le)
  · rw [value, ← form]
    simp [SpecialFn.val, rcpVal, pos.ne', other]
  · have : (0 : ℝ) < (((m : ℚ) * 2 ^ e)⁻¹ : ℚ) := by exact_mod_cast inv_pos.2 apos
    gcongr <;> norm_num

theorem rcp_rule : SpecialRule .rcp ty (extendedValue ty x) (elSpecial .rcp ty x) := by
  cases value : extendedValue ty x with
  | nan => exact elSpecial_exact (fn := .rcp) (y := ⟨.nan, 0⟩) (by rw [value]; rfl)
  | inf n o => exact (elSpecial_exact (fn := .rcp) (by rw [value]; rfl)).trans (once_zero h n o)
  | fin n m e =>
    rcases Nat.eq_zero_or_pos m with rfl | pos
    · have zero := (elSpecial_exact (fn := .rcp) (y := ⟨.inf n false, fDZ⟩) (by rw [value]; rfl)).trans (once_inf h n false fDZ)
      simpa [SpecialRule] using zero
    have mag : (m : ℚ) * 2 ^ e ≠ 0 := by positivity
    simp only [SpecialRule, if_neg mag]
    cases power : isPow2 m with
    | true =>
      have exact := elSpecial_exact (fn := .rcp) (y := ⟨.fin n 1 (-(e + Nat.log2 m)), 0⟩) (x := x) (ty := ty)
        (by rw [value]; simp [SpecialFn.val, rcpVal, pos.ne', power, exactly])
      have inverse : (1 : ℚ) * 2 ^ (-(e + Nat.log2 m) : Int) = ((m : ℚ) * 2 ^ e)⁻¹ := by
        rw [eq_pow_of_pow2 power, ← zpow_neg, one_mul]
      refine ⟨1, _, exact, ?_, fun _ => by exact_mod_cast inverse⟩
      rw [← inverse]
      push_cast
      rw [sub_self, abs_zero]
      positivity
    | false =>
      obtain ⟨k, q, form, near⟩ := rcp_near h flt x value pos power
      refine ⟨k, q, form, near, fun ⟨j, whole⟩ => ?_⟩
      rw [(pow2_of_eq pos whole).1] at power
      cases power

omit h flt in
/-- Roots of numbers that are close are close. -/
theorem sqrt_close {v a c : ℝ} (vpos : 0 ≤ v) (apos : 0 < a) (close : |v - a| ≤ a / c) :
    |Real.sqrt v - Real.sqrt a| ≤ Real.sqrt a / c := by
  have root := Real.sqrt_pos.2 apos
  have product : (Real.sqrt v - Real.sqrt a) * (Real.sqrt v + Real.sqrt a) = v - a := by
    have := Real.mul_self_sqrt vpos
    have := Real.mul_self_sqrt apos.le
    linarith
  have sum : Real.sqrt a ≤ Real.sqrt v + Real.sqrt a := by linarith [Real.sqrt_nonneg v]
  refine le_of_mul_le_mul_right ?_ root
  calc |Real.sqrt v - Real.sqrt a| * Real.sqrt a ≤ |Real.sqrt v - Real.sqrt a| * (Real.sqrt v + Real.sqrt a) := by gcongr
    _ = |v - a| := by rw [← product, abs_mul, abs_of_pos (root.trans_le sum)]
    _ ≤ a / c := close
    _ = Real.sqrt a / c * Real.sqrt a := by rw [div_mul_eq_mul_div, Real.mul_self_sqrt apos.le]

omit h flt in
theorem rsqVal_power {m : Nat} {e : Int} (pos : 0 < m) (power : (isPow2 m && (e + Nat.log2 m) % 2 = 0) = true) :
    rsqVal (.fin false m e) = exactly (.fin false 1 (-((e + Nat.log2 m) / 2))) := by
  simp only [rsqVal, if_neg pos.ne', Bool.false_eq_true, if_false, if_pos power]

omit h flt in
theorem rsqVal_other {m : Nat} {e : Int} (pos : 0 < m) (other : (isPow2 m && (e + Nat.log2 m) % 2 = 0) = false)
    {k : Nat} {g : Int} (quotient : finDiv false 1 0 m e = .fin false k g) : rsqVal (.fin false m e) = .near (finSqrt k g) := by
  simp only [rsqVal, if_neg pos.ne', other, Bool.false_eq_true, if_false, quotient]

theorem rsq_near {m : Nat} {e : Int} (value : extendedValue ty x = .fin false m e) (pos : 0 < m)
    (other : (isPow2 m && (e + Nat.log2 m) % 2 = 0) = false) : ∃ k q, elSpecial .rsq ty x = (fmtOf ty).ro (.fin false k q) 0 ∧
      |(k : ℝ) * 2 ^ q - (Real.sqrt ((m : ℚ) * 2 ^ e : ℚ))⁻¹| ≤
        2 ^ (max (Int.log 2 (Real.sqrt ((m : ℚ) * 2 ^ e : ℚ))⁻¹) (fmtOf ty).emin - (fmtOf ty).fbits) := by
  obtain ⟨k, exact, g, quotient, inverse⟩ := finDiv_standsFor false one_pos pos 0 e
  obtain ⟨l, exact', q, root, stands⟩ := finSqrt_standsFor inverse.sticky_pos g
  have apos : (0 : ℝ) < ((m : ℚ) * 2 ^ e : ℚ) := by exact_mod_cast (by positivity : (0 : ℚ) < m * 2 ^ e)
  have real : ((1 : Nat) : ℝ) * 2 ^ (0 : Int) / (m * 2 ^ e) = (((m : ℚ) * 2 ^ e : ℚ) : ℝ)⁻¹ := by
    push_cast
    simp
  have small : (((m : ℚ) * 2 ^ e : ℚ) : ℝ) < (overflowOf (fmtOf ty) : ℚ) := by
    exact_mod_cast finite_lt_overflow h flt x value
  have large : (1 : ℝ) ≤ (overflowOf (fmtOf ty) : ℚ) := by
    rw [h.overflow_eq]
    exact_mod_cast one_le_zpow₀ (one_le_two (α := ℚ)) h.upper
  have first := inverse.close
  have second := stands.close
  rw [real] at first
  have vpos : (0 : ℝ) ≤ sticky k exact * 2 ^ g := by positivity
  have roots := sqrt_close vpos (inv_pos.2 apos) first
  rw [Real.sqrt_inv] at roots
  have rpos : 0 < (Real.sqrt (((m : ℚ) * 2 ^ e : ℚ) : ℝ))⁻¹ := inv_pos.2 (Real.sqrt_pos.2 apos)
  generalize (((m : ℚ) * 2 ^ e : ℚ) : ℝ) = a at *
  refine special_near h x (fn := .rsq) (g := q) ?_ stands.sticky_pos rpos ?_ ?_
  · rw [value, ← root]
    exact rsqVal_other pos other quotient
  · rw [abs_le] at second roots ⊢
    norm_num at second roots ⊢
    constructor <;> linarith
  · refine inv_anti₀ (Real.sqrt_pos.2 apos) (Real.sqrt_le_iff.2 ⟨by linarith, ?_⟩)
    nlinarith

theorem rsq_rule : SpecialRule .rsq ty (extendedValue ty x) (elSpecial .rsq ty x) := by
  cases value : extendedValue ty x with
  | nan => exact elSpecial_exact (fn := .rsq) (y := ⟨.nan, 0⟩) (by rw [value]; rfl)
  | inf n o =>
    cases n with
    | true => exact elSpecial_exact (fn := .rsq) (y := ⟨.nan, fNV⟩) (by rw [value]; rfl)
    | false => exact (elSpecial_exact (fn := .rsq) (by rw [value]; rfl)).trans (once_zero h false o)
  | fin n m e =>
    rcases Nat.eq_zero_or_pos m with rfl | pos
    · have zero := (elSpecial_exact (fn := .rsq) (y := ⟨.inf n false, fDZ⟩) (by rw [value]; rfl)).trans (once_inf h n false fDZ)
      simpa [SpecialRule] using zero
    have mag : (m : ℚ) * 2 ^ e ≠ 0 := by positivity
    simp only [SpecialRule, if_neg mag]
    cases n with
    | true => exact elSpecial_exact (fn := .rsq) (y := ⟨.nan, fNV⟩) (by rw [value]; simp [SpecialFn.val, rsqVal, pos.ne', invalid])
    | false =>
      simp only [Bool.false_eq_true, if_false]
      have fourth : ∀ j : Int, (4 : ℚ) ^ j = 2 ^ (2 * j) := fun j => by rw [zpow_mul]; norm_num
      cases power : (isPow2 m && (e + Nat.log2 m) % 2 = 0) with
      | true =>
        have exact := elSpecial_exact (fn := .rsq) (y := ⟨.fin false 1 (-((e + Nat.log2 m) / 2)), 0⟩) (x := x) (ty := ty)
          (by rw [value]; exact rsqVal_power pos power)
        simp only [Bool.and_eq_true, decide_eq_true_eq] at power
        obtain ⟨power, even⟩ := power
        have whole := eq_pow_of_pow2 (e := e) power
        obtain ⟨j, half⟩ : ∃ j, e + Nat.log2 m = 2 * j := ⟨(e + Nat.log2 m) / 2, by omega⟩
        rw [half] at whole exact
        rw [Int.mul_ediv_cancel_left j two_ne_zero] at exact
        have root : (Real.sqrt ((m : ℚ) * 2 ^ e : ℚ))⁻¹ = (1 : Nat) * 2 ^ (-j) := by
          rw [whole, two_mul, zpow_add₀ two_ne_zero, zpow_neg]
          push_cast
          rw [Real.sqrt_mul_self (by positivity), one_mul]
        refine ⟨1, _, exact, ?_, fun i same => ?_⟩
        · rw [root, sub_self, abs_zero]
          positivity
        · rw [fourth] at same
          have := (pow2_of_eq pos same).2
          rw [Nat.cast_one, one_mul, show i = j by omega]
      | false =>
        obtain ⟨k, q, form, near⟩ := rsq_near h flt x value pos power
        refine ⟨k, q, form, near, fun j whole => ?_⟩
        rw [fourth] at whole
        obtain ⟨pow, twice⟩ := pow2_of_eq pos whole
        simp only [pow, Bool.true_and, decide_eq_false_iff_not] at power
        omega

end

end Sys2Proof.Machine
end

section
/-!
PROOFS. The table of R138 for `FEXP2`, `FLOG2`, `FSIN` and `FCOS`, and the instructions of the special functions.
-/

namespace Sys2Proof.Machine

section
variable {ty : BitVec 5} (h : (fmtOf ty).Special) (x : FElem)

theorem signed_eq_int {n : Bool} {m : Nat} {e i : Int} (h : (if n then -((m : ℚ) * 2 ^ e) else m * 2 ^ e) = i) :
    (m : ℚ) * 2 ^ e = (if n then -i else i : Int) := by
  cases n with
  | false => simpa using h
  | true =>
    simp only [if_true] at h ⊢
    push_cast
    linarith

include h

theorem exp2_rule : SpecialRule .exp2 ty (extendedValue ty x) (elSpecial .exp2 ty x) := by
  cases value : extendedValue ty x with
  | nan => exact elSpecial_exact (fn := .exp2) (y := ⟨.nan, 0⟩) (by rw [value]; rfl)
  | inf n o =>
    cases n with
    | true => exact (elSpecial_exact (fn := .exp2) (by rw [value]; rfl)).trans (once_zero h false o)
    | false => exact (elSpecial_exact (fn := .exp2) (y := ⟨.inf false o, 0⟩) (by rw [value]; rfl)).trans (once_inf h false o 0)
  | fin n m e =>
    simp only [SpecialRule]
    by_cases huge : (decide (20 < magLog2 m e) && decide (m ≠ 0)) = true
    · have exact := elSpecial_exact (fn := .exp2) (x := x) (ty := ty) (y := ⟨pow2Val (if n then -100000 else 100000), 0⟩)
        (by rw [value]; simp only [SpecialFn.val, exp2Val, if_pos huge]; rfl)
      refine ⟨⟨_, _, _, exact⟩, fun i same => ?_⟩
      rw [Bool.and_eq_true, decide_eq_true_eq, decide_eq_true_eq] at huge
      have size : ((2 ^ 21 : Int) : ℚ) ≤ m * 2 ^ e := by
        have := (le_magLog2_iff (e := e) (k := 21) (Nat.pos_of_ne_zero huge.2)).1 (by omega)
        exact_mod_cast this
      rw [signed_eq_int same, Int.cast_le] at size
      rw [exact, roundedOnce, ← h.ro_pow2Val i, pow2Val, pow2Val]
      refine congrArg (fun k => (fmtOf ty).ro (.fin false 1 k) 0) ?_
      cases n <;> simp only [Bool.false_eq_true, if_false, if_true] at size ⊢ <;> omega
    · obtain ⟨i, r, u, split, part, units⟩ := splitInt_spec m e
      by_cases whole : r = 0
      · have exact := elSpecial_exact (fn := .exp2) (x := x) (ty := ty) (y := ⟨pow2Val (if n then -(i : Int) else i), 0⟩)
          (by rw [value]; simp only [SpecialFn.val, exp2Val, if_neg huge, split, if_pos whole]; rfl)
        have form : elSpecial .exp2 ty x = (fmtOf ty).ro (.fin false 1 (if n then -(i : Int) else i)) 0 :=
          exact.trans (h.ro_pow2Val _)
        refine ⟨⟨_, _, _, form⟩, fun j same => ?_⟩
        have own := signed_eq_int same
        rw [units] at own
        have := (units_eq_int part own).1
        rw [form]
        congr 2
        cases n <;> simp only [Bool.false_eq_true, if_false, if_true] at this ⊢ <;> omega
      · refine ⟨elSpecial_odd (fn := .exp2) (by rw [value]; simp only [SpecialFn.val, exp2Val, if_neg huge, split, if_neg whole]; rfl),
          fun j same => ?_⟩
        have := signed_eq_int same
        rw [units] at this
        exact absurd (units_eq_int part this).2 whole

theorem log2_rule : SpecialRule .log2 ty (extendedValue ty x) (elSpecial .log2 ty x) := by
  cases value : extendedValue ty x with
  | nan => exact elSpecial_exact (fn := .log2) (y := ⟨.nan, 0⟩) (by rw [value]; rfl)
  | inf n o =>
    cases n with
    | true => exact elSpecial_exact (fn := .log2) (y := ⟨.nan, fNV⟩) (by rw [value]; rfl)
    | false => exact (elSpecial_exact (fn := .log2) (y := ⟨.inf false o, 0⟩) (by rw [value]; rfl)).trans (once_inf h false o 0)
  | fin n m e =>
    rcases Nat.eq_zero_or_pos m with rfl | pos
    · have zero := (elSpecial_exact (fn := .log2) (y := ⟨.inf true false, fDZ⟩) (by rw [value]; rfl)).trans (once_inf h true false fDZ)
      simpa [SpecialRule] using zero
    have mag : (m : ℚ) * 2 ^ e ≠ 0 := by positivity
    simp only [SpecialRule, if_neg mag]
    cases n with
    | true => exact elSpecial_exact (fn := .log2) (y := ⟨.nan, fNV⟩) (by rw [value]; simp [SpecialFn.val, log2Val, pos.ne', invalid])
    | false =>
      simp only [Bool.false_eq_true, if_false]
      cases power : isPow2 m with
      | true =>
        have exact := elSpecial_exact (fn := .log2) (x := x) (ty := ty)
          (y := ⟨.fin (decide (e + (Nat.log2 m : Int) < 0)) (e + (Nat.log2 m : Int)).natAbs 0, 0⟩)
          (by rw [value]; simp [SpecialFn.val, log2Val, pos.ne', power, exactly])
        refine ⟨⟨_, _, _, exact⟩, fun i whole => ?_⟩
        rw [(pow2_of_eq pos whole).2]
        exact exact
      | false =>
        have near : ∃ k l q, SpecialFn.val .log2 (extendedValue ty x) = .near (.fin k l q) :=
          ⟨_, _, _, by rw [value]; simp only [SpecialFn.val, log2Val, if_neg pos.ne', Bool.false_eq_true, if_false, power]; rfl⟩
        obtain ⟨k, l, q, near⟩ := near
        refine ⟨elSpecial_odd near, fun i whole => ?_⟩
        rw [(pow2_of_eq pos whole).1] at power
        cases power

omit h in
theorem sin_rule : SpecialRule .sin ty (extendedValue ty x) (elSpecial .sin ty x) := by
  cases value : extendedValue ty x with
  | nan => exact elSpecial_exact (fn := .sin) (y := ⟨.nan, 0⟩) (by rw [value]; rfl)
  | inf n o => exact elSpecial_exact (fn := .sin) (y := ⟨.nan, fNV⟩) (by rw [value]; rfl)
  | fin n m e =>
    obtain ⟨i, r, u, split, part, units⟩ := splitInt_spec m e
    simp only [SpecialRule, units]
    by_cases whole : r = 0
    · have exact := elSpecial_exact (fn := .sin) (x := x) (ty := ty) (y := ⟨.fin n 0 0, 0⟩)
        (by rw [value]; simp only [SpecialFn.val, sinVal, split, if_pos whole]; rfl)
      refine ⟨⟨_, _, _, exact⟩, fun j => ⟨fun _ => exact, fun half => ?_⟩⟩
      have := (units_eq_half part half).2
      omega
    · by_cases tie : 2 * r = u
      · have exact := elSpecial_exact (fn := .sin) (x := x) (ty := ty) (y := ⟨.fin (n != (i % 2 == 1)) 1 0, 0⟩)
          (by rw [value]; simp only [SpecialFn.val, sinVal, split, if_neg whole, if_pos tie]; rfl)
        refine ⟨⟨_, _, _, exact⟩, fun j => ⟨fun int => absurd (units_eq_int part (j := j) (by exact_mod_cast int)).2 whole,
          fun half => ?_⟩⟩
        rw [← (units_eq_half part half).1]
        exact exact
      · have near : ∃ k l q, SpecialFn.val .sin (extendedValue ty x) = .near (.fin k l q) := by
          rw [value]
          simp only [SpecialFn.val, sinVal, split, if_neg whole, if_neg tie, sinPart]
          split_ifs <;> exact ⟨_, _, _, rfl⟩
        obtain ⟨k, l, q, near⟩ := near
        exact ⟨elSpecial_odd near, fun j => ⟨fun int => absurd (units_eq_int part (j := j) (by exact_mod_cast int)).2 whole,
          fun half => absurd (units_eq_half part half).2 tie⟩⟩

omit h in
theorem cos_rule : SpecialRule .cos ty (extendedValue ty x) (elSpecial .cos ty x) := by
  cases value : extendedValue ty x with
  | nan => exact elSpecial_exact (fn := .cos) (y := ⟨.nan, 0⟩) (by rw [value]; rfl)
  | inf n o => exact elSpecial_exact (fn := .cos) (y := ⟨.nan, fNV⟩) (by rw [value]; rfl)
  | fin n m e =>
    obtain ⟨i, r, u, split, part, units⟩ := splitInt_spec m e
    simp only [SpecialRule, units]
    by_cases whole : r = 0
    · have exact := elSpecial_exact (fn := .cos) (x := x) (ty := ty) (y := ⟨.fin (i % 2 == 1) 1 0, 0⟩)
        (by rw [value]; simp only [SpecialFn.val, cosVal, split, if_pos whole]; rfl)
      refine ⟨⟨_, _, _, exact⟩, fun j => ⟨fun int => ?_, fun half => ?_⟩⟩
      · have same := (units_eq_int part (j := j) (by exact_mod_cast int)).1
        rw [← show i = j by exact_mod_cast same]
        exact exact
      · have := (units_eq_half part half).2
        omega
    · by_cases tie : 2 * r = u
      · have exact := elSpecial_exact (fn := .cos) (x := x) (ty := ty) (y := ⟨.fin false 0 0, 0⟩)
          (by rw [value]; simp only [SpecialFn.val, cosVal, split, if_neg whole, if_pos tie]; rfl)
        exact ⟨⟨_, _, _, exact⟩, fun j => ⟨fun int => absurd (units_eq_int part (j := j) (by exact_mod_cast int)).2 whole,
          fun _ => exact⟩⟩
      · have near : ∃ k l q, SpecialFn.val .cos (extendedValue ty x) = .near (.fin k l q) := by
          rw [value]
          simp only [SpecialFn.val, cosVal, split, if_neg whole, if_neg tie]
          exact ⟨_, _, _, rfl⟩
        obtain ⟨k, l, q, near⟩ := near
        exact ⟨elSpecial_odd near, fun j => ⟨fun int => absurd (units_eq_int part (j := j) (by exact_mod_cast int)).2 whole,
          fun half => absurd (units_eq_half part half).2 tie⟩⟩

end

theorem special_rule {ty : BitVec 5} (h : tg2 ty = true) (fn : SpecialFn) (x : FElem) :
    SpecialRule fn ty (extendedValue ty x) (elSpecial fn ty x) := by
  obtain ⟨flt, special⟩ := special_of_tg2 h
  cases fn with
  | rcp => exact rcp_rule special flt x
  | rsq => exact rsq_rule special flt x
  | exp2 => exact exp2_rule special x
  | log2 => exact log2_rule special x
  | sin => exact sin_rule x
  | cos => exact cos_rule x

/-! ### The instructions -/

section
variable {s : State} {i : Instr} {v : VForm} {q : Regs}

/-- A sequencer instruction without a scalar source completes with what its form makes of the registers. -/
theorem Completes.of_vector (e : exec i s = s.vector v) (source : v.scalarSource = none) (still : v.kind ≠ .vrot)
    (h : v.perform ⟨s.regs.fcr, Elem.zero, s.member⟩ s.regs = q) :
    Completes i s [] v.scalarDest.toList (q.advance 4) := fun ports => by
  have sources : v.scalarSource.toList = [] := by rw [source]; rfl
  rw [e, State.vector, sources, s.issue_of_ok (s.setRegs (q.advance 4)) ports]
  · simp
  · simp only [source, State.performed, if_neg still, Option.map_none, Option.getD_none, h]

/-- A vector special function is the scalar one of each enabled element, of which it sees the bits of its type alone. -/
theorem Completes.of_vectorSpecial {d a ty : BitVec 5} {k : BitVec 3} {fn : SpecialFn} (h : tg2 ty = true)
    (e : exec i s = s.vector ⟨.special fn, d, a, 0, k, ty, 0⟩) : Completes i s [] []
      ((s.regs.setVecRes ty d (s.regs.mask k) fun j => elSpecial fn ty
        ⟨BitVec.ofNat 64 ((vecElem ty (s.regs.vec a) j).bits.toNat % 2 ^ (fmtOf ty).width),
          (vecElem ty (s.regs.vec a) j).tail⟩).advance 4) := by
  simp only [elSpecial_mod (special_of_tg2 h).1]
  exact .of_vector e rfl (by simp) rfl

end

theorem specialFunctions : SpecialFunctions := by
  refine ⟨fun fn ty bits tail => elSpecial fn ty ⟨BitVec.ofNat 64 bits, tail⟩, ?_⟩
  refine ⟨fun s d a ty h => ?_, fun s d a ty k h => ?_, fun fn ty x h => ?_⟩
  · have own : ∀ fn x, elSpecial fn ty x = _ := fun fn x => (elSpecial_mod (special_of_tg2 h).1).symm
    exact ⟨.of_float1 rfl (own ..), .of_float1 rfl (own ..), .of_float1 rfl (own ..), .of_float1 rfl (own ..),
      .of_float1 rfl (own ..), .of_float1 rfl (own ..)⟩
  · exact ⟨.of_vectorSpecial h rfl, .of_vectorSpecial h rfl, .of_vectorSpecial h rfl, .of_vectorSpecial h rfl,
      .of_vectorSpecial h rfl, .of_vectorSpecial h rfl⟩
  · have rule := special_rule h fn x
    rwa [← elSpecial_mod (special_of_tg2 h).1] at rule

/-- Settles O13: the model's roundings are those of R82 to R87 on the grid of each type, and the special functions are as
R138's table says. -/
theorem floatConversions : Obligations.FloatConversions := ⟨conversions, specialFunctions, tailsAndKeys⟩

end Sys2Proof.Machine
end

section
/-!
PROOFS. Vector reductions and `PACK` (R95, R143, R144).
-/

namespace Sys2Proof.Machine

/-! ### Reductions (R95, R143) -/

/-- A tree of R95 joins its children as the model's node does. -/
theorem reductionTree_succ (f : FElem → FElem → FRes) (x : Nat → Option FElem) (n i : Nat) : reductionTree f x (n + 1) i =
    treeNode f (reductionTree f x n (2 * i)) (reductionTree f x n (2 * i + 1)) := by
  rw [reductionTree, treeNode.eq_def]
  cases reductionTree f x n (2 * i) <;> cases reductionTree f x n (2 * i + 1) <;> rfl

theorem tree_eq (f : FElem → FElem → FRes) (x : Nat → Option FElem) (ty : BitVec 5) :
    tree f (lanesOf ty) x = reductionTree f x (if wide ty then 2 else 3) 0 := by
  cases h : wide ty with
  | true =>
    rw [lanesOf, h]
    change tree f 4 x = reductionTree f x 2 0
    simp only [reductionTree_succ]
    rfl
  | false =>
    rw [lanesOf, h]
    change tree f 8 x = reductionTree f x 3 0
    simp only [reductionTree_succ]
    rfl

theorem contains_enabled (m : BitVec 8) (n i : Nat) : (enabled m n).contains i = decide (i < n ∧ m.getLsbD i = true) := by
  rw [Bool.eq_iff_iff, List.contains_iff_mem, decide_eq_true_eq, enabled, List.mem_filter, List.mem_range]

/-- A word of an integer is the low half of its double word. -/
theorem setWidth_ofInt (x : Int) : (BitVec.ofInt 64 x).setWidth 32 = BitVec.ofInt 32 x := by
  apply BitVec.eq_of_toNat_eq
  simp [BitVec.toNat_ofInt]
  omega

section
variable {s : State} {i : Instr} {d a ty : BitVec 5} {k : BitVec 3} {kind : VKind}

/-- An integer reduction completes with the reduced value of the enabled lanes. -/
theorem Completes.of_intReduce {sg : Bool} {w : Nat} (h : tyOf ty = .int sg w)
    (e : exec i s = s.vector ⟨kind, d, a, 0, k, ty, 0⟩)
    (perform : ∀ c r, VForm.perform ⟨kind, d, a, 0, k, ty, 0⟩ c r = r.vred ⟨kind, d, a, 0, k, ty, 0⟩)
    (source : VForm.scalarSource ⟨kind, d, a, 0, k, ty, 0⟩ = none)
    (dest : VForm.scalarDest ⟨kind, d, a, 0, k, ty, 0⟩ = some d) (still : kind ≠ .vrot) {x : Int}
    (value : intReduce kind sg w (((List.range (lanesOf ty)).filter fun i => (s.regs.mask k).getLsbD i).map fun i =>
      (vecElem ty (s.regs.vec a) i).bits) = BitVec.ofInt 64 (x % 2 ^ w)) :
    Completes i s [] [d] ((if wide ty then s.regs.setPair d (BitVec.ofInt 64 (x % 2 ^ w))
      else s.regs.setVal d (BitVec.ofInt 32 (x % 2 ^ w))).advance 4) := by
  have done := Completes.of_vector e source still rfl
  rw [dest, perform] at done
  simp only [Regs.vred, h, enabled, value, setWidth_ofInt] at done
  exact done

/-- The join of a floating-point reduction (R143). -/
def VKind.join (kind : VKind) (ty : BitVec 5) : FElem → FElem → FRes :=
  match kind with
  | .redMin => elMin ty
  | .redMax => elMax ty
  | _ => elAdd ty

/-- A floating-point reduction completes with the root of the tree of R95. -/
theorem Completes.of_floatReduce {f : Fmt} (h : tyOf ty = .flt f) (e : exec i s = s.vector ⟨kind, d, a, 0, k, ty, 0⟩)
    (perform : ∀ c r, VForm.perform ⟨kind, d, a, 0, k, ty, 0⟩ c r = r.vred ⟨kind, d, a, 0, k, ty, 0⟩)
    (source : VForm.scalarSource ⟨kind, d, a, 0, k, ty, 0⟩ = none)
    (dest : VForm.scalarDest ⟨kind, d, a, 0, k, ty, 0⟩ = some d) (still : kind ≠ .vrot) {g : FElem → FElem → FRes}
    (join : kind.join ty = g) :
    Completes i s [] [d] ((s.regs.setRes ty d ((reductionTree g (fun i => if i < lanesOf ty ∧ (s.regs.mask k).getLsbD i = true
      then some (vecElem ty (s.regs.vec a) i) else none) (if wide ty then 2 else 3) 0).getD (emptyFloat kind f))).advance 4) := by
  subst join
  have done := Completes.of_vector e source still rfl
  rw [dest, perform] at done
  simp only [Regs.vred, h, contains_enabled, decide_eq_true_eq, tree_eq] at done
  exact done

end

theorem reductions : Reductions := by
  intro s d a ty k r xs put done
  refine ⟨fun sg w h => ?_, fun f h => ?_⟩
  · intro lo hi vals
    exact ⟨.of_intReduce (kind := .redAdd) h rfl (fun _ _ => rfl) rfl rfl nofun rfl,
      .of_intReduce (kind := .redMin) h rfl (fun _ _ => rfl) rfl rfl nofun rfl,
      .of_intReduce (kind := .redMax) h rfl (fun _ _ => rfl) rfl rfl nofun rfl,
      .of_intReduce (kind := .redAnd) h rfl (fun _ _ => rfl) rfl rfl nofun rfl,
      .of_intReduce (kind := .redOr) h rfl (fun _ _ => rfl) rfl rfl nofun rfl,
      .of_intReduce (kind := .redXor) h rfl (fun _ _ => rfl) rfl rfl nofun rfl⟩
  · intro x v root
    have least : VKind.join .redMin ty = fun y z => oneOf ty y z (xLt (v z) (v y)) := by
      funext y z; exact elMin_eq h y z
    have greatest : VKind.join .redMax ty = fun y z => oneOf ty y z (xLt (v y) (v z)) := by
      funext y z; exact elMax_eq h y z
    have infinite : emptyFloat .redMin f = ⟨BitVec.ofNat 64 f.infEnc, 0, 0⟩ := by simp [emptyFloat, Fmt.signed]
    have below : emptyFloat .redMax f = ⟨BitVec.ofNat 64 (f.infEnc + f.signBit), 0, 0⟩ := by simp [emptyFloat, Fmt.signed]
    refine ⟨.of_floatReduce (kind := .redAdd) h rfl (fun _ _ => rfl) rfl rfl nofun rfl, ?_, ?_⟩
    · simp only [root, ← infinite]
      exact .of_floatReduce (kind := .redMin) h rfl (fun _ _ => rfl) rfl rfl nofun least
    · simp only [root, ← below]
      exact .of_floatReduce (kind := .redMax) h rfl (fun _ _ => rfl) rfl rfl nofun greatest

/-! ### Fields of equal width -/

/-- `n` fields of `w` bits each, field 0 lowest. -/
def fieldSum (w : Nat) (d : Nat → Nat) (n : Nat) : Nat := (List.range n).foldl (fun x j => x + d j * 2 ^ (w * j)) 0

theorem fieldSum_succ (w : Nat) (d : Nat → Nat) (n : Nat) : fieldSum w d (n + 1) = fieldSum w d n + d n * 2 ^ (w * n) := by
  simp [fieldSum, List.range_succ]

theorem fieldSum_lt {w : Nat} {d : Nat → Nat} (h : ∀ j, d j < 2 ^ w) (n : Nat) : fieldSum w d n < 2 ^ (w * n) := by
  induction n with
  | zero => simp [fieldSum]
  | succ n ih =>
    calc fieldSum w d (n + 1) = fieldSum w d n + d n * 2 ^ (w * n) := fieldSum_succ ..
      _ < (d n + 1) * 2 ^ (w * n) := by linarith
      _ ≤ 2 ^ w * 2 ^ (w * n) := Nat.mul_le_mul_right _ (h n)
      _ = 2 ^ (w * (n + 1)) := by ring

theorem fieldSum_field {w : Nat} {d : Nat → Nat} (h : ∀ j, d j < 2 ^ w) {n j : Nat} (lt : j < n) :
    fieldSum w d n / 2 ^ (w * j) % 2 ^ w = d j := by
  induction n with
  | zero => omega
  | succ n ih =>
    rw [fieldSum_succ]
    rcases Nat.lt_succ_iff_lt_or_eq.1 lt with below | rfl
    · have higher : d n * 2 ^ (w * n) = d n * 2 ^ (w * (n - j - 1)) * 2 ^ w * 2 ^ (w * j) := by
        obtain ⟨m, rfl⟩ : ∃ m, n = j + 1 + m := ⟨n - j - 1, by omega⟩
        rw [show j + 1 + m - j - 1 = m by omega]
        ring
      rw [higher, Nat.add_mul_div_right _ _ (by positivity), Nat.add_mul_mod_self_right, ih below]
    · rw [Nat.add_mul_div_right _ _ (by positivity), Nat.div_eq_of_lt (fieldSum_lt h _), zero_add, Nat.mod_eq_of_lt (h _)]

/-- A field that does not cross a word lies in its word. -/
theorem field_of_word {w p : Nat} (inside : p % 32 + w ≤ 32) (x : Nat) :
    x / 2 ^ (32 * (p / 32)) % 2 ^ 32 / 2 ^ (p % 32) % 2 ^ w = x / 2 ^ p % 2 ^ w := by
  have word : (2 : Nat) ^ 32 = 2 ^ (p % 32) * 2 ^ (32 - p % 32) := by rw [← pow_add]; congr 1; omega
  rw [word, Nat.mod_mul_right_div_self, Nat.mod_mod_of_dvd _ (pow_dvd_pow 2 (by omega)), Nat.div_div_eq_div_mul, ← pow_add,
    Nat.div_add_mod]

theorem vecBits_eq_fieldSum (v : Vector Elem 8) : vecBits v = fieldSum 32 (fun i => v[Fin.ofNat 8 i].val.toNat) 8 := rfl

theorem vecBits_lane (v : Vector Elem 8) {i : Nat} (h : i < 8) :
    v[Fin.ofNat 8 i].val.toNat = vecBits v / 2 ^ (32 * i) % 2 ^ 32 := by
  rw [vecBits_eq_fieldSum, fieldSum_field (fun j => v[Fin.ofNat 8 j].val.isLt) h]

theorem vecOfBits_lane (x : Nat) {i : Nat} (h : i < 8) : (vecOfBits x)[Fin.ofNat 8 i].val.toNat = x / 2 ^ (32 * i) % 2 ^ 32 := by
  simp [vecOfBits, Nat.mod_eq_of_lt h]

/-- A field of a vector register that does not cross a word, as a field of its bits. -/
theorem field_of_lanes {v : Vector Elem 8} {x : Nat}
    (lane : ∀ i, i < 8 → v[Fin.ofNat 8 i].val.toNat = x / 2 ^ (32 * i) % 2 ^ 32) {w p : Nat} (lt : p < 256)
    (inside : p % 32 + w ≤ 32) : v[Fin.ofNat 8 (p / 32)].val.toNat / 2 ^ (p % 32) % 2 ^ w = x / 2 ^ p % 2 ^ w := by
  rw [lane _ (by omega), field_of_word inside]

/-! ### `PACK` (R144) -/

/-- What `PACK` makes of a lane, before it takes the field's width (R144). -/
def packResult (ty : BitVec 5) (fcr : Word) (j : Nat) (e : Elem) : FRes :=
  match tyOf ty with
  | .int sg n => packInt sg n e.val
  | _ => elCvtf 9 ty fcr (j % 8) ⟨e.val.zeroExtend 64, e.tail⟩

section
variable (r : Regs) (d a b ty : BitVec 5) (k : BitVec 3) (fcr : Word) (j : Nat)

/-- The lane that makes field `j` of `PACK` (R144). -/
def packSource : Elem := if j < 8 then r.lane a (Fin.ofNat 8 j) else r.lane b (Fin.ofNat 8 j)

/-- Field `j` of `PACK` (R144). -/
def packField : Nat :=
  if (r.mask k).getLsbD (j % 8) then (packResult ty fcr j (packSource r a b j)).bits.toNat % 2 ^ packWidth ty
  else vecBits (r.vec d) / 2 ^ (packWidth ty * j) % 2 ^ packWidth ty

theorem packField_lt : packField r d a b ty k fcr j < 2 ^ packWidth ty := by
  unfold packField
  split <;> exact Nat.mod_lt _ (by positivity)

theorem vpack_eq : r.vpack ⟨.pack, d, a, b, k, ty, 0⟩ fcr =
    (r.setVec d (vecOfBits (fieldSum (packWidth ty) (packField r d a b ty k fcr) 16))).raise
      (((List.range 16).filter fun j => (r.mask k).getLsbD (j % 8)).foldl
        (fun x j => x ||| (packResult ty fcr j (packSource r a b j)).flags) 0) := by
  rw [← List.foldl_map (f := fun j => packResult ty fcr j (packSource r a b j)) (g := fun x z => x ||| z.flags)]
  rfl

end

theorem packWidth_eq {ty : BitVec 5} (h : tg10 ty = true) :
    packWidth ty = if (tyOf ty).width = 16 then 16 else if ty = 16 then 4 else 8 := by
  have all : ∀ ty : BitVec 5, tg10 ty = true →
      packWidth ty = if (tyOf ty).width = 16 then 16 else if ty = 16 then 4 else 8 := by decide
  exact all ty h

theorem packWidth_cases (ty : BitVec 5) : packWidth ty = 16 ∨ packWidth ty = 8 ∨ packWidth ty = 4 := by
  unfold packWidth
  split <;> simp

/-- The sixteen fields of `PACK` lie in the 256 bits, each in one word. -/
theorem packWidth_inside (ty : BitVec 5) {j : Nat} (h : j < 16) :
    packWidth ty * j < 256 ∧ packWidth ty * j % 32 + packWidth ty ≤ 32 := by
  rcases packWidth_cases ty with w | w | w <;> rw [w] <;> omega

/-- `PACK` raises `nv` where the value is outside the type (R144). -/
theorem packInt_eq (sg : Bool) (n : Nat) (x : Word) :
    let lo : Int := if sg then -(2 ^ (n - 1)) else 0
    let hi : Int := if sg then 2 ^ (n - 1) - 1 else 2 ^ n - 1
    packInt sg n x =
      ⟨BitVec.ofInt 64 (max lo (min x.toInt hi) % 2 ^ n), 0, if lo ≤ x.toInt ∧ x.toInt ≤ hi then 0 else fNV⟩ := by
  intro lo hi
  have le : lo ≤ hi := by
    have half : (1 : Int) ≤ 2 ^ (n - 1) := one_le_pow₀ (by norm_num)
    have whole : (1 : Int) ≤ 2 ^ n := one_le_pow₀ (by norm_num)
    cases sg with
    | false => simpa [lo, hi] using whole
    | true =>
      simp only [lo, hi, if_true]
      omega
  have unchanged : max lo (min x.toInt hi) = x.toInt ↔ lo ≤ x.toInt ∧ x.toInt ≤ hi := by omega
  rw [packInt, if_congr unchanged rfl rfl]

theorem floatFinal_elCvtf {ty : BitVec 5} {f : Fmt} (h : tyOf ty = .flt f) (t : BitVec 5) (fcr : Word) (pos : Nat) (x : FElem) :
    FloatFinal f (modeOf fcr) (ftzOf fcr) (elementDraw t ty fcr pos x) (stkOf x.tail) (extendedValue t x)
      (elCvtf t ty fcr pos x) := by
  rw [elCvtf, h, elementDraw_eq]
  exact (tyOf_flt_sound h).floatFinal ⟨modeOf fcr, ftzOf fcr, _⟩ _ _

theorem packing : Packing := by
  intro s d a b ty k ok r w on src field
  have width : w = packWidth ty := (packWidth_eq ok).symm
  set bits := fieldSum (packWidth ty) (packField r d a b ty k r.fcr) 16
  refine ⟨vecOfBits bits, fun j => packResult ty r.fcr j (src j), ?_, fun i => ⟨by simp [vecOfBits], fun above => ?_⟩, ?_⟩
  · have done := Completes.of_vector (i := .pack d a b ty k) (v := ⟨.pack, d, a, b, k, ty, 0⟩) (s := s) rfl rfl nofun rfl
    exact (vpack_eq r d a b ty k r.fcr) ▸ done
  · have below : bits < 2 ^ (32 * i.val) := (fieldSum_lt (packField_lt r d a b ty k r.fcr) 16).trans_le
      (Nat.pow_le_pow_right (by norm_num) (by omega))
    simp [vecOfBits, Nat.div_eq_of_lt below]
  · intro j lt x
    obtain ⟨low, inside⟩ := packWidth_inside ty lt
    refine ⟨?_, fun sg n h => ?_, fun f h => ?_⟩
    · have new : field (vecOfBits bits) j = packField r d a b ty k r.fcr j := by
        simp only [field, width]
        rw [field_of_lanes (fun i => vecOfBits_lane bits) low inside,
          fieldSum_field (packField_lt r d a b ty k r.fcr) lt]
      have old : field (r.vec d) j = vecBits (r.vec d) / 2 ^ (packWidth ty * j) % 2 ^ packWidth ty := by
        simp only [field, width]
        exact field_of_lanes (fun i => vecBits_lane (r.vec d)) low inside
      rw [new, old, width]
      rfl
    · simp only [packResult, h]
      exact packInt_eq sg n _
    · simp only [packResult, h]
      exact floatFinal_elCvtf h 9 r.fcr (j % 8) x

/-- Settles O16: a reduction folds the enabled lanes or joins them in the tree of R95; the fields of `PACK` are the digits of
the sum that the model forms, and none of them crosses a word. -/
theorem vectorReductions : Obligations.VectorReductions := ⟨reductions, packing⟩

end Sys2Proof.Machine
end

section
/-!
PROOFS. Scalar loads and stores (R156, R162, R163) of LOCAL space and at every place.
-/

namespace Sys2Proof.Machine

section
variable {s t : State} {i : Instr} {len : Nat} {srcs : List (BitVec 5)} {ty d : BitVec 5} {c : BitVec 3} {off : Regs → Int}

/-! ### Loads -/

/-- A load whose checks pass and whose read is answered completes with the bytes. -/
theorem State.load_of_read {acq : Bool} {scope : BitVec 3} {x : Target} {bytes : List Byte}
    (checked : s.checked (s.regs.cap c) (off s.regs) (tyBytes ty) (tyBytes ty) (scalarSpaces (tyBytes ty)) pRD .load = .ok x)
    (read : s.readAt x (tyBytes ty) (!acq) pRD = .ok (bytes, t)) (kept : KeepsMe s t) (ready : s.portsReady srcs [d]) :
    s.load i len srcs ty d c off acq scope =
      .next ((if acq then t.acquire scope else t).completed srcs [d] (loadedRegs s ty d bytes len)) := by
  have regs : (if acq then t.acquire scope else t).regs = s.regs := by
    have me : (if acq then t.acquire scope else t).me = s.me := by
      split
      · exact (kept.trans (.acquire t scope)).me
      · exact kept.me
    exact congrArg Slot.regs me
  unfold State.load
  rw [State.memory_of_ok s (if acq then t.acquire scope else t) (r := s.regs.setElem ty d (BitVec.ofNat 64 (leValue bytes)) 0)
    ready]
  · rfl
  · dsimp only
    rw [checked]
    simp only [liftFault, run_ok_bind, read, regs]

theorem State.At.space_mem_scalarSpaces {cap : Cap} {o : Int} {z : Nat} {need : BitVec 7} {p : Place}
    (h : s.At cap o z z need p) : p.space ∈ scalarSpaces z := by
  unfold scalarSpaces
  cases p with
  | ctrl a =>
    have ctrl : s.CtrlAt cap o z z need a := h
    rcases ctrl.size with e | e <;> simp [e, Place.space, spAll]
  | _ => split <;> simp [Place.space, spAll, spNoCtrl]

omit t i len srcs ty d c off in
/-- What a sequence answers, its first part answered. -/
theorem run_bind_eq_ok {ε α β : Type} {m : Except ε α} {f : α → Except ε β} {y : β} (h : (m >>= f) = .ok y) :
    ∃ x, m = .ok x ∧ f x = .ok y := by
  cases m with
  | error e => exact nomatch h
  | ok x => exact ⟨x, rfl, h⟩

/-- Outside every view an admitted read changes no package: its line is at home, so that no read copy is refreshed. -/
theorem State.At.readAt_pkgs {cap : Cap} {o : Int} {z align : Nat} {need : BitVec 7} {p : Place}
    (h : s.At cap o z align need p) (noView : s.me.views = []) {plain : Bool} {bytes : List Byte}
    (read : s.readAt (p.target s cap o) z plain need = .ok (bytes, t)) : t.pkgs = s.pkgs := by
  cases p with
  | own a | rival a | window k a =>
    obtain ⟨_, -, rest⟩ := run_bind_eq_ok read
    cases rest
    rfl
  | global a =>
    have admitted : s.GlobalAt cap o z align need a := h
    obtain ⟨f, rights⟩ := admitted.toGranted.checkRights (space := 2) (core := s.home) (va := cap.base + o.toNat) rfl
    generalize held : (s.updCore s.curCore fun k => { k with plb := f k.plb }) = u at rights
    have pkgs : u.pkgs = s.pkgs := by rw [← held]; rfl
    have cur : u.curCore = s.curCore := by rw [← held]; rfl
    have home := admitted.toLineServes.home
    have reached := admitted.toLineServes.reachAll admitted.some pkgs (fun p => by rw [← held]; rfl) (by rw [← held]; rfl)
    have alone : u.answering (plain && (linesOf a z).length == 1) (lineOf a) = none := u.answering_own (by rw [cur]; exact home) _
    simp only [Place.target, State.readAt, spLOCAL, spWINDOW, spGLOBAL, rights, run_ok_bind, alone, cur, reached] at read
    obtain ⟨_, -, rest⟩ := run_bind_eq_ok read
    simp only [admitted.toLineServes.lines admitted.some, List.foldl_cons, List.foldl_nil, u.refreshCopy_own home, Slot.chain,
      noView] at rest
    cases rest
    exact pkgs
  | version v a =>
    have admitted : s.VersionAt cap o z align need v a := h
    have chain := admitted.chain
    simp [Slot.chain, noView] at chain
  | host a =>
    have admitted : s.HostAt cap o z align need a := h
    obtain ⟨f, rights⟩ := admitted.toGranted.checkRights (space := 3) (core := s.home) (va := cap.base + o.toNat) rfl
    simp only [Place.target, State.readAt, spLOCAL, spWINDOW, spGLOBAL, spHOST, rights, run_ok_bind] at read
    obtain ⟨_, -, rest⟩ := run_bind_eq_ok read
    cases rest
    rfl
  | ctrl a =>
    cases read
    rfl

/-- A load from a place that admits it completes with the bytes of the place. -/
theorem loadsFrom_of_load {acq : Prop} [Decidable acq] {b : Bool} {scope : BitVec 3} {p : Place}
    (e : exec i s = s.load i len srcs ty d c off b scope) (acquires : b = decide acq)
    (h : s.At (s.regs.cap c) (off s.regs) (tyBytes ty) (tyBytes ty) pRD p) :
    LoadsFrom i s srcs [d] p acq scope (loadedRegs s ty d (s.placeBytes (tyBytes ty) p) len) := by
  intro answers ready
  obtain ⟨t, read, kept⟩ := h.readAt answers (!b) fun _ => rfl
  have checked := h.checked (k := .load) h.space_mem_scalarSpaces (by cases p <;> simp [Place.takes]) fun _ => rfl
  refine ⟨t, ?_, kept, fun noView => h.readAt_pkgs noView read⟩
  rw [e, State.load_of_read checked read kept ready, acquires]
  simp only [decide_eq_true_eq]

/-- A load of LOCAL space completes with the bytes of the core's memory, and nothing else changes. -/
theorem State.LocalAt.load {acq : Bool} {scope : BitVec 3} {a : Nat}
    (h : s.LocalAt (s.regs.cap c) (off s.regs) (tyBytes ty) (tyBytes ty) pRD a) (ready : s.portsReady srcs [d]) :
    s.load i len srcs ty d c off acq scope = .next ((if acq then s.acquire scope else s).completed srcs [d]
      (loadedRegs s ty d ((s.core s.home).loc.readN a (tyBytes ty)) len)) := by
  have place : s.At (s.regs.cap c) (off s.regs) (tyBytes ty) (tyBytes ty) pRD (.own a) := h
  exact State.load_of_read (h.checked (List.contains_iff_mem.2 place.space_mem_scalarSpaces)) (h.readAt _ _) (.refl s) ready

/-- The short load writes its word (R58). -/
theorem loadedRegs_word (s : State) (a : BitVec 5) (bytes : List Byte) (len : Nat) :
    loadedRegs s 6 a bytes len = s.wrote a (BitVec.ofNat 32 (leValue bytes)) len := by
  have word : (BitVec.ofNat 64 (leValue bytes)).setWidth 32 = BitVec.ofNat 32 (leValue bytes) := by
    apply BitVec.eq_of_toNat_eq
    simp only [BitVec.toNat_setWidth, BitVec.toNat_ofNat]
    omega
  rw [State.wrote, ← word]
  have type : tyOf 6 = .int false 32 := rfl
  have narrow : wide 6 = false := rfl
  have low : extendTo32 6 (BitVec.ofNat 64 (leValue bytes)) = (BitVec.ofNat 64 (leValue bytes)).setWidth 32 := by
    rw [extendTo32, type]
    apply BitVec.eq_of_toNat_eq
    simp [Ty.width]
  rw [loadedRegs, Regs.setElem, narrow, low]
  rfl

/-! ### Stores -/

/-- A store whose checks pass and whose write is performed completes. -/
theorem State.store_of_write {spaces : List Nat} {value : Regs → FElem → FRes} {x : Target}
    (checked : s.checked (s.regs.cap c) (off s.regs) (tyBytes ty) (tyBytes ty) spaces pWR .store = .ok x)
    (write : s.writeAt x (leBytes (tyBytes ty) (value s.regs (s.regs.elem ty d)).bits.toNat) pWR = .ok t) (left : LeavesMe s t)
    (ready : s.portsReady srcs []) :
    s.store i len srcs ty d c off spaces value =
      .next (t.setRegs (((s.regs.raise (value s.regs (s.regs.elem ty d)).flags).advance len).consume srcs)) := by
  unfold State.store
  rw [State.memory_of_ok s t (r := s.regs.raise (value s.regs (s.regs.elem ty d)).flags) ready]
  · rfl
  · dsimp only
    rw [checked]
    simp only [liftFault, run_ok_bind, write, left.regs]

/-- A store at a place that admits it leaves its bytes there and raises its flags. -/
theorem storesAt_of_store {spaces : List Nat} {value : Regs → FElem → FRes} {p : Place}
    (e : exec i s = s.store i len srcs ty d c off spaces value)
    (h : s.At (s.regs.cap c) (off s.regs) (tyBytes ty) (tyBytes ty) pWR p) (reached : p.space ∈ spaces) :
    StoresAt i s srcs p (leBytes (tyBytes ty) (value s.regs (s.regs.elem ty d)).bits.toNat)
      (value s.regs (s.regs.elem ty d)).flags len := by
  intro ready quiet
  have checked := h.checked (k := .store) reached (by cases p <;> simp [Place.takes]) nofun
  obtain ⟨t, write, stored, left⟩ := h.writeAt (leBytes (tyBytes ty) (value s.regs (s.regs.elem ty d)).bits.toNat)
    (by simp) (fun _ _ _ => by decide) (fun _ => rfl) quiet
  refine ⟨_, by rw [e, State.store_of_write checked write left ready], stored.keeps (.setRegs ..), ?_⟩
  rw [State.me_setRegs, left.me]

/-- A store at a place of the core's own local memory, as one of LOCAL space. -/
theorem storesToLocal_of_storesAt {a : Nat} {bytes : List Byte} {flags : BitVec 6}
    (h : StoresAt i s srcs (.own a) bytes flags len) :
    StoresToLocal i s srcs a bytes flags len := by
  intro ready quiet
  obtain ⟨t, e, stored, me⟩ := h ready quiet
  exact ⟨t, e, stored, congrArg Slot.regs me⟩

end

theorem storeFlags_eq (t : BitVec 2) : storeFlags t = if t.toNat % 2 = 1 then 0x20 else 0 := by
  revert t
  decide

/-- Settles O20: each form is one load or store, whose checks pass at an admitted place. -/
theorem loadsAndStoresEverywhere : Obligations.LoadsAndStoresEverywhere := by
  intro s d a c ty ord j scope imm p r cap z td x y got
  have raised (t : BitVec 2) : td t = storeFlags t := (storeFlags_eq t).symm
  have reached (near : p.space ≠ 4) : p.space ∈ spNoCtrl := by cases p <;> simp_all [Place.space, spNoCtrl]
  refine ⟨fun _ h => ?_, fun _ h => ?_, fun h => ?_, fun _ h => ?_, fun _ h => ?_, fun h => ?_,
    fun near => ⟨fun _ h => ?_, fun _ h => ?_⟩⟩
  · exact loadsFrom_of_load (off := (·.offset a)) rfl rfl h
  · exact loadsFrom_of_load (off := fun _ => immOffset imm (tyBytes ty)) rfl rfl h
  · rw [← loadedRegs_word]
    exact loadsFrom_of_load (off := fun _ => 4 * (j.toNat : Int)) rfl rfl h
  · rw [raised]
    exact storesAt_of_store (off := (·.offset a)) (value := rawStore) rfl h h.space_mem_scalarSpaces
  · rw [raised]
    exact storesAt_of_store (off := fun _ => immOffset imm (tyBytes ty)) (value := rawStore) rfl h h.space_mem_scalarSpaces
  · rw [raised]
    have stored := storesAt_of_store (i := .stShort a c j) (ty := 6) (d := a) (off := fun _ => 4 * (j.toNat : Int))
      (value := rawStore) (spaces := spAll) rfl h (by cases p <;> simp [Place.space, spAll])
    have word : (s.regs.elem 6 a).bits.toNat = (r.val a).toNat := by
      rw [Regs.elem, show wide 6 = false from rfl]
      exact BitVec.toNat_setWidth_of_le (by decide)
    rw [← word]
    exact stored
  · exact storesAt_of_store (off := (·.offset a)) (value := finalStore ty) rfl h (reached near)
  · exact storesAt_of_store (off := fun _ => immOffset imm (tyBytes ty)) (value := finalStore ty) rfl h (reached near)

/-- Settles O19: a load answers from the core's own memory as it stands; a store is O20's at a place of LOCAL space. -/
theorem localLoadsAndStores : Obligations.LocalLoadsAndStores := by
  refine ⟨fun s d a c ty ord j scope imm at_ _ => ?_, fun s d a c ty ord j scope imm at_ => ?_⟩
  · intro cap z bytes
    refine ⟨fun h ready => ?_, fun h => h.load (off := fun _ => immOffset imm (tyBytes ty)), fun h => ?_⟩
    · have acquires : (if (ord == 1) = true then s.acquire scope else s) = if ord = 1 then s.acquire scope else s := by
        simp only [beq_iff_eq]
      rw [← acquires]
      exact h.load (off := (·.offset a)) ready
    · rw [← loadedRegs_word]
      exact h.load (ty := 6) (off := fun _ => 4 * (j.toNat : Int))
  · intro r cap z td x y
    obtain ⟨-, -, -, st, stImm, stShort, fst⟩ := loadsAndStoresEverywhere s d a c ty ord j scope imm (.own at_)
    obtain ⟨fstReg, fstImm⟩ := fst nofun
    exact ⟨fun ok h => storesToLocal_of_storesAt (st ok h), fun ok h => storesToLocal_of_storesAt (stImm ok h),
      fun h => storesToLocal_of_storesAt (stShort h), fun ok h => storesToLocal_of_storesAt (fstReg ok h),
      fun ok h => storesToLocal_of_storesAt (fstImm ok h)⟩

end Sys2Proof.Machine
end

section
/-!
PROOFS. `BARMAX` with a port as its source (R31, R33, R208, R209): the word is consumed when the instruction completes, not
while it sleeps.
-/

namespace Sys2Proof.Machine

/-- A contribution changes nothing of the issuing thread. -/
theorem State.me_contribute (s : State) (c g : Nat) (x : Item) : (s.contribute c g x).me = s.me := by
  have counted := (s.updCore c fun k => k.setColl { k.coll g with contributed := (k.coll g).contributed + 1 }).slot_updCore c
    (fun k => { k with sent := k.sent + 1 }) rfl s.curCore s.curSlot
  have joined := s.slot_updCore c (fun k => k.setColl { k.coll g with contributed := (k.coll g).contributed + 1 }) rfl
    s.curCore s.curSlot
  exact counted.trans joined

/-- `BARMAX` that contributes sleeps with its registers as they were (R33, R209). -/
theorem exec_barmax_regs {s : State} {d a : BitVec 5} {g : BitVec 6} {t : Truss} (noView : s.me.views = [])
    (bound : s.groupOf s.me.tenant g.toNat = some t) (op : t.op = 3) (fields : (sSrc a && sDst d) = true)
    (member : s.memberOf s.me.tenant g.toNat s.home = true) (idle : (s.core s.home).pending g.toNat = false)
    (ready : s.portsReady [a] [d]) : ∃ u, exec (.barmax d a g) s = .next u ∧ u.regs = s.regs := by
  have free : State.maxBusy g.toNat d a s = false := by
    have round : (s.core s.me.home).pending g.toNat = false := idle
    simp [State.maxBusy, State.roundBusy, round]
  have group : s.groupCheck g.toNat = .ok t := by rw [State.groupCheck, if_neg (not_not.2 noView), bound]
  have field : s.fieldCheck g.toNat (sSrc a && sDst d) = .ok () := by
    have home : s.memberOf s.me.tenant g.toNat s.me.home = true := member
    simp [State.fieldCheck, fields, home]
  show ∃ u, execBarmax d a g s = .next u ∧ _
  rw [execBarmax, State.hold_of_not free]
  simp only [group, run_ok_bind, op, ne_eq, not_true_eq_false, if_false, field]
  refine ⟨_, congrArg _ (s.issue_of_wait _ ready rfl), ?_⟩
  simp only [State.regs, State.me_updMe, State.me_contribute]
  rfl

/-- A thread whose core is the one member of a maximum group bound for its tenant, with one word left in `qrx`. -/
def portMember : State :=
  let s := State.reset.updPkg 0 fun p => { p with truss := [⟨stopOf 0, 41, trussBits 0 0 1 0x3F 3 1, [], none, []⟩] }
  s.updMe fun t => { t with state := .ready, regs := { t.regs with qrx := [5] } }

/-- Refutes O34: `BARMAX` with source `qrx`. The statement has the word consumed while the thread sleeps; the model, as R33,
consumes it when the round's result arrives. -/
theorem not_collectives : ¬ Obligations.Collectives := by
  intro h
  have noView : portMember.me.views = [] := by decide
  have bound : portMember.groupOf portMember.me.tenant (41#6).toNat =
      some ⟨stopOf 0, 41, trussBits 0 0 1 0x3F 3 1, [], none, []⟩ := by decide
  have op : (⟨stopOf 0, 41, trussBits 0 0 1 0x3F 3 1, [], none, []⟩ : Truss).op = 3 := by decide
  have member : portMember.memberOf portMember.me.tenant (41#6).toNat portMember.home = true := by decide
  have idle : (portMember.core portMember.home).pending (41#6).toNat = false := by decide
  have word : portMember.regs.qrx = [5] := by decide
  have ready : portMember.portsReady [28] [1] := ⟨fun _ => by rw [word]; nofun, nofun, nofun⟩
  obtain ⟨u, sleeps, kept⟩ := exec_barmax_regs noView bound op (by decide) member idle ready
  obtain ⟨-, -, groups⟩ := h.1 portMember 1 28 41 _
  obtain ⟨-, -, -, -, -, members⟩ := groups noView bound
  obtain ⟨-, -, -, -, contributes⟩ := members member
  have claimed := sleeps.symm.trans (contributes op (by decide) (by decide) idle ready)
  have regs : portMember.regs = portMember.regs.consume [28] :=
    kept.symm.trans ((congrArg State.regs (Host.Outcome.next.inj claimed)).trans (congrArg Slot.regs (State.me_updMe _ _)))
  have ports : portMember.regs.qrx = (portMember.regs.consume [28]).qrx := congrArg Regs.qrx regs
  have consumed : (portMember.regs.consume [28]).qrx = [] := by decide
  exact absurd (word.symm.trans (ports.trans consumed)) nofun

end Sys2Proof.Machine
end

section
/-!
PROOFS. Integer instructions (R107): arithmetic and comparisons, division, shifts and bit counts, at both widths.
-/

namespace Sys2Proof.Machine

/-! ### Two operands -/

section
variable {mk : BitVec 5 → BitVec 5 → BitVec 5 → BitVec 1 → Instr} {f f' : Word → Word → Word}
  {g g' : DWord → DWord → DWord}

/-- An instruction of two operands gives at each width what its function of that width gives, and raises no flag. -/
theorem integerResult_of_int2 (hf : ∀ x y, f x y = f' x y) (hg : ∀ x y, g x y = g' x y)
    (h : ∀ s d a b w, exec (mk d a b w) s = s.int2 d a b w f g := by intros; rfl) : IntegerResult mk f' g' := by
  obtain rfl : f = f' := funext₂ hf
  obtain rfl : g = g' := funext₂ hg
  exact fun s d a b => ⟨.of_plain (h ..) (congrArg (·.advance 4) (Regs.raise_zero _)),
    .of_plain (h ..) (congrArg (·.advance 4) (Regs.raise_zero _))⟩

/-- A division gives at each width what its function of that width gives, and raises `dz` on a zero divisor. -/
theorem divisionResult_of_intDiv (hf : ∀ x y, f x y = f' x y) (hg : ∀ x y, g x y = g' x y)
    (h : ∀ s d a b w, exec (mk d a b w) s = s.intDiv d a b w f g := by intros; rfl) : DivisionResult mk f' g' := by
  obtain rfl : f = f' := funext₂ hf
  obtain rfl : g = g' := funext₂ hg
  exact fun s d a b => ⟨.of_plain (h ..) rfl, .of_plain (h ..) rfl⟩

end

section
variable {n : Nat} (x y : BitVec n)

theorem aluMinn_eq : aluMinn x y = if y.toNat < x.toNat then y else x := by simp [aluMinn, BitVec.ult]

theorem aluMaxn_eq : aluMaxn x y = if x.toNat < y.toNat then y else x := by simp [aluMaxn, BitVec.ult]

theorem aluFlag_slt_eq : aluFlag n (x.slt y) = if x.toInt < y.toInt then 1 else 0 := by simp [aluFlag, BitVec.slt]

theorem aluFlag_ult_eq : aluFlag n (x.ult y) = if x.toNat < y.toNat then 1 else 0 := by simp [aluFlag, BitVec.ult]

/-- A quotient modulo 2^n: the one that overflows wraps. -/
theorem aluDiv_eq : aluDiv x y = if y = 0 then BitVec.allOnes n else BitVec.ofInt n (x.toInt.tdiv y.toInt) := by
  have quotient : x.sdiv y = BitVec.ofInt n (x.toInt.tdiv y.toInt) :=
    BitVec.eq_of_toInt_eq (by rw [BitVec.toInt_sdiv, BitVec.toInt_ofInt])
  rw [aluDiv, quotient]

theorem aluDivn_eq : aluDivn x y = if y = 0 then BitVec.allOnes n else BitVec.ofNat n (x.toNat / y.toNat) := by
  rw [aluDivn, ← BitVec.toNat_udiv, BitVec.ofNat_toNat, BitVec.setWidth_eq]

theorem aluRem_eq : aluRem x y = if y = 0 then x else BitVec.ofInt n (x.toInt.tmod y.toInt) := by
  rw [aluRem, ← BitVec.toInt_srem, BitVec.ofInt_toInt]

theorem aluRemn_eq : aluRemn x y = if y = 0 then x else BitVec.ofNat n (x.toNat % y.toNat) := by
  rw [aluRemn, ← BitVec.toNat_umod, BitVec.ofNat_toNat, BitVec.setWidth_eq]

end

theorem integerArithmetic : IntegerArithmetic :=
  have same {w : Nat} {f : BitVec w → BitVec w → BitVec w} (x y : BitVec w) : f x y = f x y := rfl
  ⟨integerResult_of_int2 same same, integerResult_of_int2 same same, integerResult_of_int2 same same,
    integerResult_of_int2 same same, integerResult_of_int2 same same, integerResult_of_int2 same same,
    integerResult_of_int2 same same, integerResult_of_int2 same same, integerResult_of_int2 same same⟩

theorem integerComparisons : IntegerComparisons :=
  ⟨integerResult_of_int2 aluMin_eq aluMin_eq, integerResult_of_int2 aluMax_eq aluMax_eq,
    integerResult_of_int2 aluMinn_eq aluMinn_eq, integerResult_of_int2 aluMaxn_eq aluMaxn_eq,
    integerResult_of_int2 aluFlag_slt_eq aluFlag_slt_eq, integerResult_of_int2 aluFlag_ult_eq aluFlag_ult_eq⟩

/-- Settles O1: the function of each instruction is the arithmetic of its row in R107. -/
theorem integerArithmeticAndComparisons : Obligations.IntegerArithmeticAndComparisons :=
  ⟨integerArithmetic, integerComparisons⟩

/-- Settles O2: quotients and remainders of `BitVec` are those of the integers they stand for. -/
theorem integerDivision : Obligations.IntegerDivision :=
  ⟨divisionResult_of_intDiv aluDiv_eq aluDiv_eq, divisionResult_of_intDiv aluDivn_eq aluDivn_eq,
    divisionResult_of_intDiv aluRem_eq aluRem_eq, divisionResult_of_intDiv aluRemn_eq aluRemn_eq⟩

/-! ### Shifts -/

/-- A rotate by less than the width is a shift to the left and one to the right that share no bit. -/
theorem rotateLeft_eq_add {n k : Nat} (x : BitVec n) (h : k < n) :
    x.rotateLeft k = BitVec.ofNat n (x.toNat * 2 ^ k + x.toNat / 2 ^ (n - k)) := by
  have disjoint : x <<< k &&& x >>> (n - k) = 0#n := by
    ext i hi
    by_cases low : i < k
    · simp [low]
    · simp [BitVec.getLsbD_of_ge x (n - k + i) (by omega)]
  calc x.rotateLeft k = x <<< k ||| x >>> (n - k) := BitVec.rotateLeft_eq_rotateLeftAux_of_lt h
    _ = x <<< k + x >>> (n - k) := (BitVec.add_eq_or_of_and_eq_zero _ _ disjoint).symm
    _ = _ := by rw [shiftLeft_eq_mul, ushiftRight_eq_div, BitVec.ofNat_add]

/-- An amount in an instruction's field (R107). -/
theorem shiftField_toNat (h : BitVec 1) (b : BitVec 5) : (h ++ b).toNat = 32 * h.toNat + b.toNat := by
  rw [toNat_append_eq]
  omega

/-- A shift gives at each width what its function gives for amounts below that width. -/
theorem shiftResult_of_intShift {mk : BitVec 5 → BitVec 5 → BitVec 5 → BitVec 1 → BitVec 1 → BitVec 1 → Instr}
    {f f' : Word → Nat → Word} {g g' : DWord → Nat → DWord}
    (hf : ∀ x n, n < 32 → f x n = f' x n) (hg : ∀ x n, n < 64 → g x n = g' x n)
    (h : ∀ s d a b w i k, exec (mk d a b w i k) s = s.intShift d a b w i k f g := by intros; rfl) :
    ShiftResult mk f' g' := by
  intro s d a b k
  have field : 32 * k.toNat + b.toNat < 64 := by omega
  refine ⟨.of_wrote (h ..) (hf _ _ (Nat.mod_lt _ (by decide))), .of_wrote (h ..) ?_,
    .of_plain (h ..) (congrArg (s.wrotePair d · 4) (hg _ _ (Nat.mod_lt _ (by decide)))),
    .of_plain (h ..) (congrArg (s.wrotePair d · 4) ?_)⟩
  · exact (congrArg (fun n => f (s.regs.val a) (n % 32)) (shiftField_toNat k b)).trans (hf _ _ (Nat.mod_lt _ (by decide)))
  · exact (congrArg (g (s.regs.pair a)) ((congrArg (· % 64) (shiftField_toNat k b)).trans (Nat.mod_eq_of_lt field))).trans
      (hg _ _ field)

theorem integerShifts : IntegerShifts :=
  ⟨shiftResult_of_intShift (fun x n _ => shiftLeft_eq_mul x n) fun x n _ => shiftLeft_eq_mul x n,
    shiftResult_of_intShift (fun x n _ => ushiftRight_eq_div x n) fun x n _ => ushiftRight_eq_div x n,
    shiftResult_of_intShift (fun x n _ => sshiftRight_eq_div x n) fun x n _ => sshiftRight_eq_div x n,
    shiftResult_of_intShift (fun x _ => rotateLeft_eq_add x) fun x _ => rotateLeft_eq_add x⟩

/-! ### Counts -/

section
variable {n : Nat} (x : BitVec n)

/-- The zeros that are counted down from bit k are zeros, and end below it or at a 1 bit. -/
theorem leadZeros_spec (k : Nat) : leadZeros x k ≤ k ∧ (∀ i < k, k - leadZeros x k ≤ i → x.getLsbD i = false) ∧
    (leadZeros x k < k → x.getLsbD (k - 1 - leadZeros x k) = true) := by
  induction k with
  | zero => simp [leadZeros]
  | succ k ih =>
    obtain ⟨le, zeros, one⟩ := ih
    by_cases top : x.getLsbD k = true
    · refine ⟨by simp [leadZeros, top], fun i hi low => ?_, fun _ => by simp [leadZeros, top]⟩
      simp only [leadZeros, top, if_true] at low
      omega
    · simp only [leadZeros, top, if_false, Bool.false_eq_true]
      refine ⟨by omega, fun i hi low => ?_, fun lt => ?_⟩
      · rcases Nat.lt_succ_iff_lt_or_eq.mp hi with below | rfl
        · exact zeros i below (by omega)
        · simpa using top
      · rw [show k + 1 - 1 - (leadZeros x k + 1) = k - 1 - leadZeros x k by omega]
        exact one (by omega)

/-- The zeros that are counted up from the bit k places below the top are zeros, and end at the top or at a 1 bit. -/
theorem trailZeros_spec (k : Nat) (h : k ≤ n) : trailZeros x k ≤ k ∧
    (∀ i, n - k ≤ i → i < n - k + trailZeros x k → x.getLsbD i = false) ∧
    (trailZeros x k < k → x.getLsbD (n - k + trailZeros x k) = true) := by
  induction k with
  | zero => simp [trailZeros]; omega
  | succ k ih =>
    obtain ⟨le, zeros, one⟩ := ih (by omega)
    by_cases bottom : x.getLsbD (n - (k + 1)) = true
    · refine ⟨by simp [trailZeros, bottom], fun i low hi => ?_, fun _ => by simp [trailZeros, bottom]⟩
      simp only [trailZeros, bottom, if_true] at hi
      omega
    · simp only [trailZeros, bottom, if_false, Bool.false_eq_true]
      refine ⟨by omega, fun i low hi => ?_, fun lt => ?_⟩
      · by_cases first : i = n - (k + 1)
        · subst first; simpa using bottom
        · exact zeros i (by omega) (by omega)
      · rw [show n - (k + 1) + (trailZeros x k + 1) = n - k + trailZeros x k by omega]
        exact one (by omega)

theorem countOnes_eq (k : Nat) : countOnes x k = ((List.range k).filter fun i => x.getLsbD i).length := by
  induction k with
  | zero => rfl
  | succ k ih => cases top : x.getLsbD k <;> simp [countOnes, List.range_succ, List.filter_append, ih, top]

end

/-- A count gives at both widths a number that is right for every width. -/
theorem countResult_of_int1 {mk : BitVec 5 → BitVec 5 → BitVec 1 → Instr} {right : (w : Nat) → BitVec w → Nat → Prop}
    (count : (w : Nat) → BitVec w → Nat)
    (hr : ∀ w x, right w x (count w x))
    (h : ∀ s d a w, exec (mk d a w) s = s.int1 d a w (fun x => BitVec.ofNat 32 (count 32 x))
      (fun x => BitVec.ofNat 64 (count 64 x)) := by intros; rfl) : CountResult mk right :=
  fun _ _ _ => ⟨⟨_, hr 32 _, .of_wrote (h ..) rfl⟩, _, hr 64 _, .of_plain (h ..) rfl⟩

theorem integerCounts : IntegerCounts := by
  refine ⟨countResult_of_int1 (fun w x => leadZeros x w) fun w x => ?_,
    countResult_of_int1 (fun w x => trailZeros x w) fun w x => ?_,
    countResult_of_int1 (fun w x => countOnes x w) fun w x => countOnes_eq x w⟩
  · obtain ⟨le, zeros, one⟩ := leadZeros_spec x w
    refine ⟨le, fun i low => ?_, one⟩
    by_cases inside : i < w
    · exact zeros i inside low
    · exact BitVec.getLsbD_of_ge x i (by omega)
  · simpa using trailZeros_spec x w le_rfl

/-- Settles O3: shifts as products and quotients by powers of two, and counts bit by bit. -/
theorem integerShiftsAndCounts : Obligations.IntegerShiftsAndCounts := ⟨integerShifts, integerCounts⟩

end Sys2Proof.Machine
end

section
/-!
PROOFS. Capability derivation (R117, R118), the time counter and `TRAP` (R122 to R124).
-/

namespace Sys2Proof.Machine

/-! ### Capabilities -/

section
variable {s : State} {d a b : BitVec 5} {i : Instr} {f : Cap → Word → Option Cap}

/-- A derivation that is admitted writes the derived capability. -/
theorem Completes.of_derive (e : exec i s = s.derive d a b f) {k : Cap}
    (h : f (s.regs.cap (a.setWidth 3)) (s.regs.val b) = some k) :
    Completes i s [b] [] ((s.regs.setCap (d.setWidth 3) k).advance 4) := by
  intro ports
  rw [e, State.derive, s.plain_of_ready ports]
  simp only [h]

/-- One that is not takes the "widen" fault. -/
theorem Faults.of_derive (e : exec i s = s.derive d a b f) (h : f (s.regs.cap (a.setWidth 3)) (s.regs.val b) = none) :
    Faults i s [b] [] ⟨0x03, 0x05, 0, 0⟩ := by
  intro ports
  rw [e, State.derive, s.plain_of_ready ports]
  simp only [h]
  rfl

end

theorem permSpace_toNat (c : Cap) : (permSpace c).toNat = if 4 < c.space then 0 else c.space := by
  rw [permSpace]
  split
  · rfl
  · rw [BitVec.toNat_ofNat, Nat.mod_eq_of_lt c.space_lt]

/-- The word of `CPERM` by its fields (R118). -/
theorem permWord_eq (c : Cap) : permWord c = BitVec.ofNat 32 (c.dom * 2 ^ 16 + (if c.tag then 2 ^ 11 else 0) +
    (if 4 < c.space then 0 else c.space) * 2 ^ 8 + c.perm.toNat) := by
  refine BitVec.eq_of_toNat_eq ?_
  have := c.dom_lt; have := c.perm.isLt; have := (permSpace c).isLt
  rw [← permSpace_toNat]
  simp only [permWord, toNat_append_eq, bit_toNat, BitVec.toNat_ofNat]
  cases c.tag <;> simp <;> omega

/-- Settles O6: a derivation by its function, defined or not, and the words by their fields. -/
theorem capabilityDerivation : Obligations.CapabilityDerivation := by
  intro s d a b c x put widen
  refine ⟨fun fits => .of_derive (f := capSetLen) rfl (if_neg (Nat.not_lt.mpr fits)),
    fun fits => .of_derive (f := capMove) rfl (if_neg (Nat.not_lt.mpr fits)),
    fun wider => ⟨.of_derive (f := capSetLen) rfl (if_pos wider), .of_derive (f := capMove) rfl (if_pos wider)⟩,
    .of_derive (f := capMask) rfl rfl, .of_wrote rfl rfl, .of_wrote rfl rfl, .of_wrote rfl (permWord_eq c)⟩

/-! ### Time -/

section
variable {s : State} {a : BitVec 5}

theorem exec_twait_late (h : (s.regs.pair a).toNat + 4096 < s.ptc.toNat) :
    Faults (.twait a) s [a] [] ⟨0x0A, 0, s.regs.pair a, 0⟩ := by
  intro ports
  show execTwait a s = _
  rw [execTwait, s.issue_of_trap s ports (if_pos h)]
  rfl

theorem exec_twait_due (low : (s.regs.pair a).toNat ≤ s.ptc.toNat) (high : s.ptc.toNat ≤ (s.regs.pair a).toNat + 4096) :
    Completes (.twait a) s [a] [] (s.regs.advance 4) := by
  intro ports
  show execTwait a s = _
  rw [execTwait, s.issue_of_ok (s.setRegs (s.regs.advance 4)) ports
    ((if_neg (by omega)).trans (if_neg (by omega)))]
  simp

/-- An early `TWAIT` of a thread that follows no leader sleeps where it stands. -/
theorem exec_twait_early (h : s.ptc.toNat < (s.regs.pair a).toNat) (leads : s.me.state ≠ .follow)
    (ports : s.portsReady [a] []) : exec (.twait a) s = .next (s.setSlot s.curCore s.curSlot
      { s.me with state := .sleep, wait := .deadline (s.regs.pair a).toNat }) := by
  show execTwait a s = _
  rw [execTwait, s.issue_of_wait _ ports ((if_neg (by omega)).trans (if_pos h)), State.updMe_eq, Slot.block, if_neg leads]

end

theorem exec_trap (s : State) (imm : BitVec 14) :
    exec (.trap imm) s = .next (s.trapMe ⟨0x10, 0, imm.zeroExtend 64, 0⟩) := by
  show execTrap imm s = _
  rw [execTrap, s.issue_of_trap s s.portsReady_nil rfl]
  rfl

/-- Settles O9: `TIME` as a register instruction, `TWAIT` in its three cases, and the trap. -/
theorem timeAndTrap : Obligations.TimeAndTrap := by
  intro s d a imm now T
  exact ⟨.of_plain rfl (by rw [BitVec.ofNat_toNat, BitVec.setWidth_eq]; rfl), exec_twait_due, exec_twait_late,
    exec_twait_early, exec_trap s imm⟩

end Sys2Proof.Machine
end

section
/-!
PROOFS. Handler instructions (R125 to R127, R294): what a thread's end leaves of its slot, and what an operand names.
-/

namespace Sys2Proof.Machine

/-! ### A slot after a change of any -/

section
variable {α : Type} (s : State) (g : Slot → α) {c d : Nat} {n m : Fin 8}

/-- What every change of a slot keeps is kept of all slots. -/
theorem State.slot_setSlot_keeps {x : Slot} (h : g x = g (s.slot c n)) :
    g ((s.setSlot c n x).slot d m) = g (s.slot d m) := by
  by_cases same : d = c ∧ m = n
  · obtain ⟨rfl, rfl⟩ := same
    rw [State.slot_setSlot, h]
  · rw [State.slot_setSlot_ne _ _ same]

end

theorem Slot.unblock_parked {t : Slot} (h : t.state = .parked) : t.unblock =
    { t with
      state := .ready, wait := .none, held := none, asked := none, wants := none, gone := false, reply := none } := by
  simp [Slot.unblock, h]

/-! ### The end of a thread (R126) -/

/-- The record of a world and its windows are no part of a slot. -/
theorem State.slot_endWorld (s : State) (w : World) (c : Nat) (n : Fin 8) : (s.endWorld w).slot c n = s.slot c n := by
  rw [State.endWorld, State.updPkg_eq, State.slot_setPkg, State.slot_updCore _ _ _ rfl]

/-- The parent of a world that resumes was asleep: every slot that is not is as before. -/
theorem State.slot_resumeParent (s : State) (w : World) (f : Regs → Regs) {c : Nat} {n : Fin 8}
    (awake : (s.slot c n).state ≠ .sleep) : (s.resumeParent w f).slot c n = s.slot c n := by
  unfold State.resumeParent
  dsimp only
  split
  next h =>
    obtain ⟨⟨-, asleep⟩, -⟩ : (_ ∧ (s.slot w.core w.slot).state = .sleep) ∧ _ := by
      simpa only [Bool.and_eq_true, decide_eq_true_eq] using h
    have other : ¬(c = w.core ∧ n = w.slot) := fun ⟨hc, hn⟩ => awake (by rw [hc, hn, asleep])
    exact (State.slot_pushDown _ other).trans (s.slot_setSlot_ne _ other)
  · rfl

theorem State.slot_countRival (s : State) (pkg world : Nat) {c : Nat} {n : Fin 8} (awake : (s.slot c n).state ≠ .sleep) :
    (s.countRival pkg world).slot c n = s.slot c n := by
  unfold State.countRival
  split
  · rfl
  · dsimp only
    split
    · rfl
    · rw [State.slot_endWorld, State.slot_resumeParent _ _ _ awake]

/-- A thread that ends leaves its slot FREE. -/
theorem State.free_killThread (s : State) (c : Nat) (n : Fin 8) : ((s.killThread c n).slot c n).state = .free := by
  have freed (t : State) : ((t.freeSlot c n).slot c n).state = .free := congrArg Slot.state (t.slot_freeSlot c n)
  have counted (t : State) (pkg world : Nat) : (((t.freeSlot c n).countRival pkg world).slot c n).state = .free := by
    rw [State.slot_countRival _ _ _ (by rw [freed]; decide), freed]
  unfold State.killThread State.endThread
  dsimp only
  split
  · assumption
  · split
    · exact freed _
    · exact counted ..

/-! ### Handler instructions -/

/-- The slot and the generation that an operand names (R125). -/
theorem handled_names (x : Word) :
    (x.extractLsb' 0 3).toFin = Fin.ofNat 8 x.toNat ∧ x.extractLsb' 3 8 = BitVec.ofNat 8 (x.toNat / 8) :=
  ⟨Fin.ext (by simp), BitVec.eq_of_toNat_eq (by simp [Nat.shiftRight_eq_div_pow])⟩

/-- Whether an operand names a PARKED thread of the issuing thread's tenant by its generation (R125, R294). -/
def State.handles (s : State) (x : Word) : Prop :=
  let o := s.slot s.home (Fin.ofNat 8 x.toNat)
  o.state = .parked ∧ o.gen = BitVec.ofNat 8 (x.toNat / 8) ∧ o.tenant = s.me.tenant

/-- The state in which a handler instruction acts: the issuing thread has moved on. -/
def State.movedOn (s : State) : State := s.setRegs (s.regs.advance 4)

theorem State.slot_movedOn_keeps {α : Type} (s : State) (g : Slot → α) (c : Nat) (n : Fin 8)
    (h : g { s.me with regs := s.regs.advance 4 } = g s.me) : g (s.movedOn.slot c n) = g (s.slot c n) :=
  s.slot_setSlot_keeps g h

/-- An action on the slot that an operand names is taken exactly on a match. -/
theorem State.onParked_movedOn (s : State) (x : Word) (f : State → Nat → Fin 8 → State) :
    let o := s.slot s.home (Fin.ofNat 8 x.toNat)
    s.movedOn.onParked s.home (Fin.ofNat 8 x.toNat) (BitVec.ofNat 8 (x.toNat / 8)) f =
      if o.state = .parked ∧ o.gen = BitVec.ofNat 8 (x.toNat / 8) then f s.movedOn s.home (Fin.ofNat 8 x.toNat)
      else s.movedOn := by
  rw [State.onParked]
  simp only [s.slot_movedOn_keeps Slot.state _ _ rfl, s.slot_movedOn_keeps Slot.gen _ _ rfl, Bool.and_eq_true,
    decide_eq_true_eq]

section
variable {s : State} {i : Instr} {a : BitVec 5} {f : State → Nat → Fin 8 → State} (e : exec i s = s.handle a f)
include e

theorem Faults.of_handle (hcl : s.me.hcl = false) : Faults i s [a] []
    ⟨0x0C, 0, BitVec.ofNat 64 (0x100 + 16 * (Fin.ofNat 8 (s.regs.val a).toNat).val), 0⟩ := by
  intro ports
  rw [e, State.handle, s.issue_of_trap s ports (by simp only [hcl]; rfl), (handled_names _).1]
  rfl

/-- A handler's instruction completes with what its action leaves of the slot named, or with nothing where none is. -/
theorem exec_handle {t : State} (hcl : s.me.hcl = true) (ports : s.portsReady [a] [])
    (acts : s.handles (s.regs.val a) → t = f s.movedOn s.home (Fin.ofNat 8 (s.regs.val a).toNat))
    (ignores : ¬s.handles (s.regs.val a) → t = s.movedOn) : exec i s = .next (t.completed [a] [] t.regs) := by
  obtain ⟨slot, gen⟩ := handled_names (s.regs.val a)
  rw [e, State.handle, s.issue_of_ok t ports]
  simp only [hcl, Bool.not_true, Bool.false_eq_true, if_false, slot, gen]
  split
  next other => rw [ignores fun own => other own.2.2]; rfl
  next own =>
    refine congrArg _ ((s.onParked_movedOn (s.regs.val a) f).trans ?_)
    split
    next h => exact (acts ⟨h.1, h.2, not_not.mp own⟩).symm
    next h => exact (ignores fun own => h ⟨own.1, own.2.1⟩).symm

end

section
variable {s : State} {c : Nat} {n : Fin 8}

/-- The halfword at the faulting instruction tells its length (R45). -/
theorem State.resumeParked_eq (code : (s.slot c n).faultCause.extractLsb' 16 16 ≠ 0x0306) {h : BitVec 16}
    (half : s.codeHalf (pkgOf c) (s.slot c n) (s.slot c n).faultPc = some h) : s.resumeParked c n = s.setSlot c n
    { (s.slot c n).unblock with
      regs := { (s.slot c n).regs with pc := (s.slot c n).faultPc + if h.getLsbD 15 then 4 else 2 } } := by
  rw [State.resumeParked]
  simp only [if_neg code, half]

theorem State.resumeParked_code (code : (s.slot c n).faultCause.extractLsb' 16 16 = 0x0306) : s.resumeParked c n = s :=
  if_pos code

end

/-- A completion without a push changes the state of no slot. -/
theorem State.state_completed (t : State) (srcs : List (BitVec 5)) (r : Regs) (c : Nat) (n : Fin 8) :
    ((t.completed srcs [] r).slot c n).state = (t.slot c n).state := by
  rw [State.completed, if_neg List.not_mem_nil]
  exact t.slot_setSlot_keeps Slot.state rfl

/-- A capability fault "code" by the cause word (R38). -/
theorem codeCause_iff (x : Word) : x.extractLsb' 16 16 = 0x0306 ↔ x.toNat / 2 ^ 16 = 0x0306 := by
  have high : x.toNat / 2 ^ 16 < 2 ^ 16 := Nat.div_lt_of_lt_mul x.isLt
  rw [← BitVec.toNat_inj, BitVec.extractLsb'_toNat, Nat.shiftRight_eq_div_pow, Nat.mod_eq_of_lt high]
  rfl

theorem getLsbD_fifteen_iff (h : BitVec 16) : h.getLsbD 15 = true ↔ 2 ^ 15 ≤ h.toNat := by
  have := isLong_eq h
  simpa [isLong] using congrArg (· = true) this

/-- Settles O11: the issuing thread moves on, and the action is taken of the slot named exactly on a match. -/
theorem handlerInstructions : Obligations.HandlerInstructions := by
  intro s a x n g o on done after
  refine ⟨fun hcl => ⟨.of_handle rfl hcl, .of_handle rfl hcl, .of_handle rfl hcl⟩, fun hcl other => ?_,
    fun hcl parked gen own other => ?_⟩
  · have ignored : ¬s.handles x := fun ⟨state, gen, own⟩ => by
      rcases other with h | h | h
      · exact h state
      · exact h gen
      · exact h own
    have ignores {i : Instr} {f : State → Nat → Fin 8 → State} (e : exec i s = s.handle a f) : after i on := fun ports =>
      exec_handle e hcl ports (fun named => absurd named ignored) fun _ => rfl
    exact ⟨ignores rfl, ignores rfl, ignores rfl⟩
  · have named : s.handles x := ⟨parked, gen, own⟩
    have kept : on.slot s.home n = o := s.slot_setRegs_ne _ other
    have acts {i : Instr} {f : State → Nat → Fin 8 → State} {t : State} (e : exec i s = s.handle a f)
        (h : f on s.home n = t) : after i t := fun ports =>
      exec_handle e hcl ports (fun _ => h.symm) fun ignored => absurd named ignored
    refine ⟨acts rfl ?_, fun h half cause => acts rfl ?_, fun cause => acts rfl ?_, fun ports => ?_⟩
    · rw [State.retryParked, kept, Slot.unblock_parked parked]
    · rw [State.resumeParked_eq (by rwa [kept, Ne, codeCause_iff]) (h := h) (by rwa [kept]), kept,
        Slot.unblock_parked parked, if_congr (getLsbD_fifteen_iff h) rfl rfl]
    · exact State.resumeParked_code (by rwa [kept, codeCause_iff])
    · have free := (on.killThread s.home n).state_completed [a] (on.killThread s.home n).regs s.home n
      exact ⟨_, acts (f := State.killThread) rfl rfl ports, free.trans (on.free_killThread s.home n)⟩

end Sys2Proof.Machine
end

section
/-!
PROOFS. The events of fault records, of pegs and of the service OS (R126, R148, R291 to R294, R304, R355).
-/

namespace Sys2Proof.Machine

/-! ### Fault records (R291) -/

section
variable {s : State} {c : Nat} {n : Fin 8}

/-- The slot of a recorded fault is PARKED with its records; where its peg is depends on R293 and R294. -/
theorem State.slot_recordFault (s : State) (c : Nat) (n : Fin 8) (f : FaultInfo) (gang : Bool) :
    ∃ w, (s.recordFault c n f gang).slot c n =
      { (s.slot c n).idle with
        state := .parked, pendFault := none, faultPc := (s.slot c n).regs.pc
        faultCause := causeWord f.cls f.detail gang f.scope, faultAddr := f.addr, peg := w } := by
  unfold State.recordFault
  obtain ⟨w, -, slot, -, -⟩ := State.routePeg_leaves (c := c) (n := n) (s.setSlot c n { (s.slot c n).idle with
    state := .parked, pendFault := none, faultPc := (s.slot c n).regs.pc
    faultCause := causeWord f.cls f.detail gang f.scope, faultAddr := f.addr })
    ⟨f.addr, (s.slot c n).regs.pc, f.cls, f.detail, gang, 0, (s.slot c n).gen, n⟩
  exact ⟨w, slot.trans (by rw [State.slot_setSlot])⟩

/-- A thread outside every view has no domain that covers it. -/
theorem State.coverTarget_none (fuel : Nat) (reach : Nat → View → Bool) (views : (s.slot c n).views = []) :
    s.coverTarget fuel c n reach = none := by
  cases fuel with
  | zero => rfl
  | succ fuel => simp [State.coverTarget, coverIndex, ownViews, Slot.rivalView, views]

theorem State.recoverLocal_none (before : State) (views : (s.slot c n).views = []) : s.recoverLocal before c n = s := by
  unfold State.recoverLocal
  split
  · split
    · rfl
    · dsimp only
      rw [State.coverTarget_none _ _ (by rw [State.updSlot_eq, State.slot_setSlot]; exact views)]
  · rfl

end

section
variable {s : State} {core : Nat} {slot : Fin 8} {f : PendingFault}

theorem exec_faultRecord_waits (pend : (s.slot core slot).pendFault = some f) (busy : (s.core core).seqBusy slot = true) :
    exec (.faultRecord core slot) s = .next s := by
  show execFaultRecord core slot s = _
  simp only [execFaultRecord, pend, busy, if_true]

theorem exec_faultRecord_parks (pend : (s.slot core slot).pendFault = some f) (idle : (s.core core).seqBusy slot = false)
    (views : (s.slot core slot).views = []) : exec (.faultRecord core slot) s =
      .next (s.recordFault core slot ⟨f.cls, f.detail, f.addr, f.scope⟩ f.gang) := by
  obtain ⟨w, parked⟩ := s.slot_recordFault core slot ⟨f.cls, f.detail, f.addr, f.scope⟩ f.gang
  show execFaultRecord core slot s = _
  simp only [execFaultRecord, pend, idle, Bool.false_eq_true, if_false]
  rw [State.recoverLocal_none _ (by rw [parked]; exact views)]

end

/-! ### Pegs and queue 7 (R293, R294, R355) -/

/-- The peg that waits for queue 7 is that of the lowest slot (R294). -/
theorem Core.waitingPeg_lowest {k : Core} {n : Fin 8} {p : FaultPeg} (h : k.waitingPeg = some (n, p)) :
    k.pegWaits n = false := by
  obtain ⟨low, x, high, slots, found, below⟩ := List.findSome?_eq_some_iff.mp h
  obtain rfl : x = n := by
    split at found
    · exact congrArg Prod.fst (Option.some.inj found)
    · cases found
  rw [← Bool.not_eq_true, Core.pegWaits_iff]
  rintro ⟨m, lower, q, waits⟩
  have sorted : (low ++ x :: high).Pairwise (· < ·) := slots ▸ List.pairwise_lt_finRange 8
  have place : m ∈ low ++ x :: high := slots ▸ List.mem_finRange m
  rcases List.mem_append.mp place with h | h
  · have := below m h
    simp [waits] at this
  · rcases List.mem_cons.mp h with rfl | h
    · exact lt_irrefl _ lower
    · exact lt_asymm lower ((List.pairwise_cons.mp (List.pairwise_append.mp sorted).2.1).1 m h)

/-- A peg that enters queue 7 is its last entry, and its slot holds it no more. -/
theorem State.deliverPeg_leaves {s : State} {c : Nat} {n : Fin 8} (p : FaultPeg) (room : 0 < ((s.core c).queue 7).free)
    (first : (s.core c).pegWaits n = false) :
    (((s.deliverPeg c n p).core c).queue 7).entries = ((s.core c).queue 7).entries ++ [⟨p.words, none⟩] ∧
      ((s.deliverPeg c n p).slot c n).peg = none := by
  have enters : ¬s.pegStays c n := by
    rw [State.pegStays_iff, first, Bool.or_false, decide_eq_true_eq]
    exact room.ne'
  rw [s.deliverPeg_enters p enters, State.updSlot_eq, State.slot_setSlot, State.core_setSlot, if_pos rfl, State.updCore_eq,
    State.core_setCore]
  exact ⟨by simp [Core.queue, Core.setQueue, Core.setSlot], rfl⟩

section
variable {s : State} {core : Nat}

theorem exec_faultPegEnqueue_full (h : ((s.core core).queue 7).free = 0 ∨ s.saved core = true) :
    exec (.faultPegEnqueue core) s = .next s := by
  show execFaultPegEnqueue core s = _
  rw [execFaultPegEnqueue]
  exact congrArg _ (if_pos (by simpa [or_comm] using h))

theorem exec_faultPegEnqueue_waiting {n : Fin 8} {p : FaultPeg} (room : 0 < ((s.core core).queue 7).free)
    (here : s.saved core = false) (waits : (s.core core).waitingPeg = some (n, p)) :
    exec (.faultPegEnqueue core) s = .next (s.deliverPeg core n p) := by
  show execFaultPegEnqueue core s = _
  rw [execFaultPegEnqueue]
  simp only [here, room.ne', waits, decide_false, Bool.or_self, Bool.false_eq_true, if_false]

/-- The peg of a lost thread enters queue 7 (R355). -/
theorem exec_faultPegEnqueue_lost {lost : Nat × Entry} (room : 0 < ((s.core core).queue 7).free)
    (here : s.saved core = false) (waits : (s.core core).waitingPeg = none)
    (found : (s.pkg (pkgOf core)).service.pegs.find? (·.1 == core) = some lost) :
    let q := (s.core core).queue 7
    exec (.faultPegEnqueue core) s = .next
      ((s.setCore core ((s.core core).setQueue 7 { q with entries := q.entries ++ [⟨lost.2, none⟩] })).updPkg (pkgOf core)
        fun p => { p with service := { p.service with pegs := p.service.pegs.erase lost } }) := by
  show execFaultPegEnqueue core s = _
  rw [execFaultPegEnqueue]
  simp only [here, room.ne', waits, found, decide_false, Bool.or_self, Bool.false_eq_true, if_false]

end

section
variable {s : State} {core : Nat} {slot : Fin 8} {p : FaultPeg} {maps : List (Nat × BitVec 64)}

theorem exec_serviceOsPegOnward_saved {resolved : Bool} (peg : (s.slot core slot).peg = some (.service p))
    (saved : s.saved core = true) : exec (.serviceOsPegOnward core slot resolved maps) s = .next s := by
  show execServiceOsPegOnward core slot resolved maps s = _
  simp only [execServiceOsPegOnward, peg, saved, Bool.or_true, if_true]

/-- A peg for which nothing was mended goes on with `svc` 2 (R293). -/
theorem exec_serviceOsPegOnward_unmended (peg : (s.slot core slot).peg = some (.service p)) (here : s.saved core = false)
    (fresh : p.svc = 0) (cls : p.cls = 0x04 ∨ p.cls = 0x0F) :
    exec (.serviceOsPegOnward core slot false maps) s = .next (if s.serviceKeeps core slot
      then s.updSlot core slot fun t => { t with peg := some (.service { p with svc := 2 }) }
      else s.deliverPeg core slot { p with svc := 2 }) := by
  show execServiceOsPegOnward core slot false maps s = _
  have unmended : s.serviceFix p false maps = (s, false) := rfl
  rcases cls with cls | cls <;> simp [execServiceOsPegOnward, peg, here, fresh, cls, unmended]

end

/-! ### Pending operations of a gang (R154, R155) -/

/-- What the operations of a sequencer keep: every package, and the generation of every slot. -/
structure KeepsGens (s t : State) : Prop where
  pkg : ∀ p, t.pkg p = s.pkg p
  gen : ∀ c n, (t.slot c n).gen = (s.slot c n).gen

theorem KeepsGens.refl (s : State) : KeepsGens s s := ⟨fun _ => rfl, fun _ _ => rfl⟩

theorem KeepsGens.trans {s t u : State} (h : KeepsGens s t) (g : KeepsGens t u) : KeepsGens s u :=
  ⟨fun p => (g.pkg p).trans (h.pkg p), fun c n => (g.gen c n).trans (h.gen c n)⟩

theorem KeepsGens.foldl {α : Type} {f : State → α → State} (h : ∀ s x, KeepsGens s (f s x)) (l : List α) :
    ∀ s, KeepsGens s (l.foldl f s) := by
  induction l with
  | nil => exact .refl
  | cons x l ih => exact fun s => (h s x).trans (ih _)

theorem KeepsGens.seqApply (s x : State) (c : Nat) (n : Fin 8) : KeepsGens x (s.seqApply x c n) := by
  unfold State.seqApply
  split
  · exact .refl x
  · refine ⟨fun _ => rfl, fun d m => ?_⟩
    rw [State.slot_updCore _ _ _ (by rfl), State.updSlot_eq]
    exact x.slot_setSlot_keeps Slot.gen rfl

theorem KeepsGens.seqTaken (fuel c : Nat) (n : Fin 8) : ∀ s, KeepsGens s (State.seqTaken fuel c n s) := by
  induction fuel with
  | zero => exact .refl
  | succ fuel ih =>
    intro s
    unfold State.seqTaken
    split
    · exact (KeepsGens.seqApply ..).trans (ih _)
    · exact .refl s

theorem KeepsGens.seqPerform (s : State) (c : Nat) (n : Fin 8) : KeepsGens s (s.seqPerform c n) :=
  (KeepsGens.foldl (fun x m => .seqApply s x m n) _ s).trans (.foldl (fun _ _ => .seqTaken ..) _ _)

theorem KeepsGens.drainGang (s : State) (c : Nat) (n : Fin 8) : KeepsGens s (s.drainGang c n) := by
  have drained (fuel : Nat) : ∀ s, KeepsGens s (State.drainGang.go c n fuel s) := by
    induction fuel with
    | zero => exact .refl
    | succ fuel ih =>
      intro s
      unfold State.drainGang.go
      split
      · exact .refl s
      · exact (KeepsGens.seqPerform ..).trans (ih _)
  unfold State.drainGang
  split
  · exact drained ..
  · exact .refl s

/-- A thread outside every view that is no world's parent frees its slot when it is killed, which has its next generation
then (R18, R126). -/
theorem State.gen_killThread {s : State} {c : Nat} {n : Fin 8} (live : (s.slot c n).state ≠ .free)
    (views : (s.slot c n).views = []) (worlds : (s.pkg (pkgOf c)).worlds = []) :
    ((s.killThread c n).slot c n).gen = (s.slot c n).gen + 1 := by
  have kept := KeepsGens.drainGang s c n
  have ends : s.killThread c n = (s.drainGang c n).freeSlot c n := by
    unfold State.killThread State.endThread
    dsimp only
    rw [if_neg live]
    simp only [views, ownViews, List.foldl_nil, kept.pkg, worlds, List.filter_nil, Slot.rivalView, List.find?_nil]
  rw [ends, State.slot_freeSlot, kept.gen]

/-! ### Commands of the service OS (R126, R293) -/

/-- A command of the service OS is admitted: the slot is PARKED and keeps its peg of the present generation. -/
structure State.Serves (s : State) (c : Nat) (n : Fin 8) (p : FaultPeg) : Prop where
  here   : s.saved c = false
  peg    : (s.slot c n).peg = some (.service p)
  keeps  : s.serviceKeeps c n = true
  parked : (s.slot c n).state = .parked
  gen    : (s.slot c n).gen = p.gen

section
variable {s : State} {c : Nat} {n : Fin 8} {p : FaultPeg} (f : State → Nat → Fin 8 → State)

theorem State.serviceAct_serves (h : s.Serves c n p) : s.serviceAct c n f =
    (f s c n).updSlot c n fun t => if t.state = .parked then t else { t with peg := none } := by
  unfold State.serviceAct
  simp only [h.peg, h.here, h.keeps, h.parked, h.gen, decide_true, Bool.not_false, Bool.and_self, if_true]

/-- A command that sets its slot to one that is not PARKED takes the peg away. -/
theorem State.serviceAct_sets (h : s.Serves c n p) {x : Slot} (sets : f s c n = s.setSlot c n x)
    (goes : x.state ≠ .parked) : s.serviceAct c n f = s.setSlot c n { x with peg := none } := by
  rw [s.serviceAct_serves f h, sets, State.updSlot_eq, State.slot_setSlot, State.setSlot_setSlot, if_neg goes]

theorem State.serviceAct_no_peg (h : (s.slot c n).peg = none) : s.serviceAct c n f = s := by
  unfold State.serviceAct
  rw [h]

end

/-- Settles O39: each clause is what its event's lemma says. -/
theorem faultEvents : Obligations.FaultEvents := by
  intro s core slot n f p lost maps k t q keeps
  have serves (h : keeps) : s.Serves core slot p := by
    obtain ⟨here, peg, kept, parked, gen⟩ := h
    exact ⟨here, peg, kept, parked, gen⟩
  have state (h : keeps) : t.unblock.state ≠ .parked := by
    rw [Slot.unblock_parked (serves h).parked]
    nofun
  refine ⟨exec_faultRecord_waits, fun pend idle _ views => ?_, fun room here waits => ?_, exec_faultPegEnqueue_full,
    fun room here waits found => ?_, exec_serviceOsPegOnward_saved,
    fun peg here fresh cls => ⟨fun kept => ?_, fun sent room first => ?_⟩, fun h => ?_,
    fun h code => ?_, fun h code half at_ => ?_, fun h => ?_, fun peg => ?_⟩
  · obtain ⟨w, parked⟩ := s.slot_recordFault core slot ⟨f.cls, f.detail, f.addr, f.scope⟩ f.gang
    refine ⟨_, exec_faultRecord_parks pend idle views, ?_⟩
    rw [parked]
    exact ⟨rfl, rfl, rfl, rfl, rfl⟩
  · exact ⟨_, exec_faultPegEnqueue_waiting room here waits, s.deliverPeg_leaves p room (Core.waitingPeg_lowest waits)⟩
  · refine ⟨_, exec_faultPegEnqueue_lost room here waits found, ?_, ?_⟩
    · rw [State.updPkg_eq, State.core_setPkg, State.core_setCore]
      simp [Core.queue, Core.setQueue, q, k]
    · rw [State.updPkg_eq, State.pkg_setPkg, State.pkg_setCore]
  · rw [exec_serviceOsPegOnward_unmended peg here fresh cls, if_pos kept]
  · rw [exec_serviceOsPegOnward_unmended peg here fresh cls, if_neg (by simp [sent])]
    exact ⟨_, rfl, s.deliverPeg_leaves _ room first⟩
  · exact congrArg _ (s.serviceAct_sets State.retryParked (serves h) rfl (state h))
  · refine congrArg _ ((s.serviceAct_serves State.resumeParked (serves h)).trans ?_)
    rw [State.resumeParked_code code, State.updSlot_eq, if_pos (serves h).parked, State.updSlot_eq]
  · exact congrArg _ (s.serviceAct_sets State.resumeParked (serves h) (State.resumeParked_eq code at_) (state h))
  · refine ⟨_, rfl, fun views _ worlds => ?_⟩
    rw [s.serviceAct_serves State.killThread (serves h)]
    have live : (s.slot core slot).state ≠ .free := by rw [(serves h).parked]; nofun
    rw [State.updSlot_eq, State.slot_setSlot, if_neg (by rw [State.free_killThread]; nofun)]
    exact ⟨s.free_killThread core slot, State.gen_killThread live views worlds⟩
  · have kept (g : State → Nat → Fin 8 → State) : s.serviceAct core slot g = s := s.serviceAct_no_peg g peg
    exact ⟨congrArg _ (kept _), congrArg _ (kept _), congrArg _ (kept _)⟩

end Sys2Proof.Machine
end

section
/-!
PROOFS. Compares and conversions of vectors, and the moves of whole lanes, in a gang too (R136, R139 to R142, R145, R146).
-/

namespace Sys2Proof.Machine

/-! ### The instructions (R147, R152, R154) -/

section
variable {s : State} {i : Instr} {v : VForm} {q : Regs}

/-- A sequencer instruction without scalar operands completes with what its form makes of the registers. -/
theorem Completes.of_form (form : vform i = some v) (source : v.scalarSource = none) (dest : v.scalarDest = none)
    (still : v.kind ≠ .vrot) (h : v.perform ⟨s.regs.fcr, Elem.zero, s.member⟩ s.regs = q) :
    Completes i s [] [] (q.advance 4) := by
  have done := Completes.of_vector (exec_vector s form) source still h
  rwa [dest] at done

/-- A sequencer instruction with a scalar source captures it, and the leader's for `VROT` (R147, R154). -/
theorem Completes.of_performed {n : BitVec 5} (form : vform i = some v) (source : v.scalarSource = some n)
    (dest : v.scalarDest = none)
    (h : s.performed v s.regs.fcr (s.regs.get n) (s.leaderRegs.val n).toNat s.regs = q) :
    Completes i s [n] [] (q.advance 4) := fun ports => by
  have sources : v.scalarSource.toList = [n] := by rw [source]; rfl
  have dests : v.scalarDest.toList = [] := by rw [dest]; rfl
  rw [exec_vector s form, State.vector, sources, dests, s.issue_of_ok (s.setRegs (q.advance 4)) ports]
  · simp
  · simp only [source, Option.map_some, Option.getD_some, h]

end

section
variable (s : State)

/-- A thread outside a gang is the one member of its own (R152). -/
theorem State.members_eq : s.me.members s.curCore = gangCores s.curCore (max 1 s.me.gang) := by
  unfold Slot.members
  split
  next alone => simp [gangCores, alone]
  next gang => rw [Nat.max_eq_right (Nat.pos_of_ne_zero gang)]

theorem State.member_eq : s.member = s.curCore % max 1 s.me.gang := by
  unfold State.member
  split
  next alone => simp [alone, Nat.mod_one]
  next gang => rw [Nat.max_eq_right (Nat.pos_of_ne_zero gang)]

theorem State.leaderRegs_eq :
    s.leaderRegs = (s.slot (s.curCore / max 1 s.me.gang * max 1 s.me.gang) s.curSlot).regs := by
  unfold State.leaderRegs
  split
  next alone =>
    simp only [alone, Nat.max_zero, Nat.div_one, Nat.mul_one]
    rfl
  next gang => rw [Nat.max_eq_right (Nat.pos_of_ne_zero gang)]

/-- A lane of the ring of a group's registers is that of the member it lies in (R142). -/
theorem ringLane_gangCores (c member amount : Nat) {size : Nat} (pos : 0 < size) (n : Fin 8) (a : BitVec 5) (i : Fin 8) :
    ringLane ((gangCores c size).map fun m => (s.slot m n).regs.vec a) amount member i =
      ringLaneOf s (c / size * size) size member n a amount i := by
  have member_at {j : Nat} (lt : j < size) : ((gangCores c size).map fun m => (s.slot m n).regs.vec a).getD j
      (Vector.replicate 8 Elem.zero) = (s.slot (c / size * size + j) n).regs.vec a := by
    rw [List.getD_eq_getElem _ _ (by simpa [gangCores] using lt)]
    simp [gangCores]
  have inside : (8 * member + i.val + (8 * size - amount % (8 * size))) % (8 * size) / 8 < size :=
    Nat.div_lt_of_lt_mul (Nat.mod_lt _ (by omega))
  simp only [ringLane, ringLaneOf, List.length_map, (gangCores_nodup c size).1, member_at inside]
  rfl

end

/-- A form other than `VROT` is performed on the thread's own registers (R147). -/
theorem Completes.of_source {s : State} {i : Instr} {v : VForm} {q : Regs} {n : BitVec 5} (form : vform i = some v)
    (source : v.scalarSource = some n) (dest : v.scalarDest = none) (still : v.kind ≠ .vrot)
    (h : v.perform ⟨s.regs.fcr, s.regs.get n, s.curCore % max 1 s.me.gang⟩ s.regs = q) :
    Completes i s [n] [] (q.advance 4) :=
  .of_performed form source dest (by rwa [State.performed, if_neg still, s.member_eq])

/-! ### Compares (R136) -/

/-- A bit set or cleared is the only one that changes. -/
theorem getLsbD_setBit (m : BitVec 8) (x : Bool) (j : Nat) {i : Nat} (lt : i < 8) :
    (if x then m ||| 1#8 <<< j else m &&& ~~~(1#8 <<< j)).getLsbD i = if i = j then x else m.getLsbD i := by
  have one : (1#8 <<< j).getLsbD i = decide (i = j) := by
    simp only [BitVec.getLsbD_shiftLeft, BitVec.getLsbD_one, lt]
    grind
  cases x with
  | false =>
    simp only [Bool.false_eq_true, if_false, BitVec.getLsbD_and, BitVec.getLsbD_not, one, lt]
    by_cases same : i = j <;> simp [same]
  | true =>
    simp only [if_true, BitVec.getLsbD_or, one]
    by_cases same : i = j <;> simp [same]

/-- Bits set or cleared one after the other: a listed one is as its value, another as before. -/
theorem getLsbD_foldl_setBit (bit : Nat → Bool) {i : Nat} (lt : i < 8) (l : List Nat) : ∀ m : BitVec 8,
    (l.foldl (fun m j => if bit j then m ||| 1#8 <<< j else m &&& ~~~(1#8 <<< j)) m).getLsbD i =
      if i ∈ l then bit i else m.getLsbD i := by
  induction l with
  | nil => simp
  | cons j l ih =>
    intro m
    rw [List.foldl_cons, ih, getLsbD_setBit m _ j lt]
    by_cases here : i = j <;> by_cases later : i ∈ l <;> simp [here, later]

theorem vectorConversions : VectorConversions := by
  intro s d a b t ty k kd p r m four c holds
  refine ⟨.of_form rfl rfl rfl nofun rfl, .of_form rfl rfl rfl nofun rfl, .of_form rfl rfl rfl nofun rfl,
    (enabled m (lanesOf ty)).foldl (fun q j => if holds j then q ||| 1#8 <<< j else q &&& ~~~(1#8 <<< j)) (r.mask kd),
    .of_form rfl rfl rfl nofun ?_, fun i lt => ?_⟩
  · have target : (kd.zeroExtend 5).setWidth 3 = kd := by simp
    have predicate : (p.zeroExtend 5).toNat = p.toNat := BitVec.toNat_setWidth_of_le (by norm_num)
    simp only [VForm.perform, Regs.vcmp, target, predicate]
    rfl
  · rw [getLsbD_foldl_setBit holds lt]
    simp [enabled, and_comm]

/-! ### Lanes (R141, R142, R145, R146, R152) -/

/-- A code of `VLUT` names half a lane of its table (R145). -/
theorem vecBits_half (v : Vector Elem 8) {c : Nat} (lt : c < 16) : vecBits v / 2 ^ (16 * c) % 2 ^ 16 =
    v[Fin.ofNat 8 (c / 2)].val.toNat / 2 ^ (16 * (c % 2)) % 2 ^ 16 := by
  have half := field_of_lanes (fun i => vecBits_lane v (i := i)) (w := 16) (p := 16 * c) (by omega) (by omega)
  simp only [show 16 * c / 32 = c / 2 by omega, show 16 * c % 32 = 16 * (c % 2) by omega] at half
  exact half.symm

theorem vlut_eq (r : Regs) (d a ty : BitVec 5) (k : BitVec 3) : r.vlut ⟨.vlut, d, a, 0, k, ty, 0⟩ =
    r.vlanes d (r.mask k) fun i =>
      let c := (r.lane a 0).val.toNat / 2 ^ (4 * i.val) % 16
      let e := (r.lane d (Fin.ofNat 8 (c / 2))).val.toNat / 2 ^ (16 * (c % 2)) % 2 ^ 16
      ⟨BitVec.ofNat 32 (elCvt 10 9 ⟨BitVec.ofNat 64 e, 0⟩).bits.toNat, 0⟩ := by
  refine congrArg (r.vlanes d (r.mask k)) (funext fun i => ?_)
  simp only [BitVec.ofNat_toNat]
  rw [vecBits_half _ (Nat.mod_lt _ (by norm_num))]
  rfl

/-- `VROT` of a thread rotates the ring of its gang, or its own lanes (R142). -/
theorem State.performed_vrot (s : State) (v : VForm) (h : v.kind = .vrot) (fcr : Word) (x : Elem) (amount : Nat) (r : Regs) :
    let size := max 1 s.me.gang
    s.performed v fcr x amount r = r.vlanes v.d (r.mask v.k)
      (ringLaneOf s (s.curCore / size * size) size (s.curCore % size) s.curSlot v.a amount) := by
  intro size
  rw [State.performed, if_pos h, Regs.vrot, State.ring, s.members_eq, s.member_eq]
  exact congrArg _ (funext fun i => ringLane_gangCores s _ _ _ (by omega) _ _ i)

theorem vectorLaneMoves : VectorLaneMoves := by
  intro s d a b ty k r size first member led lanes m
  refine ⟨?tailget, ?tailset, ?shuf, ?rot, ?bcast, ?sel, ?idx, ?rndk, ?lut⟩
  case tailget => exact .of_form rfl rfl rfl nofun rfl
  case tailset =>
    simp only [BitVec.ofNat_toNat]
    exact .of_form rfl rfl rfl nofun rfl
  case shuf => exact .of_form rfl rfl rfl nofun rfl
  case rot =>
    refine .of_performed rfl rfl rfl ?_
    rw [s.performed_vrot _ rfl, s.leaderRegs_eq]
    rfl
  case bcast => exact .of_source rfl rfl rfl nofun rfl
  case sel => exact .of_form rfl rfl rfl nofun rfl
  case idx => exact .of_source rfl rfl rfl nofun rfl
  case rndk =>
    rw [← seedOf_eq]
    exact .of_source rfl rfl rfl nofun rfl
  case lut => exact .of_form rfl rfl rfl nofun (vlut_eq r d a ty k)

/-! ### A rotation that waits in the sequencer (R142, R147, R154) -/

/-- In the first iteration the strides leave a field of a vector register the register that it names (R150). -/
theorem setWidth_first (f : BitVec 5) (w : BitVec 4) :
    (BitVec.ofNat 5 ((f.toNat + 0 * w.toNat) % 16)).setWidth 4 = f.setWidth 4 := by
  apply BitVec.eq_of_toNat_eq
  simp

theorem ofNat_first (k : BitVec 3) (w : Nat) : BitVec.ofNat 3 ((k.toNat + 0 * w) % 8) = k := by
  apply BitVec.eq_of_toNat_eq
  simpa using k.isLt

/-- The form of a rotation in its first iteration names the registers of its instruction (R150). -/
theorem SeqEntry.form_vrot {e : SeqEntry} {d a b : BitVec 5} {k : BitVec 3} (body : e.body = [.vrot d a b k])
    (pos : e.pos = 0) (iter : e.iter = 0) :
    ∃ v, e.form = some v ∧ v.kind = .vrot ∧ v.scalarSource = some b ∧ v.k = k ∧
      v.d.setWidth 4 = d.setWidth 4 ∧ v.a.setWidth 4 = a.setWidth 4 :=
  ⟨_, by rw [SeqEntry.form, body, pos, iter]; rfl, rfl, rfl, ofNat_first .., setWidth_first .., setWidth_first ..⟩

/-- An element operation of a gang's rotation works on the ring of all members, with the amount that the leader's entry of
the gang gives (R142, R154). -/
theorem State.seqRegs_vrot {s : State} {c : Nat} {n : Fin 8} {e l : SeqEntry} {v : VForm} (r : Regs)
    (here : (s.core c).seqHead n = some e) (form : e.form = some v) (kind : v.kind = .vrot) (gang : e.gang ≠ 0)
    (lead : (s.core (c / e.gang * e.gang)).seqHead n = some l) (same : l.gang = e.gang) :
    s.seqRegs c n r = some (r.vlanes v.d (r.mask v.k) (ringLaneOf s (c / e.gang * e.gang) e.gang (c % e.gang) n v.a
      (l.source v (s.slot (c / e.gang * e.gang) n).regs).val.toNat)) := by
  have ring := funext (ringLane_gangCores s c (c % e.gang) (l.source v (s.slot (c / e.gang * e.gang) n).regs).val.toNat
    (Nat.pos_of_ne_zero gang) n v.a)
  simp [State.seqRegs, here, form, kind, gang, lead, same, Regs.vrot, ring]

theorem gangRotation : GangRotation := by
  intro s c n d a b k e l x r first here lead gang same body pos iter _ captured
  obtain ⟨v, form, kind, source, mask, dest, ring⟩ := e.form_vrot body pos iter
  have amount : l.source v (s.slot first n).regs = x := by simp [SeqEntry.source, source, captured]
  rw [State.seqRegs_vrot r here form kind gang lead same, amount, mask]
  simp only [Regs.vlanes, ringLaneOf, Regs.lane, Regs.vec, Regs.setVec, dest, ring, first]

/-- Settles O15: each instruction completes with what its form makes of the registers; a rotation in a gang, issued or
waiting, works on the ring of the members. -/
theorem vectorConversionsAndMoves : Obligations.VectorConversionsAndMoves :=
  ⟨vectorConversions, vectorLaneMoves, gangRotation⟩

end Sys2Proof.Machine
end

section
/-!
PROOFS. The capture of a loop's body, and gangs that form and split (R149, R150, R153, R155).
-/

namespace Sys2Proof.Machine

/-! ### Own changes that complete -/

section
variable (s : State) (f : Slot → Slot) (r : Regs)

/-- A change of the own slot and of its registers is one change of the slot. -/
theorem State.setRegs_updMe :
    (s.updMe f).setRegs r = s.setSlot s.curCore s.curSlot { f s.me with regs := r } := by
  rw [State.setRegs_eq, State.me_updMe, State.updMe_eq]
  exact State.setSlot_setSlot ..

/-- An instruction without a destination leaves its registers with the port words consumed (R31). -/
theorem State.completed_noDests (srcs : List (BitVec 5)) : s.completed srcs [] r = s.setRegs (r.consume srcs) := rfl

/-- Registers that are replaced by themselves leave every slot. -/
theorem State.slot_setRegs_self (c : Nat) (n : Fin 8) : (s.setRegs s.regs).slot c n = s.slot c n :=
  s.slot_setSlot_keeps id rfl

end

/-! ### `VLOOP` (R149, R150) -/

/-- A stride word is a half of an extension register (R150). -/
theorem Regs.strides_getElem? (r : Regs) (b : Fin 16) : r.strides[b.val]? =
    some (BitVec.ofNat 16 ((r.ext (BitVec.ofNat 3 (b.val / 2))).toNat / 2 ^ (16 * (b.val % 2)))) := by
  have half (x : Word) (i : Nat) : x.extractLsb' i 16 = BitVec.ofNat 16 (x.toNat / 2 ^ i) :=
    BitVec.eq_of_toNat_eq (by simp [Nat.shiftRight_eq_div_pow])
  simp [Regs.strides, half]

/-- `VLOOP` of a thread outside a gang opens the capture with the own count and strides (R149). -/
theorem exec_vloop {s : State} {n a : BitVec 5} (alone : s.me.gang = 0) (ports : s.portsReady [a] []) :
    exec (.vloop n a) s = .next (s.setSlot s.curCore s.curSlot { s.me with
      loop := some ⟨n.toNat + 1, (s.regs.val a).toNat, s.regs.strides, []⟩, regs := (s.regs.advance 4).consume [a] }) := by
  have own : s.leaderRegs = s.regs := if_pos alone
  refine congrArg _ ((s.issue_of_ok _ ports (by rw [own])).trans ?_)
  rw [State.completed_setRegs, State.completed_noDests, State.setRegs_updMe, State.regs_setRegs]

/-! ### `GANG` (R153) -/

/-- The cores of a group are those that the group's size divides alike (R15). -/
theorem mem_gangCores {c m g : Nat} (pos : 0 < g) : m ∈ gangCores c g ↔ m / g = c / g := by
  simp only [gangCores, List.mem_map, List.mem_range]
  constructor
  · rintro ⟨i, lt, rfl⟩
    rw [Nat.mul_comm, Nat.mul_add_div pos, Nat.div_eq_of_lt lt, Nat.add_zero]
  · intro same
    exact ⟨m % g, Nat.mod_lt _ pos, by rw [← same, Nat.mul_comm, Nat.div_add_mod]⟩

/-- The issuing slot's number changed on different cores: each slot reads as its own change leaves it. -/
theorem State.slot_foldl_updSlot (f : Nat → Slot → Slot) (l : List Nat) : ∀ s : State, l.Nodup → ∀ m ∈ l,
    (l.foldl (fun s c => s.updSlot c s.curSlot (f c)) s).slot m s.curSlot = f m (s.slot m s.curSlot) := by
  have others (l : List Nat) (m : Nat) : ∀ s : State, m ∉ l →
      (l.foldl (fun s c => s.updSlot c s.curSlot (f c)) s).slot m s.curSlot = s.slot m s.curSlot := by
    induction l with
    | nil => exact fun _ _ => rfl
    | cons c l ih =>
      intro s out
      rw [List.mem_cons, not_or] at out
      exact (ih _ out.2).trans (s.slot_setSlot_ne _ fun same => out.1 same.1)
  induction l with
  | nil => exact fun _ _ => nofun
  | cons c l ih =>
    intro s distinct m listed
    rw [List.nodup_cons] at distinct
    rcases List.mem_cons.1 listed with rfl | later
    · exact (others l m _ distinct.1).trans (s.slot_setSlot ..)
    · have ne : m ≠ c := fun same => distinct.1 (same ▸ later)
      exact (ih _ distinct.2 m later).trans (congrArg (f m) (s.slot_setSlot_ne _ fun same => ne same.1))

/-- The slot of the member on core `m` when a gang of `g` forms (R153). -/
def Slot.entersGang (t : Slot) (g m : Nat) (pc : Word) : Slot :=
  { t with
    gang := g, gangWait := 0, state := if m % g = 0 then .ready else .follow
    regs := { t.regs with pc := pc } }

section
variable {s : State} {z : BitVec 3}

/-- The thread of a core waits at `GANG` of a size for the issuing thread (R153, entry 69). -/
def State.waitsFor (s : State) (g m : Nat) : Prop :=
  (s.slot m s.curSlot).state = .ready ∧ (s.slot m s.curSlot).gangWait = g ∧ (s.slot m s.curSlot).gang = 0 ∧
    (s.slot m s.curSlot).tenant = s.me.tenant

theorem State.gang_partners {g : Nat} (pos : 0 < g) :
    ((gangCores s.curCore g).filter (· != s.curCore)).all
        (fun m => (s.slot m s.curSlot).awaitsGang g s.me.tenant) = true ↔
      ∀ m, m / g = s.curCore / g → m ≠ s.curCore → s.waitsFor g m := by
  simp only [List.all_filter, List.all_eq_true, mem_gangCores pos, Slot.awaitsGang, State.waitsFor]
  simp [or_iff_not_imp_left, and_assoc]

/-- A thread outside a gang tries to form one and stays where the try leaves it (R153). -/
theorem exec_gang_alone (alone : s.me.gang = 0) : exec (.gang z) s = .next
    ((s.joinGang (2 ^ z.toNat)).setRegs (s.joinGang (2 ^ z.toNat)).regs) := by
  refine congrArg _ ((s.issue_of_ok _ s.portsReady_nil (if_neg (not_not_intro alone))).trans ?_)
  rw [State.completed_nil]

theorem exec_gang_waits {g : Nat} (size : 2 ^ z.toNat = g) (alone : s.me.gang = 0)
    (missing : ¬∀ m, m / g = s.curCore / g → m ≠ s.curCore → s.waitsFor g m) :
    exec (.gang z) s = .next (s.setSlot s.curCore s.curSlot { s.me with gangWait := g }) := by
  subst size
  have waiting : s.joinGang (2 ^ z.toNat) = s.updMe fun t => { t with gangWait := 2 ^ z.toNat } :=
    if_neg (mt (State.gang_partners (by positivity)).1 missing)
  rw [exec_gang_alone alone, waiting, State.setRegs_updMe, State.regs, State.me_updMe]

theorem exec_gang_forms {g : Nat} (size : 2 ^ z.toNat = g) (alone : s.me.gang = 0)
    (partners : ∀ m, m / g = s.curCore / g → m ≠ s.curCore → s.waitsFor g m) :
    ∃ t, exec (.gang z) s = .next t ∧ ∀ m, m / g = s.curCore / g → t.slot m s.curSlot =
      (s.slot m s.curSlot).entersGang g m ((s.slot (s.curCore / g * g) s.curSlot).regs.pc + 4) := by
  subst size
  refine ⟨_, exec_gang_alone alone, fun m inGroup => ?_⟩
  rw [State.slot_setRegs_self, State.joinGang, if_pos ((State.gang_partners (by positivity)).2 partners)]
  exact State.slot_foldl_updSlot (fun m t => t.entersGang (2 ^ z.toNat) m
    ((s.slot (s.curCore / 2 ^ z.toNat * 2 ^ z.toNat) s.curSlot).regs.pc + 4)) _ s (gangCores_nodup ..).2 m
    ((mem_gangCores (by positivity)).2 inGroup)

/-- In a gang `GANG` only moves on (R153). -/
theorem exec_gang_member (member : s.me.gang ≠ 0) : Completes (.gang z) s [] [] (s.regs.advance 4) := fun ports => by
  refine congrArg _ ((s.issue_of_ok _ ports (if_pos member)).trans ?_)
  rw [State.completed_setRegs, State.regs_setRegs]

end

/-! ### `SPLIT` (R155) -/

/-- `SPLIT` takes the issuing thread out of its gang and moves it on. -/
theorem exec_split (s : State) : exec .split s = .next (s.setSlot s.curCore s.curSlot
    { s.me.leaveGang with regs := s.regs.advance 4 }) := by
  refine congrArg _ ((s.issue_of_ok ((s.updMe Slot.leaveGang).setRegs (s.regs.advance 4)) s.portsReady_nil rfl).trans ?_)
  rw [State.completed_nil, State.regs_setRegs, State.setRegs_setRegs, State.setRegs_updMe]

/-- A thread that leaves a gang follows no more, unless a fault of it waits (R155). -/
theorem Slot.leaveGang_state {t : Slot} (clear : t.pendFault = none) : t.leaveGang.state ≠ .follow := by
  have waiting : t.wait.state ≠ .follow := by cases t.wait <;> nofun
  simp only [Slot.leaveGang, clear, Option.isSome_none, Bool.or_false]
  split
  next kept =>
    rw [Bool.or_eq_true, decide_eq_true_eq, decide_eq_true_eq] at kept
    rcases kept with parked | free
    · rw [parked]; nofun
    · rw [free]; nofun
  next => exact waiting

theorem gangsFormAndSplit : GangsFormAndSplit := by
  intro s z _ _ g n waits lead others
  refine ⟨exec_gang_waits rfl, exec_gang_forms rfl, exec_gang_member, _, exec_split s, ?_, ?_, fun clear => ?_,
    fun c m other => s.slot_setSlot_ne _ other⟩
  · exact congrArg Slot.gang (s.slot_setSlot ..)
  · exact congrArg Slot.regs (s.slot_setSlot ..)
  · rw [State.me, State.setSlot_curCore, State.setSlot_curSlot, State.slot_setSlot]
    exact Slot.leaveGang_state clear

/-- Settles O18: `VLOOP` and `SPLIT` change the issuing thread's slot alone; a group's slots are distinct, so that each
member of a gang that forms is as its own change leaves it. -/
theorem loopsAndGangs : Obligations.LoopsAndGangs := by
  refine ⟨fun s n a alone ports => ?_, gangsFormAndSplit⟩
  refine ⟨_, exec_vloop alone ports, ?_, ?_, fun c m other => s.slot_setSlot_ne _ other, s.regs.strides_getElem?⟩
  · exact congrArg Slot.loop (s.slot_setSlot ..)
  · exact congrArg Slot.regs (s.slot_setSlot ..)

end Sys2Proof.Machine
end

section
/-!
PROOFS. Fences and barriers (R159, R176, R178 to R180, R188, R258): what an acquire leaves, what an arrival makes of its
barrier, and that the sleepers it wakes are other threads.
-/

namespace Sys2Proof.Machine

section
variable {s t : State}

/-- An instruction with a scope field whose body waits leaves the state it waits in. -/
theorem State.scoped_of_wait {i : Instr} {srcs dsts : List (BitVec 5)} {body : State → Run}
    (ready : s.portsReady srcs dsts) (waits : body s = .error (.wait t)) : s.scoped i srcs dsts body = t := by
  simp [State.scoped, s.preparePorts_of_ready ready, waits, atScope, State.finish]

theorem KeepsMe.regs (kept : KeepsMe s t) : t.regs = s.regs := congrArg Slot.regs kept.me

@[simp] theorem State.regs_acquire (s : State) (scope : BitVec 3) : (s.acquire scope).regs = s.regs :=
  (KeepsMe.acquire s scope).regs

/-- An acquire is of the issuing thread's package alone (R258). -/
theorem State.barriers_acquire (s : State) (scope : BitVec 3) : (s.acquire scope).barriers = s.barriers := by
  unfold State.acquire
  split <;> rfl

/-! ### Fences (R159, R176, R258) -/

/-- Outside pod scope an acquire has nothing to do (R258). -/
theorem State.acquire_near {scope : BitVec 3} (h : scope ≠ 5) : s.acquire scope = s := if_neg h

/-- At pod scope it raises the floor, and keeps the copies that are not from before it (R258). -/
theorem State.acquire_pod (s : State) :
    let p := s.pkg (pkgOf s.curCore)
    let q := (s.acquire 5).pkg (pkgOf s.curCore)
    q.floor = p.stamp + 1 ∧ ∀ x, x ∈ q.copies ↔ x ∈ p.copies ∧ 0 ≤ (x.stamp - (p.stamp + 1)).toInt := by
  intro p q
  have raised : q = { p with floor := p.stamp + 1, copies := p.copies.filter fun c => notBefore c.stamp (p.stamp + 1) } :=
    State.pkg_setPkg ..
  rw [raised]
  exact ⟨rfl, fun x => by simp [notBefore]⟩

/-- A fence that acquires acquires and moves on. -/
theorem State.issue_acquire (s : State) (scope : BitVec 3) :
    s.issue [] [] (fun s => .ok ((s.acquire scope).setRegs ((s.acquire scope).regs.advance 4))) =
      (s.acquire scope).setRegs (s.regs.advance 4) := by
  rw [s.issue_of_ok (body := fun s => .ok ((s.acquire scope).setRegs ((s.acquire scope).regs.advance 4))) _ s.portsReady_nil
    rfl, State.completed_nil, State.regs_setRegs, State.setRegs_setRegs, State.regs_acquire]

theorem fences : Fences := by
  intro s scope
  refine ⟨congrArg Host.Outcome.next (s.issue_acquire scope), congrArg Host.Outcome.next (s.issue_acquire scope),
    congrArg Host.Outcome.next ?_, s.acquire_pod,
    State.acquire_near⟩
  rw [State.plain_of_ready s s.portsReady_nil]
  exact s.completed_nil _

/-! ### A barrier's record (R42, R178) -/

/-- A barrier names its tenant and its place. -/
theorem State.barrier_names (s : State) (ten level inst : Nat) :
    (s.barrier ten level inst).tenant = ten ∧ (s.barrier ten level inst).level = level ∧
      (s.barrier ten level inst).inst = inst := by
  unfold State.barrier
  cases found : s.barriers.find? fun b => b.tenant == ten && b.level == level && b.inst == inst with
  | none => exact ⟨rfl, rfl, rfl⟩
  | some b => simpa [and_assoc] using List.find?_some found

/-- A barrier that was replaced reads as replaced. -/
theorem State.barrier_setBarrier (s : State) {b : Barrier} {ten level inst : Nat}
    (names : b.tenant = ten ∧ b.level = level ∧ b.inst = inst) : (s.setBarrier b).barrier ten level inst = b := by
  obtain ⟨rfl, rfl, rfl⟩ := names
  simp [State.barrier, State.setBarrier]

theorem State.barrier_congr (same : t.barriers = s.barriers) (ten level inst : Nat) :
    t.barrier ten level inst = s.barrier ten level inst := by simp only [State.barrier, same]

/-! ### Sleepers wake (R178, R179) -/

/-- What the wakes of other threads leave: barriers, storage and the issuing thread. -/
structure KeepsSync (s t : State) : Prop extends KeepsMe s t where
  barriers : t.barriers = s.barriers

theorem KeepsSync.refl (s : State) : KeepsSync s s := ⟨.refl s, rfl⟩

theorem KeepsSync.trans {u : State} (h : KeepsSync s t) (g : KeepsSync t u) : KeepsSync s u :=
  ⟨h.toKeepsMe.trans g.toKeepsMe, g.barriers.trans h.barriers⟩

theorem KeepsSync.awake (kept : KeepsSync s t) (awake : s.me.wait = .none) : t.me.wait = .none := by
  rw [kept.me, awake]

/-- Steps that keep a thread which does not wait keep it together. -/
theorem KeepsSync.foldl {α : Type} {f : State → α → State} (h : ∀ s x, s.me.wait = .none → KeepsSync s (f s x)) (l : List α) :
    ∀ s : State, s.me.wait = .none → KeepsSync s (l.foldl f s) := by
  induction l with
  | nil => exact fun s _ => .refl s
  | cons x l ih => exact fun s awake => (h s x awake).trans (ih _ ((h s x awake).awake awake))

theorem State.slot_pushDown_updMe (u : State) (f : Slot → Slot) {d : Nat} {m : Fin 8}
    (other : ¬(d = u.curCore ∧ m = u.curSlot)) : (u.updMe f).pushDown.slot d m = u.slot d m := by
  have own : ¬(d = (u.updMe f).curCore ∧ m = (u.updMe f).curSlot) := other
  rw [State.slot_pushDown _ own, State.slot_updMe _ _ other]

/-- A sleeper that completes changes its own slot, its package's copies and what its push reaches. -/
theorem KeepsSync.wakePhase (s : State) (c : Nat) (n : Fin 8) (awake : s.me.wait = .none) : KeepsSync s (s.wakePhase c n) := by
  unfold State.wakePhase
  dsimp only
  split
  next level p i wait held =>
    split
    · exact .refl s
    · refine ⟨KeepsMe.as s ?_ (fun t => ?_) (fun t d m other => ?_), ?_⟩
      · rintro ⟨rfl, rfl⟩
        exact Wait.noConfusion (wait.symm.trans awake)
      · exact ((SameStorage.acquire t _).trans (.updMe ..)).trans (.pushDown _)
      · have core : (t.acquire (BitVec.ofNat 3 level)).curCore = t.curCore := (KeepsMe.acquire ..).core
        have slot : (t.acquire (BitVec.ofNat 3 level)).curSlot = t.curSlot := (KeepsMe.acquire ..).slot
        have own : ¬(d = (t.acquire (BitVec.ofNat 3 level)).curCore ∧ m = (t.acquire (BitVec.ofNat 3 level)).curSlot) := by
          rw [core, slot]
          exact other
        rw [State.slot_pushDown_updMe _ _ own, State.slot_acquire]
      · exact (Framed.pushDown _).barriers.trans (State.barriers_acquire _ _)
  next => exact .refl s

theorem KeepsSync.wakePhases (s : State) (awake : s.me.wait = .none) : KeepsSync s s.wakePhases :=
  .foldl (fun s _ awake => .foldl (fun s n awake => .wakePhase s _ n awake) _ s awake) _ s awake

/-- A staged table that is installed is no part of the issuing thread (R188, R290). -/
theorem KeepsSync.installTurns (s : State) (c ten : Nat) : KeepsSync s (s.updCore c (·.installTurns ten)) := by
  have slots (k : Core) : (k.installTurns ten).slots = k.slots ∧ (k.installTurns ten).loc = k.loc ∧
      (k.installTurns ten).ltags = k.ltags := by
    unfold Core.installTurns
    repeat' split
    all_goals exact ⟨rfl, rfl, rfl⟩
  exact ⟨⟨.updCore s c _ (slots _).2.1 (slots _).2.2, rfl, rfl, s.slot_updCore c _ (slots _).1 _ _⟩, rfl⟩

/-! ### Arrivals (R178, R179) -/

/-- A phase that its arrivals complete is counted, and the thread that arrived stays as it is. -/
theorem State.settleBarrier_full {b : Barrier} (full : b.full = true) (awake : s.me.wait = .none) :
    KeepsSync (s.setBarrier b.complete) (s.settleBarrier b) := by
  rw [State.settleBarrier, full]
  dsimp only [Bool.not_true, Bool.false_eq_true, if_false]
  have installed : KeepsSync (s.setBarrier b.complete) (if b.level = 1
      then (s.setBarrier b.complete).updCore b.inst (·.installTurns b.tenant) else s.setBarrier b.complete) := by
    split
    · exact .installTurns ..
    · exact .refl _
  exact installed.trans (.wakePhases _ (installed.awake awake))

theorem State.settleBarrier_waits {b : Barrier} (full : b.full = false) : s.settleBarrier b = s.setBarrier b := by
  simp [State.settleBarrier, full]

/-- The record of a barrier after an arrival that its phase waits for: counted at once within a die, a signal beyond. -/
def Barrier.withArrival (b : Barrier) (level core : Nat) : Barrier :=
  if level ≤ 3 then { b with arrived := b.arrived ++ [core] } else { b with signals := b.signals ++ [core] }

/-- Whether one more arrival completes the phase of a barrier within a die. -/
def Barrier.lastArrival (b : Barrier) (level : Nat) : Prop := level ≤ 3 ∧ max 1 b.expect ≤ b.arrived.length + 1 + b.lost

section
variable {ten level core : Nat}

theorem Barrier.full_withArrival {b : Barrier} (near : level ≤ 3) :
    (b.withArrival level core).full = true ↔ b.lastArrival level := by
  simp [Barrier.full, Barrier.withArrival, Barrier.lastArrival, near]

theorem State.arrive_waits (more : ¬(s.barrier ten level (instanceOf level core)).lastArrival level) :
    s.arrive ten level core = s.setBarrier ((s.barrier ten level (instanceOf level core)).withArrival level core) := by
  by_cases near : level ≤ 3
  · have full := mt (Barrier.full_withArrival (core := core) near).1 more
    simp only [Barrier.withArrival, near, if_true] at full ⊢
    simp only [State.arrive, near, if_true]
    exact State.settleBarrier_waits (Bool.eq_false_iff.2 full)
  · simp [State.arrive, Barrier.withArrival, near]

theorem State.arrive_last (last : (s.barrier ten level (instanceOf level core)).lastArrival level)
    (awake : s.me.wait = .none) :
    KeepsMe s (s.arrive ten level core) ∧ (s.arrive ten level core).barrier ten level (instanceOf level core) =
      (s.barrier ten level (instanceOf level core)).complete := by
  have near := last.1
  have full := (Barrier.full_withArrival (core := core) near).2 last
  have settled := State.settleBarrier_full full awake
  simp only [Barrier.withArrival, near, if_true] at settled
  have arrive : s.arrive ten level core = s.settleBarrier { s.barrier ten level (instanceOf level core) with
      arrived := (s.barrier ten level (instanceOf level core)).arrived ++ [core] } := by
    simp only [State.arrive, near, if_true, State.arriveAt]
  rw [arrive]
  refine ⟨⟨⟨settled.storage.global, settled.storage.tags, settled.storage.locals⟩, settled.core, settled.slot, settled.me⟩, ?_⟩
  rw [State.barrier_congr settled.barriers]
  exact s.barrier_setBarrier (s.barrier_names ..)

/-! ### Barrier instructions -/

theorem State.barrierBody_outside {f : State → Run} (views : s.me.views = []) : s.barrierBody f = f s := by
  simp [State.barrierBody, views]

theorem State.barrierBody_inside {f : State → Run} (views : s.me.views ≠ []) :
    s.barrierBody f = .error (.trap s escape) := if_pos views

/-- An arrival that its phase waits for leaves the phase. -/
theorem State.phase_arrive_waits (more : ¬(s.barrier ten level (instanceOf level core)).lastArrival level) :
    (s.arrive ten level core).phase ten level core = s.phase ten level core := by
  rw [State.arrive_waits more, State.phase, State.barrier_setBarrier]
  · unfold Barrier.withArrival
    split <;> rfl
  · unfold Barrier.withArrival
    split <;> exact s.barrier_names ..

end

variable {scope : BitVec 3} {d : BitVec 5}

/-- The slot that sleeps in a barrier instruction until a phase has passed (R179). -/
def State.sleepsFor (s : State) (i : Instr) (level : Nat) (p : BitVec 16) : State :=
  s.updMe fun t => { t.block .sleep (.phase level p) with held := some i }

/-- The barrier of a scope at which the issuing thread stands. -/
def State.myBarrier (s : State) (scope : BitVec 3) : Barrier :=
  s.barrier s.me.tenant scope.toNat (instanceOf scope.toNat s.home)

/-- `BARQ` outside every view arrives and goes on with the phase it read, whichever its arrival is. -/
theorem exec_barq (views : s.me.views = []) (ready : s.portsReady [] [d])
    (kept : (s.arrive s.me.tenant scope.toNat s.home).regs = s.regs) :
    exec (.barq d scope) s = .next ((s.arrive s.me.tenant scope.toNat s.home).completed [] [d]
      (s.wrote d ((s.myBarrier scope).phase.zeroExtend 32) 4)) := by
  refine congrArg Host.Outcome.next ((State.scoped_of_ok s _ ready (State.barrierBody_outside views)).trans ?_)
  rw [State.completed_setRegs, State.regs_setRegs]
  exact congrArg (fun r : Regs => State.completed _ _ _ ((r.setVal d _).advance 4)) kept

/-- `BAR` sleeps while the phase waits for further arrivals. -/
theorem exec_bar_waits (views : s.me.views = []) (more : ¬(s.myBarrier scope).lastArrival scope.toNat) :
    exec (.bar scope) s = .next ((s.setBarrier ((s.myBarrier scope).withArrival scope.toNat s.home)).sleepsFor (.bar scope)
      scope.toNat (s.myBarrier scope).phase) := by
  refine congrArg Host.Outcome.next (State.scoped_of_wait s.portsReady_nil ((State.barrierBody_outside views).trans ?_))
  have still : ¬(s.arrive s.me.tenant scope.toNat s.me.home).phase s.me.tenant scope.toNat s.me.home ≠
      s.phase s.me.tenant scope.toNat s.me.home := not_not.2 (State.phase_arrive_waits more)
  refine (if_neg still).trans ?_
  rw [show s.arrive s.me.tenant scope.toNat s.me.home = _ from State.arrive_waits more]
  rfl

/-- `BAR` whose arrival is the last acquires and moves on. -/
theorem exec_bar_last (views : s.me.views = []) (last : (s.myBarrier scope).lastArrival scope.toNat)
    (awake : s.me.wait = .none) :
    exec (.bar scope) s = .next (((s.arrive s.me.tenant scope.toNat s.home).acquire scope).setRegs (s.regs.advance 4)) := by
  obtain ⟨kept, complete⟩ := State.arrive_last last awake
  have passed : (s.arrive s.me.tenant scope.toNat s.me.home).phase s.me.tenant scope.toNat s.me.home ≠
      s.phase s.me.tenant scope.toNat s.me.home := by
    have next : (s.arrive s.me.tenant scope.toNat s.me.home).phase s.me.tenant scope.toNat s.me.home =
        s.phase s.me.tenant scope.toNat s.me.home + 1 := congrArg Barrier.phase complete
    rw [next]
    intro same
    exact absurd (BitVec.add_left_eq_self.1 (by rw [BitVec.add_comm]; exact same)) (by decide)
  refine congrArg Host.Outcome.next ((State.scoped_of_ok s _ s.portsReady_nil ((State.barrierBody_outside views).trans (if_pos passed))).trans ?_)
  rw [State.completed_nil, State.regs_setRegs, State.setRegs_setRegs, State.regs_acquire]
  exact congrArg (fun r : Regs => State.setRegs _ (r.advance 4)) kept.regs

/-- `BARW` goes on where the phase that it names has passed, and sleeps where it stands. -/
theorem exec_barw (views : s.me.views = []) :
    exec (.barw d scope) s = .next (if (s.myBarrier scope).phase = (s.regs.val d).setWidth 16
      then s.sleepsFor (.barw d scope) scope.toNat (s.myBarrier scope).phase
      else (s.acquire scope).setRegs (s.wrote d ((s.myBarrier scope).phase.zeroExtend 32) 4)) := by
  refine congrArg Host.Outcome.next ?_
  by_cases stands : (s.myBarrier scope).phase = (s.regs.val d).setWidth 16
  · rw [if_pos stands]
    refine State.scoped_of_wait s.portsReady_nil ((State.barrierBody_outside views).trans ((if_neg (not_not.2 stands)).trans ?_))
    rw [stands]
    rfl
  · rw [if_neg stands]
    refine (State.scoped_of_ok s _ s.portsReady_nil ((State.barrierBody_outside views).trans (if_pos stands))).trans ?_
    rw [State.completed_nil, State.regs_setRegs, State.setRegs_setRegs, State.regs_acquire]
    rfl

end

/-- What a barrier instruction does inside a view: it escapes, with its scope code (R160). -/
theorem exec_barrier_escapes {a : BitVec 5} (views : s.me.views ≠ []) (ready : s.portsReady [] [d]) :
    exec (.bar scope) s = .next (s.trapMe ⟨6, 0, 0, scope⟩) ∧ exec (.barw d scope) s = .next (s.trapMe ⟨6, 0, 0, scope⟩) ∧
      exec (.barq d scope) s = .next (s.trapMe ⟨6, 0, 0, scope⟩) ∧ exec (.slott a) s = .next (s.trapMe ⟨6, 0, 0, 0⟩) := by
  have inside {f : State → Run} : s.barrierBody f = .error (.trap s escape) := State.barrierBody_inside views
  have escapes {i : Instr} {dsts : List (BitVec 5)} {f : State → Run} (ready : s.portsReady [] dsts) :
      s.scoped i [] dsts (fun s => s.barrierBody f) = s.trapMe ⟨6, 0, 0, scopeOf i⟩ :=
    State.scoped_of_trap (f := escape) (body := fun s => s.barrierBody f) s s ready inside
  have plain {f : State → Run} : s.issue [] [] (fun s => s.barrierBody f) = s.trapMe ⟨6, 0, 0, 0⟩ :=
    State.issue_of_trap (f := escape) (body := fun s => s.barrierBody f) s s s.portsReady_nil inside
  exact ⟨congrArg Host.Outcome.next (escapes s.portsReady_nil), congrArg Host.Outcome.next (escapes s.portsReady_nil),
    congrArg Host.Outcome.next (escapes ready), congrArg Host.Outcome.next plain⟩

/-- `SLOTT` stages the 28 bytes of its vector register under its tenant (R188). -/
theorem exec_slott {a : BitVec 5} (views : s.me.views = []) :
    exec (.slott a) s = .next ((s.updCore s.home fun q => { q with staged := some (s.me.tenant, (List.range 28).map
      fun i => ((s.regs.vec a)[Fin.ofNat 8 (i / 4)]).val.extractLsb' (8 * (i % 4)) 8) }).setRegs (s.regs.advance 4)) := by
  refine congrArg Host.Outcome.next ((s.issue_of_ok _ s.portsReady_nil (State.barrierBody_outside views)).trans ?_)
  rw [State.completed_nil, State.regs_setRegs, State.setRegs_setRegs]
  exact congrArg (fun t : Slot => State.setRegs _ (t.regs.advance 4)) (s.slot_updCore _ _ rfl _ _)

theorem barriers : Barriers := by
  intro s d a scope n k b one last next waits v
  refine ⟨fun views => ⟨fun more ready => ?_, fun more => exec_bar_waits views more, fun full awake ready => ?_,
    fun full awake => ?_, fun passed => ?_, fun stands => ?_, exec_slott views⟩, exec_barrier_escapes⟩
  · have arrive : s.arrive s.me.tenant scope.toNat s.home = s.setBarrier one := State.arrive_waits more
    rw [← arrive]
    exact exec_barq views ready (by rw [arrive]; rfl)
  · obtain ⟨kept, complete⟩ := State.arrive_last full awake
    exact ⟨_, exec_barq views ready kept.regs, complete⟩
  · obtain ⟨kept, complete⟩ := State.arrive_last full awake
    refine ⟨_, exec_bar_last views full awake, State.regs_setRegs .., ?_⟩
    exact (State.barrier_congr (State.barriers_acquire ..) ..).trans complete
  · exact (exec_barw views).trans (congrArg Host.Outcome.next (if_neg (Ne.symm passed)))
  · exact (exec_barw views).trans (congrArg Host.Outcome.next (if_pos (Eq.symm stands)))

/-- Settles O27: a fence is its acquire; an arrival either waits in its barrier or completes the phase, and the sleepers that
wake are threads other than the one that arrived. -/
theorem fencesAndBarriers : Obligations.FencesAndBarriers := ⟨fences, barriers⟩

end Sys2Proof.Machine
end

section
/-!
PROOFS. Vector stores inside a view (R164, R213, R260, R261): a version that a store makes is dropped at the next touch of its
set where its view is discarded, so that the elements of one store may each ask for a place of the overflow area.
-/

namespace Sys2Proof.Machine

/-- A thread of tenant 7 in view 1, a domain's, with a capability to line 32 in `c2` and a mask of two elements in `k1`. -/
def crowdedThread : Slot :=
  { Slot.initial with
    state := .ready, tenant := 7, regs := (Regs.initial.setCap 2 (Cap.make true 7 2 0x1F 0x80 0x1000)).setMask 1 0x03
    views := [⟨1, false, 5, 0, 0, 0, Regs.initial, [], none, [], none, false, none, 0, 0, 0, 0, [], []⟩] }

/-- Its package holds view 1 as discarded. Five versions of view 2 stand in the ways of line 32, where four find place, and the
overflow bucket of that view's tenant, which has one, holds 15 (R260). -/
def crowdedPackage : Package :=
  { Package.initial with
    l2 := [32]
    views := [⟨1, 0, false, 7, .discarded, [], [], []⟩, ⟨2, 0, false, 7, .live, [], [], []⟩]
    tenants := [⟨7, [], [], [], 0, 0, 1, 0, [], 0, [], 0, false, 0, 0, 0, false, 0, 0⟩]
    versions := List.replicate 5 (2, 32, false) ++ List.replicate 15 (2, 32, true) }

/-- The machine with that thread in slot 0 of core 0, which holds the rights to the line. -/
def crowded : State :=
  { State.reset with
    cores := [(0, { (Core.initial 0).setSlot 0 crowdedThread with plb := [⟨false, 7, 0, 0xF⟩] })]
    pkgs := [(0, crowdedPackage)] }

/-- The access of each of the line's first two words is admitted: alone, it finds the bucket's last place. -/
theorem crowded_at (i : Nat) (h : i < 2) :
    crowded.VersionAt (crowded.regs.cap 2) ((crowded.regs.val 0).toInt + i * tyBytes 9) (tyBytes 9) (tyBytes 9) pWR 1
      (0x1000 + 4 * i) := by
  have known : ∃ r, (crowded.pkg (pkgOf crowded.curCore)).view 1 = some r ∧ r.pz.contains 32 = false := ⟨_, rfl, rfl⟩
  have room : crowded.VersionRoom 1 0x1000 := ⟨_, rfl, by decide⟩
  have rights : ∃ e, (crowded.core crowded.curCore).plbFind 7 0 false = some e ∧ e.rights &&& rightsFor pWR = rightsFor pWR :=
    ⟨_, rfl, by decide⟩
  interval_cases i
  · exact ⟨⟨by decide, by decide, by decide, by decide, by decide, by decide, by decide⟩, ⟨by decide, by decide, rights⟩,
      ⟨by decide, by decide, by decide, by decide, by decide, by decide, by decide, by decide, by decide, by decide⟩,
      by decide, by decide, known, by decide, fun _ => room⟩
  · exact ⟨⟨by decide, by decide, by decide, by decide, by decide, by decide, by decide⟩, ⟨by decide, by decide, rights⟩,
      ⟨by decide, by decide, by decide, by decide, by decide, by decide, by decide, by decide, by decide, by decide⟩,
      by decide, by decide, known, by decide, fun _ => room⟩

/-- A store of both faults at the second, so its thread does not move on. -/
theorem crowded_stays {t : State} (h : exec (.vst 0 0 2 1 9) crowded = .next t) : t.regs.pc = 0 := by
  cases h
  decide

/-- Refutes O22: a vector store in a view that is discarded asks for a version with every element, as the one it has made is
dropped (R261). Where five versions stand in the ways of the line's set and the overflow bucket has one place left, each element
alone is admitted, and the second of a store of two faults. -/
theorem not_vectorLoadsAndStores : ¬ Obligations.VectorLoadsAndStores := by
  intro h
  have admitted := h.2 crowded 0 0 2 1 9 0 (fun i => .version 1 (0x1000 + 4 * i)) (by decide)
  have lanes : (List.range (lanesOf 9)).filter (fun i => (crowded.regs.mask 1).getLsbD i) = [0, 1] := by decide
  have first (i : Nat) (on : i ∈ (List.range (lanesOf 9)).filter fun i => (crowded.regs.mask 1).getLsbD i) : i < 2 := by
    rw [lanes] at on
    simp only [List.mem_cons, List.not_mem_nil, or_false] at on
    omega
  have noPorts : crowded.portsReady [0] [] := crowded.portsReady_of_none (by decide) (by decide) (by decide)
  obtain ⟨t, ran, -, regs⟩ := admitted.1 (fun i on => ⟨crowded_at i (first i on), (by decide : (2 : Nat) ≠ 4)⟩)
    (fun _ => by decide) noPorts (List.forall_mem_nil _)
  have pc := crowded_stays ran
  rw [regs] at pc
  exact absurd pc (by decide)

end Sys2Proof.Machine
end

section
/-!
PROOFS. Capability accesses (R163, R165, R246, R254): the tag of a granule as the issuing thread reads and writes it at each
place, and the instructions that move a capability with it.
-/

namespace Sys2Proof.Machine

section
variable {s t : State} {c : Cap} {off : Int} {z align : Nat} {need : BitVec 7} {p : Place}

/-- What is kept of the issuing thread, in each of its parts. -/
theorem KeepsMe.home (kept : KeepsMe s t) : t.home = s.home := congrArg Slot.home kept.me

/-- The innermost rival view is the first whose window holds what it holds. -/
theorem Slot.find_rivalView {t : Slot} {v : View} (rival : t.rivalView = some v) {f : View → Bool} (holds : f v = true) :
    t.views.find? (fun v => v.rival && f v) = some v := by
  unfold Slot.rivalView at rival
  generalize t.views = l at rival
  induction l with
  | nil => cases rival
  | cons u l ih =>
    rw [List.find?_cons] at rival ⊢
    cases isRival : u.rival with
    | false => simpa [isRival] using ih (by simpa [isRival] using rival)
    | true =>
      rw [isRival] at rival
      cases rival
      simp [holds]

theorem Slot.inWorld_of_rivalView {t : Slot} {v : View} (rival : t.rivalView = some v) : t.inWorld = true :=
  List.any_eq_true.mpr ⟨v, List.mem_of_find?_eq_some rival, List.find?_some rival⟩

/-- The address of an admitted access is aligned at its place. -/
theorem State.At.aligned_addr (h : s.At c off z align need p) (near : p.space ≤ 2) (divides : align ∣ 2 ^ 16) :
    p.addr % align = 0 := by
  have folded {a : Nat} (aligned : a % align = 0) : a % 2 ^ 16 % align = 0 := by
    rw [Nat.mod_mod_of_dvd a divides, aligned]
  cases p with
  | own a =>
    have admitted : s.LocalAt c off z align need a := h
    exact admitted.address ▸ folded admitted.aligned
  | rival a =>
    have admitted : s.RivalAt c off z align need a := h
    exact admitted.address ▸ folded admitted.aligned
  | window k a =>
    have admitted : s.WindowAt c off z align need k a := h
    exact admitted.address ▸ folded admitted.aligned
  | global a =>
    have admitted : s.GlobalAt c off z align need a := h
    exact admitted.address ▸ admitted.aligned
  | version v a =>
    have admitted : s.VersionAt c off z align need v a := h
    exact admitted.address ▸ admitted.aligned
  | host a => exact absurd near (by decide : ¬3 ≤ 2)
  | ctrl a => exact absurd near (by decide : ¬4 ≤ 2)

/-! ### Reading (R163, R165) -/

/-- A read of a place that keeps tags finds the place's own. -/
theorem State.At.tagAt (h : s.At c off 16 align need p) (near : p.space ≤ 2) (plain : Bool) :
    s.tagAt (p.target s c off) plain = s.placeTag (p.addr / 16) p := by
  cases p with
  | own a =>
    have admitted : s.LocalAt c off 16 align need a := h
    simp [Place.target, State.tagAt, spLOCAL, spGLOBAL, Slot.find_rival admitted.outside, State.placeTag, Place.addr]
  | rival a =>
    have admitted : s.RivalAt c off 16 align need a := h
    obtain ⟨v, rival, inside⟩ := admitted.inside
    have found := Slot.find_rivalView rival (f := fun v => v.inWindow a 16) inside
    simp [Place.target, State.tagAt, spLOCAL, spGLOBAL, found, State.placeTag, Place.addr, rival]
  | window k a => simp [Place.target, State.tagAt, spLOCAL, spGLOBAL, spWINDOW, State.placeTag, Place.addr]
  | global a =>
    have admitted : s.GlobalAt c off 16 align need a := h
    have alone := s.answering_own admitted.toLineServes.home plain
    simp [Place.target, State.tagAt, spGLOBAL, alone, State.placeTag, Place.addr, Slot.chain, admitted.noView, Package.viewTag]
  | version v a =>
    have admitted : s.VersionAt c off 16 align need v a := h
    have alone := s.answering_own admitted.toLineServes.home plain
    simp only [Place.target, State.tagAt, spGLOBAL, alone, State.placeTag, Place.addr, if_true]
    cases (s.pkg (pkgOf s.curCore)).viewTag s.me.chain (a / 16) <;> rfl
  | host a => exact absurd near (by decide : ¬3 ≤ 2)
  | ctrl a => exact absurd near (by decide : ¬4 ≤ 2)

/-- An acquire that a load makes leaves the registers. -/
theorem KeepsMe.regs_acquired (kept : KeepsMe s t) (acq : Bool) (scope : BitVec 3) :
    (if acq then t.acquire scope else t).regs = s.regs := by
  cases acq
  · exact kept.regs
  · exact (t.regs_acquire scope).trans kept.regs

/-- A memory instruction that loads from a place completes with the registers its read makes. -/
theorem loadsFrom_of_memory {i : Instr} {srcs dsts : List (BitVec 5)} {op : State → Except Miss (Regs × State)} {acq : Prop}
    [Decidable acq] {scope : BitVec 3} {r : Regs} {z : Nat} {plain : Bool}
    (e : exec i s = .next (s.memory i 4 srcs dsts op)) (h : s.At c off z align pRD p) (size : p.space = 4 → align = z)
    (answered : ∀ t, s.readAt (p.target s c off) z plain pRD = .ok (s.placeBytes z p, t) → KeepsMe s t →
      op s = .ok (r, if acq then t.acquire scope else t)) :
    LoadsFrom i s srcs dsts p acq scope (r.advance 4) := by
  intro answers ready
  obtain ⟨t, read, kept⟩ := h.readAt answers plain size
  exact ⟨t, e.trans (congrArg Host.Outcome.next (s.memory_of_ok _ ready (answered t read kept))), kept,
    fun noView => h.readAt_pkgs noView read⟩

theorem State.loadCap_eq {d a : BitVec 5} {k : BitVec 3} {acq : Bool} {scope : BitVec 3}
    (h : s.At (s.regs.cap k) (s.regs.val a).toInt 16 16 pRD p) (near : p.space ≤ 2)
    (read : s.readAt (p.target s (s.regs.cap k) (s.regs.val a).toInt) 16 (!acq) pRD = .ok (s.placeBytes 16 p, t))
    (kept : KeepsMe s t) :
    s.loadCap d a k acq scope = .ok (s.regs.setCap (d.setWidth 3)
      ⟨s.placeTag (p.addr / 16) p && (s.regs.cap k).perm.getLsbD 2, BitVec.ofNat 128 (leValue (s.placeBytes 16 p))⟩,
        if acq then t.acquire scope else t) := by
  have space : p.space ∈ spMem := by
    interval_cases p.space <;> decide
  have checked := h.checked (k := .load) space (by cases p <;> simp [Place.takes]) fun _ => rfl
  have regs := kept.regs_acquired acq scope
  unfold State.loadCap
  simp only [Regs.offset, checked, liftFault, run_ok_bind, State.readCap, h.tagAt near, read, regs]
  rfl

/-! ### Writing (R163, R213, R217) -/

/-- What a write makes of a state in which its place has been reached: the bytes at the place, before monitors look at it. -/
def Place.written (p : Place) (bytes : List Byte) (u : State) : State :=
  match p with
  | .own a => u.putLocal u.home a bytes none
  | .rival a => u.updMe fun t => { t with views := State.placeAt.updRival t.views a bytes }
  | .window k a => u.putLocal k a bytes none
  | .global a => u.putGlobal a bytes none
  | .version v a => u.updPkg (pkgOf u.curCore) (·.updView v (·.write a bytes))
  | .host a => u.putHost (pkgOf u.curCore) a bytes none
  | .ctrl _ => u

/-- An admitted write reaches its place without a change of the thread or of what views hold, and writes there. -/
theorem State.At.placeAt_written (h : s.At c off z align need p) (near : p.space ≤ 3) {bytes : List Byte}
    (size : bytes.length = z) (writes : ∀ v a, p = .version v a → need.getLsbD 1 = true) :
    ∃ u, KeepsMe s u ∧ (u.pkg (pkgOf s.curCore)).views = (s.pkg (pkgOf s.curCore)).views ∧
      s.placeAt (p.target s c off) bytes need = .ok (p.written bytes u) := by
  subst size
  cases p with
  | own a =>
    have admitted : s.LocalAt c off bytes.length align need a := h
    exact ⟨s, .refl s, rfl, admitted.placeAt need bytes⟩
  | rival a =>
    have admitted : s.RivalAt c off bytes.length align need a := h
    obtain ⟨v, rival, -⟩ := admitted.inside
    have words := admitted.toLocalServes.checkWords (words := []) (by simp)
    refine ⟨s, .refl s, rfl, ?_⟩
    simp [Place.target, State.placeAt, State.checkLocal, State.checkWindow, spLOCAL, spWINDOW, words,
      Slot.inWorld_of_rivalView rival, Place.written]
  | window k a =>
    have admitted : s.WindowAt c off bytes.length align need k a := h
    have words := admitted.toLocalServes.checkWords (words := []) (by simp)
    refine ⟨s, .refl s, rfl, ?_⟩
    simp [Place.target, State.placeAt, State.checkLocal, spLOCAL, spWINDOW, admitted.checkWindow, words, Place.written]
  | global a =>
    have admitted : s.GlobalAt c off bytes.length align need a := h
    obtain ⟨f, rights⟩ := admitted.toGranted.checkRights (space := 2) (core := s.home) (va := c.base + off.toNat) rfl
    generalize touched : (s.updCore s.curCore fun k => { k with plb := f k.plb }) = u at *
    have kept : KeepsMe s u := touched ▸ KeepsMe.plb s _ f
    have pkgs : u.pkgs = s.pkgs := touched ▸ rfl
    have pkg (q : Nat) : u.pkg q = s.pkg q := touched ▸ rfl
    have reached := admitted.toLineServes.reachAll admitted.some pkgs pkg (touched ▸ rfl)
    have clean := admitted.toLineServes.poisonAll admitted.some (own := pkgOf s.curCore) (chain := []) (fun q => by rw [pkg]) rfl
    have alone := (u.putGlobal a bytes none).refreshCopy_own admitted.toLineServes.home
    rw [admitted.toLineServes.lines admitted.some] at reached clean
    refine ⟨u, kept, by rw [pkg], ?_⟩
    simp only [Place.target, State.placeAt, spLOCAL, spWINDOW, spGLOBAL, rights, run_ok_bind]
    simp [kept.core, reached, clean, admitted.toLineServes.lines admitted.some, alone, Slot.chain, admitted.noView,
      Place.written]
  | version v a =>
    have admitted : s.VersionAt c off bytes.length align need v a := h
    obtain ⟨w, placed, -, -, -⟩ := h.placeAt bytes rfl writes nofun
    obtain ⟨f, rights⟩ := admitted.toGranted.checkRights (space := 2) (core := s.home) (va := c.base + off.toNat) rfl
    generalize touched : (s.updCore s.curCore fun k => { k with plb := f k.plb }) = u at *
    have kept : KeepsMe s u := touched ▸ KeepsMe.plb s _ f
    have pkg (q : Nat) : u.pkg q = s.pkg q := touched ▸ rfl
    have reached := admitted.toLineServes.reachAll admitted.some (t := u) (touched ▸ rfl) pkg (touched ▸ rfl)
    obtain ⟨q, versions, views, -, -⟩ := admitted.versionsFor (writes v a rfl) pkg a
    refine ⟨u.setPkg (pkgOf s.curCore) q, kept.trans (.setPkg ..), by rw [State.pkg_setPkg, views], placed.trans ?_⟩
    simp only [Place.target, State.placeAt, spLOCAL, spWINDOW, spGLOBAL, rights, run_ok_bind] at placed
    simp only [kept.core, reached, run_ok_bind, admitted.chain, State.writeView, versions] at placed
    obtain ⟨-, -, done⟩ := run_bind_eq_ok placed
    rw [← done]
    simp [Place.written, kept.core]
  | host a =>
    have admitted : s.HostAt c off bytes.length align need a := h
    obtain ⟨f, rights⟩ := admitted.toGranted.checkRights (space := 3) (core := s.home) (va := c.base + off.toNat) rfl
    generalize touched : (s.updCore s.curCore fun k => { k with plb := f k.plb }) = u at *
    have kept : KeepsMe s u := touched ▸ KeepsMe.plb s _ f
    have pkg (q : Nat) : u.pkg q = s.pkg q := touched ▸ rfl
    have present := admitted.checkHost (t := u) pkg (touched ▸ rfl) ⟨3, s.home, a, c.base + off.toNat, c.dom⟩ true nofun
    refine ⟨u, kept, by rw [pkg], ?_⟩
    simp only [Place.target, State.placeAt, spLOCAL, spWINDOW, spGLOBAL, spHOST, rights, run_ok_bind]
    simp [kept.core, present, Place.written]
  | ctrl a => exact absurd near (by decide : ¬4 ≤ 3)

/-- A state has the place whose tag a capability store sets: for a window copy its rival, for a version its view. -/
def State.hasTags (s : State) : Place → Prop
  | .own _ => s.me.inWorld = false
  | .rival _ => s.me.inWorld = true
  | .window _ _ => True
  | .global a => s.me.chain = [] ∧ homePkg (a / 128 * 128) = pkgOf s.curCore
  | .version v _ => s.me.chain.head? = some v ∧ ∃ r, (s.pkg (pkgOf s.curCore)).view v = some r
  | .host _ | .ctrl _ => False

/-- A window copy that is written stays in its world. -/
theorem updRival_any (l : List View) (a : Nat) (bytes : List Byte) :
    (State.placeAt.updRival l a bytes).any (·.rival) = l.any (·.rival) := by
  induction l with
  | nil => rfl
  | cons v l ih =>
    unfold State.placeAt.updRival
    split <;> simp_all

/-- The place is there after an admitted write. -/
theorem State.At.hasTags_written (h : s.At c off z align need p) (near : p.space ≤ 2) {bytes : List Byte} {u : State}
    (kept : KeepsMe s u) (views : (u.pkg (pkgOf s.curCore)).views = (s.pkg (pkgOf s.curCore)).views) :
    (p.written bytes u).hasTags p := by
  cases p with
  | own a =>
    have admitted : s.LocalAt c off z align need a := h
    have me := (u.putLocal_wrote u.home a bytes none).1.me
    rw [State.hasTags, Place.written, me, kept.me, admitted.outside]
  | rival a =>
    have admitted : s.RivalAt c off z align need a := h
    obtain ⟨v, rival, -⟩ := admitted.inside
    rw [State.hasTags, Place.written, State.me_updMe, Slot.inWorld, updRival_any, kept.me]
    exact Slot.inWorld_of_rivalView rival
  | window k a => trivial
  | global a =>
    have admitted : s.GlobalAt c off z align need a := h
    have wrote := (u.putGlobal_wrote a bytes none).1
    refine ⟨?_, ?_⟩
    · rw [Place.written, wrote.me, kept.me, Slot.chain, admitted.noView, List.map_nil]
    · rw [Place.written, wrote.core, kept.core, admitted.toLineServes.home]
  | version v a =>
    have admitted : s.VersionAt c off z align need v a := h
    obtain ⟨r, known, -⟩ := admitted.known
    refine ⟨(congrArg (fun t : Slot => t.chain.head?) kept.me).trans admitted.chain, r.write a bytes, ?_⟩
    have cur : (u.updPkg (pkgOf u.curCore) (·.updView v (·.write a bytes))).curCore = s.curCore := kept.core
    rw [Place.written, cur, kept.core, State.updPkg, State.pkg_setPkg,
      Package.view_updView (f := (·.write a bytes)) _ _ _ fun _ => rfl, if_pos rfl, Package.view, views]
    exact congrArg (Option.map (·.write a bytes)) known
  | host a => exact absurd near (by decide : ¬3 ≤ 2)
  | ctrl a => exact absurd near (by decide : ¬4 ≤ 2)

theorem mem_addNum (l : List Nat) (a g : Nat) : g ∈ addNum l a ↔ g = a ∨ g ∈ l := by
  induction l with
  | nil => simp [addNum]
  | cons k l ih =>
    unfold addNum
    split
    · simp
    · split
      · subst_vars
        simp
      · simp [ih, or_left_comm]

/-- An aligned capability lies in one granule. -/
theorem granules_aligned {a : Nat} (aligned : a % 16 = 0) : granules a 16 = [a / 16] := by
  have one : (a + 16 - 1) / 16 - a / 16 + 1 = 1 := by omega
  rw [granules, one]
  simp

/-- The tags of a store, with the one of the aligned granule set. -/
theorem Tags.mem_put_stored {tags : Tags} {a n g : Nat} {old : Prop} (size : n = 16) (aligned : a % 16 = 0)
    (stored : g ∈ tags ↔ if g ∈ granules a n then false = true else old) :
    g ∈ tags.put (a / 16) true ↔ if g ∈ granules a n then true = true else old := by
  subst size
  simp only [granules_aligned aligned, List.mem_singleton] at stored ⊢
  rw [Tags.put, if_pos rfl, mem_addNum, stored]
  by_cases own : g = a / 16 <;> simp [own]

theorem StoredLocal.tagged {core a : Nat} {bytes : List Byte} (stored : StoredLocal s t core a bytes)
    (size : bytes.length = 16) (aligned : a % 16 = 0) :
    StoredLocal s (t.updCore core fun k => { k with ltags := k.ltags.put (a / 16) true }) core a bytes true := by
  refine ⟨fun b => ?_, fun g => ?_, fun k other => ?_, stored.global⟩
  · rw [State.updCore_eq, State.core_setCore]
    exact stored.stored b
  · rw [State.updCore_eq, State.core_setCore]
    exact Tags.mem_put_stored size aligned (stored.tags g)
  · rw [State.updCore_eq, State.core_setCore_ne _ _ other]
    exact stored.others k other

/-- Tags of a core changed. -/
theorem LeavesMe.tagged (left : LeavesMe s t) (k g : Nat) :
    LeavesMe s (t.updCore k fun x => { x with ltags := x.ltags.put g true }) := by
  have me : (t.updCore k fun x => { x with ltags := x.ltags.put g true }).me = t.me := t.slot_updCore _ _ rfl _ _
  exact ⟨left.core, left.slot, by rw [me, left.me]⟩

/-- The innermost rival view with a tag of its window copy set. -/
theorem rivalTag_find {l : List View} {v : View} (h : l.find? (·.rival) = some v) (g : Nat) (tag : Bool) :
    (State.setTag.rivalTag l g tag).find? (·.rival) = some { v with winTags := v.winTags.put g tag } := by
  induction l with
  | nil => cases h
  | cons u l ih =>
    unfold State.setTag.rivalTag
    cases isRival : u.rival with
    | false =>
      rw [List.find?_cons, isRival] at h
      simpa [List.find?_cons, isRival] using ih h
    | true =>
      rw [List.find?_cons, isRival] at h
      cases h
      simp [isRival]

/-- A view's record with a tag of its own set. -/
def ViewRec.withTag (r : ViewRec) (g : Nat) (tag : Bool) : ViewRec := { r with tags := put r.tags g tag }

theorem Package.view_withTag (q : Package) (v g : Nat) (tag : Bool) (n : Nat) :
    (q.updView v (·.withTag g tag)).view n = if n = v then (q.view n).map (·.withTag g tag) else q.view n :=
  Package.view_updView (f := (·.withTag g tag)) _ _ _ fun _ => rfl

@[simp] theorem Package.viewByte_withTag (q : Package) (v g : Nat) (tag : Bool) (chain : List Nat) (b : Nat) :
    (q.updView v (·.withTag g tag)).viewByte chain b = q.viewByte chain b := by
  unfold Package.viewByte
  congr 1
  funext n
  rw [q.view_withTag]
  split
  · cases q.view n <;> rfl
  · rfl

theorem Package.viewTag_withTag_ne {q : Package} {v g h : Nat} (tag : Bool) (chain : List Nat) (other : h ≠ g) :
    (q.updView v (·.withTag g tag)).viewTag chain h = q.viewTag chain h := by
  unfold Package.viewTag
  congr 1
  funext n
  rw [q.view_withTag]
  split
  · cases q.view n
    · rfl
    · exact look_put_ne _ _ other
  · rfl

theorem Package.viewTag_withTag_same {q : Package} {v g : Nat} {tag : Bool} {rest : List Nat} {r : ViewRec}
    (known : q.view v = some r) : (q.updView v (·.withTag g tag)).viewTag (v :: rest) g = some tag := by
  have head : (((q.updView v (·.withTag g tag)).view v).bind fun r => look r.tags g) = some tag := by
    rw [q.view_withTag, if_pos rfl, known]
    exact look_put_same ..
  rw [Package.viewTag, List.findSome?_cons, head]

/-- A tag set with the 16 bytes of a capability makes their store the store of a capability. -/
theorem Stored.setTag {bytes : List Byte} (stored : Stored s t bytes p) (left : LeavesMe s t) (size : bytes.length = 16)
    (aligned : p.addr % 16 = 0) (has : t.hasTags p) :
    Stored s (t.setTag (p.target s c off) true) bytes p true ∧ LeavesMe s (t.setTag (p.target s c off) true) ∧
      (t.setTag (p.target s c off) true).monitors = t.monitors := by
  cases p with
  | own a =>
    have local_ : t.setTag ((Place.own a).target s c off) true =
        t.updCore s.home fun k => { k with ltags := k.ltags.put (a / 16) true } := by
      have outside : t.me.inWorld = false := has
      simp [Place.target, State.setTag, spGLOBAL, spLOCAL, outside]
    rw [local_]
    exact ⟨StoredLocal.tagged stored size aligned, left.tagged .., rfl⟩
  | rival a =>
    have inside : t.me.inWorld = true := has
    have copy : t.setTag ((Place.rival a).target s c off) true =
        t.updMe fun t => { t with views := State.setTag.rivalTag t.views (a / 16) true } := by
      simp [Place.target, State.setTag, spGLOBAL, spLOCAL, inside]
    obtain ⟨w, member, rival⟩ := List.any_eq_true.mp inside
    obtain ⟨v, found⟩ : ∃ v, t.me.views.find? (·.rival) = some v :=
      Option.isSome_iff_exists.mp (List.find?_isSome.mpr ⟨w, member, rival⟩)
    have tagged := rivalTag_find found (a / 16) true
    rw [copy]
    refine ⟨⟨stored.1.trans (.updMe ..), fun b => ?_, fun g => ?_⟩, ⟨left.core, left.slot, ?_⟩, rfl⟩
    · rw [← stored.2.1 b]
      simp [State.placeByte, Slot.rivalView, found, tagged]
    · have before := stored.2.2 g
      simp only [State.placeTag, State.me_updMe, Slot.rivalView, found, tagged, Option.map_some, Option.getD_some] at before ⊢
      rw [Bool.eq_iff_iff, List.contains_iff_mem] at before ⊢
      have set := Tags.mem_put_stored (old := s.placeTag g (.rival a) = true) size aligned
        (before.trans (by rw [apply_ite (· = true)]; rfl))
      exact set.trans (by rw [apply_ite (· = true)]; rfl)
    · simp only [State.me_updMe]
      rw [left.me]
  | window k a => exact ⟨StoredLocal.tagged stored size aligned, left.tagged .., rfl⟩
  | global a =>
    obtain ⟨chain, home⟩ := has
    have base : t.setTag ((Place.global a).target s c off) true = { t with mtags := t.mtags.put (a / 16) true } := by
      have own : ({ t with mtags := t.mtags.put (a / 16) true } : State).refreshCopy (pkgOf t.curCore) (lineOf a) =
        { t with mtags := t.mtags.put (a / 16) true } := State.refreshCopy_own _ home
      simpa [Place.target, State.setTag, spGLOBAL, chain] using own
    rw [base]
    refine ⟨⟨stored.stored, fun g => ?_, stored.locals⟩, ⟨left.core, left.slot, left.me⟩, rfl⟩
    exact Tags.mem_put_stored size aligned (stored.tags g)
  | version v a =>
    obtain ⟨chain, r, known⟩ := has
    have view : t.setTag ((Place.version v a).target s c off) true =
        t.updPkg (pkgOf t.curCore) (·.updView v (·.withTag (a / 16) true)) := by
      simp [Place.target, State.setTag, spGLOBAL, chain, ViewRec.withTag]
    obtain ⟨rest, views⟩ : ∃ rest, t.me.chain = v :: rest := List.head?_eq_some_iff.mp chain
    have pkg : (t.updPkg (pkgOf t.curCore) (·.updView v (·.withTag (a / 16) true))).pkg (pkgOf t.curCore) =
      (t.pkg (pkgOf t.curCore)).updView v (·.withTag (a / 16) true) := t.pkg_setPkg ..
    have cur : (t.updPkg (pkgOf t.curCore) (·.updView v (·.withTag (a / 16) true))).curCore = t.curCore := rfl
    have me : (t.updPkg (pkgOf t.curCore) (·.updView v (·.withTag (a / 16) true))).me = t.me := rfl
    have mtags : (t.updPkg (pkgOf t.curCore) (·.updView v (·.withTag (a / 16) true))).mtags = t.mtags := rfl
    rw [view]
    refine ⟨⟨stored.1.trans (.updPkg ..), fun b => ?_, fun g => ?_⟩, left.keeps (.setPkg ..), rfl⟩
    · rw [← stored.2.1 b, State.placeByte, State.placeByte, cur, pkg, me, Package.viewByte_withTag]
      rfl
    · have before := stored.2.2 g
      simp only [size, granules_aligned (a := a) aligned, List.mem_singleton] at before ⊢
      rw [State.placeTag, cur, pkg, me, mtags, views]
      split
      · subst_vars
        rw [Package.viewTag_withTag_same known, Option.getD_some]
      · next other =>
        rw [if_neg other] at before
        rw [Package.viewTag_withTag_ne _ _ other, ← before, State.placeTag, views]
  | host a => exact has.elim
  | ctrl a => exact has.elim

/-- A capability store whose checks pass leaves the bytes and the tag of the capability at its place. -/
theorem State.storeCap_eq {d a : BitVec 5} {k : BitVec 3}
    (h : s.At (s.regs.cap k) (s.regs.val a).toInt 16 16 (capNeed (s.regs.cap (d.setWidth 3))) p)
    (reached : p.space ≤ 2 ∨ (p.space = 3 ∧ (s.regs.cap (d.setWidth 3)).tag = false)) (quiet : s.notWatching) :
    ∃ t, s.storeCap d a k = .ok (s.regs, t) ∧
      Stored s t (capBytes (s.regs.cap (d.setWidth 3))) p (s.regs.cap (d.setWidth 3)).tag ∧ LeavesMe s t := by
  unfold State.storeCap
  simp only [Regs.offset]
  generalize s.regs.cap (d.setWidth 3) = v at *
  have inSpaces : p.space ∈ capSpaces v := by
    unfold capSpaces
    cases tagged : v.tag
    · have near : p.space ≤ 3 := by omega
      interval_cases p.space <;> decide
    · have near : p.space ≤ 2 := by simpa [tagged] using reached
      interval_cases p.space <;> decide
  have checked := h.checked (k := .store) inSpaces (by cases p <;> simp [Place.takes])
    (by unfold capNeed; cases v.tag <;> decide)
  have writes : (capNeed v).getLsbD 1 = true := by
    unfold capNeed
    cases v.tag <;> decide
  have size : (capBytes v).length = 16 := by simp [capBytes]
  obtain ⟨t, placed, stored, left, monitors⟩ := h.placeAt (capBytes v) size (fun _ _ _ => writes) (fun _ => rfl)
  obtain ⟨w, done, stored, left, monitors⟩ : ∃ w, w = (if v.tag then
      t.setTag (p.target s (s.regs.cap k) (s.regs.val a).toInt) true else t) ∧ Stored s w (capBytes v) p v.tag ∧
      LeavesMe s w ∧ w.monitors = s.monitors := by
    cases tagged : v.tag
    · exact ⟨t, rfl, stored, left, monitors⟩
    · have near : p.space ≤ 2 := by simpa [tagged] using reached
      obtain ⟨u, kept, views, placed'⟩ := h.placeAt_written (by omega) size fun _ _ _ => writes
      have same : t = p.written (capBytes v) u := Except.ok.inj (placed.symm.trans placed')
      obtain ⟨stored, left, same⟩ := stored.setTag left size (h.aligned_addr near (by norm_num)) (same ▸ h.hasTags_written near kept views)
      exact ⟨_, rfl, stored, left, same.trans monitors⟩
  have quiet : w.notWatching := fun m member => by
    rw [left.core, left.slot]
    exact quiet m (monitors ▸ member)
  have kept := KeepsMe.fireMonitors w quiet
  refine ⟨w.fireMonitors, ?_, stored.keeps (kept.places (.fireMonitors w)), left.keeps kept⟩
  simp only [checked, liftFault, run_ok_bind, State.writeCap, placed, ← done]
  rw [(left.keeps kept).regs]

/-! ### The instructions (R165, R166) -/

/-- A memory instruction that stores with no flag raised completes with what its write leaves. -/
theorem stores_of_memory {i : Instr} {srcs : List (BitVec 5)} {op : State → Except Miss (Regs × State)}
    {bytes : List Byte} {tag : Bool} (e : exec i s = .next (s.memory i 4 srcs [] op)) (ready : s.portsReady srcs [])
    (done : ∃ t, op s = .ok (s.regs, t) ∧ Stored s t bytes p tag ∧ LeavesMe s t) :
    ∃ t, exec i s = .next t ∧ Stored s t bytes p tag ∧
      t.me = { s.me with views := t.me.views, regs := (s.regs.advance 4).consume srcs } := by
  obtain ⟨t, ok, stored, left⟩ := done
  refine ⟨t.setRegs ((s.regs.advance 4).consume srcs), ?_, stored.keeps (.setRegs ..), ?_⟩
  · rw [e, s.memory_of_ok t ready ok, State.completed_noDests]
  · rw [State.me_setRegs, left.me]

/-- Settles O23: `LDC` and `FILL` of class c are one load of a capability, `STC` and `SPILL` of it one store. -/
theorem capabilityAccesses : Obligations.CapabilityAccesses := by
  intro s d a c ord scope p r via v got need into stores
  refine ⟨fun near h => ⟨?_, ?_⟩, fun reached h => ?_⟩
  · refine loadsFrom_of_memory (plain := !(ord == 1)) rfl h (fun _ => rfl) fun t read kept => ?_
    have eq := State.loadCap_eq (d := d) (acq := ord == 1) (scope := scope) h near read kept
    simpa [r, got, via] using eq
  · refine loadsFrom_of_memory (plain := true) rfl h (fun _ => rfl) fun t read kept => ?_
    exact State.loadCap_eq (d := d) (acq := false) (scope := 0) h near read kept
  · have needed : need = capNeed v := by
      simp only [need, capNeed]
      cases v.tag <;> rfl
    rw [needed] at h
    have done := fun quiet => State.storeCap_eq (d := d) h reached quiet
    exact ⟨fun ready quiet => stores_of_memory rfl ready (done quiet), fun ready quiet =>
      stores_of_memory rfl ready (done quiet)⟩

end

end Sys2Proof.Machine
end

section
/-!
PROOFS. Spills and fills (R163, R166): the image of a register gives the register back, and the instructions that move one
store and load it at a place.
-/

namespace Sys2Proof.Machine

/-! ### Little-endian parts (R5) -/

theorem take_leBytes {m n : Nat} (x : Nat) (within : m ≤ n) : (leBytes n x).take m = leBytes m x := by
  induction m generalizing n x with
  | zero => rfl
  | succ m ih =>
    cases n with
    | zero => omega
    | succ n => simp [leBytes, ih (n := n) (x / 256) (by omega)]

theorem drop_leBytes (m k x : Nat) : (leBytes (m + k) x).drop m = leBytes k (x / 256 ^ m) := by
  induction m generalizing x with
  | zero => simp
  | succ m ih => rw [show m + 1 + k = (m + k) + 1 by omega, leBytes, List.drop_succ_cons, ih, Nat.div_div_eq_div_mul, pow_succ']

/-- A word in an image is read back from its four bytes. -/
theorem word_leBytes (x : Nat) : BitVec.ofNat 32 (leValue (leBytes 4 x)) = BitVec.ofNat 32 x := by
  rw [leValue_leBytes]
  exact BitVec.eq_of_toNat_eq (by simp)

/-- The words of a list, four bytes each, are read back at their places, whatever follows them. -/
theorem take_words (words : List Nat) (rest : List Byte) {i : Nat} (within : i < words.length) :
    ((words.flatMap (leBytes 4) ++ rest).drop (4 * i)).take 4 = leBytes 4 words[i] := by
  induction words generalizing i with
  | nil => cases within
  | cons x words ih =>
    rw [List.flatMap_cons, List.append_assoc]
    cases i with
    | zero => exact List.take_left' (length_leBytes 4 x)
    | succ i =>
      have past : (leBytes 4 x ++ (words.flatMap (leBytes 4) ++ rest)).drop (4 * (i + 1)) =
          (words.flatMap (leBytes 4) ++ rest).drop (4 * i) := by
        rw [List.drop_append, length_leBytes, List.drop_eq_nil_of_le (by simp), List.nil_append, mul_add, mul_one,
          Nat.add_sub_cancel]
      rw [past, ih (by simpa using within)]
      rfl

/-! ### Images (R166) -/

/-- The image of a register has the size of its class. -/
theorem Regs.length_image (r : Regs) (d : BitVec 5) {cls : BitVec 3} (known : cls ∈ [0, 1, 2, 4, 5]) :
    (r.image cls d).length = (imageShape cls).1 := by
  simp only [List.mem_cons, List.not_mem_nil, or_false] at known
  obtain rfl | rfl | rfl | rfl | rfl := known <;> simp [Regs.image, imageShape, List.length_flatMap]

/-- A tail is two bits of the tails in an image. -/
theorem tail_of_digit {n : Nat} {t : BitVec 2} (digit : n % 4 = t.toNat) : BitVec.ofNat 2 n = t :=
  BitVec.eq_of_toNat_eq (by simpa using digit)

/-- The image of a scalar holds its value and its tail. -/
theorem Regs.restore_scalar (q r : Regs) (d : BitVec 5) : r.restore 0 d (q.image 0 d) = r.put d (q.get d) := by
  have tail : leValue (((leBytes 4 (q.val d).toNat ++ leBytes 4 (q.get d).tail.toNat).drop 4).take 2) = (q.get d).tail.toNat := by
    rw [List.drop_left' (length_leBytes ..), take_leBytes _ (by omega), leValue_leBytes]
    exact Nat.mod_eq_of_lt (by omega)
  have word : ((leBytes 4 (q.val d).toNat ++ leBytes 4 (q.get d).tail.toNat).drop 0).take 4 = leBytes 4 (q.val d).toNat :=
    List.take_left' (length_leBytes ..)
  have read (b : List Byte) : r.restore 0 d b =
    r.put d ⟨BitVec.ofNat 32 (leValue ((b.drop 0).take 4)), BitVec.ofNat 2 (leValue ((b.drop 4).take 2))⟩ := rfl
  rw [read, show q.image 0 d = leBytes 4 (q.val d).toNat ++ leBytes 4 (q.get d).tail.toNat from rfl, tail, word,
    word_leBytes]
  simp [Regs.val]

/-- The image of a pair holds the values and the tails of both registers. -/
theorem Regs.restore_pair (q r : Regs) (d : BitVec 5) :
    r.restore 1 d (q.image 1 d) = (r.put d (q.get d)).put (d + 1) (q.get (d + 1)) := by
  have split : (q.pair d).toNat = (q.get (d + 1)).val.toNat * 2 ^ 32 + (q.get d).val.toNat := by
    rw [Regs.pair, BitVec.toNat_append, ← Nat.shiftLeft_add_eq_or_of_lt (q.val d).isLt, Nat.shiftLeft_eq]
    rfl
  generalize tails : (q.get d).tail.toNat + 4 * (q.get (d + 1)).tail.toNat = t
  have packed : leValue (((leBytes 8 (q.pair d).toNat ++ leBytes 8 t).drop 8).take 2) = t := by
    rw [List.drop_left' (length_leBytes ..), take_leBytes _ (by omega), leValue_leBytes]
    exact Nat.mod_eq_of_lt (by omega)
  have low : ((leBytes 8 (q.pair d).toNat ++ leBytes 8 t).drop 0).take 4 = leBytes 4 (q.pair d).toNat := by
    rw [List.drop_zero, List.take_append_of_le_length (by simp), take_leBytes _ (by omega)]
  have high : ((leBytes 8 (q.pair d).toNat ++ leBytes 8 t).drop 4).take 4 = leBytes 4 ((q.pair d).toNat / 256 ^ 4) := by
    rw [List.drop_append_of_le_length (by simp), drop_leBytes 4 4, List.take_left' (length_leBytes ..)]
  have lowWord : BitVec.ofNat 32 (q.pair d).toNat = (q.get d).val := BitVec.eq_of_toNat_eq (by rw [BitVec.toNat_ofNat]; omega)
  have highWord : BitVec.ofNat 32 ((q.pair d).toNat / 256 ^ 4) = (q.get (d + 1)).val :=
    BitVec.eq_of_toNat_eq (by rw [BitVec.toNat_ofNat]; omega)
  have lowTail : BitVec.ofNat 2 t = (q.get d).tail := tail_of_digit (by omega)
  have highTail : BitVec.ofNat 2 (t / 4) = (q.get (d + 1)).tail := tail_of_digit (by omega)
  have read (b : List Byte) : r.restore 1 d b =
    (r.put d ⟨BitVec.ofNat 32 (leValue ((b.drop 0).take 4)), BitVec.ofNat 2 (leValue ((b.drop 8).take 2))⟩).put (d + 1)
      ⟨BitVec.ofNat 32 (leValue ((b.drop 4).take 4)), BitVec.ofNat 2 (leValue ((b.drop 8).take 2) / 4)⟩ := rfl
  rw [read, show q.image 1 d = leBytes 8 (q.pair d).toNat ++ leBytes 8 ((q.get d).tail.toNat + 4 * (q.get (d + 1)).tail.toNat)
    from rfl, tails, packed, low, high, word_leBytes, word_leBytes, lowWord, highWord, lowTail, highTail]

/-- Each lane's tail is its digit of the tails of a vector. -/
theorem vecTails_digit (v : Vector Elem 8) (i : Fin 8) : vecTails v / 4 ^ i.val % 4 = v[i].tail.toNat := by
  have sum : vecTails v = v[0].tail.toNat + 4 * v[1].tail.toNat + 16 * v[2].tail.toNat + 64 * v[3].tail.toNat +
      256 * v[4].tail.toNat + 1024 * v[5].tail.toNat + 4096 * v[6].tail.toNat + 16384 * v[7].tail.toNat := by
    simp [vecTails, List.finRange_succ]
    ring
  rw [sum]
  fin_cases i <;> simp <;> omega

theorem vecTails_lt (v : Vector Elem 8) : vecTails v < 256 ^ 2 := by
  simp [vecTails, List.finRange_succ]
  omega

/-- The image of a vector register holds the value and the tail of each lane. -/
theorem Regs.restore_vec (q r : Regs) (d : BitVec 5) : r.restore 2 d (q.image 2 d) = r.setVec d (q.vec d) := by
  have image : q.image 2 d =
    (List.finRange 8).flatMap (fun i => leBytes 4 ((q.vec d)[i]).val.toNat) ++ leBytes 16 (vecTails (q.vec d)) := rfl
  have word (i : Fin 8) : BitVec.ofNat 32 (leValue (((q.image 2 d).drop (4 * i.val)).take 4)) = ((q.vec d)[i]).val := by
    have at_ := take_words ((List.finRange 8).map fun i => ((q.vec d)[i]).val.toNat) (leBytes 16 (vecTails (q.vec d)))
      (i := i.val) (by simp)
    rw [List.flatMap_map, ← image] at at_
    rw [at_, word_leBytes]
    simp
  have tails : leValue (((q.image 2 d).drop 32).take 2) = vecTails (q.vec d) := by
    rw [image, List.drop_left' (by simp [List.length_flatMap]), take_leBytes _ (by omega), leValue_leBytes]
    exact Nat.mod_eq_of_lt (vecTails_lt _)
  have lanes : (Vector.ofFn fun i : Fin 8 => (⟨BitVec.ofNat 32 (leValue (((q.image 2 d).drop (4 * i.val)).take 4)),
      BitVec.ofNat 2 (leValue (((q.image 2 d).drop 32).take 2) / 4 ^ i.val)⟩ : Elem)) = q.vec d := by
    ext i within
    rw [Vector.getElem_ofFn, word ⟨i, within⟩, tails, tail_of_digit (vecTails_digit (q.vec d) ⟨i, within⟩)]
    rfl
  exact congrArg (r.setVec d) lanes

/-! ### Registers filled from their own images -/

theorem Regs.get_put_own (q r : Regs) {d : BitVec 5} (plain : d.toNat < 28 ∨ d = 31) : (r.put d (q.get d)).get d = q.get d := by
  by_cases zero : d = 0
  · subst zero
    rfl
  · have other : d ≠ 28 ∧ d ≠ 29 ∧ d ≠ 30 := by
      revert plain
      revert d
      decide
    exact r.get_put _ zero other.1 other.2.1 other.2.2

/-- Both registers of a pair are filled. -/
theorem Regs.get_restore_pair (q r : Regs) {d : BitVec 5} (even : d.toNat % 2 = 0) (plain : d.toNat < 28) :
    (r.restore 1 d (q.image 1 d)).get d = q.get d ∧ (r.restore 1 d (q.image 1 d)).get (d + 1) = q.get (d + 1) := by
  have next : (d + 1).toNat < 28 ∧ d ≠ d + 1 := by
    revert even plain
    revert d
    decide
  rw [Regs.restore_pair]
  exact ⟨(Regs.get_put_ne _ _ next.2).trans (Regs.get_put_own q r (.inl plain)), Regs.get_put_own q _ (.inl next.1)⟩

theorem Regs.vec_setVec_same (r : Regs) (d : BitVec 5) (v : Vector Elem 8) : (r.setVec d v).vec d = v := by
  simp [Regs.vec, Regs.setVec]

theorem Regs.mask_restore (q r : Regs) (d : BitVec 5) :
    (r.restore 4 d (q.image 4 d)).mask (d.setWidth 3) = q.mask (d.setWidth 3) := by
  have byte : (q.image 4 d).getD 0 0 = q.mask (d.setWidth 3) := BitVec.ofNat_toNat ..|>.trans (BitVec.setWidth_eq _)
  have read : r.restore 4 d (q.image 4 d) = r.setMask (d.setWidth 3) ((q.image 4 d).getD 0 0) := rfl
  rw [read, byte]
  by_cases zero : d.setWidth 3 = 0
  · rw [zero]
    rfl
  · rw [Regs.mask_setMask _ _ _ zero, if_pos rfl]

theorem Regs.ext_restore (q r : Regs) (d : BitVec 5) :
    (r.restore 5 d (q.image 5 d)).ext (d.setWidth 3) = q.ext (d.setWidth 3) := by
  have read : r.restore 5 d (q.image 5 d) = r.setExt (d.setWidth 3)
    (BitVec.ofNat 32 (leValue ((leBytes 4 (q.ext (d.setWidth 3)).toNat)))) := rfl
  rw [read, Regs.ext_setExt, if_pos rfl, word_leBytes]
  simp

/-! ### The instructions (R166) -/

section
variable {s : State} {d a : BitVec 5} {c cls : BitVec 3} {p : Place}

theorem mem_spNoCtrl (near : p.space ≠ 4) : p.space ∈ spNoCtrl := by
  cases p <;> simp_all [Place.space, spNoCtrl]

/-- A spill of a register other than a capability stores its image. -/
theorem storesAt_spill (known : cls ∈ [0, 1, 2, 4, 5]) (near : p.space ≠ 4)
    (h : s.At (s.regs.cap c) (s.regs.val a).toInt (imageShape cls).1 (imageShape cls).2 pWR p) :
    StoresAt (.spill d a c cls) s [a] p (s.regs.image cls d) 0 4 := by
  intro ready quiet
  have data : cls ≠ 3 := by
    rintro rfl
    simp at known
  have checked := h.checked (k := .store) (mem_spNoCtrl near) (by cases p <;> simp [Place.takes]) nofun
  obtain ⟨t, write, stored, left⟩ := h.writeAt (s.regs.image cls d) (s.regs.length_image d known) (fun _ _ _ => by decide)
    (fun ctrl => absurd ctrl near) quiet
  rw [show s.regs.raise 0 = s.regs from s.regs.raise_zero]
  refine stores_of_memory rfl ready ⟨t, ?_, stored, left⟩
  rw [if_neg data]
  simp only [Regs.offset, checked, liftFault, run_ok_bind, write, left.regs]

/-- A fill of a register other than a capability restores it from the bytes of the place. -/
theorem loadsFrom_fill (known : cls ∈ [0, 1, 2, 4, 5]) (near : p.space ≠ 4)
    (h : s.At (s.regs.cap c) (s.regs.val a).toInt (imageShape cls).1 (imageShape cls).2 pRD p) :
    LoadsFrom (.fill d a c cls) s [a] [] p False 0
      ((s.regs.restore cls d (s.placeBytes (imageShape cls).1 p)).advance 4) := by
  have data : cls ≠ 3 := by
    rintro rfl
    simp at known
  refine loadsFrom_of_memory (plain := true) rfl h (fun ctrl => absurd ctrl near) fun t read kept => ?_
  have checked := h.checked (k := .load) (mem_spNoCtrl near) (by cases p <;> simp [Place.takes]) fun _ => rfl
  rw [if_neg data]
  simp only [Regs.offset, checked, liftFault, run_ok_bind, read, kept.regs]
  rfl

end

/-- Settles O24: an image is written by one store and read by one load, and gives its register back, class by class. -/
theorem spillsAndFills : Obligations.SpillsAndFills := by
  refine ⟨?_, fun q r d => ⟨fun plain => ?_, fun even plain => ?_, ?_, ?_, ?_⟩⟩
  · intro s d a c cls p known near z al
    have shape : z = (imageShape cls).1 ∧ al = (imageShape cls).2 := by
      simp only [List.mem_cons, List.not_mem_nil, or_false] at known
      obtain rfl | rfl | rfl | rfl | rfl := known <;> exact ⟨rfl, rfl⟩
    rw [shape.1, shape.2]
    exact ⟨s.regs.length_image d known, storesAt_spill known near, loadsFrom_fill known near⟩
  · rw [Regs.restore_scalar]
    exact Regs.get_put_own q r plain
  · exact Regs.get_restore_pair q r even plain
  · rw [Regs.restore_vec]
    exact Regs.vec_setVec_same ..
  · exact Regs.mask_restore q r d
  · exact Regs.ext_restore q r d

end Sys2Proof.Machine
end

section
/-!
PROOFS. Atomics and `WAITNE` (R160, R163, R167, R168, R177): a read that a write at the same place follows, and the one
action that an atomic is.
-/

namespace Sys2Proof.Machine

section
variable {s t u : State} {c : Cap} {off : Int} {z align : Nat} {need : BitVec 7} {p : Place}

/-! ### A read before a write at one place -/

/-- What a read of an admitted place leaves: the state as it was, or one whose lookaside buffer was used (R267). -/
def State.Touched (s t : State) : Prop := t = s ∨ ∃ f : List PlbEntry → List PlbEntry,
  t = s.updCore s.curCore fun k => { k with plb := f k.plb }

theorem State.Touched.keepsMe (touched : s.Touched t) : KeepsMe s t := by
  obtain rfl | ⟨f, rfl⟩ := touched
  · exact .refl _
  · exact .plb ..

theorem State.Touched.pkgs (touched : s.Touched t) : t.pkgs = s.pkgs := by
  obtain rfl | ⟨f, rfl⟩ := touched <;> rfl

theorem State.Touched.pkg (touched : s.Touched t) : t.pkg (pkgOf t.curCore) = s.pkg (pkgOf s.curCore) := by
  obtain rfl | ⟨f, rfl⟩ := touched <;> rfl

theorem State.Touched.monitors (touched : s.Touched t) : t.monitors = s.monitors ∧ t.monitorRoom = s.monitorRoom := by
  obtain rfl | ⟨f, rfl⟩ := touched <;> exact ⟨rfl, rfl⟩

theorem State.Touched.places (touched : s.Touched t) : KeepsPlaces s t := touched.keepsMe.places (.of_eq touched.pkgs)

/-- A rights check that passes within one region leaves the rights in the lookaside buffer (R267). -/
theorem State.Granted.held {a space core va : Nat} {host : Bool} (granted : s.Granted c z need a host)
    (kind : (space == spHOST) = host)
    (passed : s.checkRights s.curCore ⟨space, core, a, va, c.dom⟩ z need = .ok t) :
    ∃ e, (t.core s.curCore).plbFind c.dom (a / 2 ^ 21) host = .some e ∧ e.rights &&& rightsFor need = rightsFor need := by
  have some := granted.some
  have region := granted.region
  have single : (a + z - 1) / 2 ^ 21 - a / 2 ^ 21 = 0 := by omega
  have first : max a (a / 2 ^ 21 * 2 ^ 21) = a := by omega
  simp only [State.checkRights, single, Nat.zero_add, List.range_one, List.foldlM_cons, List.foldlM_nil, Nat.add_zero, first,
    kind] at passed
  obtain ⟨u, checked, same⟩ := run_bind_eq_ok passed
  cases same
  unfold State.checkRegion at checked
  dsimp only at checked
  split at checked
  · cases checked
  · next e found =>
    split at checked
    · next held =>
      cases checked
      exact ⟨e, found, held⟩
    · cases checked

/-- A local read leaves the state. -/
theorem State.readAt_local {x : Target} {n : Nat} {plain : Bool} {bytes : List Byte} (near : x.space = 0 ∨ x.space = 1)
    (read : s.readAt x n plain need = .ok (bytes, t)) : t = s := by
  have within : (x.space = spLOCAL || x.space = spWINDOW) = true := by
    obtain e | e := near <;> simp [e, spLOCAL, spWINDOW]
  rw [State.readAt, if_pos within] at read
  obtain ⟨-, -, done⟩ := run_bind_eq_ok read
  exact (congrArg Prod.snd (Except.ok.inj done)).symm

/-- After a read of a GLOBAL place that is admitted, it is admitted still. -/
theorem State.GlobalAt.read_again {a va : Nat} {plain : Bool} (h : s.GlobalAt c off z align need a) :
    ∃ t bytes, s.readAt ⟨2, s.home, a, va, c.dom⟩ z plain need = .ok (bytes, t) ∧ s.Touched t ∧
      t.GlobalAt c off z align need a := by
  obtain ⟨f, rights⟩ := h.toGranted.checkRights (space := 2) (core := s.home) (va := va) rfl
  obtain ⟨e, found, held⟩ := h.toGranted.held (space := 2) rfl rights
  generalize same : (s.updCore s.curCore fun k => { k with plb := f k.plb }) = u at *
  have kept : KeepsMe s u := same ▸ KeepsMe.plb s _ f
  have pkg (q : Nat) : u.pkg q = s.pkg q := same ▸ rfl
  have home := h.toLineServes.home
  have reached := h.toLineServes.reachAll h.some (t := u) (same ▸ rfl) pkg (same ▸ rfl)
  have clean := h.toLineServes.poisonAll h.some (t := u) (own := pkgOf s.curCore) (chain := []) (fun q => by rw [pkg]) rfl
  have alone : ∀ b, u.answering b (lineOf a) = none := u.answering_own (by rw [kept.core]; exact home)
  have copy : u.refreshCopy (pkgOf s.curCore) (a / 128) = u := u.refreshCopy_own home
  rw [h.toLineServes.lines h.some] at reached clean
  have me : u.me.tenant = s.me.tenant := congrArg Slot.tenant kept.me
  have serves : u.LineServes z a := by
    subst same
    exact ⟨h.oneLine, h.ours, h.inPod, h.held, h.alive, h.free, h.steady, h.whole, h.clean, h.served⟩
  refine ⟨u, (List.range z).map fun i => u.globalByte (pkgOf s.curCore) [] (a + i), ?_, .inr ⟨f, same.symm⟩,
    { toAdmits := ⟨h.tagged, h.owner.trans me.symm, h.space, h.perms, h.low, h.high, h.aligned⟩,
      toGranted := ⟨h.some, h.region, e, by rw [kept.core]; exact found, held⟩, toLineServes := serves,
      address := h.address, noView := by rw [kept.me]; exact h.noView }⟩
  simp only [State.readAt, spLOCAL, spWINDOW, spGLOBAL, rights, alone, run_ok_bind]
  simp [kept.core, reached, clean, h.toLineServes.lines h.some, copy, u.touchViews_nil, Slot.chain, h.noView]

/-- An admitted read of a place that takes atomics leaves it admitted. -/
theorem State.At.read_again (h : s.At c off z align need p) (near : p.space ≤ 2) (atomic : p.takes .atomic) (plain : Bool) :
    ∃ t, s.readAt (p.target s c off) z plain need = .ok (s.placeBytes z p, t) ∧ s.Touched t ∧ t.At c off z align need p := by
  have answers : s.answersAt p := by
    cases p with
    | host a => exact absurd near (by decide : ¬3 ≤ 2)
    | _ => trivial
  obtain ⟨t, read, kept⟩ := h.readAt answers plain fun ctrl => by omega
  have still (same : t = s) : s.Touched t ∧ t.At c off z align need p := ⟨.inl same, same ▸ h⟩
  refine ⟨t, read, ?_⟩
  cases p with
  | own a => exact still (State.readAt_local (.inl rfl) read)
  | rival a => exact still (State.readAt_local (.inl rfl) read)
  | window k a => exact still (State.readAt_local (.inr rfl) read)
  | global a =>
    have admitted : s.GlobalAt c off z align need a := h
    obtain ⟨u, bytes, read', touched, again⟩ := admitted.read_again (va := c.base + off.toNat) (plain := plain)
    have same := Prod.ext_iff.mp (Except.ok.inj (read.symm.trans read'))
    have end_ : t = u := same.2
    exact end_ ▸ ⟨touched, again⟩
  | version v a => exact absurd rfl atomic
  | host a => exact absurd near (by decide : ¬3 ≤ 2)
  | ctrl a => exact absurd near (by decide : ¬4 ≤ 2)

theorem KeepsMe.target (kept : KeepsMe s t) : p.target t c off = p.target s c off := by
  have home := kept.home
  cases p <;> simp [Place.target, home]

/-- What is stored after a step that keeps all places is stored with it. -/
theorem Stored.after {bytes : List Byte} {tag : Bool} (stored : Stored t u bytes p tag) (k : KeepsPlaces s t) :
    Stored s u bytes p tag := by
  obtain ⟨r, me⟩ := k.me
  have home : t.home = s.home := (congrArg Slot.home me).trans rfl
  have kept (q : Nat) : (t.pkg q).views = (s.pkg q).views ∧ (t.pkg q).tenants = (s.pkg q).tenants ∧
      (t.pkg q).host.mem = (s.pkg q).host.mem := by
    have parts := k.pkgs.pkg q
    exact ⟨congrArg (·.1) parts, congrArg (·.2.1) parts, congrArg (·.2.2) parts⟩
  have atCore {m a : Nat} (stored : StoredLocal t u m a bytes tag) : StoredLocal s u m a bytes tag :=
    ⟨fun b => by rw [stored.stored, (k.storage.locals m).1], fun g => by rw [stored.tags, (k.storage.locals m).2],
      fun n other => ⟨(stored.others n other).1.trans (k.storage.locals n).1, (stored.others n other).2.trans (k.storage.locals n).2⟩,
      stored.global.1.trans k.storage.global, stored.global.2.trans k.storage.tags⟩
  cases p with
  | own a => exact atCore (home ▸ stored)
  | window m a => exact atCore stored
  | global a =>
    exact ⟨fun b => by rw [stored.stored, k.storage.global], fun g => by rw [stored.tags, k.storage.tags],
      fun n => ⟨(stored.locals n).1.trans (k.storage.locals n).1, (stored.locals n).2.trans (k.storage.locals n).2⟩⟩
  | rival a =>
    exact ⟨k.storage.trans stored.1, fun b => by rw [stored.2.1, State.placeByte_keeps k],
      fun g => by rw [stored.2.2, State.placeTag_keeps k]⟩
  | version v a =>
    exact ⟨k.storage.trans stored.1, fun b => by rw [stored.2.1, State.placeByte_keeps k],
      fun g => by rw [stored.2.2, State.placeTag_keeps k]⟩
  | host a => exact ⟨k.storage.trans stored.1, by rw [← k.core, stored.2, (kept _).2.2]⟩
  | ctrl a =>
    refine ⟨k.storage.trans stored.1, ?_⟩
    have tenant : t.me.tenant = s.me.tenant := (congrArg Slot.tenant me).trans rfl
    rw [← k.core, ← tenant, stored.2, Package.tenant, Package.tenant, (kept _).2.1]

/-- A step that keeps all places stores nothing. -/
theorem Stored.nothing (k : KeepsPlaces s t) (near : p.space ≤ 2) : Stored s t [] p := by
  have none (g a : Nat) : g ∉ granules a ([] : List Byte).length := by simp [granules]
  refine Stored.keeps (t := s) ?_ k
  cases p with
  | own a => exact ⟨fun b => (if_neg (by simp)).symm, fun g => by rw [if_neg (none g a)], fun _ _ => ⟨rfl, rfl⟩, rfl, rfl⟩
  | window m a => exact ⟨fun b => (if_neg (by simp)).symm, fun g => by rw [if_neg (none g a)], fun _ _ => ⟨rfl, rfl⟩, rfl, rfl⟩
  | global a => exact ⟨fun b => (if_neg (by simp)).symm, fun g => by rw [if_neg (none g a)], fun _ => ⟨rfl, rfl⟩⟩
  | rival a => exact ⟨.refl s, fun b => (if_neg (by simp)).symm, fun g => by rw [if_neg (none g a)]⟩
  | version v a => exact ⟨.refl s, fun b => (if_neg (by simp)).symm, fun g => by rw [if_neg (none g a)]⟩
  | host a => exact absurd near (by decide : ¬3 ≤ 2)
  | ctrl a => exact absurd near (by decide : ¬4 ≤ 2)

theorem LeavesMe.after (left : LeavesMe t u) (kept : KeepsMe s t) : LeavesMe s u :=
  ⟨left.core.trans kept.core, left.slot.trans kept.slot, by rw [left.me, kept.me]⟩

end

/-! ### Atomics (R167, R168) -/

section
variable {s : State} {d a b : BitVec 5} {c : BitVec 3} {ord : BitVec 2} {scope : BitVec 3} {w : BitVec 1} {p : Place}

theorem mem_spMem (near : p.space ≤ 2) : p.space ∈ spMem := by
  interval_cases p.space <;> decide

/-- An atomic at a place that takes it answers the old value and writes what its function gives. -/
theorem atomicLeaves_of_atomic {i : Instr} {new : Regs → DWord → Option DWord × BitVec 6} {bytes : List Byte} {flags : BitVec 6}
    (e : exec i s = s.atomic i [a, b] d a c ord scope w new) (near : p.space ≤ 2) (takes : p.takes .atomic)
    (h : s.At (s.regs.cap c) (s.regs.val a).toInt (atomSize w) (atomSize w) pAT p) {old : DWord}
    (value : old = BitVec.ofNat 64 (leValue (s.placeBytes (atomSize w) p)))
    (flagged : (new s.regs old).2 = flags)
    (written : bytes = ((new s.regs old).1.map fun v => leBytes (atomSize w) v.toNat).getD []) :
    AtomicLeaves i s d a b w p old bytes flags := by
  intro ready quiet
  have checked := h.checked (k := .atomic) (mem_spMem near) takes nofun
  obtain ⟨t, read, touched, again⟩ := h.read_again near takes false
  have quiet : t.notWatching := touched.keepsMe.notWatching touched.monitors.1 quiet
  obtain ⟨u, write, stored, left⟩ : ∃ u, (match (new s.regs old).1 with
      | some v => t.writeAt (p.target s (s.regs.cap c) (s.regs.val a).toInt) (leBytes (atomSize w) v.toNat) pAT
      | none => .ok t) = .ok u ∧ Stored s u bytes p ∧ LeavesMe s u := by
    rw [written]
    cases (new s.regs old).1 with
    | none => exact ⟨t, rfl, .nothing touched.places near, touched.keepsMe.leavesMe⟩
    | some v =>
      obtain ⟨u, write, stored, left⟩ := again.writeAt (leBytes (atomSize w) v.toNat) (length_leBytes ..)
        (fun _ _ version => by subst version; exact absurd rfl takes) (fun ctrl => by omega) quiet
      rw [touched.keepsMe.target] at write
      exact ⟨u, write, stored.after touched.places, left.after touched.keepsMe⟩
  have acquired : KeepsMe u (if acquires ord then u.acquire scope else u) ∧
      KeepsPkgs u (if acquires ord then u.acquire scope else u) := by
    split
    · exact ⟨.acquire .., .acquire ..⟩
    · exact ⟨.refl _, .refl _⟩
  refine ⟨if acquires ord then u.acquire scope else u, ?_, stored.keeps (acquired.1.places acquired.2), left.keeps acquired.1⟩
  rw [e]
  refine congrArg Host.Outcome.next (s.memory_of_ok _ ready ?_)
  have regs := (left.keeps acquired.1).regs
  simp only [Regs.offset, checked, liftFault, run_ok_bind, read, ← value, flagged]
  revert write
  cases (new s.regs old).1 with
  | none =>
    rintro ⟨⟩
    rw [regs]
  | some v =>
    intro write
    simp only [write, run_ok_bind, regs]

/-- An atomic whose new value is a function of the old one and the operand. -/
theorem atomicLeaves_of_atomicOp {i : Instr} {f : DWord → DWord → DWord} {x old : DWord}
    (e : exec i s = s.atomicOp i d a b c ord scope w f) (near : p.space ≤ 2) (takes : p.takes .atomic)
    (h : s.At (s.regs.cap c) (s.regs.val a).toInt (atomSize w) (atomSize w) pAT p)
    (value : old = BitVec.ofNat 64 (leValue (s.placeBytes (atomSize w) p))) (new : f old (s.regs.atomVal w b) = x) :
    AtomicLeaves i s d a b w p old (leBytes (atomSize w) x.toNat) 0 :=
  atomicLeaves_of_atomic e near takes h value rfl (by simp [new])

end

section
variable {s : State} {d a b : BitVec 5} {c : BitVec 3} {ord : BitVec 2} {scope : BitVec 3} {w : BitVec 1} {p : Place} {old : DWord}

/-- `ACAS` writes where the old value is the expected one. -/
theorem atomicLeaves_acas (near : p.space ≤ 2) (takes : p.takes .atomic)
    (h : s.At (s.regs.cap c) (s.regs.val a).toInt (atomSize w) (atomSize w) pAT p)
    (value : old = BitVec.ofNat 64 (leValue (s.placeBytes (atomSize w) p))) :
    AtomicLeaves (.acas d a b c ord scope w) s d a b w p old
      (if old = s.regs.atomVal w d then leBytes (atomSize w) (s.regs.atomVal w b).toNat else []) 0 := by
  have e : exec (.acas d a b c ord scope w) s = s.atomic (.acas d a b c ord scope w) [a, b] d a c ord scope w
    fun r old => (if old = r.atomVal w d then some (r.atomVal w b) else none, 0) := rfl
  refine atomicLeaves_of_atomic e near takes h value rfl ?_
  split <;> rfl

/-- `AFADD` writes the sum that `FINAL` rounds. -/
theorem atomicLeaves_afadd (near : p.space ≤ 2) (takes : p.takes .atomic)
    (h : s.At (s.regs.cap c) (s.regs.val a).toInt (atomSize w) (atomSize w) pAT p)
    (value : old = BitVec.ofNat 64 (leValue (s.placeBytes (atomSize w) p))) :
    AtomicLeaves (.afadd d a b c ord scope w) s d a b w p old
      (leBytes (atomSize w) (afaddNew w s.regs.fcr old (s.regs.elem (afaddType w) b)).bits.toNat)
      (afaddNew w s.regs.fcr old (s.regs.elem (afaddType w) b)).flags := by
  have e : exec (.afadd d a b c ord scope w) s = s.atomic (.afadd d a b c ord scope w) [a, b] d a c ord scope w
    fun r old => (some (afaddNew w r.fcr old (r.elem (afaddType w) b)).bits,
      (afaddNew w r.fcr old (r.elem (afaddType w) b)).flags) := rfl
  exact atomicLeaves_of_atomic e near takes h value rfl rfl

end

/-- The lesser of two operands of an atomic as signed numbers, the old one where they are equal (R167). -/
def signedMin (w : BitVec 1) (x y : DWord) : DWord := if atomInt w y < atomInt w x then y else x

/-- The greater of the two (R167). -/
def signedMax (w : BitVec 1) (x y : DWord) : DWord := if atomInt w x < atomInt w y then y else x

theorem atomics : Atomics := by
  intro s d a b c ord scope w p near takes z old y leaves less h
  have op {i : Instr} {f : DWord → DWord → DWord} {x : DWord} (e : exec i s = s.atomicOp i d a b c ord scope w f)
      (new : f old y = x) : leaves i x := atomicLeaves_of_atomicOp e near takes h rfl new
  have lesser (x y : DWord) : less x y ↔ atomInt w x < atomInt w y := by
    simp only [less, atomInt]
    split <;> rfl
  refine ⟨op (f := (· + ·)) rfl rfl, op (f := (· &&& ·)) rfl rfl, op (f := (· ||| ·)) rfl rfl, op (f := (· ^^^ ·)) rfl rfl,
    op (f := fun _ y => y) rfl rfl, ?_, fun lt => ?_, fun ge => ?_, fun lt => ?_, fun ge => ?_, ?_, ?_, ?_⟩
  · exact atomicLeaves_acas near takes h rfl
  · exact op (f := signedMin w) rfl (if_pos ((lesser _ _).mp lt))
  · exact op (f := signedMin w) rfl (if_neg fun lt => ge ((lesser _ _).mpr lt))
  · exact op (f := signedMax w) rfl (if_pos ((lesser _ _).mp lt))
  · exact op (f := signedMax w) rfl (if_neg fun lt => ge ((lesser _ _).mpr lt))
  · exact op (f := execAminUnsigned.aluMinn64) rfl (by simp [execAminUnsigned.aluMinn64, BitVec.ult])
  · exact op (f := fun x y => if x.ult y then y else x) rfl (by simp [BitVec.ult])
  · exact atomicLeaves_afadd near takes h rfl

/-! ### `WAITNE` (R177) -/

/-- The core whose table watches a place (R177). -/
def Place.watchedCore (s : State) : Place → Nat
  | .window k _ => k
  | _ => s.home

/-- The view whose window copy a monitor watches (R177). -/
def Place.watchedView (s : State) : Place → Option Nat
  | .rival _ => s.me.rivalView.map (·.num)
  | _ => none

/-- The core and the view of the monitor that a `WAITNE` arms at a place. -/
theorem State.monitorOf_target {s t : State} {c : Cap} {off : Int} {z align : Nat} {need : BitVec 7} {p : Place}
    (h : s.At c off z align need p) (kept : KeepsMe s t) (n : Nat) (y : DWord) :
    t.monitorOf (p.target s c off) n y = ⟨p.space, p.watchedCore s, p.addr, n, y, p.watchedView s, s.curCore, s.curSlot⟩ := by
  unfold State.monitorOf
  rw [kept.me, kept.core, kept.slot]
  cases p with
  | own a =>
    have admitted : s.LocalAt c off z align need a := h
    simp [Place.target, Place.space, Place.addr, Place.watchedCore, Place.watchedView, Slot.rivalView_none admitted.outside]
  | _ => simp [Place.target, Place.space, Place.addr, Place.watchedCore, Place.watchedView, spLOCAL]

/-- Settles O25: an atomic is a read and a write at its place, and `WAITNE` is a read of it and a monitor. -/
theorem atomicsAndWaits : Obligations.AtomicsAndWaits := by
  refine ⟨atomics, ?_⟩
  intro s d a b c ord scope w p near takes i z x y core view armed held h ready
  have checked : s.checked (s.regs.cap c) (s.regs.offset a) (atomSize w) (atomSize w) spMem pAT .atomic =
    .ok (p.target s (s.regs.cap c) (s.regs.val a).toInt) := h.checked (k := .atomic) (mem_spMem near) takes nofun
  obtain ⟨t, read, touched, -⟩ := h.read_again near takes false
  have read : s.readAt (p.target s (s.regs.cap c) (s.regs.val a).toInt) (atomSize w) false pAT = .ok (s.placeBytes z p, t) :=
    read
  have kept := touched.keepsMe
  have monitor : t.monitorOf (p.target s (s.regs.cap c) (s.regs.val a).toInt) (atomSize w) y = armed := by
    rw [State.monitorOf_target h kept (atomSize w) y]
    cases p <;> rfl
  obtain ⟨monitors, room⟩ := touched.monitors
  refine ⟨fun differs answers _ => ⟨t, congrArg Host.Outcome.next ?_, kept, fun _ => touched.pkgs⟩,
    fun equal free => ⟨t, kept, monitors, congrArg Host.Outcome.next (State.scoped_of_wait ready ?_)⟩,
    fun equal full => ⟨t, kept, congrArg Host.Outcome.next (State.scoped_of_wait ready ?_)⟩⟩
  · have acquired : (if acquires ord then t.acquire scope else t).regs = s.regs := kept.regs_acquired _ scope
    have code : acquires ord = true ↔ ord = 1 ∨ ord = 3 := by simp [acquires]
    rw [s.scoped_of_ok ((if acquires ord then t.acquire scope else t).setRegs ((s.regs.setAtom w d x).advance 4)) ready]
    · rw [State.regs_setRegs, State.completed_setRegs]
      simp only [code]
    · simp only [checked, read]
      refine (if_pos differs).trans ?_
      rw [acquired]
  · simp only [checked, read]
    refine (if_neg (not_not_intro equal)).trans ?_
    have full : ¬t.monitorRoom ≤ (t.monitors.filter (·.table == armed.table)).length := by
      rw [monitors, room]
      exact Nat.not_le.mpr free
    rw [monitor, if_neg full, touched.pkg]
  · simp only [checked, read]
    refine (if_neg (not_not_intro equal)).trans ?_
    have full : t.monitorRoom ≤ (t.monitors.filter (·.table == armed.table)).length := by
      rw [monitors, room]
      exact full
    rw [monitor, if_pos full]

end Sys2Proof.Machine
end

section
/-!
PROOFS. Queue messages (R160, R182, R183): what a message that leaves its core makes of the issuing thread and of the queue it
enters, and the instructions that poll and send.
-/

namespace Sys2Proof.Machine

section
variable {s t : State} {c q : Nat}

/-! ### Registers -/

theorem State.regs_entryLeft (s : State) (c q : Nat) : (s.entryLeft c q).regs = s.regs := by
  unfold State.entryLeft
  split
  · rfl
  · exact s.regs_updCore _ _ rfl

theorem State.regs_setQueue (s : State) (c q : Nat) (x : Queue) : (s.setCore c ((s.core c).setQueue q x)).regs = s.regs :=
  State.regs_eq_of_slot rfl rfl (s.slot_setCore_slots c ((s.core c).setQueue q x) rfl _ _)

theorem State.regs_scribePop (s : State) (c : Nat) (seq : Option Nat) (owner : Option (Fin 8 × BitVec 8)) :
    (s.scribePop c seq owner).regs = s.regs := by
  unfold State.scribePop
  split <;> rfl

/-- An entry that leaves its queue, or the thread's replayed entries, leaves the registers (R31, R363). -/
theorem State.regs_takeEntry {e : Entry} (took : s.takeEntry q = some (e, t)) : t.regs = s.regs := by
  unfold State.takeEntry at took
  dsimp only at took
  split at took
  · cases took
    rw [State.regs, State.me_updMe]
    rfl
  · split at took
    · cases took
    · next x u got =>
      cases took
      rw [State.regs_scribePop]
      split at got
      · unfold State.popReturn at got
        dsimp only at got
        split at got
        · cases got
        · cases got
          exact s.regs_setQueue ..
      · unfold State.popQueue at got
        dsimp only at got
        split at got
        · cases got
        · cases got
          exact (State.regs_entryLeft ..).trans (s.regs_setQueue ..)

theorem State.regs_unreserve (s : State) (c q n : Nat) : (s.unreserve c q n).regs = s.regs := by
  unfold State.unreserve
  split
  · rfl
  · exact s.regs_updCore _ _ rfl

theorem State.regs_enter (s : State) (c q : Nat) (entries : List Entry) (resv : Nat) :
    (s.enter c q entries resv).regs = s.regs := by
  unfold State.enter
  generalize entries.zipIdx = l
  induction l generalizing s with
  | nil => rfl
  | cons e l ih => rw [List.foldl_cons, ih, State.regs_pushQueue]

theorem State.regs_park (s : State) (m : Parked) : (s.park m).regs = s.regs := by
  unfold State.park
  dsimp only
  split
  · rfl
  · split
    · exact s.regs_updCore m.core (·.orphan 1) rfl
    · rfl

/-- A message that arrives at a queue leaves the registers. -/
theorem State.regs_arriveQueue (s : State) (m : Parked) : (s.arriveQueue m).regs = s.regs := by
  unfold State.arriveQueue
  dsimp only
  split
  · exact (State.regs_updCore _ _ _ rfl).trans (s.regs_unreserve ..)
  · split
    · exact s.regs_enter ..
    · exact s.regs_park _

theorem State.regs_countSent (s : State) (c : Nat) : (s.countSent c).regs = s.regs := s.regs_updCore _ _ rfl

theorem State.regs_countReceived (s : State) (c : Nat) : (s.countReceived c).regs = s.regs := s.regs_updCore _ _ rfl

/-- A message that leaves along any path leaves the registers where its arrival in the same step does. -/
theorem State.regs_sendTo (s : State) (src dst dom : Nat) (x : Payload) {near : State → State}
    (same : (near s).regs = s.regs) : (s.sendTo src dst dom x near).regs = s.regs := by
  unfold State.sendTo
  split
  · rw [State.regs_countReceived, State.regs_countSent, same]
  · exact State.regs_countSent ..
  · exact State.regs_countSent ..
  · rfl

theorem State.regs_sendQueue (s : State) (src dst dom q : Nat) (entries : List Entry) (resv : Nat) :
    (s.sendQueue src dst dom q entries resv).regs = s.regs := s.regs_sendTo _ _ _ _ (s.regs_arriveQueue _)

/-! ### The queue that a message enters (R183, R278) -/

/-- The entries of a message stand last in their queue, in their order. -/
theorem State.words_enter (s : State) (c q : Nat) (entries : List Entry) (resv : Nat) :
    (((s.enter c q entries resv).core c).queue q).entries.map (·.words) =
      ((s.core c).queue q).entries.map (·.words) ++ entries := by
  have folded (l : List (Entry × Nat)) (n : Nat) : ∀ s : State,
      (((l.foldl (fun s e => s.pushQueue c q (if q = 6 then 3 else 0) e.1 (decide (e.2 < resv)) (n == 2 && e.2 == 0)) s).core
        c).queue q).entries.map (·.words) = ((s.core c).queue q).entries.map (·.words) ++ l.map (·.1) := by
    induction l with
    | nil => simp
    | cons e l ih =>
      intro s
      rw [List.foldl_cons, ih, State.words_pushQueue, List.append_assoc]
      rfl
  rw [State.enter, folded, List.zipIdx_map_fst]

/-- A count of a core's messages leaves every queue. -/
theorem State.queue_counted (s : State) (src dst q : Nat) :
    (((s.countSent src).countReceived src).core dst).queue q = (s.core dst).queue q := by
  simp only [State.countSent, State.countReceived, State.updCore_eq]
  by_cases own : dst = src
  · subst own
    simp [Core.queue]
  · simp [State.core_setCore_ne _ _ own]

/-- A message without a reservation, whose triple has nothing parked and for which there is space, enters its queue at once
where its path is near. -/
theorem State.words_sendQueue {src dst dom : Nat} {entries : List Entry} (near : s.path src dst = .near)
    (kept : (s.core dst).discards q dom entries = false) (first : (s.pkg (pkgOf dst)).waits src dst = false)
    (room : entries.length ≤ ((s.core dst).queue q).free) :
    (((s.sendQueue src dst dom q entries 0).core dst).queue q).entries.map (·.words) =
      ((s.core dst).queue q).entries.map (·.words) ++ entries := by
  rw [State.sendQueue, State.sendTo, near]
  dsimp only
  rw [State.queue_counted]
  have admitted : ((s.core dst).queue q).admits entries.length 0 = true := by simp [Queue.admits, room]
  rw [State.arriveQueue]
  dsimp only
  rw [kept, first, admitted]
  exact s.words_enter ..

/-- A core is as it was where the issuing thread's slot is put back as it was. -/
theorem State.core_updMe_self {f : Slot → Slot} (same : f s.me = s.me) (c : Nat) : (s.updMe f).core c = s.core c := by
  rw [State.updMe_eq, same, State.setSlot]
  by_cases own : c = s.curCore
  · subst own
    simp [State.me, State.slot, Core.slot, State.updCore_eq, Core.setSlot]
  · exact s.core_setCore_ne _ own

end

/-! ### The instructions (R182, R183) -/

section
variable {s : State} {name : Word} {q : Nat} {entries : List Entry}

theorem State.sendBody_badName (bad : s.goodName name.toNat = false) :
    s.sendBody name q entries = .error (.trap s ⟨3, 7, name.zeroExtend 64, 0⟩) := by
  simp only [State.sendBody, State.checkName, bad]
  rfl

theorem State.sendBody_world (good : s.goodName name.toNat = true) (world : s.me.inWorld = true) :
    s.sendBody name q entries = .error (.trap s ⟨6, 0, 0, 0⟩) := by
  simp only [State.sendBody, State.checkName_of_good good, world]
  rfl

/-- Inside a domain a send joins the outbox (R183). -/
theorem State.sendBody_domain {u : View} {rest : List View} (good : s.goodName name.toNat = true)
    (outside : s.me.inWorld = false) (views : s.me.views = u :: rest) :
    s.sendBody name q entries = .ok (s.updMe fun t =>
      { t with views := { u with outbox := u.outbox ++ [.send name.toNat q entries] } :: rest }) := by
  have head : u.rival = false := by
    have none : ∀ v ∈ s.me.views, v.rival = false := by simpa [Slot.inWorld] using outside
    exact none u (by simp [views])
  have domain : s.me.inDomain = true := by simp [Slot.inDomain, views, head]
  have me : s.slot s.curCore s.curSlot = s.me := rfl
  simp only [State.sendBody, State.checkName_of_good good, outside, domain, Bool.false_eq_true, if_false, if_true]
  simp only [State.updMe_eq, views]

/-- Outside every view a send leaves its core, with as many of the thread's reservations as it consumes (R183, R278). -/
theorem State.sendBody_base (good : s.goodName name.toNat = true) (views : s.me.views = []) (free : s.releasing = false) :
    s.sendBody name q entries = .ok ((s.updMe fun t => { t with
      resv := t.resv - s.reservationFor name.toNat q entries.length }).sendQueue s.home name.toNat s.me.tenant q entries
        (s.reservationFor name.toNat q entries.length)) := by
  have outside : s.me.inWorld = false := by simp [Slot.inWorld, views]
  have domain : s.me.inDomain = false := by simp [Slot.inDomain, views]
  simp only [State.sendBody, State.checkName_of_good good, outside, domain, free, Bool.false_eq_true, if_false]
  rfl

/-- A thread without reservations consumes none. -/
theorem State.reservationFor_none (none : s.me.resv = 0) (dst n : Nat) : s.reservationFor dst q n = 0 := by
  unfold State.reservationFor
  simp only [none, Nat.min_zero]
  split
  · rfl
  · split <;> rfl

end

section
variable {s : State} {a : BitVec 5} {q : Nat} {entries : List Entry} {i : Instr} {body : State → Run}

/-- What an instruction that sends entries does, by the name, the views and the space that it finds. -/
theorem sends_of_sendBody
    (e : exec i s = .next (s.issue [a] [] body))
    (sent : body s = (s.sendBody (s.regs.val a) q entries).map fun s => s.setRegs (s.regs.advance 4))
    (ready : s.portsReady [a] []) :
    (s.goodName (s.regs.val a).toNat = false → exec i s = .next (s.trapMe ⟨3, 7, (s.regs.val a).zeroExtend 64, 0⟩)) ∧
    (s.goodName (s.regs.val a).toNat = true → s.me.inWorld = true → exec i s = .next (s.trapMe ⟨6, 0, 0, 0⟩)) ∧
    (∀ u rest, s.goodName (s.regs.val a).toNat = true → s.me.inWorld = false → s.me.views = u :: rest →
      exec i s = .next ((s.updMe fun t =>
        { t with views := { u with outbox := u.outbox ++ [.send (s.regs.val a).toNat q entries] } :: rest }).completed [a] []
          (s.regs.advance 4))) ∧
    (s.goodName (s.regs.val a).toNat = true → s.me.views = [] → s.releasing = false →
      ∃ t : State, exec i s = .next (t.completed [a] [] (s.regs.advance 4)) ∧
        (s.path s.home (s.regs.val a).toNat = .near →
          (s.core (s.regs.val a).toNat).discards q s.me.tenant entries = false → s.me.resv = 0 →
          (s.pkg (pkgOf (s.regs.val a).toNat)).waits s.home (s.regs.val a).toNat = false →
          entries.length ≤ ((s.core (s.regs.val a).toNat).queue q).free →
            ((t.core (s.regs.val a).toNat).queue q).entries.map (·.words) =
              ((s.core (s.regs.val a).toNat).queue q).entries.map (·.words) ++ entries)) := by
  have completes {t : State} (done : s.sendBody (s.regs.val a) q entries = .ok t) (same : t.regs = s.regs) :
      exec i s = .next (t.completed [a] [] (s.regs.advance 4)) := by
    rw [e, s.issue_of_ok (t.setRegs (t.regs.advance 4)) ready (by rw [sent, done]; rfl), State.regs_setRegs,
      State.completed_setRegs, same]
  refine ⟨fun bad => ?_, fun good world => ?_, fun u rest good outside views => ?_, fun good views free => ?_⟩
  · rw [e, s.issue_of_trap s ready (by rw [sent, State.sendBody_badName bad]; rfl)]
  · rw [e, s.issue_of_trap s ready (by rw [sent, State.sendBody_world good world]; rfl)]
  · exact completes (State.sendBody_domain good outside views) (by rw [State.regs, State.me_updMe]; rfl)
  · refine ⟨_, completes (State.sendBody_base good views free) ?_, fun near kept none first room => ?_⟩
    · rw [State.regs_sendQueue, State.regs, State.me_updMe]
      rfl
    · rw [State.reservationFor_none none]
      have self := State.core_updMe_self (s := s) (f := fun t => { t with resv := t.resv - 0 }) rfl (s.regs.val a).toNat
      rw [← self] at kept room ⊢
      exact State.words_sendQueue near kept first room

end

section
variable {s : State} {d : BitVec 5} {q : BitVec 3}

/-- What a poll does, by the queue it polls. -/
theorem exec_qpoll (s : State) (d : BitVec 5) (q : BitVec 3) : exec (.qpoll d q) s = execQpoll d q s := rfl

/-- A poll that answers a word without popping completes with it. -/
theorem completes_qpoll {x : Word}
    (answers : (q ≠ 6 ∧ x = BitVec.ofNat 32 ((s.core s.home).queue q.toNat).entries.length) ∨
      (q = 6 ∧ x = 0 ∧ (s.regs.qrx ≠ [] ∨ s.takeEntry 6 = none))) :
    Completes (.qpoll d q) s [] [d] (s.wrote d x 4) := by
  intro ready
  rw [exec_qpoll, execQpoll, s.issue_of_ok (s.setRegs (s.wrote d x 4)) ready, State.regs_setRegs, State.completed_setRegs]
  dsimp only
  obtain ⟨other, rfl⟩ | ⟨rfl, rfl, filled | none⟩ := answers
  · rw [if_pos other]
    rfl
  · have filled : s.me.regs.qrx ≠ [] := filled
    rw [if_neg (not_not_intro rfl), if_pos filled]
    rfl
  · rw [if_neg (not_not_intro rfl), none]
    split <;> rfl

/-- A poll of queue 6 that pops a return escapes in a world and fills `qrx` with it elsewhere (R31, R160). -/
theorem exec_qpoll_return {e : Entry} {t : State} (empty : s.regs.qrx = []) (took : s.takeEntry 6 = some (e, t))
    (ready : s.portsReady [] [d]) :
    (s.me.inWorld = true → exec (.qpoll d 6) s = .next (s.trapMe ⟨6, 0, 0, 0⟩)) ∧
    (s.me.inWorld = false → exec (.qpoll d 6) s =
      .next (t.completed [] [d] (((s.regs.setBuffer .qrx (entryWords e)).setVal d 1).advance 4))) := by
  have unfilled : ¬s.me.regs.qrx ≠ [] := not_not_intro empty
  rw [exec_qpoll, execQpoll]
  refine ⟨fun world => ?_, fun outside => ?_⟩
  · rw [s.issue_of_trap s ready]
    dsimp only
    rw [if_neg (not_not_intro rfl), if_neg unfilled, took]
    exact if_pos world
  · have regs := State.regs_takeEntry took
    rw [s.issue_of_ok (t.setRegs (((s.regs.setBuffer .qrx (entryWords e)).setVal d 1).advance 4)) ready, State.regs_setRegs,
      State.completed_setRegs]
    dsimp only
    rw [if_neg (not_not_intro rfl), if_neg unfilled, took]
    dsimp only
    rw [outside, if_neg (by decide), State.regs_setRegs, State.setRegs_setRegs, regs]

end

/-- Settles O28: a poll answers what the queue holds, and a send goes where its name, the thread's views and the path lead. -/
theorem queueMessages : Obligations.QueueMessages := by
  intro s d a b q r me dst v one two sends
  have single : exec (.qsend a b q) s = execQsend a b q s := rfl
  have pair : exec (.qsendd a b q) s = execQsendd a b q s := rfl
  exact ⟨fun other => completes_qpoll (.inl ⟨other, rfl⟩), fun none => completes_qpoll (.inr ⟨rfl, rfl, none⟩),
    fun e t empty took ready => exec_qpoll_return empty took ready,
    fun ready => sends_of_sendBody (i := .qsend a b q) (entries := one) single rfl ready,
    fun ready => sends_of_sendBody (i := .qsendd a b q) (entries := two) pair rfl ready⟩

end Sys2Proof.Machine
end

section
/-!
PROOFS. Messages that arrive (R183 to R186, R199, R227, R280, R287, R336, R343): the message that the events of its kind take
from the fabric, and what its arrival makes of the state.
-/

namespace Sys2Proof.Machine

section
variable {s : State} {m : Msg} {rest : List Msg} {pick : Payload → Bool}

/-! ### The message taken (R227, R280, R308) -/

/-- The first message under way is the next of its kind at its core, where nothing holds it. -/
theorem State.nextMsg_first (first : s.fabric = m :: rest) (edge : s.edgeHolds m.src m.dst = false)
    (carried : s.carries m.src m.dst 2 = true) (travels : m.onMessage = true) (picked : pick m.payload = true)
    (start : m.payload.starts = true → s.startsFirst m.dst = false)
    (port : m.payload.isCommand = true → s.portBusy m.src m.dst = false) : s.nextMsg m.dst pick = some m := by
  have idle : (m.payload.starts && s.startsFirst m.dst) = false := by
    cases asks : m.payload.starts
    · rfl
    · simp [start asks]
  have open_ : (m.payload.isCommand && s.portBusy m.src m.dst) = false := by
    cases asks : m.payload.isCommand
    · rfl
    · simp [port asks]
  rw [State.nextMsg, first, List.find?_cons]
  simp [travels, edge, carried, picked, idle, open_]

/-- It arrives with the others left under way. -/
theorem State.takeMsg_of_next (first : s.fabric = m :: rest) {c : Nat} (next : s.nextMsg c pick = some m) :
    s.takeMsg c pick = { s with fabric := rest }.arrival m := by
  rw [State.takeMsg, next, first]
  simp

/-- A core to which the one message under way does not go takes none. -/
theorem State.takeMsg_other (only : s.fabric = [m]) {c : Nat} (other : c ≠ m.dst) : s.takeMsg c pick = s := by
  have none : s.nextMsg c pick = none := by
    have away : (m.dst == c) = false := beq_false_of_ne (Ne.symm other)
    rw [State.nextMsg, only, List.find?_cons, away]
    rfl
  rw [State.takeMsg, none]

/-! ### What an arrival is (R336, R343, R364) -/

/-- A request that names another incarnation of its die issues again with the one that the map holds. -/
theorem State.arrival_stale (asks : m.payload.asks = true) (old : m.dinc ≠ (s.pkg (pkgOf m.dst)).mapInc false (dieOf m.dst)) :
    s.arrival m = { s with fabric := { m with dinc := (s.pkg (pkgOf m.dst)).mapInc false (dieOf m.dst) } :: s.fabric } := by
  have stale : s.stale m = true := by simp [State.stale, asks, old]
  rw [State.arrival, if_pos stale]

theorem State.stale_of_known (known : m.payload.asks = true → m.dinc = (s.pkg (pkgOf m.dst)).mapInc false (dieOf m.dst)) :
    s.stale m = false := by
  unfold State.stale
  cases asks : m.payload.asks
  · rfl
  · simp [known asks]

/-- A message that is admitted and not held at the hub is served and counted. -/
theorem State.arrival_served (known : m.payload.asks = true → m.dinc = (s.pkg (pkgOf m.dst)).mapInc false (dieOf m.dst))
    (admitted : s.admitted m = true) (room : s.scribeHolds m.src m.dst = false) (first : s.heldBehind m.src m.dst = false) :
    s.arrival m = (s.serve m).countArrived m := by
  simp [State.arrival, s.stale_of_known known, admitted, room, first]

/-- A message that fails a check is refused and counted. -/
theorem State.arrival_refused (known : m.payload.asks = true → m.dinc = (s.pkg (pkgOf m.dst)).mapInc false (dieOf m.dst))
    (refused : s.admitted m = false) : s.arrival m = (s.refuse m).countArrived m := by
  simp [State.arrival, s.stale_of_known known, refused]

/-! ### Entries that arrive (R183, R184, R277) -/

theorem State.fabric_enter (s : State) (c q : Nat) (entries : List Entry) (resv : Nat) :
    (s.enter c q entries resv).fabric = s.fabric := by
  unfold State.enter
  generalize entries.zipIdx = l
  induction l generalizing s with
  | nil => rfl
  | cons e l ih =>
    rw [List.foldl_cons, ih]
    unfold State.pushQueue
    dsimp only
    rw [OnlyPkgs.pushLogged s c q]
    rfl

theorem State.fabric_park (s : State) (m : Parked) : (s.park m).fabric = s.fabric := by
  unfold State.park
  dsimp only
  split
  · rfl
  · split <;> rfl

/-- Entries that arrive leave the messages under way. -/
theorem State.fabric_arriveQueue (s : State) (m : Parked) : (s.arriveQueue m).fabric = s.fabric := by
  unfold State.arriveQueue
  dsimp only
  split
  · unfold State.unreserve
    split <;> rfl
  · split
    · exact s.fabric_enter ..
    · exact s.fabric_park _

/-- Orphans are counted and change no queue. -/
theorem State.arriveQueue_discards {p : Parked} (orphan : (s.core p.core).discards p.q p.dom p.entries = true)
    (none : p.resv = 0) : ((s.arriveQueue p).core p.core).queues = (s.core p.core).queues ∧
      ((s.arriveQueue p).core p.core).orph = BitVec.ofNat 32 (min ((s.core p.core).orph.toNat + 1) 0xFFFFFFFF) := by
  simp only [State.arriveQueue, orphan, if_true, none, State.unreserve, State.updCore_eq, State.core_setCore]
  exact ⟨rfl, rfl⟩

/-- Entries for which there is space, behind none of their triple, stand last in their queue. -/
theorem State.words_arriveQueue {p : Parked} (kept : (s.core p.core).discards p.q p.dom p.entries = false)
    (first : (s.pkg (pkgOf p.core)).waits p.src p.core = false) (none : p.resv = 0)
    (room : p.entries.length ≤ ((s.core p.core).queue p.q).free) :
    (((s.arriveQueue p).core p.core).queue p.q).entries.map (·.words) =
      ((s.core p.core).queue p.q).entries.map (·.words) ++ p.entries := by
  have admitted : ((s.core p.core).queue p.q).admits p.entries.length p.resv = true := by simp [Queue.admits, none, room]
  have entered : s.arriveQueue p = s.enter p.core p.q p.entries p.resv := by
    simp [State.arriveQueue, kept, first, admitted]
  rw [entered]
  exact s.words_enter ..

end

/-- The event by which entries arrive at a queue takes the next message for it. -/
theorem queueEvent (s : State) (c : Nat) (q : Fin 8) :
    exec (if q = 6 then .returnArrival c else .queueArrival c q) s = .next (s.takeMsg c (Payload.isQueue q.val)) := by
  split
  · subst_vars
    rfl
  · next other =>
    have number : q.val ≠ 6 := fun same => other (Fin.ext same)
    exact congrArg Host.Outcome.next (if_neg number)

/-- Settles O36: the first message is the next of its kind, and its arrival is the service or the refusal of its payload. -/
theorem messageArrivals : Obligations.MessageArrivals := by
  intro s m rest q es r st peg n gen req x e bound src ten other k e' peg' first edge carried u event counted idle now
  have next {pick : Payload → Bool} (travels : m.onMessage = true) (picked : pick m.payload = true)
      (start : m.payload.starts = true → s.startsFirst m.dst = false)
      (port : m.payload.isCommand = true → s.portBusy m.src m.dst = false) : s.nextMsg m.dst pick = some m :=
    State.nextMsg_first first edge carried travels picked start port
  have launched (payload : m.payload = .launch e bound peg) (start : idle) :
      exec (.launchMessage src ten m.dst e' k peg') s = .next (u.arrival m) := by
    have found := next (pick := Payload.isLaunch) (by rw [Msg.onMessage, payload]) (by rw [payload]; rfl) (fun _ => start)
      (by rw [payload]; nofun)
    refine congrArg Host.Outcome.next ?_
    rw [found, first]
    simp [u]
  have entered {r : Nat} (payload : m.payload = .queue q.val es r) : exec (event q) s = .next (u.arrival m) := by
    have found := next (pick := Payload.isQueue q.val) (by rw [Msg.onMessage, payload]) (by rw [payload]; simp [Payload.isQueue])
      (by rw [payload]; nofun) (by rw [payload]; nofun)
    refine (queueEvent s m.dst q).trans (congrArg Host.Outcome.next ?_)
    exact State.takeMsg_of_next first found
  have deposited (payload : m.payload = .callat st peg n gen) : exec (.callatDeposit m.dst) s = .next (u.arrival m) :=
    congrArg Host.Outcome.next (State.takeMsg_of_next first (next (pick := Payload.isCallat) (by rw [Msg.onMessage, payload])
      (by rw [payload]; rfl) (by rw [payload]; nofun) (by rw [payload]; nofun)))
  have spawned (payload : m.payload = .spawn req) (start : idle) : exec (.spawnRequest m.dst) s = .next (u.arrival m) :=
    congrArg Host.Outcome.next (State.takeMsg_of_next first (next (pick := Payload.isSpawn) (by rw [Msg.onMessage, payload])
      (by rw [payload]; rfl) (fun _ => start) (by rw [payload]; nofun)))
  have served (known : m.payload.asks = true → m.dinc = now) (admitted : s.admitted m = true)
      (room : s.scribeHolds m.src m.dst = false) (ahead : s.heldBehind m.src m.dst = false) {t : State}
      (serves : u.serve m = t) : u.arrival m = t.countArrived m :=
    serves ▸ State.arrival_served (s := u) known admitted room ahead
  have rejected (known : m.payload.asks = true → m.dinc = now) (refused : s.admitted m = false) {t : State}
      (refuses : u.refuse m = t) : u.arrival m = t.countArrived m :=
    refuses ▸ State.arrival_refused (s := u) known refused
  refine ⟨fun old payload => ?_, fun old payload start => ?_, fun known admitted room ahead => ⟨fun payload => ?_,
    fun payload => ?_, fun payload start => ?_, fun payload free port => ?_, fun payload start => ?_⟩,
    fun known refused => ⟨fun payload => ?_, fun payload start => ?_, fun payload => ?_, fun payload start => ?_⟩,
    fun i member away only => ?_⟩
  · have asks : m.payload.asks = true := by rw [payload]; rfl
    exact (deposited payload).trans (congrArg Host.Outcome.next (State.arrival_stale asks old))
  · have asks : m.payload.asks = true := by rw [payload]; rfl
    exact (spawned payload start).trans (congrArg Host.Outcome.next (State.arrival_stale asks old))
  · have arrives : u.serve m = u.arriveQueue ⟨m.src, m.dst, q.val, m.dom, es, r, false⟩ := by
      simp only [State.serve, payload]
    refine ⟨u.serve m, ?_, ?_, fun orphan none => ?_, fun kept empty none space => ?_⟩
    · exact (entered payload).trans (congrArg Host.Outcome.next (served known admitted room ahead rfl))
    · rw [arrives, State.fabric_arriveQueue]
    · rw [arrives]
      exact State.arriveQueue_discards (p := ⟨m.src, m.dst, q.val, m.dom, es, r, false⟩) orphan none
    · rw [arrives]
      exact State.words_arriveQueue (p := ⟨m.src, m.dst, q.val, m.dom, es, r, false⟩) kept empty none space
  · refine (deposited payload).trans (congrArg Host.Outcome.next (served known admitted room ahead ?_))
    simp only [State.serve, payload]
  · refine (spawned payload start).trans (congrArg Host.Outcome.next (served known admitted room ahead ?_))
    simp only [State.serve, payload]
  · have found := next (pick := Payload.isCommand) (by rw [Msg.onMessage, payload]) (by rw [payload]; rfl)
      (by rw [payload]; nofun) fun _ => port
    have event : exec (.mcmdCommand m.dst) s = .next (u.arrival m) := by
      refine congrArg Host.Outcome.next ?_
      rw [free]
      exact State.takeMsg_of_next first found
    refine event.trans (congrArg Host.Outcome.next (served known admitted room ahead ?_))
    simp only [State.serve, payload]
  · refine (launched payload start).trans (congrArg Host.Outcome.next (served known admitted room ahead ?_))
    simp only [State.serve, payload]
    rfl
  · refine (entered payload).trans (congrArg Host.Outcome.next (rejected known refused ?_))
    simp only [State.refuse, payload]
    rfl
  · refine (launched payload start).trans (congrArg Host.Outcome.next (rejected known refused ?_))
    simp only [State.refuse, payload]
    rfl
  · refine (deposited payload).trans (congrArg Host.Outcome.next (rejected known refused ?_))
    simp only [State.refuse, payload]
  · refine (spawned payload start).trans (congrArg Host.Outcome.next (rejected known refused ?_))
    simp only [State.refuse, payload]
  · have only : s.fabric = [m] := by rw [first, only]
    have none {pick : Payload → Bool} : s.takeMsg other pick = s := State.takeMsg_other only away
    simp only [List.mem_cons, List.not_mem_nil, or_false] at member
    obtain rfl | rfl | rfl | rfl := member
    · refine congrArg Host.Outcome.next ?_
      split
      · rfl
      · exact none
    · exact congrArg Host.Outcome.next none
    · exact congrArg Host.Outcome.next none
    · exact congrArg Host.Outcome.next none

end Sys2Proof.Machine
end

section
/-!
PROOFS. What the home of an access does (R159, R177, R224, R225) and fills of the lookaside buffer, the translation caches and
L2 (R255, R267, R269).
-/

namespace Sys2Proof.Machine

section
variable {s : State} {core : Nat} {slot : Fin 8} {i : Instr} {a : HomeAction} {f : State → Out}

/-! ### The access of a waiting thread -/

/-- The state in which the home's answer to a waiting thread stands: a reply where the result is registers only. -/
def State.answeredAt (s : State) (core : Nat) (slot : Fin 8) (i : Instr) (f : State → Out) : State :=
  let t := s.slot core slot
  let u := s.carryOut core slot f
  let die := s.responder core slot i
  if onlyRegs t (u.slot core slot) then u.setSlot core slot { t with
    reply := some ⟨(u.slot core slot).regs, die.1, die.2.1, die.2.2.1, die.2.2.2, (s.pkg die.1).mapInc die.2.1 die.2.2.1⟩ } else u

/-- The home answers a request that no reply has answered yet and that is not lost, where the event is of its kind. -/
theorem State.atHome_request (wait : (s.slot core slot).wait = .request) (held : (s.slot core slot).held = some i)
    (meaning : homeMeaning i = some (a, f)) (unanswered : (s.slot core slot).reply = none)
    (kept : (s.slot core slot).gone = false) {ok : HomeAction → Instr → Bool} (kind : ok a i = true) :
    s.atHome core slot ok = s.answeredAt core slot i f := by
  unfold State.answeredAt
  simp only [State.atHome, wait, held, unanswered, meaning, kind, kept]
  rfl

/-- A `WAITNE` whose request waits, or whose retry is due, compares again (R177). -/
theorem waitneCompares (held : (s.slot core slot).held = some i) (meaning : homeMeaning i = some (.compare, f))
    (runs : (s.core core).stopped = false) :
    ((s.slot core slot).wait = .request → exec (.waitneCompare core slot) s = .next (s.carryOut core slot f)) ∧
    ((s.slot core slot).wait = .monitorRetry → exec (.waitneRetry core slot) s = .next (s.carryOut core slot f)) := by
  refine ⟨fun wait => congrArg Host.Outcome.next ?_, fun wait => congrArg Host.Outcome.next ?_⟩ <;>
    simp only [wait, held, meaning, runs] <;> rfl

end

section
variable {s t : State} {c dom region addr line : Nat} {host : Bool}

/-! ### The lookaside buffer (R267) -/

/-- A fill leaves the rights that the table holds, among at most 64 entries. -/
theorem State.plbFill_found {row : RightsRow}
    (listed : (s.pkg (pkgOf c)).rights.find? (fun r => r.dom == dom && r.region == region && r.host == host) = some row) :
    ((s.plbFill c dom region host).core c).plbFind dom region host = some ⟨host, dom, region, row.rights⟩ ∧
      ((s.plbFill c dom region host).core c).plb.length ≤ 64 := by
  simp only [State.plbFill, listed, State.updCore_eq, State.core_setCore]
  exact ⟨by simp [Core.plbFind], by simp⟩

/-! ### The translation cache (R269) -/

/-- A cached leaf is found for its page. -/
theorem Package.cachedLeaf_cacheLeaf (p : Package) (addr : Nat) (e : BitVec 64) :
    (p.cacheLeaf addr e).cachedLeaf addr = some e := by
  have die : (p.cacheLeaf addr e).baseDie (homePos addr) = p.baseDie (homePos addr) := rfl
  rw [Package.cachedLeaf, die]
  simp [Package.cacheLeaf]

/-- A walk that ends in a leaf leaves the page in its cache. -/
theorem State.translate_walked (missing : (s.pkg (homePkg addr)).cachedLeaf addr = none)
    (walked : ∃ x, (s.pkg (homePkg addr)).walk addr = .ok x) :
    s.translate addr = .ok (s.updPkg (homePkg addr) fun p => p.cacheLeaf addr (p.leaf addr)) := by
  obtain ⟨x, walked⟩ := walked
  simp only [State.translate, missing, walked]

theorem State.translate_missing (missing : (s.pkg (homePkg addr)).cachedLeaf addr = none)
    (failed : ∃ d, (s.pkg (homePkg addr)).walk addr = .error d) : ∃ e, s.translate addr = .error e := by
  obtain ⟨d, failed⟩ := failed
  exact ⟨pageFault d addr, by simp only [State.translate, missing, failed]⟩

/-- A page that can be walked is translated, by its cache or by the walk, and L2 stays as it is. -/
theorem State.translate_ok (walked : ∃ x, (s.pkg (homePkg addr)).walk addr = .ok x) :
    ∃ t, s.translate addr = .ok t ∧ t.mem = s.mem ∧ (t.pkg (homePkg addr)).l2 = (s.pkg (homePkg addr)).l2 ∧
      ∀ line, (t.pkg (homePkg addr)).hasRoom line = (s.pkg (homePkg addr)).hasRoom line := by
  cases missing : (s.pkg (homePkg addr)).cachedLeaf addr with
  | some e => exact ⟨s, by simp only [State.translate, missing], rfl, rfl, fun _ => rfl⟩
  | none =>
    refine ⟨_, State.translate_walked missing walked, rfl, ?_, fun line => ?_⟩ <;> rw [State.updPkg, State.pkg_setPkg] <;> rfl

/-! ### L2 (R255, R259) -/

/-- A write-back that starts leaves the lines that L2 holds. -/
theorem State.l2_startWriteback (s : State) (line h : Nat) : ((s.startWriteback line).pkg h).l2 = (s.pkg h).l2 := by
  unfold State.startWriteback
  dsimp only
  split
  · split
    · rfl
    · by_cases own : h = homePkg (line * 128)
      · subst own
        rw [State.pkg_setPkg]
      · rw [State.pkg_setPkg_ne _ _ own]
  · rfl

theorem State.l2_keepRoom (s : State) (own line h : Nat) : ((s.keepRoom own line).pkg h).l2 = (s.pkg h).l2 := by
  unfold State.keepRoom
  split
  · rfl
  · split
    · exact s.l2_startWriteback ..
    · rfl

/-- A fill for which the set has room leaves the line in L2. -/
theorem State.mem_l2Fill (room : (s.pkg (homePkg (line * 128))).l2.contains line = true ∨
    (s.pkg (homePkg (line * 128))).hasRoom line = true) : line ∈ ((s.l2Fill line).pkg (homePkg (line * 128))).l2 := by
  unfold State.l2Fill
  dsimp only
  cases present : (s.pkg (homePkg (line * 128))).l2.contains line with
  | true => simpa using present
  | false =>
    have room : (s.pkg (homePkg (line * 128))).hasRoom line = true := room.resolve_left (by rw [present]; nofun)
    rw [room]
    simp [State.l2_keepRoom, State.updPkg_eq]

/-- A set without room takes no line. -/
theorem State.l2Fill_full (full : (s.pkg (homePkg (line * 128))).hasRoom line = false) : s.l2Fill line = s := by
  simp [State.l2Fill, full]

/-- The home of an address is that of its line. -/
theorem homePkg_lineOf (addr : Nat) : homePkg (lineOf addr * 128) = homePkg addr := by
  unfold homePkg lineOf
  omega

/-- A line fill of a page that can be walked, at a home in the pod that does not rebuild the line. -/
theorem exec_l2Fill (inPod : homePkg addr < s.podSize) (whole : (s.pkg (homePkg addr)).rebuild.contains (lineOf addr) = false)
    (translated : s.translate addr = .ok t) : exec (.l2Fill addr) s = .next (t.l2Fill (lineOf addr)) := by
  have goes : ¬(decide (s.podSize ≤ homePkg addr) || (s.pkg (homePkg addr)).rebuild.contains (lineOf addr)) = true := by
    rw [whole, Bool.or_false, decide_eq_true_eq]
    exact Nat.not_le.mpr inPod
  refine congrArg Host.Outcome.next ?_
  rw [if_neg goes, translated]

end

/-- Settles O40: the home's action is the meaning of the held instruction, and each fill follows its table. -/
theorem homeActions : Obligations.HomeActions := by
  intro s core slot i a f dom region addr host row t u die inc answered h
  refine ⟨fun wait held meaning => ⟨fun unanswered kept => ?_, fun compares runs => ?_⟩, fun wait held meaning runs => ?_,
    fun missing listed => ?_, fun missing => ⟨fun walked => ?_, fun failed => ?_⟩,
    fun walked inPod whole => ⟨fun room => ?_, fun absent full => ?_⟩⟩
  · have answers {ok : HomeAction → Instr → Bool} (kind : ok a i = true) : s.atHome core slot ok = answered :=
      State.atHome_request wait held meaning unanswered kept kind
    refine ⟨fun kind => ?_, fun kind plain => ?_, fun kind => ?_, fun kind => ?_, fun kind => ?_⟩ <;> subst kind
    · exact congrArg Host.Outcome.next (answers (ok := fun k _ => k == .read) rfl)
    · exact congrArg Host.Outcome.next (answers (ok := fun k i => k == .read && plainRead i) plain)
    · exact congrArg Host.Outcome.next (answers (ok := fun k _ => k == .write) rfl)
    · exact congrArg Host.Outcome.next (answers (ok := fun k _ => k == .rmw) rfl)
    · exact congrArg Host.Outcome.next (answers (ok := fun k _ => k == .block) rfl)
  · subst compares
    exact (waitneCompares held meaning runs).1 wait
  · exact (waitneCompares held meaning runs).2 wait
  · have unheld : ¬((s.core core).plbFind dom region host).isSome = true := by simp [missing]
    exact ⟨_, congrArg Host.Outcome.next (if_neg unheld), State.plbFill_found listed⟩
  · refine ⟨s.updPkg h fun p => p.cacheLeaf addr (p.leaf addr), congrArg Host.Outcome.next ?_, ?_, rfl⟩
    · rw [State.translate_walked missing walked]
    · rw [State.updPkg, State.pkg_setPkg, Package.cachedLeaf_cacheLeaf]
  · obtain ⟨e, unknown⟩ := State.translate_missing missing failed
    refine ⟨congrArg Host.Outcome.next (by rw [unknown]), congrArg Host.Outcome.next ?_⟩
    rw [unknown, ite_self]
  · obtain ⟨v, translated, mem, l2, roomy⟩ := State.translate_ok walked
    have home := homePkg_lineOf addr
    refine ⟨_, exec_l2Fill inPod whole translated, ?_, ?_⟩
    · have filled := State.mem_l2Fill (s := v) (line := lineOf addr)
      rw [home, l2, roomy] at filled
      exact filled room
    · rw [OnlyPkgs.l2Fill v (lineOf addr)]
      exact mem
  · obtain ⟨v, translated, mem, l2, roomy⟩ := State.translate_ok walked
    refine ⟨_, exec_l2Fill inPod whole translated, ?_⟩
    rw [State.l2Fill_full (by rw [homePkg_lineOf, roomy]; exact full), l2]

end Sys2Proof.Machine
end

section
/-!
PROOFS. The faults of the accesses (R157, R158, R160, R248, R249, R252): the checks of a capability in their order, and where
each form of access makes them.
-/

namespace Sys2Proof.Machine

section
variable {s : State} {f : AccessForm} {k : Cap} {x : Target}

/-! ### The checks of an access -/

/-- The checks of an access form through a capability: steps 2 to 4 of R157. -/
def State.formCheck (s : State) (f : AccessForm) (k : Cap) : Except FaultInfo Target := do
  let x ← s.target k f.off f.size (List.range (f.most + 1)) f.need
  checkAlign (Cap.at k f.base) f.align
  s.viewCheck f.kind x f.size
  .ok x

/-- An access form takes a fault, with its scope code. -/
def State.takes (s : State) (f : AccessForm) (e : FaultInfo) : Prop :=
  exec f.instr s = .next (s.trapMe { e with scope := f.scope })

/-- The target of the checks of R248 that pass. -/
def State.formTarget (s : State) (k : Cap) (off : Int) : Target :=
  ⟨k.space, if k.space = 1 then Cap.at k off / 2 ^ 16 % 2 ^ 26 else s.home,
    if k.space ≤ 1 then Cap.at k off % 2 ^ 16 else Cap.at k off, Cap.at k off, k.dom⟩

theorem goodName_field (s : State) (n : Nat) : s.goodName (n % 2 ^ 26) = decide (n % 2 ^ 26 / 2 ^ 15 < s.podSize) := by
  have field : n % 2 ^ 26 < 2 ^ 26 := Nat.mod_lt _ (by norm_num)
  have pkg : pkgOf (n % 2 ^ 26) = n % 2 ^ 26 / 2 ^ 15 := by
    unfold pkgOf
    omega
  rw [State.goodName, pkg, decide_eq_true field, Bool.true_and]

/-- The checks of R248, as conditions on the capability, in their order. -/
theorem State.target_eq (s : State) (k : Cap) (off : Int) (z most : Nat) (need : BitVec 7) :
    s.target k off z (List.range (most + 1)) need =
      if k.tag = false then .error (capFault 0x01 (Cap.at k off))
      else if k.dom ≠ s.me.tenant then .error (capFault 0x08 (Cap.at k off))
      else if most < k.space then .error (capFault 0x02 (Cap.at k off))
      else if k.perm &&& need ≠ need then .error (capFault 0x03 (Cap.at k off))
      else if off < 0 ∨ (k.len : Int) < off + z then .error (capFault 0x04 (Cap.at k off))
      else if k.space = 1 ∧ s.podSize ≤ (s.formTarget k off).core / 2 ^ 15 then .error (capFault 0x07 (Cap.at k off))
      else if k.space ≤ 1 ∧ s.inPartition (s.formTarget k off).core k.dom (s.formTarget k off).addr z = false then
        .error (capFault 0x09 (Cap.at k off))
      else .ok (s.formTarget k off) := by
  have tagged : ((!k.tag) = true) ↔ k.tag = false := by simp
  have reached : ((!(List.range (most + 1)).contains k.space) = true) ↔ most < k.space := by
    rw [Bool.not_eq_true', ← Bool.not_eq_true, List.contains_iff_mem, List.mem_range, Nat.lt_add_one_iff, not_le]
  have named : ((k.space = spWINDOW && !s.goodName (Cap.at k off / 2 ^ 16 % 2 ^ 26)) = true) ↔
      k.space = 1 ∧ s.podSize ≤ (s.formTarget k off).core / 2 ^ 15 := by
    rw [goodName_field]
    by_cases window : k.space = 1 <;> simp [window, spWINDOW, State.formTarget]
  have core : (if k.space = spWINDOW then Cap.at k off / 2 ^ 16 % 2 ^ 26 else s.me.home) = (s.formTarget k off).core := rfl
  have addr : (if (k.space = spWINDOW || k.space = spLOCAL) = true then Cap.at k off % 2 ^ 16 else Cap.at k off) =
      (s.formTarget k off).addr := by
    have near : ((k.space = spWINDOW || k.space = spLOCAL) = true) ↔ k.space ≤ 1 := by
      rw [Bool.or_eq_true, decide_eq_true_eq, decide_eq_true_eq]
      show k.space = 1 ∨ k.space = 0 ↔ k.space ≤ 1
      omega
    simp only [near, State.formTarget]
  have owned : ((k.space = spLOCAL || k.space = spWINDOW) &&
      !s.inPartition (s.formTarget k off).core k.dom (s.formTarget k off).addr z) = true ↔
      k.space ≤ 1 ∧ s.inPartition (s.formTarget k off).core k.dom (s.formTarget k off).addr z = false := by
    rw [Bool.and_eq_true, Bool.or_eq_true, decide_eq_true_eq, decide_eq_true_eq, Bool.not_eq_true']
    have near : k.space = 0 ∨ k.space = 1 ↔ k.space ≤ 1 := by omega
    exact and_congr_left' near
  unfold State.target State.targetFor
  have address : (((k.base : Int) + off) % 2 ^ 64).toNat = Cap.at k off := rfl
  simp only [address, tagged, reached, named, core, addr, owned]
  rfl

/-- A check of R248 that fails is what the access finds. -/
theorem State.formCheck_of_target {e : FaultInfo}
    (bad : s.target k f.off f.size (List.range (f.most + 1)) f.need = .error e) : s.formCheck f k = .error e := by
  rw [State.formCheck, bad]
  rfl

/-- An access that passes the checks of R248 is aligned, or faults with the address that has to be. -/
theorem State.formCheck_unaligned (reached : s.target k f.off f.size (List.range (f.most + 1)) f.need = .ok x)
    (unaligned : Cap.at k f.base % f.align ≠ 0) :
    s.formCheck f k = .error (mkFault 0x02 0x01 (BitVec.ofNat 64 (Cap.at k f.base))) := by
  rw [State.formCheck, reached]
  simp only [run_ok_bind, checkAlign, if_neg unaligned, run_error_bind]

/-- An aligned access that the thread's views do not admit escapes (R160). -/
theorem State.formCheck_escape (reached : s.target k f.off f.size (List.range (f.most + 1)) f.need = .ok x)
    (aligned : Cap.at k f.base % f.align = 0) (escapes : s.me.viewAllows f.kind x f.size = false) :
    s.formCheck f k = .error (mkFault 0x06 0 (BitVec.ofNat 64 x.va)) := by
  rw [State.formCheck, reached]
  simp only [run_ok_bind, checkAlign, if_pos aligned, State.viewCheck, escapes, Bool.false_eq_true, if_false, run_error_bind]

/-- The form's own checks give the faults of R248, R158 and R160 in their order. -/
theorem capabilityFaults_of_refused (refused : ∀ e, s.formCheck f k = .error e → s.takes f e) : CapabilityFaults s f k := by
  unfold CapabilityFaults
  intro va at_ core addr owned takes
  have target := s.target_eq k f.off f.size f.most f.need
  have address : Cap.at k f.off = va := rfl
  rw [address] at target
  have fields : (s.formTarget k f.off).core = core ∧ (s.formTarget k f.off).addr = addr := ⟨rfl, rfl⟩
  rw [fields.1, fields.2] at target
  unfold capFault at target
  have finds {cls detail : BitVec 8} {a : Nat} (h : s.formCheck f k = .error (mkFault cls detail (BitVec.ofNat 64 a))) :
      takes cls detail a := refused (mkFault cls detail (BitVec.ofNat 64 a)) h
  have bad {cls detail : BitVec 8} {a : Nat} (h : s.target k f.off f.size (List.range (f.most + 1)) f.need =
      .error (mkFault cls detail (BitVec.ofNat 64 a))) : takes cls detail a := finds (State.formCheck_of_target h)
  refine ⟨fun untagged => ?_, fun tagged foreign => ?_, fun tagged own far => ?_, fun tagged own near =>
    ⟨fun lacks => ?_, fun has => ⟨fun out => ?_, fun low high => ⟨fun window outside => ?_, fun inPod =>
      ⟨fun unowned => ?_, fun owns unaligned => ?_, fun owns aligned views writes => ?_⟩⟩⟩⟩⟩
  · exact bad (target.trans (if_pos untagged))
  · rw [if_neg (by simp [tagged]), if_pos foreign] at target
    exact bad target
  · rw [if_neg (by simp [tagged]), if_neg (not_not_intro own), if_pos far] at target
    exact bad target
  all_goals rw [if_neg (by simp [tagged]), if_neg (not_not_intro own), if_neg (Nat.not_lt.mpr near)] at target
  · exact bad (target.trans (if_pos lacks))
  all_goals rw [if_neg (not_not_intro has)] at target
  · exact bad (target.trans (if_pos out))
  all_goals rw [if_neg (by omega)] at target
  · exact bad (target.trans (if_pos ⟨window, outside⟩))
  all_goals rw [if_neg fun h => Nat.not_lt.mpr h.2 (inPod h.1)] at target
  · have unowned : k.space ≤ 1 ∧ s.inPartition core k.dom addr f.size = false := by
      simpa [owned] using unowned
    exact bad (target.trans (if_pos unowned))
  all_goals
    have reached : s.target k f.off f.size (List.range (f.most + 1)) f.need = .ok (s.formTarget k f.off) :=
      target.trans (if_neg fun h => Bool.false_ne_true (h.2.symm.trans (owns h.1)))
  · exact finds (State.formCheck_unaligned reached unaligned)
  · have escapes (no : s.me.viewAllows f.kind (s.formTarget k f.off) f.size = false) : takes 0x06 0 va :=
      finds (State.formCheck_escape reached aligned no)
    have viewed : (s.me.views.isEmpty || f.kind = .load) = false := by simp [views, writes]
    have space : (s.formTarget k f.off).space = k.space := rfl
    refine ⟨fun far => escapes ?_, fun global atomic => escapes ?_, fun near ⟨v, rival, out⟩ => escapes ?_⟩
    · have notLocal : k.space ≠ spLOCAL ∧ k.space ≠ spGLOBAL := by
        unfold spLOCAL spGLOBAL
        omega
      rw [Slot.viewAllows, viewed, space, if_neg (by simp), if_neg notLocal.1, if_neg notLocal.2]
    · rw [Slot.viewAllows, viewed, space, global, atomic]
      rfl
    · rw [Slot.viewAllows, viewed, space, near, rival]
      exact out

/-! ### Where a form makes its checks -/

theorem State.target_ok {off : Int} {z most : Nat} {need : BitVec 7}
    (passed : s.target k off z (List.range (most + 1)) need = .ok x) : x = s.formTarget k off := by
  rw [State.target_eq] at passed
  split_ifs at passed
  exact (Except.ok.inj passed).symm

theorem State.formCheck_ok (passed : s.formCheck f k = .ok x) : x = s.formTarget k f.off := by
  obtain ⟨y, target, passed⟩ := run_bind_eq_ok passed
  obtain ⟨-, -, passed⟩ := run_bind_eq_ok passed
  obtain ⟨-, -, passed⟩ := run_bind_eq_ok passed
  cases passed
  exact State.target_ok target

/-- The faults of the checks carry no scope code of their own. -/
theorem State.formCheck_scope {m : FaultInfo} (bad : s.formCheck f k = .error m) : m.scope = 0 := by
  unfold State.formCheck at bad
  cases target : s.target k f.off f.size (List.range (f.most + 1)) f.need with
  | error e =>
    rw [target] at bad
    cases bad
    rw [State.target_eq] at target
    split_ifs at target <;> cases target <;> rfl
  | ok x =>
    rw [target] at bad
    simp only [run_ok_bind, checkAlign, State.viewCheck] at bad
    split_ifs at bad <;> cases bad <;> rfl

/-- The checks of an access that aligns its own address are those of its form. -/
theorem State.checked_eq_formCheck (own : f.base = f.off) {spaces : List Nat} (within : spaces = List.range (f.most + 1)) :
    s.checked k f.off f.size f.align spaces f.need f.kind = s.formCheck f k := by
  subst within
  unfold State.checked State.formCheck
  cases target : s.target k f.off f.size (List.range (f.most + 1)) f.need with
  | error e => rfl
  | ok x =>
    have va : x.va = Cap.at k f.base := by rw [State.target_ok target, own, State.formTarget]
    simp only [run_ok_bind, va]

/-- What a form's instruction does with the faults of its checks, and a single one with those of its access. -/
structure FormIssues (s : State) (f : AccessForm) (k : Cap) : Prop where
  shape   : f.single = true → f.base = f.off ∧ 0 < f.size
  refused : ∀ e, s.formCheck f k = .error e → s.takes f e
  read    : f.single = true → f.kind ≠ .store → s.formCheck f k = .ok (s.formTarget k f.off) → ∃ plain, ∀ m,
    s.readAt (s.formTarget k f.off) f.size plain f.need = .error (.fault m) → s.takes f m
  written : f.single = true → f.kind = .store → s.formCheck f k = .ok (s.formTarget k f.off) →
    ∃ bytes : List Byte, bytes.length = f.size ∧ ∀ m,
      s.placeAt (s.formTarget k f.off) bytes f.need = .error (.fault m) → s.takes f m

section
variable {op : State → Except Miss (Regs × State)} {len : Nat}

/-- A memory instruction takes the faults of its operation. -/
theorem State.takes_of_memory (e : exec f.instr s = .next (s.memory f.instr len f.srcs f.dsts op))
    (scope : scopeOf f.instr = f.scope) (ready : s.portsReady f.srcs f.dsts) {m : FaultInfo} (fault : op s = .error (.fault m)) :
    s.takes f m := by
  rw [State.takes, e, s.memory_of_fault ready fault, scope]

/-- A memory instruction that checks its form and then reads. -/
theorem formIssues_of_read (e : exec f.instr s = .next (s.memory f.instr len f.srcs f.dsts op))
    (scope : scopeOf f.instr = f.scope) (shape : f.base = f.off ∧ 0 < f.size) (kind : f.kind ≠ .store)
    (first : ∀ m, s.formCheck f k = .error m → op s = .error (.fault m)) (plain : Bool)
    (reads : ∀ x m, s.formCheck f k = .ok x → s.readAt x f.size plain f.need = .error (.fault m) → op s = .error (.fault m))
    (ready : s.portsReady f.srcs f.dsts) : FormIssues s f k where
  shape _ := shape
  refused m bad := State.takes_of_memory e scope ready (first m bad)
  read _ _ passed := ⟨plain, fun m fault => State.takes_of_memory e scope ready (reads _ m passed fault)⟩
  written _ store := absurd store kind

/-- A memory instruction that checks its form and then writes. -/
theorem formIssues_of_write (e : exec f.instr s = .next (s.memory f.instr len f.srcs f.dsts op))
    (scope : scopeOf f.instr = f.scope) (shape : f.base = f.off ∧ 0 < f.size) (kind : f.kind = .store)
    (first : ∀ m, s.formCheck f k = .error m → op s = .error (.fault m)) {bytes : List Byte} (size : bytes.length = f.size)
    (writes : ∀ x m, s.formCheck f k = .ok x → s.placeAt x bytes f.need = .error (.fault m) → op s = .error (.fault m))
    (ready : s.portsReady f.srcs f.dsts) : FormIssues s f k where
  shape _ := shape
  refused m bad := State.takes_of_memory e scope ready (first m bad)
  read _ other := absurd kind other
  written _ _ passed := ⟨bytes, size, fun m fault => State.takes_of_memory e scope ready (writes _ m passed fault)⟩

/-- A memory instruction whose first access is the form. -/
theorem formIssues_of_first (e : exec f.instr s = .next (s.memory f.instr len f.srcs f.dsts op))
    (scope : scopeOf f.instr = f.scope) (several : f.single = false)
    (first : ∀ m, s.formCheck f k = .error m → op s = .error (.fault m)) (ready : s.portsReady f.srcs f.dsts) :
    FormIssues s f k where
  shape single := absurd (single.symm.trans several) (by decide)
  refused m bad := State.takes_of_memory e scope ready (first m bad)
  read single := absurd (single.symm.trans several) (by decide)
  written single := absurd (single.symm.trans several) (by decide)

end

end

/-! ### The forms -/

section
variable {s : State} {i : Instr} {len : Nat} {srcs : List (BitVec 5)} {ty d a b : BitVec 5} {c k : BitVec 3}
  {off : Regs → Int} {scope : BitVec 3} {most : Nat}

theorem tyBytes_pos : ∀ ty : BitVec 5, 0 < tyBytes ty := by decide

theorem imageShape_pos : ∀ cls : BitVec 3, 0 < (imageShape cls).1 := by decide

theorem atomSize_pos : ∀ w : BitVec 1, 0 < atomSize w := by decide

theorem scalarSpaces_range (z : Nat) : scalarSpaces z = List.range ((if z = 4 ∨ z = 8 then 4 else 3) + 1) := by
  unfold scalarSpaces
  by_cases wide : z = 4 ∨ z = 8
  · rw [if_pos wide, if_pos (by simpa using wide)]
    rfl
  · rw [if_neg wide, if_neg (by simpa using wide)]
    rfl

/-- The write of a value that faults before it reaches its place. -/
theorem State.writeAt_fault {x : Target} {bytes : List Byte} {need : BitVec 7} {m : FaultInfo}
    (fault : s.placeAt x bytes need = .error (.fault m)) : s.writeAt x bytes need = .error (.fault m) := by
  rw [State.writeAt, fault]
  rfl

theorem formIssues_load {acq : Bool} {at_ : BitVec 3} (e : exec i s = s.load i len srcs ty d c off acq at_)
    (code : scopeOf i = scope) (spaces : scalarSpaces (tyBytes ty) = List.range (most + 1)) (ready : s.portsReady srcs [d]) :
    FormIssues s ⟨i, srcs, [d], off s.regs, off s.regs, tyBytes ty, tyBytes ty, pRD, most, .load, scope, true⟩
      (s.regs.cap c) := by
  have checks {r} (h : s.formCheck ⟨i, srcs, [d], off s.regs, off s.regs, tyBytes ty, tyBytes ty, pRD, most, .load, scope, true⟩
      (s.regs.cap c) = r) : s.checked (s.regs.cap c) (off s.regs) (tyBytes ty) (tyBytes ty) (scalarSpaces (tyBytes ty)) pRD
        .load = r := (State.checked_eq_formCheck rfl spaces).trans h
  refine formIssues_of_read e code ⟨rfl, tyBytes_pos ty⟩ nofun (fun m bad => ?_) (!acq) (fun x m passed fault => ?_) ready
  · simp only [checks bad, liftFault, run_error_bind]
  · simp only [checks passed, liftFault, run_ok_bind, fault, run_error_bind]

theorem formIssues_store {spaces : List Nat} {value : Regs → FElem → FRes}
    (e : exec i s = s.store i len srcs ty d c off spaces value) (code : scopeOf i = scope)
    (within : spaces = List.range (most + 1)) (ready : s.portsReady srcs []) :
    FormIssues s ⟨i, srcs, [], off s.regs, off s.regs, tyBytes ty, tyBytes ty, pWR, most, .store, scope, true⟩
      (s.regs.cap c) := by
  have checks {r} (h : s.formCheck ⟨i, srcs, [], off s.regs, off s.regs, tyBytes ty, tyBytes ty, pWR, most, .store, scope, true⟩
      (s.regs.cap c) = r) : s.checked (s.regs.cap c) (off s.regs) (tyBytes ty) (tyBytes ty) spaces pWR .store = r :=
    (State.checked_eq_formCheck rfl within).trans h
  refine formIssues_of_write e code ⟨rfl, tyBytes_pos ty⟩ rfl (fun m bad => ?_)
    (bytes := leBytes (tyBytes ty) (value s.regs (s.regs.elem ty d)).bits.toNat) (length_leBytes ..)
    (fun x m passed fault => ?_) ready
  · simp only [checks bad, liftFault, run_error_bind]
  · simp only [checks passed, liftFault, run_ok_bind, State.writeAt_fault fault, run_error_bind]

/-! #### Vectors (R164) -/

theorem State.checkElem_eq_formCheck {v : Cap} {o : Int} {z align : Nat} {base : Option Int} {need : BitVec 7} {kind : AccKind}
    {dsts : List (BitVec 5)} : s.checkElem v o z base align need kind =
      s.formCheck ⟨i, srcs, dsts, o, base.getD o, z, align, need, 3, kind, scope, false⟩ v := rfl

/-- The first enabled element is the first that is checked. -/
theorem elemOffsets_first {m : BitVec 8} {n : Nat} (first : (List.range (lanesOf ty)).find? (fun j => m.getLsbD j) = some n)
    (at_ : Nat → Int) : ∃ rest, elemOffsets ty m at_ = (n, at_ n) :: rest := by
  rw [← List.head?_filter] at first
  obtain ⟨rest, enabled⟩ := List.head?_eq_some_iff.mp first
  exact ⟨rest.map fun j => (j, at_ j), by rw [elemOffsets, Sys2Proof.Machine.enabled, enabled]; rfl⟩

theorem State.checkElems_first {v : Cap} {z align n : Nat} {o : Int} {base : Option Int} {need : BitVec 7} {kind : AccKind}
    {rest : List (Nat × Int)} {m : FaultInfo} (bad : s.checkElem v o z base align need kind = .error m) :
    s.checkElems v z base align need kind ((n, o) :: rest) = .error m := by
  rw [State.checkElems, bad]
  rfl

theorem formIssues_vload {base : Regs → Option Int} {align n : Nat} {at_ : Regs → Nat → Int}
    (e : exec i s = s.vload i srcs ty d c k base align at_) (code : scopeOf i = 0)
    (first : (List.range (lanesOf ty)).find? (fun j => (s.regs.mask k).getLsbD j) = some n) (ready : s.portsReady srcs []) :
    FormIssues s ⟨i, srcs, [], at_ s.regs n, (base s.regs).getD (at_ s.regs n), tyBytes ty, align, pRD, 3, .load, 0, false⟩
      (s.regs.cap c) := by
  obtain ⟨rest, offsets⟩ := elemOffsets_first first (at_ s.regs)
  refine formIssues_of_first e code rfl (fun m bad => ?_) ready
  simp only [offsets, State.checkElems_first bad, liftFault, run_error_bind]

theorem formIssues_vstore {n : Nat} (e : exec i s = s.vstore i srcs ty d c k off) (code : scopeOf i = 0)
    (first : (List.range (lanesOf ty)).find? (fun j => (s.regs.mask k).getLsbD j) = some n) (ready : s.portsReady srcs []) :
    FormIssues s ⟨i, srcs, [], off s.regs + n * tyBytes ty, off s.regs, tyBytes ty, lanesOf ty * tyBytes ty, pWR, 3, .store, 0,
      false⟩ (s.regs.cap c) := by
  obtain ⟨rest, offsets⟩ := elemOffsets_first first fun j => off s.regs + j * tyBytes ty
  refine formIssues_of_first e code rfl (fun m bad => ?_) ready
  have bad' := State.checkElems_first (n := n) (rest := rest) (base := some (off s.regs)) bad
  simp only [offsets, bad', liftFault, run_error_bind]

theorem formIssues_vscat {n : Nat} (first : (List.range (lanesOf ty)).find? (fun j => (s.regs.mask k).getLsbD j) = some n) :
    FormIssues s ⟨.vscat d a c k ty, [], [], s.regs.index ty a n, s.regs.index ty a n, tyBytes ty, tyBytes ty, pWR, 3, .store, 0,
      false⟩ (s.regs.cap c) where
  shape single := nomatch single
  refused m bad := by
    obtain ⟨rest, offsets⟩ := elemOffsets_first first fun j => s.regs.index ty a j
    have body : State.scatter (s.regs.cap c) (tyBytes ty) (vecElem ty (s.regs.vec d))
        (elemOffsets ty (s.regs.mask k) fun j => s.regs.index ty a j) s = .inr (s, m) := by
      have element : s.checkElem (s.regs.cap c) (s.regs.index ty a n) (tyBytes ty) none (tyBytes ty) pWR .store = .error m := bad
      rw [offsets, State.scatter, element]
    have plain : { m with scope := (0 : BitVec 3) } = m := by rw [← State.formCheck_scope bad]
    refine congrArg Host.Outcome.next ?_
    dsimp only
    rw [plain, s.issue_of_trap s s.portsReady_nil]
    rw [body]
  read single := nomatch single
  written single := nomatch single

/-! #### Capabilities and images (R165, R166) -/

/-- The form of an instruction that moves a register by its offset register alone. -/
def movesForm (s : State) (i : Instr) (a : BitVec 5) (size align : Nat) (need : BitVec 7) (most : Nat) (kind : AccKind)
    (scope : BitVec 3) : AccessForm := ⟨i, [a], [], s.regs.offset a, s.regs.offset a, size, align, need, most, kind, scope, true⟩

theorem checked_movesForm {size align : Nat} {need : BitVec 7} {kind : AccKind} {spaces : List Nat} {v : Cap}
    {r : Except FaultInfo Target} (h : s.formCheck (movesForm s i a size align need most kind scope) v = r)
    (within : spaces = List.range (most + 1)) : s.checked v (s.regs.offset a) size align spaces need kind = r :=
  (State.checked_eq_formCheck (f := movesForm s i a size align need most kind scope) rfl within).trans h

theorem formIssues_loadCap {acq : Bool} {at_ : BitVec 3}
    (e : exec i s = .next (s.memory i 4 [a] [] fun s => s.loadCap d a c acq at_)) (code : scopeOf i = scope)
    (ready : s.portsReady [a] []) : FormIssues s (movesForm s i a 16 16 pRD 2 .load scope) (s.regs.cap c) := by
  refine formIssues_of_read (f := movesForm s i a 16 16 pRD 2 .load scope) e code ⟨rfl, Nat.succ_pos 15⟩ nofun (fun m bad => ?_) (!acq)
    (fun x m passed fault => ?_) ready
  · simp only [State.loadCap, checked_movesForm bad (spaces := spMem) rfl, liftFault, run_error_bind]
  · have fault : s.readAt x 16 (!acq) pRD = .error (.fault m) := fault
    simp only [State.loadCap, State.readCap, checked_movesForm passed (spaces := spMem) rfl, liftFault, run_ok_bind, fault,
      run_error_bind]

theorem formIssues_storeCap (e : exec i s = .next (s.memory i 4 [a] [] fun s => s.storeCap d a c)) (code : scopeOf i = scope)
    (within : capSpaces (s.regs.cap (d.setWidth 3)) = List.range (most + 1)) (ready : s.portsReady [a] []) :
    FormIssues s (movesForm s i a 16 16 (capNeed (s.regs.cap (d.setWidth 3))) most .store scope) (s.regs.cap c) := by
  refine formIssues_of_write (f := movesForm s i a 16 16 (capNeed (s.regs.cap (d.setWidth 3))) most .store scope) e code
    ⟨rfl, Nat.succ_pos 15⟩ rfl
    (fun m bad => ?_) (bytes := capBytes (s.regs.cap (d.setWidth 3))) (by simp [capBytes, movesForm])
    (fun x m passed fault => ?_) ready
  · simp only [State.storeCap, checked_movesForm bad within, liftFault, run_error_bind]
  · have fault : s.placeAt x (capBytes (s.regs.cap (d.setWidth 3))) (capNeed (s.regs.cap (d.setWidth 3))) =
      .error (.fault m) := fault
    simp only [State.storeCap, State.writeCap, checked_movesForm passed within, liftFault, run_ok_bind, fault, run_error_bind]

theorem formIssues_spill {cls : BitVec 3} (known : cls ∈ [0, 1, 2, 4, 5]) (ready : s.portsReady [a] []) :
    FormIssues s (movesForm s (.spill d a c cls) a (imageShape cls).1 (imageShape cls).2 pWR 3 .store 0) (s.regs.cap c) := by
  have data : cls ≠ 3 := by
    rintro rfl
    simp at known
  have e : exec (.spill d a c cls) s = execSpill d a c cls s := rfl
  refine formIssues_of_write (f := movesForm s (.spill d a c cls) a (imageShape cls).1 (imageShape cls).2 pWR 3 .store 0) e rfl
    ⟨rfl, imageShape_pos cls⟩ rfl (fun m bad => ?_) (bytes := s.regs.image cls d) (s.regs.length_image d known) (fun x m passed fault => ?_) ready
  · rw [if_neg data]
    simp only [checked_movesForm bad (spaces := spNoCtrl) rfl, liftFault, run_error_bind]
  · have fault : s.writeAt x (s.regs.image cls d) pWR = .error (.fault m) := State.writeAt_fault fault
    rw [if_neg data]
    simp only [checked_movesForm passed (spaces := spNoCtrl) rfl, liftFault, run_ok_bind, fault, run_error_bind]

theorem formIssues_fill {cls : BitVec 3} (data : cls ≠ 3) (ready : s.portsReady [a] []) :
    FormIssues s (movesForm s (.fill d a c cls) a (imageShape cls).1 (imageShape cls).2 pRD 3 .load 0) (s.regs.cap c) := by
  have e : exec (.fill d a c cls) s = execFill d a c cls s := rfl
  refine formIssues_of_read (f := movesForm s (.fill d a c cls) a (imageShape cls).1 (imageShape cls).2 pRD 3 .load 0) e rfl
    ⟨rfl, imageShape_pos cls⟩ nofun (fun m bad => ?_) true (fun x m passed fault => ?_) ready
  · rw [if_neg data]
    simp only [checked_movesForm bad (spaces := spNoCtrl) rfl, liftFault, run_error_bind]
  · have fault : s.readAt x (imageShape cls).1 true pRD = .error (.fault m) := fault
    rw [if_neg data]
    simp only [checked_movesForm passed (spaces := spNoCtrl) rfl, liftFault, run_ok_bind, fault, run_error_bind]

/-! #### Atomics and `WAITNE` (R167, R177) -/

section
variable {w : BitVec 1} {ord : BitVec 2}

/-- The form of an atomic. -/
def atomicForm (s : State) (i : Instr) (d a b : BitVec 5) (w : BitVec 1) (scope : BitVec 3) : AccessForm :=
  ⟨i, [a, b], [d], s.regs.offset a, s.regs.offset a, atomSize w, atomSize w, pAT, 2, .atomic, scope, true⟩

theorem checked_atomicForm {r : Except FaultInfo Target} (h : s.formCheck (atomicForm s i d a b w scope) (s.regs.cap c) = r) :
    s.checked (s.regs.cap c) (s.regs.offset a) (atomSize w) (atomSize w) spMem pAT .atomic = r :=
  (State.checked_eq_formCheck (f := atomicForm s i d a b w scope) rfl rfl).trans h

theorem formIssues_atomic {new : Regs → DWord → Option DWord × BitVec 6}
    (e : exec i s = s.atomic i [a, b] d a c ord scope w new) (code : scopeOf i = scope) (ready : s.portsReady [a, b] [d]) :
    FormIssues s (atomicForm s i d a b w scope) (s.regs.cap c) := by
  refine formIssues_of_read (f := atomicForm s i d a b w scope) e code ⟨rfl, atomSize_pos w⟩ nofun (fun m bad => ?_) false
    (fun x m passed fault => ?_) ready
  · simp only [checked_atomicForm bad, liftFault, run_error_bind]
  · have fault : s.readAt x (atomSize w) false pAT = .error (.fault m) := fault
    simp only [checked_atomicForm passed, liftFault, run_ok_bind, fault, run_error_bind]

theorem formIssues_waitne (ready : s.portsReady [a, b] [d]) :
    FormIssues s (atomicForm s (.waitne d a b c ord scope w) d a b w scope) (s.regs.cap c) where
  shape _ := ⟨rfl, atomSize_pos w⟩
  refused m bad := by
    refine congrArg Host.Outcome.next (s.scoped_of_trap s ready ?_)
    simp only [checked_atomicForm bad]
  read _ _ passed := ⟨false, fun m fault => by
    have fault : s.readAt (s.formTarget (s.regs.cap c) (s.regs.offset a)) (atomSize w) false pAT = .error (.fault m) := fault
    have passed : s.checked (s.regs.cap c) (s.regs.offset a) (atomSize w) (atomSize w) spMem pAT .atomic =
      .ok (s.formTarget (s.regs.cap c) (s.regs.offset a)) := checked_atomicForm passed
    refine congrArg Host.Outcome.next (s.scoped_of_trap s ready ?_)
    simp only [passed, fault]⟩
  written _ store := nomatch store

end

end

end Sys2Proof.Machine
end

section
/-!
PROOFS. The faults of an access at its memory (R266 to R268, R270, R341, R350, R356), and the faults of every access form.
-/

namespace Sys2Proof.Machine

section
variable {s t : State} {x : Target} {n : Nat} {need : BitVec 7} {m : FaultInfo} {k : Cap} {f : AccessForm}

/-! ### Rights (R267, R268) -/

/-- The rights of a region that a core finds: those its lookaside buffer holds, else those of its package's table. -/
def State.rightsRow (s : State) (c dom region : Nat) (host : Bool) : Option (BitVec 4) :=
  (((s.core c).plbFind dom region host).map (·.rights)).or
    (((s.pkg (pkgOf c)).rights.find? fun r => r.dom == dom && r.region == region && r.host == host).map (·.rights))

/-- The lookaside buffer after a region has been looked up. -/
theorem State.plbTouch_eq (s : State) (c dom region : Nat) (host : Bool) :
    (((s.plbTouch c dom region host).core c).plbFind dom region host).map (·.rights) = s.rightsRow c dom region host ∧
      ∃ cores, s.plbTouch c dom region host = { s with cores := cores } := by
  unfold State.plbTouch State.rightsRow
  cases held : (s.core c).plbFind dom region host with
  | some e =>
    have found := List.find?_some held
    refine ⟨?_, _, rfl⟩
    simp only [State.updCore_eq, State.core_setCore, Core.plbFind, List.find?_cons, found]
    rfl
  | none =>
    cases listed : (s.pkg (pkgOf c)).rights.find? fun r => r.dom == dom && r.region == region && r.host == host with
    | none =>
      have same : s.plbFill c dom region host = s := by simp only [State.plbFill, listed]
      refine ⟨?_, s.cores, same⟩
      dsimp only
      rw [same, held]
      rfl
    | some row =>
      refine ⟨?_, (s.plbFill c dom region host).cores, ?_⟩
      · dsimp only
        rw [(State.plbFill_found listed).1]
        rfl
      · simp only [State.plbFill, listed]
        rfl

/-- What the check of a region answers, by the rights that are found. -/
theorem State.checkRegion_eq (s : State) (c dom : Nat) (host : Bool) (need : BitVec 7) (a : Nat) :
    (s.rightsRow c dom (a / 2 ^ 21) host = none →
      s.checkRegion c dom host need a = .error (.fault (mkFault 0x05 0x03 (BitVec.ofNat 64 a)))) ∧
    (∀ g, s.rightsRow c dom (a / 2 ^ 21) host = some g → g &&& rightsFor need ≠ rightsFor need →
      s.checkRegion c dom host need a = .error (.fault (mkFault 0x05 0x04 (BitVec.ofNat 64 a)))) ∧
    (∀ g, s.rightsRow c dom (a / 2 ^ 21) host = some g → g &&& rightsFor need = rightsFor need →
      ∃ cores, s.checkRegion c dom host need a = .ok { s with cores := cores }) := by
  obtain ⟨row, cores, touched⟩ := s.plbTouch_eq c dom (a / 2 ^ 21) host
  rw [State.checkRegion, ← row]
  cases ((s.plbTouch c dom (a / 2 ^ 21) host).core c).plbFind dom (a / 2 ^ 21) host with
  | none => exact ⟨fun _ => rfl, nofun, nofun⟩
  | some e =>
    refine ⟨nofun, fun g found lacks => ?_, fun g found has => ⟨cores, ?_⟩⟩ <;> cases found
    · exact if_neg lacks
    · exact (if_pos has).trans (congrArg _ touched)

/-- The rights of the first region that an access touches are checked at its address. -/
theorem State.checkRights_first (s : State) (c : Nat) (x : Target) (n : Nat) (need : BitVec 7) :
    (∀ m, s.checkRegion c x.dom (x.space == spHOST) need x.addr = .error m → s.checkRights c x n need = .error m) ∧
    (x.addr / 2 ^ 21 = (x.addr + n - 1) / 2 ^ 21 →
      s.checkRights c x n need = s.checkRegion c x.dom (x.space == spHOST) need x.addr) := by
  have first : max x.addr ((x.addr / 2 ^ 21 + 0) * 2 ^ 21) = x.addr := by omega
  unfold State.checkRights
  refine ⟨fun m bad => ?_, fun one => ?_⟩
  · rw [List.range_succ_eq_map, List.foldlM_cons, first, bad]
    rfl
  · rw [← one, Nat.sub_self, Nat.zero_add, List.range_one, List.foldlM_cons, first]
    cases s.checkRegion c x.dom (x.space == spHOST) need x.addr <;> rfl

/-! ### Reads and writes that fault -/

/-- Every read and every write of a target faults. -/
structure State.AccessFaults (s : State) (x : Target) (n : Nat) (need : BitVec 7) (m : FaultInfo) : Prop where
  read  : ∀ plain, s.readAt x n plain need = .error (.fault m)
  write : ∀ bytes : List Byte, bytes.length = n → s.placeAt x bytes need = .error (.fault m)

/-- GLOBAL and HOST accesses check their rights first. -/
theorem State.accessFaults_of_rights (far : x.space = 2 ∨ x.space = 3)
    (bad : s.checkRights s.curCore x n need = .error (.fault m)) : s.AccessFaults x n need m := by
  refine ⟨fun plain => ?_, fun bytes size => ?_⟩
  · rw [State.readAt]
    obtain space | space := far <;> simp [space, spLOCAL, spWINDOW, spGLOBAL, spHOST, bad]
  · subst size
    rw [State.placeAt]
    obtain space | space := far <;> simp [space, spLOCAL, spWINDOW, spGLOBAL, spHOST, bad]

/-- A line whose home lies outside the pod, or to which no route leads, page-faults (R270, R341). -/
theorem State.reachAll_unreached {own c a : Nat} (some : 0 < n)
    (unreached : s.podSize ≤ homePkg a ∨ s.routed own (homePkg a) = false) :
    s.reachAll own c a (linesOf a n) = .error (.fault (pageFault 0x02 a)) := by
  have first : max a (a / 128 * 128) = a := by omega
  have line : s.reachLine own c a = .error (.fault (pageFault 0x02 a)) := by
    rw [State.reachLine]
    by_cases outside : s.podSize ≤ homePkg a
    · rw [if_pos outside]
    · rw [if_neg outside, unreached.resolve_left outside]
      rfl
  have nonempty : n ≠ 0 := by omega
  rw [linesOf, if_neg nonempty, List.range_succ_eq_map, List.map_cons, Nat.zero_add, State.reachAll, first, line]
  rfl

/-- No proxy answers for a line of which the package has no copy. -/
theorem State.answering_none {line : Nat} (bare : ∀ y ∈ (s.pkg (pkgOf s.curCore)).copies, y.line ≠ line) (plain : Bool) :
    s.answering plain line = none := by
  have missing : s.validCopy (pkgOf s.curCore) line = none := by
    unfold State.validCopy
    split
    · rfl
    · refine List.find?_eq_none.mpr fun y member => ?_
      simp [bare y member]
  unfold State.answering
  rw [missing, ite_self]

/-- A GLOBAL access whose rights are held page-faults where its home is not reached. -/
theorem State.accessFaults_unreached {cores : List (Nat × Core)} (global : x.space = 2) (some : 0 < n)
    (rights : s.checkRights s.curCore x n need = .ok { s with cores := cores })
    (unreached : s.podSize ≤ homePkg x.addr ∨ s.routed (pkgOf s.curCore) (homePkg x.addr) = false)
    (bare : ∀ y ∈ (s.pkg (pkgOf s.curCore)).copies, y.line ≠ lineOf x.addr) :
    s.AccessFaults x n need (pageFault 0x02 x.addr) := by
  have reached (c : Nat) := State.reachAll_unreached (s := { s with cores := cores }) (c := c) some unreached
  have alone (plain : Bool) : ({ s with cores := cores } : State).answering plain (lineOf x.addr) = none :=
    State.answering_none bare plain
  refine ⟨fun plain => ?_, fun bytes size => ?_⟩
  · rw [State.readAt]
    simp only [global, spLOCAL, spWINDOW, spGLOBAL, rights, run_ok_bind, alone, reached]
    rfl
  · subst size
    rw [State.placeAt]
    simp only [global, spLOCAL, spWINDOW, spGLOBAL, rights, run_ok_bind, reached]
    rfl

/-- A HOST access whose rights are held and whose links serve faults where the host is not marked present (R350). -/
theorem State.accessFaults_absent {cores : List (Nat × Core)} (host : x.space = 3)
    (rights : s.checkRights s.curCore x n need = .ok { s with cores := cores })
    (served : s.pairServed s.curCore (hostAgent (pkgOf s.curCore)) = true)
    (absent : (s.pkg (pkgOf s.curCore)).host.state ≠ .enabled) :
    s.AccessFaults x n need (mkFault 0x0B 0x01 (BitVec.ofNat 64 x.va)) := by
  have checked (write : Bool) : ({ s with cores := cores } : State).checkHost (pkgOf s.curCore) s.curCore x write =
      .error (.fault (mkFault 0x0B 0x01 (BitVec.ofNat 64 x.va))) := by
    have served : ({ s with cores := cores } : State).pairServed s.curCore (hostAgent (pkgOf s.curCore)) = true := served
    rw [State.checkHost, served]
    exact (if_neg (by decide)).trans (if_pos absent)
  refine ⟨fun plain => ?_, fun bytes size => ?_⟩
  · rw [State.readAt]
    simp only [host, spLOCAL, spWINDOW, spGLOBAL, spHOST, rights, run_ok_bind, checked]
    rfl
  · subst size
    rw [State.placeAt]
    simp only [host, spLOCAL, spWINDOW, spGLOBAL, spHOST, rights, run_ok_bind, checked]
    rfl

/-- A WINDOW access to a package without a route page-faults (R341). -/
theorem State.accessFaults_unrouted (window : x.space = 1) (unrouted : s.routed (pkgOf s.curCore) (pkgOf x.core) = false) :
    s.AccessFaults x n need (pageFault 0x02 x.va) := by
  have checked (words : List Nat) : s.checkLocal s.curCore x words = .error (.fault (pageFault 0x02 x.va)) := by
    simp [State.checkLocal, State.checkWindow, window, spWINDOW, unrouted]
  refine ⟨fun plain => ?_, fun bytes size => ?_⟩
  · rw [State.readAt, if_pos (by simp [window, spWINDOW]), checked]
    rfl
  · rw [State.placeAt, if_pos (by simp [window, spWINDOW]), checked]
    rfl

/-- A read of the core's own local memory, outside every world, faults at the first poisoned word (R356). -/
theorem State.readAt_poisoned {g : Nat} (local_ : x.space = 0) (outside : s.me.inWorld = false)
    (serves : s.LocalServes x.core) (poisoned : (granules x.addr n).find? ((s.core x.core).lpoison.contains ·) = some g)
    (plain : Bool) :
    s.readAt x n plain need = .error (.fault (mkFault 0x0F 0x06 (BitVec.ofNat 64 (x.core % 2 ^ 26 * 2 ^ 16 + g * 16)))) := by
  have words : s.keptWords s.me x.addr n = granules x.addr n := by
    rw [State.keptWords]
    exact if_neg (by simpa [Slot.inWorld] using outside)
  have found : (s.core x.core).poisonFault x.core (granules x.addr n) =
      some (mkFault 0x0F 0x06 (BitVec.ofNat 64 (x.core % 2 ^ 26 * 2 ^ 16 + g * 16))) := by
    rw [Core.poisonFault, poisoned]
    rfl
  have checked : s.checkLocal s.curCore x (granules x.addr n) =
      .error (.fault (mkFault 0x0F 0x06 (BitVec.ofNat 64 (x.core % 2 ^ 26 * 2 ^ 16 + g * 16)))) := by
    simp only [State.checkLocal, State.checkWindow, State.checkWords, local_, serves.alive, serves.present, found]
    rfl
  rw [State.readAt, if_pos (by simp [local_, spLOCAL]), local_]
  simp only [spLOCAL, if_true, words, checked]
  rfl

/-! ### The faults of a single access at its memory -/

/-- A single access whose checks pass takes the fault that its reads and writes find. -/
theorem FormIssues.takes_of_access (issues : FormIssues s f k) (single : f.single = true)
    (passed : s.formCheck f k = .ok (s.formTarget k f.off))
    (faults : s.AccessFaults (s.formTarget k f.off) f.size f.need m) : s.takes f m := by
  by_cases store : f.kind = .store
  · obtain ⟨bytes, size, takes⟩ := issues.written single store passed
    exact takes m (faults.write bytes size)
  · obtain ⟨plain, takes⟩ := issues.read single store passed
    exact takes m (faults.read plain)

/-- The faults of an access whose capability admits it. -/
theorem FormIssues.memoryFaults (issues : FormIssues s f k) (single : f.single = true)
    (passed : s.formCheck f k = .ok (s.formTarget k f.off)) : MemoryFaults s f k := by
  obtain ⟨-, some⟩ := issues.shape single
  unfold MemoryFaults
  intro va own p row takes
  have taken {cls detail : BitVec 8} {a : Nat} (h : s.takes f (mkFault cls detail (BitVec.ofNat 64 a))) :
      takes cls detail a := h
  have found {cls detail : BitVec 8} {a : Nat}
      (faults : s.AccessFaults (s.formTarget k f.off) f.size f.need (mkFault cls detail (BitVec.ofNat 64 a))) :
      takes cls detail a := taken (issues.takes_of_access single passed faults)
  have space : (s.formTarget k f.off).space = k.space := rfl
  have address : (s.formTarget k f.off).va = va := rfl
  have region : ((s.formTarget k f.off).space == spHOST) = (k.space == 3) := rfl
  have tenant : (s.formTarget k f.off).dom = k.dom := rfl
  refine ⟨fun far => ?_, fun window unrouted => ?_, fun local_ reads outside serves g poisoned => ?_⟩
  · have far' : ¬k.space ≤ 1 := by omega
    have addr : (s.formTarget k f.off).addr = va := if_neg far'
    obtain ⟨missing, lacks, holds⟩ := s.checkRegion_eq s.curCore k.dom (k.space == 3) f.need va
    obtain ⟨first, single⟩ := s.checkRights_first s.curCore (s.formTarget k f.off) f.size f.need
    rw [region, tenant, addr] at first single
    refine ⟨fun none => ?_, fun g held low => ?_, fun g held enough one => ?_⟩
    · exact found (State.accessFaults_of_rights far (first _ (missing none)))
    · exact found (State.accessFaults_of_rights far (first _ (lacks g held low)))
    · obtain ⟨cores, rights⟩ := holds g held enough
      rw [← single one] at rights
      refine ⟨fun global unreached bare => ?_, fun host served absent => ?_⟩
      · have faults := State.accessFaults_unreached (x := s.formTarget k f.off) global some rights (by rw [addr]; exact unreached)
          (by rw [addr]; exact bare)
        rw [addr] at faults
        exact found faults
      · exact found (State.accessFaults_absent (x := s.formTarget k f.off) host rights served absent)
  · have core : (s.formTarget k f.off).core = va / 2 ^ 16 % 2 ^ 26 := if_pos window
    exact found (State.accessFaults_unrouted window (by rw [core]; exact unrouted))
  · have core : (s.formTarget k f.off).core = s.home := if_neg (by omega)
    have addr : (s.formTarget k f.off).addr = va % 2 ^ 16 := if_pos (by omega)
    obtain ⟨plain, finds⟩ := issues.read ‹f.single = true› reads passed
    have fault := State.readAt_poisoned (x := s.formTarget k f.off) (n := f.size) (need := f.need) (g := g) local_ outside
      (by rw [core]; exact serves) (by rw [core, addr]; exact poisoned) plain
    rw [core] at fault
    exact taken (finds _ fault)

/-- The checks of an access that its capability admits, that lies in the pod and in the tenant's partition, and that loads or
stands outside every view pass. -/
theorem State.formCheck_admitted (own : f.base = f.off) (near : k.space ≤ f.most)
    (admits : s.Admits k f.off f.size f.align f.need k.space) (allowed : s.me.views = [] ∨ f.kind = .load)
    (inPod : k.space = 1 → (s.formTarget k f.off).core / 2 ^ 15 < s.podSize)
    (owned : k.space ≤ 1 → s.inPartition (s.formTarget k f.off).core k.dom (s.formTarget k f.off).addr f.size = true) :
    s.formCheck f k = .ok (s.formTarget k f.off) := by
  have address : Cap.at k f.off = k.base + f.off.toNat := k.at_of_bounds admits.low admits.high
  have low := admits.low
  have high := admits.high
  have reached : s.target k f.off f.size (List.range (f.most + 1)) f.need = .ok (s.formTarget k f.off) := by
    rw [State.target_eq, if_neg (by simp [admits.tagged]), if_neg (not_not_intro admits.owner), if_neg (Nat.not_lt.mpr near),
      if_neg (not_not_intro admits.perms), if_neg (by omega), if_neg fun h => Nat.not_lt.mpr h.2 (inPod h.1),
      if_neg fun h => Bool.false_ne_true (h.2.symm.trans (owned h.1))]
  have aligned : Cap.at k f.base % f.align = 0 := by rw [own, address, admits.aligned]
  have viewed : s.me.viewAllows f.kind (s.formTarget k f.off) f.size = true := by
    have skip : (s.me.views.isEmpty || f.kind = .load) = true := by
      obtain none | load := allowed
      · simp [none]
      · simp [load]
    rw [Slot.viewAllows, if_pos skip]
  rw [State.formCheck, reached]
  simp only [run_ok_bind, checkAlign, if_pos aligned, State.viewCheck, if_pos viewed]

end

/-! ### Every form -/

section
variable {s : State} {d a b : BitVec 5} {c k e cls : BitVec 3} {ty : BitVec 5} {ord j : BitVec 2} {scope : BitVec 3}
  {w : BitVec 1} {imm : BitVec 11}

theorem forall_mem_ite {α : Type} {p : Prop} [Decidable p] {l : List α} {q : α → Prop} (h : p → ∀ x ∈ l, q x) :
    ∀ x ∈ (if p then l else []), q x := by
  split
  · exact h ‹p›
  · exact fun _ member => nomatch member

theorem immOffset_first (imm : BitVec 11) (z : Nat) : immOffset imm 32 + (0 : Nat) * z = imm.toInt * 32 := by
  rw [Nat.cast_zero, zero_mul, add_zero]
  rfl

/-- Under the mask of all ones every element is enabled, the first one first. -/
theorem all_first (s : State) (ty : BitVec 5) :
    (List.range (lanesOf ty)).find? (fun j => (s.regs.mask 0).getLsbD j) = some 0 := by
  have full : s.regs.mask 0 = 0xFF := rfl
  have some : 0 < lanesOf ty := by
    unfold lanesOf
    split <;> decide
  obtain ⟨n, lanes⟩ := Nat.exists_eq_succ_of_ne_zero some.ne'
  rw [full, lanes, List.range_succ_eq_map, List.find?_cons_of_pos (by decide)]

theorem formIssues_vldImm (ready : s.portsReady [] []) :
    FormIssues s ⟨.vldImm d c ty imm, [], [], imm.toInt * 32, imm.toInt * 32, tyBytes ty, lanesOf ty * tyBytes ty, pRD, 3, .load,
      0, false⟩ (s.regs.cap c) := by
  have issues := formIssues_vload (i := .vldImm d c ty imm) (s := s) (d := d) (base := fun _ => some (immOffset imm 32))
    (align := lanesOf ty * tyBytes ty) (at_ := fun _ i => immOffset imm 32 + i * tyBytes ty) (c := c) rfl rfl (all_first s ty) ready
  rw [immOffset_first] at issues
  exact issues

theorem formIssues_vstImm (ready : s.portsReady [] []) :
    FormIssues s ⟨.vstImm d c ty imm, [], [], imm.toInt * 32, imm.toInt * 32, tyBytes ty, lanesOf ty * tyBytes ty, pWR, 3, .store,
      0, false⟩ (s.regs.cap c) := by
  have issues := formIssues_vstore (i := .vstImm d c ty imm) (s := s) (d := d) (off := fun _ => immOffset imm 32) (c := c)
    rfl rfl (all_first s ty) ready
  rw [immOffset_first] at issues
  exact issues

/-- The spaces that a capability can be stored to, by its tag. -/
theorem capSpaces_range (v : Cap) : capSpaces v = List.range ((if v.tag then 2 else 3) + 1) := by
  unfold capSpaces
  split <;> rfl

/-- The sizes of the images as R166 lists them. -/
theorem imageShape_eq (known : cls ∈ [0, 1, 2, 4, 5]) :
    imageShape cls = (if cls = 0 then 8 else if cls = 1 then 16 else if cls = 2 then 48 else 4,
      if cls = 0 then 8 else if cls = 1 ∨ cls = 2 then 16 else 4) := by
  simp only [List.mem_cons, List.not_mem_nil, or_false] at known
  obtain rfl | rfl | rfl | rfl | rfl := known <;> rfl

/-- The atomics and `WAITNE` make the checks of one form. -/
theorem formIssues_atomics : ∀ i ∈ [Instr.aadd d a b c ord scope w, .aand d a b c ord scope w, .aor d a b c ord scope w,
    .axor d a b c ord scope w, .aswap d a b c ord scope w, .acas d a b c ord scope w, .aminSigned d a b c ord scope w,
    .aminUnsigned d a b c ord scope w, .amaxSigned d a b c ord scope w, .amaxUnsigned d a b c ord scope w,
    .afadd d a b c ord scope w, .waitne d a b c ord scope w], s.portsReady [a, b] [d] →
    FormIssues s (atomicForm s i d a b w scope) (s.regs.cap c) := by
  have atomics {i : Instr} {f : DWord → DWord → DWord} (e : exec i s = s.atomicOp i d a b c ord scope w f)
      (code : scopeOf i = scope) : s.portsReady [a, b] [d] → FormIssues s (atomicForm s i d a b w scope) (s.regs.cap c) :=
    formIssues_atomic (new := fun r old => (some (f old (r.atomVal w b)), 0)) e code
  have acas : exec (.acas d a b c ord scope w) s = s.atomic (.acas d a b c ord scope w) [a, b] d a c ord scope w
    fun r old => (if old = r.atomVal w d then some (r.atomVal w b) else none, 0) := rfl
  have afadd : exec (.afadd d a b c ord scope w) s = s.atomic (.afadd d a b c ord scope w) [a, b] d a c ord scope w
    fun r old => (some (afaddNew w r.fcr old (r.elem (afaddType w) b)).bits,
      (afaddNew w r.fcr old (r.elem (afaddType w) b)).flags) := rfl
  simp only [List.forall_mem_cons, List.not_mem_nil, IsEmpty.forall_iff, implies_true, and_true]
  exact ⟨atomics (f := (· + ·)) rfl rfl, atomics (f := (· &&& ·)) rfl rfl, atomics (f := (· ||| ·)) rfl rfl,
    atomics (f := (· ^^^ ·)) rfl rfl, atomics (f := fun _ y => y) rfl rfl, (formIssues_atomic acas rfl :),
    atomics (f := signedMin w) rfl rfl, atomics (f := execAminUnsigned.aluMinn64) rfl rfl, atomics (f := signedMax w) rfl rfl,
    atomics (f := fun x y => if x.ult y then y else x) rfl rfl, (formIssues_atomic afadd rfl :), formIssues_waitne⟩

/-- Each form of access makes the checks it is listed with. -/
theorem formIssues : ∀ f ∈ accessForms s.regs d a b c k e cls ty ord j scope w imm, s.portsReady f.srcs f.dsts →
    FormIssues s f (s.regs.cap c) := by
  unfold accessForms
  refine List.forall_mem_append.mpr ⟨List.forall_mem_append.mpr ⟨List.forall_mem_append.mpr ⟨forall_mem_ite fun _ =>
    List.forall_mem_append.mpr ⟨?_, ?_⟩, forall_mem_ite fun _ => ?_⟩, forall_mem_ite fun known => ?_⟩, ?_⟩
  · have spaces := scalarSpaces_range (tyBytes ty)
    have ld : exec (.ld d a c ord ty scope) s =
      s.load (.ld d a c ord ty scope) 4 [a] ty d c (·.offset a) (ord == 1) scope := rfl
    have ldImm : exec (.ldImm d c ty imm) s =
      s.load (.ldImm d c ty imm) 4 [] ty d c (fun _ => immOffset imm (tyBytes ty)) false 0 := rfl
    have st : exec (.st d a c ord ty scope) s =
      s.store (.st d a c ord ty scope) 4 [a, d] ty d c (·.offset a) (scalarSpaces (tyBytes ty)) rawStore := rfl
    have stImm : exec (.stImm d c ty imm) s = s.store (.stImm d c ty imm) 4 [d] ty d c
      (fun _ => immOffset imm (tyBytes ty)) (scalarSpaces (tyBytes ty)) rawStore := rfl
    simp only [List.forall_mem_cons, List.not_mem_nil, IsEmpty.forall_iff, implies_true, and_true]
    exact ⟨(formIssues_load ld rfl spaces :), (formIssues_load ldImm rfl spaces :), (formIssues_store st rfl spaces :),
      (formIssues_store stImm rfl spaces :), formIssues_vldImm, formIssues_vstImm⟩
  · dsimp only
    cases first : (List.range (lanesOf ty)).find? fun i => (s.regs.mask k).getLsbD i with
    | none => exact List.forall_mem_nil _
    | some n =>
      have vld : exec (.vld d a c k ty) s = s.vload (.vld d a c k ty) [a] ty d c k (fun r => some (r.offset a))
        (lanesOf ty * tyBytes ty) (fun r i => r.offset a + i * tyBytes ty) := rfl
      have vst : exec (.vst d a c k ty) s = s.vstore (.vst d a c k ty) [a] ty d c k (·.offset a) := rfl
      have vlds : exec (.vlds d a c k ty e) s = s.vload (.vlds d a c k ty e) [a] ty d c k (fun _ => none) (tyBytes ty)
        (fun r i => r.offset a + i * (r.ext e).toInt) := rfl
      have vgath : exec (.vgath d a c k ty) s = s.vload (.vgath d a c k ty) [] ty d c k (fun _ => none) (tyBytes ty)
        (fun r i => r.index ty a i) := rfl
      simp only [List.forall_mem_cons, List.not_mem_nil, IsEmpty.forall_iff, implies_true, and_true]
      exact ⟨(formIssues_vload vld rfl first :), (formIssues_vstore vst rfl first :), (formIssues_vload vlds rfl first :),
        (formIssues_vload vgath rfl first :), fun _ => formIssues_vscat first⟩
  · have fst : exec (.fst d a c ord ty scope) s =
      s.store (.fst d a c ord ty scope) 4 [a, d] ty d c (·.offset a) spNoCtrl (finalStore ty) := rfl
    have fstImm : exec (.fstImm d c ty imm) s =
      s.store (.fstImm d c ty imm) 4 [d] ty d c (fun _ => immOffset imm (tyBytes ty)) spNoCtrl (finalStore ty) := rfl
    have spaces : spNoCtrl = List.range (3 + 1) := rfl
    simp only [List.forall_mem_cons, List.not_mem_nil, IsEmpty.forall_iff, implies_true, and_true]
    exact ⟨(formIssues_store fst rfl spaces :), (formIssues_store fstImm rfl spaces :)⟩
  · have data : cls ≠ 3 := by
      rintro rfl
      simp at known
    have spills (ready : s.portsReady [a] []) := formIssues_spill (s := s) (d := d) (a := a) (c := c) known ready
    have fills (ready : s.portsReady [a] []) := formIssues_fill (s := s) (d := d) (a := a) (c := c) data ready
    rw [imageShape_eq known] at spills fills
    simp only [List.forall_mem_cons, List.not_mem_nil, IsEmpty.forall_iff, implies_true, and_true]
    exact ⟨spills, fills⟩
  · have ldShort : exec (.ldShort a c j) s =
      s.load (.ldShort a c j) 2 [] 6 a c (fun _ => 4 * (j.toNat : Int)) false 0 := rfl
    have stShort : exec (.stShort a c j) s =
      s.store (.stShort a c j) 2 [a] 6 a c (fun _ => 4 * (j.toNat : Int)) spAll rawStore := rfl
    have ldc : exec (.ldc d a c ord scope) s =
      .next (s.memory (.ldc d a c ord scope) 4 [a] [] fun s => s.loadCap d a c (ord == 1) scope) := rfl
    have fill : exec (.fill d a c 3) s = .next (s.memory (.fill d a c 3) 4 [a] [] fun s => s.loadCap d a c false 0) := rfl
    have stc : exec (.stc d a c ord scope) s =
      .next (s.memory (.stc d a c ord scope) 4 [a] [] fun s => s.storeCap d a c) := rfl
    have spill : exec (.spill d a c 3) s = .next (s.memory (.spill d a c 3) 4 [a] [] fun s => s.storeCap d a c) := rfl
    have words : scalarSpaces (tyBytes 6) = List.range (4 + 1) := rfl
    have capMost := capSpaces_range (s.regs.cap (d.setWidth 3))
    simp only [List.forall_mem_cons, List.not_mem_nil, IsEmpty.forall_iff, implies_true, and_true]
    refine ⟨(formIssues_load ldShort rfl words :), (formIssues_store stShort rfl words :), (formIssues_loadCap ldc rfl :),
      (formIssues_storeCap stc rfl capMost :), (formIssues_loadCap fill rfl :), (formIssues_storeCap spill rfl capMost :), ?_⟩
    have atomics := formIssues_atomics (s := s) (d := d) (a := a) (b := b) (c := c) (ord := ord) (scope := scope) (w := w)
    simp only [List.forall_mem_cons, List.not_mem_nil, IsEmpty.forall_iff, implies_true, and_true] at atomics
    exact atomics

end

/-- Settles O21: each form makes its checks in the order of R157, and what passes them meets the faults of its memory. -/
theorem accessFaults : Obligations.AccessFaults := by
  intro s d a b c k e cls ty ord j scope w imm f member ready v
  have issues := formIssues f member ready
  refine ⟨capabilityFaults_of_refused issues.refused, fun single allowed near admits within => ?_⟩
  obtain ⟨own, -⟩ := issues.shape single
  have address : Cap.at v f.off = v.base + f.off.toNat := v.at_of_bounds admits.low admits.high
  refine issues.memoryFaults single (State.formCheck_admitted own near admits allowed (fun window => ?_) fun close => ?_)
  · have core : (s.formTarget v f.off).core = (v.base + f.off.toNat) / 2 ^ 16 % 2 ^ 26 := by
      rw [State.formTarget, if_pos window, address]
    have inPod := (within window.le).1 window
    rw [if_pos window] at inPod
    rw [core]
    exact inPod
  · have owned := (within close).2
    have core : (s.formTarget v f.off).core = if v.space = 1 then (v.base + f.off.toNat) / 2 ^ 16 % 2 ^ 26 else s.home := by
      rw [State.formTarget, address]
    have addr : (s.formTarget v f.off).addr = (v.base + f.off.toNat) % 2 ^ 16 := by
      rw [State.formTarget, if_pos close, address]
    rw [core, addr]
    exact owned

end Sys2Proof.Machine
end

section
/-!
PROOFS. Access to the blocks of a joined line (R157, R169, R170, R213, R242): the line is reached in the base view or in a
view, its bytes are those of its place, and a block is written there piece by piece.
-/

namespace Sys2Proof.Machine

/-! ### Versions of a line (R259, R260) -/

section
variable {p q : Package} {v line : Nat} {chain : List Nat}

/-- A version that is found or made leaves a package with it, and nothing else changed. -/
theorem Package.needVersion_eq (found : p.needVersion v line = some q) :
    ∃ vs, q = { p with versions := vs } ∧ vs.any (fun x => x.1 == v && x.2.1 == line) = true := by
  unfold Package.needVersion at found
  dsimp only at found
  split at found
  · next x held =>
    cases found
    exact ⟨_, rfl, by simp only [List.any_cons, List.find?_some held, Bool.true_or]⟩
  · split_ifs at found
    · cases found
      exact ⟨_, rfl, by simp⟩
    · split at found
      · cases found
      · split_ifs at found
        cases found
        exact ⟨_, rfl, by simp⟩

/-- A read through views reorders the versions alone. -/
theorem Package.touchVersion_eq (p : Package) (chain : List Nat) (line : Nat) :
    ∃ vs, p.touchVersion chain line = { p with versions := vs } ∧ ∀ f, vs.any f = p.versions.any f := by
  unfold Package.touchVersion
  split
  · exact ⟨p.versions, rfl, fun _ => rfl⟩
  · next x used =>
    obtain ⟨v, -, held⟩ := List.exists_of_findSome?_eq_some used
    exact ⟨_, rfl, fun f => ((List.perm_cons_erase (List.mem_of_find?_eq_some held)).symm.any_eq)⟩

/-- Which version a chain reads depends on what versions there are alone. -/
theorem Package.versionPoisoned_of_any (views : q.views = p.views) (same : ∀ f, q.versions.any f = p.versions.any f) :
    q.versionPoisoned chain line = p.versionPoisoned chain line := by
  simp only [Package.versionPoisoned, same, Package.view, views]

/-- The version of the innermost view is the one that is read. -/
theorem Package.versionPoisoned_own {r : ViewRec} (head : chain.head? = some v)
    (held : p.versions.any (fun x => x.1 == v && x.2.1 == line) = true) (known : p.view v = some r)
    (clean : r.pz.contains line = false) : p.versionPoisoned chain line = false := by
  obtain ⟨rest, rfl⟩ := List.head?_eq_some_iff.mp head
  simp only [Package.versionPoisoned, List.find?_cons, held, known, Option.any_some, clean]

end

/-! ### The line of a block -/

section
variable {s t u : State} {c : Cap} {off : Int} {need : BitVec 7} {p : Place} {o : Nat} {ty : BitVec 5} {write : Bool}
  {tags : List Byte}

/-- A whole line of GLOBAL space is admitted and held at the home, and its place is there. -/
structure State.LineAt (s : State) (c : Cap) (off : Int) (need : BitVec 7) (write : Bool) (p : Place) : Prop
    extends s.Admits c off 128 128 need 2, s.Granted c 128 need p.addr false, s.LineServes 128 p.addr where
  address : p.addr = c.base + off.toNat
  has     : s.hasTags p
  global  : p.space = 2
  sound   : (s.pkg (pkgOf s.curCore)).versionPoisoned s.me.chain (lineOf p.addr) = false
  room    : write = true → ∀ v, s.me.chain.head? = .some v → s.VersionRoom v p.addr ∧
    ∃ r, (s.pkg (pkgOf s.curCore)).view v = .some r ∧ r.pz.contains (lineOf p.addr) = false

theorem State.BlockAt.lineAt (h : s.BlockAt c off ty need write tags p o) : s.LineAt c (off - o) need write p := by
  have line := h.line
  have space := h.space
  have room := h.room
  cases p with
  | global a =>
    have admitted : s.GlobalAt c (off - o) 128 128 need a := line
    have chain : s.me.chain = [] := by rw [Slot.chain, admitted.noView, List.map_nil]
    exact ⟨admitted.toAdmits, admitted.toGranted, admitted.toLineServes, admitted.address, ⟨chain, admitted.toLineServes.home⟩,
      rfl, by rw [chain]; rfl, fun _ v head => by rw [chain] at head; cases head⟩
  | version v a =>
    have admitted : s.VersionAt c (off - o) 128 128 need v a := line
    obtain ⟨r, known, clean⟩ := admitted.known
    refine ⟨admitted.toAdmits, admitted.toGranted, admitted.toLineServes, admitted.address, ⟨admitted.chain, r, known⟩, rfl,
      admitted.sound, fun writes w head => ?_⟩
    cases admitted.chain.symm.trans head
    exact ⟨room writes v a rfl, r, known, clean⟩
  | own | rival | window | host | ctrl => cases space

/-- The target of an access to the line. -/
def Place.lineTarget (p : Place) (s : State) (c : Cap) : Target := ⟨2, s.home, p.addr, p.addr, c.dom⟩

/-- The checks of a block instruction pass: its line and its block's offset. -/
theorem State.BlockAt.blockTarget (h : s.BlockAt c off ty need write tags p o) (k : AccKind) (kind : k = .load ∨ k = .store) :
    s.blockTarget c off ty need k = .ok (p.lineTarget s c, o) := by
  have line := h.lineAt
  have low := line.low
  have high := line.high
  have inLine := h.inLine
  have aligned := line.aligned
  have address : Cap.at c off = c.base + off.toNat := c.at_of_bounds (z := 0) (by omega) (by omega)
  have offset : Cap.at c off % 128 = o := by omega
  have target := line.toAdmits.targeted (spaces := spGlob) (by decide) (by simp) (by simp)
  have viewed : s.me.viewAllows k (p.lineTarget s c) 128 = true := by
    obtain rfl | rfl := kind <;> simp [Slot.viewAllows, Place.lineTarget, spGLOBAL, spLOCAL]
  have shape : p.lineTarget s c = ⟨2, if 2 = 1 then (c.base + (off - o).toNat) / 2 ^ 16 % 2 ^ 26 else s.home,
      if 2 = 1 ∨ 2 = 0 then (c.base + (off - o).toNat) % 2 ^ 16 else c.base + (off - o).toNat, c.base + (off - o).toNat, c.dom⟩ := by
    simp [Place.lineTarget, line.address]
  rw [← shape] at target
  have placed : ¬(o % mxBytes ty ≠ 0 || mxBlocks ty ≤ o / mxBytes ty) = true := by
    have place := h.place
    simp only [Bool.or_eq_true, decide_eq_true_eq, not_or, not_not, not_le]
    exact place
  simp only [State.blockTarget, offset, target, run_ok_bind]
  rw [if_neg placed]
  simp only [State.viewCheck, viewed]
  rfl

/-- The line has been reached: packages hold what they held but for the order of versions, and no data are poisoned. -/
structure State.LineReached (s t : State) (p : Place) : Prop where
  kept     : KeepsMe s t
  pkgs     : KeepsPkgs s t
  monitors : t.monitors = s.monitors
  poison   : (t.pkg (pkgOf s.curCore)).poison = (s.pkg (pkgOf s.curCore)).poison
  sound    : (t.pkg (pkgOf s.curCore)).versionPoisoned s.me.chain (lineOf p.addr) = false

theorem State.LineReached.of_touched (touched : s.Touched t)
    (sound : (s.pkg (pkgOf s.curCore)).versionPoisoned s.me.chain (lineOf p.addr) = false) : s.LineReached t p := by
  have pkg : t.pkg (pkgOf s.curCore) = s.pkg (pkgOf s.curCore) := by rw [← touched.pkg, touched.keepsMe.core]
  exact ⟨touched.keepsMe, .of_eq touched.pkgs, touched.monitors.1, by rw [pkg], by rw [pkg]; exact sound⟩

/-- Versions that have changed in a package leave the line reached where the one that is read is sound. -/
theorem State.LineReached.of_versions {q : Package} {vs : List (Nat × Nat × Bool)} (touched : s.Touched t)
    (only : q = { s.pkg (pkgOf s.curCore) with versions := vs })
    (sound : q.versionPoisoned s.me.chain (lineOf p.addr) = false) : s.LineReached (t.setPkg (pkgOf s.curCore) q) p := by
  have pkg : t.pkg (pkgOf s.curCore) = s.pkg (pkgOf s.curCore) := by rw [← touched.pkg, touched.keepsMe.core]
  have pkgs : KeepsPkgs t (t.setPkg (pkgOf s.curCore) q) := .setPkg _ _ _ (by rw [only, pkg]; rfl)
  refine ⟨touched.keepsMe.trans (.setPkg ..), KeepsPkgs.trans (.of_eq touched.pkgs) pkgs, touched.monitors.1, ?_, ?_⟩
  · rw [State.pkg_setPkg, only]
  · rw [State.pkg_setPkg]
    exact sound

/-- The line of an admitted access is reached at its home. -/
theorem State.LineAt.reachLine (h : s.LineAt c off need write p) (touched : s.Touched t) :
    t.reachLine (pkgOf s.curCore) s.curCore p.addr = .ok t := by
  have pkg (q : Nat) : t.pkg q = s.pkg q := by obtain rfl | ⟨f, rfl⟩ := touched <;> rfl
  have reached := h.toLineServes.reachAll h.some touched.pkgs pkg (by obtain rfl | ⟨f, rfl⟩ := touched <;> rfl)
  have first : max p.addr (p.addr / 128 * 128) = p.addr := by omega
  rw [h.toLineServes.lines h.some, State.reachAll, first] at reached
  obtain ⟨u, line, done⟩ := run_bind_eq_ok reached
  cases done
  exact line

/-- The line of a block is reached, with a version in the innermost view for a write. -/
theorem State.LineAt.blockReach (h : s.LineAt c off need write p) :
    ∃ t, s.blockReach (p.lineTarget s c) need write = .ok t ∧ s.LineReached t p := by
  obtain ⟨f, rights⟩ := h.toGranted.checkRights (space := 2) (core := s.home) (va := p.addr) rfl
  have touched : s.Touched (s.updCore s.curCore fun k => { k with plb := f k.plb }) := .inr ⟨f, rfl⟩
  generalize (s.updCore s.curCore fun k => { k with plb := f k.plb }) = u at rights touched
  have kept := touched.keepsMe
  have pkg : u.pkg (pkgOf s.curCore) = s.pkg (pkgOf s.curCore) := by rw [← touched.pkg, kept.core]
  have reads (base : (if write then s.me.chain.head? else none) = none) : s.blockReach (p.lineTarget s c) need write =
      .ok (u.touchViews (pkgOf s.curCore) s.me.chain [lineOf p.addr]) := by
    simp only [State.blockReach, Place.lineTarget, rights, run_ok_bind, kept.core, h.reachLine touched, kept.me, base]
  have versions {v : Nat} (head : (if write then s.me.chain.head? else none) = some v) :
      s.blockReach (p.lineTarget s c) need write = u.versionFor (pkgOf s.curCore) v p.addr (lineOf p.addr) := by
    simp only [State.blockReach, Place.lineTarget, rights, run_ok_bind, kept.core, h.reachLine touched, kept.me, head]
  cases which : (if write then s.me.chain.head? else none) with
  | none =>
    refine ⟨_, reads which, ?_⟩
    unfold State.touchViews
    split
    · exact .of_touched touched h.sound
    · obtain ⟨vs, only, same⟩ := (u.pkg (pkgOf s.curCore)).touchVersion_eq s.me.chain (lineOf p.addr)
      refine .of_versions touched (by rw [← pkg]; exact only) ?_
      refine (congrArg (fun q : Package => q.versionPoisoned s.me.chain (lineOf p.addr)) only).trans ?_
      exact (Package.versionPoisoned_of_any (p := u.pkg (pkgOf s.curCore))
        (q := { u.pkg (pkgOf s.curCore) with versions := vs }) rfl same).trans (pkg ▸ h.sound)
  | some v =>
    obtain ⟨writes, head⟩ : write = true ∧ s.me.chain.head? = some v := by
      split at which
      · exact ⟨‹_›, which⟩
      · cases which
    obtain ⟨⟨q, found, fits⟩, r, known, clean⟩ := h.room writes v head
    obtain ⟨vs, only, held⟩ := Package.needVersion_eq found
    have ways : q.setUsed (lineOf p.addr) ≤ q.waysOf (lineOf p.addr * 128) := fits
    refine ⟨u.setPkg (pkgOf s.curCore) q, (versions which).trans ?_, .of_versions touched only ?_⟩
    · simp only [State.versionFor, pkg, found, if_pos ways]
    · subst only
      exact Package.versionPoisoned_own head held known clean

/-- The bytes of the line as the issuing thread reads them are those of its place. -/
theorem State.LineReached.blockLine (reached : s.LineReached t p) (global : p.space = 2) (has : s.hasTags p) :
    t.blockLine (p.lineTarget s c) = s.placeBytes 128 p := by
  refine List.map_congr_left fun i _ => ?_
  have place := State.placeByte_keeps (reached.kept.places reached.pkgs) p (p.addr + i)
  rw [← place]
  cases p with
  | global a =>
    have chain : t.me.chain = [] := by rw [reached.kept.me, has.1]
    simp only [State.globalByte, chain, Package.viewByte, List.findSome?_nil]
    rfl
  | version v a =>
    simp only [State.globalByte, State.placeByte, Place.lineTarget]
    cases ((t.pkg (pkgOf t.curCore)).viewByte t.me.chain _) <;> rfl
  | own | rival | window | host | ctrl => cases global

/-- The tag check and the check for poisoned data pass. -/
theorem State.LineReached.blockTag (reached : s.LineReached t p) (h : s.LineAt c off need write p) {ok : Byte → Bool}
    (format : ok (s.placeByte (p.addr + 126) p) = true) (a : Nat) : t.blockTag (p.lineTarget s c) ok a = .ok () := by
  have line := reached.blockLine (c := c) h.global h.has
  have tag : (s.placeBytes 128 p).getD 126 0 = s.placeByte (p.addr + 126) p := by simp [State.placeBytes]
  have clean : look (s.pkg (pkgOf s.curCore)).poison (lineOf p.addr) = none := h.ours ▸ h.clean
  have sound := reached.sound
  rw [State.blockTag, line, tag, format]
  simp only [Bool.not_true, Bool.false_eq_true, if_false, State.checkPoison, Place.lineTarget, h.ours, reached.poison, clean,
    reached.kept.core, reached.kept.me, sound]

theorem State.LineReached.hasTags (reached : s.LineReached t p) (global : p.space = 2) (has : s.hasTags p) : t.hasTags p := by
  cases p with
  | global a => exact ⟨by rw [reached.kept.me]; exact has.1, by rw [reached.kept.core]; exact has.2⟩
  | version v a =>
    obtain ⟨head, r, known⟩ := has
    have views : (t.pkg (pkgOf s.curCore)).views = (s.pkg (pkgOf s.curCore)).views := congrArg Prod.fst (reached.pkgs.pkg _)
    exact ⟨by rw [reached.kept.me]; exact head, r, by rw [reached.kept.core, Package.view, views]; exact known⟩
  | own | rival | window | host | ctrl => cases global

/-! ### The pieces of a block (R163, R238, R242) -/

/-- The same thread issues, with the same slot and the same monitors. -/
structure SameIssuer (s t : State) : Prop where
  core     : t.curCore = s.curCore
  slot     : t.curSlot = s.curSlot
  me       : t.me = s.me
  monitors : t.monitors = s.monitors

theorem SameIssuer.trans (h : SameIssuer s t) (g : SameIssuer t u) : SameIssuer s u :=
  ⟨g.core.trans h.core, g.slot.trans h.slot, g.me.trans h.me, g.monitors.trans h.monitors⟩

section
variable {q : Package} {v a : Nat} {bytes : List Byte}

theorem Package.view_write (q : Package) (v a : Nat) (bytes : List Byte) (n : Nat) :
    (q.updView v (·.write a bytes)).view n = if n = v then (q.view n).map (·.write a bytes) else q.view n :=
  Package.view_updView (f := (·.write a bytes)) _ _ _ fun _ => rfl

/-- What a chain reads after a write into its innermost view. -/
theorem Package.viewByte_write {r : ViewRec} (known : q.view v = some r) (rest : List Nat) (b : Nat) :
    (q.updView v (·.write a bytes)).viewByte (v :: rest) b =
      if a ≤ b ∧ b < a + bytes.length then some (bytes.getD (b - a) 0) else q.viewByte (v :: rest) b := by
  have each (n : Nat) : ((q.updView v (·.write a bytes)).view n).bind (fun r => look r.writes b) =
      if n = v ∧ a ≤ b ∧ b < a + bytes.length then (q.view n).map fun _ => bytes.getD (b - a) 0
      else (q.view n).bind fun r => look r.writes b := by
    rw [q.view_write]
    by_cases own : n = v
    · cases q.view n <;> by_cases inside : a ≤ b ∧ b < a + bytes.length <;> simp [own, inside, ViewRec.write, look_put_zip]
    · simp [own]
  unfold Package.viewByte
  simp only [each]
  by_cases inside : a ≤ b ∧ b < a + bytes.length
  · simp [inside, known]
  · simp only [inside, and_false, if_false]

theorem Package.viewTag_write {r : ViewRec} (known : q.view v = some r) (rest : List Nat) (g : Nat) :
    (q.updView v (·.write a bytes)).viewTag (v :: rest) g =
      if g ∈ granules a bytes.length then some false else q.viewTag (v :: rest) g := by
  have each (n : Nat) : ((q.updView v (·.write a bytes)).view n).bind (fun r => look r.tags g) =
      if n = v ∧ g ∈ granules a bytes.length then (q.view n).map fun _ => false
      else (q.view n).bind fun r => look r.tags g := by
    rw [q.view_write]
    by_cases own : n = v
    · cases q.view n <;> by_cases inside : g ∈ granules a bytes.length <;> simp [own, inside, ViewRec.write, look_put_all]
    · simp [own]
  unfold Package.viewTag
  simp only [each]
  by_cases inside : g ∈ granules a bytes.length
  · simp [inside, known]
  · simp only [inside, and_false, if_false]

end

/-- A piece written in a line's place leaves its bytes there, and the place. -/
theorem State.piece_stored (has : s.hasTags p) (global : p.space = 2) (n : Nat) (bytes : List Byte) :
    Stored s ((p.plus n).written bytes s) bytes (p.plus n) ∧ SameIssuer s ((p.plus n).written bytes s) ∧
      ((p.plus n).written bytes s).hasTags p := by
  cases p with
  | global a =>
    obtain ⟨wrote, monitors⟩ := s.putGlobal_wrote (a + n) bytes none
    refine ⟨wrote.stored (.refl _), ⟨wrote.core, wrote.slot, wrote.me, monitors⟩, ?_, ?_⟩
    · exact (congrArg Slot.chain wrote.me).trans has.1
    · exact has.2.trans (congrArg pkgOf wrote.core.symm)
  | version v a =>
    obtain ⟨head, r, known⟩ := has
    obtain ⟨rest, chain⟩ := List.head?_eq_some_iff.mp head
    have pkg : (s.updPkg (pkgOf s.curCore) (·.updView v (·.write (a + n) bytes))).pkg (pkgOf s.curCore) =
      (s.pkg (pkgOf s.curCore)).updView v (·.write (a + n) bytes) := s.pkg_setPkg ..
    have kept : KeepsMe s (s.updPkg (pkgOf s.curCore) (·.updView v (·.write (a + n) bytes))) := .setPkg ..
    show Stored s (s.updPkg (pkgOf s.curCore) (·.updView v (·.write (a + n) bytes))) bytes (.version v (a + n)) ∧
      SameIssuer s (s.updPkg (pkgOf s.curCore) (·.updView v (·.write (a + n) bytes))) ∧
      (s.updPkg (pkgOf s.curCore) (·.updView v (·.write (a + n) bytes))).hasTags (.version v a)
    have monitors : (s.updPkg (pkgOf s.curCore) (·.updView v (·.write (a + n) bytes))).monitors = s.monitors := rfl
    generalize s.updPkg (pkgOf s.curCore) (·.updView v (·.write (a + n) bytes)) = t at pkg kept monitors
    refine ⟨⟨kept.storage, fun b => ?_, fun g => ?_⟩, ⟨kept.core, kept.slot, kept.me, monitors⟩,
      (congrArg (fun m : Slot => m.chain.head?) kept.me).trans head, r.write (a + n) bytes, ?_⟩
    · simp only [State.placeByte, kept.core, kept.me, pkg, chain, Package.viewByte_write known, kept.storage.global]
      split <;> rfl
    · simp only [State.placeTag, kept.core, kept.me, pkg, chain, Package.viewTag_write known, kept.storage.tags]
      split <;> rfl
    · rw [kept.core, pkg, Package.view_write, if_pos rfl, known]
      rfl
  | own | rival | window | host | ctrl => cases global

/-- The pieces of a list written one after the other in a line's place. -/
def Place.writtenAll (p : Place) (pieces : List (Nat × List Byte)) (s : State) : State :=
  pieces.foldl (fun s q => (p.plus q.1).written q.2 s) s

theorem State.pieces_stored (pieces : List (Nat × List Byte)) (global : p.space = 2) : ∀ s : State, s.hasTags p →
    StoredAll s (p.writtenAll pieces s) (pieces.map fun q => (p.plus q.1, q.2)) ∧
      SameIssuer s (p.writtenAll pieces s) ∧ (p.writtenAll pieces s).hasTags p := by
  induction pieces with
  | nil => exact fun s has => ⟨.refl s, ⟨rfl, rfl, rfl, rfl⟩, has⟩
  | cons q pieces ih =>
    intro s has
    obtain ⟨stored, same, has⟩ := s.piece_stored has global q.1 q.2
    obtain ⟨rest, after, has⟩ := ih _ has
    refine ⟨?_, same.trans after, has⟩
    cases pieces with
    | nil => exact stored
    | cons f pieces => exact ⟨_, same.core, congrArg Slot.home same.me, stored, rest⟩

/-- What several stores leave stays where what places hold is kept. -/
theorem StoredAll.keeps {l : List (Place × List Byte)} (k : KeepsPlaces t u) : ∀ {s : State}, StoredAll s t l → StoredAll s u l := by
  induction l with
  | nil => exact fun stored => SameStorage.trans stored k.storage
  | cons e l ih =>
    intro s stored
    cases l with
    | nil => exact Stored.keeps stored k
    | cons f l =>
      obtain ⟨w, core, home, first, rest⟩ := stored
      exact ⟨w, core, home, first, ih rest⟩

/-- So does what was kept before them. -/
theorem StoredAll.after {l : List (Place × List Byte)} (stored : StoredAll t u l) (k : KeepsPlaces s t) : StoredAll s u l := by
  obtain ⟨r, me⟩ := k.me
  have home : t.home = s.home := (congrArg Slot.home me).trans rfl
  match l, stored with
  | [], stored => exact k.storage.trans stored
  | [_], stored => exact Stored.after stored k
  | _ :: _ :: _, ⟨w, core, homes, first, rest⟩ => exact ⟨w, core.trans k.core, homes.trans home, first.after k, rest⟩

/-- Steps that each write a piece, from a state that has the place, write all of them. -/
theorem State.foldl_writtenAll {f : State → Nat × List Byte → State} (global : p.space = 2)
    (writes : ∀ t q, t.hasTags p → t.curCore = s.curCore → f t q = (p.plus q.1).written q.2 t) (l : List (Nat × List Byte)) :
    ∀ t : State, t.hasTags p → t.curCore = s.curCore → l.foldl f t = p.writtenAll l t := by
  induction l with
  | nil => exact fun _ _ _ => rfl
  | cons q l ih =>
    intro t has core
    obtain ⟨-, same, after⟩ := t.piece_stored has global q.1 q.2
    rw [List.foldl_cons, writes t q has core]
    exact ih _ after (same.core.trans core)

/-- A block is written piece by piece in its line's place; then monitors look at it. -/
theorem State.placeBlock_eq (has : s.hasTags p) (global : p.space = 2) {x : Target} (address : x.addr = p.addr) (j : Nat)
    (b : Block) : s.placeBlock x ty j b = (p.writtenAll (blockPieces ty j b) s).fireMonitors := by
  obtain ⟨-, same, after⟩ := s.pieces_stored (blockPieces ty j b) global has
  unfold State.placeBlock
  dsimp only
  rw [State.foldl_writtenAll (s := s) global _ (blockPieces ty j b) s has rfl]
  · congr 1
    split
    · next base =>
      cases p with
      | global a => exact State.refreshCopy_own _ (by rw [address]; exact after.2.trans (congrArg pkgOf same.core))
      | version v a =>
        rw [List.isEmpty_iff] at base
        cases base ▸ after.1
      | own | rival | window | host | ctrl => cases global
    · rfl
  · intro t q has core
    rw [address, ← core]
    cases p with
    | global a => rw [has.1]; rfl
    | version v a => rw [has.1]; rfl
    | own | rival | window | host | ctrl => cases global

/-! ### The instructions -/

/-- A block whose line is not written leaves the state in which it was reached. -/
theorem State.LineReached.refreshed (reached : s.LineReached t p) (h : s.LineAt c off need write p) :
    t.refreshCopy (pkgOf t.curCore) (lineOf (p.lineTarget s c).addr) = t :=
  State.refreshCopy_own _ (by rw [reached.kept.core]; exact h.home)

section
variable {i : Instr} {a : BitVec 5} {k : BitVec 3} {f : Regs → Block → Regs × Option Block} {q : Regs} {x : Block}

/-- A block instruction reaches its block and goes on with what its function makes of it. -/
theorem State.block_of_at (e : exec i s = s.block i ty a k need write f)
    (h : s.BlockAt (s.regs.cap k) (s.regs.val a).toInt ty need write [mxTag ty] p o) (ready : s.portsReady [a] []) :
    ∃ t, s.LineReached t p ∧
      (f s.regs (blockOf ty (s.placeBytes 128 p) (o / mxBytes ty)) = (q, none) →
        exec i s = .next (t.completed [a] [] (q.advance 4))) ∧
      ∀ x, f s.regs (blockOf ty (s.placeBytes 128 p) (o / mxBytes ty)) = (q, some x) →
        exec i s = .next ((t.placeBlock (p.lineTarget s (s.regs.cap k)) ty (o / mxBytes ty) x).completed [a] []
          (q.advance 4)) := by
  have line := h.lineAt
  obtain ⟨t, reach, reached⟩ := line.blockReach
  have target := h.blockTarget (if write then .store else .load) (by cases write <;> simp)
  have tag := h.tag
  have format : (s.placeByte (p.addr + 126) p == mxTag ty) = true := by simpa using tag
  have passed := reached.blockTag line (ok := (· == mxTag ty)) format ((p.lineTarget s (s.regs.cap k)).va + o)
  have bytes := reached.blockLine (c := s.regs.cap k) line.global line.has
  refine ⟨t, reached, fun made => ?_, fun x made => ?_⟩ <;> refine e.trans (congrArg Host.Outcome.next (s.memory_of_ok _ ready ?_))
  · simp only [Regs.offset, target, liftFault, run_ok_bind, reach, passed, bytes, made, reached.refreshed line]
  · simp only [Regs.offset, target, liftFault, run_ok_bind, reach, passed, bytes, made]

/-- A block instruction that writes registers only. -/
theorem State.block_reads (e : exec i s = s.block i ty a k need write f)
    (h : s.BlockAt (s.regs.cap k) (s.regs.val a).toInt ty need write [mxTag ty] p o) (ready : s.portsReady [a] [])
    (made : f s.regs (blockOf ty (s.placeBytes 128 p) (o / mxBytes ty)) = (q, none)) :
    ∃ t, exec i s = .next (t.completed [a] [] (q.advance 4)) ∧ KeepsMe s t := by
  obtain ⟨t, reached, reads, -⟩ := State.block_of_at (q := q) e h ready
  exact ⟨t, reads made, reached.kept⟩

/-- A block instruction that writes its block leaves exactly its pieces. -/
theorem State.block_writes (e : exec i s = s.block i ty a k need write f)
    (h : s.BlockAt (s.regs.cap k) (s.regs.val a).toInt ty need write [mxTag ty] p o) (ready : s.portsReady [a] [])
    (made : f s.regs (blockOf ty (s.placeBytes 128 p) (o / mxBytes ty)) = (s.regs, some x)) (quiet : s.notWatching) :
    ∃ t, exec i s = .next (t.completed [a] [] (s.regs.advance 4)) ∧
      StoredAll s t ((blockPieces ty (o / mxBytes ty) x).map fun e => (p.plus e.1, e.2)) ∧ t.me = s.me := by
  obtain ⟨t, reached, -, writes⟩ := State.block_of_at (q := s.regs) e h ready
  have line := h.lineAt
  have has := reached.hasTags line.global line.has
  obtain ⟨stored, same, -⟩ := t.pieces_stored (blockPieces ty (o / mxBytes ty) x) line.global has
  have kept : KeepsMe _ (p.writtenAll (blockPieces ty (o / mxBytes ty) x) t).fireMonitors := .fireMonitors _ fun m member => by
    rw [same.core, same.slot]
    exact reached.kept.notWatching reached.monitors quiet m (same.monitors ▸ member)
  have done := writes x made
  rw [State.placeBlock_eq has line.global rfl] at done
  refine ⟨_, done, ?_, ?_⟩
  · exact (stored.keeps (kept.places (.fireMonitors _))).after (reached.kept.places reached.pkgs)
  · rw [kept.me, same.me, reached.kept.me]

end

end

end Sys2Proof.Machine
end

section
/-!
PROOFS. The values of blocks (R73, R89, R172, R173): the largest magnitude of a format, scales that values fit, and rounding
to odd at a format's own precision.
-/

namespace Sys2Proof.Machine

/-! ### Lists of 32 elements -/

/-- A list is the list of its elements. -/
theorem eq_map_range {α : Type} {l : List α} {n : Nat} (size : l.length = n) (x : α) :
    l = (List.range n).map fun i => l.getD i x := by
  refine List.ext_getElem (by simp [size]) fun i lt _ => ?_
  simp [lt]

theorem getD_map_range {α : Type} (f : Nat → α) {n i : Nat} (lt : i < n) (x : α) : ((List.range n).map f).getD i x = f i := by
  simp [lt]

theorem zipIdx_map_range {α : Type} (f : Nat → α) (n : Nat) :
    ((List.range n).map f).zipIdx = (List.range n).map fun i => (f i, i) :=
  List.ext_getElem (by simp) fun i _ _ => by simp

theorem bitsOf_eq (b : Nat → Bool) (n : Nat) :
    bitsOf ((List.range n).map b) = BitVec.ofNat 32 (fieldSum 1 (fun i => (b i).toNat) n) := by
  have step (x j : Nat) : (x + if b j then 2 ^ j else 0) = x + (b j).toNat * 2 ^ (1 * j) := by
    cases b j <;> simp
  rw [bitsOf, zipIdx_map_range, List.foldl_map, fieldSum]
  simp only [step]

/-- The sticky bit of an element is its flag. -/
theorem getLsbD_bitsOf (b : Nat → Bool) {i : Nat} (lt : i < 32) : (bitsOf ((List.range 32).map b)).getLsbD i = b i := by
  have field := fieldSum_field (w := 1) (d := fun i => (b i).toNat) (fun j => by cases b j <;> decide) lt
  rw [bitsOf_eq, BitVec.getLsbD_ofNat, decide_eq_true lt, Bool.true_and, Nat.testBit_eq_decide_div_mod_eq]
  rw [one_mul, pow_one] at field
  rw [field]
  cases b i <;> rfl

/-! ### Formats of blocks (R50, R90) -/

theorem mxElem_sound : ∀ ty : BitVec 5, (fmtOf (mxElem ty)).Sound := by
  have all : ∀ ty : BitVec 5, fmtOf (mxElem ty) ∈
      [fmtF64, fmtF32, fmtBf16, fmtF16, fmtE4m3, fmtE5m2, fmtE3m2, fmtE2m3, fmtE2m1] := by decide
  exact fun ty => fmt_sound_of_mem (all ty)

section
variable {f : Fmt} {neg : Bool} {m : Nat} {e : Int}

theorem maxOf_eq (f : Fmt) : maxOf f = f.maxMag.1 * 2 ^ f.maxMag.2 := by
  simp only [maxOf, overflowOf, Fmt.ov, Fmt.maxMag]
  push_cast
  ring

theorem maxOf_nonneg (f : Fmt) : 0 ≤ maxOf f := by
  rw [maxOf_eq]
  positivity

theorem maxOf_lt_overflow (f : Fmt) : maxOf f < overflowOf f := by
  have unit : (0 : ℚ) < 2 ^ f.ov.2 := by positivity
  rw [maxOf]
  linarith

/-- The largest finite encoding has the largest magnitude. -/
theorem Fmt.Sound.encVal_maxEnc (h : f.Sound) : f.encVal f.maxEnc = maxOf f := by
  rw [maxOf_eq, Fmt.encVal, if_neg (Nat.not_lt.mpr h.normal)]
  rfl

/-- A finite element without a tail is a point of its format's grid. -/
theorem Fmt.xval_point {bits : Nat} (value : f.xval bits 0 = .fin neg m e) :
    ∃ ex n, f.Point ex n ∧ f.enc ex n ≤ f.maxEnc ∧ (m : ℚ) * 2 ^ e = n * 2 ^ (ex - f.fbits) := by
  set mag := bits % 2 ^ f.width % f.signBit with hm
  rcases le_or_gt mag f.maxEnc with le | gt
  · obtain ⟨ex, n, p, place⟩ := f.exists_point mag
    rw [f.xval_of_point p (hm.symm.trans place) (place ▸ le)] at value
    injection value with _ units grid
    refine ⟨ex, n, p, place ▸ le, ?_⟩
    rw [← grid, ← units, zpow_sub₀ two_ne_zero _ 2]
    push_cast
    norm_num
    ring
  · rw [Fmt.xval] at value
    simp only [← hm, if_pos gt] at value
    split at value <;> cases value

/-- A finite element is not beyond the largest magnitude. -/
theorem Fmt.Sound.xval_le_max (h : f.Sound) {bits : Nat} (value : f.xval bits 0 = .fin neg m e) : (m : ℚ) * 2 ^ e ≤ maxOf f := by
  obtain ⟨ex, n, point, le, own⟩ := f.xval_point value
  rw [own, ← point.encVal, ← h.encVal_maxEnc]
  exact f.encVal_strictMono.monotone le

theorem Fmt.xval_ne_inf (none : f.hasInf = false) (bits : Nat) (t : BitVec 2) (neg ovf : Bool) : f.xval bits t ≠ .inf neg ovf := by
  unfold Fmt.xval
  simp only [none, Bool.false_and, Bool.false_eq_true, if_false]
  split_ifs <;> nofun

theorem Fmt.Sound.xval_ne_nan (h : f.Sound) (none : f.hasNan = false) (bits : Nat) (t : BitVec 2) : f.xval bits t ≠ .nan := by
  have small : ¬f.maxEnc < bits % 2 ^ f.width % f.signBit := by
    have below := h.nans none
    have pos : 0 < f.signBit := Nat.two_pow_pos _
    have lt := Nat.mod_lt (bits % 2 ^ f.width) pos
    omega
  unfold Fmt.xval
  simp only [if_neg small]
  split_ifs <;> nofun

/-- A magnitude fits a scale where it is at most the largest one times the scale (R172). -/
theorem fitsMag_fin (f : Fmt) (k : Int) (neg : Bool) (m : Nat) (e : Int) :
    fitsMag f k (.fin neg m e) = true ↔ (m : ℚ) * 2 ^ e ≤ maxOf f * 2 ^ k := by
  rw [fitsMag, magLe_iff, maxOf_eq, mul_assoc, ← zpow_add₀ two_ne_zero]

/-- A value that is no infinity fits a scale where its magnitude does; a NaN always fits. -/
theorem fitsMag_iff {x : XVal} (real : ∀ n o, x ≠ .inf n o) (k : Int) :
    fitsMag f k x = true ↔ ∀ q, exactValue x = some q → |q| ≤ maxOf f * 2 ^ k := by
  cases x with
  | nan => simp [fitsMag, exactValue]
  | inf n o => exact absurd rfl (real n o)
  | fin neg m e =>
    rw [fitsMag_fin, exactValue_fin]
    simp only [Option.some.injEq, forall_eq', abs_signedValue]

/-- A scale that all of 32 values fit. -/
theorem all_fitsMag_iff {x : Nat → XVal} (real : ∀ i < 32, ∀ n o, x i ≠ .inf n o) (k : Nat) :
    ((List.range 32).map x).all (fitsMag f ((k : Int) - 127)) = true ↔ FitsScale f (fun i => exactValue (x i)) k := by
  simp only [List.all_map, List.all_eq_true, List.mem_range, Function.comp_apply, FitsScale]
  refine ⟨fun all i q lt value => (fitsMag_iff (real i lt) _).mp (all i lt) q value, fun all i lt => ?_⟩
  exact (fitsMag_iff (real i lt) _).mpr fun q value => all i q lt value

/-- The first scale from `low` to 254 that fits, or 254, is the least. -/
theorem leastScale_find {x : Nat → Option ℚ} {low : Nat} {fits : Nat → Bool} (range : low ≤ 254)
    (holds : ∀ k, fits k = true ↔ low ≤ k ∧ FitsScale f x k) :
    LeastScale f low x (((List.range 255).find? fits).getD 254) := by
  cases found : (List.range 255).find? fits with
  | none =>
    rw [List.find?_range_eq_none] at found
    refine ⟨range, le_rfl, .inl rfl, fun j above below fit => ?_⟩
    have no := found j (by simpa using below.trans (by norm_num))
    rw [(holds j).mpr ⟨above, fit⟩] at no
    exact Bool.false_ne_true no
  | some k =>
    rw [List.find?_range_eq_some] at found
    obtain ⟨fit, inside, before⟩ := found
    obtain ⟨above, fit⟩ := (holds k).mp fit
    refine ⟨above, Nat.le_of_lt_succ (List.mem_range.mp inside), .inr fit, fun j low below fit => ?_⟩
    have no := before j below
    rw [(holds j).mpr ⟨low, fit⟩] at no
    exact Bool.false_ne_true no

/-! ### Rounding to odd at a format's precision (R172) -/

/-- A magnitude rounded to odd at a format's own precision (R172). -/
def oddAt (f : Fmt) (y : ℚ) : ℚ := toOdd (y / ulpOf f y) * ulpOf f y

theorem toOdd_eq_self_iff (x : ℚ) : (toOdd x : ℚ) = x ↔ (⌊x⌋ : ℚ) = x := by
  refine ⟨fun same => ?_, fun same => ?_⟩
  · rw [← same, Int.floor_intCast]
  · rw [toOdd, if_pos (.inl same)]
    exact same

/-- The units of a magnitude made odd where something is left are a point of the grid, and no greater than the largest
encoding where the magnitude is not greater than the largest. -/
theorem Fmt.Sound.oddUnits_point (h : f.Sound) (pos : 0 < m) (le : (m : ℚ) * 2 ^ e ≤ maxOf f) :
    let ex := f.binade (m * 2 ^ e)
    f.Point ex (oddUnits m e (ex - f.fbits)) ∧ f.enc ex (oddUnits m e (ex - f.fbits)) ≤ f.maxEnc := by
  intro ex
  have mag : (0 : ℚ) < m * 2 ^ e := by positivity
  obtain ⟨n, r, u, split, lt, value⟩ := splitUnits_spec m e (ex - f.fbits)
  have floor : (n : Int) = ⌊(m : ℚ) * 2 ^ e / 2 ^ (ex - f.fbits)⌋ := by rw [value, floor_units lt]
  have point := f.point_of_floor mag floor
  have below := h.enc_floor_le mag (le.trans_lt (maxOf_lt_overflow f)) floor
  have units : oddUnits m e (ex - f.fbits) = if r = 0 ∨ n % 2 = 1 then n else n + 1 := by
    rw [oddUnits, unitsFloor_eq, split, or_one_eq]
    by_cases exact : r = 0 <;> simp [exact]
  rw [units]
  split
  · exact ⟨point, below⟩
  · next left =>
    obtain ⟨inexact, even⟩ := not_or.mp left
    have room : n + 1 < 2 ^ (f.fbits + 1) := by
      have unit := point.unit
      rw [pow_succ] at unit ⊢
      omega
    have strict : f.encVal (f.enc ex n) < f.encVal f.maxEnc := by
      rw [h.encVal_maxEnc]
      refine lt_of_le_of_ne ((f.encVal_floor_le mag floor).trans le) fun same => ?_
      have exact : (n : ℚ) = n + r / u := by
        have ulp : (0 : ℚ) < 2 ^ (ex - f.fbits) := by positivity
        have own : (n : ℚ) * 2 ^ (ex - f.fbits) = m * 2 ^ e := by
          rw [← point.encVal]
          exact le_antisymm (f.encVal_floor_le mag floor) (same ▸ le)
        rw [← value, ← own, mul_div_cancel_right₀ _ ulp.ne']
      exact inexact ((units_exact_iff lt).mp exact)
    refine ⟨⟨point.low, room, ?_⟩, ?_⟩
    · rcases point.lead with lead | lead
      · exact .inl (lead.trans n.le_succ)
      · exact .inr lead
    · rw [f.enc_succ]
      exact f.encVal_strictMono.lt_iff_lt.mp strict

theorem oddAt_zero (f : Fmt) : oddAt f 0 = 0 := by simp [oddAt, toOdd]

/-- An encoding with the magnitude of another number, and whether it is that number. -/
structure Fmt.Encodes (f : Fmt) (z : Nat × Bool) (neg : Bool) (r y : ℚ) : Prop where
  fits    : z.1 < 2 ^ f.width
  value   : hasMagnitude (f.xval z.1 0) neg r
  inexact : z.2 = decide (r ≠ y)

theorem Fmt.Sound.encodes_signed (h : f.Sound) {mag : Nat} (le : mag ≤ f.maxEnc) (neg : Bool) {inexact : Bool} {y : ℚ}
    (differs : inexact = decide (f.encVal mag ≠ y)) : f.Encodes ((f.signed neg mag).toNat, inexact) neg (f.encVal mag) y :=
  ⟨h.signed_lt (le.trans_lt h.top) neg, h.hasMagnitude_signed le neg, differs⟩

/-- `ROD` encodes the magnitude rounded to odd (R172). -/
theorem Fmt.Sound.rod_encodes (h : f.Sound) (neg : Bool) (le : (m : ℚ) * 2 ^ e ≤ maxOf f) :
    f.Encodes (f.rod neg m e) neg (oddAt f (m * 2 ^ e)) (m * 2 ^ e) := by
  rcases Nat.eq_zero_or_pos m with rfl | pos
  · have zero := h.encodes_signed (Nat.zero_le _) neg (inexact := false) (y := 0) (by simp [f.encVal_zero])
    rw [f.encVal_zero] at zero
    simpa [Fmt.rod, oddAt_zero] using zero
  · obtain ⟨point, small⟩ := h.oddUnits_point pos le
    have unit : (2 : ℚ) ^ (f.binade (m * 2 ^ e) - f.fbits) ≠ 0 := by positivity
    obtain ⟨n, r, u, split, lt, value⟩ := splitUnits_spec m e (f.binade (m * 2 ^ e) - f.fbits)
    have odd : f.encVal (f.enc (f.binade (m * 2 ^ e)) (oddUnits m e (f.binade (m * 2 ^ e) - f.fbits))) = oddAt f (m * 2 ^ e) := by
      rw [point.encVal, oddUnits_cast]
      rfl
    have exact : oddAt f (m * 2 ^ e) = m * 2 ^ e ↔ r = 0 := by
      rw [oddAt, ulpOf_eq, ← eq_div_iff unit, toOdd_eq_self_iff, value, floor_units lt]
      exact units_exact_iff lt
    have form : f.rod neg m e = ((f.signed neg (f.enc (f.binade (m * 2 ^ e))
        (oddUnits m e (f.binade (m * 2 ^ e) - f.fbits)))).toNat, decide (oddAt f (m * 2 ^ e) ≠ m * 2 ^ e)) := by
      have inexact : decide (oddAt f (m * 2 ^ e) ≠ m * 2 ^ e) = !(unitsFloor m e (f.binade (m * 2 ^ e) - f.fbits)).2 := by
        rw [unitsFloor_eq, split, ← decide_not, decide_eq_decide]
        exact not_congr exact
      rw [inexact]
      simp only [Fmt.rod, if_neg pos.ne', magLog2_eq pos]
      rfl
    rw [form, ← odd]
    exact h.encodes_signed small neg (by rw [odd])

/-- One element of an accumulated block encodes its value under the scale, rounded to odd or cut to the largest magnitude
(R172). -/
theorem Fmt.Sound.accElem_encodes (h : f.Sound) (scale : Nat) (neg : Bool) (m : Nat) (e : Int) :
    let y := (m : ℚ) * 2 ^ e / 2 ^ ((scale : Int) - 127)
    f.Encodes (accElem f scale (.fin neg m e)) neg (if y ≤ maxOf f then oddAt f y else maxOf f) y := by
  intro y
  have unit : (0 : ℚ) < 2 ^ ((scale : Int) - 127) := by positivity
  have fits : fitsMag f ((scale : Int) - 127) (.fin neg m e) = true ↔ y ≤ maxOf f := by
    rw [fitsMag_fin, div_le_iff₀ unit]
  have scaled : y = m * 2 ^ (e - ((scale : Int) - 127)) := by rw [zpow_sub₀ two_ne_zero, ← mul_div_assoc]
  simp only [accElem, fits]
  split
  · next le =>
    rw [scaled] at le ⊢
    exact h.rod_encodes neg le
  · next beyond =>
    rw [← h.encVal_maxEnc] at beyond ⊢
    exact h.encodes_signed le_rfl neg (by simp [(not_le.mp beyond).ne])

/-- An element multiplied by a power of two that it allows is exact (R174). -/
theorem Fmt.oddAt_scaled {bits : Nat} (value : f.xval bits 0 = .fin neg m e) (k : Nat) :
    oddAt f (m * 2 ^ (e + k)) = m * 2 ^ (e + k) := by
  obtain ⟨ex, n, point, -, own⟩ := f.xval_point value
  have grid : (m : ℚ) * 2 ^ (e + k) = n * 2 ^ (ex + k - f.fbits) := by
    rw [zpow_add₀ two_ne_zero, ← mul_assoc, own, mul_assoc, ← zpow_add₀ two_ne_zero]
    congr 2
    ring
  rw [grid]
  rcases Nat.eq_zero_or_pos n with rfl | pos
  · rw [Nat.cast_zero, zero_mul, oddAt_zero]
  · have mag : (0 : ℚ) < n * 2 ^ (ex + k - f.fbits) := by positivity
    have low : f.binade (n * 2 ^ (ex + k - f.fbits)) ≤ ex + k := by
      refine max_le (Int.lt_add_one_iff.mp ((Int.lt_zpow_iff_log_lt (b := 2) one_lt_two mag).mp ?_)) ?_
      · have unit : (n : ℚ) < 2 ^ (f.fbits + 1) := by exact_mod_cast point.unit
        calc (n : ℚ) * 2 ^ (ex + k - f.fbits) < 2 ^ (f.fbits + 1) * 2 ^ (ex + k - f.fbits) := by gcongr
          _ = ((2 : Nat) : ℚ) ^ (ex + k + 1) := by
            rw [← zpow_natCast, ← zpow_add₀ two_ne_zero]
            push_cast
            congr 1
            ring
      · have above := point.low
        omega
    have units : (n : ℚ) * 2 ^ (ex + k - f.fbits) / 2 ^ (f.binade (n * 2 ^ (ex + k - f.fbits)) - f.fbits) =
        ((n * 2 ^ (ex + k - f.binade (n * 2 ^ (ex + k - f.fbits))).toNat : Nat) : Int) := by
      generalize f.binade (n * 2 ^ (ex + k - f.fbits)) = b at low
      rw [div_eq_iff (by positivity), two_zpow_split (q := b - f.fbits) (by omega)]
      push_cast
      rw [show ex + k - f.fbits - (b - f.fbits) = ex + k - b by ring]
      ring
    have unit : (2 : ℚ) ^ (f.binade (n * 2 ^ (ex + k - f.fbits)) - f.fbits) ≠ 0 := by positivity
    rw [oddAt, ulpOf_eq, ← eq_div_iff unit, toOdd_eq_self_iff, units, Int.floor_intCast]

end

end Sys2Proof.Machine
end

section
/-!
PROOFS. What the block instructions make of blocks (R172 to R174): accumulation, normalisation and resolution element by
element.
-/

namespace Sys2Proof.Machine

/-! ### Blocks element by element -/

/-- A block has its 32 elements. -/
def Block.Whole (b : Block) : Prop := b.elems.length = 32

theorem unpack_length (ty : BitVec 5) (x : Nat) : (unpack ty x).length = 32 := by simp [unpack]

theorem blockOf_whole (ty : BitVec 5) (line : List Byte) (j : Nat) : (blockOf ty line j).Whole := unpack_length ..

theorem Regs.blockIn_whole (r : Regs) (ty d b : BitVec 5) : (r.blockIn ty d b).Whole := unpack_length ..

/-- The formats that blocks are held in have no infinities (R90, R92). -/
theorem held_hasInf {ty : BitVec 5} (held : ty = 19 ∨ ty = 23) : (fmtOf (mxElem ty)).hasInf = false := by
  obtain rfl | rfl := held <;> rfl

section
variable {ty : BitVec 5} {b : Block} {i : Nat}

/-- The value of an element of a block under its scale, with its sign (R89). -/
def blockVal (ty : BitVec 5) (b : Block) (i : Nat) : XVal := scaled (fmtOf (mxElem ty)) (b.elems.getD i 0) b.scale

theorem exactValue_blockVal (ty : BitVec 5) (b : Block) (i : Nat) : exactValue (blockVal ty b i) = blockValue ty b i := by
  unfold blockVal scaled blockValue
  cases (fmtOf (mxElem ty)).xval (b.elems.getD i 0) 0 with
  | nan | inf => rfl
  | fin neg m e =>
    simp only [exactValue_fin, Option.map_some, signedValue, add_sub_assoc, zpow_add₀ (two_ne_zero (α := ℚ)), ← mul_assoc]
    split <;> simp

theorem blockVal_ne_inf (held : ty = 19 ∨ ty = 23) (b : Block) (i : Nat) (neg ovf : Bool) : blockVal ty b i ≠ .inf neg ovf := by
  have own := (fmtOf (mxElem ty)).xval_ne_inf (held_hasInf held) (b.elems.getD i 0) 0
  unfold blockVal scaled
  cases value : (fmtOf (mxElem ty)).xval (b.elems.getD i 0) 0 with
  | nan => nofun
  | inf n o => exact absurd value (own n o)
  | fin => nofun

theorem neg_blockVal (held : ty = 19 ∨ ty = 23) (b : Block) (i : Nat) : (blockVal ty b i).neg = blockNeg ty b i := by
  have own := (fmtOf (mxElem ty)).xval_ne_inf (held_hasInf held) (b.elems.getD i 0) 0
  unfold blockVal scaled blockNeg
  cases value : (fmtOf (mxElem ty)).xval (b.elems.getD i 0) 0 with
  | nan => rfl
  | inf n o => exact absurd value (own n o)
  | fin => rfl

/-- An element of a held block has no value where it is NaN. -/
theorem blockValue_eq_none (held : ty = 19 ∨ ty = 23) :
    blockValue ty b i = none ↔ (fmtOf (mxElem ty)).xval (b.elems.getD i 0) 0 = .nan := by
  have own := (fmtOf (mxElem ty)).xval_ne_inf (held_hasInf held) (b.elems.getD i 0) 0
  unfold blockValue
  cases value : (fmtOf (mxElem ty)).xval (b.elems.getD i 0) 0 with
  | nan => simp [exactValue]
  | inf n o => exact absurd value (own n o)
  | fin => simp [exactValue]

/-- Some element of a block. -/
theorem Block.Whole.any_iff (whole : b.Whole) (f : Nat → Bool) : b.elems.any f = true ↔ ∃ i < 32, f (b.elems.getD i 0) = true := by
  conv_lhs => rw [eq_map_range whole 0]
  simp

/-- Every element of a block. -/
theorem Block.Whole.map_eq {α : Type} (whole : b.Whole) (f : Nat → α) :
    b.elems.map f = (List.range 32).map fun i => f (b.elems.getD i 0) := by
  conv_lhs => rw [eq_map_range whole 0]
  rw [List.map_map]
  rfl

/-- Two blocks element by element. -/
theorem Block.Whole.zipWith_eq {α : Type} {u : Block} (whole : b.Whole) (other : u.Whole) (f : Nat → Nat → α) :
    List.zipWith f b.elems u.elems = (List.range 32).map fun i => f (b.elems.getD i 0) (u.elems.getD i 0) := by
  conv_lhs => rw [eq_map_range whole 0, eq_map_range other 0]
  rw [List.zipWith_map, List.zipWith_self]

end

/-! ### `MXACC` (R172) -/

section
variable {ty sty : BitVec 5} {o u : Block} {i : Nat}

/-- The exact sum of an element of each block. -/
def blockSum (ty sty : BitVec 5) (o u : Block) (i : Nat) : XVal := (xAdd (blockVal ty o i) (blockVal sty u i)).val

theorem exactValue_blockSum (dst : ty = 19 ∨ ty = 23) (src : sty = 19 ∨ sty = 23) (i : Nat) :
    exactValue (blockSum ty sty o u i) = (do some ((← blockValue ty o i) + (← blockValue sty u i))) := by
  rw [← exactValue_blockVal, ← exactValue_blockVal, blockSum]
  cases x : blockVal ty o i with
  | nan => rfl
  | inf n v => exact absurd x (blockVal_ne_inf dst o i n v)
  | fin n m e =>
    cases y : blockVal sty u i with
    | nan => rfl
    | inf n v => exact absurd y (blockVal_ne_inf src u i n v)
    | fin n' m' e' => exact (xAdd_gives n n' m m' e e').2.1

theorem blockSum_ne_inf (dst : ty = 19 ∨ ty = 23) (src : sty = 19 ∨ sty = 23) (i : Nat) (neg ovf : Bool) :
    blockSum ty sty o u i ≠ .inf neg ovf := by
  rw [blockSum]
  cases x : blockVal ty o i with
  | nan => nofun
  | inf n v => exact absurd x (blockVal_ne_inf dst o i n v)
  | fin n m e =>
    cases y : blockVal sty u i with
    | nan => nofun
    | inf n v => exact absurd y (blockVal_ne_inf src u i n v)
    | fin n' m' e' =>
      obtain ⟨k, l, g, form, -, -⟩ := finAdd_spec n m e n' m' e'
      simp [xAdd, form]

/-- The sign of an exact sum, and of an exact zero (R80). -/
theorem neg_blockSum (dst : ty = 19 ∨ ty = 23) (src : sty = 19 ∨ sty = 23) {q : ℚ}
    (value : exactValue (blockSum ty sty o u i) = some q) :
    (blockSum ty sty o u i).neg = if q = 0 then blockNeg ty o i && blockNeg sty u i else decide (q < 0) := by
  split
  · next zero =>
    subst zero
    rw [← neg_blockVal dst, ← neg_blockVal src]
    rw [blockSum] at value ⊢
    cases x : blockVal ty o i with
    | nan => rw [x] at value; cases value
    | inf n v => exact absurd x (blockVal_ne_inf dst o i n v)
    | fin n m e =>
      cases y : blockVal sty u i with
      | nan => rw [x, y] at value; cases value
      | inf n v => exact absurd y (blockVal_ne_inf src u i n v)
      | fin n' m' e' =>
        obtain ⟨-, sum, zero⟩ := xAdd_gives n n' m m' e e'
        rw [x, y, sum] at value
        exact zero (Option.some.inj value)
  · next nonzero =>
    obtain ⟨n, m, e, form, rfl⟩ := exists_fin_of_exactValue value
    have units : m ≠ 0 := fun z => nonzero ((signedValue_eq_zero ..).mpr z)
    rw [form, Bool.eq_iff_iff, decide_eq_true_eq, signedValue_neg]
    exact ⟨fun neg => ⟨neg, units⟩, fun neg => neg.1⟩

/-- The scale of an accumulated block (R172). -/
def accScale (ty sty : BitVec 5) (o u : Block) : Nat :=
  ((List.range 255).find? fun k => decide (o.scale ≤ k) &&
    ((List.range 32).map (blockSum ty sty o u)).all (fitsMag (fmtOf (mxElem ty)) ((k : Int) - 127))).getD 254

/-- An accumulated element (R172). -/
def accAt (ty sty : BitVec 5) (o u : Block) (i : Nat) : Nat × Bool :=
  accElem (fmtOf (mxElem ty)) (accScale ty sty o u) (blockSum ty sty o u i)

/-- The accumulation of blocks without a NaN scale, element by element. -/
theorem blockAcc_eq (dst : o.Whole) (src : u.Whole) (scales : ¬(o.scale = 0xFF ∨ u.scale = 0xFF))
    (nan : ¬(ty = 23 ∧ u.elems.any (fun e => (fmtOf (mxElem sty)).xval e 0 == .nan) = true)) :
    blockAcc ty sty o u = ⟨(List.range 32).map fun i => (accAt ty sty o u i).1, accScale ty sty o u,
      o.sticky ||| u.sticky ||| bitsOf ((List.range 32).map fun i => (accAt ty sty o u i).2)⟩ := by
  have sums : List.zipWith (fun e w => (xAdd (scaled (fmtOf (mxElem ty)) e o.scale)
      (scaled (fmtOf (mxElem sty)) w u.scale)).val) o.elems u.elems = (List.range 32).map (blockSum ty sty o u) :=
    dst.zipWith_eq src _
  have first : ¬(decide (o.scale = 0xFF) || decide (u.scale = 0xFF)) = true := by simpa using scales
  have second : ¬(decide (ty = 23) && u.elems.any fun e => (fmtOf (mxElem sty)).xval e 0 == .nan) = true := by
    simpa using nan
  rw [blockAcc]
  simp only [if_neg first, if_neg second, sums, List.map_map]
  rfl

/-- A block of `.mx4` has no NaN (R72). -/
theorem blockValue_mx4 (o : Block) (i : Nat) : blockValue 23 o i ≠ none := fun none =>
  (mxElem_sound 23).xval_ne_nan rfl _ _ ((blockValue_eq_none (.inr rfl)).mp none)

/-- A sum without a value is NaN, which only a block of `.mx8` takes. -/
theorem accAt_none (dst : ty = 19 ∨ ty = 23) (src : sty = 19 ∨ sty = 23)
    (real : ¬(ty = 23 ∧ ∃ i < 32, blockValue sty u i = none)) (lt : i < 32)
    (value : exactValue (blockSum ty sty o u i) = none) : accAt ty sty o u i = (0x7F, false) := by
  have nan : blockSum ty sty o u i = .nan := by
    cases form : blockSum ty sty o u i with
    | nan => rfl
    | inf n v => exact absurd form (blockSum_ne_inf dst src i n v)
    | fin => rw [form] at value; cases value
  have mx8 : ty = 19 := dst.resolve_right fun mx4 => by
    have sum := exactValue_blockSum (o := o) (u := u) dst src i
    subst mx4
    obtain ⟨a, own⟩ := Option.ne_none_iff_exists'.mp (blockValue_mx4 o i)
    obtain ⟨b, other⟩ := Option.ne_none_iff_exists'.mp fun none => real ⟨rfl, i, lt, none⟩
    rw [value, own, other] at sum
    cases sum
  rw [accAt, nan, mx8]
  rfl

/-- A sum with a value is encoded under the scale, rounded to odd or cut to the largest magnitude. -/
theorem accAt_some (dst : ty = 19 ∨ ty = 23) (src : sty = 19 ∨ sty = 23) {q : ℚ}
    (value : exactValue (blockSum ty sty o u i) = some q) :
    let f := fmtOf (mxElem ty)
    let y := |q / 2 ^ ((accScale ty sty o u : Int) - 127)|
    f.Encodes (accAt ty sty o u i) (if q = 0 then blockNeg ty o i && blockNeg sty u i else decide (q < 0))
      (if y ≤ maxOf f then oddAt f y else maxOf f) y := by
  rw [← neg_blockSum dst src value]
  obtain ⟨n, m, e, form, rfl⟩ := exists_fin_of_exactValue value
  have unit : (0 : ℚ) < 2 ^ ((accScale ty sty o u : Int) - 127) := by positivity
  have encodes := (mxElem_sound ty).accElem_encodes (accScale ty sty o u) n m e
  rw [accAt, form, abs_div, abs_signedValue, abs_of_pos unit]
  exact encodes

/-- R172: what `MXACC` makes of two blocks. -/
theorem blockAcc_rule (dst : ty = 19 ∨ ty = 23) (src : sty = 19 ∨ sty = 23) (whole : o.Whole) (other : u.Whole)
    (byte : o.scale < 256) : AccRule ty sty o u (blockAcc ty sty o u) := by
  have nanAny : u.elems.any (fun e => (fmtOf (mxElem sty)).xval e 0 == .nan) = true ↔ ∃ i < 32, blockValue sty u i = none := by
    simp only [other.any_iff, beq_iff_eq, blockValue_eq_none src]
  refine ⟨fun nan => ?_, fun real => ?_⟩
  · by_cases scales : (decide (o.scale = 0xFF) || decide (u.scale = 0xFF)) = true
    · simp only [blockAcc, if_pos scales]
    · obtain ⟨mx4, any⟩ := (nan.resolve_left fun d => scales (by simp [d])).resolve_left fun d => scales (by simp [d])
      have second : (decide (ty = 23) && u.elems.any fun e => (fmtOf (mxElem sty)).xval e 0 == .nan) = true := by
        simpa [mx4] using nanAny.mpr any
      simp only [blockAcc, if_neg scales, if_pos second]
  · obtain ⟨scale, real⟩ := not_or.mp real
    obtain ⟨scale', nan⟩ := not_or.mp real
    have noNan : ¬(ty = 23 ∧ u.elems.any (fun e => (fmtOf (mxElem sty)).xval e 0 == .nan) = true) := by rwa [nanAny]
    rw [blockAcc_eq whole other (not_or.mpr ⟨scale, scale'⟩) noNan]
    have values := funext (exactValue_blockSum (o := o) (u := u) dst src)
    refine ⟨?_, by simp, fun i lt => ?_⟩
    · rw [← values]
      refine leastScale_find (by omega) fun k => ?_
      rw [Bool.and_eq_true, decide_eq_true_eq, all_fitsMag_iff fun i _ => blockSum_ne_inf dst src i]
    · simp only [getD_map_range _ lt, BitVec.getLsbD_or, getLsbD_bitsOf _ lt]
      rw [← exactValue_blockSum dst src i]
      cases value : exactValue (blockSum ty sty o u i) with
      | none =>
        rw [accAt_none dst src nan lt value]
        exact ⟨rfl, Bool.or_false _⟩
      | some q =>
        obtain ⟨fits, magnitude, inexact⟩ := accAt_some dst src value
        exact ⟨fits, magnitude, by rw [inexact]; rfl⟩

end

/-! ### `MXNORM` (R174) -/

section
variable {ty : BitVec 5} {o : Block}

/-- A value is an exact zero where its number is zero. -/
theorem XVal.isZero_iff (x : XVal) : x.isZero = true ↔ exactValue x = some 0 := by
  cases x with
  | nan | inf => simp [XVal.isZero, exactValue]
  | fin neg m e => rw [XVal.isZero, exactValue_fin, Option.some.injEq, signedValue_eq_zero, decide_eq_true_eq]

/-- The blocks that `MXNORM` leaves as they are (R174). -/
theorem blockFixed_iff (whole : o.Whole) : blockFixed ty o = true ↔ o.scale = 0xFF ∨
    (∃ i < 32, (fmtOf (mxElem ty)).xval (o.elems.getD i 0) 0 = .nan) ∨
    ∀ i < 32, exactValue ((fmtOf (mxElem ty)).xval (o.elems.getD i 0) 0) = some 0 := by
  rw [blockFixed]
  simp only [whole.map_eq, Bool.or_eq_true, decide_eq_true_eq, List.any_map, List.any_eq_true, List.all_map, List.all_eq_true,
    List.mem_range, Function.comp_apply, beq_iff_eq, XVal.isZero_iff, or_assoc]

/-- Whether every element of a block stays below the largest magnitude when it is raised by a power of two (R174). -/
def normFits (ty : BitVec 5) (o : Block) (k : Nat) : Bool := ((List.range 32).map fun i =>
  (fmtOf (mxElem ty)).xval (o.elems.getD i 0) 0).all fun v => fitsMag (fmtOf (mxElem ty)) 0 (v.down (-(k : Int)))

/-- The power of two by which `MXNORM` raises a block's elements (R174). -/
def normShift (ty : BitVec 5) (o : Block) : Nat := ((List.range (o.scale + 1)).reverse.find? (normFits ty o)).getD 0

/-- The last of a range that fits, where the first does. -/
theorem find?_reverse_range {fits : Nat → Bool} (n : Nat) (zero : fits 0 = true) :
    let m := ((List.range (n + 1)).reverse.find? fits).getD 0
    m ≤ n ∧ fits m = true ∧ ∀ k, m < k → k ≤ n → fits k = false := by
  induction n with
  | zero => simp [zero]; omega
  | succ n ih =>
    rw [List.range_succ, List.reverse_append, List.reverse_singleton, List.singleton_append, List.find?_cons]
    cases last : fits (n + 1) with
    | true => exact ⟨le_rfl, last, fun k above below => absurd above (Nat.not_lt.mpr below)⟩
    | false =>
      obtain ⟨le, fit, after⟩ := ih
      refine ⟨le.trans n.le_succ, fit, fun k above below => ?_⟩
      rcases Nat.le_succ_iff.mp below with inside | rfl
      · exact after k above inside
      · exact last

theorem mul_two_zpow_add (x : ℚ) (e : Int) (k : Nat) : x * 2 ^ (e + k) = x * 2 ^ e * 2 ^ k := by
  rw [zpow_add₀ two_ne_zero, zpow_natCast, mul_assoc]

theorem normFits_iff (held : ty = 19 ∨ ty = 23) (k : Nat) : normFits ty o k = true ↔ ∀ i q, i < 32 →
    exactValue ((fmtOf (mxElem ty)).xval (o.elems.getD i 0) 0) = some q → |q| * 2 ^ k ≤ maxOf (fmtOf (mxElem ty)) := by
  simp only [normFits, List.all_map, List.all_eq_true, List.mem_range, Function.comp_apply]
  refine forall_congr' fun i => ?_
  rw [forall_comm]
  refine forall_congr' fun lt => ?_
  have real := (fmtOf (mxElem ty)).xval_ne_inf (held_hasInf held) (o.elems.getD i 0) 0
  generalize (fmtOf (mxElem ty)).xval (o.elems.getD i 0) 0 = x at real
  cases x with
  | nan => simp [XVal.down, fitsMag, exactValue]
  | inf n v => exact absurd rfl (real n v)
  | fin n m e =>
    simp only [XVal.down, fitsMag_fin, exactValue_fin, Option.some.injEq, forall_eq', abs_signedValue, sub_neg_eq_add, zpow_zero,
      mul_one, mul_two_zpow_add]

/-- R174: what `MXNORM` makes of a block that it does not leave as it is. -/
theorem blockNorm_rule (held : ty = 19 ∨ ty = 23) (whole : o.Whole) (changes : ¬blockFixed ty o = true) :
    NormRule ty o (blockNorm ty o) := by
  have form : blockNorm ty o = { o with
      elems := (List.range 32).map fun i => (accElem (fmtOf (mxElem ty)) 127
        (((fmtOf (mxElem ty)).xval (o.elems.getD i 0) 0).down (-(normShift ty o : Int)))).1
      scale := o.scale - normShift ty o } := by
    simp only [blockNorm, if_neg changes, whole.map_eq, List.map_map]
    rfl
  have first : normFits ty o 0 = true := (normFits_iff held 0).mpr fun i q _ value => by
    obtain ⟨n, m, e, element, rfl⟩ := exists_fin_of_exactValue value
    rw [abs_signedValue, pow_zero, mul_one]
    exact (mxElem_sound ty).xval_le_max element
  obtain ⟨le, fit, after⟩ : normShift ty o ≤ o.scale ∧ normFits ty o (normShift ty o) = true ∧
    ∀ k, normShift ty o < k → k ≤ o.scale → normFits ty o k = false := find?_reverse_range o.scale first
  rw [form]
  refine ⟨normShift ty o, le, (normFits_iff held _).mp fit, fun n above below fits => ?_, rfl, rfl, by simp, ?_⟩
  · exact Bool.false_ne_true ((after n above below).symm.trans ((normFits_iff held n).mpr fits))
  · intro i q lt value
    have raised := (normFits_iff held _).mp fit i q lt value
    obtain ⟨n, m, e, element, rfl⟩ := exists_fin_of_exactValue value
    have element : (fmtOf (mxElem ty)).xval (o.elems.getD i 0) 0 = .fin n m e := element
    have sign : blockNeg ty o i = n := by simp only [blockNeg, element]
    rw [abs_signedValue] at raised ⊢
    rw [← mul_two_zpow_add] at raised ⊢
    have encodes := (mxElem_sound ty).accElem_encodes 127 n m (e + normShift ty o)
    have one : (2 : ℚ) ^ (((127 : Nat) : Int) - 127) = 1 := by norm_num
    rw [one, div_one] at encodes
    dsimp only at encodes
    rw [if_pos raised, Fmt.oddAt_scaled element] at encodes
    simp only [getD_map_range _ lt, element, XVal.down, sub_neg_eq_add, sign]
    exact ⟨encodes.fits, encodes.value⟩

end

/-! ### `MXRES` (R173) -/

/-- The order of finite values that are not both zero is that of their numbers (R134, R135). -/
theorem xLt_fin_iff {k n : Bool} {l m : Nat} {g e : Int} (nonzero : ¬(l = 0 ∧ m = 0)) :
    xLt (.fin k l g) (.fin n m e) = true ↔ signedValue k l g < signedValue n m e := by
  have left : (0 : ℚ) ≤ l * 2 ^ g := by positivity
  have right : (0 : ℚ) ≤ m * 2 ^ e := by positivity
  cases k <;> cases n <;> simp only [xLt, signedValue]
  · simp [← not_le, ← magLe_iff]
  · simpa using by linarith
  · have some : 0 < (l : ℚ) * 2 ^ g ∨ 0 < (m : ℚ) * 2 ^ e := by
      rcases Nat.eq_zero_or_pos l with zero | pos
      · exact .inr (mul_pos (Nat.cast_pos.mpr (Nat.pos_of_ne_zero fun z => nonzero ⟨zero, z⟩)) (by positivity))
      · exact .inl (mul_pos (Nat.cast_pos.mpr pos) (by positivity))
    have lt : -((l : ℚ) * 2 ^ g) < m * 2 ^ e := by rcases some with pos | pos <;> linarith
    simpa using lt
  · simp [← not_le, ← magLe_iff]

/-- A finite value is equal to what has its number (R135). -/
theorem fcmpCode_eq_one_iff (x : XVal) (n : Bool) (m : Nat) (e : Int) :
    fcmpCode x (.fin n m e) = 1 ↔ exactValue x = some (signedValue n m e) := by
  rw [fcmpCode_eq]
  cases x with
  | nan => simp [exactValue]
  | inf k v => cases k <;> simp [XVal.isZero, xLt, exactValue]
  | fin k l g =>
    rw [exactValue_fin, Option.some.injEq]
    simp only [reduceCtorEq, or_self, if_false, XVal.isZero, decide_eq_true_eq]
    by_cases zero : l = 0 ∧ m = 0
    · rw [if_pos zero, (signedValue_eq_zero k l g).mpr zero.1, (signedValue_eq_zero n m e).mpr zero.2]
      simp
    · rw [if_neg zero]
      simp only [xLt_fin_iff zero, xLt_fin_iff fun z => zero z.symm]
      rcases lt_trichotomy (signedValue k l g) (signedValue n m e) with lt | same | gt
      · simp [lt, lt.ne]
      · simp [same]
      · simp [gt, gt.not_gt, gt.ne']

/-- Flags joined to others. -/
theorem foldl_or {α : Type} (g : α → BitVec 6) (l : List α) : ∀ a : BitVec 6,
    l.foldl (fun h i => h ||| g i) a = l.foldl (fun h i => h ||| g i) 0 ||| a := by
  induction l with
  | nil => simp
  | cons x l ih =>
    intro a
    rw [List.foldl_cons, List.foldl_cons, ih (a ||| g x), ih (0 ||| g x), BitVec.or_comm a, BitVec.or_assoc]
    simp

section
variable {src ty : BitVec 5} {fcr : Word} {o : Block} {i : Nat}

/-- The scale of a resolved block (R173). -/
def resScale (src ty : BitVec 5) (o : Block) : Nat :=
  if ((List.range 32).map (blockVal src o)).all (·.isZero) then o.scale
  else ((List.range 255).find? fun (k : Nat) =>
    ((List.range 32).map (blockVal src o)).all (fitsMag (fmtOf (mxElem ty)) ((k : Int) - 127))).getD 254

/-- A resolved element (R173). -/
def resAt (src ty : BitVec 5) (fcr : Word) (o : Block) (i : Nat) : FRes × Bool :=
  resElem (fmtOf (mxElem ty)) (mxElem ty) fcr o.scale (resScale src ty o) (o.elems.getD i 0) i (o.sticky.getLsbD i)
    (blockVal src o i)

/-- The resolution of a block that is not NaN, element by element. -/
theorem blockRes_eq (whole : o.Whole) (real : ¬(o.scale = 0xFF ∨ ((fmtOf (mxElem ty)).hasNan = false ∧
      o.elems.any (fun e => (fmtOf (mxElem src)).xval e 0 == .nan) = true))) :
    blockRes src ty fcr o = ⟨(List.range 32).map fun i => (resAt src ty fcr o i).1.bits.toNat,
      o.sticky ||| bitsOf ((List.range 32).map fun i => (resAt src ty fcr o i).2), resScale src ty o,
      (List.range 32).foldl (fun h i => h ||| (resAt src ty fcr o i).1.flags) (if o.sticky = 0 then 0 else fNX)⟩ := by
  have values : (o.elems.map fun e => scaled (fmtOf (mxElem src)) e o.scale) = (List.range 32).map (blockVal src o) :=
    whole.map_eq _
  have pairs : ((List.range 32).map (blockVal src o)).zip o.elems =
      (List.range 32).map fun i => (blockVal src o i, o.elems.getD i 0) := by
    conv_lhs => rw [eq_map_range whole 0]
    rw [List.zip_map']
  have first : ¬(decide (o.scale = 0xFF) || !(fmtOf (mxElem ty)).hasNan &&
      o.elems.any fun e => (fmtOf (mxElem src)).xval e 0 == .nan) = true := by simpa using real
  rw [foldl_or]
  simp only [blockRes, if_neg first, values, pairs, zipIdx_map_range, List.map_map, List.foldl_map]
  rfl

/-- An element under the resolved scale (R173). -/
def resValue (src ty : BitVec 5) (o : Block) (i : Nat) : XVal := (blockVal src o i).down ((resScale src ty o : Int) - 127)

/-- SR's draw for a resolved element, by its stored scale and encoding, its sticky bit, type and position (R99). -/
theorem resAt_final (src ty : BitVec 5) (fcr : Word) (o : Block) (i : Nat) :
    FloatFinal (fmtOf (mxElem ty)) (modeOf fcr) (ftzOf fcr)
      (drawOf fcr (BitVec.ofNat 32 (o.scale * 2 ^ 8 + o.elems.getD i 0))
        ((if o.sticky.getLsbD i then 2 ^ 16 else 0) + (mxElem ty).toNat * 2 ^ 8 + i)) false (resValue src ty o i)
      (resAt src ty fcr o i).1 := by
  have salt : srSalt (if o.sticky.getLsbD i then 1 else 0) (mxElem ty) i =
      BitVec.ofNat 32 ((if o.sticky.getLsbD i then 2 ^ 16 else 0) + (mxElem ty).toNat * 2 ^ 8 + i) := by
    unfold srSalt
    cases o.sticky.getLsbD i <;> simp
  rw [drawOf, ← seedOf_eq, ← salt]
  exact (mxElem_sound ty).floatFinal ⟨modeOf fcr, ftzOf fcr, _⟩ _ _

/-- A resolved element is inexact where its number is not that of the element. -/
theorem resAt_inexact (fcr : Word) {n : Bool} {m : Nat} {e : Int} (value : resValue src ty o i = .fin n m e) :
    (resAt src ty fcr o i).2 =
      decide (exactValue ((fmtOf (mxElem ty)).xval (resAt src ty fcr o i).1.bits.toNat 0) ≠ some (signedValue n m e)) := by
  have form : (resAt src ty fcr o i).2 = (decide (fcmpCode ((fmtOf (mxElem ty)).xval (resAt src ty fcr o i).1.bits.toNat 0)
    (resValue src ty o i) ≠ 1) && decide (resValue src ty o i ≠ .nan)) := rfl
  rw [form, value]
  simp [fcmpCode_eq_one_iff]

theorem resAt_nan (fcr : Word) (value : resValue src ty o i = .nan) : (resAt src ty fcr o i).2 = false := by
  have form : (resAt src ty fcr o i).2 = (decide (fcmpCode ((fmtOf (mxElem ty)).xval (resAt src ty fcr o i).1.bits.toNat 0)
    (resValue src ty o i) ≠ 1) && decide (resValue src ty o i ≠ .nan)) := rfl
  rw [form, value]
  simp

theorem resValue_of_nan (element : (fmtOf (mxElem src)).xval (o.elems.getD i 0) 0 = .nan) : resValue src ty o i = .nan := by
  rw [resValue, blockVal, scaled, element]
  rfl

theorem resValue_of_fin {n : Bool} {m : Nat} {e : Int} (element : (fmtOf (mxElem src)).xval (o.elems.getD i 0) 0 = .fin n m e) :
    resValue src ty o i = .fin n m (e + o.scale - resScale src ty o) := by
  rw [resValue, blockVal, scaled, element]
  exact congrArg (XVal.fin n m) (by ring)

/-- R173: what `MXRES` makes of a block. -/
theorem blockRes_rule (held : src = 19 ∨ src = 23) (whole : o.Whole) : ResRule src ty fcr o (blockRes src ty fcr o) := by
  have nanAny : o.elems.any (fun e => (fmtOf (mxElem src)).xval e 0 == .nan) = true ↔ ∃ i < 32, blockValue src o i = none := by
    simp only [whole.any_iff, beq_iff_eq, blockValue_eq_none held]
  refine ⟨fun nan => ?_, fun real => ?_⟩
  · rw [← nanAny] at nan
    have first : (decide (o.scale = 0xFF) || !(fmtOf (mxElem ty)).hasNan &&
      o.elems.any fun e => (fmtOf (mxElem src)).xval e 0 == .nan) = true := by simpa using nan
    simp only [blockRes, if_pos first]
    rfl
  · rw [← nanAny] at real
    rw [blockRes_eq whole real]
    have values := funext (exactValue_blockVal src o)
    have zeros : ((List.range 32).map (blockVal src o)).all (·.isZero) = true ↔ ∀ i < 32, blockValue src o i = some 0 := by
      simp only [List.all_map, List.all_eq_true, List.mem_range, Function.comp_apply, XVal.isZero_iff, exactValue_blockVal]
    refine ⟨by simp, fun zero => if_pos (zeros.mpr zero), fun some => ?_, fun i => (resAt src ty fcr o i).1, rfl, fun i lt => ?_⟩
    · rw [← zeros] at some
      dsimp only
      rw [resScale, if_neg some, ← values]
      refine leastScale_find (Nat.zero_le _) fun k => ?_
      rw [all_fitsMag_iff fun i _ => blockVal_ne_inf held o i]
      simp
    · have final := resAt_final src ty fcr o i
      simp only [getD_map_range _ lt, BitVec.getLsbD_or, getLsbD_bitsOf _ lt, true_and]
      cases element : (fmtOf (mxElem src)).xval (o.elems.getD i 0) 0 with
      | nan =>
        have value := resValue_of_nan (ty := ty) element
        rw [value] at final
        exact ⟨final, by rw [resAt_nan fcr value]; rfl⟩
      | inf n v => exact absurd element ((fmtOf (mxElem src)).xval_ne_inf (held_hasInf held) _ _ n v)
      | fin n m e =>
        have value := resValue_of_fin (ty := ty) element
        rw [value] at final
        exact ⟨final, by rw [resAt_inexact fcr value]; rfl⟩

end

end Sys2Proof.Machine
end

section
/-!
PROOFS. The block instructions (R163, R169 to R174, R213, R242): each reaches its block and does with it what its rule says.
-/

namespace Sys2Proof.Machine

section
variable {s : State} {d a b : BitVec 5} {c : BitVec 3} {ty : BitVec 5} {p : Place} {o : Nat}

theorem held_of_tg6 (h : tg6 ty = true) : ty = 19 ∨ ty = 23 := by
  have all : ∀ ty : BitVec 5, tg6 ty = true → ty = 19 ∨ ty = 23 := by decide
  exact all ty h

/-- `MXRES` reaches a block of the format that the line's tag names, and writes registers with what it makes of it. -/
theorem State.mxres_reads {held : BitVec 5} (tagged : held = if s.placeByte (p.addr + 126) p = 0x17 then 23 else 19)
    (h : s.BlockAt (s.regs.cap c) (s.regs.val a).toInt 23 pRD false [0x13, 0x17] p o) (ready : s.portsReady [a] [])
    (placed : o % mxBytes held = 0) {z : Resolved}
    (made : blockRes held ty s.regs.fcr (blockOf held (s.placeBytes 128 p) (o / mxBytes held)) = z) :
    ∃ t, exec (.mxres d a b c ty) s = .next (t.completed [a] []
      (((s.regs.blockOut ty d b z.elems z.sticky z.scale).raise z.flags).advance 4)) ∧ KeepsMe s t := by
  have line := h.lineAt
  obtain ⟨t, reach, reached⟩ := line.blockReach
  refine ⟨t, congrArg Host.Outcome.next (s.memory_of_ok t ready ?_), reached.kept⟩
  have target := h.blockTarget .load (.inl rfl)
  have format : (s.placeByte (p.addr + 126) p == 0x13 || s.placeByte (p.addr + 126) p == 0x17) = true := by
    simpa using h.tag
  have passed := reached.blockTag line (ok := fun t => t == 0x13 || t == 0x17) format
    ((p.lineTarget s (s.regs.cap c)).va + o)
  have bytes := reached.blockLine (c := s.regs.cap c) line.global line.has
  have tag : (s.placeBytes 128 p).getD 126 0 = s.placeByte (p.addr + 126) p := by simp [State.placeBytes]
  simp only [Regs.offset, target, liftFault, run_ok_bind, reach, passed, bytes, tag, ← tagged, placed, made]
  rw [reached.refreshed line]
  rfl

end

/-- Settles O26: a block is reached in the base view or in a view, and each instruction does with it what its rule says. -/
theorem blockInstructions : Obligations.BlockInstructions := by
  intro s d a b c ty src p o r line j old reaches reads writes sty f fixed
  have whole : old.Whole := blockOf_whole ..
  have stored : sty = 19 ∨ sty = 23 := by
    simp only [sty]
    split <;> simp
  have mxld : exec (.mxld d a b c ty) s = s.block (.mxld d a b c ty) ty a c pRD false
    fun r o => (r.blockOut ty d b o.elems o.sticky o.scale, none) := rfl
  have mxst : exec (.mxst d a b c ty) s = s.block (.mxst d a b c ty) ty a c pWR true fun r _ => (r, some (r.blockIn ty d b)) := rfl
  have mxacc : exec (.mxacc d a b c ty src) s = s.block (.mxacc d a b c ty src) ty a c pAT true
    fun r o => (r, some (blockAcc ty sty o (r.blockIn sty d b))) := rfl
  have mxnorm : exec (.mxnorm a c ty) s = s.block (.mxnorm a c ty) ty a c pAT true
    fun r o => (r, if blockFixed ty o then none else some (blockNorm ty o)) := rfl
  refine ⟨fun mx => ?_, fun held tagged _ ⟨h, ready⟩ placed => ?_⟩
  · have held := held_of_tg6 mx
    refine ⟨fun ⟨h, ready⟩ => ?_, fun ⟨h, ready⟩ quiet => ?_, fun ⟨h, ready⟩ => ?_, fun ⟨h, ready⟩ changes => ?_,
      fun ⟨h, ready⟩ same => ?_⟩
    · exact State.block_reads mxld h ready rfl
    · exact State.block_writes mxst h ready rfl quiet
    · exact ⟨_, blockAcc_rule held stored whole (Regs.blockIn_whole ..) (BitVec.isLt _),
        fun quiet => State.block_writes mxacc h ready rfl quiet⟩
    · have free : ¬blockFixed ty old = true := fun same => changes ((blockFixed_iff whole).mp same)
      exact ⟨_, blockNorm_rule held whole free, fun quiet => State.block_writes mxnorm h ready (by rw [if_neg free]) quiet⟩
    · have same : blockFixed ty old = true := (blockFixed_iff whole).mpr same
      exact State.block_reads mxnorm h ready (by rw [if_pos same])
  · have format : held = 19 ∨ held = 23 := by
      rw [tagged]
      split <;> simp
    exact ⟨_, blockRes_rule format (blockOf_whole ..), State.mxres_reads tagged h ready placed rfl⟩

end Sys2Proof.Machine
end
